-- ==== Sys2Proof/Word.lean ====
section
/-! DEFINITION. Word.lean: the machine's word and byte types and the plainest conversions between numbers and bytes. -/

namespace Sys2Proof

/-- A 64-bit word: S-words, scalar registers, memory words (R235, R238). -/
abbrev Word := BitVec 64

/-- One byte of any memory (R6). -/
abbrev Byte := BitVec 8

/-- A general register number: s0 to s31 (R238). -/
abbrev Reg := BitVec 5

/-- The low `n` bytes of `v`, least significant first (R6). -/
def leBytes : Nat → Nat → List Byte
  | 0, _ => []
  | n + 1, v => BitVec.ofNat 8 v :: leBytes n (v / 256)

/-- The number that a little-endian byte string stands for (R6). -/
def ofLeBytes : List Byte → Nat
  | [] => 0
  | b :: t => b.toNat + 256 * ofLeBytes t

end Sys2Proof
end

