-- ==== Sys2Proof/Syntax.lean ====
section
/-! DEFINITION. Syntax.lean: the instructions of spec/opcode_table.json (S-words, engine records, queue entries) and its events, each one constructor of Instr. -/

namespace Sys2Proof

/-- Conditions of cmp and bc (R242). -/
inductive Cond | eq | ne | lt | ge | ltu | geu
  deriving DecidableEq, Repr

/-- Signedness of mulh: .ss, .uu, .su (R260). -/
inductive MulhMode | ss | uu | su
  deriving DecidableEq, Repr

/-- Formats of scalar floating point, coded 00 to 11 (R264). -/
inductive SFmt | f32 | f64 | f16 | bf16
  deriving DecidableEq, Repr

/-- Relations of fcmp (R264). -/
inductive FRel | eq | lt | le | un
  deriving DecidableEq, Repr

/-- The conversions of fcvt (R265). -/
inductive FcvtKind
  | ff (dst src : SFmt) | toI64 (src : SFmt) | toN64 (src : SFmt) | ofI64 (dst : SFmt) | ofN64 (dst : SFmt)
  deriving DecidableEq, Repr

/-- The four address spaces (R90). -/
inductive Space | sp | gv | ws | ac
  deriving DecidableEq, Repr

/-- Access widths and signedness, codes 000 to 110 (R241). -/
inductive Width | i8 | n8 | i16 | n16 | i32 | n32 | i64
  deriving DecidableEq, Repr

/-- Semantics codes (R21). -/
inductive Sem | plain | acq | rel | ar
  deriving DecidableEq, Repr

/-- Scopes (R21, R126). -/
inductive Scope | strand | lcore | clus | gang | chip | vr | peer
  deriving DecidableEq, Repr

/-- Paths of accesses (R121). -/
inductive Path | s | v | m | t | f | c
  deriving DecidableEq, Repr

/-- The five engine queues of a core (R35). -/
inductive Engine | v | m | t | f | c
  deriving DecidableEq, Repr

/-- The SM fields of a scalar memory access (R240). -/
structure SMem where
  cls   : BitVec 4
  space : Space
  width : Width
  scope : Scope
  sem   : Sem
  off   : BitVec 20
  deriving DecidableEq, Repr

/-- The SM fields of a class 7 word (R355). -/
structure FMem where
  cls   : BitVec 4
  width : Width
  scope : Scope
  sem   : Sem
  deriving DecidableEq, Repr

/-- The kinds of test of bts (R278). -/
inductive BtsKind | any | none | ended
  deriving DecidableEq, Repr

/-- Rounding modes (R70). -/
inductive RMode | rne | rtz | rdn | rup | sr
  deriving DecidableEq, Repr

/-- One operand slot of an engine record (R23, R246): kind tag, index (93:89), bits 88:64 and bits 63:0. -/
structure Slot where
  kind : BitVec 2
  idx  : BitVec 5
  mid  : BitVec 25
  low  : BitVec 64
  deriving DecidableEq, Repr

/-- The fields of an engine record's eight words, less class and opcode (R244 to R246). -/
structure Rec where
  type  : BitVec 6
  type2 : BitVec 6
  psel  : BitVec 3
  pe    : Bool
  cls   : BitVec 4
  tflag : BitVec 4
  stat  : BitVec 17
  se    : Bool
  ctl   : BitVec 10
  t0    : BitVec 16
  t1    : BitVec 16
  t2    : BitVec 16
  t3    : BitVec 16
  d     : Slot
  a     : Slot
  b     : Slot
  c     : Slot
  deriving DecidableEq, Repr

/-- A Dolkafold packet: endpoints, header fields and payload (R187). -/
structure Packet where
  srcEp : BitVec 12
  dstEp : BitVec 12
  hop   : BitVec 2
  vc    : BitVec 2
  token : Word
  op    : BitVec 8
  cls   : BitVec 4
  sem   : BitVec 2
  scope : BitVec 3
  sub   : BitVec 7
  dstvr : BitVec 20
  srcvr : BitVec 20
  fmt   : BitVec 6
  va    : BitVec 56
  pseq  : BitVec 32
  cseq  : BitVec 14
  data  : List Byte
  /-- The F-die at which it arrived: not among its bytes; 0 for a packet of the chip itself (R179, R196; log 100, DESIGN CHOICE). -/
  die   : Nat := 0
  deriving DecidableEq, Repr

/-- A declared global range of a VR image (R394). -/
structure GvRange where
  va     : Nat
  len    : Nat
  rights : BitVec 3
  data   : List Byte
  deriving DecidableEq, Repr

/-- A region record of a VR image (R394). -/
structure RegionDecl where
  idx  : Nat
  w    : Bool
  r    : Bool
  base : Nat
  len  : Nat
  va   : Nat
  step : Nat
  deriving DecidableEq, Repr

/-- An entry record of a VR image (R394): a strand's entry, or a spawn template. -/
structure EntryDecl where
  template : Bool
  slot     : Nat
  lcore    : Option Nat
  entry    : Nat
  wdog     : Nat
  deriving DecidableEq, Repr

/-- A stream record of a VR image (R394). -/
structure StreamDecl where
  n     : Nat
  first : Nat
  value : BitVec 128
  deriving DecidableEq, Repr

/-- What a VR image says (R394). -/
structure Image where
  m       : Nat
  quota   : Nat
  code    : List Word
  gvs     : List GvRange
  regions : List RegionDecl
  consts  : List Word
  entries : List EntryDecl
  streams : List StreamDecl
  deriving DecidableEq, Repr

/-- The context of a moving VR as the source supervisor sends it (R206): the level-0 leaves carry VA page number and low leaf bits. -/
structure MoveContext where
  vr      : Nat
  fn      : Nat
  from_   : BitVec 12
  image   : Image
  consts  : List (Nat × Word)
  windows : List (Nat × BitVec 128)
  key     : BitVec 128
  seed    : Word
  peers   : List (Nat × Option Word)
  leaves  : List (Nat × BitVec 12)
  token   : Word
  ipa     : Nat
  ipaEnd  : Nat
  /-- The energy charged to the VR since its creation, which sys.energy goes on from (R223; log 102, DEDUCED). -/
  energy  : Nat
  deriving DecidableEq, Repr

/-- A record of the dedup window (R197): resolved, status, returned data. -/
structure Machine.Dedup where
  done   : Bool
  status : BitVec 7
  data   : List Byte
  deriving DecidableEq, Repr

/-- What a destination keeps for one source VR (R194, R196, R197): highest pseq, records, per class the last cseq resolved with all before it, and those resolved ahead of their order. -/
structure Machine.SrcWin where
  high  : BitVec 32
  recs  : List (Nat × Option Machine.Dedup)
  cseq  : List (Nat × BitVec 14)
  early : List (Nat × BitVec 14)
  fails : Nat
  quar  : Bool
  deriving DecidableEq, Repr

/-- A collective message kept in the staging range (R378): sender VR, VA, bytes. -/
structure Machine.Staged where
  src  : Nat
  va   : BitVec 56
  data : List Byte
  deriving DecidableEq, Repr

/-- A requester's sequences for one pair of VRs (R196): last pseq and last cseq of each class. -/
structure Machine.Pair where
  pseq : BitVec 32
  cseq : List (Nat × BitVec 14)
  deriving DecidableEq, Repr

/-- What a source supervisor sends of a moving VR (R206): its context first, its dedup windows and sequences last, with the energy charged since, and what is charged after that once the VR is gone (R223; log 102, DEDUCED). -/
inductive MovePart
  | context (c : MoveContext)
  | last (vr : Nat) (srcs : List (Nat × Machine.SrcWin)) (pairs : List (Nat × Machine.Pair)) (staged : List Machine.Staged) (energy : Nat)
  | charged (vr energy : Nat)
  deriving DecidableEq, Repr

/-- What an invalidation names (R115): a VA range of one VR in pages, one VR, one function, or everything. -/
inductive InvScope
  | range (vr lo hi : Nat) | vr (vr : Nat) | fn (f : Nat) | all
  deriving DecidableEq, Repr

/-- A bank that can be power-gated (R100): scratchpad bank of a core, or weight-store bank of a C-die. -/
inductive BankId
  | spad (core bank : Nat) | ws (die bank : Nat)
  deriving DecidableEq, Repr

/-- Registers that the supervisor or the host writes and that have no row of their own (R6, R184, R185, R218, R391). -/
inductive SupReg
  | lanecnt (port wave : Nat) | lanethr (die : Nat) | route (ep : Nat) | allot (fn res : Nat) | period | binderr
  | qbad (fn ring : Nat) | mbxSt (fn n : Nat) | quarantine (target : Nat) | bar4 (off : Nat) | unused (off : Nat)
  deriving DecidableEq, Repr

/-- Partition registers (R216). -/
inductive PartReg | clus0 | clus1 | hbm0 | hbm1 | lp0 | lp1 | s2root
  deriving DecidableEq, Repr

/-- The instructions and events of the opcode table, one constructor per row; those without operands stand last. -/
inductive Instr
  | add (d a b : Reg)
  | sub (d a b : Reg)
  | mul (d a b : Reg)
  | mulh (k : MulhMode) (d a b : Reg)
  | div (u : Bool) (d a b : Reg)
  | rem (u : Bool) (d a b : Reg)
  | and (d a b : Reg)
  | or (d a b : Reg)
  | xor (d a b : Reg)
  | shl (d a b : Reg)
  | shr (d a b : Reg)
  | sar (d a b : Reg)
  | rot (d a b : Reg)
  | clz (d a : Reg)
  | ctz (d a : Reg)
  | popc (d a : Reg)
  | min (u : Bool) (d a b : Reg)
  | max (u : Bool) (d a b : Reg)
  | sel (d a b n : Reg)
  | cmp (k : Cond) (d a b : Reg)
  | addi (d a : Reg) (imm : BitVec 32)
  | andi (d a : Reg) (imm : BitVec 32)
  | ori (d a : Reg) (imm : BitVec 32)
  | xori (d a : Reg) (imm : BitVec 32)
  | shli (d a : Reg) (n : BitVec 6)
  | li (d : Reg) (imm : BitVec 32)
  | lih (d : Reg) (imm : BitVec 32)
  | lea (d a : Reg) (space : Space) (off : BitVec 20)
  | bnd (d a b : Reg)
  | fadd (f : SFmt) (d a b : Reg)
  | fmul (f : SFmt) (d a b : Reg)
  | ffma (f : SFmt) (d a b : Reg)
  | fcvt (k : FcvtKind) (d a : Reg)
  | fcmp (f : SFmt) (k : FRel) (d a b : Reg)
  | cntset (c : BitVec 3) (a : Reg) (w : BitVec 3)
  | cntmin (c : BitVec 3) (x : BitVec 3) (b : Reg)
  | cntsub (c : BitVec 3) (x : BitVec 3) (b : Reg)
  | ld (d a : Reg) (m : SMem)
  | st (b a : Reg) (m : SMem)
  | lda (d a : Reg) (m : SMem)
  | stl (b a : Reg) (m : SMem)
  | atom (op : BitVec 3) (d a b : Reg) (m : SMem)
  | cas (d a b : Reg) (m : SMem)
  | kld (d a : Reg) (imm : BitVec 32)
  | sdld (n : BitVec 4) (a : Reg) (cls : BitVec 4) (space : Space) (off : BitVec 20)
  | sdst (n : BitVec 4) (a : Reg) (cls : BitVec 4) (space : Space) (off : BitVec 20)
  | fence (mask : BitVec 16)
  | xfence (p q : Path)
  | br (imm : BitVec 32)
  | bc (k : Cond) (a b : Reg) (imm : BitVec 32)
  | jal (d : Reg) (imm : BitVec 32)
  | jr (d a : Reg)
  | loop (n : BitVec 2) (a : Reg) (len cnt : BitVec 16)
  | bts (k : BtsKind) (a b : Reg) (imm : BitVec 32)
  | bpois (np : Bool) (a : Reg) (imm : BitVec 32)
  | semwait (n : BitVec 6) (cnt : BitVec 16)
  | semsig (n : BitVec 6) (cnt : BitVec 16) (named : Bool) (a : Reg)
  | trap (code : BitVec 8)
  | brk (tag : BitVec 16)
  | spawn (t : BitVec 12) (a : Reg)
  | signal (n : BitVec 16) (a : Reg)
  | snap (trig : BitVec 16)
  | sysr (d : Reg) (num : BitVec 12)
  | sysw (num : BitVec 12) (a : Reg)
  | varm (d a b : Reg)
  | vgo (d a : Reg)
  | migr (d a b : Reg)
  | recordLeavesQueue (core : Nat) (e : Engine)
  | recordCompletion (core : Nat) (e : Engine)
  | vadd (r : Rec)
  | vsub (r : Rec)
  | vmul (r : Rec)
  | vfma (r : Rec)
  | vfms (r : Rec)
  | vdiv (r : Rec)
  | vmin (r : Rec)
  | vmax (r : Rec)
  | vabs (r : Rec)
  | vneg (r : Rec)
  | vcopysign (r : Rec)
  | vclamp (r : Rec)
  | vround (r : Rec)
  | vand (r : Rec)
  | vor (r : Rec)
  | vxor (r : Rec)
  | vnot (r : Rec)
  | vshl (r : Rec)
  | vshr (r : Rec)
  | vsar (r : Rec)
  | vcmp (r : Rec)
  | vsel (r : Rec)
  | vmov (r : Rec)
  | vfill (r : Rec)
  | vcvt (r : Rec)
  | vquant (r : Rec)
  | vdeq (r : Rec)
  | vrcp (r : Rec)
  | vsqrt (r : Rec)
  | vrsqrt (r : Rec)
  | vexp (r : Rec)
  | vexp2 (r : Rec)
  | vlog (r : Rec)
  | vlog2 (r : Rec)
  | vtanh (r : Rec)
  | verf (r : Rec)
  | vsum (r : Rec)
  | vdot (r : Rec)
  | vmaxr (r : Rec)
  | vscan (r : Rec)
  | vtopk (r : Rec)
  | vargmax (r : Rec)
  | vgath (r : Rec)
  | vscat (r : Rec)
  | vrng (r : Rec)
  | vamax (r : Rec)
  | vmode (rm : RMode) (ovf : Bool) (en : BitVec 7)
  | mlease (r : Rec)
  | mfree (r : Rec)
  | mma (r : Rec)
  | mmas (r : Rec)
  | mmag (r : Rec)
  | mzero (r : Rec)
  | mlda (r : Rec)
  | mdrain (r : Rec)
  | mfold (r : Rec)
  | mstat (r : Rec)
  | mmode (rm : RMode) (ovf : Bool) (en : BitVec 5)
  | tcopy (r : Rec)
  | tgather (r : Rec)
  | tscatter (r : Rec)
  | tfill (r : Rec)
  | tmap (r : Rec)
  | tunmap (r : Rec)
  | tflush (r : Rec)
  | tprefetch (r : Rec)
  | twload (r : Rec)
  | tfetch (r : Rec)
  | tmode (tr : Bool)
  | qfence (e : Engine) (mask : BitVec 16)
  | rld (blk : Bool) (d a v t : Reg) (m : FMem)
  | rst (blk : Bool) (b a v t : Reg) (m : FMem)
  | rsth (blk : Bool) (b a v t h : Reg) (m : FMem)
  | ratom (op : BitVec 3) (d a b v t : Reg) (m : FMem)
  | rcas (d a b v t : Reg) (m : FMem)
  | rprobe (d a v t : Reg)
  | rfeat (d v t : Reg)
  | grant (d a b c : Reg)
  | revoke (d a : Reg)
  | rmcast (d a b : Reg) (m : FMem)
  | rred (op : BitVec 3) (b a v t : Reg) (m : FMem)
  | rcopy (put : Bool) (d a v t : Reg) (cls : BitVec 4) (width : Width)
  | cjoin (r : Rec)
  | callred (r : Rec)
  | credsc (r : Rec)
  | callgath (r : Rec)
  | cbcast (r : Rec)
  | ctopk (r : Rec)
  | cbar (r : Rec)
  | regionFill (task lcore idx : Nat)
  | faultResolution (id : Nat)
  | tierPromotion (id : Nat)
  | responseRecord (fn : Nat)
  | endTaskWriteback (task : Nat)
  | completionSignalWrite (task : Nat)
  | twloadApply (task : Nat)
  | rotation (core : Nat)
  | preemptRequest (task : Nat) (deadline : BitVec 32)
  | deadlineExpiry (task core : Nat)
  | gangRelease (task : Nat)
  | gangResume (task : Nat) (binds : List (Nat × Word))
  | watchdogExpiry (task : Nat)
  | powerWindowEnd (watts : Nat)
  | admitStepTask (task : Nat) (binds : List (Nat × Word))
  | spawnAdmit (vr task : Nat) (binds : List (Nat × Word))
  | invalidation (scope : InvScope)
  | bankGate (bank : BankId) (gate : Bool)
  | wsRefreshWindow (die : Nat)
  | ackTimeout (port : Nat)
  | loadRequest (p : Packet)
  | storeRequest (p : Packet)
  | storeWithHandler (p : Packet)
  | atomicRequest (p : Packet)
  | casRequest (p : Packet)
  | probeRequest (p : Packet)
  | featureQuery (p : Packet)
  | multicastStore (p : Packet)
  | reducingStore (p : Packet)
  | replyWithData (p : Packet)
  | acknowledgement (p : Packet)
  | retransmitTimeout (src dst : Nat) (pseq : BitVec 32)
  | busyRetransmit (src dst : Nat) (pseq : BitVec 32)
  | holdStoreAbandon (src dst : Nat) (pseq : BitVec 32)
  | arm (p : Packet)
  | armReply (p : Packet)
  | armTimeout (launch : BitVec 32)
  | go (p : Packet)
  | launchAbort (p : Packet)
  | armExpiry (launch : BitVec 32)
  | lost (p : Packet)
  | peerFailure (launch : BitVec 32)
  | migrationContext (part : MovePart)
  | migrationDrainEnd (vr : Nat)
  | pullRequest (p : Packet)
  | pullData (p : Packet) (arrived : Bool)
  | pullAcknowledgement (p : Packet)
  | snapshotTrigger (p : Packet)
  | createVr (fn n : Nat)
  | launch (fn n : Nat)
  | cancel (fn n : Nat)
  | migrate (fn n : Nat)
  | peerTokens (fn n : Nat)
  | vrStatus (fn n : Nat)
  | quote (fn n : Nat)
  | identity (fn n : Nat)
  | image (fn n : Nat)
  | window (fn n : Nat)
  | partition (fn n : Nat)
  | locations (fn n : Nat)
  | bankWakeEnd (bank : BankId)
  | freePageRingRefill (fn : Nat) (pages : List Word)
  | slotTableWrite (index : Nat) (value : BitVec 192)
  | partitionWrite (fn : Nat) (reg : PartReg) (value : Word)
  | detmodeWrite (value : Word)
  | schedSnapWrite (value : Word)
  | fabPortstatWrite (port : Nat) (value : Word)
  | registerWrite (reg : SupReg) (value : Word)
  | flitReceive (port wave : Nat) (bytes : List Byte)
  | linkReplay (port : Nat) (lseq : BitVec 16)
  | fecWindowEnd (port wave corrected : Nat)
  | retrainEnd (port wave : Nat) (ok : Bool)
  | mailboxPost (fn n : Nat)
  | mailboxRelease (fn n : Nat)
  | qBaseWrite (fn ring : Nat) (value : Word)
  | qTailWrite (fn ring : Nat) (value : Word)
  | qHeadWrite (fn ring : Nat) (value : Word)
  | bar2Write (off : Nat) (bytes : List Byte)
  | functionLevelReset (fn : Nat)
  | linkTraining (link rate width : Nat)
  | ret
  | barc
  | barg
  | esync
  | tret
  | yield
  | region
  | tail
  | halt
  | nop
  | rfence
  | budgetPeriodBoundary
  | signalRelay
  | snapshotLatch
  | mailboxTake
  | boot
  | powerLoss
  deriving DecidableEq, Repr

end Sys2Proof
end

