-- ==== Sys2Proof/Machine/Formats.lean ====
section
/-! DEFINITION. Machine/Formats.lean: the 6-bit format codes (R249), their widths, groups and floating-point parameters (R63, R64), block geometry (R66, R67). -/

namespace Sys2Proof.Machine

/-- A 6-bit format code (R249). -/
abbrev Fmt := BitVec 6

def fI8 : Fmt := 0x01
def fN8 : Fmt := 0x02
def fI16 : Fmt := 0x03
def fN16 : Fmt := 0x04
def fI32 : Fmt := 0x05
def fN32 : Fmt := 0x06
def fI64 : Fmt := 0x07
def fI4 : Fmt := 0x08
def fF16 : Fmt := 0x10
def fBf16 : Fmt := 0x11
def fF32 : Fmt := 0x12
def fF64 : Fmt := 0x13
def fE4m3 : Fmt := 0x14
def fE5m2 : Fmt := 0x15
def fE2m3 : Fmt := 0x16
def fE3m2 : Fmt := 0x17
def fE2m1 : Fmt := 0x18
def fPb9 : Fmt := 0x28
def fPb6 : Fmt := 0x29
def fPb4 : Fmt := 0x2A
def fMask1 : Fmt := 0x30

/-- How a floating-point format encodes infinity and NaN (R64). -/
inductive FSpecial | ieee | nanOnly | none
  deriving DecidableEq, Repr

/-- Exponent bits, fraction bits, bias and special encodings of a floating-point format (R64). -/
structure FParam where
  e : Nat
  f : Nat
  bias : Nat
  special : FSpecial
  deriving DecidableEq, Repr

/-- The floating-point parameters of a code; MX codes give those of their element format (R64, R66). -/
def fparam (c : Fmt) : Option FParam :=
  match c.toNat with
  | 0x13 => some ⟨11, 52, 1023, .ieee⟩
  | 0x12 => some ⟨8, 23, 127, .ieee⟩
  | 0x10 => some ⟨5, 10, 15, .ieee⟩
  | 0x11 => some ⟨8, 7, 127, .ieee⟩
  | 0x14 => some ⟨4, 3, 7, .nanOnly⟩
  | 0x15 => some ⟨5, 2, 15, .ieee⟩
  | 0x16 => some ⟨2, 3, 1, .none⟩
  | 0x17 => some ⟨3, 2, 3, .none⟩
  | 0x18 => some ⟨2, 1, 1, .none⟩
  | 0x20 => some ⟨4, 3, 7, .nanOnly⟩
  | 0x21 => some ⟨5, 2, 15, .ieee⟩
  | 0x22 => some ⟨2, 3, 1, .none⟩
  | 0x23 => some ⟨3, 2, 3, .none⟩
  | 0x24 => some ⟨2, 1, 1, .none⟩
  | _ => none

/-- Group F: f16, bf16, f32, f64 (R293). -/
def isF (c : Fmt) : Bool := decide (0x10 ≤ c.toNat ∧ c.toNat ≤ 0x13)

/-- Group I: i8, n8, i16, n16, i32, n32, i64 (R293). -/
def isI (c : Fmt) : Bool := decide (0x01 ≤ c.toNat ∧ c.toNat ≤ 0x07)

/-- Group N: i4, e4m3, e5m2, e2m3, e3m2, e2m1 (R293). -/
def isN (c : Fmt) : Bool := decide (c.toNat = 0x08 ∨ (0x14 ≤ c.toNat ∧ c.toNat ≤ 0x18))

/-- The floating formats of group N. -/
def isNF (c : Fmt) : Bool := decide (0x14 ≤ c.toNat ∧ c.toNat ≤ 0x18)

/-- Group M: mask1 (R293). -/
def isM (c : Fmt) : Bool := decide (c.toNat = 0x30)

/-- MX codes (R66). -/
def isMx (c : Fmt) : Bool := decide (0x20 ≤ c.toNat ∧ c.toNat ≤ 0x24)

/-- PB codes (R67). -/
def isPb (c : Fmt) : Bool := decide (0x28 ≤ c.toNat ∧ c.toNat ≤ 0x2A)

/-- Group X: the MX and PB codes (R293). -/
def isX (c : Fmt) : Bool := isMx c || isPb c

/-- Every assigned format code (R249). -/
def fmtValid (c : Fmt) : Bool := isF c || isI c || isN c || isM c || isX c

/-- Signed integer formats (R63). -/
def isSigned (c : Fmt) : Bool :=
  decide (c.toNat = 0x01 ∨ c.toNat = 0x03 ∨ c.toNat = 0x05 ∨ c.toNat = 0x07 ∨ c.toNat = 0x08)

/-- Element bits of a format code (R249). -/
def fmtBits (c : Fmt) : Nat :=
  match c.toNat with
  | 0x01 | 0x02 => 8
  | 0x03 | 0x04 => 16
  | 0x05 | 0x06 => 32
  | 0x07 => 64
  | 0x08 => 4
  | 0x10 | 0x11 => 16
  | 0x12 => 32
  | 0x13 => 64
  | 0x14 | 0x15 => 8
  | 0x16 | 0x17 => 6
  | 0x18 => 4
  | 0x20 | 0x21 => 8
  | 0x22 | 0x23 => 6
  | 0x24 => 4
  | 0x28 => 9
  | 0x29 => 6
  | 0x2A => 4
  | 0x30 => 1
  | _ => 0

/-- Magnitude bits per element of a PB format (R67). -/
def pbMag (c : Fmt) : Nat := if c.toNat = 0x28 then 7 else if c.toNat = 0x29 then 4 else 2

/-- The bits of one element in a stream's string: m + 1 in a PB block, whose shared bytes stand apart (R60, R67). -/
def fieldBits (c : Fmt) : Nat := if isPb c then pbMag c + 1 else fmtBits c

/-- Bytes per block of a PB format (R67). -/
def pbBytes (c : Fmt) : Nat := if c.toNat = 0x28 then 18 else if c.toNat = 0x29 then 12 else 8

/-- Elements per block of a block format: 32 for MX, 16 for PB (R66, R67). -/
def blockSize (c : Fmt) : Nat := if isMx c then 32 else 16

/-- The width code of a count predicate for an element of `bits` bits (R266). -/
def widthCode (bits : Nat) : BitVec 3 :=
  match bits with
  | 1 => 0 | 4 => 1 | 6 => 2 | 8 => 3 | 16 => 4 | 32 => 5 | 64 => 6 | _ => 7

/-- The format code of a scalar floating-point format (R264). -/
def sfmtCode : SFmt → Fmt
  | .f32 => fF32 | .f64 => fF64 | .f16 => fF16 | .bf16 => fBf16

/-- Bytes of an access width (R241). -/
def widthBytes : Width → Nat
  | .i8 | .n8 => 1 | .i16 | .n16 => 2 | .i32 | .n32 => 4 | .i64 => 8

/-- Whether a load of this width sign-extends (R241). -/
def widthSigned : Width → Bool
  | .i8 | .i16 | .i32 | .i64 => true | _ => false

end Sys2Proof.Machine
end

