-- ==== Sys2Proof/Machine/Sparse.lean ====
section
/-! DEFINITION. Machine/Sparse.lean: finite maps from addresses or indices to plain data, in one canonical form, and the byte memories built from them. -/

namespace Sys2Proof.Machine

/-- Put an element into a sorted list, behind the elements that may stand before it. -/
def insertBy {α : Type} (le : α → α → Bool) (x : α) : List α → List α
  | [] => [x]
  | y :: t => if le y x then y :: insertBy le x t else x :: y :: t

/-- A stable sort: equal elements keep their order. -/
def isort {α : Type} (le : α → α → Bool) (l : List α) : List α := l.foldl (fun acc x => insertBy le x acc) []

/-- A map from numbers to data: keys strictly rising, and no entry equal to what an unlisted key reads as. -/
abbrev SMap (α : Type) := List (Nat × α)

/-- What key `k` reads as; an unlisted key reads as `d`. -/
def sget {α : Type} (d : α) : SMap α → Nat → α
  | [], _ => d
  | (k', v) :: t, k => if k = k' then v else sget d t k

/-- The entries whose keys are below `k`. -/
def sbelow {α : Type} (m : SMap α) (k : Nat) : SMap α := m.filter fun e => decide (e.1 < k)

/-- The entries whose keys are `k` or above. -/
def sfrom {α : Type} (m : SMap α) (k : Nat) : SMap α := m.filter fun e => decide (k ≤ e.1)

/-- The entries for the values `vs` at consecutive keys from `k`, leaving out those equal to the default. -/
def srun {α : Type} [DecidableEq α] (d : α) : Nat → List α → SMap α
  | _, [] => []
  | k, v :: t => if v = d then srun d (k + 1) t else (k, v) :: srun d (k + 1) t

/-- Write the values `vs` at consecutive keys from `k`. -/
def sputs {α : Type} [DecidableEq α] (d : α) (m : SMap α) (k : Nat) (vs : List α) : SMap α :=
  sbelow m k ++ (srun d k vs ++ sfrom m (k + vs.length))

/-- Write `v` at key `k`; writing the value that an unlisted key reads as removes the entry. -/
def sset {α : Type} [DecidableEq α] (d : α) (m : SMap α) (k : Nat) (v : α) : SMap α :=
  sputs d m k [v]

/-- Change the value at key `k`. -/
def smod {α : Type} [DecidableEq α] (d : α) (m : SMap α) (k : Nat) (f : α → α) : SMap α :=
  sset d m k (f (sget d m k))

/-- The `n` values from key `k` on, for a map whose keys from `k` on rise. -/
def sdense {α : Type} (d : α) : Nat → Nat → SMap α → List α
  | 0, _, _ => []
  | n + 1, k, [] => d :: sdense d n (k + 1) []
  | n + 1, k, (k', v) :: t => if k' = k then v :: sdense d n (k + 1) t else d :: sdense d n (k + 1) ((k', v) :: t)

/-- Every key of the map is above `b`. -/
def sabove {α : Type} (b : Nat) : SMap α → Bool
  | [] => true
  | (k, _) :: t => decide (b < k) && sabove b t

/-- The canonical form: keys strictly rising and no entry equal to the default. -/
def swf {α : Type} [DecidableEq α] (d : α) : SMap α → Bool
  | [] => true
  | (k, v) :: t => sabove k t && decide (v ≠ d) && swf d t

/-- A byte memory: what an unlisted address reads as is the byte 0 (log 4, DESIGN CHOICE). -/
abbrev Mem := List Host.Cell

/-- The byte that an unlisted address reads as (log 4, DESIGN CHOICE). -/
def unlisted : Byte := 0

/-- The byte at address `a`. -/
def Mem.byte (m : Mem) (a : Nat) : Byte := sget unlisted m a

/-- Write one byte. -/
def Mem.setByte (m : Mem) (a : Nat) (b : Byte) : Mem := sset unlisted m a b

/-- The canonical form of a byte memory. -/
def Mem.wf (m : Mem) : Bool := swf unlisted m

/-- `n` bytes from address `a` upwards. -/
def Mem.bytes (m : Mem) : Nat → Nat → List Byte
  | _, 0 => []
  | a, n + 1 => m.byte a :: Mem.bytes m (a + 1) n

/-- Write a byte string from address `a` upwards. -/
def Mem.setBytes (m : Mem) (a : Nat) (bs : List Byte) : Mem := sputs unlisted m a bs

/-- The `n`-byte little-endian number at `a` (R6). -/
def Mem.read (m : Mem) (a n : Nat) : Nat := ofLeBytes (m.bytes a n)

/-- Write `v` as an `n`-byte little-endian number at `a` (R6). -/
def Mem.write (m : Mem) (a n v : Nat) : Mem := m.setBytes a (leBytes n v)

end Sys2Proof.Machine
end

