-- ==== Sys2Proof/Machine/State.lean ====
section
/-! DEFINITION. Machine/State.lean: everything the spec gives the machine, as plain data, the state after reset, and the reasons a step can stop. -/

namespace Sys2Proof.Machine

/-- Why a step faults. -/
inductive Fault
  /-- Raised by `step` while the module has no power and the next turn is not BOOT (R397): a part without power does nothing. Safe: no effect is invented. -/
  | noPower
  deriving DecidableEq, Repr

/-- Why a step is refused. -/
inductive Refusal
  /-- Raised by `exec` for an instruction whose meaning is not written. Safe: nothing can be proved of it. -/
  | notModelled (mnemonic : String)
  deriving DecidableEq, Repr

/-- A strand by its task entry (index less 288), logical core and strand slot (R27, R33, R210). -/
structure Ref where
  task  : Nat
  lcore : Nat
  slot  : Nat
  deriving DecidableEq, Repr

/-- The strand of the management core, which the supervisor runs on (R253): no task entry names it (log 1, DESIGN CHOICE). -/
def supRef : Ref := ⟨64, 0, 0⟩

/-- The key of a logical core of a task. -/
def lckey (task lcore : Nat) : Nat := task * 288 + lcore

/-- The key of a strand. -/
def Ref.key (r : Ref) : Nat := lckey r.task r.lcore * 4 + r.slot

/-- The strand whose key is `k`. -/
def refOf (k : Nat) : Ref := ⟨k / 4 / 288, k / 4 % 288, k % 4⟩

/-- The poison record of a register (R57). -/
structure Poison where
  va    : Word
  width : BitVec 3
  cls   : BitVec 4
  deriving DecidableEq, Repr

/-- A count predicate (R266). -/
structure Cnt where
  count : BitVec 17
  width : BitVec 3
  deriving DecidableEq, Repr

/-- A loop register (R276). -/
structure Loop where
  count  : BitVec 16
  start  : BitVec 53
  stop   : BitVec 53
  active : Bool
  deriving DecidableEq, Repr

/-- The count predicate at step start (R41). -/
def Cnt.zero : Cnt := ⟨0, 0⟩

/-- The loop register at step start (R41). -/
def Loop.zero : Loop := ⟨0, 0, 0, false⟩

/-- The registers a checkpoint holds (R40): s registers with their poison, count predicates, loops, descriptors. -/
structure Regs where
  s      : SMap Word
  poison : SMap (Option Poison)
  c      : SMap Cnt
  lc     : SMap Loop
  sd     : SMap (BitVec 128)
  deriving DecidableEq, Repr

/-- The registers at the start of a strand (R41). -/
def Regs.zero : Regs := ⟨[], [], [], [], []⟩

/-- What a waiting strand waits for (R33). -/
inductive Wait
  | sem (n : Nat) (cnt : Nat) | barc | barg
  deriving DecidableEq, Repr

/-- The states of a strand (R33). -/
inductive Status
  | dormant | ready | blocked | waiting (w : Wait) | parked | yielded | retired
  deriving DecidableEq, Repr

/-- The rounding mode, overflow bit and enables of the vector (R299) or matrix (R336) state. -/
structure Mode where
  rm  : RMode
  ovf : Bool
  en  : BitVec 7
  deriving DecidableEq, Repr

/-- RNE with saturation and every enable clear (R71). -/
def Mode.zero : Mode := ⟨.rne, false, 0⟩

/-- A matrix claim: bank mask and gang shape with the logical cluster of its first array (R163, R174). -/
structure Claim where
  mask : BitVec 4
  rows : Nat
  cols : Nat
  base : Nat
  deriving DecidableEq, Repr

/-- A failure waiting for esync, rfence or halt: issue number, cause, source class and address (R55, R56, R113, R359). -/
structure Failure where
  uid   : Nat
  cause : BitVec 8
  cls   : BitVec 4
  va    : Word
  deriving DecidableEq, Repr

/-- The states of a region-map entry, coded 00 to 11 (R92). -/
inductive RState | unused | unfilled | filled | dirty
  deriving DecidableEq, Repr

/-- A region-map entry and the 64-byte lines marked as written (R92, R94); a VA with bits 63:56 nonzero has no mapping (R323). -/
structure Region where
  va    : Word
  base  : Nat
  len   : Nat
  r     : Bool
  w     : Bool
  st    : RState
  lines : SMap Bool
  /-- How many bytes a fill that waits has copied (R93, R118). -/
  fillAt : Nat := 0
  /-- A fill has started and has not ended (R31, R93). -/
  filling : Bool := false
  deriving DecidableEq, Repr

/-- An unused region-map entry. -/
def Region.zero : Region := ⟨0, 0, 0, false, false, .unused, [], 0, false⟩

/-- One packet of a remote operation, the scratchpad address its reply's data goes to, and its number in the operation (R357, R370, R372). -/
structure RPiece where
  p    : Packet
  spad : Nat
  idx  : Nat
  deriving DecidableEq, Repr

/-- Held bytes of one 256-byte block of the VR's own space (R43): the issue number, word address and source class of the first of its stores in dispatch order (R113), the paths and ordering classes of them all (R121), the commit that released it (R42), and by byte the scope of a release write (R127) and the value. -/
structure HeldBlk where
  blk   : Nat
  uid   : Nat
  pc    : BitVec 53
  src   : BitVec 4
  kinds : List (Path × BitVec 4)
  com   : Option Nat
  rel   : SMap (Option (BitVec 3))
  data  : SMap (Option Byte)
  deriving DecidableEq, Repr

/-- What is held in a strand's buffer or waits behind its scalar path: bytes; a remote operation; a write-back with the bytes of its lines; or a fence, which keeps later accesses of a path and of its classes behind earlier ones (R42, R43, R112, R124, R125). -/
inductive Held
  | bytes (b : HeldBlk)
  | remote (uid : Nat) (blks : List (Nat × Nat))
  | wback (uid idx : Nat) (blks : List (Nat × Nat)) (old : Region) (lines : List (Nat × List Byte)) (pc : BitVec 53) (cls : BitVec 4) (evict : Bool) (com : Option Nat)
  | fence (uid : Nat) (p q : Path) (mask : BitVec 16)
  deriving DecidableEq, Repr

/-- A strand (R33 to R59, R71, R72, R79, R80, R128, R163, R195, R238, R266, R276). -/
structure Strand where
  status     : Status
  pc         : BitVec 53
  regs       : Regs
  restart    : BitVec 53
  ckpt       : Regs
  region     : Bool
  opened     : Nat
  rsb        : List Held
  cause      : BitVec 8
  causeCls   : BitVec 4
  h          : Bool
  trappc     : BitVec 53
  faultva    : BitVec 56
  poisoninfo : BitVec 12
  trapvec    : BitVec 53
  smode      : BitVec 3
  srsalt     : BitVec 32
  nbv        : BitVec 8
  amax       : BitVec 63
  nanseen    : Bool
  scopestat  : BitVec 16
  vm         : Mode
  mm         : Mode
  etr        : Bool
  claim      : Option Claim
  handler    : Bool
  entry      : Bool
  errs       : List Failure
  rfails     : List Failure
  pending    : List Held
  sid        : Nat
  park       : Option Nat
  arrived    : Nat
  icount     : Nat
  tailed     : Bool
  haltAt     : Option Nat
  atYield    : Bool
  /-- The instruction that the strand is blocked at, once it has been fetched (R33). -/
  ir         : Option Instr
  deriving DecidableEq, Repr

/-- A dormant strand holding the state that every strand starts in (R41). -/
def Strand.init : Strand :=
  { status := .dormant, pc := 0, regs := Regs.zero, restart := 0, ckpt := Regs.zero, region := false, opened := 0, rsb := [],
    cause := 0, causeCls := 0, h := false, trappc := 0, faultva := 0, poisoninfo := 0, trapvec := 0, smode := 0,
    srsalt := 0, nbv := 1, amax := 0, nanseen := false, scopestat := 0, vm := Mode.zero, mm := Mode.zero,
    etr := false, claim := none, handler := false, entry := false, errs := [], rfails := [], pending := [], sid := 0,
    park := none, arrived := 0, icount := 0, tailed := false, haltAt := none, atYield := false, ir := none }

/-- A communicator of a logical core (R374, R375): members in rank order, own rank, usable, instances issued. -/
structure Comm where
  n       : Nat
  members : List Nat
  rank    : Nat
  good    : Bool
  inst    : Nat
  /-- While the cjoin that made it has sent its joins and waits: what is left of them to send; an abort of that cjoin leaves it (R375, R384). -/
  owed    : Option (List RPiece)
  deriving DecidableEq, Repr

/-- A queued arrival handler: payload VA, length, source VR, holder, start address (R101). -/
structure Arrival where
  va      : Word
  len     : Nat
  src     : Nat
  holder  : BitVec 16
  handler : BitVec 53
  deriving DecidableEq, Repr

/-- A recorded twload copy (R346): global VA, weight-store address, length, copying core, word address. -/
structure WLoad where
  va   : Nat
  ws   : Nat
  len  : Nat
  pc   : BitVec 53
  deriving DecidableEq, Repr

/-- What the tracker keeps of a strand that has ended by tail: its engine states (R48, R71, R347). -/
structure Tracked where
  sid : Nat
  vm  : Mode
  mm  : Mode
  etr : Bool
  deriving DecidableEq, Repr

/-- A logical core (R27, R48, R92, R101, R280, R346, R374): what waits for a strand that has ended by tail stands with its number and slot (R121); `joined` holds N of the latest cjoin dispatched for each communicator. -/
structure LCore where
  sp       : Mem
  regions  : SMap Region
  hs       : SMap (BitVec 32)
  arrivals : List Arrival
  comms    : SMap (Option Comm)
  joined   : SMap (Option Nat)
  twloads  : List WLoad
  errs     : List Failure
  rfails   : List Failure
  tracked  : List Tracked
  claims   : List (Nat × Claim)
  pending  : List (Nat × Nat × Held)
  lost     : Bool
  deriving DecidableEq, Repr

/-- A logical core with an empty scratchpad and nothing declared. -/
def LCore.init : LCore :=
  { sp := [], regions := [], hs := [], arrivals := [], comms := [], joined := [], twloads := [], errs := [], rfails := [],
    tracked := [], claims := [], pending := [], lost := false }

/-- A scratchpad footprint (R37): an interval of bytes, and whether it is written. -/
structure Foot where
  lo : Nat
  hi : Nat
  w  : Bool
  deriving DecidableEq, Repr

/-- An operand of a record as dispatch captures it (R23, R248): a stream with its descriptor, a scalar value, or nothing. -/
inductive Operand
  | none | stream (desc : BitVec 128) (slot : Slot) | scalar (v : Word)
  deriving DecidableEq, Repr

/-- What a record or class 7 word captures at dispatch (R24, R57, R72, R80, R89, R357). -/
structure Cap where
  trips  : List Nat
  d      : Operand
  a      : Operand
  b      : Operand
  c      : Operand
  count  : Option Nat
  salt   : BitVec 32
  nbv    : BitVec 8
  region : Bool
  vals   : List Word
  deriving DecidableEq, Repr

/-- A record or entry in a queue: owner, issue number, word address, instruction, captured values, footprints. -/
structure Entry where
  ref   : Ref
  sid   : Nat
  uid   : Nat
  pc    : BitVec 53
  instr : Instr
  cap   : Cap
  foots : List Foot
  deriving DecidableEq, Repr

/-- How far a collective record that has left its queue has come (R375 to R384): 0 nothing sent, 1 waits for joins or contributions, 2 up the tree, 3 waits for the way down, 4 has the result, 5 sends what it owes, 6 as 5 after a refused fill, 7 as 5 before it ends with NV; its instance, tree level, values, global indices, flags, messages still to send, and the joins taken in: rank, and whether it agrees. -/
structure Coll where
  phase : Nat
  inst  : Nat
  level : Nat
  vals  : List Nat
  idxs  : List Nat
  flags : BitVec 8
  out   : List RPiece
  deriving DecidableEq, Repr

/-- A collective record as it leaves its queue. -/
def Coll.init : Coll := ⟨0, 0, 0, [], [], 0, []⟩

/-- The record an engine runs: the strand's mode when it started, the elements already resolved, how many were refused, a collective record's progress, whether its region was aborted, so that its far writes are discarded (R45), the scratchpad as a gather or scatter read its sources before its first write (R292), and the pages that its waiting elements retry, in the order of the retries (R351). -/
structure Run where
  e       : Entry
  vm      : Mode
  mm      : Mode
  etr     : Bool
  done    : SMap Bool
  refused : Nat
  flags   : BitVec 8
  coll    : Option Coll
  void    : Bool
  srcs    : Option Mem
  retry   : List Nat := []
  deriving DecidableEq, Repr

/-- The record has left its queue and not started: a collective record whose peers' contributions are missing (R376, R384). -/
def Run.unstarted (u : Run) : Bool :=
  match u.coll with
  | some c => decide (c.phase ≤ 1)
  | none => false

/-- An engine of a core: its queue, oldest first, and the record it runs (R35, R214). -/
structure EngineQ where
  q   : List Entry
  run : Option Run
  deriving DecidableEq, Repr

/-- An empty queue and an idle engine. -/
def EngineQ.zero : EngineQ := ⟨[], none⟩

/-- A cached translation (R115, R350): VR, function, first 64 KiB page of its span, pages, final PA, rights F A X W R, and whether D is set. -/
structure Tlb where
  vr     : Nat
  fn     : Nat
  page   : Nat
  pages  : Nat
  pa     : Nat
  rights : BitVec 5
  d      : Bool
  deriving DecidableEq, Repr

/-- A reply waiting for an absent sharer's scratchpad (R195): logical core key, address, bytes. -/
structure HeldReply where
  lc   : Nat
  addr : Nat
  data : List Byte
  deriving DecidableEq, Repr

/-- A physical core (R11, R34, R35, R31, R100, R115, R195, R213, R232). -/
structure Core where
  v       : EngineQ
  m       : EngineQ
  t       : EngineQ
  f       : EngineQ
  c       : EngineQ
  ptr     : Nat
  present : Nat
  replies : List HeldReply
  tlb     : List Tlb
  retired : Nat
  gated   : SMap Bool
  waking  : SMap Bool
  /-- A rotation is due and waits (R31). -/
  rotate  : Bool
  deriving DecidableEq, Repr

/-- A core at reset: its pointer stands as if slot 15 had just won (R213). -/
def Core.init : Core :=
  { v := EngineQ.zero, m := EngineQ.zero, t := EngineQ.zero, f := EngineQ.zero, c := EngineQ.zero, ptr := 15,
    present := 0, replies := [], tlb := [], retired := 0, gated := [], waking := [], rotate := false }

/-- The kinds of an accumulator bank (R162). -/
inductive BKind
  | none | int | anc (a : Int) | f32 | f64
  deriving DecidableEq, Repr

/-- A logical accumulator bank (R12, R162, R167, R175): cells, planes, kind; and since its last mzero or mlda the flags, latest end, entries and fold passes (R334). -/
structure Bank where
  cells  : SMap (BitVec 32)
  planes : SMap (BitVec 16)
  kind   : BKind
  flags  : BitVec 8
  ended  : BitVec 8
  carries : Nat
  foldn  : Nat
  deriving DecidableEq, Repr

/-- A bank of zeros and kind none. -/
def Bank.zero : Bank := ⟨[], [], .none, 0, 0, 0, 0⟩

/-- A matrix array (R163, R164, R168, R213): Briar entries with their bank, the turn's holder and its commands, the rotating pointer, the last destination bank, statistics (R232); a strand that waits for a claim is blocked at its mlease. -/
structure MArray where
  briar  : List (Nat × Bool)
  bbank  : Option Nat
  holder : Option Nat
  turn   : Nat
  last   : Option Nat
  ptr    : Nat
  folds  : Nat
  issues : Nat
  deriving DecidableEq, Repr

/-- An array at reset: the pointer stands as if requester 63 had just won (R213). -/
def MArray.init : MArray :=
  { briar := [], bbank := none, holder := none, turn := 0, last := none, ptr := 63, folds := 0, issues := 0 }

/-- How far a step task has come. -/
inductive TPhase
  | idle | armed | running | preempted | stopping
  deriving DecidableEq, Repr

/-- A spawned task's report (R284): template, argument, spawning logical core. -/
structure SpawnOf where
  t     : Nat
  arg   : Word
  lcore : Nat
  deriving DecidableEq, Repr

/-- A task entry with its running task (R46, R210, R220 to R222). -/
structure Task where
  entry    : BitVec 192
  phase    : TPhase
  launch   : BitVec 32
  armedAt  : Nat
  preq     : Bool
  deadline : BitVec 32
  reqAt    : Nat
  sparg    : Word
  spawn    : Option SpawnOf
  eligible : Nat
  energy   : Nat
  status   : BitVec 8
  cls      : BitVec 4
  seen     : List (List Nat)
  lost     : Bool
  /-- Tells this step task from every other one that has stood in the entry (R126). -/
  inst     : Nat
  deriving DecidableEq, Repr

/-- An empty task entry. -/
def Task.init : Task :=
  { entry := 0, phase := .idle, launch := 0, armedAt := 0, preq := false, deadline := 0, reqAt := 0, sparg := 0,
    spawn := none, eligible := 0, energy := 0, status := 0, cls := 0, seen := [], lost := false, inst := 0 }

/-- A source that has sent nothing: cseq 1 is expected first (R196). -/
def SrcWin.init : SrcWin := ⟨0, [], [], [], 0, false⟩

/-- A spawn request (R284). -/
structure SpawnReq where
  t     : Nat
  arg   : Word
  lcore : Nat
  pc    : BitVec 53
  task  : Nat
  step  : BitVec 32
  deriving DecidableEq, Repr

/-- Where a VR stands in a migration (R206, R207): at its source it drains, then has left; at its destination its context is there, then its sequences too. -/
inductive Moving
  | no | leaving (dst : Nat) | sent (dst : Nat) | landing (src : Nat) | arriving (src : Nat)
  deriving DecidableEq, Repr

/-- A virtual rank and its context (R27, R72, R104, R109, R114, R190, R193, R194, R196, R206, R284, R374, R394). -/
structure Vr where
  fn       : Nat
  image    : Image
  m        : Nat
  quota    : Nat
  root     : Nat
  seed     : Word
  key      : BitVec 128
  k        : SMap Word
  windows  : SMap (BitVec 128)
  peers    : SMap (Option Word)
  pfthr    : BitVec 4
  pfblk    : BitVec 4
  energy   : Nat
  srcs     : SMap SrcWin
  staged   : List Staged
  spawnq   : List SpawnReq
  moving   : Moving
  acked    : Nat
  remain   : Nat
  failed   : Bool
  ipa      : Nat
  ipaEnd   : Nat
  migtok   : Word
  pulls    : List (Nat × List Byte)
  cursor   : Nat
  /-- A cold VR's pages lie in LPDDR6, and it does not run (R14, R103). -/
  cold     : Bool
  deriving DecidableEq, Repr

/-- A page request of a virtual function (R110): first miss of an IPA page. -/
structure PReq where
  ipa    : BitVec 32
  kind   : BitVec 4
  source : BitVec 4
  va     : BitVec 56
  lcore  : Nat
  vr     : Nat
  deriving DecidableEq, Repr

/-- A ring in host memory (R395). -/
structure Ring where
  base  : Word
  head  : BitVec 12
  tail  : BitVec 12
  phase : Bool
  bad   : BitVec 32
  deriving DecidableEq, Repr

/-- A ring at reset (R395). -/
def Ring.zero : Ring := ⟨0, 0, 0, true, 0⟩

/-- The states of a mailbox (R392). -/
inductive MbxSt | idle | posted | busy | replied
  deriving DecidableEq, Repr

/-- A mailbox (R392). -/
structure Mbx where
  bytes : Mem
  st    : MbxSt
  lost  : Bool
  deriving DecidableEq, Repr

/-- An idle mailbox. -/
def Mbx.zero : Mbx := ⟨[], .idle, false⟩

/-- A function (R107, R110, R216, R218, R223, R392, R395). -/
structure Fn where
  clus0    : Word
  clus1    : BitVec 8
  hbm0     : Word
  hbm1     : Word
  lp0      : Word
  lp1      : Word
  s2root   : Word
  allot    : SMap (BitVec 32)
  bal      : SMap Int
  energy   : Nat
  rings    : SMap Ring
  waiting  : List PReq
  tags     : SMap (Option PReq)
  mbx      : SMap Mbx
  free     : List Word
  badPages : Nat
  nextHbm  : Nat
  nextLp   : Nat
  events   : List (List Word)
  home     : Nat
  deriving DecidableEq, Repr

/-- A function at reset: unlimited allotments (R218), no partition. -/
def Fn.init : Fn :=
  { clus0 := 0, clus1 := 0, hbm0 := 0, hbm1 := 0, lp0 := 0, lp1 := 0, s2root := 0, allot := [], bal := [],
    energy := 0, rings := [], waiting := [], tags := [], mbx := [], free := [], badPages := 0, nextHbm := 0,
    nextLp := 0, events := [], home := 0 }

/-- Who pays for a piece of work: a VR, and the step task whose instruction made it, where one did, by its number (R218, R221, R223; log 113, DESIGN CHOICE). -/
structure Payer where
  vr   : Nat
  inst : Option Nat
  deriving DecidableEq, Repr

/-- A flit kept for replay, with who pays for it (R181, R224). -/
structure Flit where
  lseq  : BitVec 16
  payer : Payer
  bytes : List Byte
  deriving DecidableEq, Repr

/-- A wavelength's counters and training state (R183, R184). -/
structure Wave where
  cnt      : Word
  attempts : Nat
  deriving DecidableEq, Repr

/-- A port of an F-die (R180 to R184, R232): lseq to send next, last received in order and last acknowledged; flits sent, the first 512 of them on the wire and kept for replay; how often a flit of an lseq has failed its check in succession; per vc the flits of a packet so far; when the last acknowledgement came; per vc the credits it owes and those it was returned; the mode that the other end has announced. -/
structure Port where
  dead    : Bool
  lanes   : BitVec 16
  waves   : SMap Wave
  tx      : BitVec 16
  rx      : BitVec 16
  acked   : BitVec 16
  replay  : List Flit
  fails   : SMap Nat
  parts   : SMap (List Byte)
  since   : Nat
  owed    : SMap Nat
  credit  : SMap Nat
  peer    : Nat
  deriving DecidableEq, Repr

/-- A port at reset: eight active wavelengths (R184), link sequences from 1, no credits (log 3, DESIGN CHOICE). -/
def Port.init : Port :=
  { dead := false, lanes := 0x5555, waves := [], tx := 1, rx := 0, acked := 0, replay := [], fails := [], parts := [],
    since := 0, owed := [], credit := [], peer := 8 }

/-- A path to an endpoint (R186): port, hop field, and 0 for a direct one, 1 for via0, 2 for via1. -/
structure FabPath where
  port : Nat
  hop  : BitVec 2
  via  : Nat
  deriving DecidableEq, Repr

/-- A packet that a requester has not had answered (R198): packet, transmissions counted, its paths taken and those still in its order, the port it went out on (32 for this chip), time of sending, owner operation, whether it was answered busy, whether its last transmission is not counted yet, whether its reply waits for room in the core's reply buffer, scratchpad address and number of its piece, and the step task that pays for its flits (R221). -/
structure Unacked where
  p     : Packet
  sends : Nat
  tried : List FabPath
  rest  : List FabPath
  port  : Nat
  at_   : Nat
  uid   : Nat
  busy  : Bool
  extra : Bool
  got   : Bool
  spad  : Nat
  idx   : Nat
  inst  : Option Nat := none
  deriving DecidableEq, Repr

/-- A class 7 operation or collective transfer whose answers are outstanding (R356 to R372). -/
structure ROp where
  uid    : Nat
  ref    : Ref
  sid    : Nat
  pc     : BitVec 53
  instr  : Instr
  va     : Word
  vals   : List Word
  left   : Nat
  ok     : SMap Bool
  unk    : SMap Bool
  fail   : Option (BitVec 8)
  parked : Bool
  cancel : Bool
  held   : Option (List RPiece)
  /-- It was held in a region that has committed (R42, R360). -/
  com    : Bool
  foots  : List Foot
  deriving DecidableEq, Repr

/-- A packet that waits at its destination with its arrival time: in the hold store for its class order, or past it and waiting on the fault path (R189, R196). -/
structure HoldPkt where
  p    : Packet
  at_  : Nat
  past : Bool
  deriving DecidableEq, Repr

/-- Who an access on the fault path belongs to (R112). -/
inductive Who
  | strand (k : Nat) | record (uid : Nat) | region (lc idx : Nat) | packet (src dst : Nat) (pseq : BitVec 32)
  | store (uid : Nat) | sup (vr : Nat) | span
  deriving DecidableEq, Repr

/-- What a fault on a page waits for (R106, R110, R112, R114); a host fault of the supervisor's own access names its function (R109). -/
inductive FKind | supervisor | host (fn : Option Nat) | pull | promote
  deriving DecidableEq, Repr

/-- An entry of the fault path: VR, page of the VA, IPA page for a stage-2 miss, kind, and the accesses that joined it (R112). -/
structure PFault where
  id    : Nat
  vr    : Nat
  page  : Nat
  ipa   : Nat
  kind  : FKind
  who   : List Who
  deriving DecidableEq, Repr

/-- A launch message taken by the supervisor, with the task entry index that the member list names for it (R225, R290, R389, R393, R401). -/
structure Launch where
  id      : BitVec 32
  fn      : Nat
  vr      : Nat
  step    : BitVec 32
  prio    : Nat
  wdog    : BitVec 32
  cpa     : BitVec 44
  phases  : List (Nat × Nat)
  members : List (Nat × Nat)
  idx     : Nat
  task    : Option Nat
  binds   : List (Nat × Word)
  /-- Its place in the order of arrival (R213). -/
  arr     : Nat
  deriving DecidableEq, Repr

/-- A spawn request that the supervisor has accepted: its VR, its template's priority, and its place in the order of arrival, which it takes with its spawning task's completion record (R213, R215, R284). -/
structure Spawned where
  vr   : Nat
  req  : SpawnReq
  prio : Nat
  arr  : Nat
  deriving DecidableEq, Repr

/-- A varm: its launch, members, the replies so far, when its timeout passes, its result, whether varm has written it, and whether go has been sent (R203, R290). -/
structure Arming where
  launch  : BitVec 32
  members : List (Nat × Nat)
  replies : List (Nat × Nat × BitVec 7)
  until_  : Nat
  result  : Option Nat
  told    : Bool
  gone    : Bool
  deriving DecidableEq, Repr

/-- The bins (R1, R2): how many clusters of each C-die are active. -/
inductive Bin | s288 | s272 | s256
  deriving DecidableEq, Repr

/-- The supervisor and the management core (R182, R203, R225, R231, R285, R392, R393, R396, R397, R401). -/
structure Sup where
  launches : List Launch
  arming   : List Arming
  waitArm  : List (Packet × Nat)
  ended    : List (BitVec 32 × Nat)
  lostSent : List (BitVec 32)
  srcs     : SMap SrcWin
  signals  : List (List Word × Nat)
  accepted : List Spawned
  spawned  : List Spawned
  arrivals : Nat
  trigger  : BitVec 16
  latching : List (BitVec 16 × Nat)
  ring     : List (List Word)
  dropped  : List (Nat × Nat)
  /-- Until which cycle a block still writes its record (R232). -/
  snapBusy : SMap Nat
  fnwBase  : Word
  staged   : Mem
  stagedLen : Nat
  flash    : List Byte
  running  : List Byte
  rollback : Nat
  ptr      : Nat
  recovery : Bool
  links    : SMap (Nat × Nat)
  deriving DecidableEq, Repr

/-- A strand of this chip as scopes see it: its number, its step task's number and its logical core (R126). -/
structure Party where
  sid   : Nat
  inst  : Nat
  lcore : Nat
  deriving DecidableEq, Repr

/-- A release write that a byte reads from: the strand of this chip that wrote it, or none for a remote one, its VR and scope code (R127, R134). -/
structure Rel where
  party : Option Party
  vr    : Nat
  scope : BitVec 3
  deriving DecidableEq, Repr

/-- Who moves next: the model's own field (log 1, DESIGN CHOICE). (log 90, DESIGN CHOICE) -/
inductive Turn
  | strand (r : Ref) | dispatch (core : Nat) | event (i : Instr) | tick (n : Nat)
  | dropTlb (core : Nat) (vr page : Nat) | hostWrite (addr : Nat) (bytes : List Byte)
  | mbxWrite (fn n off : Nat) (bytes : List Byte) | sup (i : Instr) | launchArm (id : BitVec 32) | launchGo (id : BitVec 32)
  deriving DecidableEq, Repr

/-- What has left the package, oldest first: flits with their port, requests for link replay, the parts of moving VRs with their destination, MSI-X vectors with their function and its home link (R390, R391; the model's output log). -/
inductive Sent
  | flit (port : Nat) (bytes : List Byte) | replay (port : Nat) (lseq : BitVec 16) | move (to_ : Nat) (part : MovePart)
  | vector (link fn n : Nat)
  deriving DecidableEq, Repr

/-- The machine. -/
structure State where
  /-- The strand that the next instruction belongs to (log 1, DESIGN CHOICE). -/
  cur       : Ref
  /-- Who moves next (log 1, DESIGN CHOICE). -/
  agenda    : List Turn
  strands   : SMap Strand
  lcores    : SMap LCore
  tasks     : SMap Task
  cores     : SMap Core
  arrays    : SMap MArray
  banks     : SMap Bank
  ws        : SMap Mem
  wsPhase   : SMap Nat
  wsGated   : SMap Bool
  wsWaking  : SMap Bool
  /-- Device memory by physical address (R102). -/
  mem       : Mem
  /-- Host memory (R110, R395). -/
  hostMem   : Mem
  vrs       : SMap (Option Vr)
  fns       : SMap Fn
  /-- Bind entries 0 to 287 (R209). -/
  binds     : SMap Word
  binderr   : BitVec 17
  detmode   : Bool
  period    : Nat
  periodAt  : Nat
  cycle     : Word
  power     : Bool
  clockStep : Nat
  /-- The ordering code's bin (R1, R2). -/
  bin       : Bin
  /-- Which clusters of each C-die are fused: the first, and how far the second lies behind it, each modulo the 18 clusters (R2). -/
  fuses     : SMap (Nat × Nat)
  isPackage : Bool
  /-- The package's design supplies LPDDR6, flash and power stages as the module carries them (R4). -/
  supplied  : Bool
  endpoint  : BitVec 12
  location  : SMap (Option Nat)
  route     : SMap Word
  ports     : SMap Port
  lanethr   : SMap (BitVec 16)
  pairs     : SMap Pair
  unacked   : List Unacked
  /-- Replies that wait for room in their core's reply buffer (R195). -/
  late      : List Packet
  rops      : List ROp
  hold      : List HoldPkt
  faults    : List PFault
  denied    : List (Who × Nat × Nat)
  /-- The arrival translators' caches, by F-die (R115). -/
  ftlb      : SMap (List Tlb)
  portDrops : Nat
  /-- The core whose words each F-die injected last (R213). -/
  injPtr    : SMap Nat
  /-- The function that each HBM4E stack controller served last (R213). -/
  memPtr    : SMap Nat
  /-- Bytes read and written on each HBM4E stack (R102, R232). -/
  stackBytes : SMap (Nat × Nat)
  /-- Turns of the supervisor that wait for the host's answer to a page request (R109). -/
  waits     : List Turn
  /-- By byte the release writes that a read of it reads from, oldest first: the latest write and the RMWs behind it (R127, R128). -/
  rels      : SMap (List Rel)
  /-- Earlier values of code words that a write changed while a step task ran: task, physical address, value (R236). -/
  olds      : List (Nat × Nat × Word)
  sup       : Sup
  sent      : List Sent
  /-- The issue number the next instruction or operation gets (R55, R56: issue order). -/
  uid       : Nat
  /-- Counts the values the machine leaves open that have been drawn (Config). -/
  draw      : Nat
  deriving DecidableEq, Repr

/-- The supervisor at reset (R231, R396, R397; log 3, DESIGN CHOICE). -/
def Sup.init : Sup :=
  { launches := [], arming := [], waitArm := [], ended := [], lostSent := [], srcs := [], signals := [], accepted := [], spawned := [], arrivals := 0, trigger := 0, latching := [],
    ring := [], dropped := [], snapBusy := [], fnwBase := 0, staged := [], stagedLen := 0, flash := [], running := [], rollback := 0,
    ptr := 255, recovery := false, links := [] }

/-- The machine right after reset: nothing bound, nothing resident, memory with nothing listed (R209 to R232, R289; logs 2, 3, 4, DESIGN CHOICE). -/
def State.reset : State :=
  { cur := ⟨0, 0, 0⟩, agenda := [], strands := [], lcores := [], tasks := [], cores := [], arrays := [], banks := [],
    ws := [], wsPhase := [], wsGated := [], wsWaking := [], mem := [], hostMem := [], vrs := [], fns := [], binds := [],
    binderr := 0, detmode := false, period := 1048576, periodAt := 1048576, cycle := 0, power := true, clockStep := 16,
    bin := .s288, fuses := [], isPackage := false, supplied := false, endpoint := 0, location := [], route := [], ports := [], lanethr := [], pairs := [],
    unacked := [], late := [], rops := [], hold := [], faults := [], denied := [], ftlb := [], portDrops := 0, injPtr := [], memPtr := [], stackBytes := [], waits := [], rels := [], olds := [], sup := Sup.init,
    sent := [], uid := 1, draw := 0 }

end Sys2Proof.Machine
end

