-- ==== Sys2Proof/Machine/Ops.lean ====
section
/-! DEFINITION. Machine/Ops.lean: named operations over the registers of a strand, retiring and jumping with their loops (R277), traps (R52), return (R53), stopping a step task (R220), and the places of strands (R29). -/

namespace Sys2Proof.Machine

/-- What a meaning answers. -/
abbrev Res := Host.Outcome State Fault Refusal

/-! ## Trap causes (R255) -/

def cIllegalClass : BitVec 8 := 0x01
def cIllegalOp : BitVec 8 := 0x02
def cIllegalField : BitVec 8 := 0x03
def cFormat : BitVec 8 := 0x04
def cSpad : BitVec 8 := 0x05
def cMisaligned : BitVec 8 := 0x06
def cPoison : BitVec 8 := 0x07
def cPriv : BitVec 8 := 0x08
def cRemoteFault : BitVec 8 := 0x09
def cUnsupported : BitVec 8 := 0x0A
def cUnknown : BitVec 8 := 0x0B
def cDenied : BitVec 8 := 0x0C
def cEngine : BitVec 8 := 0x0D
def cCapacity : BitVec 8 := 0x0E
def cRegion : BitVec 8 := 0x0F
def cDeterminism : BitVec 8 := 0x10
def cPower : BitVec 8 := 0x11
def cPeerLost : BitVec 8 := 0x12
def cBreak : BitVec 8 := 0x13

/-! ## Code (R237) -/

/-- The word address of a VR's first code word (R237). -/
def codeBase : BitVec 53 := 0x0000FE0000000000

/-- The byte address of a VR's code range (R237). -/
def codeVa : Nat := 0x0007F00000000000

/-! ## Registers of a strand -/

/-- The value of an s register; s0 reads as zero (R238). -/
def Strand.reg (t : Strand) (r : Reg) : Word := if r = 0 then 0 else sget 0 t.regs.s r.toNat

/-- The poison record of an s register; s0 never carries poison (R238). -/
def Strand.pois (t : Strand) (r : Reg) : Option Poison := if r = 0 then none else sget none t.regs.poison r.toNat

/-- Write an s register and clear its poison; a write to s0 is discarded (R57, R238). -/
def Strand.setReg (t : Strand) (r : Reg) (v : Word) : Strand :=
  if r = 0 then t
  else { t with regs := { t.regs with s := sset 0 t.regs.s r.toNat v, poison := sset none t.regs.poison r.toNat none } }

/-- Poison an s register, which keeps its bits (R57). -/
def Strand.setPois (t : Strand) (r : Reg) (p : Poison) : Strand :=
  if r = 0 then t else { t with regs := { t.regs with poison := sset none t.regs.poison r.toNat (some p) } }

/-- The first poisoned register of a list, in its order (R259). -/
def Strand.firstPois (t : Strand) (rs : List Reg) : Option Poison := rs.findSome? t.pois

/-- Write `v` to `d`, or the first poisoned source's record (R57, R259). -/
def Strand.put (t : Strand) (d : Reg) (srcs : List Reg) (v : Word) : Strand :=
  match t.firstPois srcs with
  | some p => t.setPois d p
  | none => t.setReg d v

/-- The lowest-numbered poisoned register among the sources (R58). -/
def Strand.lowPois (t : Strand) (srcs : List Reg) : Option (Reg × Poison) :=
  (List.range 32).findSome? fun n =>
    let r : Reg := BitVec.ofNat 5 n
    if srcs.contains r then (t.pois r).map fun p => (r, p) else none

/-- Count predicate `n` (R266). -/
def Strand.cnt (t : Strand) (n : Nat) : Cnt := sget Cnt.zero t.regs.c n

/-- Write count predicate `n`. -/
def Strand.setCnt (t : Strand) (n : Nat) (c : Cnt) : Strand :=
  { t with regs := { t.regs with c := sset Cnt.zero t.regs.c n c } }

/-- Loop register `n` (R276). -/
def Strand.loop (t : Strand) (n : Nat) : Loop := sget Loop.zero t.regs.lc n

/-- Write loop register `n`. -/
def Strand.setLoop (t : Strand) (n : Nat) (l : Loop) : Strand :=
  { t with regs := { t.regs with lc := sset Loop.zero t.regs.lc n l } }

/-- Descriptor `n` (R248). -/
def Strand.sdesc (t : Strand) (n : Nat) : BitVec 128 := sget 0 t.regs.sd n

/-- Write descriptor `n`. -/
def Strand.setSdesc (t : Strand) (n : Nat) (v : BitVec 128) : Strand :=
  { t with regs := { t.regs with sd := sset 0 t.regs.sd n v } }

/-! ## Retiring, jumping, blocking -/

/-- The address lies in the body of the loop, which is active (R277). -/
def Loop.holds (l : Loop) (pc : BitVec 53) : Bool :=
  l.active && decide (l.start.toNat ≤ pc.toNat ∧ pc.toNat < l.stop.toNat)

/-- The innermost active loop that holds `pc` and whose end `next` reaches (R277). -/
def Strand.innermost (t : Strand) (pc next : BitVec 53) : Option Nat :=
  ([0, 1, 2].filter fun n => (t.loop n).holds pc && decide ((t.loop n).stop.toNat ≤ next.toNat)).foldl
    (fun best n => match best with
      | none => some n
      | some m => if (t.loop m).start.toNat < (t.loop n).start.toNat then some n else some m) none

/-- Loops step as an instruction at `pc` falls through to `next` (R277). -/
def Strand.loopStep (pc next : BitVec 53) : Nat → Strand → Strand
  | 0, t => { t with pc := next }
  | k + 1, t =>
    match t.innermost pc next with
    | none => { t with pc := next }
    | some n =>
      let l := t.loop n
      let left := l.count - 1
      if left ≠ 0 then { t.setLoop n { l with count := left } with pc := l.start }
      else Strand.loopStep pc next k (t.setLoop n { l with count := 0, active := false })

/-- Retire the instruction of `len` words at pc and go on at its fall-through address (R235, R277). -/
def Strand.retire (len : BitVec 53) (t : Strand) : Strand :=
  { Strand.loopStep t.pc (t.pc + len) 3 t with status := .ready, icount := t.icount + 1, ir := none }

/-- A taken transfer to `target` leaves every loop whose body holds pc and not the target (R277). -/
def Strand.leaveLoops (target : BitVec 53) (t : Strand) : Strand :=
  [0, 1, 2].foldl (fun u n =>
    let l := u.loop n
    if l.holds u.pc && !decide (l.start.toNat ≤ target.toNat ∧ target.toNat < l.stop.toNat)
    then u.setLoop n { l with active := false } else u) t

/-- Retire a taken transfer of control to `target` (R275, R277). -/
def Strand.jump (target : BitVec 53) (t : Strand) : Strand :=
  { t.leaveLoops target with pc := target, status := .ready, icount := t.icount + 1 }

/-- target of a branch (R243). -/
def branchTarget (pc : BitVec 53) (imm : BitVec 32) : BitVec 53 := pc + imm.signExtend 53

/-- The word address as a register value. -/
def pcWord (pc : BitVec 53) : Word := pc.setWidth 64

/-! ## The maps of State -/

/-- The strand whose key is `k`. -/
def State.strandAt (s : State) (k : Nat) : Strand := sget Strand.init s.strands k

/-- The strand that issues. -/
def State.me (s : State) : Strand := s.strandAt s.cur.key

/-- Change the strand whose key is `k`. -/
def State.onStrand (s : State) (k : Nat) (f : Strand → Strand) : State :=
  { s with strands := smod Strand.init s.strands k f }

/-- Change the strand that issues. -/
def State.onMe (s : State) (f : Strand → Strand) : State := s.onStrand s.cur.key f

/-- The logical core whose key is `k`. -/
def State.lcoreAt (s : State) (k : Nat) : LCore := sget LCore.init s.lcores k

/-- Change the logical core whose key is `k`. -/
def State.onLcore (s : State) (k : Nat) (f : LCore → LCore) : State :=
  { s with lcores := smod LCore.init s.lcores k f }

/-- The key of the issuing strand's logical core. -/
def State.myLc (s : State) : Nat := lckey s.cur.task s.cur.lcore

/-- The task entry of index `n` (less 288) with its running task. -/
def State.taskAt (s : State) (n : Nat) : Task := sget Task.init s.tasks n

/-- Change a task. -/
def State.onTask (s : State) (n : Nat) (f : Task → Task) : State := { s with tasks := smod Task.init s.tasks n f }

/-- Physical core `n`. -/
def State.coreAt (s : State) (n : Nat) : Core := sget Core.init s.cores n

/-- Change a physical core. -/
def State.onCore (s : State) (n : Nat) (f : Core → Core) : State := { s with cores := smod Core.init s.cores n f }

/-- The array of physical cluster `p`. -/
def State.arrayAt (s : State) (p : Nat) : MArray := sget MArray.init s.arrays p

/-- Change an array. -/
def State.onArray (s : State) (p : Nat) (f : MArray → MArray) : State := { s with arrays := smod MArray.init s.arrays p f }

/-- The key of logical bank `b` of logical cluster `j` of a task. -/
def bankKey (task j b : Nat) : Nat := (task * 72 + j) * 4 + b

/-- A logical bank. -/
def State.bankAt (s : State) (k : Nat) : Bank := sget Bank.zero s.banks k

/-- Change a logical bank. -/
def State.onBank (s : State) (k : Nat) (f : Bank → Bank) : State := { s with banks := smod Bank.zero s.banks k f }

/-- A VR with id `v`, if one exists here. -/
def State.vrAt (s : State) (v : Nat) : Option Vr := sget none s.vrs v

/-- Change a VR that exists. -/
def State.onVr (s : State) (v : Nat) (f : Vr → Vr) : State := { s with vrs := smod none s.vrs v (Option.map f) }

/-- Function `f`. -/
def State.fnAt (s : State) (f : Nat) : Fn := sget Fn.init s.fns f

/-- Change a function. -/
def State.onFn (s : State) (n : Nat) (f : Fn → Fn) : State := { s with fns := smod Fn.init s.fns n f }

/-- Put a turn at the end of the agenda (log 1, DESIGN CHOICE). -/
def State.later (s : State) (t : Turn) : State := { s with agenda := s.agenda ++ [t] }

/-- The next issue number. -/
def State.tickUid (s : State) : State := { s with uid := s.uid + 1 }

/-! ## The fields of a task entry (R210) and of a bind (R209) -/

def Task.w0 (t : Task) : Word := t.entry.extractLsb' 0 64
def Task.w1 (t : Task) : Word := t.entry.extractLsb' 64 64
def Task.w2 (t : Task) : Word := t.entry.extractLsb' 128 64
def Task.valid (t : Task) : Bool := t.w0.getLsbD 63
def Task.m (t : Task) : Nat := (t.w0.extractLsb' 56 7).toNat
def Task.prio (t : Task) : Nat := (t.w0.extractLsb' 54 2).toNat
def Task.fn (t : Task) : Nat := (t.w0.extractLsb' 48 5).toNat
def Task.step (t : Task) : BitVec 32 := t.w0.extractLsb' 0 32
def Task.vr (t : Task) : Nat := (t.w1.extractLsb' 44 20).toNat
def Task.cpa (t : Task) : BitVec 44 := t.w1.extractLsb' 0 44
def Task.wdog (t : Task) : Nat := (t.w2.extractLsb' 32 32).toNat

/-- L, the logical cores of the task's gang (R27). -/
def Task.L (t : Task) : Nat := 4 * t.m

def bindValid (w : Word) : Bool := w.getLsbD 63
def bindF (w : Word) : Nat := (w.extractLsb' 61 2).toNat
def bindQuota (w : Word) : Nat := (w.extractLsb' 59 2).toNat
def bindTask (w : Word) : Nat := (w.extractLsb' 53 6).toNat
def bindJ (w : Word) : Nat := (w.extractLsb' 46 7).toNat

/-- The bind entry of a logical cluster of a task: entry 4p + k (R29, R209). -/
def State.bindOf (s : State) (task j : Nat) : Option Nat :=
  (s.binds.find? fun e => bindValid e.2 && decide (bindTask e.2 = task ∧ bindJ e.2 = j)).map (·.1)

/-- The physical core of a logical core (R29); core 0 where nothing is bound (the model's total reading, log 1, DESIGN CHOICE). -/
def State.coreOf (s : State) (task lcore : Nat) : Nat :=
  match s.bindOf task (lcore / 4) with
  | some e => 4 * (e / 4) + lcore % 4
  | none => 0

/-- The sharer number of a logical cluster on its physical cluster (R29). -/
def State.sharerOf (s : State) (task j : Nat) : Nat :=
  match s.bindOf task j with
  | some e => e % 4
  | none => 0

/-- The physical core that the issuing strand runs on. -/
def State.myCore (s : State) : Nat := s.coreOf s.cur.task s.cur.lcore

/-- The VR of the issuing strand. -/
def State.myVrId (s : State) : Nat := (s.taskAt s.cur.task).vr

/-- Bytes of a quota code (R209). -/
def quotaBytes (q : Nat) : Nat := if q = 0 then 262144 else if q = 1 then 524288 else 1048576

/-- The scratchpad quota of a VR in bytes (R27). -/
def State.quotaOf (s : State) (vr : Nat) : Nat :=
  match s.vrAt vr with
  | some v => quotaBytes v.quota
  | none => 0

/-- A physical cluster is fused: none, one or two clusters of each C-die, so that 18, 17 or 16 are active on each (R1, R2, R10). -/
def State.fusedAt (s : State) (p : Nat) : Bool :=
  let (a, b) := sget (0, 0) s.fuses (p / 18)
  match s.bin with
  | .s288 => false
  | .s272 => decide (p % 18 = a % 18)
  | .s256 => decide (p % 18 = a % 18 ∨ p % 18 = (a % 18 + 1 + b % 17) % 18)

/-- The part is a package whose design supplies no LPDDR6, flash and power stages: cold VRs, boot from the signed image and energy planning are not available (R4). -/
def State.bare (s : State) : Bool := s.isPackage && !s.supplied

/-- The fused clusters, ascending (R10). -/
def State.fusedList (s : State) : List Nat := (List.range 72).filter s.fusedAt

/-- The quota of the issuing strand's logical core. -/
def State.myQuota (s : State) : Nat := s.quotaOf s.myVrId

/-- The sum of the quotas of the sharers that are bound to a physical cluster (R29, R30). -/
def State.quotaSum (s : State) (p : Nat) : Nat :=
  ((s.binds.filter fun e => bindValid e.2 && decide (e.1 / 4 = p)).map fun e => quotaBytes (bindQuota e.2)).sum

/-- The sharers of a strand's core are co-resident: the sum of their quotas is at most 1 MiB (R30). -/
def State.coResident (s : State) (task j : Nat) : Bool :=
  match s.bindOf task j with
  | some e => decide (s.quotaSum (e / 4) ≤ 0x100000)
  | none => true

/-- The sharer of a logical core is present on its physical core (R30, R31). -/
def State.presentOn (s : State) (task lcore : Nat) : Bool :=
  s.coResident task (lcore / 4) || decide ((s.coreAt (s.coreOf task lcore)).present = s.sharerOf task (lcore / 4))

/-- A strand's state as R33 gives it: one that is ready but for its absent sharer or a rotation that is due is blocked (R31). -/
def State.statusOf (s : State) (r : Ref) : Status :=
  let st := (s.strandAt r.key).status
  if st = .ready ∧ !(s.presentOn r.task r.lcore && !(s.coreAt (s.coreOf r.task r.lcore)).rotate) then .blocked else st

/-! ## Stopping a step task (R220) -/

/-- Remove the records of an engine that have not started and that `p` names; a started record stays. -/
def EngineQ.drop (p : Entry → Bool) (q : EngineQ) : EngineQ :=
  { q := q.q.filter fun e => !p e, run := q.run.filter fun u => !(u.unstarted && p u.e) }

/-- Remove a task's unstarted records from an engine. -/
def EngineQ.dropTask (task : Nat) (q : EngineQ) : EngineQ := q.drop fun e => decide (e.ref.task = task)

/-- Remove a task's queued records from a core. -/
def Core.dropTask (task : Nat) (c : Core) : Core :=
  { c with v := c.v.dropTask task, m := c.m.dropTask task, t := c.t.dropTask task, f := c.f.dropTask task,
           c := c.c.dropTask task }

/-- Change every value of a map, keeping the canonical form. -/
def smapAll {α : Type} [DecidableEq α] (d : α) (f : Nat → α → α) (m : SMap α) : SMap α :=
  (m.map fun e => (e.1, f e.1 e.2)).filter fun e => decide (e.2 ≠ d)

/-- The instructions that a task's strands have retired go to their cores' counters (R232). -/
def State.bankCounts (s : State) (task : Nat) : State :=
  let mine := s.strands.filter fun e => decide (e.1 / 1152 = task)
  let s := mine.foldl (fun s e => s.onCore (s.coreOf task (e.1 / 4 % 288)) fun c => { c with retired := c.retired + e.2.icount }) s
  let f : Nat → Strand → Strand := fun k t => if k / 1152 = task then { t with icount := 0 } else t
  { s with strands := smapAll Strand.init f s.strands }

/-- A fault loses the accesses that `p` names. -/
def PFault.without (p : Who → Bool) (f : PFault) : PFault := { f with who := f.who.filter fun w => !p w }

/-- The accesses of a task's strands. -/
def Who.ofTask (task : Nat) : Who → Bool
  | .strand k => decide (k / 1152 = task)
  | _ => false

/-- Stop a running step task with a completion status and class: strands leave their state, unstarted records and held stores go, continuations are cancelled, claims end (R220). A trap without a handler or POWER_LIMIT makes this a failed member of its launch (R205). (log 38, DEDUCED) (log 75, DEDUCED) -/
def State.stopTask (s : State) (task : Nat) (status : BitVec 8) (cls : BitVec 4) : State :=
  if (s.taskAt task).phase = .running ∨ (s.taskAt task).phase = .preempted then
    let s := s.bankCounts task
    let gone := (s.strands.filter fun e => decide (e.1 / 1152 = task)).flatMap fun e => e.2.rsb.filterMap fun h => match h with | .remote u _ => some u | _ => none
    { s with
      strands := s.strands.filter fun e => decide (e.1 / 1152 ≠ task)
      cores := smapAll Core.init (fun _ c => c.dropTask task) s.cores
      rops := (s.rops.filter fun o => !gone.contains o.uid).map fun o => if o.ref.task = task ∧ o.parked then { o with cancel := true } else o
      lcores := (s.strands.filter fun e => decide (e.1 / 1152 = task)).foldl
        (fun m e => smod LCore.init m (e.1 / 4) fun l => { l with pending := l.pending ++ e.2.pending.map fun h => (e.2.sid, e.1 % 4, h) })
        (smapAll LCore.init (fun k l => if k / 288 = task then { l with arrivals := [], twloads := [], tracked := [], claims := [] } else l)
          s.lcores)
      faults := s.faults.map (PFault.without (Who.ofTask task))
      denied := s.denied.filter fun d => !Who.ofTask task d.1
      tasks := smod Task.init s.tasks task fun t => { t with phase := .stopping, status := status, cls := cls }
      agenda := s.agenda ++ [.event (.completionSignalWrite task)] ++
        (let t := s.taskAt task
         if status ≠ cPeerLost ∧ status ≠ 0x40 ∧ status ≠ 0x41 ∧ t.spawn.isNone then [.event (.peerFailure t.launch)] else []) }
  else s

/-! ## Traps (R51 to R54) -/

/-- A trap: cause, address where the cause gives one, poison information where the cause gives it. -/
structure Trap where
  cause : BitVec 8
  va    : Word := 0
  info  : Option (BitVec 12) := none
  deriving DecidableEq, Repr

/-- Trap entry on the strand's registers (R52, R54). -/
def Strand.enter (t : Strand) (x : Trap) (cls : BitVec 4) (ret : BitVec 53) : Strand :=
  { t with cause := x.cause, causeCls := cls, h := true, trappc := ret, faultva := x.va.setWidth 56,
           poisoninfo := x.info.getD t.poisoninfo, pc := t.trapvec, status := .ready, park := none, ir := none }

/-- The deadline of a step task's pre-emption has expired (R46, R47). -/
def State.expired (s : State) (task : Nat) : Bool :=
  let t := s.taskAt task
  decide (t.phase = .running) && t.preq && decide (t.reqAt + t.deadline.toNat ≤ s.cycle.toNat)

/-- Take a trap on strand `k`: enter the handler, or stop the step task when there is none or one runs (R52, R220). At the expiry of its gang's deadline the trap is discarded: the strand is aborted (R47). -/
def State.trapOn (s : State) (k : Nat) (x : Trap) (cls : BitVec 4) (ret : BitVec 53) : State :=
  let t := s.strandAt k
  if s.expired (k / 1152) then s
  else if t.trapvec = 0 ∨ t.h = true then s.stopTask (k / 1152) x.cause cls
  else s.onStrand k fun t => t.enter x cls ret

/-- Take a trap on the issuing strand; the trap pc is the instruction itself (R52, R55). -/
def State.takeTrap (s : State) (cls : BitVec 4) (x : Trap) : State := s.trapOn s.cur.key x cls s.me.pc

/-- Return from a trap (R53). -/
def Strand.tret (t : Strand) : Strand := { t with h := false, pc := t.trappc, status := .ready, icount := t.icount + 1 }

/-- A check of R254: the cause when the condition is broken. -/
def chk (broken : Bool) (c : BitVec 8) : Option Trap := if broken then some { cause := c } else none

/-- The POISON_USE check of the sources (R57, R58). -/
def Strand.chkPois (t : Strand) (srcs : List Reg) : Option Trap :=
  (t.lowPois srcs).map fun (r, p) => { cause := cPoison, va := p.va, info := some (p.width ++ p.cls ++ r) }

/-- Run the effect unless a check fails; a failed check takes its trap with the source class (R254). -/
def State.checked (s : State) (cls : BitVec 4) (c : Option Trap) (k : State → State) : State :=
  match c with
  | some x => s.takeTrap cls x
  | none => k s

/-- Retire the one-word instruction after changing the strand. -/
def State.fin (s : State) (f : Strand → Strand) : State := s.onMe fun t => (f t).retire 1

/-- Block the issuing strand at its instruction (R33). -/
def State.block (s : State) : State := s.onMe fun t => { t with status := .blocked }

/-- Access rights (R105, R108). -/
inductive Right | R | W | X | A | F
  deriving DecidableEq, Repr

/-- The answer of an access that may need translation. -/
inductive XR (α : Type)
  | ok (v : α) | refused (va : Nat) | wait
  deriving DecidableEq, Repr

end Sys2Proof.Machine
end

