-- ==== Sys2Proof/Machine/Flags.lean ====
section
/-! DEFINITION. Machine/Flags.lean: conditions (R242), the sticky flags of the tile status word (R75, R256), end codes (R257) and the word itself. -/

namespace Sys2Proof.Machine

/-- A condition of cmp and bc on two words (R242). -/
def condHolds (k : Cond) (a b : Word) : Bool :=
  match k with
  | .eq => a == b
  | .ne => a != b
  | .lt => BitVec.slt a b
  | .ge => !BitVec.slt a b
  | .ltu => BitVec.ult a b
  | .geu => !BitVec.ult a b

/-- The flag bits 5:0 of a status word with TR in bit 7 (R256). -/
abbrev Flags := BitVec 8

def fNV : Flags := 0x01
def fDZ : Flags := 0x02
def fOF : Flags := 0x04
def fUF : Flags := 0x08
def fNX : Flags := 0x10
def fSAT : Flags := 0x20
def fTR : Flags := 0x80

/-- The flag when the condition holds. -/
def flagIf (c : Bool) (f : Flags) : Flags := if c then f else 0

/-- The OR of a list of flags: a flag is set when any element raises it (R75). -/
def orFlags (l : List Flags) : Flags := l.foldl (· ||| ·) 0

/-- A count that saturates at `2^n - 1`. -/
def satBits (n v : Nat) : Nat := Nat.min v (2 ^ n - 1)

/-- The tile status word (R256, R175): count or carries, end code, folds, flags. -/
def statusWord (count : Nat) (ended : BitVec 8) (aux : Nat) (f : Flags) : Word :=
  BitVec.ofNat 64 (satBits 16 count * 2 ^ 32 + ended.toNat * 2 ^ 24 + satBits 8 aux * 2 ^ 16 + f.toNat)

/-- End codes (R257). -/
def eSpill : BitVec 8 := 0x01
def eRange : BitVec 8 := 0x02
def eNV : BitVec 8 := 0x03
def eKind : BitVec 8 := 0x04
def eUnfilled : BitVec 8 := 0x10

end Sys2Proof.Machine
end

