-- ==== Sys2Proof/Machine/Alu.lean ====
section
/-! DEFINITION. Machine/Alu.lean: integer arithmetic, immediates, address and count instructions of class 0 (R260 to R263, R266). -/

namespace Sys2Proof.Machine

/-- Write a value to `d`, or the poison of its first poisoned source, and retire (R259). -/
def State.alu (s : State) (d : Reg) (srcs : List Reg) (v : Word) : Res := .next (s.fin fun t => t.put d srcs v)

/-! ## The values -/

/-- The high word of a product (R260). -/
def mulhVal (k : MulhMode) (a b : Word) : Word :=
  match k with
  | .ss => (a.signExtend 128 * b.signExtend 128).extractLsb' 64 64
  | .uu => (a.setWidth 128 * b.setWidth 128).extractLsb' 64 64
  | .su => (a.signExtend 128 * b.setWidth 128).extractLsb' 64 64

/-- Quotient of R261. -/
def divVal (u : Bool) (a b : Word) : Word :=
  if b = 0 then 0xFFFFFFFFFFFFFFFF
  else if u then a / b
  else if a = 0x8000000000000000 ∧ b = 0xFFFFFFFFFFFFFFFF then a
  else BitVec.ofInt 64 (a.toInt.tdiv b.toInt)

/-- Remainder of R261. -/
def remVal (u : Bool) (a b : Word) : Word :=
  if b = 0 then a
  else if u then a - (a / b) * b
  else if a = 0x8000000000000000 ∧ b = 0xFFFFFFFFFFFFFFFF then 0
  else BitVec.ofInt 64 (a.toInt - a.toInt.tdiv b.toInt * b.toInt)

/-- A shift amount is bits 5:0 (R260). -/
def shAmt (b : Word) : Nat := (b.extractLsb' 0 6).toNat

/-- Leading zeros, 64 for zero (R260). -/
def clzVal (a : Word) : Nat := ((List.range 64).find? fun n => a.getLsbD (63 - n)).getD 64

/-- Trailing zeros, 64 for zero (R260). -/
def ctzVal (a : Word) : Nat := ((List.range 64).find? fun n => a.getLsbD n).getD 64

/-- The ones of a word (R260). -/
def popcVal (a : Word) : Nat := ((List.range 64).filter fun n => a.getLsbD n).length

/-- Smaller value, signed or unsigned (R260). -/
def minVal (u : Bool) (a b : Word) : Word := if (if u then BitVec.ult b a else BitVec.slt b a) then b else a

/-- Larger value, signed or unsigned (R260). -/
def maxVal (u : Bool) (a b : Word) : Word := if (if u then BitVec.ult a b else BitVec.slt a b) then b else a

/-- A truth value as a word. -/
def boolWord (c : Bool) : Word := if c then 1 else 0

/-- bnd (R263). -/
def bndVal (a b : Word) : Word := if b = 0 then 0 else if BitVec.ult a b then a else b - 1

/-- An address with its 20-bit signed offset (R90, R263). -/
def addrOf (a : Word) (off : BitVec 20) : Word := a + off.signExtend 64

/-! ## Register forms (R260, R261) -/

/-- add (R260). -/
def execAdd (d a b : Reg) (s : State) : Res := s.alu d [a, b] (s.me.reg a + s.me.reg b)

/-- sub (R260). -/
def execSub (d a b : Reg) (s : State) : Res := s.alu d [a, b] (s.me.reg a - s.me.reg b)

/-- mul (R260). -/
def execMul (d a b : Reg) (s : State) : Res := s.alu d [a, b] (s.me.reg a * s.me.reg b)

/-- mulh (R260). -/
def execMulh (k : MulhMode) (d a b : Reg) (s : State) : Res := s.alu d [a, b] (mulhVal k (s.me.reg a) (s.me.reg b))

/-- div, div.u (R261). -/
def execDiv (u : Bool) (d a b : Reg) (s : State) : Res := s.alu d [a, b] (divVal u (s.me.reg a) (s.me.reg b))

/-- rem, rem.u (R261). -/
def execRem (u : Bool) (d a b : Reg) (s : State) : Res := s.alu d [a, b] (remVal u (s.me.reg a) (s.me.reg b))

/-- and (R260). -/
def execAnd (d a b : Reg) (s : State) : Res := s.alu d [a, b] (s.me.reg a &&& s.me.reg b)

/-- or (R260). -/
def execOr (d a b : Reg) (s : State) : Res := s.alu d [a, b] (s.me.reg a ||| s.me.reg b)

/-- xor (R260). -/
def execXor (d a b : Reg) (s : State) : Res := s.alu d [a, b] (s.me.reg a ^^^ s.me.reg b)

/-- shl (R260). -/
def execShl (d a b : Reg) (s : State) : Res := s.alu d [a, b] (s.me.reg a <<< shAmt (s.me.reg b))

/-- shr (R260). -/
def execShr (d a b : Reg) (s : State) : Res := s.alu d [a, b] (s.me.reg a >>> shAmt (s.me.reg b))

/-- sar (R260). -/
def execSar (d a b : Reg) (s : State) : Res := s.alu d [a, b] ((s.me.reg a).sshiftRight (shAmt (s.me.reg b)))

/-- rot (R260). -/
def execRot (d a b : Reg) (s : State) : Res := s.alu d [a, b] ((s.me.reg a).rotateLeft (shAmt (s.me.reg b)))

/-- clz (R260). -/
def execClz (d a : Reg) (s : State) : Res := s.alu d [a] (BitVec.ofNat 64 (clzVal (s.me.reg a)))

/-- ctz (R260). -/
def execCtz (d a : Reg) (s : State) : Res := s.alu d [a] (BitVec.ofNat 64 (ctzVal (s.me.reg a)))

/-- popc (R260). -/
def execPopc (d a : Reg) (s : State) : Res := s.alu d [a] (BitVec.ofNat 64 (popcVal (s.me.reg a)))

/-- min, min.u (R260). -/
def execMin (u : Bool) (d a b : Reg) (s : State) : Res := s.alu d [a, b] (minVal u (s.me.reg a) (s.me.reg b))

/-- max, max.u (R260). -/
def execMax (u : Bool) (d a b : Reg) (s : State) : Res := s.alu d [a, b] (maxVal u (s.me.reg a) (s.me.reg b))

/-- sel: sN is read third (R260). -/
def execSel (d a b n : Reg) (s : State) : Res :=
  s.alu d [a, b, n] (if s.me.reg n ≠ 0 then s.me.reg a else s.me.reg b)

/-- cmp (R260, R242). -/
def execCmp (k : Cond) (d a b : Reg) (s : State) : Res := s.alu d [a, b] (boolWord (condHolds k (s.me.reg a) (s.me.reg b)))

/-! ## Immediate forms (R262) -/

/-- addi (R262). -/
def execAddi (d a : Reg) (imm : BitVec 32) (s : State) : Res := s.alu d [a] (s.me.reg a + imm.signExtend 64)

/-- andi (R262). -/
def execAndi (d a : Reg) (imm : BitVec 32) (s : State) : Res := s.alu d [a] (s.me.reg a &&& imm.signExtend 64)

/-- ori (R262). -/
def execOri (d a : Reg) (imm : BitVec 32) (s : State) : Res := s.alu d [a] (s.me.reg a ||| imm.signExtend 64)

/-- xori (R262). -/
def execXori (d a : Reg) (imm : BitVec 32) (s : State) : Res := s.alu d [a] (s.me.reg a ^^^ imm.signExtend 64)

/-- shli (R262). -/
def execShli (d a : Reg) (n : BitVec 6) (s : State) : Res := s.alu d [a] (s.me.reg a <<< n.toNat)

/-- li (R262). -/
def execLi (d : Reg) (imm : BitVec 32) (s : State) : Res := s.alu d [] (imm.signExtend 64)

/-- lih reads d and carries its poison (R262). -/
def execLih (d : Reg) (imm : BitVec 32) (s : State) : Res := s.alu d [d] (imm ++ (s.me.reg d).extractLsb' 0 32)

/-! ## Addresses (R263) -/

/-- lea: the space has no effect (R263). -/
def execLea (d a : Reg) (_space : Space) (off : BitVec 20) (s : State) : Res := s.alu d [a] (addrOf (s.me.reg a) off)

/-- bnd (R263). -/
def execBnd (d a b : Reg) (s : State) : Res := s.alu d [a, b] (bndVal (s.me.reg a) (s.me.reg b))

/-! ## Count predicates (R266) -/

/-- The smaller of a count and a word. -/
def cntMin (c : BitVec 17) (v : Word) : BitVec 17 := if v.toNat < c.toNat then v.setWidth 17 else c

/-- A count less a word, not below zero. -/
def cntSub (c : BitVec 17) (v : Word) : BitVec 17 := BitVec.ofNat 17 (c.toNat - v.toNat)

/-- Set a count predicate from a consumed s source and retire (R266). -/
def State.cntOp (s : State) (src : Reg) (c : BitVec 3) (v : Cnt) : Res :=
  .next (s.checked 0 (s.me.chkPois [src]) fun s => s.fin fun t => t.setCnt c.toNat v)

/-- cntset (R266). -/
def execCntset (c : BitVec 3) (a : Reg) (w : BitVec 3) (s : State) : Res :=
  s.cntOp a c ⟨BitVec.ofNat 17 (Nat.min (s.me.reg a).toNat 0x1FFFF), w⟩

/-- cntmin (R266). -/
def execCntmin (c : BitVec 3) (x : BitVec 3) (b : Reg) (s : State) : Res :=
  s.cntOp b c ⟨cntMin (s.me.cnt x.toNat).count (s.me.reg b), (s.me.cnt x.toNat).width⟩

/-- cntsub (R266). -/
def execCntsub (c : BitVec 3) (x : BitVec 3) (b : Reg) (s : State) : Res :=
  s.cntOp b c ⟨cntSub (s.me.cnt x.toNat).count (s.me.reg b), (s.me.cnt x.toNat).width⟩

end Sys2Proof.Machine
end

