-- ==== Sys2Proof/Machine/Static.lean ====
section
/-! DEFINITION. Machine/Static.lean: check 3 of R254, the ILLEGAL_FIELD conditions that an instruction's own words decide (R239 to R246 and the entries' own limits). -/

namespace Sys2Proof.Machine

/-- The stride of level `k` of a kind-00 slot, signed (R23). -/
def slotStride (o : Slot) (k : Nat) : Int := (o.low.extractLsb' (48 - 16 * k) 16).toInt

/-- The signed element offset of a kind-00 slot (R23). -/
def slotOff (o : Slot) : Int := o.mid.toInt

/-- An all-zero slot (R22, R323). -/
def slotZero (o : Slot) : Bool := decide (o.kind = 0 ∧ o.idx = 0 ∧ o.mid = 0 ∧ o.low = 0)

/-- The layout rules of a slot by its kind (R246). -/
def slotLayout (o : Slot) : Bool :=
  match o.kind.toNat with
  | 0 => decide (o.idx.toNat ≤ 15)
  | 1 => decide (o.mid = 0 ∧ o.low = 0)
  | 2 => decide (o.idx = 0 ∧ o.mid.toNat ≤ 1023 ∧ o.low = 0)
  | _ => decide (o.idx = 0 ∧ o.mid = 0 ∧ o.low.toNat < 2 ^ 32)

/-- Which kinds an entry allows in a slot. -/
inductive SlotUse
  | unused | stream | any | value | valueOpt | global | streamOrGlobal | window
  deriving DecidableEq, Repr

/-- A slot meets its entry (R22, R23, R246, R323). -/
def slotOk (u : SlotUse) (o : Slot) : Bool :=
  match u with
  | .unused => slotZero o
  | .stream => decide (o.kind = 0) && slotLayout o
  | .any => slotLayout o
  | .value => decide (o.kind ≠ 0) && slotLayout o
  | .valueOpt => slotZero o || (decide (o.kind ≠ 0) && slotLayout o)
  | .global => decide (o.kind = 1 ∨ o.kind = 2) && slotLayout o
  | .streamOrGlobal => decide (o.kind ≠ 3) && slotLayout o
  | .window => decide (o.kind = 1 ∨ o.kind = 3) && slotLayout o

/-- What an engine record's entry fixes about its words: slots, whether it takes types, the defined ctl bits, and a required se. -/
structure RecSpec where
  d : SlotUse := .unused
  a : SlotUse := .unused
  b : SlotUse := .unused
  c : SlotUse := .unused
  typed : Bool := true
  typed2 : Bool := false
  ctl : Nat := 0
  se : Option Bool := none
  noPred : Bool := false

/-- A trip field against its tflag bit (R245). -/
def tripOk (flag : Bool) (t : BitVec 16) : Bool := if flag then decide (t.toNat < 32) else decide (1 ≤ t.toNat)

/-- A trip field that must be 1 unless a register gives it (R322). -/
def tripOne (flag : Bool) (t : BitVec 16) : Bool := flag || decide (t.toNat = 1)

/-- The word checks every record shares (R244 to R246). -/
def recCommon (p : RecSpec) (r : Rec) : Bool :=
  (r.pe || decide (r.psel = 0)) && (!p.noPred || !r.pe) &&
  (p.typed || decide (r.type = 0)) && (p.typed2 || decide (r.type2 = 0)) &&
  decide (r.ctl.toNat &&& p.ctl = r.ctl.toNat) &&
  (match p.se with | none => true | some x => decide (r.se = x)) &&
  tripOk (r.tflag.getLsbD 0) r.t0 && tripOk (r.tflag.getLsbD 1) r.t1 &&
  tripOk (r.tflag.getLsbD 2) r.t2 && tripOk (r.tflag.getLsbD 3) r.t3 &&
  slotOk p.d r.d && slotOk p.a r.a && slotOk p.b r.b && slotOk p.c r.c

/-- T1 to T3 are 1 (R322), T0 too where `t0` says so. -/
def matTrips (t0 : Bool) (r : Rec) : Bool :=
  (!t0 || tripOne (r.tflag.getLsbD 0) r.t0) && tripOne (r.tflag.getLsbD 1) r.t1 &&
  tripOne (r.tflag.getLsbD 2) r.t2 && tripOne (r.tflag.getLsbD 3) r.t3

/-- The alignment of a block-format stream along its first level (R307, R308). -/
def blockRow (f : Fmt) (o : Slot) (r : Rec) : Bool :=
  decide (slotStride o 0 = 1 ∧ slotOff o % blockSize f = 0) &&
  (r.tflag.getLsbD 0 || decide (r.t0.toNat % blockSize f = 0))

/-- The addressing limits of a matrix operand stream (R324). -/
def matStream (f : Fmt) (o : Slot) : Bool :=
  decide (slotStride o 2 = 0 ∧ slotStride o 3 = 0) &&
  (!isX f || decide (slotStride o 0 = 1 ∧ slotOff o % blockSize f = 0 ∧ slotStride o 1 % blockSize f = 0))

/-- stride1 to stride3 are zero (R373). -/
def linear (o : Slot) : Bool := decide (slotStride o 1 = 0 ∧ slotStride o 2 = 0 ∧ slotStride o 3 = 0)

/-- Every stride is zero (R317, R318). -/
def noStrides (o : Slot) : Bool := decide (slotStride o 0 = 0) && linear o

/-- ctl bit 0 (.sat) is clear unless the type is an integer type (R294). -/
def satOk (r : Rec) : Bool := !r.ctl.getLsbD 0 || !isF r.type

/-- The integer formats that vcvt .sat admits (R294, R306). -/
def isInt (f : Fmt) : Bool := isI f || decide (f = fI4)

/-- vcvt's .sat belongs to integer-to-integer conversions (R294). -/
def cvtSatOk (r : Rec) : Bool := !r.ctl.getLsbD 0 || (isInt r.type && isInt r.type2)

/-- vround's mode field (R294). -/
def roundCtl (r : Rec) : Bool :=
  if r.ctl.getLsbD 3 then decide (r.ctl.toNat % 8 ≤ 4) else decide (r.ctl.toNat = 0)

/-- The bank row of a matrix record's ctl field (R322). -/
def ctlRow (r : Rec) : Nat := r.ctl.toNat / 8 % 128

/-- mlda and mdrain stay inside a bank's 128 rows (R332). -/
def rowsOk (r : Rec) : Bool :=
  r.tflag.getLsbD 0 || decide (1 ≤ r.t0.toNat ∧ ctlRow r + r.t0.toNat ≤ 128)

/-- mlease's fields: a mask, a shape up to 4 by 6, an origin exactly for a gang shape (R322, R325). -/
def leaseOk (r : Rec) : Bool :=
  decide (r.ctl.toNat / 2 % 16 ≠ 0 ∧ r.ctl.toNat / 128 % 8 ≤ 5) &&
  decide (slotZero r.a = decide (r.ctl.toNat / 32 = 0))

/-- tcopy: at most one far side, pitches only with a far side, transposition 00, 01, 10 with trips to match, T3 = 1 (R338, R339). -/
def copyOk (r : Rec) : Bool :=
  let far := decide (r.d.kind ≠ 0 ∨ r.a.kind ≠ 0)
  let q := if r.ctl.toNat = 1 then 8 else 16
  decide (r.d.kind = 0 ∨ r.a.kind = 0) && (far || (slotZero r.b && slotZero r.c)) &&
  decide (r.ctl.toNat ≠ 3) && (!far || tripOne (r.tflag.getLsbD 3) r.t3) &&
  (decide (r.ctl = 0) || ((r.tflag.getLsbD 0 || decide (r.t0.toNat % q = 0)) &&
    (r.tflag.getLsbD 1 || decide (r.t1.toNat % q = 0))))

/-- T3 is 1 in a record with a far side (R338). -/
def farTrips (far : Bool) (r : Rec) : Bool := !far || tripOne (r.tflag.getLsbD 3) r.t3

/-- Collective operation codes (R373). -/
def redOk (r : Rec) : Bool := decide (r.ctl.toNat ≤ 5) && (!isF r.type || decide (r.ctl.toNat ≤ 2))

/-- A literal base with a literal T0 keeps base + T0 within 2^w − 1 (R314): the record's own words decide it (R254; log 126, DEDUCED). A type without a width has no w. -/
def baseOk (o : Slot) (r : Rec) : Bool :=
  decide (o.kind ≠ 3) || r.tflag.getLsbD 0 || decide (fmtBits r.type = 0) ||
    decide (o.low.toNat % 2 ^ fmtBits r.type + r.t0.toNat ≤ 2 ^ fmtBits r.type - 1)

/-- A plain element-wise entry with the given source slots. -/
def vspec (a b c : SlotUse) (ctl : Nat := 0) : RecSpec := { d := .stream, a := a, b := b, c := c, ctl := ctl }

/-- What an engine record's entry fixes: the record, its slots and fields, and the conditions of the entry's own (R292 to R349, R373). A count predicate on a record without trip-indexed elements is accepted and touches nothing (log 91, DESIGN CHOICE). -/
def recPlan : Instr → Option (Rec × RecSpec × Bool)
  | .vadd r | .vsub r | .vmul r => some (r, (vspec .any .any .unused 1), satOk r)
  | .vfma r | .vfms r => some (r, (vspec .any .any .any 1), satOk r)
  | .vdiv r | .vmin r | .vmax r | .vcopysign r => some (r, (vspec .any .any .unused), true)
  | .vabs r | .vneg r => some (r, (vspec .any .unused .unused 1), satOk r)
  | .vclamp r => some (r, (vspec .any .any .any), true)
  | .vround r => some (r, (vspec .any .unused .unused 15), roundCtl r)
  | .vand r | .vor r | .vxor r | .vshl r | .vshr r | .vsar r => some (r, (vspec .any .any .unused), true)
  | .vnot r => some (r, (vspec .any .unused .unused), true)
  | .vcmp r => some (r, (vspec .any .any .unused 7), decide (r.ctl.toNat ≠ 7) &&
      (decide (r.ctl.toNat ≠ 6) || !isI r.type))
  | .vsel r => some (r, (vspec .any .any .any), true)
  | .vmov r => some (r, (vspec .any .unused .unused), true)
  | .vfill r => some (r, (vspec .value .value .unused), true)
  | .vcvt r => some (r, { vspec .any .unused .unused 1 with typed2 := true }, cvtSatOk r)
  | .vquant r => some (if isX r.type then (r, { vspec .any .unused .unused with typed2 := true }, blockRow r.type r.d r)
      else (r, { vspec .any .any .unused with typed2 := true }, true))
  | .vdeq r => some (r, { vspec .any .any .unused with typed2 := true }, (!(isX r.type2 && decide (r.a.kind = 0)) || blockRow r.type2 r.a r))
  | .vrcp r | .vsqrt r | .vrsqrt r | .vexp r | .vexp2 r | .vlog r | .vlog2 r | .vtanh r | .verf r => some (r, (vspec .any .unused .unused), true)
  | .vsum r => some (r, (vspec .stream .unused .unused 1), satOk r && decide (slotStride r.d 0 = 0))
  | .vdot r => some (r, (vspec .stream .any .unused 1), satOk r && decide (slotStride r.d 0 = 0))
  | .vmaxr r => some (r, (vspec .stream .unused .unused 1), decide (slotStride r.d 0 = 0))
  | .vamax r => some (r, (vspec .stream .unused .unused), decide (slotStride r.d 0 = 0))
  | .vargmax r => some (r, (vspec .stream .value .unused), decide (slotStride r.d 0 = 0) && baseOk r.b r)
  | .vscan r => some (r, (vspec .stream .unused .unused 7), decide (r.ctl.toNat % 4 ≠ 3))
  | .vtopk r => some (r, (vspec .stream .stream .value 1023), decide (r.ctl.toNat ≠ 0) && baseOk r.c r)
  | .vgath r => some (r, (vspec .stream .any .unused), noStrides r.a)
  | .vscat r => some (r, (vspec .any .any .unused 1), noStrides r.d)
  | .vrng r => some (r, (vspec .unused .unused .unused), true)
  | .mlease r => some (r, { a := .valueOpt, typed := false, ctl := 0x3FE, se := some false }, leaseOk r && matTrips true r)
  | .mfree r => some (r, { typed := false, se := some false }, matTrips true r)
  | .mma r => some (r, { d := .valueOpt, a := (if r.ctl.getLsbD 5 then .window else .stream), b := .stream, typed2 := true, ctl := 0x3F, se := some true }, matTrips false r &&
      (r.ctl.getLsbD 5 || matStream r.type r.a) && matStream r.type2 r.b)
  | .mmas r => some (r, { d := .valueOpt, a := .stream, b := .stream, c := .value, typed2 := true, ctl := 0x7, se := some true }, matTrips false r && matStream r.type r.a && matStream r.type2 r.b)
  | .mmag r => some (r, { d := .valueOpt, a := .stream, b := .stream, c := (if r.ctl.getLsbD 6 then .value else .unused), typed2 := true, ctl := 0x47, se := some true }, matTrips false r && matStream r.type r.a && matStream r.type2 r.b)
  | .mzero r => some (r, { d := .valueOpt, c := .valueOpt, ctl := 0x6, se := some true }, matTrips true r)
  | .mlda r => some (r, { d := .valueOpt, a := .stream, c := .valueOpt, ctl := 0x3FE, se := some true }, matTrips false r && rowsOk r)
  | .mdrain r => some (r, { d := .stream, c := .valueOpt, ctl := 0x3FE, se := some true }, matTrips false r && rowsOk r)
  | .mfold r | .mstat r => some (r, { c := .valueOpt, typed := false, ctl := 0x6, se := some true }, matTrips true r)
  | .tcopy r => some (r, { d := .streamOrGlobal, a := .streamOrGlobal, b := .valueOpt, c := .valueOpt, ctl := 3 }, copyOk r)
  | .tgather r => some (r, { d := .stream, a := .global, b := .stream }, farTrips true r)
  | .tscatter r => some (r, { d := .global, a := .stream, b := .stream }, farTrips true r)
  | .tfill r => some (r, { d := .streamOrGlobal, a := .value, b := .valueOpt, c := .valueOpt }, farTrips (decide (r.d.kind ≠ 0)) r)
  | .tmap r => some (r, { d := .value, a := .global, b := .value, c := .value, typed := false, ctl := 3 }, r.ctl.getLsbD 0 && farTrips true r)
  | .tunmap r | .tflush r => some (r, { d := .value, typed := false }, true)
  | .tprefetch r => some (if r.ctl.getLsbD 0 then (r, { a := .global, b := .value, typed := false, ctl := 1, se := some false }, farTrips true r)
      else (r, { d := .value, typed := false, ctl := 1, se := some false }, true))
  | .twload r => some (r, { d := .value, a := .global, b := .value, typed := false }, farTrips true r)
  | .tfetch r => some (r, { d := .stream, a := .value, b := .valueOpt, c := .valueOpt }, farTrips true r)
  | .cjoin r => some (r, { d := .value, a := .stream, noPred := true }, linear r.a)
  | .callred r => some (r, { d := .stream, a := .stream, b := .value, ctl := 7 }, redOk r)
  | .credsc r => some (r, { d := .stream, a := .stream, b := .value, ctl := 7 }, redOk r && linear r.d)
  | .callgath r => some (r, { d := .stream, a := .stream, b := .value }, linear r.d)
  | .cbcast r => some (r, { d := .stream, a := .stream, b := .value, c := .value }, true)
  | .ctopk r => some (r, { d := .stream, a := .stream, b := .value, c := .stream, ctl := 1023 }, linear r.d && linear r.c && decide (r.ctl.toNat ≠ 0))
  | .cbar r => some (r, { b := .value, typed := false, noPred := true }, true)
  | _ => none

/-- The words of an engine record against its entry. -/
def recStatic (i : Instr) : Option Bool := (recPlan i).map fun p => recCommon p.2.1 p.1 && p.2.2

/-- An 8-bit width has no .fadd (R270, R363). -/
def faddWidth (op : BitVec 3) (w : Width) : Bool := decide (op ≠ 7 ∨ (w ≠ .i8 ∧ w ≠ .n8))

/-- ld and its kin accept plain and acquire (R268, R361). -/
def loadSem (m : Sem) : Bool := decide (m = .plain ∨ m = .acq)

/-- st and its kin accept plain and release (R268, R362, R370, R371). -/
def storeSem (m : Sem) : Bool := decide (m = .plain ∨ m = .rel)

/-- The system register numbers of R288. -/
def sysNumOk (n : Nat) : Bool :=
  decide (n ≤ 4 ∨ n = 8 ∨ n = 9 ∨ (0x10 ≤ n ∧ n ≤ 0x16) ∨ (0x20 ≤ n ∧ n ≤ 0x25) ∨ (0x28 ≤ n ∧ n ≤ 0x2B) ∨
    (0x30 ≤ n ∧ n ≤ 0x3A))

/-- The word checks of the one-word instructions beyond what their constructors' types already say. -/
def wordStatic : Instr → Bool
  | .ld _ _ m => loadSem m.sem
  | .st _ _ m => storeSem m.sem
  | .lda d a m => loadSem m.sem && decide (a ≠ 0 ∧ a ≠ d)
  | .stl _ a m => storeSem m.sem && decide (a ≠ 0)
  | .atom op _ _ _ m => faddWidth op m.width
  | .sdld _ _ _ x _ | .sdst _ _ _ x _ => decide (x = .sp ∨ x = .ws)
  | .loop n a len cnt => decide (n.toNat ≤ 2 ∧ 1 ≤ len.toNat ∧ len.toNat ≤ 256 ∧ (cnt = 0 ∨ a = 0))
  | .bts k _ b _ => decide (k ≠ .ended ∨ b = 0)
  | .semwait _ n => decide (n ≠ 0)
  | .semsig _ n named a => decide (n ≠ 0) && (named || decide (a = 0))
  | .trap code => decide (1 ≤ code.toNat ∧ code.toNat ≤ 0x13 ∧ code.toNat ≠ 0x11)
  | .sysr _ n | .sysw n _ => sysNumOk n.toNat
  | .rld _ _ _ _ _ m => loadSem m.sem
  | .rst _ _ _ _ _ m | .rsth _ _ _ _ _ _ m | .rmcast _ _ _ m => storeSem m.sem
  | .ratom op _ _ _ _ _ m => faddWidth op m.width
  | .rred op _ _ _ _ m => storeSem m.sem && faddWidth op m.width && decide (op ≠ 6)
  | _ => true

/-- Check 3 of R254 on an instruction's own words. -/
def instrStatic (i : Instr) : Bool := (recStatic i).getD (wordStatic i)

end Sys2Proof.Machine
end

