-- ==== Sys2Proof/WellFormed.lean ====
section
/-! DEFINITION. WellFormed.lean: an instruction is well formed when its own words pass check 3 of R254. -/

namespace Sys2Proof

/-- The instruction's own words break no ILLEGAL_FIELD condition (R254, check 3). -/
def Instr.wf (i : Instr) : Bool := Machine.instrStatic i

end Sys2Proof
end

