-- ==== Sys2Proof/Decode.lean ====
section
/-! DEFINITION. Decode.lean: from words to instructions and back (R235, R238 to R252, R355), total on any words, refusing by name. -/

namespace Sys2Proof

/-- Why a word is no instruction: the dispatcher's causes of checks 1 to 3 (R254), or fewer words than the instruction has. -/
inductive DecErr | illegalClass | illegalOp | illegalField | short
  deriving DecidableEq, Repr

/-- The fields of an S-word (R238). -/
structure SWord where
  cls : BitVec 4
  op  : BitVec 8
  d   : Reg
  a   : Reg
  b   : Reg
  sub : BitVec 5
  imm : BitVec 32
  deriving DecidableEq, Repr

/-- A word cut into the fields of R238. -/
def splitWord (w : Word) : SWord :=
  { cls := w.extractLsb' 60 4, op := w.extractLsb' 52 8, d := w.extractLsb' 47 5, a := w.extractLsb' 42 5,
    b := w.extractLsb' 37 5, sub := w.extractLsb' 32 5, imm := w.extractLsb' 0 32 }

/-- The word with the fields of R238. -/
def joinWord (s : SWord) : Word := s.cls ++ s.op ++ s.d ++ s.a ++ s.b ++ s.sub ++ s.imm

/-- The imm fields of the SM form (R240). -/
structure SMImm where
  space : BitVec 2
  width : BitVec 3
  scope : BitVec 3
  sem   : BitVec 2
  opl   : BitVec 2
  off   : BitVec 20
  deriving DecidableEq, Repr

def splitImm (i : BitVec 32) : SMImm :=
  { space := i.extractLsb' 30 2, width := i.extractLsb' 27 3, scope := i.extractLsb' 24 3, sem := i.extractLsb' 22 2,
    opl := i.extractLsb' 20 2, off := i.extractLsb' 0 20 }

def joinImm (f : SMImm) : BitVec 32 := f.space ++ f.width ++ f.scope ++ f.sem ++ f.opl ++ f.off

/-- The low 20 bits of a class 7 word's imm (R355). -/
structure FabLow where
  t    : Reg
  v    : Reg
  h    : Reg
  mode : BitVec 5
  deriving DecidableEq, Repr

def splitLow (i : BitVec 20) : FabLow :=
  { t := i.extractLsb' 15 5, v := i.extractLsb' 10 5, h := i.extractLsb' 5 5, mode := i.extractLsb' 0 5 }

def joinLow (f : FabLow) : BitVec 20 := f.t ++ f.v ++ f.h ++ f.mode

/-! ### Codes of the named fields -/

def codeCond : Cond → BitVec 5
  | .eq => 0
  | .ne => 1
  | .lt => 2
  | .ge => 3
  | .ltu => 4
  | .geu => 5

/-- R242. -/
def ofCond (x : BitVec 5) : Option Cond :=
  match x.toNat with
  | 0 => some .eq
  | 1 => some .ne
  | 2 => some .lt
  | 3 => some .ge
  | 4 => some .ltu
  | 5 => some .geu
  | _ => none

def codeMulh : MulhMode → BitVec 5
  | .ss => 0
  | .uu => 1
  | .su => 2

/-- R260. -/
def ofMulh (x : BitVec 5) : Option MulhMode :=
  match x.toNat with
  | 0 => some .ss
  | 1 => some .uu
  | 2 => some .su
  | _ => none

def codeSFmt : SFmt → BitVec 2
  | .f32 => 0
  | .f64 => 1
  | .f16 => 2
  | .bf16 => 3

/-- R264. -/
def ofSFmt (x : BitVec 2) : Option SFmt :=
  match x.toNat with
  | 0 => some .f32
  | 1 => some .f64
  | 2 => some .f16
  | _ => some .bf16

def codeFRel : FRel → BitVec 3
  | .eq => 0
  | .lt => 1
  | .le => 2
  | .un => 3

/-- R264. -/
def ofFRel (x : BitVec 3) : Option FRel :=
  match x.toNat with
  | 0 => some .eq
  | 1 => some .lt
  | 2 => some .le
  | 3 => some .un
  | _ => none

def codeSpace : Space → BitVec 2
  | .sp => 0
  | .gv => 1
  | .ws => 2
  | .ac => 3

/-- R25. -/
def ofSpace (x : BitVec 2) : Option Space :=
  match x.toNat with
  | 0 => some .sp
  | 1 => some .gv
  | 2 => some .ws
  | _ => some .ac

def codeWidth : Width → BitVec 3
  | .i8 => 0
  | .n8 => 1
  | .i16 => 2
  | .n16 => 3
  | .i32 => 4
  | .n32 => 5
  | .i64 => 6

/-- R241. -/
def ofWidth (x : BitVec 3) : Option Width :=
  match x.toNat with
  | 0 => some .i8
  | 1 => some .n8
  | 2 => some .i16
  | 3 => some .n16
  | 4 => some .i32
  | 5 => some .n32
  | 6 => some .i64
  | _ => none

def codeSem : Sem → BitVec 2
  | .plain => 0
  | .acq => 1
  | .rel => 2
  | .ar => 3

/-- R21. -/
def ofSem (x : BitVec 2) : Option Sem :=
  match x.toNat with
  | 0 => some .plain
  | 1 => some .acq
  | 2 => some .rel
  | _ => some .ar

def codeScope : Scope → BitVec 3
  | .strand => 0
  | .lcore => 1
  | .clus => 2
  | .gang => 3
  | .chip => 4
  | .vr => 5
  | .peer => 6

/-- R21. -/
def ofScope (x : BitVec 3) : Option Scope :=
  match x.toNat with
  | 0 => some .strand
  | 1 => some .lcore
  | 2 => some .clus
  | 3 => some .gang
  | 4 => some .chip
  | 5 => some .vr
  | 6 => some .peer
  | _ => none

def codePath : Path → BitVec 4
  | .s => 0
  | .v => 1
  | .m => 2
  | .t => 3
  | .f => 4
  | .c => 5

/-- R274. -/
def ofPath (x : BitVec 4) : Option Path :=
  match x.toNat with
  | 0 => some .s
  | 1 => some .v
  | 2 => some .m
  | 3 => some .t
  | 4 => some .f
  | 5 => some .c
  | _ => none

def codeEngine : Engine → BitVec 5
  | .v => 0
  | .m => 1
  | .t => 2
  | .f => 3
  | .c => 4

/-- R251. -/
def ofEngine (x : BitVec 5) : Option Engine :=
  match x.toNat with
  | 0 => some .v
  | 1 => some .m
  | 2 => some .t
  | 3 => some .f
  | 4 => some .c
  | _ => none

def codeRMode : RMode → BitVec 3
  | .rne => 0
  | .rtz => 1
  | .rdn => 2
  | .rup => 3
  | .sr => 4

/-- R70. -/
def ofRMode (x : BitVec 3) : Option RMode :=
  match x.toNat with
  | 0 => some .rne
  | 1 => some .rtz
  | 2 => some .rdn
  | 3 => some .rup
  | 4 => some .sr
  | _ => none

def codeBts : BtsKind → BitVec 5
  | .any => 0
  | .none => 1
  | .ended => 2

/-- R278. -/
def ofBts (x : BitVec 5) : Option BtsKind :=
  match x.toNat with
  | 0 => some .any
  | 1 => some .none
  | 2 => some .ended
  | _ => none

/-- The fcvt kind of a sub field (R265). -/
def ofFcvt (x : BitVec 5) : Option FcvtKind := do
  let f ← ofSFmt (x.extractLsb' 0 2)
  match (x.extractLsb' 2 3).toNat with
  | 4 => pure (.toI64 f)
  | 5 => pure (.toN64 f)
  | 6 => pure (.ofI64 f)
  | 7 => pure (.ofN64 f)
  | _ => do
    let g ← ofSFmt (x.extractLsb' 2 2)
    pure (.ff g f)

def codeFcvt : FcvtKind → BitVec 5
  | .ff g f => (0 : BitVec 1) ++ codeSFmt g ++ codeSFmt f
  | .toI64 f => (4 : BitVec 3) ++ codeSFmt f
  | .toN64 f => (5 : BitVec 3) ++ codeSFmt f
  | .ofI64 f => (6 : BitVec 3) ++ codeSFmt f
  | .ofN64 f => (7 : BitVec 3) ++ codeSFmt f

/-! ### S-words -/

/-- The instruction when its unnamed fields are zero and its own words pass check 3; ILLEGAL_FIELD otherwise (R239). -/
def accept (c : Bool) (i : Instr) : Except DecErr Instr :=
  if c && i.wf then .ok i else .error .illegalField

/-- As accept, for an instruction some field of which may encode nothing. -/
def acceptOpt (c : Bool) : Option Instr → Except DecErr Instr
  | some i => accept c i
  | none => .error .illegalField

/-- The SM fields of a scalar access (R240). -/
def ofSMem (s : SWord) : Option SMem := do
  let f := splitImm s.imm
  let x ← ofSpace f.space
  let w ← ofWidth f.width
  let sc ← ofScope f.scope
  let se ← ofSem f.sem
  pure { cls := s.sub.extractLsb' 0 4, space := x, width := w, scope := sc, sem := se, off := f.off }

/-- sub[4] and imm[21:20] are zero in every SM word but atom's (R240, R270). -/
def smZero (s : SWord) : Bool := decide (s.sub.extractLsb' 4 1 = 0 ∧ (splitImm s.imm).opl = 0)

/-- The operation code of atom and ratom: sub[4] × 4 + opl (R270, R363). -/
def atomOp (s : SWord) : BitVec 3 := s.sub.extractLsb' 4 1 ++ (splitImm s.imm).opl

/-- The class 7 fields of a word with space `space` (R355). -/
def ofFMem (space : BitVec 2) (s : SWord) : Option FMem := do
  let f := splitImm s.imm
  if f.space = space then
    let w ← ofWidth f.width
    let sc ← ofScope f.scope
    let se ← ofSem f.sem
    pure { cls := s.sub.extractLsb' 0 4, width := w, scope := sc, sem := se }
  else none

/-- Class 0 (R252, R260 to R266). -/
def decode0 (s : SWord) : Except DecErr Instr :=
  let r3 := decide (s.sub = 0 ∧ s.imm = 0)
  let r2 := decide (s.b = 0 ∧ s.sub = 0 ∧ s.imm = 0)
  let i2 := decide (s.b = 0 ∧ s.sub = 0)
  let u := decide (s.sub = 1)
  let us := decide (s.sub.toNat ≤ 1 ∧ s.imm = 0)
  let fs := ofSFmt (s.sub.extractLsb' 0 2)
  let f3 := decide (s.sub.extractLsb' 2 3 = 0 ∧ s.imm = 0)
  let cN (x : Reg) : BitVec 3 := x.extractLsb' 0 3
  let cOk (x : Reg) : Bool := decide (x.toNat ≤ 7)
  match s.op.toNat with
  | 0x01 => accept r3 (.add s.d s.a s.b)
  | 0x02 => accept r3 (.sub s.d s.a s.b)
  | 0x03 => accept r3 (.mul s.d s.a s.b)
  | 0x04 => acceptOpt (decide (s.imm = 0)) ((ofMulh s.sub).map fun k => .mulh k s.d s.a s.b)
  | 0x05 => accept us (.div u s.d s.a s.b)
  | 0x06 => accept us (.rem u s.d s.a s.b)
  | 0x07 => accept r3 (.and s.d s.a s.b)
  | 0x08 => accept r3 (.or s.d s.a s.b)
  | 0x09 => accept r3 (.xor s.d s.a s.b)
  | 0x0A => accept r3 (.shl s.d s.a s.b)
  | 0x0B => accept r3 (.shr s.d s.a s.b)
  | 0x0C => accept r3 (.sar s.d s.a s.b)
  | 0x0D => accept r3 (.rot s.d s.a s.b)
  | 0x0E => accept r2 (.clz s.d s.a)
  | 0x0F => accept r2 (.ctz s.d s.a)
  | 0x10 => accept r2 (.popc s.d s.a)
  | 0x11 => accept us (.min u s.d s.a s.b)
  | 0x12 => accept us (.max u s.d s.a s.b)
  | 0x13 => accept (decide (s.imm = 0)) (.sel s.d s.a s.b s.sub)
  | 0x14 => acceptOpt (decide (s.imm = 0)) ((ofCond s.sub).map fun k => .cmp k s.d s.a s.b)
  | 0x15 => accept i2 (.addi s.d s.a s.imm)
  | 0x16 => accept i2 (.andi s.d s.a s.imm)
  | 0x17 => accept i2 (.ori s.d s.a s.imm)
  | 0x18 => accept i2 (.xori s.d s.a s.imm)
  | 0x19 => accept (i2 && decide (s.imm.toNat < 64)) (.shli s.d s.a (s.imm.extractLsb' 0 6))
  | 0x1A => accept (i2 && decide (s.a = 0)) (.li s.d s.imm)
  | 0x1B => accept (i2 && decide (s.a = 0)) (.lih s.d s.imm)
  | 0x1C => let f := splitImm s.imm
      acceptOpt (i2 && decide (f.width = 0 ∧ f.scope = 0 ∧ f.sem = 0 ∧ f.opl = 0))
        ((ofSpace f.space).map fun x => .lea s.d s.a x f.off)
  | 0x1D => accept r3 (.bnd s.d s.a s.b)
  | 0x1E => acceptOpt f3 (fs.map fun f => .fadd f s.d s.a s.b)
  | 0x1F => acceptOpt f3 (fs.map fun f => .fmul f s.d s.a s.b)
  | 0x20 => acceptOpt f3 (fs.map fun f => .ffma f s.d s.a s.b)
  | 0x21 => acceptOpt (decide (s.b = 0 ∧ s.imm = 0)) ((ofFcvt s.sub).map fun k => .fcvt k s.d s.a)
  | 0x22 => acceptOpt (decide (s.imm = 0)) (do
      let f ← fs
      let k ← ofFRel (s.sub.extractLsb' 2 3)
      pure (.fcmp f k s.d s.a s.b))
  | 0x23 => accept (cOk s.d && decide (s.b = 0 ∧ s.sub.toNat < 8 ∧ s.imm = 0)) (.cntset (cN s.d) s.a (s.sub.extractLsb' 0 3))
  | 0x24 => accept (cOk s.d && cOk s.a && r3) (.cntmin (cN s.d) (cN s.a) s.b)
  | 0x25 => accept (cOk s.d && cOk s.a && r3) (.cntsub (cN s.d) (cN s.a) s.b)
  | _ => .error .illegalOp

/-- Class 1 (R252, R268 to R274). -/
def decode1 (s : SWord) : Except DecErr Instr :=
  let mem := ofSMem s
  let z := smZero s
  let f := splitImm s.imm
  let i0 := decide (s.d = 0 ∧ s.a = 0 ∧ s.b = 0 ∧ s.sub = 0)
  let sd := z && decide (f.width = 6 ∧ f.scope = 0 ∧ f.sem = 0)
  let cls := s.sub.extractLsb' 0 4
  match s.op.toNat with
  | 0x01 => acceptOpt (z && decide (s.b = 0)) (mem.map fun m => .ld s.d s.a m)
  | 0x02 => acceptOpt (z && decide (s.d = 0)) (mem.map fun m => .st s.b s.a m)
  | 0x03 => acceptOpt (z && decide (s.b = 0)) (mem.map fun m => .lda s.d s.a m)
  | 0x04 => acceptOpt (z && decide (s.d = 0)) (mem.map fun m => .stl s.b s.a m)
  | 0x05 => acceptOpt true (mem.map fun m => .atom (atomOp s) s.d s.a s.b m)
  | 0x06 => acceptOpt z (mem.map fun m => .cas s.d s.a s.b m)
  | 0x07 => accept (decide (s.b = 0 ∧ s.sub = 0)) (.kld s.d s.a s.imm)
  | 0x08 => acceptOpt (sd && decide (s.b = 0 ∧ s.d.toNat < 16)) ((ofSpace f.space).map fun x => .sdld (s.d.extractLsb' 0 4) s.a cls x f.off)
  | 0x09 => acceptOpt (sd && decide (s.d = 0 ∧ s.b.toNat < 16)) ((ofSpace f.space).map fun x => .sdst (s.b.extractLsb' 0 4) s.a cls x f.off)
  | 0x0A => accept (i0 && decide (s.imm.toNat < 65536)) (.fence (s.imm.extractLsb' 0 16))
  | 0x0B => acceptOpt (i0 && decide (s.imm.toNat < 256)) (do
      let p ← ofPath (s.imm.extractLsb' 0 4)
      let q ← ofPath (s.imm.extractLsb' 4 4)
      pure (.xfence p q))
  | _ => .error .illegalOp

/-- Class 2 (R252, R275 to R279). -/
def decode2 (s : SWord) : Except DecErr Instr :=
  match s.op.toNat with
  | 0x01 => accept (decide (s.d = 0 ∧ s.a = 0 ∧ s.b = 0 ∧ s.sub = 0)) (.br s.imm)
  | 0x02 => acceptOpt (decide (s.d = 0)) ((ofCond s.sub).map fun k => .bc k s.a s.b s.imm)
  | 0x03 => accept (decide (s.a = 0 ∧ s.b = 0 ∧ s.sub = 0)) (.jal s.d s.imm)
  | 0x04 => accept (decide (s.b = 0 ∧ s.sub = 0 ∧ s.imm = 0)) (.jr s.d s.a)
  | 0x05 => accept (decide (s.d = 0 ∧ s.a = 0 ∧ s.b = 0 ∧ s.sub = 0 ∧ s.imm = 0)) .ret
  | 0x06 => accept (decide (s.d.toNat < 4 ∧ s.b = 0 ∧ s.sub = 0))
      (.loop (s.d.extractLsb' 0 2) s.a (s.imm.extractLsb' 16 16) (s.imm.extractLsb' 0 16))
  | 0x07 => acceptOpt (decide (s.d = 0)) ((ofBts s.sub).map fun k => .bts k s.a s.b s.imm)
  | 0x08 => accept (decide (s.d = 0 ∧ s.b = 0 ∧ s.sub.toNat ≤ 1)) (.bpois (decide (s.sub = 1)) s.a s.imm)
  | _ => .error .illegalOp

/-- Class 3 (R252, R280 to R290). -/
def decode3 (s : SWord) : Except DecErr Instr :=
  let z := decide (s.d = 0 ∧ s.a = 0 ∧ s.b = 0 ∧ s.sub = 0)
  let zi := z && decide (s.imm = 0)
  let a1 := decide (s.d = 0 ∧ s.b = 0 ∧ s.sub = 0)
  let sr := decide (s.sub = 0 ∧ s.imm = 0)
  match s.op.toNat with
  | 0x01 => accept (z && decide (s.imm.extractLsb' 6 10 = 0)) (.semwait (s.imm.extractLsb' 0 6) (s.imm.extractLsb' 16 16))
  | 0x02 => accept (a1 && decide (s.imm.extractLsb' 7 9 = 0))
      (.semsig (s.imm.extractLsb' 0 6) (s.imm.extractLsb' 16 16) (s.imm.getLsbD 6) s.a)
  | 0x03 => accept zi .barc
  | 0x04 => accept zi .barg
  | 0x05 => accept zi .esync
  | 0x07 => accept zi .tret
  | 0x08 => accept zi .yield
  | 0x09 => accept zi .region
  | 0x0A => accept zi .tail
  | 0x0B => accept zi .halt
  | 0x11 => accept zi .nop
  | 0x06 => accept (z && decide (s.imm.toNat < 256)) (.trap (s.imm.extractLsb' 0 8))
  | 0x0C => accept (a1 && decide (s.imm.toNat < 4096)) (.spawn (s.imm.extractLsb' 0 12) s.a)
  | 0x0D => accept (a1 && decide (s.imm.toNat < 65536)) (.signal (s.imm.extractLsb' 0 16) s.a)
  | 0x0E => accept (decide (s.a = 0 ∧ s.b = 0 ∧ s.sub = 0 ∧ s.imm.toNat < 4096)) (.sysr s.d (s.imm.extractLsb' 0 12))
  | 0x0F => accept (a1 && decide (s.imm.toNat < 4096)) (.sysw (s.imm.extractLsb' 0 12) s.a)
  | 0x10 => accept (z && decide (s.imm.toNat < 65536)) (.brk (s.imm.extractLsb' 0 16))
  | 0x12 => accept (z && decide (s.imm.toNat < 65536)) (.snap (s.imm.extractLsb' 0 16))
  | 0x13 => accept sr (.varm s.d s.a s.b)
  | 0x14 => accept (sr && decide (s.b = 0)) (.vgo s.d s.a)
  | 0x15 => accept sr (.migr s.d s.a s.b)
  | _ => .error .illegalOp

/-- Class 7 (R252, R355 to R372). -/
def decode7 (s : SWord) : Except DecErr Instr :=
  let l := splitLow (splitImm s.imm).off
  let m := ofFMem 1 s
  let z := smZero s
  let blk := l.mode.getLsbD 0
  let modeOk := decide (l.mode.toNat ≤ 1)
  let op := atomOp s
  match s.op.toNat with
  | 0x01 => acceptOpt (z && modeOk && decide (s.b = 0 ∧ l.h = 0)) (m.map fun m => .rld blk s.d s.a l.v l.t m)
  | 0x02 => acceptOpt (z && modeOk && decide (s.d = 0 ∧ l.h = 0)) (m.map fun m => .rst blk s.b s.a l.v l.t m)
  | 0x03 => acceptOpt (z && modeOk && decide (s.d = 0)) (m.map fun m => .rsth blk s.b s.a l.v l.t l.h m)
  | 0x04 => acceptOpt (decide (l.mode = 0 ∧ l.h = 0)) (m.map fun m => .ratom op s.d s.a s.b l.v l.t m)
  | 0x05 => acceptOpt (z && decide (l.mode = 0 ∧ l.h = 0)) (m.map fun m => .rcas s.d s.a s.b l.v l.t m)
  | 0x06 => accept (decide (s.d = 0 ∧ s.a = 0 ∧ s.b = 0 ∧ s.sub = 0 ∧ s.imm = 0)) .rfence
  | 0x07 => let f := splitImm s.imm
      accept (decide (s.sub = 0 ∧ s.b = 0 ∧ f.space = 1 ∧ f.width = 6 ∧ f.scope = 0 ∧ f.sem = 0 ∧ f.opl = 0 ∧ l.h = 0 ∧ l.mode = 0))
        (.rprobe s.d s.a l.v l.t)
  | 0x08 => let f := splitImm s.imm
      accept (decide (s.sub = 0 ∧ f.space = 0 ∧ f.width = 0 ∧ f.scope = 0 ∧ f.sem = 0 ∧ f.opl = 0 ∧ l.h = 0 ∧ l.mode = 0 ∧ s.a = 0 ∧ s.b = 0)) (.rfeat s.d l.v l.t)
  | 0x09 => let f := splitImm s.imm
      accept (decide (s.sub = 0 ∧ f.space = 0 ∧ f.width = 0 ∧ f.scope = 0 ∧ f.sem = 0 ∧ f.opl = 0 ∧ l.h = 0 ∧ l.mode = 0 ∧ l.v = 0)) (.grant s.d s.a s.b l.t)
  | 0x0A => accept (decide (s.b = 0 ∧ s.sub = 0 ∧ s.imm = 0)) (.revoke s.d s.a)
  | 0x0B => acceptOpt (z && decide (l = ⟨0, 0, 0, 0⟩)) (m.map fun m => .rmcast s.d s.a s.b m)
  | 0x0C => acceptOpt (decide (s.d = 0 ∧ l.mode = 0 ∧ l.h = 0)) (m.map fun m => .rred op s.b s.a l.v l.t m)
  | 0x0D => acceptOpt (z && modeOk && decide (s.b = 0 ∧ l.h = 0 ∧ (splitImm s.imm).scope = 0 ∧ (splitImm s.imm).sem = 0))
      (m.map fun m => .rcopy blk s.d s.a l.v l.t m.cls m.width)
  | _ => .error .illegalOp

/-- Class 9 (R251, R299, R336, R347). -/
def decode9 (s : SWord) : Except DecErr Instr :=
  let z := decide (s.d = 0 ∧ s.a = 0 ∧ s.b = 0)
  let z5 := z && decide (s.sub = 0)
  let rm := ofRMode (s.imm.extractLsb' 0 3)
  let ovf := s.imm.getLsbD 3
  match s.op.toNat with
  | 1 => acceptOpt (z5 && decide (s.imm.toNat < 2 ^ 11)) (rm.map fun m => .vmode m ovf (s.imm.extractLsb' 4 7))
  | 2 => acceptOpt (z5 && decide (s.imm.toNat < 2 ^ 9)) (rm.map fun m => .mmode m ovf (s.imm.extractLsb' 4 5))
  | 3 => accept (z5 && decide (s.imm.toNat < 2)) (.tmode (s.imm.getLsbD 0))
  | 4 => acceptOpt (z && decide (s.imm.toNat < 65536)) ((ofEngine s.sub).map fun e => .qfence e (s.imm.extractLsb' 0 16))
  | _ => .error .illegalOp

/-- A one-word instruction (R235). -/
def decodeS (s : SWord) : Except DecErr Instr :=
  match s.cls.toNat with
  | 0 => decode0 s
  | 1 => decode1 s
  | 2 => decode2 s
  | 3 => decode3 s
  | 7 => decode7 s
  | 9 => decode9 s
  | _ => .error .illegalClass

/-! ### Engine records -/

/-- The eight words of a record. -/
structure RWords where
  w0 : Word
  w1 : Word
  w2 : Word
  w3 : Word
  w4 : Word
  w5 : Word
  w6 : Word
  w7 : Word
  deriving DecidableEq, Repr

/-- A slot from its bits 95:64 and 63:0 (R23). -/
def splitSlot (hi : BitVec 32) (lo : Word) : Slot :=
  { kind := hi.extractLsb' 30 2, idx := hi.extractLsb' 25 5, mid := hi.extractLsb' 0 25, low := lo }

def slotHi (o : Slot) : BitVec 32 := o.kind ++ o.idx ++ o.mid

def wHi (w : Word) : BitVec 32 := w.extractLsb' 32 32
def wLo (w : Word) : BitVec 32 := w.extractLsb' 0 32

/-- The fields of a record (R244 to R246). -/
def splitRec (w : RWords) : Rec :=
  { type := w.w0.extractLsb' 46 6, type2 := w.w0.extractLsb' 40 6, psel := w.w0.extractLsb' 37 3, pe := w.w0.getLsbD 36,
    cls := w.w0.extractLsb' 32 4, tflag := w.w0.extractLsb' 28 4, stat := w.w0.extractLsb' 11 17, se := w.w0.getLsbD 10,
    ctl := w.w0.extractLsb' 0 10,
    t0 := w.w1.extractLsb' 0 16, t1 := w.w1.extractLsb' 16 16, t2 := w.w1.extractLsb' 32 16, t3 := w.w1.extractLsb' 48 16,
    d := splitSlot (wLo w.w3) w.w2, a := splitSlot (wHi w.w4) (wLo w.w4 ++ wHi w.w3),
    b := splitSlot (wLo w.w6) w.w5, c := splitSlot (wHi w.w7) (wLo w.w7 ++ wHi w.w6) }

/-- The words of a record of class `cls` and opcode `op`. -/
def joinRec (cls : BitVec 4) (op : BitVec 8) (r : Rec) : RWords :=
  { w0 := cls ++ op ++ r.type ++ r.type2 ++ r.psel ++ BitVec.ofBool r.pe ++ r.cls ++ r.tflag ++ r.stat ++
      BitVec.ofBool r.se ++ r.ctl,
    w1 := r.t3 ++ r.t2 ++ r.t1 ++ r.t0,
    w2 := r.d.low, w3 := wLo r.a.low ++ slotHi r.d, w4 := slotHi r.a ++ wHi r.a.low,
    w5 := r.b.low, w6 := wLo r.c.low ++ slotHi r.b, w7 := slotHi r.c ++ wHi r.c.low }

/-- The record instruction of a class and opcode (R252). -/
def recInstr (cls op : Nat) (r : Rec) : Option Instr :=
  match cls, op with
  | 4, 0x01 => some (.vadd r)
  | 4, 0x02 => some (.vsub r)
  | 4, 0x03 => some (.vmul r)
  | 4, 0x04 => some (.vfma r)
  | 4, 0x05 => some (.vfms r)
  | 4, 0x06 => some (.vdiv r)
  | 4, 0x07 => some (.vmin r)
  | 4, 0x08 => some (.vmax r)
  | 4, 0x09 => some (.vabs r)
  | 4, 0x0A => some (.vneg r)
  | 4, 0x0B => some (.vcopysign r)
  | 4, 0x0C => some (.vclamp r)
  | 4, 0x0D => some (.vround r)
  | 4, 0x0E => some (.vand r)
  | 4, 0x0F => some (.vor r)
  | 4, 0x10 => some (.vxor r)
  | 4, 0x11 => some (.vnot r)
  | 4, 0x12 => some (.vshl r)
  | 4, 0x13 => some (.vshr r)
  | 4, 0x14 => some (.vsar r)
  | 4, 0x15 => some (.vcmp r)
  | 4, 0x16 => some (.vsel r)
  | 4, 0x17 => some (.vmov r)
  | 4, 0x18 => some (.vfill r)
  | 4, 0x19 => some (.vcvt r)
  | 4, 0x1A => some (.vquant r)
  | 4, 0x1B => some (.vdeq r)
  | 4, 0x1C => some (.vrcp r)
  | 4, 0x1D => some (.vsqrt r)
  | 4, 0x1E => some (.vrsqrt r)
  | 4, 0x1F => some (.vexp r)
  | 4, 0x20 => some (.vexp2 r)
  | 4, 0x21 => some (.vlog r)
  | 4, 0x22 => some (.vlog2 r)
  | 4, 0x23 => some (.vtanh r)
  | 4, 0x24 => some (.verf r)
  | 4, 0x25 => some (.vsum r)
  | 4, 0x26 => some (.vdot r)
  | 4, 0x27 => some (.vmaxr r)
  | 4, 0x28 => some (.vscan r)
  | 4, 0x29 => some (.vtopk r)
  | 4, 0x2A => some (.vargmax r)
  | 4, 0x2B => some (.vgath r)
  | 4, 0x2C => some (.vscat r)
  | 4, 0x2D => some (.vrng r)
  | 4, 0x2E => some (.vamax r)
  | 5, 0x01 => some (.mlease r)
  | 5, 0x02 => some (.mfree r)
  | 5, 0x03 => some (.mma r)
  | 5, 0x04 => some (.mmas r)
  | 5, 0x05 => some (.mmag r)
  | 5, 0x06 => some (.mzero r)
  | 5, 0x07 => some (.mlda r)
  | 5, 0x08 => some (.mdrain r)
  | 5, 0x09 => some (.mfold r)
  | 5, 0x0A => some (.mstat r)
  | 6, 0x01 => some (.tcopy r)
  | 6, 0x02 => some (.tgather r)
  | 6, 0x03 => some (.tscatter r)
  | 6, 0x04 => some (.tfill r)
  | 6, 0x05 => some (.tmap r)
  | 6, 0x06 => some (.tunmap r)
  | 6, 0x07 => some (.tflush r)
  | 6, 0x08 => some (.tprefetch r)
  | 6, 0x09 => some (.twload r)
  | 6, 0x0A => some (.tfetch r)
  | 8, 0x01 => some (.cjoin r)
  | 8, 0x02 => some (.callred r)
  | 8, 0x03 => some (.credsc r)
  | 8, 0x04 => some (.callgath r)
  | 8, 0x05 => some (.cbcast r)
  | 8, 0x06 => some (.ctopk r)
  | 8, 0x07 => some (.cbar r)
  | _, _ => none

/-- A record (R235, R244 to R252). -/
def decodeR (w : RWords) : Except DecErr Instr :=
  match recInstr (w.w0.extractLsb' 60 4).toNat (w.w0.extractLsb' 52 8).toNat (splitRec w) with
  | some i => accept true i
  | none => .error .illegalOp

/-- Whether a word begins an eight-word record (R235). -/
def isRecordWord (w : Word) : Bool :=
  let c := (w.extractLsb' 60 4).toNat
  decide (c = 4 ∨ c = 5 ∨ c = 6 ∨ c = 8)

/-- The instruction at the head of a word list, and the words behind it (R235). -/
def decode : List Word → Except DecErr (Instr × List Word)
  | [] => .error .short
  | w :: t =>
    if isRecordWord w then
      match t with
      | a :: b :: c :: d :: e :: f :: g :: t' => (decodeR ⟨w, a, b, c, d, e, f, g⟩).map fun i => (i, t')
      | _ => .error .short
    else (decodeS (splitWord w)).map fun i => (i, t)

/-- The little-endian words of a byte string; a last partial word is dropped (R6). -/
def wordsOf : List Byte → List Word
  | a :: b :: c :: d :: e :: f :: g :: h :: t => BitVec.ofNat 64 (ofLeBytes [a, b, c, d, e, f, g, h]) :: wordsOf t
  | _ => []

/-- The instruction that the bytes hold (R6, R235). -/
def decodeBytes (bs : List Byte) : Except DecErr (Instr × List Word) := decode (wordsOf bs)

/-! ### The encoder -/

def smWord (op : BitVec 8) (d a b : Reg) (top : BitVec 1) (opl : BitVec 2) (m : SMem) : SWord :=
  { cls := 1, op := op, d := d, a := a, b := b, sub := top ++ m.cls,
    imm := joinImm { space := codeSpace m.space, width := codeWidth m.width, scope := codeScope m.scope,
                     sem := codeSem m.sem, opl := opl, off := m.off } }

def fabWord (op : BitVec 8) (d a b : Reg) (top : BitVec 1) (opl : BitVec 2) (l : FabLow) (m : FMem) : SWord :=
  { cls := 7, op := op, d := d, a := a, b := b, sub := top ++ m.cls,
    imm := joinImm { space := 1, width := codeWidth m.width, scope := codeScope m.scope, sem := codeSem m.sem,
                     opl := opl, off := joinLow l } }

def blkMode (b : Bool) : BitVec 5 := if b then 1 else 0

/-- The S-word of a one-word instruction (R238 to R240, R252, R355). -/
def encodeS : Instr → Option SWord
  | .add d a b => some { cls := 0, op := 0x01, d := d, a := a, b := b, sub := 0, imm := 0 }
  | .sub d a b => some { cls := 0, op := 0x02, d := d, a := a, b := b, sub := 0, imm := 0 }
  | .mul d a b => some { cls := 0, op := 0x03, d := d, a := a, b := b, sub := 0, imm := 0 }
  | .and d a b => some { cls := 0, op := 0x07, d := d, a := a, b := b, sub := 0, imm := 0 }
  | .or d a b => some { cls := 0, op := 0x08, d := d, a := a, b := b, sub := 0, imm := 0 }
  | .xor d a b => some { cls := 0, op := 0x09, d := d, a := a, b := b, sub := 0, imm := 0 }
  | .shl d a b => some { cls := 0, op := 0x0A, d := d, a := a, b := b, sub := 0, imm := 0 }
  | .shr d a b => some { cls := 0, op := 0x0B, d := d, a := a, b := b, sub := 0, imm := 0 }
  | .sar d a b => some { cls := 0, op := 0x0C, d := d, a := a, b := b, sub := 0, imm := 0 }
  | .rot d a b => some { cls := 0, op := 0x0D, d := d, a := a, b := b, sub := 0, imm := 0 }
  | .bnd d a b => some { cls := 0, op := 0x1D, d := d, a := a, b := b, sub := 0, imm := 0 }
  | .mulh k d a b => some { cls := 0, op := 0x04, d := d, a := a, b := b, sub := codeMulh k, imm := 0 }
  | .div u d a b => some { cls := 0, op := 0x05, d := d, a := a, b := b, sub := if u then 1 else 0, imm := 0 }
  | .rem u d a b => some { cls := 0, op := 0x06, d := d, a := a, b := b, sub := if u then 1 else 0, imm := 0 }
  | .min u d a b => some { cls := 0, op := 0x11, d := d, a := a, b := b, sub := if u then 1 else 0, imm := 0 }
  | .max u d a b => some { cls := 0, op := 0x12, d := d, a := a, b := b, sub := if u then 1 else 0, imm := 0 }
  | .clz d a => some { cls := 0, op := 0x0E, d := d, a := a, b := 0, sub := 0, imm := 0 }
  | .ctz d a => some { cls := 0, op := 0x0F, d := d, a := a, b := 0, sub := 0, imm := 0 }
  | .popc d a => some { cls := 0, op := 0x10, d := d, a := a, b := 0, sub := 0, imm := 0 }
  | .sel d a b n => some { cls := 0, op := 0x13, d := d, a := a, b := b, sub := n, imm := 0 }
  | .cmp k d a b => some { cls := 0, op := 0x14, d := d, a := a, b := b, sub := codeCond k, imm := 0 }
  | .addi d a i => some { cls := 0, op := 0x15, d := d, a := a, b := 0, sub := 0, imm := i }
  | .andi d a i => some { cls := 0, op := 0x16, d := d, a := a, b := 0, sub := 0, imm := i }
  | .ori d a i => some { cls := 0, op := 0x17, d := d, a := a, b := 0, sub := 0, imm := i }
  | .xori d a i => some { cls := 0, op := 0x18, d := d, a := a, b := 0, sub := 0, imm := i }
  | .shli d a n => some { cls := 0, op := 0x19, d := d, a := a, b := 0, sub := 0, imm := n.zeroExtend 32 }
  | .li d i => some { cls := 0, op := 0x1A, d := d, a := 0, b := 0, sub := 0, imm := i }
  | .lih d i => some { cls := 0, op := 0x1B, d := d, a := 0, b := 0, sub := 0, imm := i }
  | .lea d a x off => some { cls := 0, op := 0x1C, d := d, a := a, b := 0, sub := 0, imm := joinImm { space := codeSpace x, width := 0, scope := 0, sem := 0, opl := 0, off := off } }
  | .fadd f d a b => some { cls := 0, op := 0x1E, d := d, a := a, b := b, sub := (0 : BitVec 3) ++ codeSFmt f, imm := 0 }
  | .fmul f d a b => some { cls := 0, op := 0x1F, d := d, a := a, b := b, sub := (0 : BitVec 3) ++ codeSFmt f, imm := 0 }
  | .ffma f d a b => some { cls := 0, op := 0x20, d := d, a := a, b := b, sub := (0 : BitVec 3) ++ codeSFmt f, imm := 0 }
  | .fcvt k d a => some { cls := 0, op := 0x21, d := d, a := a, b := 0, sub := codeFcvt k, imm := 0 }
  | .fcmp f k d a b => some { cls := 0, op := 0x22, d := d, a := a, b := b, sub := codeFRel k ++ codeSFmt f, imm := 0 }
  | .cntset c a x => some { cls := 0, op := 0x23, d := c.zeroExtend 5, a := a, b := 0, sub := x.zeroExtend 5, imm := 0 }
  | .cntmin c x b => some { cls := 0, op := 0x24, d := c.zeroExtend 5, a := x.zeroExtend 5, b := b, sub := 0, imm := 0 }
  | .cntsub c x b => some { cls := 0, op := 0x25, d := c.zeroExtend 5, a := x.zeroExtend 5, b := b, sub := 0, imm := 0 }
  | .ld d a m => some (smWord 1 d a 0 0 0 m)
  | .st b a m => some (smWord 2 0 a b 0 0 m)
  | .lda d a m => some (smWord 3 d a 0 0 0 m)
  | .stl b a m => some (smWord 4 0 a b 0 0 m)
  | .atom op d a b m => some (smWord 5 d a b (op.extractLsb' 2 1) (op.extractLsb' 0 2) m)
  | .cas d a b m => some (smWord 6 d a b 0 0 m)
  | .kld d a i => some { cls := 1, op := 0x07, d := d, a := a, b := 0, sub := 0, imm := i }
  | .sdld n a k x off => some { cls := 1, op := 0x08, d := n.zeroExtend 5, a := a, b := 0, sub := k.zeroExtend 5, imm := joinImm { space := codeSpace x, width := 6, scope := 0, sem := 0, opl := 0, off := off } }
  | .sdst n a k x off => some { cls := 1, op := 0x09, d := 0, a := a, b := n.zeroExtend 5, sub := k.zeroExtend 5, imm := joinImm { space := codeSpace x, width := 6, scope := 0, sem := 0, opl := 0, off := off } }
  | .fence m => some { cls := 1, op := 0x0A, d := 0, a := 0, b := 0, sub := 0, imm := m.zeroExtend 32 }
  | .xfence p q => some { cls := 1, op := 0x0B, d := 0, a := 0, b := 0, sub := 0, imm := (0 : BitVec 24) ++ codePath q ++ codePath p }
  | .br i => some { cls := 2, op := 0x01, d := 0, a := 0, b := 0, sub := 0, imm := i }
  | .bc k a b i => some { cls := 2, op := 0x02, d := 0, a := a, b := b, sub := codeCond k, imm := i }
  | .jal d i => some { cls := 2, op := 0x03, d := d, a := 0, b := 0, sub := 0, imm := i }
  | .jr d a => some { cls := 2, op := 0x04, d := d, a := a, b := 0, sub := 0, imm := 0 }
  | .ret => some { cls := 2, op := 0x05, d := 0, a := 0, b := 0, sub := 0, imm := 0 }
  | .loop n a len cnt => some { cls := 2, op := 0x06, d := n.zeroExtend 5, a := a, b := 0, sub := 0, imm := len ++ cnt }
  | .bts k a b i => some { cls := 2, op := 0x07, d := 0, a := a, b := b, sub := codeBts k, imm := i }
  | .bpois np a i => some { cls := 2, op := 0x08, d := 0, a := a, b := 0, sub := if np then 1 else 0, imm := i }
  | .semwait n c => some { cls := 3, op := 0x01, d := 0, a := 0, b := 0, sub := 0, imm := c ++ (0 : BitVec 10) ++ n }
  | .semsig n c t a => some { cls := 3, op := 0x02, d := 0, a := a, b := 0, sub := 0, imm := c ++ (0 : BitVec 9) ++ BitVec.ofBool t ++ n }
  | .barc => some { cls := 3, op := 0x03, d := 0, a := 0, b := 0, sub := 0, imm := 0 }
  | .barg => some { cls := 3, op := 0x04, d := 0, a := 0, b := 0, sub := 0, imm := 0 }
  | .esync => some { cls := 3, op := 0x05, d := 0, a := 0, b := 0, sub := 0, imm := 0 }
  | .tret => some { cls := 3, op := 0x07, d := 0, a := 0, b := 0, sub := 0, imm := 0 }
  | .yield => some { cls := 3, op := 0x08, d := 0, a := 0, b := 0, sub := 0, imm := 0 }
  | .region => some { cls := 3, op := 0x09, d := 0, a := 0, b := 0, sub := 0, imm := 0 }
  | .tail => some { cls := 3, op := 0x0A, d := 0, a := 0, b := 0, sub := 0, imm := 0 }
  | .halt => some { cls := 3, op := 0x0B, d := 0, a := 0, b := 0, sub := 0, imm := 0 }
  | .nop => some { cls := 3, op := 0x11, d := 0, a := 0, b := 0, sub := 0, imm := 0 }
  | .trap c => some { cls := 3, op := 0x06, d := 0, a := 0, b := 0, sub := 0, imm := c.zeroExtend 32 }
  | .spawn t a => some { cls := 3, op := 0x0C, d := 0, a := a, b := 0, sub := 0, imm := t.zeroExtend 32 }
  | .signal n a => some { cls := 3, op := 0x0D, d := 0, a := a, b := 0, sub := 0, imm := n.zeroExtend 32 }
  | .sysr d n => some { cls := 3, op := 0x0E, d := d, a := 0, b := 0, sub := 0, imm := n.zeroExtend 32 }
  | .sysw n a => some { cls := 3, op := 0x0F, d := 0, a := a, b := 0, sub := 0, imm := n.zeroExtend 32 }
  | .brk t => some { cls := 3, op := 0x10, d := 0, a := 0, b := 0, sub := 0, imm := t.zeroExtend 32 }
  | .snap t => some { cls := 3, op := 0x12, d := 0, a := 0, b := 0, sub := 0, imm := t.zeroExtend 32 }
  | .varm d a b => some { cls := 3, op := 0x13, d := d, a := a, b := b, sub := 0, imm := 0 }
  | .vgo d a => some { cls := 3, op := 0x14, d := d, a := a, b := 0, sub := 0, imm := 0 }
  | .migr d a b => some { cls := 3, op := 0x15, d := d, a := a, b := b, sub := 0, imm := 0 }
  | .rld k d a v t m => some (fabWord 1 d a 0 0 0 ⟨t, v, 0, blkMode k⟩ m)
  | .rst k b a v t m => some (fabWord 2 0 a b 0 0 ⟨t, v, 0, blkMode k⟩ m)
  | .rsth k b a v t h m => some (fabWord 3 0 a b 0 0 ⟨t, v, h, blkMode k⟩ m)
  | .ratom op d a b v t m => some (fabWord 4 d a b (op.extractLsb' 2 1) (op.extractLsb' 0 2) ⟨t, v, 0, 0⟩ m)
  | .rcas d a b v t m => some (fabWord 5 d a b 0 0 ⟨t, v, 0, 0⟩ m)
  | .rfence => some { cls := 7, op := 0x06, d := 0, a := 0, b := 0, sub := 0, imm := 0 }
  | .rprobe d a v t => some (fabWord 7 d a 0 0 0 ⟨t, v, 0, 0⟩ ⟨0, .i64, .strand, .plain⟩)
  | .rfeat d v t => some { cls := 7, op := 0x08, d := d, a := 0, b := 0, sub := 0, imm := joinImm { space := 0, width := 0, scope := 0, sem := 0, opl := 0, off := joinLow ⟨t, v, 0, 0⟩ } }
  | .grant d a b c => some { cls := 7, op := 0x09, d := d, a := a, b := b, sub := 0, imm := joinImm { space := 0, width := 0, scope := 0, sem := 0, opl := 0, off := joinLow ⟨c, 0, 0, 0⟩ } }
  | .revoke d a => some { cls := 7, op := 0x0A, d := d, a := a, b := 0, sub := 0, imm := 0 }
  | .rmcast d a b m => some (fabWord 0xB d a b 0 0 ⟨0, 0, 0, 0⟩ m)
  | .rred op b a v t m => some (fabWord 0xC 0 a b (op.extractLsb' 2 1) (op.extractLsb' 0 2) ⟨t, v, 0, 0⟩ m)
  | .rcopy put d a v t k x => some (fabWord 0xD d a 0 0 0 ⟨t, v, 0, blkMode put⟩ ⟨k, x, .strand, .plain⟩)
  | .vmode r o n => some { cls := 9, op := 0x01, d := 0, a := 0, b := 0, sub := 0, imm := (0 : BitVec 21) ++ n ++ BitVec.ofBool o ++ codeRMode r }
  | .mmode r o n => some { cls := 9, op := 0x02, d := 0, a := 0, b := 0, sub := 0, imm := (0 : BitVec 23) ++ n ++ BitVec.ofBool o ++ codeRMode r }
  | .tmode b => some { cls := 9, op := 0x03, d := 0, a := 0, b := 0, sub := 0, imm := (0 : BitVec 31) ++ BitVec.ofBool b }
  | .qfence g m => some { cls := 9, op := 0x04, d := 0, a := 0, b := 0, sub := codeEngine g, imm := m.zeroExtend 32 }
  | _ => none

/-- Class, opcode and fields of a record instruction (R252). -/
def recParts : Instr → Option (BitVec 4 × BitVec 8 × Rec)
  | .vadd r => some (4, 0x01, r)
  | .vsub r => some (4, 0x02, r)
  | .vmul r => some (4, 0x03, r)
  | .vfma r => some (4, 0x04, r)
  | .vfms r => some (4, 0x05, r)
  | .vdiv r => some (4, 0x06, r)
  | .vmin r => some (4, 0x07, r)
  | .vmax r => some (4, 0x08, r)
  | .vabs r => some (4, 0x09, r)
  | .vneg r => some (4, 0x0A, r)
  | .vcopysign r => some (4, 0x0B, r)
  | .vclamp r => some (4, 0x0C, r)
  | .vround r => some (4, 0x0D, r)
  | .vand r => some (4, 0x0E, r)
  | .vor r => some (4, 0x0F, r)
  | .vxor r => some (4, 0x10, r)
  | .vnot r => some (4, 0x11, r)
  | .vshl r => some (4, 0x12, r)
  | .vshr r => some (4, 0x13, r)
  | .vsar r => some (4, 0x14, r)
  | .vcmp r => some (4, 0x15, r)
  | .vsel r => some (4, 0x16, r)
  | .vmov r => some (4, 0x17, r)
  | .vfill r => some (4, 0x18, r)
  | .vcvt r => some (4, 0x19, r)
  | .vquant r => some (4, 0x1A, r)
  | .vdeq r => some (4, 0x1B, r)
  | .vrcp r => some (4, 0x1C, r)
  | .vsqrt r => some (4, 0x1D, r)
  | .vrsqrt r => some (4, 0x1E, r)
  | .vexp r => some (4, 0x1F, r)
  | .vexp2 r => some (4, 0x20, r)
  | .vlog r => some (4, 0x21, r)
  | .vlog2 r => some (4, 0x22, r)
  | .vtanh r => some (4, 0x23, r)
  | .verf r => some (4, 0x24, r)
  | .vsum r => some (4, 0x25, r)
  | .vdot r => some (4, 0x26, r)
  | .vmaxr r => some (4, 0x27, r)
  | .vscan r => some (4, 0x28, r)
  | .vtopk r => some (4, 0x29, r)
  | .vargmax r => some (4, 0x2A, r)
  | .vgath r => some (4, 0x2B, r)
  | .vscat r => some (4, 0x2C, r)
  | .vrng r => some (4, 0x2D, r)
  | .vamax r => some (4, 0x2E, r)
  | .mlease r => some (5, 0x01, r)
  | .mfree r => some (5, 0x02, r)
  | .mma r => some (5, 0x03, r)
  | .mmas r => some (5, 0x04, r)
  | .mmag r => some (5, 0x05, r)
  | .mzero r => some (5, 0x06, r)
  | .mlda r => some (5, 0x07, r)
  | .mdrain r => some (5, 0x08, r)
  | .mfold r => some (5, 0x09, r)
  | .mstat r => some (5, 0x0A, r)
  | .tcopy r => some (6, 0x01, r)
  | .tgather r => some (6, 0x02, r)
  | .tscatter r => some (6, 0x03, r)
  | .tfill r => some (6, 0x04, r)
  | .tmap r => some (6, 0x05, r)
  | .tunmap r => some (6, 0x06, r)
  | .tflush r => some (6, 0x07, r)
  | .tprefetch r => some (6, 0x08, r)
  | .twload r => some (6, 0x09, r)
  | .tfetch r => some (6, 0x0A, r)
  | .cjoin r => some (8, 0x01, r)
  | .callred r => some (8, 0x02, r)
  | .credsc r => some (8, 0x03, r)
  | .callgath r => some (8, 0x04, r)
  | .cbcast r => some (8, 0x05, r)
  | .ctopk r => some (8, 0x06, r)
  | .cbar r => some (8, 0x07, r)
  | _ => none

def recWords (w : RWords) : List Word := [w.w0, w.w1, w.w2, w.w3, w.w4, w.w5, w.w6, w.w7]

/-- The words of an instruction; an event of the table has none. -/
def encode (i : Instr) : Option (List Word) :=
  match recParts i with
  | some (c, o, r) => some (recWords (joinRec c o r))
  | none => (encodeS i).map fun s => [joinWord s]

/-- The words of an instruction of `nbits` bits numbered as the opcode table numbers them: eight words, those above `nbits` zero. -/
def tableWords (w : Nat) : List Word :=
  [BitVec.ofNat 64 w, BitVec.ofNat 64 (w / 2 ^ 64), BitVec.ofNat 64 (w / 2 ^ 128), BitVec.ofNat 64 (w / 2 ^ 192),
   BitVec.ofNat 64 (w / 2 ^ 256), BitVec.ofNat 64 (w / 2 ^ 320), BitVec.ofNat 64 (w / 2 ^ 384), BitVec.ofNat 64 (w / 2 ^ 448)]

/-- What the decoder reads from an instruction whose bits are `w`, bit 0 the least significant bit of the first word. -/
def decodeTableWord (nbits w : Nat) : Option Instr :=
  match decode (tableWords (w % 2 ^ nbits)) with
  | .ok (i, _) => some i
  | .error _ => none

end Sys2Proof
end

