-- ==== Sys2Proof/Machine/Net.lean ====
section
/-! DEFINITION. Machine/Net.lean: energy and budget charges (R218, R223, R224), CRC-64/XZ (R180, R375), packets and flits (R180, R187), paths (R186), sequences and sending (R196, R198). -/

namespace Sys2Proof.Machine

/-! ## Charges -/

/-- The allotment of a function for a resource: 0 hbm, 1 fab, 2 energy (R218). -/
def Fn.allotOf (f : Fn) (r : Nat) : BitVec 32 := sget 0xFFFFFFFF f.allot r

/-- The balance of a function for a resource, its allotment at reset (R218). -/
def Fn.balOf (f : Fn) (r : Nat) : Int := sget (f.allotOf r).toNat f.bal r

/-- fn.energy[f] in whole microjoules, modulo 2^64 (R223); `Fn.energy` counts units of 0.1 pJ. -/
def Fn.microjoules (f : Fn) : Nat := f.energy / 10000000 % 2 ^ 64

/-- fn.bal[f][r] as a register: the signed balance in bits 34:0 (R218). -/
def Fn.balWord (f : Fn) (r : Nat) : Word := (BitVec.ofInt 35 (f.balOf r)).setWidth 64

/-- A request for the resource is held: its allotment is limited and its balance not positive (R219). -/
def Fn.holds (f : Fn) (r : Nat) : Bool := decide (f.allotOf r ≠ 0xFFFFFFFF ∧ f.balOf r ≤ 0)

/-- Reduce a balance; under an unlimited allotment it is not kept (R219). -/
def Fn.spend (f : Fn) (r n : Nat) : Fn :=
  if f.allotOf r = 0xFFFFFFFF then f else { f with bal := sset ((f.allotOf r).toNat : Int) f.bal r (f.balOf r - n) }

/-- Charge energy, in units of 0.1 pJ, to a function and its balance in whole microjoules (R218, R223). -/
def Fn.chargeEnergy (f : Fn) (n : Nat) : Fn :=
  { f.spend 2 ((f.energy + n) / 10000000 - f.energy / 10000000) with energy := f.energy + n }

/-- The payer of what a task entry's step task does. -/
def State.payerOf (s : State) (task : Nat) : Payer := ⟨(s.taskAt task).vr, some (s.taskAt task).inst⟩

/-- Charge energy, in units of 0.1 pJ, to a VR, its function and the step task that pays (R221, R223; log 113, DESIGN CHOICE). -/
def State.charge (s : State) (p : Payer) (n : Nat) : State :=
  match s.vrAt p.vr with
  | none => s
  | some v =>
    let f : Nat → Task → Task := fun _ t =>
      if t.vr = p.vr ∧ p.inst = some t.inst ∧ t.phase ≠ .idle ∧ t.phase ≠ .armed then { t with energy := t.energy + n } else t
    { (s.onVr p.vr fun v => { v with energy := v.energy + n }).onFn v.fn (fun f => f.chargeEnergy n) with
      tasks := smapAll Task.init f s.tasks }

/-- A request of a VR for the resource is held by its function's budget; memory and flits spend energy too, so a spent energy balance holds every request (R218, R219, R224). (log 62, DEDUCED) -/
def State.budgetHeld (s : State) (vr r : Nat) : Bool :=
  match s.vrAt vr with
  | some v => (s.fnAt v.fn).holds r || (s.fnAt v.fn).holds 2
  | none => false

/-- Count bytes on the stacks under an HBM4E range, which interleaves them every 4 KiB (R102, R232). (log 74, DEDUCED) -/
def countStacks (rd wr : Bool) : Nat → Nat → Nat → SMap (Nat × Nat) → SMap (Nat × Nat)
  | 0, _, _, m => m
  | k + 1, pa, n, m =>
    if n = 0 then m
    else
      let len := Nat.min n (4096 - pa % 4096)
      countStacks rd wr k (pa + len) (n - len)
        (smod (0, 0) m (pa / 4096 % 8) fun c => (if rd then c.1 + len else c.1, if wr then c.2 + len else c.2))

/-- Charge a VR for bytes read or written at a device address (R218, R224): HBM4E 7.5 pJ, LPDDR6 33 pJ a byte; the pointer of the stack's controller moves past the function (R213). The bytes of each access are charged to hbm in whole units of 64 (log 114, DESIGN CHOICE). -/
def State.chargeMem (s : State) (p : Payer) (pa n : Nat) (rd wr : Bool) : State :=
  if pa < 0x6000000000 then
    let s := { s with stackBytes := countStacks rd wr (n / 4096 + 2) pa n s.stackBytes }
    match s.vrAt p.vr with
    | none => s
    | some v => (({ s with memPtr := sset 31 s.memPtr (pa / 4096 % 8) v.fn }).charge p (75 * n)).onFn v.fn fun f => f.spend 0 ((n + 63) / 64)
  else s.charge p (330 * n)

/-- Charge a VR for bytes of its rotation area or saved context in HBM4E, whose addresses the spec leaves open, so that no stack counter counts them (R31, R47, R161, R218, R224; log 94, DESIGN CHOICE). -/
def State.chargeArea (s : State) (p : Payer) (n : Nat) : State :=
  match s.vrAt p.vr with
  | none => s
  | some v => (s.charge p (75 * n)).onFn v.fn fun f => f.spend 0 ((n + 63) / 64)

/-! ## CRC-64/XZ -/

/-- One bit of the reflected CRC-64/XZ. -/
def crcBit (c : Word) : Word := if c.getLsbD 0 then (c >>> 1) ^^^ 0xC96C5795D7870F42 else c >>> 1

/-- One byte of the CRC. -/
def crcByte (c : Word) (b : Byte) : Word :=
  crcBit (crcBit (crcBit (crcBit (crcBit (crcBit (crcBit (crcBit (c ^^^ b.setWidth 64))))))))

/-- CRC-64/XZ of a byte string (R180). -/
def crc64 (bs : List Byte) : Word := bs.foldl crcByte 0xFFFFFFFFFFFFFFFF ^^^ 0xFFFFFFFFFFFFFFFF

/-! ## Packets and flits -/

/-- The 32 header bytes of a packet (R187). -/
def packetHeader (p : Packet) : List Byte :=
  leBytes 8 p.token.toNat ++
  leBytes 8 (p.op ++ p.cls ++ p.sem ++ p.scope ++ p.sub ++ p.dstvr ++ p.srcvr).toNat ++
  leBytes 8 (p.fmt ++ (0 : BitVec 2) ++ p.va).toNat ++
  leBytes 8 (p.pseq ++ p.cseq ++ (0 : BitVec 5) ++ BitVec.ofNat 13 p.data.length).toNat

/-- The packet's bytes cut into payloads of 192, the last filled up with zeros (R187). -/
def chunks192 : Nat → List Byte → List (List Byte)
  | 0, _ => []
  | k + 1, bs =>
    if bs.length ≤ 192 then [bs ++ List.replicate (192 - bs.length) 0]
    else bs.take 192 :: chunks192 k (bs.drop 192)

/-- The payload chunks of a packet. -/
def packetChunks (p : Packet) : List (List Byte) := chunks192 32 (packetHeader p ++ p.data)

/-- One flit: header, payload, check, eight zero bytes (R180). -/
def mkFlit (kind : BitVec 8) (p : Packet) (rem : Nat) (lseq ack credits : BitVec 16) (payload : List Byte) : List Byte :=
  let h0 : Word := kind ++ p.dstEp ++ p.srcEp ++ p.hop ++ p.vc ++ (0 : BitVec 4) ++ BitVec.ofNat 8 rem ++ lseq
  let h1 : Word := ack ++ credits ++ (0 : BitVec 32)
  let body := leBytes 8 h0.toNat ++ leBytes 8 h1.toNat ++ payload
  body ++ leBytes 8 (crc64 body).toNat ++ List.replicate 8 0

/-- The credits field of a flit that returns what is owed, at most 15 for each vc (R180; log 105, DESIGN CHOICE). -/
def creditField (owed : SMap Nat) : BitVec 16 := BitVec.ofNat 16 ((List.range 4).foldl (fun n vc => n + Nat.min 15 (sget 0 owed vc) * 16 ^ vc) 0)

/-- What is still owed after a flit. -/
def payCredits (owed : SMap Nat) : SMap Nat := (List.range 4).foldl (fun m vc => smod 0 m vc fun n => n - 15) owed

/-- What is still owed after `n` flits. -/
def payAll : Nat → SMap Nat → SMap Nat
  | 0, m => m
  | k + 1, m => payAll k (payCredits m)

/-- The flits of the remaining chunks, first of a packet or continuation, from link sequence `lseq`. -/
def flitsFrom (inst : Option Nat) (p : Packet) (ack : BitVec 16) : SMap Nat → Bool → BitVec 16 → List (List Byte) → List Flit
  | _, _, _, [] => []
  | owed, first, lseq, c :: cs =>
    ⟨lseq, ⟨p.srcvr.toNat, inst⟩, mkFlit (if first then 1 else 2) p cs.length lseq ack (creditField owed) c⟩ ::
      flitsFrom inst p ack (payCredits owed) false (lseq + 1) cs

/-- Read bits `lo` to `lo + n - 1` of a number. -/
def bitsOf (v lo n : Nat) : Nat := v / 2 ^ lo % 2 ^ n

/-- A packet from its flit header word and its payload bytes; none when a zero field is nonzero or the length disagrees (R187). -/
def parsePacket (h0 : Nat) (bs : List Byte) (rem : Nat) : Option Packet :=
  let w (i : Nat) := ofLeBytes ((bs.drop (8 * i)).take 8)
  let len := bitsOf (w 3) 0 13
  let op := bitsOf (w 1) 56 8
  if bitsOf (w 2) 56 2 ≠ 0 ∨ bitsOf (w 3) 13 5 ≠ 0 ∨ 4096 < len ∨ (32 + len + 191) / 192 ≠ rem + 1 ∨
      ¬ ((1 ≤ op ∧ op ≤ 9) ∨ op = 0x10 ∨ op = 0x11 ∨ (0x20 ≤ op ∧ op ≤ 0x24) ∨ (0x28 ≤ op ∧ op ≤ 0x2A) ∨ op = 0x30) then none
  else some
    { srcEp := BitVec.ofNat 12 (bitsOf h0 32 12), dstEp := BitVec.ofNat 12 (bitsOf h0 44 12),
      hop := BitVec.ofNat 2 (bitsOf h0 30 2), vc := BitVec.ofNat 2 (bitsOf h0 28 2), token := BitVec.ofNat 64 (w 0),
      op := BitVec.ofNat 8 op, cls := BitVec.ofNat 4 (bitsOf (w 1) 52 4), sem := BitVec.ofNat 2 (bitsOf (w 1) 50 2),
      scope := BitVec.ofNat 3 (bitsOf (w 1) 47 3), sub := BitVec.ofNat 7 (bitsOf (w 1) 40 7),
      dstvr := BitVec.ofNat 20 (bitsOf (w 1) 20 20), srcvr := BitVec.ofNat 20 (bitsOf (w 1) 0 20),
      fmt := BitVec.ofNat 6 (bitsOf (w 2) 58 6), va := BitVec.ofNat 56 (bitsOf (w 2) 0 56),
      pseq := BitVec.ofNat 32 (bitsOf (w 3) 32 32), cseq := BitVec.ofNat 14 (bitsOf (w 3) 18 14),
      data := (bs.drop 32).take len }

/-- The step that an arriving packet's operation calls for (R188). -/
def arrivalStep (p : Packet) : Option Instr :=
  match p.op.toNat with
  | 0x01 => some (.loadRequest p) | 0x02 => some (.storeRequest p) | 0x03 => some (.storeWithHandler p)
  | 0x04 => some (.atomicRequest p) | 0x05 => some (.casRequest p) | 0x06 => some (.probeRequest p)
  | 0x07 => some (.featureQuery p) | 0x08 => some (.multicastStore p) | 0x09 => some (.reducingStore p)
  | 0x10 => some (.replyWithData p) | 0x11 => some (.acknowledgement p)
  | 0x20 => some (.arm p) | 0x21 => some (.armReply p) | 0x22 => some (.go p) | 0x23 => some (.launchAbort p)
  | 0x24 => some (.lost p) | 0x28 => some (.pullRequest p) | 0x29 => some (.pullData p true)
  | 0x2A => some (.pullAcknowledgement p) | 0x30 => some (.snapshotTrigger p)
  | _ => none

/-! ## Paths (R185, R186) -/

/-- The code of wavelength `j`: 00 off, 01 active, 10 retraining, 11 failed (R184). -/
def Port.lane (p : Port) (j : Nat) : Nat := p.lanes.toNat / 4 ^ j % 4

/-- The active wavelengths in use: 8, 7 or 4; none on a dead port (R182, R184). -/
def Port.mode (p : Port) : Nat :=
  let n := ((List.range 8).filter fun j => decide (p.lane j = 1)).length
  if p.dead ∨ n < 4 then 0 else if n = 8 then 8 else if n = 7 then 7 else 4

/-- The port is dead: declared so, or with fewer than 4 healthy wavelengths (R181, R182). -/
def Port.isDead (p : Port) : Bool := decide (p.mode = 0)

/-- Port `q` of the package (R179). -/
def State.portAt (s : State) (q : Nat) : Port := sget Port.init s.ports q

/-- Change a port. -/
def State.onPort (s : State) (q : Nat) (f : Port → Port) : State := { s with ports := smod Port.init s.ports q f }

/-- The endpoint of a VR; supervisors' ids map to their endpoints without entries (R185, R204). -/
def State.locOf (s : State) (vr : Nat) : Option Nat :=
  if 0xFF000 ≤ vr then some (vr - 0xFF000) else sget none s.location vr

/-- The route entry of an endpoint (R185). -/
def State.routeOf (s : State) (ep : Nat) : Word := sget 0 s.route ep

/-- The path hash of R186. -/
def pathHash (src dst cls : Nat) : Nat := (src * 0x9E3779B9 + dst * 0x85EBCA6B + cls) % 2 ^ 32

/-- The live direct ports of an endpoint, from index h mod n, wrapping round (R186). -/
def State.directPorts (s : State) (ep h : Nat) : List Nat :=
  let r := s.routeOf ep
  let live := (List.range 32).filter fun q => r.getLsbD q && !(s.portAt q).isDead
  if r.getLsbD 63 then live.drop (h % live.length) ++ live.take (h % live.length) else []

/-- The paths to an endpoint in their order (R186). -/
def State.paths (s : State) (ep h : Nat) : List FabPath :=
  let r := s.routeOf ep
  let via (ok : Bool) (v k : Nat) : List FabPath := if ok then ((s.directPorts v h).take 1).map fun q => ⟨q, 1, k⟩ else []
  if r.getLsbD 63 then
    (s.directPorts ep h).map (fun q => ⟨q, 0, 0⟩) ++ via (r.getLsbD 61) (r.extractLsb' 36 12).toNat 1 ++
      via (r.getLsbD 62) (r.extractLsb' 48 12).toNat 2
  else []

/-- Two entries of orders formed at different moments are one path: the same direct port, or the same via. -/
def FabPath.same (a b : FabPath) : Bool := decide (a.via = b.via ∧ (a.via = 0 → a.port = b.port))

/-- The paths that a packet may still take: those left of its order that are paths now, then any that have come since (R185, R186, R198). -/
def leftPaths (now rest tried : List FabPath) : List FabPath :=
  (rest.filterMap fun a => now.find? (FabPath.same a)) ++ now.filter fun b => !(rest ++ tried).any (FabPath.same b)

/-! ## Sending -/

/-- Charge flits that the port sends (R218, R224); supervisors' flits go to the base. -/
def State.chargeFlit (s : State) (p : Payer) (n : Nat) : State :=
  if 0xFF000 ≤ p.vr then s
  else
    match s.vrAt p.vr with
    | none => s
    | some v => (s.charge p (26900 * n)).onFn v.fn fun f => f.spend 1 n

/-- Put a packet's flits on a port: link sequences, replay buffer of 512, output log, charge (R180, R181, R224). -/
def State.transmit (s : State) (inst : Option Nat) (q : Nat) (hop : BitVec 2) (p : Packet) : State :=
  let port := s.portAt q
  let fl := flitsFrom inst { p with hop := hop } port.rx port.owed true port.tx (packetChunks p)
  let s := s.onPort q fun o => { o with tx := o.tx + BitVec.ofNat 16 fl.length, replay := o.replay ++ fl, owed := payAll fl.length o.owed,
                                        since := if o.replay.isEmpty then s.cycle.toNat else o.since }
  { s with sent := s.sent ++ (fl.take (512 - port.replay.length)).map fun (f : Flit) => Sent.flit q f.bytes }.chargeFlit ⟨p.srcvr.toNat, inst⟩ fl.length

/-- A packet's paths now (R186). -/
def State.pathsOf (s : State) (p : Packet) : List FabPath := s.paths p.dstEp.toNat (pathHash p.srcvr.toNat p.dstvr.toNat p.cls.toNat)

/-- Send a packet on the first of its paths and answer its port; a packet for this chip goes to its own F-die and uses no port (R186, R357). -/
def State.sendFirst (s : State) (inst : Option Nat) (p : Packet) (ps : List FabPath) : Option (State × Nat) :=
  if p.dstEp = s.endpoint then (arrivalStep p).map fun i => (s.later (.event i), 32)
  else ps.head?.map fun a => (s.transmit inst a.port a.hop p, a.port)

/-- The key of an ordered pair of VRs (R196). -/
def pairKey (src dst : Nat) : Nat := src * 2 ^ 20 + dst

/-- The sequences of a pair; both count from 1 (R196). -/
def State.pairAt (s : State) (src dst : Nat) : Pair := sget ⟨0, []⟩ s.pairs (pairKey src dst)

/-- Number a new request of its pair and class, keep it until it is answered, and send it on its first path (R196, R198); none when there is no path. -/
def State.request (s : State) (inst : Option Nat) (uid spad idx : Nat) (p : Packet) : Option State :=
  let pr := s.pairAt p.srcvr.toNat p.dstvr.toNat
  let ps := pr.pseq + 1
  let cs := sget 0 pr.cseq p.cls.toNat + 1
  let p := { p with pseq := ps, cseq := cs, srcEp := s.endpoint }
  let order := s.pathsOf p
  (s.sendFirst inst p order).map fun (s, q) =>
    { s with
      pairs := sset ⟨0, []⟩ s.pairs (pairKey p.srcvr.toNat p.dstvr.toNat) ⟨ps, sset 0 pr.cseq p.cls.toNat cs⟩
      unacked := s.unacked ++ [{ p := p, sends := 1, tried := order.take 1, rest := order.tail, port := q, at_ := s.cycle.toNat, uid := uid,
                                 busy := false, extra := false, got := false, spad := spad, idx := idx, inst := inst }] }

/-- The packets that wait for their order in an F-die's hold store (R196). -/
def State.heldOn (s : State) (die : Nat) : Nat := (s.hold.filter fun h => !h.past && decide (h.p.die = die)).length

/-- The packets of a pair that await their answers (R196). -/
def State.outstanding (s : State) (src dst : Nat) : Nat :=
  (s.unacked.filter fun u => decide (u.p.srcvr.toNat = src ∧ u.p.dstvr.toNat = dst)).length

/-- Answer a request: op 0x10 with data or 0x11, the status in sub, token zero (R187, R189); lost when there is no path. -/
def State.answer (s : State) (p : Packet) (status : BitVec 7) (va : BitVec 56) (sem : BitVec 2) (scope : BitVec 3)
    (data : Option (List Byte)) : State :=
  let r : Packet :=
    { srcEp := s.endpoint, dstEp := p.srcEp, hop := 0, vc := 1, token := 0,
      op := if data.isSome then 0x10 else 0x11, cls := p.cls, sem := sem, scope := scope, sub := status,
      dstvr := p.srcvr, srcvr := p.dstvr, fmt := 0, va := va, pseq := p.pseq, cseq := p.cseq, data := data.getD [] }
  match s.sendFirst none r (s.pathsOf r) with
  | some (s, _) => s
  | none => s

/-- A packet of a VR with everything but its sequences and endpoints. -/
def blankPacket (src dst ep : Nat) (op : BitVec 8) (va : BitVec 56) : Packet :=
  { srcEp := 0, dstEp := BitVec.ofNat 12 ep, hop := 0, vc := 0, token := 0, op := op, cls := 0, sem := 0, scope := 0,
    sub := 0, dstvr := BitVec.ofNat 20 dst, srcvr := BitVec.ofNat 20 src, fmt := 0, va := va, pseq := 0, cseq := 0,
    data := [] }

/-- Send a request between supervisors: token, class, sem and scope zero, vc 3 (R204). -/
def State.supSend (s : State) (ep : Nat) (op : BitVec 8) (va : BitVec 56) (sub : BitVec 7) (data : List Byte) : State :=
  (s.request none 0 0 0 { blankPacket (0xFF000 + s.endpoint.toNat) (0xFF000 + ep) ep op va with vc := 3, sub := sub, data := data }).getD s

end Sys2Proof.Machine
end

