-- ==== Sys2Proof/Machine/Translate.lean ====
section
/-! DEFINITION. Machine/Translate.lean: the physical map (R102), page-table walks in one and two stages (R104, R105, R108, R109), partitions (R217), cached translations (R115, R350), and the fault path (R106, R110, R112, R114). -/

namespace Sys2Proof.Machine

/-! ## Physical memory -/

/-- The first address of LPDDR6 (R102). -/
def lpBase : Nat := 0x100000000000

/-- A physical address has memory (R102); a bare package has none in LPDDR6 (R4). -/
def State.hasMem (s : State) (pa : Nat) : Bool :=
  decide (pa < 0x6000000000) || (!s.bare && decide (lpBase ≤ pa ∧ pa < lpBase + 0x10000000000))

/-- The physical address lies in a slice of the function (R216, R217). -/
def Fn.owns (f : Fn) (pa : Nat) : Bool :=
  if pa < 0x6000000000 then
    let i := pa / 0xC0000000
    if i < 64 then f.hbm0.getLsbD i else f.hbm1.getLsbD (i - 64)
  else if lpBase ≤ pa ∧ pa < lpBase + 0x10000000000 then
    let i := (pa - lpBase) / 0x200000000
    if i < 64 then f.lp0.getLsbD i else f.lp1.getLsbD (i - 64)
  else false

/-! ## Walks -/

/-- Why a walk ends without a leaf: malformed, invalid, or a stage-2 miss at an IPA, for a node read or the final address. -/
inductive WErr
  | malformed | invalid | miss (ipa : Nat) (node : Bool)
  deriving DecidableEq, Repr

/-- A leaf: its level, the entry, the physical address of the entry, and the leaves whose accessed bits the walk sets. -/
structure Leaf where
  lvl   : Nat
  e     : Word
  at_   : Nat
  marks : List Nat
  deriving DecidableEq, Repr

/-- Type field of an entry (R105). -/
def pteType (e : Word) : Nat := (e.extractLsb' 1 2).toNat

/-- A 64 MiB or 64 GiB page's address is aligned, and bits 15:13 of a page are zero (R105). -/
def pageAligned (lvl : Nat) (e : Word) : Bool :=
  decide (e.toNat / 2 ^ 13 % 8 = 0) && decide ((e.toNat / 2 ^ 16) % 1024 ^ lvl = 0)

/-- Walk from a node: levels 3 to 0 of 1,024 entries (R104, R105). `read` answers an entry with its physical address and marks. -/
def walk (read : Nat → Except WErr (Word × Nat × List Nat)) (va : Nat) : Nat → Nat → List Nat → Except WErr Leaf
  | lvl, node, marks =>
    match read (node + 8 * (va / 2 ^ (16 + 10 * lvl) % 1024)) with
    | .error x => .error x
    | .ok (e, a, mk) =>
      if e.getLsbD 0 = false then .error .invalid
      else if e.toNat / 2 ^ 48 ≠ 0 ∨ e.getLsbD 12 = true then .error .malformed
      else
        match pteType e with
        | 0 => if lvl = 3 ∨ ¬ pageAligned lvl e then .error .malformed else .ok ⟨lvl, e, a, marks ++ mk⟩
        | 1 =>
          match lvl with
          | 0 => .error .malformed
          | k + 1 => walk read va k (e.toNat % 2 ^ 48 / 2 ^ 13 * 2 ^ 13) (marks ++ mk)
        | 2 => if lvl = 0 then .ok ⟨0, e, a, marks ++ mk⟩ else .error .malformed
        | _ => .error .malformed

/-- Read a page-table entry of a function at a physical address (R217). -/
def State.pte (s : State) (f : Fn) (pa : Nat) : Except WErr (Word × Nat × List Nat) :=
  if s.hasMem pa && f.owns pa then .ok (BitVec.ofNat 64 (s.mem.read pa 8), pa, []) else .error .malformed

/-- A stage-2 walk of an IPA (R109): while no root is set, every IPA is unmapped. -/
def State.stage2 (s : State) (f : Fn) (ipa : Nat) (node : Bool) : Except WErr Leaf :=
  if f.s2root.getLsbD 63 then
    match walk (s.pte f) ipa 3 (f.s2root.toNat % 2 ^ 48 / 2 ^ 13 * 2 ^ 13) [] with
    | .error .invalid => .error (.miss ipa node)
    | .error x => .error x
    | .ok l => if pteType l.e = 2 then .error .malformed else .ok l
  else .error (.miss ipa node)

/-- Physical address of `a` under a page leaf. -/
def Leaf.pa (l : Leaf) (a : Nat) : Nat :=
  l.e.toNat % 2 ^ 48 / 2 ^ 16 * 2 ^ 16 + a % (65536 * 1024 ^ l.lvl)

/-- Rights F A X W R of a leaf (R105). -/
def pteRights (e : Word) : BitVec 5 := e.extractLsb' 3 5

def rR : BitVec 5 := 0x01
def rW : BitVec 5 := 0x02
def rX : BitVec 5 := 0x04
def rA : BitVec 5 := 0x08
def rF : BitVec 5 := 0x10

/-- A stage-1 node read of a VR in a virtual function: translated with R at stage 2 (R109). -/
def State.nodeRead (s : State) (f : Fn) (ipa : Nat) : Except WErr (Word × Nat × List Nat) :=
  match s.stage2 f ipa true with
  | .error x => .error x
  | .ok l =>
    if (pteRights l.e).getLsbD 0 then
      match s.pte f (l.pa ipa) with
      | .error x => .error x
      | .ok (e, a, _) => .ok (e, a, [l.at_])
    else .error .malformed

/-- A full translation: the stage-1 leaf, the leaf that names the physical page, page span, physical address, rights, marks. -/
structure Found where
  s1     : Leaf
  last   : Leaf
  pages  : Nat
  pa     : Nat
  rights : BitVec 5
  marks  : List Nat
  deriving DecidableEq, Repr

/-- The stage-1 walk of a VR's address, whose nodes are read through stage 2 in a virtual function (R104, R109). -/
def State.stage1 (s : State) (v : Vr) (va : Nat) : Except WErr Leaf :=
  walk (if v.fn = 0 then s.pte (s.fnAt v.fn) else s.nodeRead (s.fnAt v.fn)) va 3 v.root []

/-- A final address without memory, or outside the slices of the function, is as a malformed entry (R102, R217). -/
def State.inSlices (s : State) (f : Fn) (x : Found) : Except WErr Found :=
  if s.hasMem x.pa && f.owns x.pa then .ok x else .error .malformed

/-- The walk of a VR's address (R104, R109, R217). A migrate-pull leaf is answered as it stands, untranslated. -/
def State.walkVr (s : State) (v : Vr) (va : Nat) : Except WErr Found :=
  let f := s.fnAt v.fn
  match s.stage1 v va with
  | .error x => .error x
  | .ok l =>
    if pteType l.e = 2 then .ok ⟨l, l, 1, 0, pteRights l.e, l.marks⟩
    else if v.fn = 0 then s.inSlices f ⟨l, l, 1024 ^ l.lvl, l.pa va, pteRights l.e, [l.at_]⟩
    else
      match s.stage2 f (l.pa va) false with
      | .error x => .error x
      | .ok m => s.inSlices f ⟨l, m, Nat.min (1024 ^ l.lvl) (1024 ^ m.lvl), m.pa (l.pa va), pteRights l.e &&& pteRights m.e,
                               l.marks ++ [l.at_, m.at_]⟩

/-- A valid leaf that the walk reached lacks a right the access needs, so it is refused at once, whatever the leaf's tier or type and whatever stage 2 says (R106, R108, R109). (log 35, DEDUCED) -/
def State.lacksRight (s : State) (v : Vr) (va : Nat) (need : BitVec 5) (w : Except WErr Found) : Bool :=
  match w with
  | .ok f => decide (f.rights &&& need ≠ need)
  | .error (.miss _ false) => match s.stage1 v va with
    | .ok l => decide (pteRights l.e &&& need ≠ need)
    | .error _ => false
  | .error _ => false

/-- Set the accessed bit, and D for a write or atomic, of an entry in memory (R105). -/
def setAD (m : Mem) (d : Bool) (at_ : Nat) : Mem :=
  m.write at_ 8 ((m.read at_ 8) ||| 0x200 ||| (if d then 0x100 else 0))

/-! ## Page requests (R110, R111, R352, R395) -/

/-- Ring `q` of a function (R395). -/
def Fn.ring (f : Fn) (q : Nat) : Ring := sget Ring.zero f.rings q

/-- Change a ring. -/
def Fn.onRing (f : Fn) (q : Nat) (g : Ring → Ring) : Fn := { f with rings := smod Ring.zero f.rings q g }

/-- Entries of a ring: 2^lg for lg 6 to 12; any other value disables it (R395). -/
def Ring.size (r : Ring) : Nat :=
  let lg := r.base.toNat % 16
  if 6 ≤ lg ∧ lg ≤ 12 then 2 ^ lg else 0

/-- A ring can take a record: enabled and not full (R395). -/
def Ring.room (r : Ring) : Bool := decide (r.size ≠ 0 ∧ (r.tail.toNat + 1) % r.size ≠ r.head.toNat)

/-- Raise an MSI-X vector of a function, on its home link (R390, R391). -/
def State.vector (s : State) (f n : Nat) : State := { s with sent := s.sent ++ [.vector (s.fnAt f).home f n] }

/-- Write a 32-byte record at the producer end of ring 0 or 2, then q.tail, then the ring's vector (R395). -/
def State.ringPut (s : State) (f q : Nat) (w0 w1 w2 w3 : Word) : State :=
  let r := (s.fnAt f).ring q
  let a := r.base.toNat / 4096 * 4096 + 32 * r.tail.toNat
  let t := (r.tail.toNat + 1) % r.size
  let rec32 := leBytes 8 w0.toNat ++ leBytes 8 w1.toNat ++ leBytes 8 w2.toNat ++ leBytes 8 w3.toNat
  let s := { s with hostMem := s.hostMem.setBytes a rec32 }
  let s := s.onFn f fun x => x.onRing q fun r =>
    { r with tail := BitVec.ofNat 12 t, phase := if t = 0 then !r.phase else r.phase }
  s.vector f (if q = 0 then 1 else 2)

/-- The lowest free tag of a function (R352). -/
def Fn.freeTag (f : Fn) : Option Nat := (List.range 1024).find? fun n => (sget none f.tags n).isNone

/-- Write waiting page requests while a tag and room in ring 0 are there (R110). -/
def State.drainReqs (f : Nat) : Nat → State → State
  | 0, s => s
  | k + 1, s =>
    match (s.fnAt f).waiting with
    | [] => s
    | p :: rest =>
      match (s.fnAt f).freeTag with
      | none => s
      | some tag =>
        if ((s.fnAt f).ring 0).room then
          let ph := ((s.fnAt f).ring 0).phase
          let w0 : Word := BitVec.ofNat 16 tag ++ p.ipa ++ (0 : BitVec 4) ++ p.kind ++ p.source ++ (0 : BitVec 3) ++
            (if ph then (1 : BitVec 1) else 0)
          let w2 : Word := BitVec.ofNat 64 (p.lcore % 512 * 2 ^ 20 + p.vr % 2 ^ 20)
          let s := s.ringPut f 0 w0 (p.va.setWidth 64) w2 0
          State.drainReqs f k (s.onFn f fun x => { x with waiting := rest, tags := sset none x.tags tag (some p) })
        else s

/-- Ask the host for an IPA page: joins an outstanding or waiting request for it (R110). -/
def State.pageRequest (s : State) (f : Nat) (p : PReq) : State :=
  let x := s.fnAt f
  if x.tags.any (fun e => match e.2 with | some q => decide (q.ipa = p.ipa) | none => false) ||
      x.waiting.any (fun q => decide (q.ipa = p.ipa)) then s
  else (s.onFn f fun x => { x with waiting := x.waiting ++ [p] }).drainReqs f 1

/-! ## The fault path (R112) -/

/-- An access that needs translation: whose it is, the rights it needs, what a page request says of it, whether it waits for a fault. -/
structure Acc where
  core   : Option Nat
  who    : Who
  vr     : Nat
  need   : BitVec 5
  source : BitVec 4
  lcore  : Nat
  join   : Bool
  /-- The F-die whose arrival translator an access without a core uses (R115). -/
  die    : Nat := 0
  /-- The step task that pays, where an instruction of one makes the access (R221). -/
  inst   : Option Nat := none
  deriving DecidableEq, Repr

/-- Who pays for an access. -/
def Acc.payer (a : Acc) : Payer := ⟨a.vr, a.inst⟩

/-- The kind code of a page request (R110). -/
def Acc.kind (a : Acc) : BitVec 4 :=
  if a.need.getLsbD 2 then 3 else if a.need.getLsbD 3 then 2 else if a.need.getLsbD 1 then 1 else 0

/-- The class of fault that a walk's outcome is, if it takes the fault path; for a stage-2 miss, its IPA page (R106, R108; log 35, DEDUCED). The tier hint that counts is that of the leaf that names the physical page, stage 2's in a virtual function (R103; log 108, DESIGN CHOICE). -/
def faultKind : Except WErr Found → Option (FKind × Nat × Bool)
  | .error .invalid => some (.supervisor, 0, false)
  | .error (.miss ipa node) => some (.host none, ipa / 65536, node)
  | .error .malformed => none
  | .ok f =>
    if pteType f.s1.e = 2 then some (.pull, 0, false)
    else if (f.last.e.extractLsb' 10 2) = 3 ∧ lpBase ≤ f.pa then some (.promote, 0, false)
    else none

/-- A page is resident: a valid page entry in HBM4E (R114). -/
def State.resident (s : State) (v : Vr) (page : Nat) : Bool :=
  match s.walkVr v (page * 65536) with
  | .ok f => decide (pteType f.s1.e = 0 ∧ f.pa < 0x6000000000)
  | .error _ => false

/-- The prefetcher's span for a fault on a page, in pages: size and how many doublings are left (R114). -/
def State.spanOf (s : State) (v : Vr) (page : Nat) : Nat → Nat → Nat
  | 0, n => n
  | k + 1, n =>
    if v.pfthr = 0 ∨ 2 ^ v.pfblk.toNat < 2 * n then n
    else
      let base := page / (2 * n) * (2 * n)
      let res := ((List.range (2 * n)).filter fun i => s.resident v (base + i)).length
      if res * 16 ≤ v.pfthr.toNat * (2 * n) then n else State.spanOf s v page k (2 * n)

/-- The pull request of a migrate-pull page to the source package (R106, R207). -/
def pullPacket (v : Nat) (vr : Vr) (page : Nat) (e : Word) : Packet :=
  { blankPacket v (e.extractLsb' 16 20).toNat (e.extractLsb' 36 12).toNat 0x28 (BitVec.ofNat 56 (page * 65536)) with
    vc := 2, token := vr.migtok }

/-- Send it; without a path the pull is refused. -/
def State.sendPull (s : State) (v : Nat) (vr : Vr) (page : Nat) (e : Word) : State :=
  let p := pullPacket v vr page e
  (s.request none 0 0 0 p).getD (s.later (.event (.pullData p false)))

/-- Put one page on the fault path, or join the accesses waiting there (R112, R118). -/
def State.enterFault (s : State) (a : Acc) (v : Vr) (va : Nat) (k : FKind) (ipa : Nat) (node : Bool) (e : Word)
    (who : List Who) : State :=
  let page := va / 65536
  if s.faults.any fun f => decide (f.vr = a.vr ∧ f.page = page ∧ f.ipa = ipa) then
    let g : PFault → PFault := fun f =>
      if f.vr = a.vr ∧ f.page = page ∧ f.ipa = ipa then { f with who := f.who ++ who.filter fun w => !f.who.contains w } else f
    { s with faults := s.faults.map g }
  else
    let s := { s with faults := s.faults ++ [(⟨s.uid, a.vr, page, ipa, k, who⟩ : PFault)], uid := s.uid + 1 }
    match k with
    | .supervisor => s.later (.event (.faultResolution (s.uid - 1)))
    | .promote => s.later (.event (.tierPromotion (s.uid - 1)))
    | .pull => s.sendPull a.vr v page e
    | .host _ =>
      s.pageRequest v.fn
        { ipa := BitVec.ofNat 32 ipa, kind := (if node then 4 else a.kind), source := a.source,
          va := (if node then 0 else BitVec.ofNat 56 va), lcore := a.lcore, vr := a.vr }

/-- The entry a fault concerns, for a pull request. -/
def foundEntry : Except WErr Found → Word
  | .ok f => f.s1.e
  | .error _ => 0

/-- Fetch the other non-resident pages of a fault's span (R114). -/
def State.prefetch (s : State) (a : Acc) (v : Vr) (page : Nat) : State :=
  let n := s.spanOf v page 10 1
  let base := page / n * n
  ((List.range n).filter fun i => decide (base + i ≠ page)).foldl (fun s i =>
    let va := (base + i) * 65536
    let w := s.walkVr v va
    match faultKind w with
    | some (k, ipa, node) => s.enterFault a v va k ipa node (foundEntry w) []
    | none => s) s

/-- A fault on the page of `va`: the prefetcher runs on a new entry (R112, R114). -/
def State.fault (s : State) (a : Acc) (v : Vr) (va : Nat) (k : FKind) (ipa : Nat) (node : Bool) (e : Word) : State :=
  let fresh := !(s.faults.any fun f => decide (f.vr = a.vr ∧ f.page = va / 65536 ∧ f.ipa = ipa))
  let s := s.enterFault a v va k ipa node e (if a.join then [a.who] else [])
  if fresh then s.prefetch a v (va / 65536) else s

/-! ## Cached translations (R115, R350) -/

/-- The cached translations an access may use: its core's map unit or its F-die's arrival translator (R115). -/
def State.cache (s : State) (a : Acc) : List Tlb :=
  match a.core with
  | some n => (s.coreAt n).tlb
  | none => sget [] s.ftlb a.die

/-- A cache of `n` entries with one translation more; a full one loses its oldest (R115; log 109, DESIGN CHOICE). -/
def cacheAdd (n : Nat) (t : Tlb) (l : List Tlb) : List Tlb := (t :: l.filter fun u => !decide (u.vr = t.vr ∧ u.page = t.page)).take n

/-- Keep a translation in the cache of an access (R115). -/
def State.cachePut (s : State) (a : Acc) (t : Tlb) : State :=
  match a.core with
  | some n => s.onCore n fun x => { x with tlb := cacheAdd 2048 t x.tlb }
  | none => { s with ftlb := smod [] s.ftlb a.die (cacheAdd 8192 t) }

/-- Keep only the cached translations that `p` keeps, in every cache of the chip (R115). -/
def State.keepTlb (s : State) (p : Tlb → Bool) : State :=
  let f : Nat → Core → Core := fun _ c => { c with tlb := c.tlb.filter p }
  { s with cores := smapAll Core.init f s.cores, ftlb := smapAll [] (fun _ l => l.filter p) s.ftlb }

/-- A cached translation of an address that needs no entry updated (R105, R350). -/
def Tlb.hits (t : Tlb) (a : Acc) (va : Nat) : Bool :=
  decide (t.vr = a.vr ∧ t.page ≤ va / 65536 ∧ va / 65536 < t.page + t.pages) && (t.d || !(a.need.getLsbD 1 || a.need.getLsbD 3))

/-! ## What a walk costs (R218, R224, R350) -/

/-- The addresses a walk reads, with what each read itself costs in `look`. -/
def trail (read : Nat → Except WErr (Word × Nat × List Nat)) (look : Nat → List Nat) (va : Nat) : Nat → Nat → List Nat
  | 0, node => look (node + 8 * (va / 2 ^ 16 % 1024))
  | k + 1, node =>
    let x := node + 8 * (va / 2 ^ (16 + 10 * (k + 1)) % 1024)
    look x ++ match read x with
      | .ok (e, _, _) => if e.getLsbD 0 ∧ pteType e = 1 then trail read look va k (e.toNat % 2 ^ 48 / 2 ^ 13 * 2 ^ 13) else []
      | .error _ => []

/-- A page-table entry read at a physical address. -/
def State.pteTrail (s : State) (f : Fn) (pa : Nat) : List Nat := if s.hasMem pa && f.owns pa then [pa] else []

/-- The entries that a stage-2 walk reads. -/
def State.trail2 (s : State) (f : Fn) (ipa : Nat) : List Nat :=
  if f.s2root.getLsbD 63 then trail (s.pte f) (s.pteTrail f) ipa 3 (f.s2root.toNat % 2 ^ 48 / 2 ^ 13 * 2 ^ 13) else []

/-- The entries that a stage-1 node read at an IPA reads: its stage-2 walk, then itself. -/
def State.nodeTrail (s : State) (f : Fn) (ipa : Nat) : List Nat :=
  s.trail2 f ipa ++ match s.nodeRead f ipa with
    | .ok (_, a, _) => [a]
    | .error _ => []

/-- The entries that the walk of a VR's address reads (R350). -/
def State.walkTrail (s : State) (v : Vr) (va : Nat) : List Nat :=
  let f := s.fnAt v.fn
  if v.fn = 0 then trail (s.pte f) (s.pteTrail f) va 3 v.root
  else
    trail (s.nodeRead f) (s.nodeTrail f) va 3 v.root ++ match s.stage1 v va with
      | .ok l => if pteType l.e = 2 then [] else s.trail2 f (l.pa va)
      | .error _ => []

/-- A walk's reads are charged to its VR (R218, R224). -/
def State.chargeWalk (s : State) (p : Payer) (v : Vr) (va : Nat) : State :=
  (s.walkTrail v va).foldl (fun s pa => s.chargeMem p pa 8 true false) s

/-- Set the accessed and D bits of entries; an update of memory is charged (R105, R218, R224). -/
def State.markAD (s : State) (p : Payer) (d : Nat → Bool) (marks : List Nat) : State :=
  marks.foldl (fun s x =>
    let m := setAD s.mem (d x) x
    if m.read x 8 = s.mem.read x 8 then s else { s.chargeMem p x 8 false true with mem := m }) s

/-- The access waits on the fault path for the page (R112, R351). -/
def State.waitsOn (s : State) (a : Acc) (page : Nat) : Bool :=
  a.join && s.faults.any fun f => decide (f.vr = a.vr ∧ f.page = page) && f.who.contains a.who

/-- An access of a record, or of what is held of one, is refused: with its page, so that its later elements there are too (R351). -/
def State.refuse351 (s : State) (a : Acc) (page : Nat) : State :=
  match a.who with
  | .record _ | .store _ => { s with denied := s.denied ++ [(a.who, a.vr, page)] }
  | _ => s

/-- Walk the tables for an access that no cached translation serves (R108, R112). -/
def State.xwalk (s : State) (a : Acc) (v : Vr) (va : Nat) : State × XR Nat :=
  let page := va / 65536
  let w := s.walkVr v va
  let s := s.chargeWalk a.payer v va
  if s.lacksRight v va a.need w then (s.refuse351 a page, .refused va)
  else
    match faultKind w with
    | some (k, ipa, node) => (s.fault a v va k ipa node (foundEntry w), .wait)
    | none =>
      match w with
      | .error _ => (s.refuse351 a page, .refused va)
      | .ok f =>
        let d := a.need.getLsbD 1 || a.need.getLsbD 3
        let s := s.markAD a.payer (fun x => d && (x == f.s1.at_ || x == f.last.at_)) f.marks
        let first := page / f.pages * f.pages
        (s.cachePut a ⟨a.vr, v.fn, first, f.pages, f.pa - (va - first * 65536), f.rights, d⟩, .ok f.pa)

/-- Translate an address for an access (R108, R112): a physical address, a refusal, or a wait on the fault path. A page that the access was refused or waits for is not walked again (R351); no translation leads out of its function's slices (R217). -/
def State.xlate (s : State) (a : Acc) (va : Nat) : State × XR Nat :=
  match s.vrAt a.vr with
  | none => (s, .refused va)
  | some v =>
    if 2 ^ 56 ≤ va ∨ s.denied.contains (a.who, a.vr, va / 65536) then (s, .refused va)
    else if s.waitsOn a (va / 65536) then (s, .wait)
    else
      match (s.cache a).find? (fun t => t.hits a va) with
      | some t =>
        let pa := t.pa + (va - t.page * 65536)
        if t.rights &&& a.need = a.need ∧ s.hasMem pa ∧ (s.fnAt t.fn).owns pa then (s, .ok pa) else (s.refuse351 a (va / 65536), .refused va)
      | none => s.xwalk a v va

/-- Where a page of a VR lies, for telling whether two virtual pages are one location: its physical page, or a place of its own beyond all memory (R119). -/
def State.pageAt (s : State) (vr page : Nat) : Nat :=
  match s.vrAt vr with
  | none => 2 ^ 64 + page
  | some v =>
    match s.walkVr v (page * 65536) with
    | .ok f => if pteType f.s1.e = 2 then 2 ^ 64 + page else f.pa / 65536
    | .error _ => 2 ^ 64 + page

/-- How far `n` lies behind the pointer `p` among `m` requesters, going round (R213). -/
def behindPtr (m p n : Nat) : Nat := (n + m - 1 - p % m) % m

/-- The place of a request for memory: the stack that the VR's address lies on, and how far the VR's function lies behind the pointer of the stack's controller (R102, R213). -/
def State.memRank (s : State) (vr va : Nat) : Nat :=
  let k := (s.pageAt vr (va / 65536) * 65536 + va % 65536) / 4096 % 8
  32 * k + behindPtr 32 (sget 31 s.memPtr k) ((s.vrAt vr).elim 0 Vr.fn)

/-- The accesses of `who` have ended: what the fault path remembers of them goes. -/
def State.settle (s : State) (who : Who) : State :=
  { s with denied := s.denied.filter fun d => decide (d.1 ≠ who)
           faults := s.faults.map (PFault.without fun w => decide (w = who)) }

end Sys2Proof.Machine
end

