-- ==== Sys2Proof/Machine/Spad.lean ====
section
/-! DEFINITION. Machine/Spad.lean: byte ranges of the global space, scratchpad bytes with the region map over them: fills (R93, R96), writes and their marked lines (R94), write-backs (R95, R96). -/

namespace Sys2Proof.Machine

/-! ## Byte ranges of the global space -/

/-- Translate the `n` bytes from `va` page by page in ascending order: runs of physical bytes; the first page that is refused or waits ends it (R96). -/
def State.gvRuns (a : Acc) : Nat → State → Nat → Nat → State × XR (List (Nat × Nat))
  | 0, s, _, _ => (s, .ok [])
  | k + 1, s, va, n =>
    if n = 0 then (s, .ok [])
    else
      let len := Nat.min n (65536 - va % 65536)
      match s.xlate a va with
      | (s, .refused x) => (s, .refused x)
      | (s, .wait) => (s, .wait)
      | (s, .ok pa) =>
        match State.gvRuns a k s (va + len) (n - len) with
        | (s, .ok rs) => (s, .ok ((pa, len) :: rs))
        | (s, .refused x) => (s, .refused x)
        | (s, .wait) => (s, .wait)

/-- The runs of a range that may pass page ends. -/
def State.runs (s : State) (a : Acc) (va n : Nat) : State × XR (List (Nat × Nat)) :=
  State.gvRuns a (n / 65536 + 2) s va n

/-- The bytes of physical runs. -/
def readRuns (m : Mem) : List (Nat × Nat) → List Byte
  | [] => []
  | (pa, n) :: t => m.bytes pa n ++ readRuns m t

/-- Write bytes over physical runs. -/
def writeRuns (m : Mem) : List (Nat × Nat) → List Byte → Mem
  | [], _ => m
  | (pa, n) :: t, bs => writeRuns (m.setBytes pa (bs.take n)) t (bs.drop n)

/-- Charge physical runs to a VR (R218, R224). -/
def State.chargeRuns (s : State) (p : Payer) (rs : List (Nat × Nat)) (rd : Bool) : State :=
  rs.foldl (fun s r => s.chargeMem p r.1 r.2 rd (!rd)) s

/-- Read bytes of the global space. -/
def State.gvRead (s : State) (a : Acc) (va n : Nat) : State × XR (List Byte) :=
  match s.runs a va n with
  | (s, .ok rs) => (s.chargeRuns a.payer rs true, .ok (readRuns s.mem rs))
  | (s, .refused x) => (s, .refused x)
  | (s, .wait) => (s, .wait)

/-- Bytes that a plain write covers carry no release (R127). -/
def clearRel (m : SMap (List Rel)) (k n : Nat) : SMap (List Rel) := sbelow m k ++ sfrom m (k + n)

/-- The key of a scratchpad byte among release writes. -/
def spRelKey (lc a : Nat) : Nat := 2 ^ 60 + lc * 2 ^ 20 + a

/-- Write bytes of the global space; nothing is written unless every page translates. -/
def State.gvWrite (s : State) (a : Acc) (va : Nat) (bs : List Byte) : State × XR Unit :=
  match s.runs a va bs.length with
  | (s, .ok rs) =>
    ({ s.chargeRuns a.payer rs false with
        mem := writeRuns s.mem rs bs
        rels := rs.foldl (fun m r => clearRel m r.1 r.2) s.rels }, .ok ())
  | (s, .refused x) => (s, .refused x)
  | (s, .wait) => (s, .wait)

/-! ## Region-map entries -/

/-- Region-map entry `i` of a logical core (R92). -/
def LCore.reg (l : LCore) (i : Nat) : Region := sget Region.zero l.regions i

/-- Write a region-map entry. -/
def LCore.setRegion (l : LCore) (i : Nat) (r : Region) : LCore := { l with regions := sset Region.zero l.regions i r }

/-- An entry is used (R92). (log 14, DEDUCED) -/
def Region.used (r : Region) : Bool := decide (r.st ≠ .unused)

/-- The bytes `lo` to `hi - 1` meet the region. -/
def Region.meets (r : Region) (lo hi : Nat) : Bool := r.used && decide (lo < r.base + r.len ∧ r.base < hi)

/-- The indices of the regions that the bytes `lo` to `hi - 1` meet. -/
def LCore.meeting (l : LCore) (lo hi : Nat) : List Nat := (l.regions.filter fun e => e.2.meets lo hi).map (·.1)

/-- The indices of the unfilled ones among them (R93). -/
def LCore.unfilled (l : LCore) (lo hi : Nat) : List Nat :=
  (l.regions.filter fun e => e.2.meets lo hi && decide (e.2.st = .unfilled)).map (·.1)

/-- The access of the map unit for a region of a logical core (R93, R95, R110). -/
def State.mapAcc (s : State) (lc idx : Nat) (need : BitVec 5) : Acc :=
  { core := some (s.coreOf (lc / 288) (lc % 288)), who := .region lc idx, vr := (s.taskAt (lc / 288)).vr, need := need,
    source := 6, lcore := lc % 288, join := true, inst := (s.payerOf (lc / 288)).inst }

/-- Copy the pages of an unfilled region that are left, in ascending order; what has been copied stays so while a page waits (R93, R96, R118). -/
def State.fillPages (lc idx : Nat) : Nat → State → State × XR Unit
  | 0, s => (s, .ok ())
  | k + 1, s =>
    let r := (s.lcoreAt lc).reg idx
    if r.len ≤ r.fillAt then (s, .ok ())
    else if s.budgetHeld (s.taskAt (lc / 288)).vr 0 then (s, .wait)
    else
      let va := r.va.toNat + r.fillAt
      let n := Nat.min (r.len - r.fillAt) (65536 - va % 65536)
      match s.gvRead (s.mapAcc lc idx rR) va n with
      | (s, .ok bs) =>
        State.fillPages lc idx k { (s.onLcore lc fun l => { l.setRegion idx { r with fillAt := r.fillAt + n } with
            sp := l.sp.setBytes (r.base + r.fillAt) bs }) with
          rels := clearRel s.rels (spRelKey lc (r.base + r.fillAt)) n }
      | (s, .refused x) => (s, .refused x)
      | (s, .wait) => (s, .wait)

/-- Fill an unfilled region: copy all its bytes from the global space; a fill that has started goes on by itself (R93, R96). (log 36, DEDUCED) -/
def State.fill (s : State) (lc idx : Nat) : State × XR Unit :=
  if ((s.lcoreAt lc).reg idx).st ≠ .unfilled then (s, .ok ())
  else
    match State.fillPages lc idx 18 s with
    | (s, .ok ()) =>
      ((s.onLcore lc fun l => l.setRegion idx { l.reg idx with st := .filled, lines := [], fillAt := 0, filling := false }).settle (.region lc idx), .ok ())
    | (s, .refused x) => ((s.onLcore lc fun l => l.setRegion idx { l.reg idx with fillAt := 0, filling := false }).settle (.region lc idx), .refused x)
    | (s, .wait) => (s.onLcore lc fun l => l.setRegion idx { l.reg idx with filling := true }, .wait)

/-- The first physical byte of a logical core's quota in its core's scratchpad: co-resident sharers stand side by side (R30). -/
def State.spOrigin (s : State) (lc : Nat) : Nat :=
  if s.coResident (lc / 288) (lc % 288 / 4) then s.sharerOf (lc / 288) (lc % 288 / 4) * s.quotaOf (s.taskAt (lc / 288)).vr else 0

/-- A bank under the bytes `lo` to `hi - 1` wakes: the access is held (R100). -/
def State.spWaking (s : State) (lc lo hi : Nat) : Bool :=
  let o := s.spOrigin lc
  (s.coreAt (s.coreOf (lc / 288) (lc % 288))).waking.any fun b =>
    decide (lo < hi ∧ b.1 * 32768 < o + hi ∧ o + lo < (b.1 + 1) * 32768)

/-- Fill every unfilled region of a list (R93). -/
def State.fillAll (lc : Nat) : List Nat → State → State × XR Unit
  | [], s => (s, .ok ())
  | i :: t, s =>
    match s.fill lc i with
    | (s, .ok ()) => State.fillAll lc t s
    | (s, .refused x) => (s, .refused x)
    | (s, .wait) => (s, .wait)

/-- An access touches the scratchpad bytes `lo` to `hi - 1`: unfilled regions fill first (R93). -/
def State.touch (s : State) (lc lo hi : Nat) : State × XR Unit :=
  if s.spWaking lc lo hi then (s, .wait) else State.fillAll lc ((s.lcoreAt lc).unfilled lo hi) s

/-! ## Scratchpad bytes -/

/-- Read scratchpad bytes. -/
def LCore.spBytes (l : LCore) (a n : Nat) : List Byte := l.sp.bytes a n

/-- The lines `first` to `last` of a region are marked as written (R94). -/
def markLines (m : SMap Bool) (first last : Nat) : SMap Bool :=
  sputs false m first (List.replicate (last + 1 - first) true)

/-- A write of the bytes `lo` to `hi - 1` makes a filled region dirty, only when w is 1, and marks its lines (R94). -/
def Region.mark (r : Region) (lo hi : Nat) : Region :=
  if r.w && r.meets lo hi && decide (r.st = .filled ∨ r.st = .dirty) then
    let a := Nat.max lo r.base - r.base
    let b := Nat.min hi (r.base + r.len) - 1 - r.base
    { r with st := .dirty, lines := markLines r.lines (a / 64) (b / 64) }
  else r

/-- Write scratchpad bytes and mark the regions under them (R94). -/
def LCore.spPut (l : LCore) (a : Nat) (bs : List Byte) : LCore :=
  { l with
    sp := l.sp.setBytes a bs
    regions := if bs.isEmpty then l.regions else smapAll Region.zero (fun _ r => r.mark a (a + bs.length)) l.regions }

/-- Write scratchpad bytes of a logical core. -/
def State.spPut (s : State) (lc a : Nat) (bs : List Byte) : State :=
  { s.onLcore lc fun l => l.spPut a bs with rels := clearRel s.rels (spRelKey lc a) bs.length }

/-! ## Write-backs (R95, R96) -/

/-- The marked lines of a region, ascending. -/
def Region.marked (r : Region) : List Nat := r.lines.map (·.1)

/-- The bytes of line `i` of a region: scratchpad offset and length; the last line may be shorter (R94). -/
def Region.line (r : Region) (i : Nat) : Nat × Nat := (64 * i, Nat.min 64 (r.len - 64 * i))

/-- Copy lines out in ascending order; the first that is refused or waits ends it, and what is left is answered (R95, R96). -/
def State.copyLines (a : Acc) (lc : Nat) (r : Region) : List Nat → State → State × List Nat × XR Unit
  | [], s => (s, [], .ok ())
  | i :: t, s =>
    let (off, n) := r.line i
    match s.gvWrite a (r.va.toNat + off) ((s.lcoreAt lc).spBytes (r.base + off) n) with
    | (s, .ok ()) => State.copyLines a lc r t s
    | (s, .refused x) => (s, i :: t, .refused x)
    | (s, .wait) => (s, i :: t, .wait)

/-- A map of marked lines. -/
def linesOf (l : List Nat) : SMap Bool := l.map fun i => (i, true)

/-- An entry whose write-back did not happen returns to dirty with those lines marked, at its index in place of whatever stands there; one that was flushed and still stands keeps what has been marked since (R45, R96, R344). -/
def LCore.redirty (l : LCore) (idx : Nat) (old : Region) (lines : List Nat) (evict : Bool) : LCore :=
  let r := l.reg idx
  if !evict && r.used && decide (r.va = old.va ∧ r.base = old.base ∧ r.len = old.len) then
    l.setRegion idx { r with st := .dirty, lines := lines.foldl (fun m i => sset false m i true) r.lines }
  else l.setRegion idx { old with st := .dirty, lines := linesOf lines }

/-- Write a dirty region back: it becomes filled, or stays dirty with the lines left marked (R95, R96). -/
def State.writeBack (s : State) (lc idx : Nat) : State × XR Unit :=
  let r := (s.lcoreAt lc).reg idx
  if r.st ≠ .dirty then (s, .ok ())
  else if s.budgetHeld (s.taskAt (lc / 288)).vr 0 then (s, .wait)
  else
    match State.copyLines (s.mapAcc lc idx rW) lc r r.marked s with
    | (s, _, .ok ()) =>
      ((s.onLcore lc fun l => l.setRegion idx { r with st := .filled, lines := [] }).settle (.region lc idx), .ok ())
    | (s, left, .refused x) =>
      ((s.onLcore lc fun l => l.setRegion idx { r with lines := linesOf left }).settle (.region lc idx), .refused x)
    | (s, left, .wait) => (s.onLcore lc fun l => l.setRegion idx { r with lines := linesOf left }, .wait)

/-! ## Footprints and bounds -/

/-- The range passes the logical core's quota (R39, R90). -/
def State.pastQuota (s : State) (vr a n : Nat) : Bool := decide (s.quotaOf vr < a + n)

end Sys2Proof.Machine
end

