-- ==== Sys2Proof/Machine/Hold.lean ====
section
/-! DEFINITION. Machine/Hold.lean: stores that are held: the region store buffer and its commit (R42, R43), stores that wait on the fault path (R112, R113), and the packets of remote operations (R357 to R360). -/

namespace Sys2Proof.Machine

/-! ## Failures held for a strand or for its logical core (R48, R55) -/

/-- The strand instance `sid` still stands in its slot. -/
def State.alive (s : State) (r : Ref) (sid : Nat) : Bool := decide ((s.strandAt r.key).sid = sid)

/-- Hold an engine error for a strand, or for its logical core once the strand has tailed (R48, R56). -/
def State.addErr (s : State) (r : Ref) (sid : Nat) (f : Failure) : State :=
  if s.alive r sid then s.onStrand r.key fun t => { t with errs := t.errs ++ [f] }
  else s.onLcore (lckey r.task r.lcore) fun l => { l with errs := l.errs ++ [f] }

/-- Hold a remote failure for a strand, or for its logical core once the strand has tailed (R48, R359). -/
def State.addRfail (s : State) (r : Ref) (sid : Nat) (f : Failure) : State :=
  if s.alive r sid then s.onStrand r.key fun t => { t with rfails := t.rfails ++ [f] }
  else s.onLcore (lckey r.task r.lcore) fun l => { l with rfails := l.rfails ++ [f] }

/-! ## The region store buffer (R43) -/

/-- The blocks an item occupies: space 0 is the VR's own, 1 + v that of VR v. -/
def Held.blocks : Held → List (Nat × Nat)
  | .bytes b => [(0, b.blk)]
  | .remote _ bs => bs
  | .wback _ _ bs .. => bs
  | .fence .. => []

/-- The distinct blocks of a buffer. -/
def heldBlocks (l : List Held) : List (Nat × Nat) := (l.flatMap Held.blocks).eraseDups

/-- The blocks from byte `a` to byte `a + n - 1` of space `sp`. -/
def blocksOf (sp a n : Nat) : List (Nat × Nat) :=
  if n = 0 then [] else (List.range ((a + n - 1) / 256 + 1 - a / 256)).map fun i => (sp, a / 256 + i)

/-- Adding these blocks would need a 257th entry (R43). -/
def overCapacity (l : List Held) (bs : List (Nat × Nat)) : Bool :=
  decide (256 < (heldBlocks l ++ bs).eraseDups.length)

/-! ## One location under two addresses (R119)

`pl` tells where a page of the VR lies. -/

/-- Two pages of a VR are one page of memory. -/
def samePage (pl : Nat → Nat) (p q : Nat) : Bool := decide (p = q) || decide (pl p = pl q)

/-- The pages from `va` to `va + n - 1`. -/
def pagesOf (va n : Nat) : List Nat :=
  if n = 0 then [] else (List.range ((va + n - 1) / 65536 + 1 - va / 65536)).map (va / 65536 + ·)

/-- The part of the bytes `a` to `a + n - 1` that lies on page `p`, as offsets on the page. -/
def pageCut (a n p : Nat) : Nat × Nat := (Nat.max a (p * 65536) - p * 65536, Nat.min (a + n) ((p + 1) * 65536) - p * 65536)

/-- Two ranges of the VR's space share a location (R119). -/
def shareLoc (pl : Nat → Nat) (a m b n : Nat) : Bool :=
  (pagesOf a m).any fun p => (pagesOf b n).any fun q => samePage pl p q &&
    decide ((pageCut a m p).1 < (pageCut b n q).2 ∧ (pageCut b n q).1 < (pageCut a m p).2)

/-- The place in the bytes `a` to `a + n - 1` of the location that `va` names, if it is one of them. -/
def placeIn (pl : Nat → Nat) (a n va : Nat) : Option Nat :=
  let j := (va % 65536 + 65536 - a % 65536) % 65536
  if j < n && samePage pl ((a + j) / 65536) (va / 65536) then some j else none

/-- The contiguous runs of a block's held bytes. -/
def runsOf : SMap (Option Byte) → List (Nat × List Byte)
  | [] => []
  | (k, v) :: t =>
    let b := v.getD 0
    match runsOf t with
    | (k', bs) :: r => if k' = k + 1 then (k, b :: bs) :: r else (k, [b]) :: (k', bs) :: r
    | [] => [(k, [b])]

/-- The address of a line of a write-back. -/
def lineVa (old : Region) (i : Nat) : Nat := old.va.toNat + 64 * i

/-- The value that an item holds for the location of `va`. -/
def Held.byteAt (pl : Nat → Nat) (va : Nat) : Held → Option Byte
  | .bytes b => (placeIn pl (b.blk * 256) 256 va).bind fun j => sget none b.data j
  | .wback _ _ bs old ls .. =>
    if bs.isEmpty then none else ls.findSome? fun e => (placeIn pl (lineVa old e.1) e.2.length va).bind fun j => e.2[j]?
  | _ => none

/-- The held value of the location of `va`, if there is one (R43). -/
def heldByte (pl : Nat → Nat) (l : List Held) (va : Nat) : Option Byte := l.findSome? (Held.byteAt pl va)

/-- A later store of `v` to `va`, with the scope of its release, over what an item holds for that location (R43, R119, R130). -/
def Held.patch (pl : Nat → Nat) (rel : Option (BitVec 3)) (va : Nat) (v : Byte) : Held → Held
  | .bytes b =>
    match placeIn pl (b.blk * 256) 256 va with
    | some j => if (sget none b.data j).isSome then .bytes { b with data := sset none b.data j (some v), rel := sset none b.rel j rel } else .bytes b
    | none => .bytes b
  | .wback u i bs old ls pc cls ev com =>
    .wback u i bs old (ls.map fun e => match placeIn pl (lineVa old e.1) e.2.length va with
      | some j => (e.1, e.2.set j v)
      | none => e) pc cls ev com
  | h => h

/-- Later bytes from `va` over what a buffer holds there. -/
def patchAll (pl : Nat → Nat) (rel : Option (BitVec 3)) : Nat → List Byte → List Held → List Held
  | _, [], l => l
  | va, v :: t, l => patchAll pl rel (va + 1) t (l.map (Held.patch pl rel va v))

/-- An item is the entry of the block. -/
def Held.isBlock (b : Nat) : Held → Bool
  | .bytes x => decide (x.blk = b)
  | _ => false

/-- Merge the bytes `x` of a later store into an item; the store that was dispatched first keeps the entry's word address (R43, R113). -/
def Held.merge (x : HeldBlk) : Held → Held
  | .bytes b =>
    .bytes { b with
      uid := if x.uid < b.uid then x.uid else b.uid
      pc := if x.uid < b.uid then x.pc else b.pc
      src := if x.uid < b.uid then x.src else b.src
      kinds := b.kinds ++ x.kinds.filter fun k => !b.kinds.contains k
      rel := x.data.foldl (fun m e => sset none m e.1 (sget none x.rel e.1)) b.rel
      data := x.data.foldl (fun m e => sset none m e.1 e.2) b.data }
  | h => h

/-- Bytes of one store that lie in one block. -/
def HeldBlk.ofStore (uid : Nat) (pc : BitVec 53) (src : BitVec 4) (kind : Path × BitVec 4) (rel : Option (BitVec 3)) (va : Nat) (bs : List Byte) : HeldBlk :=
  { blk := va / 256, uid := uid, pc := pc, src := src, kinds := [kind], com := none,
    rel := sputs none [] (va % 256) (bs.map fun _ => rel), data := sputs none [] (va % 256) (bs.map some) }

/-- Hold bytes that lie in one block; they merge into an entry the block already has (R43). -/
def holdIn (pl : Nat → Nat) (l : List Held) (x : HeldBlk) (rel : Option (BitVec 3)) (va : Nat) (bs : List Byte) : List Held :=
  let l := patchAll pl rel va bs l
  if l.any (Held.isBlock x.blk) then l.map fun h => if h.isBlock x.blk then h.merge x else h else l ++ [.bytes x]

/-- Hold bytes that may pass block ends. -/
def holdBytes (pl : Nat → Nat) (uid : Nat) (pc : BitVec 53) (src : BitVec 4) (kind : Path × BitVec 4) (rel : Option (BitVec 3)) :
    Nat → List Held → Nat → List Byte → List Held
  | 0, l, _, _ => l
  | k + 1, l, va, bs =>
    if bs.isEmpty then l
    else
      let n := 256 - va % 256
      holdBytes pl uid pc src kind rel k
        (holdIn pl l (HeldBlk.ofStore uid pc src kind rel va (bs.take n)) rel va (bs.take n)) (va + n) (bs.drop n)

/-! ## Remote operations: their packets (R196, R198, R357) -/

/-- Change the remote operation with issue number `uid`. -/
def State.onRop (s : State) (uid : Nat) (f : ROp → ROp) : State :=
  { s with rops := s.rops.map fun o => if o.uid = uid then f o else o }

/-- A packet of an operation ends: performed, or with a failure (R357, R370). -/
def ROp.ends (i : Nat) (r : Option (BitVec 8)) (o : ROp) : ROp :=
  match r with
  | none => { o with left := o.left - 1, ok := sset false o.ok i true }
  | some c => { o with left := o.left - 1, fail := some (o.fail.getD c), unk := if c = cUnknown then sset false o.unk i true else o.unk }

/-- Bytes of a reply land in a scratchpad; for an absent sharer they wait in the core's reply buffer (R195). -/
def State.land (s : State) (lc a : Nat) (bs : List Byte) : State :=
  if s.presentOn (lc / 288) (lc % 288) then s.spPut lc a bs
  else s.onCore (s.coreOf (lc / 288) (lc % 288)) fun c => { c with replies := c.replies ++ [⟨lc, a, bs⟩] }

/-- The number with the bits of a map set. -/
def maskOf (m : SMap Bool) : Nat := m.foldl (fun n e => n + 2 ^ e.1) 0

/-- Count and scratchpad address of a list operand (R356). -/
def listOperand (v : Word) : Nat × Nat := ((v.extractLsb' 20 7).toNat, (v.extractLsb' 0 20).toNat)

/-- End an operation all of whose packets have ended: masks of rmcast, which are no reply and whose sharer is present (R31), a trap at resumption, or a failure held (R195, R359, R370). -/
def State.finishRop (s : State) (uid : Nat) : State :=
  match s.rops.find? (fun o => decide (o.uid = uid)) with
  | none => s
  | some o =>
    if o.left ≠ 0 ∨ o.held.isSome then s
    else
      let s := { s with rops := s.rops.filter fun x => decide (x.uid ≠ uid) }
      if o.cancel then s
      else
        match o.instr with
        | .rmcast .. =>
          let (n, a) := listOperand (o.vals.getD 1 0)
          s.spPut (lckey o.ref.task o.ref.lcore) (a + 16 * n) (leBytes 8 (maskOf o.ok) ++ leBytes 8 (maskOf o.unk))
        | _ =>
          match o.fail with
          | none => s
          | some c =>
            if o.parked then (if s.alive o.ref o.sid then s.trapOn o.ref.key { cause := c, va := o.va } 7 o.pc else s)
            else s.addRfail o.ref o.sid ⟨uid, c, 7, o.va⟩

/-- The F-die of the port that a packet went out on; one for this chip passes F-die 0 (R10, R357; log 100, DESIGN CHOICE). -/
def portDie (port : Nat) : Nat := if port < 32 then port / 16 else 0

/-- A core has injected a packet: the pointer of the F-die moves past the core (R213). -/
def State.injected (s : State) (core : Nat) : State :=
  match s.unacked.getLast? with
  | some u => { s with injPtr := sset 287 s.injPtr (portDie u.port) core }
  | none => s

/-- Who sends a packet: the core that injects it, and the step task that pays (R213, R221). -/
structure Sender where
  core : Nat
  inst : Option Nat
  deriving DecidableEq, Repr

/-- The sender of what a strand has issued. -/
def State.senderOf (s : State) (r : Ref) : Sender := ⟨s.coreOf r.task r.lcore, (s.payerOf r.task).inst⟩

/-- Send one packet of an operation; with no destination or path it ends with REMOTE_FAULT (R185, R357). -/
def State.sendPiece (by_ : Sender) (uid : Nat) (s : State) (p : RPiece) : State :=
  match s.locOf p.p.dstvr.toNat with
  | none => s.onRop uid (ROp.ends p.idx (some cRemoteFault))
  | some ep => match s.request by_.inst uid p.spad p.idx { p.p with dstEp := BitVec.ofNat 12 ep } with
    | some s => s.injected by_.core
    | none => s.onRop uid (ROp.ends p.idx (some cRemoteFault))

/-- The pair has room for another unacknowledged packet, and no budget holds its flits (R196, R219). -/
def State.pairRoom (s : State) (p : RPiece) : Bool :=
  decide (s.outstanding p.p.srcvr.toNat p.p.dstvr.toNat < 4096) && !s.budgetHeld p.p.srcvr.toNat 1

/-- Send packets of an operation while their pairs have room; those left (R196). -/
def State.sendPieces (by_ : Sender) (uid : Nat) : List RPiece → State → State × List RPiece
  | [], s => (s, [])
  | p :: t, s => if s.pairRoom p then State.sendPieces by_ uid t (s.sendPiece by_ uid p) else (s, p :: t)

/-! ## Writing what is held -/

/-- Write every run of a block. -/
def State.writeRunsOf (a : Acc) (base : Nat) : List (Nat × List Byte) → State → State × XR Unit
  | [], s => (s, .ok ())
  | (k, bs) :: t, s =>
    match s.gvWrite a (base + k) bs with
    | (s, .ok ()) => State.writeRunsOf a base t s
    | (s, .refused x) => (s, .refused x)
    | (s, .wait) => (s, .wait)

/-- The access of a store of a strand of logical core `lc` (R112). -/
def State.storeAcc (s : State) (lc uid : Nat) (src : BitVec 4) : Acc :=
  { core := some (s.coreOf (lc / 288) (lc % 288)), who := .store uid, vr := (s.taskAt (lc / 288)).vr, need := rW,
    source := src, lcore := lc % 288, join := true, inst := (s.payerOf (lc / 288)).inst }

/-- Write the lines of a held write-back, ascending; the lines left when one is refused or waits (R96). -/
def State.writeLines (a : Acc) (r : Region) : List (Nat × List Byte) → State → State × List (Nat × List Byte) × XR Unit
  | [], s => (s, [], .ok ())
  | (i, bs) :: t, s =>
    match s.gvWrite a (r.va.toNat + 64 * i) bs with
    | (s, .ok ()) => State.writeLines a r t s
    | (s, .refused x) => (s, (i, bs) :: t, .refused x)
    | (s, .wait) => (s, (i, bs) :: t, .wait)

/-- A word that releases (R134). -/
def releasesWord : Instr → Bool
  | .rst _ _ _ _ _ m | .rsth _ _ _ _ _ _ m | .ratom _ _ _ _ _ _ m | .rcas _ _ _ _ _ m | .rmcast _ _ _ m | .rred _ _ _ _ _ m =>
    decide (m.sem = .rel ∨ m.sem = .ar)
  | _ => false

/-- The operation has been sent, or will be: it is not held in an open region (R360, R365). -/
def ROp.sent (o : ROp) : Bool := !o.cancel && (o.held.isNone || o.com)

/-- Bytes that a request touches from its VA. -/
def reqLen (p : Packet) : Nat :=
  match p.op.toNat with
  | 1 => ofLeBytes (p.data.take 2) % 512
  | 3 => p.data.length - 8
  | 4 | 5 => fmtBits p.fmt / 8
  | 6 => 1
  | 0x28 | 0x2A => 65536
  | _ => p.data.length

/-- An earlier word of the strand in another ordering class awaits an answer about a location that a packet names; at a destination two pages may be one, so offsets on a page are compared (R119, R123, R130; log 124, DEDUCED). -/
def State.locWaits (s : State) (sid uid : Nat) (ps : List RPiece) : Bool :=
  s.unacked.any fun u => (s.rops.any fun o => decide (o.uid = u.uid ∧ o.sid = sid ∧ o.uid < uid)) &&
    ps.any fun p => decide (p.p.dstvr = u.p.dstvr ∧ p.p.cls ≠ u.p.cls) &&
      shareLoc (fun _ => 0) u.p.va.toNat (reqLen u.p) p.p.va.toNat (reqLen p.p)

/-- A release on path f waits for the strand's earlier operations that have been sent (R127, R132). -/
def State.relWaits (s : State) (sid uid : Nat) (i : Instr) : Bool :=
  releasesWord i && s.rops.any fun o => decide (o.sid = sid ∧ o.uid < uid) && o.sent

/-! ## What waits for what (R112, R123 to R125) -/

/-- The paths and classes of an item's accesses; a remote operation is known by its path alone. -/
def Held.kinds : Held → List (Path × BitVec 4)
  | .bytes b => b.kinds
  | .wback _ _ _ _ _ _ cls .. => [(.t, cls)]
  | _ => []

/-- The item is a remote operation, which has a path of its own (R121). -/
def Held.isRemote : Held → Bool
  | .remote .. => true
  | _ => false

/-- The item holds an access of path `p` and a class in the mask. -/
def Held.onPath (p : Path) (mask : BitVec 16) (h : Held) : Bool :=
  (h.isRemote && decide (p = .f)) || h.kinds.any fun k => decide (k.1 = p) && mask.getLsbD k.2.toNat

/-- The item is a fence that keeps accesses of the path and class behind it (R124). -/
def Held.fences (q : Path) (cls : BitVec 4) : Held → Bool
  | .fence _ _ q' mask => decide (q' = q) && mask.getLsbD cls.toNat
  | _ => false

/-- Every ordering class. -/
def allClasses : BitVec 16 := 0xFFFF

/-- The commit that released the item (R42). -/
def Held.com : Held → Option Nat
  | .bytes b => b.com
  | .wback _ _ _ _ _ _ _ _ com => com
  | _ => none

/-- The item is a release (R127). -/
def Held.isRel : Held → Bool
  | .bytes b => !b.rel.isEmpty
  | _ => false

/-- The item holds a location of the range (R119). -/
def Held.overlaps (pl : Nat → Nat) (va n : Nat) : Held → Bool
  | .bytes b => (runsOf b.data).any fun r => shareLoc pl (b.blk * 256 + r.1) r.2.length va n
  | .wback _ _ _ old ls .. => ls.any fun e => shareLoc pl (lineVa old e.1) e.2.length va n
  | _ => false

/-- An access of path `p` and class `cls` must wait behind a waiting item: one of its path and class, of a location of its range, or a fence (R112, R123, R124). -/
def Held.bars (pl : Nat → Nat) (p : Path) (cls : BitVec 4) (va n : Nat) (w : Held) : Bool :=
  w.kinds.contains (p, cls) || w.overlaps pl va n || w.fences p cls

/-- Two items hold a location in common. -/
def Held.meets (pl : Nat → Nat) (w : Held) : Held → Bool
  | .bytes b => (runsOf b.data).any fun r => w.overlaps pl (b.blk * 256 + r.1) r.2.length
  | .wback _ _ _ old ls .. => ls.any fun e => w.overlaps pl (lineVa old e.1) e.2.length
  | _ => false

/-- An item must wait behind earlier waiting ones: what one commit released keeps its order; a release waits for every one of its path; a fence waits for what it orders (R42, R112, R123 to R125, R127). (log 20, DEDUCED) -/
def Held.behind (pl : Nat → Nat) (waiting : List Held) (h : Held) : Bool :=
  match h with
  | .remote .. => waiting.any fun w => w.isRemote || w.fences .f 0
  | .fence _ p _ mask => waiting.any fun w => w.onPath p mask
  | h => waiting.any fun w => (h.com.isSome && decide (w.com = h.com)) || (h.isRel && w.onPath .s allClasses) ||
      (h.kinds.any fun k => w.kinds.contains k || w.fences k.1 k.2) || w.meets pl h

/-- As the commit with number `n` releases it. -/
def Held.committed (n : Nat) : Held → Held
  | .bytes b => .bytes { b with com := some n }
  | .wback u i bs old ls pc cls ev _ => .wback u i bs old ls pc cls ev (some n)
  | h => h

/-! ## Performing held stores -/

/-- The issuing side of an item: a strand by its number, slot and logical core (R121). -/
structure Owner where
  sid  : Nat
  slot : Nat
  lc   : Nat
  deriving DecidableEq, Repr

/-- The owner as scopes see it (R126). -/
def State.partyOf (s : State) (o : Owner) : Party := ⟨o.sid, (s.taskAt (o.lc / 288)).inst, o.lc⟩

/-- Where the pages of a logical core's VR lie (R119). -/
def State.places (s : State) (lc : Nat) : Nat → Nat := s.pageAt (s.taskAt (lc / 288)).vr

/-- Remember the release writes of a block's bytes (R127). -/
def State.noteRel (s : State) (a : Acc) (o : Owner) (b : HeldBlk) : State :=
  if b.rel.isEmpty then s
  else
    match s.xlate a (b.blk * 256) with
    | (s, .ok pa) =>
      { s with rels := b.rel.foldl (fun m e => sset [] m (pa + e.1) (e.2.toList.map fun sc => ⟨some (s.partyOf o), a.vr, sc⟩)) s.rels }
    | (s, _) => s

/-- Hold an engine error for a logical core, which any of its strands raises (R48, R96). -/
def State.lcErr (s : State) (lc : Nat) (f : Failure) : State := s.onLcore lc fun l => { l with errs := l.errs ++ [f] }

/-- An earlier operation of path f that a fence waits for is unanswered (R124, R365). -/
def State.fenceWaits (s : State) (sid uid : Nat) (p : Path) : Bool :=
  decide (p = .f) && s.rops.any fun o => decide (o.sid = sid ∧ o.uid < uid) && o.sent

/-- Who an item is on the fault path (R112). -/
def Held.who : Held → Option Who
  | .bytes b => some (.store b.uid)
  | .wback uid .. => some (.store uid)
  | _ => none

/-- An item has ended: what the fault path remembers of its record goes with the record's last item (R351). -/
def State.heldEnds (s : State) (h : Held) (rest : List Held) : State :=
  match h.who with
  | some w => if rest.any fun x => decide (x.who = some w) then s else s.settle w
  | none => s

/-- Perform one held item: what is still to wait, and the failure of its strand if it is refused (R96, R112, R113). -/
def State.perform (s : State) (o : Owner) (h : Held) : State × Option Held × Option Failure :=
  match h with
  | .fence uid p _ _ => if s.fenceWaits o.sid uid p then (s, some h, none) else (s, none, none)
  | .remote uid _ =>
    match s.rops.find? (fun x => decide (x.uid = uid)) with
    | some x =>
      if s.relWaits x.sid uid x.instr || s.locWaits x.sid uid (x.held.getD []) then (s, some h, none)
      else
      match State.sendPieces (s.senderOf x.ref) uid (x.held.getD []) s with
      | (s, []) => ((s.onRop uid fun x => { x with held := none }).finishRop uid, none, none)
      | (s, left) => (s.onRop uid fun x => { x with held := some left }, some h, none)
    | none => (s, none, none)
  | .bytes b =>
    if s.budgetHeld (s.taskAt (o.lc / 288)).vr 0 then (s, some h, none)
    else
    let a := s.storeAcc o.lc b.uid b.src
    match State.writeRunsOf a (b.blk * 256) (runsOf b.data) s with
    | (s, .ok ()) => (s.noteRel a o b, none, none)
    | (s, .refused _) => (s, none, some ⟨b.uid, cEngine, b.src, pcWord b.pc⟩)
    | (s, .wait) => (s, some h, none)
  | .wback uid idx bs old lines pc cls ev com =>
    if s.budgetHeld (s.taskAt (o.lc / 288)).vr 0 then (s, some h, none)
    else
    match State.writeLines (s.storeAcc o.lc uid 6) old lines s with
    | (s, _, .ok ()) => (s, none, none)
    | (s, left, .refused _) =>
      ((s.onLcore o.lc fun l => l.redirty idx old (left.map (·.1)) ev).lcErr o.lc ⟨uid, cEngine, 6, pcWord pc⟩, none, none)
    | (s, left, .wait) => (s, some (.wback uid idx bs old left pc cls ev com), none)

/-- Perform items in order; those that wait, and those that must wait behind them, are kept (R112). (log 19, DEDUCED) -/
def State.performAll (o : Owner) (fail : Failure → State → State) : List Held → List Held → State → State × List Held
  | [], kept, s => (s, kept)
  | h :: t, kept, s =>
    if h.behind (s.places o.lc) kept then State.performAll o fail t (kept ++ [h]) s
    else
      match s.perform o h with
      | (s, some h', _) => State.performAll o fail t (kept ++ [h']) s
      | (s, none, some f) => State.performAll o fail t kept (fail f (s.heldEnds h (kept ++ t)))
      | (s, none, none) => State.performAll o fail t kept (s.heldEnds h (kept ++ t))

/-- The owner of what strand `k` holds. -/
def State.ownerOf (s : State) (k : Nat) : Owner := ⟨(s.strandAt k).sid, k % 4, k / 4⟩

/-- Give items to a strand's scalar path: perform what can be performed, keep the rest (R42, R112). -/
def State.release (s : State) (k : Nat) (items : List Held) : State :=
  let fail : Failure → State → State := fun f s => s.onStrand k fun t => { t with errs := t.errs ++ [f] }
  let (s, kept) := State.performAll (s.ownerOf k) fail ((s.strandAt k).pending ++ items) [] (s.onStrand k fun t => { t with pending := [] })
  s.onStrand k fun t => { t with pending := kept }

/-- The remote operations of a buffer are released (R42, R360). -/
def State.freeRops (s : State) (l : List Held) : State :=
  let us := l.filterMap fun h => match h with | .remote u _ => some u | _ => none
  { s with rops := s.rops.map fun o => if us.contains o.uid then { o with com := true } else o }

/-- Commit the open region of a strand: its held stores are released in buffer order (R42). -/
def State.commit (s : State) (k : Nat) : State :=
  let items := (s.strandAt k).rsb
  if (s.strandAt k).region then
    let n := s.uid
    State.release ((s.onStrand k fun t => { t with rsb := [], region := false }).freeRops items).tickUid k (items.map (Held.committed n))
  else s

/-- Try again what the tracker of a logical core holds of one tailed strand (R48). -/
def State.pumpTailed (lc : Nat) (s : State) (o : Nat × Nat) : State :=
  let mine := (s.lcoreAt lc).pending.filter fun e => decide ((e.1, e.2.1) = o)
  let (s, kept) := State.performAll ⟨o.1, o.2, lc⟩ (fun f s => s.lcErr lc f) (mine.map (·.2.2)) [] s
  s.onLcore lc fun l => { l with pending := (l.pending.filter fun e => decide ((e.1, e.2.1) ≠ o)) ++ kept.map fun h => (o.1, o.2, h) }

/-- Try again what the strands and the trackers hold, after a fault has been resolved (R112). -/
def State.pump (s : State) : State :=
  let s := (s.strands.map (·.1)).foldl (fun s k => if (s.strandAt k).pending.isEmpty then s else s.release k []) s
  (s.lcores.map (·.1)).foldl (fun s lc => (((s.lcoreAt lc).pending.map fun e => (e.1, e.2.1)).eraseDups).foldl (State.pumpTailed lc) s) s

/-- What waits of a strand's accesses, whether it stands in its slot or has ended by tail (R48). -/
def State.waitingOf (s : State) (k sid : Nat) : List Held :=
  if (s.strandAt k).sid = sid then (s.strandAt k).pending
  else ((s.lcoreAt (k / 4)).pending.filter fun e => decide (e.1 = sid)).map (·.2.2)

/-- A fence of a strand orders what its buffer or its scalar path holds before what comes after it, once a region has committed (R124, R125). -/
def State.raiseFence (s : State) (k uid : Nat) (p q : Path) (mask : BitVec 16) : State :=
  let put (l : List Held) : List Held := if l.any (Held.onPath p mask) then l ++ [.fence uid p q mask] else l
  s.onStrand k fun t => { t with pending := put t.pending, rsb := put t.rsb }

end Sys2Proof.Machine
end

