-- ==== Sys2Proof/Machine/Numbers.lean ====
section
/-! DEFINITION. Machine/Numbers.lean: exact values of floating-point and integer encodings (R63 to R65), rounding onto a format's grid (R70, R73, R75), integer conversion (R76), and the exact arithmetic of the engines. -/

namespace Sys2Proof.Machine

/-- A value: NaN (signalling or not), an infinity, or ±m·2^e; `st` says that a finite value lies strictly above m·2^e in magnitude, by less than 2^e. -/
inductive FVal
  | nan (sig : Bool)
  | inf (neg : Bool)
  | fin (neg : Bool) (m : Nat) (e : Int) (st : Bool)
  deriving DecidableEq, Repr

/-- An exact finite value. -/
def FVal.exact (neg : Bool) (m : Nat) (e : Int) : FVal := .fin neg m e false

/-- Zero of a sign. -/
def FVal.zero (neg : Bool) : FVal := .fin neg 0 0 false

/-- An integer as a value; zero is +0. -/
def FVal.ofInt (i : Int) : FVal := .fin (decide (i < 0)) i.natAbs 0 false

def FVal.isNan : FVal → Bool | .nan _ => true | _ => false
def FVal.isSig : FVal → Bool | .nan true => true | _ => false
def FVal.isInf : FVal → Bool | .inf _ => true | _ => false
def FVal.isZero : FVal → Bool | .fin _ m _ st => m == 0 && !st | _ => false

/-- The sign of a value; a NaN has none. -/
def FVal.neg : FVal → Bool | .nan _ => false | .inf n => n | .fin n _ _ _ => n

/-- The value with the opposite sign. -/
def FVal.negate : FVal → FVal | .nan s => .nan s | .inf n => .inf !n | .fin n m e t => .fin (!n) m e t

/-- The magnitude. -/
def FVal.abs : FVal → FVal | .nan s => .nan s | .inf _ => .inf false | .fin _ m e t => .fin false m e t

/-! ## Decoding and encoding (R63, R64, R65) -/

/-- Decode the fields of a floating-point format (R64). -/
def decodeFloat (p : FParam) (b : Nat) : FVal :=
  let s := decide (b / 2 ^ (p.e + p.f) % 2 = 1)
  let E := b / 2 ^ p.f % 2 ^ p.e
  let F := b % 2 ^ p.f
  let top := 2 ^ p.e - 1
  if p.special = .ieee ∧ E = top then (if F = 0 then .inf s else .nan (decide (F / 2 ^ (p.f - 1) = 0)))
  else if p.special = .nanOnly ∧ E = top ∧ F = 2 ^ p.f - 1 then .nan false
  else if E = 0 then .exact s F (1 - (p.bias : Int) - p.f)
  else .exact s (2 ^ p.f + F) ((E : Int) - p.bias - p.f)

/-- A two's complement number of `n` bits. -/
def signedOf (n b : Nat) : Int := if b / 2 ^ (n - 1) % 2 = 1 then (b % 2 ^ n : Int) - 2 ^ n else (b % 2 ^ n : Int)

/-- The integer of an integer format's bits (R63). -/
def intOf (c : Fmt) (b : Nat) : Int := if isSigned c then signedOf (fmtBits c) b else (b % 2 ^ fmtBits c : Int)

/-- The value that the bits of an element encode (R63, R64). -/
def decodeVal (c : Fmt) (b : Nat) : FVal :=
  match fparam c with
  | some p => decodeFloat p b
  | none => .ofInt (intOf c b)

/-- The canonical NaN of a format; zero where the format has none (R64, R65). -/
def nanBits (c : Fmt) : Nat :=
  match fparam c with
  | some p =>
    match p.special with
    | .ieee => (2 ^ p.e - 1) * 2 ^ p.f + 2 ^ (p.f - 1)
    | .nanOnly => 2 ^ (p.e + p.f) - 1
    | .none => 0
  | none => 0

/-- The sign bit of a floating-point format in place. -/
def signBit (c : Fmt) (neg : Bool) : Nat :=
  match fparam c with
  | some p => if neg then 2 ^ (p.e + p.f) else 0
  | none => 0

/-- The largest finite mantissa, at exponent `maxExp`, of a format. -/
def maxMant (p : FParam) : Nat := if p.special = .nanOnly then 2 ^ (p.f + 1) - 2 else 2 ^ (p.f + 1) - 1

/-- The exponent of the unit in the last place of the largest finite value. -/
def maxExp (p : FParam) : Int := (2 ^ p.e - (if p.special = .ieee then 2 else 1) : Int) - p.bias - p.f

/-- The bits of the largest finite value, without sign (R64). -/
def maxBits (p : FParam) : Nat :=
  (2 ^ p.e - (if p.special = .ieee then 2 else 1)) * 2 ^ p.f + (maxMant p - 2 ^ p.f)

/-- The bits of infinity, without sign. -/
def infBits (p : FParam) : Nat := (2 ^ p.e - 1) * 2 ^ p.f

/-- The bits of q·2^qe, without sign, where q fits the format's precision and qe is its quantum (R64). -/
def encodeMag (p : FParam) (q : Nat) (qe : Int) : Nat :=
  let (q, qe) := if q = 2 ^ (p.f + 1) then (2 ^ p.f, qe + 1) else (q, qe)
  if q < 2 ^ p.f then q else (qe + p.f + p.bias).toNat * 2 ^ p.f + (q - 2 ^ p.f)

/-! ## Rounding (R70, R73) -/

/-- Round m / 2^k, plus less than one unit when `st`, to an integer; `y0` drives the stochastic mode (R73). Answers the integer and whether it is inexact. -/
def roundAt (rm : RMode) (neg : Bool) (y0 m k : Nat) (st : Bool) : Nat × Bool :=
  let q := m / 2 ^ k
  let r := m % 2 ^ k
  let inexact := st || decide (r ≠ 0)
  let up :=
    match rm with
    | .rne => decide (2 ^ k < 2 * r) || (decide (2 * r = 2 ^ k ∧ k ≠ 0) && (st || decide (q % 2 = 1)))
    | .rtz => false
    | .rdn => neg && inexact
    | .rup => !neg && inexact
    | .sr => decide (y0 * 2 ^ k < r * 2 ^ 32) || (st && decide (y0 * 2 ^ k = r * 2 ^ 32))
  (if up then q + 1 else q, inexact)

/-- Round m·2^e to a multiple of 2^qe. -/
def roundQ (rm : RMode) (neg : Bool) (y0 m : Nat) (e qe : Int) (st : Bool) : Nat × Bool :=
  if qe ≤ e then (m * 2 ^ (e - qe).toNat, st) else roundAt rm neg y0 m (qe - e).toNat st

/-- How a result that overflows is delivered (R75): as IEEE gives, or by the overflow bit. -/
inductive Ovf
  | ieee | bit (inf : Bool)
  deriving DecidableEq, Repr

/-- What an overflow delivers, with its flags (R75). -/
def overflow (c : Fmt) (p : FParam) (o : Ovf) (rm : RMode) (neg : Bool) : Nat × Flags :=
  let big := signBit c neg + maxBits p
  let inf := signBit c neg + infBits p
  match o with
  | .ieee =>
    let toInf := match rm with
      | .rne | .sr => true
      | .rtz => false
      | .rdn => neg
      | .rup => !neg
    (if toInf then inf else big, fOF ||| fNX)
  | .bit false => (big, fOF ||| fNX ||| fSAT)
  | .bit true =>
    match p.special with
    | .ieee => (inf, fOF ||| fNX)
    | .nanOnly => (nanBits c, fOF ||| fNX ||| fNV)
    | .none => (big, fOF ||| fNX ||| fSAT)

/-- The position of the highest one of a positive number. -/
def topBit (m : Nat) : Nat := m.log2

/-- a·2^ea exceeds b·2^eb. -/
def above (a : Nat) (ea : Int) (b : Nat) (eb : Int) : Bool :=
  if ea ≤ eb then decide (b * 2 ^ (eb - ea).toNat < a) else decide (b < a * 2 ^ (ea - eb).toNat)

/-- Round a finite nonzero value onto a format's grid, subnormals included: bits and flags (R70, R75). -/
def roundFin (c : Fmt) (p : FParam) (o : Ovf) (rm : RMode) (y0 : Nat) (neg : Bool) (m : Nat) (e : Int) (st : Bool) :
    Nat × Flags :=
  let E := e + topBit m
  let emin := 1 - (p.bias : Int)
  let qe := (if E < emin then emin else E) - p.f
  let (q, inexact) := roundQ rm neg y0 m e qe st
  if above q qe (maxMant p) (maxExp p) then overflow c p o rm neg
  else
    let (q', _) := roundQ rm neg y0 m e (E - p.f) st
    let tiny := decide (E < emin) && !decide (E = emin - 1 ∧ q' = 2 ^ (p.f + 1))
    (signBit c neg + encodeMag p q qe, flagIf inexact fNX ||| flagIf (tiny && inexact) fUF)

/-- Deliver an arithmetic result in a floating-point format (R64, R65, R75): an infinite result stays infinite. -/
def deliver (c : Fmt) (o : Ovf) (rm : RMode) (y0 : Nat) : FVal → Nat × Flags
  | .nan _ => (nanBits c, 0)
  | .inf n => (match fparam c with | some p => signBit c n + infBits p | none => 0, 0)
  | .fin n m e st =>
    match fparam c with
    | none => (0, 0)
    | some p => if m = 0 ∧ st = false then (signBit c n, 0) else roundFin c p o rm y0 n m e st

/-- Convert a value to a floating-point format: NaNs and infinities by R65 and R75; a format that holds no infinity also raises NV. (log 34, DEDUCED) -/
def convFloat (c : Fmt) (o : Ovf) (rm : RMode) (y0 : Nat) (x : FVal) : Nat × Flags :=
  match fparam c, x with
  | none, _ => (0, 0)
  | some p, .nan s => (nanBits c, flagIf (s || decide (p.special = .none)) fNV)
  | some p, .inf n =>
    match o with
    | .ieee => (signBit c n + infBits p, 0)
    | .bit b =>
      if p.special = .ieee ∧ b = true then (signBit c n + infBits p, 0)
      else if p.special = .nanOnly ∧ b = true then (nanBits c, fNV)
      else (signBit c n + maxBits p, fSAT ||| flagIf (decide (p.special ≠ .ieee)) fNV)
  | some _, .fin .. => deliver c o rm y0 x

/-- The overflow policy of a format under an engine's overflow bit: f16, f32 and f64 follow IEEE (R75). -/
def ovfOf (c : Fmt) (bit : Bool) : Ovf := if c = fF16 ∨ c = fF32 ∨ c = fF64 then .ieee else .bit bit

/-! ## Integers -/

/-- The least and greatest values of an integer format (R63). -/
def intRange (c : Fmt) : Int × Int :=
  if isSigned c then (-(2 ^ (fmtBits c - 1)), 2 ^ (fmtBits c - 1) - 1) else (0, 2 ^ fmtBits c - 1)

/-- The bits of an integer, wrapped to the format's width. -/
def intBits (c : Fmt) (i : Int) : Nat := (i % 2 ^ fmtBits c).toNat

/-- Round a value to an integer, with whether it is inexact. -/
def roundInt (rm : RMode) (y0 : Nat) (neg : Bool) (m : Nat) (e : Int) (st : Bool) : Int × Bool :=
  let (q, inexact) := roundQ rm neg y0 m e 0 st
  (if neg then -(q : Int) else q, inexact)

/-- Clamp an integer to a range, with whether it clamped. -/
def clampInt (r : Int × Int) (i : Int) : Int × Bool :=
  if i < r.1 then (r.1, true) else if r.2 < i then (r.2, true) else (i, false)

/-- Convert a value to an integer format (R76); an infinity raises NV beside SAT, as no integer format holds it (R75; log 34, DEDUCED). -/
def convInt (c : Fmt) (rm : RMode) (y0 : Nat) (x : FVal) : Nat × Flags :=
  match x with
  | .nan _ => (0, fNV)
  | .inf n => (intBits c (if n then (intRange c).1 else (intRange c).2), fNV ||| fSAT)
  | .fin n m e st =>
    let (i, inexact) := roundInt rm y0 n m e st
    let (j, cl) := clampInt (intRange c) i
    (intBits c j, flagIf cl fSAT ||| flagIf (inexact || cl) fNX)

/-! ## Exact arithmetic -/

/-- ±m·2^e as a signed mantissa. -/
def signedMant (neg : Bool) (m : Nat) : Int := if neg then -(m : Int) else m

/-- NV for a signalling operand (R65). -/
def sigFlag (l : List FVal) : Flags := flagIf (l.any FVal.isSig) fNV

/-- The exact sum of two finite values; a zero sum is +0, or −0 when both are −0 or in round-down of opposite zeros (IEEE 754-2019 6.3; log 5, PRESUMED). -/
def addFin (rdn : Bool) (n1 : Bool) (m1 : Nat) (e1 : Int) (n2 : Bool) (m2 : Nat) (e2 : Int) : FVal :=
  let e := if e1 ≤ e2 then e1 else e2
  let v := signedMant n1 (m1 * 2 ^ (e1 - e).toNat) + signedMant n2 (m2 * 2 ^ (e2 - e).toNat)
  if v = 0 then .zero (if n1 = n2 ∧ m1 = 0 ∧ m2 = 0 then n1 else rdn) else .exact (decide (v < 0)) v.natAbs e

/-- x + y exactly, with NV (R75). -/
def vAdd (rdn : Bool) (x y : FVal) : FVal × Flags :=
  match x, y with
  | .fin n1 m1 e1 _, .fin n2 m2 e2 _ => (addFin rdn n1 m1 e1 n2 m2 e2, 0)
  | .inf a, .inf b => if a = b then (.inf a, 0) else (.nan false, fNV)
  | .inf a, .fin .. => (.inf a, 0)
  | .fin .., .inf b => (.inf b, 0)
  | x, y => (.nan false, sigFlag [x, y])

/-- x × y exactly, with NV (R75). -/
def vMul (x y : FVal) : FVal × Flags :=
  match x, y with
  | .fin n1 m1 e1 _, .fin n2 m2 e2 _ => (.exact (n1 != n2) (m1 * m2) (e1 + e2), 0)
  | .inf a, .inf b => (.inf (a != b), 0)
  | .inf a, .fin n m _ _ => if m = 0 then (.nan false, fNV) else (.inf (a != n), 0)
  | .fin n m _ _, .inf b => if m = 0 then (.nan false, fNV) else (.inf (n != b), 0)
  | x, y => (.nan false, sigFlag [x, y])

/-- x × y + z exactly, one rounding left to do (R264, R302). (log 37, DEDUCED) -/
def vFma (rdn : Bool) (x y z : FVal) : FVal × Flags :=
  let (p, f1) := vMul x y
  let (r, f2) := vAdd rdn p z
  (r, f1 ||| f2 ||| sigFlag [x, y, z])

/-- x / y to far more bits than any format holds, the rest in the sticky mark; DZ and NV by R75, R78. -/
def vDiv (x y : FVal) : FVal × Flags :=
  match x, y with
  | .fin n1 m1 e1 _, .fin n2 m2 e2 _ =>
    if m2 = 0 then (if m1 = 0 then (.nan false, fNV) else (.inf (n1 != n2), fDZ))
    else if m1 = 0 then (.zero (n1 != n2), 0)
    else (.fin (n1 != n2) (m1 * 2 ^ 256 / m2) (e1 - e2 - 256) (decide (m1 * 2 ^ 256 % m2 ≠ 0)), 0)
  | .inf _, .inf _ => (.nan false, fNV)
  | .inf a, .fin n _ _ _ => (.inf (a != n), 0)
  | .fin n _ _ _, .inf b => (.zero (n != b), 0)
  | x, y => (.nan false, sigFlag [x, y])

/-- The integer square root, one binary digit at a time from bit `k`. -/
def isqrtFrom (n : Nat) : Nat → Nat → Nat
  | 0, r => r
  | k + 1, r => let r' := r + 2 ^ k; if r' * r' ≤ n then isqrtFrom n k r' else isqrtFrom n k r

/-- The integer square root of `n`. -/
def isqrt (n : Nat) : Nat := isqrtFrom n (topBit n / 2 + 1) 0

/-- The square root of a value with a positive or zero operand, the rest in the sticky mark (R77). -/
def vSqrt (x : FVal) : FVal × Flags :=
  match x with
  | .nan s => (.nan false, flagIf s fNV)
  | .inf false => (.inf false, 0)
  | .inf true => (.nan false, fNV)
  | .fin n m e _ =>
    if m = 0 then (.zero n, 0)
    else if n then (.nan false, fNV)
    else
      let (m, e) := if e % 2 = 0 then (m, e) else (2 * m, e - 1)
      let big := m * 2 ^ 512
      let r := isqrt big
      (.fin false r (e / 2 - 256) (decide (r * r ≠ big)), 0)

/-- The order of two values; none when either is a NaN. Zeros of both signs are equal. -/
def vCmp (x y : FVal) : Option Ordering :=
  match x, y with
  | .nan _, _ => none
  | _, .nan _ => none
  | .inf a, .inf b => some (if a = b then .eq else if a then .lt else .gt)
  | .inf a, .fin .. => some (if a then .lt else .gt)
  | .fin .., .inf b => some (if b then .gt else .lt)
  | .fin n1 m1 e1 _, .fin n2 m2 e2 _ =>
    let e := if e1 ≤ e2 then e1 else e2
    some (compare (signedMant n1 (m1 * 2 ^ (e1 - e).toNat)) (signedMant n2 (m2 * 2 ^ (e2 - e).toNat)))

/-- The rounding mode of a code (R70). -/
def rmodeOf (c : Nat) : RMode :=
  match c with
  | 0 => .rne | 1 => .rtz | 2 => .rdn | 3 => .rup | _ => .sr

end Sys2Proof.Machine
end

