-- ==== Sys2Proof/Machine/ScalarFloat.lean ====
section
/-! DEFINITION. Machine/ScalarFloat.lean: scalar floating point of class 0 (R264, R265), rounded in sys.smode, no flag kept (R72). -/

namespace Sys2Proof.Machine

/-- The value in the low bits of a register (R264). -/
def State.fval (s : State) (f : SFmt) (r : Reg) : FVal := decodeVal (sfmtCode f) ((s.me.reg r).toNat % 2 ^ fmtBits (sfmtCode f))

/-- The scalar rounding mode (R71, R72). -/
def State.smode (s : State) : RMode := rmodeOf s.me.smode.toNat

/-- Round down: the mode in which a zero sum of opposite zeros is negative. -/
def State.smodeDown (s : State) : Bool := decide (s.smode = .rdn)

/-- A rounded result, zero-extended (R264). -/
def State.fround (s : State) (f : SFmt) (v : FVal) : Word :=
  BitVec.ofNat 64 (deliver (sfmtCode f) .ieee s.smode 0 v).1

/-- fadd (R264). -/
def execFadd (f : SFmt) (d a b : Reg) (s : State) : Res :=
  s.alu d [a, b] (s.fround f (vAdd s.smodeDown (s.fval f a) (s.fval f b)).1)

/-- fmul (R264). -/
def execFmul (f : SFmt) (d a b : Reg) (s : State) : Res :=
  s.alu d [a, b] (s.fround f (vMul (s.fval f a) (s.fval f b)).1)

/-- ffma: one rounding; d is read (R264). -/
def execFfma (f : SFmt) (d a b : Reg) (s : State) : Res :=
  s.alu d [a, b, d] (s.fround f (vFma s.smodeDown (s.fval f a) (s.fval f b) (s.fval f d)).1)

/-- The relation of fcmp (R264). -/
def frelHolds (k : FRel) (x y : FVal) : Bool :=
  match k with
  | .eq => decide (vCmp x y = some .eq)
  | .lt => decide (vCmp x y = some .lt)
  | .le => decide (vCmp x y = some .lt ∨ vCmp x y = some .eq)
  | .un => decide (vCmp x y = none)

/-- fcmp (R264). -/
def execFcmp (f : SFmt) (k : FRel) (d a b : Reg) (s : State) : Res :=
  s.alu d [a, b] (boolWord (frelHolds k (s.fval f a) (s.fval f b)))

/-- An integer conversion's word (R76, R265). -/
def State.fint (s : State) (c : Fmt) (v : FVal) : Word := BitVec.ofNat 64 (convInt c s.smode 0 v).1

/-- A conversion between float formats: equal formats return the operand, a NaN made canonical (R265). -/
def State.fconv (s : State) (dst src : SFmt) (a : Reg) : Word :=
  if dst = src ∧ !(s.fval src a).isNan then BitVec.ofNat 64 ((s.me.reg a).toNat % 2 ^ fmtBits (sfmtCode src))
  else s.fround dst (s.fval src a)

/-- fcvt (R265). -/
def execFcvt (k : FcvtKind) (d a : Reg) (s : State) : Res :=
  match k with
  | .ff dst src => s.alu d [a] (s.fconv dst src a)
  | .toI64 src => s.alu d [a] (s.fint fI64 (s.fval src a))
  | .toN64 src =>
    -- n64 has no format code: the range 0 to 2^64 - 1 (R76, R265)
    s.alu d [a] (match s.fval src a with
      | .nan _ => 0
      | .inf n => if n then 0 else 0xFFFFFFFFFFFFFFFF
      | .fin n m e st => BitVec.ofInt 64 (clampInt (0, 2 ^ 64 - 1) (roundInt s.smode 0 n m e st).1).1)
  | .ofI64 dst => s.alu d [a] (s.fround dst (.ofInt (s.me.reg a).toInt))
  | .ofN64 dst => s.alu d [a] (s.fround dst (.ofInt (s.me.reg a).toNat))

end Sys2Proof.Machine
end

