-- ==== Sys2Proof/Machine/ScalarMem.lean ====
section
/-! DEFINITION. Machine/ScalarMem.lean: scalar memory access of class 1 (R90, R97 to R99, R112, R113, R127, R268 to R274). -/

namespace Sys2Proof.Machine

/-! ## Values of an access -/

/-- d := ext(v): sext or zext as the width gives (R241). -/
def extVal (w : Width) (v : Nat) : Word :=
  if widthSigned w then BitVec.ofInt 64 (signedOf (8 * widthBytes w) v) else BitVec.ofNat 64 (v % 2 ^ (8 * widthBytes w))

/-- The low `w` bytes of a register (R268). -/
def lowBytes (w : Width) (v : Word) : List Byte := leBytes (widthBytes w) v.toNat

/-- The floating format of an atomic add (R270). -/
def faddFmt (w : Width) : Fmt :=
  match w with
  | .i8 | .n8 | .n16 => fF16
  | .i16 => fBf16
  | .i32 | .n32 => fF32
  | .i64 => fF64

/-- round_rne(old + v) (R270): subnormals kept, the canonical NaN, IEEE overflow. -/
def atomFadd (c : Fmt) (old v : Nat) : Nat :=
  (deliver c .ieee .rne 0 (vAdd false (decodeVal c old) (decodeVal c v)).1).1

/-- The new value of an atomic operation on `n`-bit values (R270). -/
def atomNew (op : Nat) (signed : Bool) (c : Fmt) (n old v : Nat) : Nat :=
  let lt := if signed then decide (signedOf n v < signedOf n old) else decide (v < old)
  match op with
  | 0 => (old + v) % 2 ^ n
  | 1 => old &&& v
  | 2 => old ||| v
  | 3 => old ^^^ v
  | 4 => if lt then v else old
  | 5 => if lt then old else v
  | 6 => v
  | _ => atomFadd c old v

/-! ## Releases and acquires (R126 to R128) -/

/-- A semantics code that acquires. -/
def isAcq (m : Sem) : Bool := decide (m = .acq ∨ m = .ar)

/-- A semantics code that releases. -/
def isRel (m : Sem) : Bool := decide (m = .rel ∨ m = .ar)

/-- Scope `x` of the first party includes the second, strands of this chip (R126). -/
def scopeIncl (x : Nat) (p q : Party) (vp vq : Nat) : Bool :=
  match x with
  | 0 => decide (p.sid = q.sid)
  | 1 => decide (p.inst = q.inst ∧ p.lcore = q.lcore)
  | 2 => decide (p.inst = q.inst ∧ p.lcore / 4 = q.lcore / 4)
  | 3 => decide (p.inst = q.inst)
  | 4 => true
  | 5 => decide (vp = vq)
  | _ => true

/-- A release's scope includes the reader `q` of VR `vq`, or a reader's scope `x` the release's party; a remote party lies in the peer instance only (R127, R134). (log 18, DEDUCED) -/
def relIncl (x : Nat) (r : Rel) (q : Party) (vq : Nat) : Bool :=
  match r.party with
  | some p => scopeIncl x p q r.vr vq
  | none => decide (x = 6)

/-- sys.scopestat after a mismatch (R128). -/
def mismatch (rel acq : BitVec 3) (cls : BitVec 4) : BitVec 16 := rel ++ acq ++ (0 : BitVec 2) ++ cls ++ (1 : BitVec 4)

/-- The issuing strand as scopes see it (R126). -/
def State.myParty (s : State) : Party := ⟨s.me.sid, (s.taskAt s.cur.task).inst, s.myLc⟩

/-- The release writes that a read of these bytes reads from, byte by byte, oldest first (R127). -/
def State.releasesAt (s : State) (keys : List Nat) : List Rel := keys.flatMap fun k => sget [] s.rels k

/-- An acquire read of bytes by the issuing strand: each release that it reads from is judged, and the last scope mismatch is recorded (R127, R128; log 110, DESIGN CHOICE). -/
def State.acquire (s : State) (m : SMem) (keys : List Nat) : State :=
  if isAcq m.sem then
    match ((s.releasesAt keys).filter fun r => !(relIncl r.scope.toNat r s.myParty s.myVrId &&
        relIncl (codeScope m.scope).toNat r s.myParty s.myVrId)).getLast? with
    | none => s
    | some r => s.onMe fun t => { t with scopestat := mismatch r.scope (codeScope m.scope) m.cls }
  else s

/-- The bytes from `key` on. -/
def keysFrom (key n : Nat) : List Nat := (List.range n).map (key + ·)

/-- A release after the ones that a byte already reads from (R127). -/
def addRel (l : List Rel) (r : Rel) : List Rel := l.filter (fun x => decide (x ≠ r)) ++ [r]

/-- A write of the issuing strand to the `n` bytes at `key`: a release is remembered; an RMW keeps the releases it stands behind (R127). -/
def State.relWrite (s : State) (m : SMem) (rmw : Bool) (key n : Nat) (before : SMap (List Rel)) : State :=
  let keep (k : Nat) : List Rel := if rmw then sget [] before k else []
  let r : Rel := { party := some s.myParty, vr := s.myVrId, scope := codeScope m.scope }
  { s with rels := sputs [] s.rels key ((List.range n).map fun i => if isRel m.sem then addRel (keep (key + i)) r else keep (key + i)) }

/-! ## Checks of a scalar access (R90, R97, R254) -/

/-- The array that a strand's ac accesses act on is that of its own logical cluster, bank `b`: its claim includes it (R97, R174). -/
def Claim.covers (c : Claim) (j b : Nat) : Bool :=
  c.mask.getLsbD b && decide (c.base ≤ j ∧ j < c.base + c.rows * c.cols)

/-- The bank of an ac address (R97). -/
def acBank (a : Nat) : Nat := if a < 0x40000 then a / 0x10000 else (a - 0x40000) / 0x8000

/-- An engine's queue and running record. -/
def Core.engine (c : Core) : Engine → EngineQ
  | .v => c.v | .m => c.m | .t => c.t | .f => c.f | .c => c.c

/-- Put back an engine's queue. -/
def Core.setEngine (c : Core) (e : Engine) (q : EngineQ) : Core :=
  match e with
  | .v => { c with v := q } | .m => { c with m := q } | .t => { c with t := q } | .f => { c with f := q } | .c => { c with c := q }

/-- The incomplete entries of an engine, oldest first. -/
def EngineQ.all (q : EngineQ) : List Entry := (q.run.map (·.e)).toList ++ q.q

/-- An mfree of the issuing strand stands in its core's matrix queue: the claim counts as ended (R321). -/
def State.freeing (s : State) : Bool :=
  (s.coreAt s.myCore).m.all.any fun x => decide (x.sid = s.me.sid) && match x.instr with | .mfree _ => true | _ => false

/-- The claim that counts as held by the issuing strand (R321). -/
def State.heldClaim (s : State) : Option Claim := if s.freeing then none else s.me.claim

/-- The strand's claim includes the bank of an ac address. -/
def State.acClaimed (s : State) (a : Nat) : Bool :=
  match s.heldClaim with
  | some c => decide (0x60000 ≤ a) || c.covers (s.cur.lcore / 4) (acBank a)
  | none => false

/-- The space allows the width at the address (R90, R97). -/
def widthOk (x : Space) (a n : Nat) : Bool :=
  match x with
  | .ac => if a < 0x40000 then decide (n = 4) else if a < 0x60000 then decide (n = 2) else decide (n = 2 ∨ n = 4)
  | _ => true

/-- The address range of a space (R90). -/
def State.spaceEnd (s : State) (x : Space) : Nat :=
  match x with
  | .sp => s.myQuota | .gv => 2 ^ 64 | .ws => 0x10000000 | .ac => 0x60000

/-- The checks made when a scalar access executes, in order (R254): width, claim, alignment, bound. (log 33, DEDUCED) -/
def State.accessChk (s : State) (x : Space) (a n : Nat) : Option Trap :=
  (chk (!widthOk x a n) cIllegalField).or <|
  (chk (decide (x = .ac) && !s.acClaimed a) cPriv).or <|
  if a % n ≠ 0 then some { cause := cMisaligned, va := BitVec.ofNat 64 a }
  else if s.spaceEnd x < a + n ∧ x ≠ .gv then some { cause := cSpad, va := BitVec.ofNat 64 a }
  else none

/-! ## The places of an access -/

/-- The answer of a scalar read: a value, a poisoned destination, or a blocked strand. -/
inductive LdAns
  | val (v : Nat) | poison (va : Nat) | block
  deriving DecidableEq, Repr

/-- The C-die of a physical core (R10). -/
def dieOf (core : Nat) : Nat := core / 72

/-- The refresh phase of a C-die (R99). -/
def State.phaseOf (s : State) (die : Nat) : Nat := sget 0 s.wsPhase die

/-- A read of the weight-store bank is held: in refresh, or waking (R99, R100). -/
def State.wsHeld (s : State) (die bank : Nat) : Bool :=
  decide (1024 * bank ≤ s.phaseOf die ∧ s.phaseOf die ≤ 1024 * bank + 127) || sget false s.wsWaking (die * 16 + bank)

/-- The key of an ac word among release writes. -/
def acRelKey (bk a : Nat) : Nat := 2 ^ 61 + bk * 2 ^ 20 + a

/-- The key of the bank that an ac address of the issuing strand names. -/
def State.acKey (s : State) (a : Nat) : Nat := bankKey s.cur.task (s.cur.lcore / 4) (acBank a)

/-- Read an ac word: a cell's value word or a plane as folded so far (R97, R168). -/
def State.acRead (s : State) (a : Nat) : Nat :=
  let b := s.bankAt (s.acKey a)
  if a < 0x40000 then (sget 0 b.cells (a % 0x10000 / 4)).toNat else (sget 0 b.planes ((a - 0x40000) % 0x8000 / 2)).toNat

/-- What a bank keeps of a value word written to a cell: int and anc cells take sext(w[23:0]) (R178). -/
def cellWord (k : BKind) (v : Nat) : BitVec 32 :=
  match k with
  | .int | .anc _ => (BitVec.ofNat 24 v).signExtend 32
  | _ => BitVec.ofNat 32 v

/-- Write an ac word (R97, R178). -/
def State.acWrite (s : State) (a v : Nat) : State :=
  s.onBank (s.acKey a) fun b =>
    if a < 0x40000 then { b with cells := sset 0 b.cells (a % 0x10000 / 4) (cellWord b.kind v) }
    else { b with planes := sset 0 b.planes ((a - 0x40000) % 0x8000 / 2) (BitVec.ofNat 16 v) }

/-- Who pays for what the issuing strand does. -/
def State.myPayer (s : State) : Payer := s.payerOf s.cur.task

/-- The access of the issuing strand to the global space (R110, R112). -/
def State.myAcc (s : State) (need : BitVec 5) (cls : BitVec 4) (join : Bool) : Acc :=
  { core := some s.myCore, who := .strand s.cur.key, vr := s.myVrId, need := need, source := cls,
    lcore := s.cur.lcore, join := join, inst := s.myPayer.inst }

/-- Where the pages of the issuing strand's VR lie (R119). -/
def State.myPlaces (s : State) : Nat → Nat := s.places s.myLc

/-- An access of the issuing strand on path s waits behind its waiting stores: of its class, of its locations, all of path s for a release, and behind a fence; and a budget may hold it (R112, R123, R124, R127, R219). -/
def State.barred (s : State) (cls : BitVec 4) (rel gv : Bool) (a n : Nat) : Bool :=
  (gv && s.budgetHeld s.myVrId 0) ||
    s.me.pending.any fun w => (rel && w.onPath .s allClasses) || w.bars s.myPlaces .s cls a (if gv then n else 0)

/-- A fill that the access triggers would read what the strand's earlier stores have not written yet (R121, R123). -/
def State.fillBarred (s : State) (lo hi : Nat) : Bool :=
  ((s.lcoreAt s.myLc).unfilled lo hi).any fun i =>
    let r := (s.lcoreAt s.myLc).reg i
    s.me.pending.any fun w => w.onPath .s allClasses && w.overlaps s.myPlaces r.va.toNat r.len

/-- The issuing strand's access touches the bytes `lo` to `hi - 1` of its scratchpad (R93, R123). -/
def State.touchMine (s : State) (lo hi : Nat) : State × XR Unit := if s.fillBarred lo hi then (s, .wait) else s.touch s.myLc lo hi

/-- The bytes of a range that the strand's own open region holds, under whatever address (R43, R119). (log 39, DEDUCED) -/
def State.ownHeld (s : State) (va n : Nat) : List (Option Byte) := (List.range n).map fun i => heldByte s.myPlaces s.me.rsb (va + i)

/-- A scalar read of the global space (R43, R57, R112). -/
def State.gvLoad (s : State) (m : SMem) (va n : Nat) : State × LdAns :=
  let held := s.ownHeld va n
  if held.all Option.isSome then (s, .val (ofLeBytes (held.map fun b => b.getD 0)))
  else
    match s.xlate (s.myAcc rR 1 s.me.h) va with
    | (s, .ok pa) =>
      let got := s.mem.bytes pa n
      let read := (List.range n).filter fun i => (held.getD i none).isNone
      let s := (s.chargeMem s.myPayer pa n true false).acquire m (read.map (pa + ·))
      (s, .val (ofLeBytes (List.zipWith (fun h g => h.getD g) held got)))
    | (s, .refused x) => (s, .poison x)
    | (s, .wait) => if s.me.h then (s, .block) else (s, .poison va)

/-- A scalar read of any space (R90, R93, R97, R99, R268). (log 89, DESIGN CHOICE) -/
def State.load (s : State) (m : SMem) (a : Nat) : State × LdAns :=
  let n := widthBytes m.width
  if s.barred m.cls false (decide (m.space = .gv)) a n then (s, .block)
  else
  match m.space with
  | .sp =>
    match s.touchMine a (a + n) with
    | (s, .ok ()) => (s.acquire m (keysFrom (spRelKey s.myLc a) n), .val ((s.lcoreAt s.myLc).sp.read a n))
    | (s, .refused x) => (s, .poison x)
    | (s, .wait) => (s, .block)
  | .gv => s.gvLoad m a n
  | .ws =>
    let die := dieOf s.myCore
    if s.wsHeld die (a / 0x1000000) then (s, .block) else (s, .val (Mem.read (sget [] s.ws die) a n))
  | .ac => (s.acquire m (keysFrom (acRelKey (s.acKey a) a) n), .val (s.acRead a))

/-- Leave ENGINE_ERROR pending for the issuing strand's store (R112, R113). -/
def State.storeError (s : State) : State :=
  (s.onMe fun t => { t with errs := t.errs ++ [⟨s.uid, cEngine, 1, pcWord t.pc⟩] }).tickUid

/-- Hold a global store in the open region, or leave it waiting behind its fault or an earlier store of its class (R43, R112). -/
def State.gvStore (s : State) (m : SMem) (va : Nat) (bs : List Byte) : State :=
  let t := s.me
  let rel := if isRel m.sem then some (codeScope m.scope) else none
  if t.region then
    (s.onMe fun t => { t with rsb := holdBytes s.myPlaces s.uid t.pc 1 (.s, m.cls) rel 2 t.rsb va bs }).tickUid
  else
    let item : Held := .bytes (HeldBlk.ofStore s.uid t.pc 1 (.s, m.cls) rel va bs)
    if item.behind s.myPlaces t.pending || s.budgetHeld s.myVrId 0 then
      (s.onMe fun t => { t with pending := t.pending ++ [item] }).tickUid
    else
      match s.xlate { s.myAcc rW 1 true with who := .store s.uid } va with
      | (s, .ok pa) =>
        let before := s.rels
        ({ s.chargeMem s.myPayer pa bs.length false true with mem := s.mem.setBytes pa bs }.relWrite m false pa bs.length before)
      | (s, .refused _) => (s.settle (.store s.uid)).storeError
      | (s, .wait) => (s.onMe fun t => { t with pending := t.pending ++ [item] }).tickUid

/-- A scalar store of any space but ws; none where the strand blocks (R90, R93, R97, R268). -/
def State.store (s : State) (m : SMem) (a : Nat) (v : Word) : Option State × State :=
  let n := widthBytes m.width
  if m.space ≠ .gv ∧ s.barred m.cls (isRel m.sem) false a n = true then (none, s)
  else
  match m.space with
  | .sp =>
    match s.touchMine a (a + n) with
    | (s, .ok ()) =>
      let before := s.rels
      (some ((s.spPut s.myLc a (lowBytes m.width v)).relWrite m false (spRelKey s.myLc a) n before), s)
    | (s, .refused _) => (some s.storeError, s)
    | (s, .wait) => (none, s)
  | .gv => (some (s.gvStore m a (lowBytes m.width v)), s)
  | .ws => (some s, s)
  | .ac => let before := s.rels; (some ((s.acWrite a v.toNat).relWrite m false (acRelKey (s.acKey a) a) n before), s)

/-- The region store buffer has no room for a scalar global store (R43). -/
def State.storeFull (s : State) (x : Space) (a n : Nat) : Bool :=
  decide (x = .gv) && s.me.region && overCapacity s.me.rsb (blocksOf 0 a n)

/-! ## ld, st, lda, stl (R268, R269) -/

/-- The poison record of a load (R57, R96). -/
def poisonOf (m : SMem) (va : Nat) : Poison := ⟨BitVec.ofNat 64 va, codeWidth m.width, m.cls⟩

/-- A load from address `a`; `adv` advances the base afterwards (R268, R269). -/
def State.loadTo (s : State) (d : Reg) (m : SMem) (a : Word) (adv : Strand → Strand) : State :=
  s.checked 1 (s.accessChk m.space a.toNat (widthBytes m.width)) fun s =>
    match s.load m a.toNat with
    | (s, .val v) => (s.settle (.strand s.cur.key)).fin fun t => adv (t.setReg d (extVal m.width v))
    | (s, .poison va) => (s.settle (.strand s.cur.key)).fin fun t => adv (t.setPois d (poisonOf m va))
    | (s, .block) => s.block

/-- A store to address `a`; `adv` advances the base afterwards (R268, R269). -/
def State.storeFrom (s : State) (b : Reg) (m : SMem) (a : Word) (adv : Strand → Strand) : State :=
  s.checked 1 ((s.accessChk m.space a.toNat (widthBytes m.width)).or
      (chk (s.storeFull m.space a.toNat (widthBytes m.width)) cCapacity)) fun s =>
    match s.store m a.toNat (s.me.reg b) with
    | (some s, _) => s.fin adv
    | (none, s) => s.block

/-- A store to ws is refused at dispatch (R98, R268). -/
def wsStore (m : SMem) : Option Trap := chk (decide (m.space = .ws)) cPriv

/-- ld (R268). -/
def execLd (d a : Reg) (m : SMem) (s : State) : Res :=
  .next (s.checked 1 (s.me.chkPois [a]) fun s => s.loadTo d m (addrOf (s.me.reg a) m.off) id)

/-- st (R268). -/
def execSt (b a : Reg) (m : SMem) (s : State) : Res :=
  .next (s.checked 1 ((wsStore m).or (s.me.chkPois [a, b])) fun s => s.storeFrom b m (addrOf (s.me.reg a) m.off) id)

/-- The advance of lda and stl (R269). -/
def advance (a : Reg) (off : BitVec 20) (t : Strand) (base : Word) : Strand := t.setReg a (addrOf base off)

/-- lda (R269). -/
def execLda (d a : Reg) (m : SMem) (s : State) : Res :=
  .next (s.checked 1 (s.me.chkPois [a]) fun s =>
    s.loadTo d m (s.me.reg a) fun t => advance a m.off t (s.me.reg a))

/-- stl (R269). -/
def execStl (b a : Reg) (m : SMem) (s : State) : Res :=
  .next (s.checked 1 ((wsStore m).or (s.me.chkPois [a, b])) fun s =>
    s.storeFrom b m (s.me.reg a) fun t => advance a m.off t (s.me.reg a))

/-! ## atom, cas (R270, R271) -/

/-- The checks atom and cas make at dispatch, after their words (R254, R270): an ac width, ws, an open region, determinism, poison. -/
def State.rmwChk (s : State) (m : SMem) (fadd : Bool) (srcs : List Reg) : Option Trap :=
  (chk (decide (m.space = .ac) && decide (widthBytes m.width ≠ 4)) cIllegalField).or <|
  (chk (decide (m.space = .ws)) cPriv).or <|
  (chk (decide (m.space = .gv) && s.me.region) cRegion).or <|
  (chk (fadd && s.detmode) cDeterminism).or (s.me.chkPois srcs)

/-- One read-modify-write (R131): `f old` is the new value, none for a read only. The old value, a refusal, or a blocked strand. Its bytes are charged once (log 116, DESIGN CHOICE). -/
def State.rmw (s : State) (m : SMem) (a : Nat) (f : Nat → Option Nat) : State × LdAns × Bool :=
  let n := widthBytes m.width
  if s.barred m.cls (isRel m.sem) (decide (m.space = .gv)) a n then (s, .block, false)
  else
  match m.space with
  | .gv =>
      match s.xlate (s.myAcc (rW ||| rA) 1 true) a with
      | (s, .ok pa) =>
        let old := s.mem.read pa n
        let s := (s.chargeMem s.myPayer pa n true true).acquire m (keysFrom pa n)
        let before := s.rels
        (match f old with
          | some v => ({ s with mem := s.mem.setBytes pa (leBytes n v) }.relWrite m true pa n before)
          | none => s, .val old, false)
      | (s, .refused x) => (s, .poison x, false)
      | (s, .wait) => (s, .block, false)
  | .ac =>
    let old := s.acRead a
    let key := acRelKey (s.acKey a) a
    let s := s.acquire m (keysFrom key n)
    let before := s.rels
    (match f old with | some v => (s.acWrite a v).relWrite m true key n before | none => s, .val old, false)
  | _ =>
    match s.touchMine a (a + n) with
    | (s, .ok ()) =>
      let old := (s.lcoreAt s.myLc).sp.read a n
      let key := spRelKey s.myLc a
      let s := s.acquire m (keysFrom key n)
      let before := s.rels
      (match f old with | some v => (s.spPut s.myLc a (leBytes n v)).relWrite m true key n before | none => s, .val old, false)
    | (s, .refused x) => (s.storeError, .poison x, true)
    | (s, .wait) => (s, .block, false)

/-- An RMW to address `a` (R270, R271): a refused gv access poisons d; a refused fill leaves the error pending (R96). -/
def State.rmwTo (s : State) (d : Reg) (m : SMem) (a : Word) (f : Nat → Option Nat) : State :=
  s.checked 1 (s.accessChk m.space a.toNat (widthBytes m.width)) fun s =>
    match s.rmw m a.toNat f with
    | (s, .val old, _) => (s.settle (.strand s.cur.key)).fin fun t => t.setReg d (extVal m.width old)
    | (s, .poison _, true) => s.fin id
    | (s, .poison va, false) => (s.settle (.strand s.cur.key)).fin fun t => t.setPois d (poisonOf m va)
    | (s, .block, _) => s.block

/-- atom (R270). -/
def execAtom (op : BitVec 3) (d a b : Reg) (m : SMem) (s : State) : Res :=
  .next (s.checked 1 (s.rmwChk m (decide (op = 7)) [a, b]) fun s =>
    s.rmwTo d m (addrOf (s.me.reg a) m.off) fun old =>
      some (atomNew op.toNat (widthSigned m.width) (faddFmt m.width) (8 * widthBytes m.width) old
        ((s.me.reg b).toNat % 2 ^ (8 * widthBytes m.width))))

/-- cas: a failed comparison is a read only (R271). -/
def execCas (d a b : Reg) (m : SMem) (s : State) : Res :=
  .next (s.checked 1 (s.rmwChk m false [a, b, d]) fun s =>
    s.rmwTo d m (addrOf (s.me.reg a) m.off) fun old =>
      let n := 8 * widthBytes m.width
      if old = (s.me.reg d).toNat % 2 ^ n then some ((s.me.reg b).toNat % 2 ^ n) else none)

/-! ## kld, sdld, sdst (R272, R273) -/

/-- The constant k[i] of the issuing strand's VR (R27). -/
def State.kconst (s : State) (i : Nat) : Word :=
  match s.vrAt s.myVrId with
  | some v => sget 0 v.k i
  | none => 0

/-- kld (R272). -/
def execKld (d a : Reg) (imm : BitVec 32) (s : State) : Res :=
  let i := (s.me.reg a + imm.signExtend 64).toNat
  .next (s.checked 1 ((s.me.chkPois [a]).or (chk (decide (1023 < i)) cIllegalField)) fun s =>
    s.fin fun t => t.setReg d (s.kconst i))

/-- The checks of a descriptor's address: 16-aligned and in range (R254, R273). -/
def State.sdChk (s : State) (x : Space) (a : Nat) : Option Trap :=
  if a % 16 ≠ 0 then some { cause := cMisaligned, va := BitVec.ofNat 64 a }
  else if s.spaceEnd x < a + 16 then some { cause := cSpad, va := BitVec.ofNat 64 a }
  else none

/-- sdld (R273): a refused fill traps at once with POISON_USE (R96). -/
def execSdld (n : BitVec 4) (a : Reg) (cls : BitVec 4) (space : Space) (off : BitVec 20) (s : State) : Res :=
  let x := (addrOf (s.me.reg a) off).toNat
  .next (s.checked 1 ((s.me.chkPois [a]).or (s.sdChk space x)) fun s =>
    if s.barred cls false false x 16 then s.block
    else match space with
    | .ws =>
      let die := dieOf s.myCore
      if s.wsHeld die (x / 0x1000000) then s.block
      else s.fin fun t => t.setSdesc n.toNat (BitVec.ofNat 128 (Mem.read (sget [] s.ws die) x 16))
    | _ =>
      match s.touchMine x (x + 16) with
      | (s, .ok ()) => s.fin fun t => t.setSdesc n.toNat (BitVec.ofNat 128 ((s.lcoreAt s.myLc).sp.read x 16))
      | (s, .refused va) =>
        s.takeTrap 1 { cause := cPoison, va := BitVec.ofNat 64 va, info := some ((6 : BitVec 3) ++ cls ++ (0 : BitVec 5)) }
      | (s, .wait) => s.block)

/-- sdst (R273): to ws it is refused; a refused fill leaves ENGINE_ERROR pending (R96). -/
def execSdst (n : BitVec 4) (a : Reg) (cls : BitVec 4) (space : Space) (off : BitVec 20) (s : State) : Res :=
  let x := (addrOf (s.me.reg a) off).toNat
  .next (s.checked 1 ((chk (decide (space = .ws)) cPriv).or ((s.me.chkPois [a]).or (s.sdChk space x))) fun s =>
    if s.barred cls false false x 16 then s.block
    else match s.touchMine x (x + 16) with
    | (s, .ok ()) => (s.spPut s.myLc x (leBytes 16 (s.me.sdesc n.toNat).toNat)).fin id
    | (s, .refused _) => s.storeError.fin id
    | (s, .wait) => s.block)

/-! ## fence, xfence (R124, R274) -/

/-- An incomplete record of strand instance `sid` stands in the engine. -/
def EngineQ.busyFor (q : EngineQ) (sid : Nat) : Bool := q.all.any fun e => decide (e.sid = sid)

/-- A class 7 operation of the strand that has been sent, or that a commit has released, is unanswered (R274, R365); one held in an open region has not been sent (R360). -/
def State.remoteBusy (s : State) (sid : Nat) : Bool := s.rops.any fun o => decide (o.sid = sid) && o.sent

/-- Earlier accesses of path `p` by the issuing strand have not performed: records, operations, and what its commits have released (R125, R274). -/
def State.pathBusy (s : State) (p : Path) : Bool :=
  let c := s.coreAt s.myCore
  let sid := s.me.sid
  (s.me.pending.any fun h => h.onPath p allClasses) || match p with
  | .s => false
  | .v => c.v.busyFor sid
  | .m => c.m.busyFor sid
  | .t => c.t.busyFor sid
  | .f => c.f.busyFor sid || s.remoteBusy sid
  | .c => c.c.busyFor sid

/-- fence: it retires, and what comes after it waits for what it orders; what an open region holds is ordered from its commit on (R124, R125, R274). -/
def execFence (mask : BitVec 16) (s : State) : Res :=
  .next ((s.raiseFence s.cur.key s.uid .s .s mask).tickUid.fin id)

/-- xfence: nothing is dispatched after it until every earlier path-p access has performed; what an open region holds is ordered from its commit on (R124, R125, R274). -/
def execXfence (p q : Path) (s : State) : Res :=
  .next (if s.pathBusy p then s.block else (s.raiseFence s.cur.key s.uid p q allClasses).tickUid.fin id)

end Sys2Proof.Machine
end

