-- ==== Sys2Proof/Machine/Control.lean ====
section
/-! DEFINITION. Machine/Control.lean: control transfer of class 2 (R275 to R279). -/

namespace Sys2Proof.Machine

/-- Take a transfer of control. -/
def State.goto (s : State) (target : BitVec 53) (f : Strand → Strand) : State := s.onMe fun t => f (t.jump target)

/-- Take a branch or fall through (R275). -/
def State.branch (s : State) (taken : Bool) (imm : BitVec 32) : State :=
  if taken then s.goto (branchTarget s.me.pc imm) id else s.fin id

/-- br (R275). -/
def execBr (imm : BitVec 32) (s : State) : Res := .next (s.branch true imm)

/-- bc (R275). -/
def execBc (k : Cond) (a b : Reg) (imm : BitVec 32) (s : State) : Res :=
  .next (s.checked 2 (s.me.chkPois [a, b]) fun s => s.branch (condHolds k (s.me.reg a) (s.me.reg b)) imm)

/-- jal (R275). -/
def execJal (d : Reg) (imm : BitVec 32) (s : State) : Res :=
  .next (s.goto (branchTarget s.me.pc imm) fun t => t.setReg d (pcWord (s.me.pc + 1)))

/-- jr: the target is read before d is written (R275). -/
def execJr (d a : Reg) (s : State) : Res :=
  .next (s.checked 2 (s.me.chkPois [a]) fun s =>
    s.goto ((s.me.reg a).setWidth 53) fun t => t.setReg d (pcWord (s.me.pc + 1)))

/-- ret (R275). -/
def execRet (s : State) : Res :=
  .next (s.checked 2 (s.me.chkPois [31]) fun s => s.goto ((s.me.reg 31).setWidth 53) id)

/-- The loop cannot start (R276): lcN is active for a loop that holds this word, or the body passes an active enclosing body's end. -/
def Strand.loopBad (t : Strand) (n : Nat) (stop : BitVec 53) : Bool :=
  (t.loop n).holds t.pc ||
    [0, 1, 2].any fun m => (t.loop m).holds t.pc && decide ((t.loop m).stop.toNat < stop.toNat)

/-- loop (R276): a zero count from a register leaves lcN inactive and falls through to end (R277, log 6, DEDUCED). -/
def execLoop (n : BitVec 2) (a : Reg) (len cnt : BitVec 16) (s : State) : Res :=
  let t := s.me
  let start := t.pc + 1
  let stop := start + len.setWidth 53
  let count : Word := if cnt = 0 then t.reg a else cnt.setWidth 64
  let pois := if cnt = 0 then t.chkPois [a] else none
  let bad := decide (65535 < count.toNat) || t.loopBad n.toNat stop
  .next (s.checked 2 (pois.or (chk bad cIllegalField)) fun s =>
    if count = 0 then s.onMe fun t => (t.setLoop n.toNat ⟨0, start, stop, false⟩).retire (len.setWidth 53 + 1)
    else s.onMe fun t =>
      { t.setLoop n.toNat ⟨count.setWidth 16, start, stop, true⟩ with pc := start, status := .ready, icount := t.icount + 1 })

/-- The test of bts (R278). -/
def btsHolds (k : BtsKind) (w b : Word) : Bool :=
  match k with
  | .any => decide (w &&& b ≠ 0)
  | .none => decide (w &&& b = 0)
  | .ended => decide (w.extractLsb' 24 8 ≠ 0)

/-- bts (R278): a refused fill traps at once with POISON_USE (R96). -/
def execBts (k : BtsKind) (a b : Reg) (imm : BitVec 32) (s : State) : Res :=
  let x := (s.me.reg a).toNat
  let align : Option Trap := if x % 8 ≠ 0 then some { cause := cMisaligned, va := s.me.reg a } else none
  let bound : Option Trap := if s.myQuota < x + 8 then some { cause := cSpad, va := s.me.reg a } else none
  .next (s.checked 2 ((s.me.chkPois [a, b]).or (align.or bound)) fun s =>
    if s.barred 0 false false x 8 then s.block
    else match s.touchMine x (x + 8) with
    | (s, .ok ()) => s.branch (btsHolds k (BitVec.ofNat 64 ((s.lcoreAt s.myLc).sp.read x 8)) (s.me.reg b)) imm
    | (s, .refused va) => s.takeTrap 2 { cause := cPoison, va := BitVec.ofNat 64 va, info := some 0xC00 }
    | (s, .wait) => s.block)

/-- bpois never consumes poison (R279). -/
def execBpois (np : Bool) (a : Reg) (imm : BitVec 32) (s : State) : Res :=
  .next (s.branch ((s.me.pois a).isSome != np) imm)

end Sys2Proof.Machine
end

