-- ==== Sys2Proof/Machine/Sync.lean ====
section
/-! DEFINITION. Machine/Sync.lean: semaphores and barriers (R280, R281), esync (R56), yield and region (R42, R46), tail and halt (R48, R49), and starting a strand (R41, R101). -/

namespace Sys2Proof.Machine

/-! ## Semaphores (R280) -/

/-- The strands of a logical core that wait on semaphore `n`, with their counts, in order of arrival. -/
def State.semWaiters (s : State) (lc n : Nat) : List (Nat × Nat × Nat) :=
  let ws := (List.range 4).filterMap fun i =>
    let t := s.strandAt (lc * 4 + i)
    match t.status with
    | .waiting (.sem m c) => if m = n then some (t.arrived, lc * 4 + i, c) else none
    | _ => none
  isort (fun x y => decide (x.1 ≤ y.1)) ws

/-- The semaphore count of a logical core. -/
def LCore.sem (l : LCore) (n : Nat) : BitVec 32 := sget 0 l.hs n

/-- Serve waiters in order; one whose count is too large holds back those behind it (R280). (log 87, DEDUCED) -/
def State.serve (lc n : Nat) : List (Nat × Nat × Nat) → State → State
  | [], s => s
  | (_, k, c) :: t, s =>
    let v := (s.lcoreAt lc).sem n
    if c ≤ v.toNat then
      State.serve lc n t ((s.onLcore lc fun l => { l with hs := sset 0 l.hs n (v - BitVec.ofNat 32 c) }).onStrand k fun t => t.retire 1)
    else s

/-- semwait (R280): waits behind earlier waiters of the semaphore. -/
def execSemwait (n : BitVec 6) (cnt : BitVec 16) (s : State) : Res :=
  .next (
    let v := (s.lcoreAt s.myLc).sem n.toNat
    if (s.semWaiters s.myLc n.toNat).isEmpty ∧ cnt.toNat ≤ v.toNat then
      (s.onLcore s.myLc fun l => { l with hs := sset 0 l.hs n.toNat (v - cnt.setWidth 32) }).fin id
    else (s.onMe fun t => { t with status := .waiting (.sem n.toNat cnt.toNat), arrived := s.uid }).tickUid)

/-- A semaphore count after a signal: saturating (R280). -/
def semAdd (v : BitVec 32) (n : BitVec 16) : BitVec 32 := BitVec.ofNat 32 (Nat.min (v.toNat + n.toNat) (2 ^ 32 - 1))

/-- Signal semaphore `n` of logical core key `lc`: the addition first, then the waiters' tests (R280, R291). -/
def State.signalSem (s : State) (lc : Nat) (n : BitVec 6) (cnt : BitVec 16) : State :=
  let s := s.onLcore lc fun l => { l with hs := sset 0 l.hs n.toNat (semAdd (l.sem n.toNat) cnt) }
  State.serve lc n.toNat (s.semWaiters lc n.toNat) s

/-- L of the issuing strand's gang (R27). -/
def State.myL (s : State) : Nat := (s.taskAt s.cur.task).L

/-- semsig: a release, it waits for the strand's stores (R127, R280). -/
def execSemsig (n : BitVec 6) (cnt : BitVec 16) (named : Bool) (a : Reg) (s : State) : Res :=
  let tgt := if named then (s.me.reg a).toNat else s.cur.lcore
  .next (s.checked 3 ((chk s.me.region cRegion).or <|
      (if named then s.me.chkPois [a] else none).or (chk (named && decide (s.myL ≤ tgt)) cIllegalField)) fun s =>
    if s.pathBusy .s then s.block
    else (s.fin id).signalSem (lckey s.cur.task tgt) n cnt)

/-! ## Barriers (R281) -/

/-- The parties of a barrier: strands of the task started at an .entry and not retired, in one logical cluster for barc (R281). -/
def State.parties (s : State) (task : Nat) (j : Option Nat) : List Nat :=
  (s.strands.filter fun e => decide (e.1 / 1152 = task) && e.2.entry &&
    decide (e.2.status ≠ .retired ∧ e.2.status ≠ .dormant) &&
    (match j with | some j => decide (e.1 / 4 % 288 / 4 = j) | none => true)).map (·.1)

/-- Complete a barrier instance if every party waits at it (R281). -/
def State.tryBarrier (s : State) (task : Nat) (j : Option Nat) : State :=
  let w : Wait := if j.isSome then .barc else .barg
  let ps := s.parties task j
  if ps.all fun k => decide ((s.strandAt k).status = .waiting w) then
    ps.foldl (fun s k => s.onStrand k fun t => t.retire 1) s
  else s

/-- A strand has left the count of its barriers, or has arrived: judge both (R281). -/
def State.barriers (s : State) (r : Ref) : State := (s.tryBarrier r.task (some (r.lcore / 4))).tryBarrier r.task none

/-- The refusals of barc and barg (R281). -/
def State.barChk (s : State) : Option Trap := (chk s.me.handler cPriv).or (chk s.me.region cRegion)

/-- barc: its arrival is a release and waits for the strand's stores (R127, R281). -/
def execBarc (s : State) : Res :=
  .next (s.checked 3 s.barChk fun s =>
    if s.pathBusy .s then s.block
    else (s.onMe fun t => { t with status := .waiting .barc, arrived := s.uid }).tickUid.tryBarrier s.cur.task (some (s.cur.lcore / 4)))

/-- barg (R127, R281). -/
def execBarg (s : State) : Res :=
  .next (s.checked 3 s.barChk fun s =>
    if s.pathBusy .s then s.block
    else (s.onMe fun t => { t with status := .waiting .barg, arrived := s.uid }).tickUid.tryBarrier s.cur.task none)

/-! ## Failures raised at esync, rfence and halt (R48, R56, R365) -/

/-- The failure with the lowest issue number. -/
def firstFailure (l : List Failure) : Option Failure :=
  l.foldl (fun best f => match best with
    | none => some f
    | some g => if f.uid < g.uid then some f else some g) none

/-- The engine errors pending for the issuing strand or held for its logical core. -/
def State.myErrs (s : State) : List Failure := s.me.errs ++ (s.lcoreAt s.myLc).errs

/-- The remote failures held for the issuing strand or for its logical core. -/
def State.myRfails (s : State) : List Failure := s.me.rfails ++ (s.lcoreAt s.myLc).rfails

/-- Clear every pending engine error (R56). -/
def State.clearErrs (s : State) : State :=
  (s.onMe fun t => { t with errs := [] }).onLcore s.myLc fun l => { l with errs := [] }

/-- Clear one remote failure (R56). -/
def State.clearRfail (s : State) (f : Failure) : State :=
  (s.onMe fun t => { t with rfails := t.rfails.erase f }).onLcore s.myLc fun l => { l with rfails := l.rfails.erase f }

/-- The trap of a failure. -/
def Failure.trap (f : Failure) : Trap := { cause := f.cause, va := f.va }

/-- Raise the first failure in issue order across both kinds, with its clearing; retire when there is none (R56). -/
def State.raiseFirst (s : State) (k : State → State) : State :=
  match firstFailure (s.myErrs ++ s.myRfails) with
  | none => k s
  | some f => if f.cause = cEngine then s.clearErrs.takeTrap f.cls f.trap else (s.clearRfail f).takeTrap f.cls f.trap

/-- A record that the issuing strand has dispatched is incomplete. -/
def State.recordsBusy (s : State) : Bool :=
  let c := s.coreAt s.myCore
  [Engine.v, .m, .t, .f, .c].any fun e => (c.engine e).busyFor s.me.sid

/-- esync (R56). -/
def execEsync (s : State) : Res :=
  .next (if s.recordsBusy || s.remoteBusy s.me.sid then s.block else s.raiseFirst fun s => s.fin id)

/-! ## Regions, yield (R40, R42, R46) -/

/-- Retire, then set the restart point to the next instruction (R40). -/
def State.finRestart (s : State) (f : Strand → Strand) : State :=
  (s.fin f).onMe fun t => { t with restart := t.pc, ckpt := t.regs }

/-- region (R42): commits an open region and opens a new one. -/
def execRegion (s : State) : Res :=
  .next ((s.commit s.cur.key).finRestart fun t => { t with region := true, opened := s.uid })

/-- yield (R42, R46): with sys.preq set the strand becomes yielded. -/
def execYield (s : State) : Res :=
  .next (
    let preq := (s.taskAt s.cur.task).preq
    ((s.commit s.cur.key).finRestart fun t => { t with opened := 0 }).onMe fun t =>
      { t with status := if preq then .yielded else .ready, atYield := true })

/-! ## Starting a strand (R41, R101) -/

/-- The initial descriptors for an entry record: the last stream record for each N whose first index is at most `e`; for a handler, the last of all (R394). -/
def streamsAt (im : Image) (e : Option Nat) : SMap (BitVec 128) :=
  im.streams.foldl (fun m r =>
    if (match e with | some i => decide (r.first ≤ i) | none => true) then sset 0 m r.n r.value else m) []

/-- A strand in the common initial state at a start address (R41). -/
def Strand.start (sid : Nat) (pc : BitVec 53) (entry : Bool) (sd : SMap (BitVec 128)) (regs : SMap Word) : Strand :=
  { Strand.init with
    status := .ready, pc := pc, regs := { Regs.zero with s := regs, sd := sd }, restart := pc,
    ckpt := { Regs.zero with s := regs, sd := sd }, entry := entry, handler := !entry, sid := sid }

/-- The registers s1 to s4 of a handler (R101). -/
def handlerRegs (a : Arrival) : SMap Word :=
  [(1, a.va), (2, BitVec.ofNat 64 a.len), (3, BitVec.ofNat 64 (a.src % 2 ^ 20)), (4, a.holder.setWidth 64)].foldl
    (fun m e => sset 0 m e.1 e.2) []

/-- The lowest-numbered slot that is dormant or freed by tail (R101). -/
def State.freeSlot (s : State) (lc : Nat) : Option Nat :=
  (List.range 4).find? fun i =>
    let t := s.strandAt (lc * 4 + i)
    decide (t.status = .dormant) || (decide (t.status = .retired) && t.tailed)

/-- Start a handler in a slot of a logical core (R41, R101). -/
def State.startHandler (s : State) (lc slot : Nat) (a : Arrival) : State :=
  let im := (s.vrAt (s.taskAt (lc / 288)).vr).map (·.image)
  let sd := match im with | some im => streamsAt im none | none => []
  (s.onStrand (lc * 4 + slot) fun t =>
    { Strand.start s.uid a.handler false sd (handlerRegs a) with icount := t.icount }).tickUid

/-- A queued arrival starts, in arrival order, when a slot frees (R101). -/
def State.startQueued (s : State) (lc : Nat) : State :=
  match (s.lcoreAt lc).arrivals, s.freeSlot lc with
  | a :: t, some i => (s.onLcore lc fun l => { l with arrivals := t }).startHandler lc i a
  | _, _ => s

/-! ## tail, halt (R48, R49) -/

/-- Work of the strand instance is incomplete: records, remote operations, held stores. -/
def State.workLeft (s : State) : Bool := s.recordsBusy || s.remoteBusy s.me.sid || !s.me.pending.isEmpty

/-- A tailed strand's work is still in the tracker (R48). -/
def State.trackedBusy (s : State) (lc sid : Nat) : Bool :=
  let c := s.coreAt (s.coreOf (lc / 288) (lc % 288))
  ([Engine.v, .m, .t, .f, .c].any fun e => (c.engine e).busyFor sid) || s.remoteBusy sid ||
    (s.lcoreAt lc).pending.any fun p => decide (p.1 = sid)

/-- The tracker entries in use on a physical core (R48). -/
def State.trackerUsed (s : State) (core : Nat) : Nat :=
  (s.lcores.map fun e =>
    if s.coreOf (e.1 / 288) (e.1 % 288) = core then (e.2.tracked.filter fun k => s.trackedBusy e.1 k.sid).length else 0).foldl (· + ·) 0

/-- The strand has ended by tail: its slot is free, its registers gone, its remaining work with the tracker (R48). -/
def State.endTail (s : State) : State :=
  let t := s.me
  let lc := s.myLc
  let s := s.onLcore lc fun l =>
    { l with
      pending := l.pending ++ t.pending.map fun h => (t.sid, s.cur.slot, h)
      errs := l.errs ++ t.errs
      rfails := l.rfails ++ t.rfails
      claims := l.claims ++ if (s.coreAt s.myCore).m.busyFor t.sid then t.claim.toList.map fun c => (t.sid, c) else []
      tracked := if s.workLeft then l.tracked ++ [(⟨t.sid, t.vm, t.mm, t.etr⟩ : Tracked)] else l.tracked }
  s.onMe fun t => { Strand.init with status := .retired, tailed := true, icount := t.icount + 1 }

/-- tail (R48): an open region is committed; a 17th tracker entry blocks it. -/
def execTail (s : State) : Res :=
  .next (
    let s := s.commit s.cur.key
    if s.workLeft ∧ 16 ≤ s.trackerUsed s.myCore then s.block
    else ((s.endTail).barriers s.cur).startQueued s.myLc)

/-- A record of the core that was dispatched before issue number `u` is incomplete (R49). -/
def Core.busyBefore (c : Core) (u : Nat) : Bool :=
  [Engine.v, .m, .t, .f, .c].any fun e => (c.engine e).all.any fun x => decide (x.uid < u)

/-- A store stands in a buffer of a strand of the core, or the core's tracker has a store or an operation that has not performed (R43, R48, R49). -/
def State.coreHolds (s : State) (core : Nat) : Bool :=
  let on (lc : Nat) : Bool := decide (s.coreOf (lc / 288) (lc % 288) = core)
  s.strands.any (fun e => !(e.2.pending.isEmpty && e.2.rsb.isEmpty) && on (e.1 / 4)) ||
    (s.lcores.any fun e => !e.2.pending.isEmpty && on e.1) ||
    s.rops.any fun o => !o.cancel && on (lckey o.ref.task o.ref.lcore) && !s.alive o.ref o.sid

/-- halt (R49): commits, waits, raises what is held, then retires. -/
def execHalt (s : State) : Res :=
  .next (
    let s := s.commit s.cur.key
    let at_ := s.me.haltAt.getD s.uid
    let s := if s.me.haltAt.isNone then (s.onMe fun t => { t with haltAt := some at_ }).tickUid else s
    if (s.coreAt s.myCore).busyBefore at_ || s.coreHolds s.myCore || s.remoteBusy s.me.sid then s.block
    else
      (s.onMe fun t => { t with haltAt := none }).raiseFirst fun s =>
        (s.onMe fun t => { t with status := .retired, claim := none, icount := t.icount + 1 }).barriers s.cur)

/-- nop (R282). -/
def execNop (s : State) : Res := .next (s.fin id)

end Sys2Proof.Machine
end

