-- ==== Sys2Proof/Config.lean ====
section
/-! DEFINITION. Config.lean: the values that the spec leaves open, as constants without a body: nothing can be proved of any one of them. -/

namespace Sys2Proof.Config

/-- The value, as binary64 bits, of a broadcast operand of a block format: the spec gives a scale only to elements of a block (R23, R66, R68; log 8, DESIGN CHOICE). -/
opaque loneElement (fmt bits : Nat) : Word

/-- The value, as binary64 bits, that the down-converter reads for a cell pair beyond the 64 of a row (R172, R328; log 9, DESIGN CHOICE). -/
opaque pairBeyond (row col : Nat) : Word

/-- The source class of POWER_LIMIT in a completion record: it has no instruction (R221, R226; log 41, DESIGN CHOICE). -/
opaque powerClass (n : Nat) : BitVec 4

/-- The word of a weight store's snapshot record that the manual names "reads held" without saying over what time (R232; log 42, DESIGN CHOICE). -/
opaque readsHeld (n : Nat) : Word

/-- How many cycles a block takes to write its snapshot record (R232; log 99, DESIGN CHOICE). -/
opaque snapCycles (n : Nat) : Nat

/-- Which of a code word's values of the step task a fetch returns: a number that is taken modulo how many there are (R236; log 58, DESIGN CHOICE). -/
opaque fetchChoice (n : Nat) : Nat

/-- The deadline, in cycles, that the supervisor sets when it pre-empts a task of lower priority (R46, R215; log 45, DESIGN CHOICE). -/
opaque preemptDeadline (n : Nat) : BitVec 32

/-- The arm timeout, in units of 1,000 cycles, that the supervisor gives a launch (R290; log 45, DESIGN CHOICE). -/
opaque armTimeout (n : Nat) : BitVec 16

/-- The home link that the supervisor gives a function: link 1 or link 0 (R390; log 47, DESIGN CHOICE). -/
opaque homeLink (fn : Nat) : Bool

/-- The id that the supervisor tries first for a VR it creates (R27, R388; log 48, DESIGN CHOICE). -/
opaque vrId (n : Nat) : BitVec 20

/-- The seed of a VR (R72, R388; log 48, DESIGN CHOICE). -/
opaque vrSeed (n : Nat) : Word

/-- The MAC key of a VR, drawn by the supervisor (R193, R388; log 48, DESIGN CHOICE). -/
opaque vrKey (n : Nat) : BitVec 128

/-- An Ed25519 signature verifies under the vendor's key (R397; log 49, DESIGN CHOICE). -/
opaque vendorEd (msg sig : List Byte) : Bool

/-- An ML-DSA-65 signature verifies under the vendor's key (R397; log 49, DESIGN CHOICE). -/
opaque vendorMl (msg sig : List Byte) : Bool

/-- The device secret that is fused into the part (R398; log 49, DESIGN CHOICE). -/
opaque deviceSecret : List Byte

/-- The Ed25519 key pair, private and public, that a part derives from its secret (R398; log 49, DESIGN CHOICE). -/
opaque deriveEd (secret : List Byte) : BitVec 256 × BitVec 256

/-- The ML-DSA-65 key pair, private and public, that a part derives from its secret (R398; log 49, DESIGN CHOICE). -/
opaque deriveMl (secret : List Byte) : BitVec 32256 × BitVec 15616

/-- An Ed25519 signature under a private key, 64 bytes (R399; log 49, DESIGN CHOICE). -/
opaque signEd (key : BitVec 256) (n : Nat) (msg : List Byte) : BitVec 512

/-- An ML-DSA-65 signature under a private key, 3,309 bytes (R399; log 49, DESIGN CHOICE). -/
opaque signMl (key : BitVec 32256) (n : Nat) (msg : List Byte) : BitVec 26472

/-- The part's serial number (R398; log 50, DESIGN CHOICE). -/
opaque serial : List Byte

/-- The bytes of the identity statement, with the vendor's signatures, for its contents: serial number, ordering code, active cluster count, fused cluster numbers, both public keys. The manual does not give their layout (R398; log 50, DESIGN CHOICE). -/
opaque identityLayout (serial : List Byte) (code : String) (active : Nat) (fused : List Nat) (ed : BitVec 256) (ml : BitVec 15616) : List Byte

/-- The payload of the link control flit that announces a mode: the manual does not give it (R180, R182; log 56, DESIGN CHOICE). -/
opaque linkControl (mode : Nat) : BitVec 1536

end Sys2Proof.Config
end

