-- ==== Sys2Proof/Machine/Functions.lean ====
section
/-! DEFINITION. Machine/Functions.lean: the correctly rounded functions of R77, each as an exact value or as a leading part with a sticky mark, found by fixed-point bounds whose precision doubles until both bounds agree. -/

namespace Sys2Proof.Machine

/-! ## Fixed-point series, P fraction bits -/

/-- Σ z^(2n+1)/(2n+1), with alternating signs when `alt`: `p` is the running power, `z2` the square. -/
def oddSeries (alt : Bool) (P z2 : Nat) : Nat → Nat → Int → Int → Int
  | 0, _, _, acc => acc
  | k + 1, n, p, acc =>
    if p = 0 then acc
    else
      let t := p / (2 * n + 1 : Nat)
      oddSeries alt P z2 k (n + 1) (p * z2 / 2 ^ P) (if alt && n % 2 == 1 then acc - t else acc + t)

/-- atanh(z) for a fixed-point z from 0 to 1/3. -/
def atanhFix (P z : Nat) : Nat := (oddSeries false P (z * z / 2 ^ P) P 0 z 0).toNat

/-- atan(1/d). -/
def atanFix (P d : Nat) : Nat := (oddSeries true P (2 ^ P / (d * d)) P 0 (2 ^ P / d : Nat) 0).toNat

/-- ln 2. -/
def ln2Fix (P : Nat) : Nat := 2 * atanhFix P (2 ^ P / 3)

/-- π, by Machin's formula. -/
def piFix (P : Nat) : Nat := 16 * atanFix P 5 - 4 * atanFix P 239

/-- Σ r^n/n! for a fixed-point r. -/
def expSeries (P r : Nat) : Nat → Nat → Nat → Nat → Nat
  | 0, _, _, acc => acc
  | k + 1, n, t, acc => if t = 0 then acc else expSeries P r k (n + 1) (t * r / 2 ^ P / (n + 1)) (acc + t)

/-- e^r for a fixed-point r from 0 to ln 2. -/
def expFix (P r : Nat) : Nat := expSeries P r (P + 2) 0 (2 ^ P) 0

/-- m·2^e as a fixed-point number, rounded down. -/
def fixOf (P m : Nat) (e : Int) : Nat := if 0 ≤ e + P then m * 2 ^ (e + P).toNat else m / 2 ^ (-(e + P)).toNat

/-- The error that covers every rounding of the series at a precision up to 2^15 bits, in units of the last place. -/
def slack : Nat := 2 ^ 44

/-- The bits dropped where two bounds are compared. -/
def dropBits : Nat := 72

/-- A value between two bounds whose leading parts agree. -/
def pinch (neg : Bool) (h lo hi : Nat) (e : Int) : Option FVal :=
  if lo / 2 ^ h = hi / 2 ^ h then some (.fin neg (lo / 2 ^ h) (e + h) true) else none

/-- Try precisions P, 2P, 4P … until the bounds agree; the value itself is never on a boundary. -/
def refine (f : Nat → Option FVal) : Nat → Nat → FVal
  | 0, _ => .zero false
  | k + 1, P => match f P with
    | some v => v
    | none => refine f k (2 * P)

/-- e^X·2^-P for a fixed-point X: its fixed-point fraction part and exponent. -/
def expParts (P : Nat) (x : Int) : Nat × Int :=
  let l : Int := ln2Fix P
  let k := x / l
  (expFix P (x - k * l).toNat, k)

/-- The bounds of e^X. -/
def expPinch (P : Nat) (x : Int) : Option FVal :=
  let (a, k) := expParts P x
  pinch false dropBits (a - slack) (a + slack) (k - P)

/-- A finite value as a signed fixed-point number. -/
def signedFix (P : Nat) (n : Bool) (m : Nat) (e : Int) : Int := if n then -(fixOf P m e : Int) else fixOf P m e

/-- m·2^e is at least 2^k. -/
def atLeast (m : Nat) (e k : Int) : Bool := decide (m ≠ 0 ∧ k ≤ e + topBit m)

/-- Just above or just below 1. -/
def nearOne (below : Bool) : FVal := .fin false (if below then 2 ^ 160 - 1 else 2 ^ 160) (-160) true

/-- A value above every format's range, or below every format's least. -/
def beyond (small : Bool) : FVal := if small then .fin false 0 (-8192) true else .fin false 1 8192 true

/-- e^x, or 2^x, of a finite nonzero x (R77). -/
def expFin (two n : Bool) (m : Nat) (e : Int) : FVal :=
  if atLeast m e 12 then beyond n
  else if !atLeast m e (-170) then nearOne n
  else if two && decide (0 ≤ e ∨ m % 2 ^ (-e).toNat = 0) then
    .exact false 1 (signedMant n (if 0 ≤ e then m * 2 ^ e.toNat else m / 2 ^ (-e).toNat))
  else refine (fun P =>
    let x := signedFix P n m e
    expPinch P (if two then x * ln2Fix P / 2 ^ P else x)) 7 512

/-- The exponent k with m·2^e = y·2^k for y from 3/4 to 3/2. -/
def logShift (m : Nat) (e : Int) : Int := let k := e + topBit m; if 2 ^ topBit m * 3 ≤ 2 * m then k + 1 else k

/-- ln y for y = m·2^e from 3/4 to 3/2, to within the slack: 2·atanh((y − 1)/(y + 1)). -/
def lnFix (P m : Nat) (e : Int) : Int :=
  let one := if 0 ≤ e then 1 else 2 ^ (-e).toNat
  let m := if 0 ≤ e then m * 2 ^ e.toNat else m
  if one ≤ m then 2 * atanhFix P ((m - one) * 2 ^ P / (m + one)) else -(2 * atanhFix P ((one - m) * 2 ^ P / (m + one)) : Nat)

/-- ln x, or log2 x, of a finite positive x that is not 1 (R77). -/
def logFin (two : Bool) (m : Nat) (e : Int) : FVal :=
  let k := logShift m e
  if two && decide (m = 2 ^ topBit m) then .ofInt (e + topBit m)
  else refine (fun P =>
    let l : Int := ln2Fix P
    let y := lnFix P m (e - k)
    let v := if two then k * 2 ^ P + y * 2 ^ P / l else k * l + y
    pinch (decide (v < 0)) dropBits (v.natAbs - slack) (v.natAbs + slack) (-(P : Int))) 7 512

/-- tanh of a finite nonzero magnitude (R77). -/
def tanhFin (n : Bool) (m : Nat) (e : Int) : FVal :=
  if atLeast m e 6 then (if n then (nearOne true).negate else nearOne true)
  else if !atLeast m e (-64) then .fin n (m * 2 ^ 64 - 1) (e - 64) true
  else refine (fun P =>
    let (a, k) := expParts P (fixOf P m (e + 1))
    let one := 2 ^ P
    let lo := (a - slack) * 2 ^ k.toNat
    let hi := (a + slack) * 2 ^ k.toNat
    pinch n dropBits ((lo - one) * 2 ^ P / (lo + one)) ((hi - one) * 2 ^ P / (hi + one) + 1) (-(P : Int))) 7 512

/-- Σ (−1)^n z^n/(n!(2n + 1)). -/
def erfSeries (P z : Nat) : Nat → Nat → Nat → Int → Int
  | 0, _, _, acc => acc
  | k + 1, n, t, acc =>
    if t = 0 then acc
    else
      let u : Int := (t / (2 * n + 1) : Nat)
      erfSeries P z k (n + 1) (t * z / 2 ^ P / (n + 1)) (if n % 2 = 1 then acc - u else acc + u)

/-- erf of a finite nonzero magnitude (R77): x·(2/√π)·Σ. Below 11 the terms stay under 2^176, which the wider error covers. -/
def erfFin (n : Bool) (m : Nat) (e : Int) : FVal :=
  if above m e 10 0 then (if n then (nearOne true).negate else nearOne true)
  else refine (fun P =>
    let g := erfSeries P (fixOf P (m * m) (2 * e)) (4 * P) 0 (2 ^ P) 0
    let c := 2 ^ (2 * P + 1) / isqrt (piFix P * 2 ^ P)
    let v := g.toNat * c / 2 ^ P
    pinch n (256 + topBit m) (m * (v - 2 ^ 224)) (m * (v + 2 ^ 224)) (e - P)) 6 1024

/-! ## The functions with their special inputs (R77, R78) -/

/-- What a NaN gives: the canonical NaN, NV when it is signalling (R65). -/
def nanAns (s : Bool) : FVal × Flags := (.nan false, flagIf s fNV)

/-- 1/x. -/
def fnRcp (x : FVal) : FVal × Flags :=
  match x with
  | .nan s => nanAns s
  | x => vDiv (.exact false 1 0) x

/-- 1/√x. -/
def fnRsqrt (x : FVal) : FVal × Flags :=
  match x with
  | .nan s => nanAns s
  | .inf false => (.zero false, 0)
  | .inf true => (.nan false, fNV)
  | .fin n m e _ =>
    if m = 0 then (.inf n, fDZ)
    else if n then (.nan false, fNV)
    else
      let (m, e) := if e % 2 = 0 then (m, e) else (2 * m, e - 1)
      let r := isqrt (2 ^ 1024 / m)
      (.fin false r (-(e / 2) - 512) (decide (r * r * m ≠ 2 ^ 1024)), 0)

/-- e^x or 2^x. -/
def fnExp (two : Bool) (x : FVal) : FVal × Flags :=
  match x with
  | .nan s => nanAns s
  | .inf false => (.inf false, 0)
  | .inf true => (.zero false, 0)
  | .fin n m e _ => if m = 0 then (.exact false 1 0, 0) else (expFin two n m e, 0)

/-- ln x or log2 x. -/
def fnLog (two : Bool) (x : FVal) : FVal × Flags :=
  match x with
  | .nan s => nanAns s
  | .inf false => (.inf false, 0)
  | .inf true => (.nan false, fNV)
  | .fin n m e _ =>
    if m = 0 then (.inf true, fDZ)
    else if n then (.nan false, fNV)
    else if m = 2 ^ topBit m ∧ e + topBit m = 0 then (.zero false, 0)
    else (logFin two m e, 0)

/-- tanh x. -/
def fnTanh (x : FVal) : FVal × Flags :=
  match x with
  | .nan s => nanAns s
  | .inf n => (.exact n 1 0, 0)
  | .fin n m e _ => if m = 0 then (.zero n, 0) else (tanhFin n m e, 0)

/-- erf x. -/
def fnErf (x : FVal) : FVal × Flags :=
  match x with
  | .nan s => nanAns s
  | .inf n => (.exact n 1 0, 0)
  | .fin n m e _ => if m = 0 then (.zero n, 0) else (erfFin n m e, 0)

end Sys2Proof.Machine
end

