-- ==== Sys2Proof/Machine/Crypto.lean ====
section
/-! DEFINITION. Machine/Crypto.lean: Philox-4×32-10 (R74), and Keccak with SHA3-256, SHA3-384 and KMAC128 (R191, R192, R399). -/

namespace Sys2Proof.Machine

/-! ## Philox-4×32-10 (R74) -/

/-- The 128-bit counter of Philox. -/
structure Ctr where
  x0 : BitVec 32
  x1 : BitVec 32
  x2 : BitVec 32
  x3 : BitVec 32
  deriving DecidableEq, Repr

/-- High and low halves of a 32 by 32 product. -/
def mulHiLo (a b : BitVec 32) : BitVec 32 × BitVec 32 :=
  let p := a.toNat * b.toNat
  (BitVec.ofNat 32 (p / 2 ^ 32), BitVec.ofNat 32 p)

/-- Rounds of Philox with their key increments. -/
def philoxRounds : Nat → BitVec 32 → BitVec 32 → Ctr → Ctr
  | 0, _, _, c => c
  | n + 1, k0, k1, c =>
    let (h0, l0) := mulHiLo 0xD2511F53 c.x0
    let (h1, l1) := mulHiLo 0xCD9E8D57 c.x2
    philoxRounds n (k0 + 0x9E3779B9) (k1 + 0xBB67AE85) ⟨h1 ^^^ c.x1 ^^^ k0, l1, h0 ^^^ c.x3 ^^^ k1, l0⟩

/-- Philox-4×32-10. -/
def philox (key : Word) (c : Ctr) : Ctr := philoxRounds 10 (key.extractLsb' 0 32) (key.extractLsb' 32 32) c

/-! ## Keccak-f[1600] (FIPS 202) -/

/-- Lane `i` of 25: x + 5y. -/
def lane (st : List Word) (i : Nat) : Word := st.getD i 0

/-- The rotation offsets of ρ, by lane. -/
def rhoOffsets : List Nat :=
  [0, 1, 62, 28, 27, 36, 44, 6, 55, 20, 3, 10, 43, 25, 39, 41, 45, 15, 21, 8, 18, 2, 61, 56, 14]

/-- The round constants of ι. -/
def iotaConsts : List Word :=
  [0x0000000000000001, 0x0000000000008082, 0x800000000000808A, 0x8000000080008000, 0x000000000000808B, 0x0000000080000001,
   0x8000000080008081, 0x8000000000008009, 0x000000000000008A, 0x0000000000000088, 0x0000000080008009, 0x000000008000000A] ++
  [0x000000008000808B, 0x800000000000008B, 0x8000000000008089, 0x8000000000008003, 0x8000000000008002, 0x8000000000000080,
   0x000000000000800A, 0x800000008000000A, 0x8000000080008081, 0x8000000000008080, 0x0000000080000001, 0x8000000080008008]

/-- One round of Keccak-f[1600]. -/
def keccakRound (st : List Word) (rc : Word) : List Word :=
  let c := (List.range 5).map fun x => lane st x ^^^ lane st (x + 5) ^^^ lane st (x + 10) ^^^ lane st (x + 15) ^^^ lane st (x + 20)
  let d := (List.range 5).map fun x => lane c ((x + 4) % 5) ^^^ (lane c ((x + 1) % 5)).rotateLeft 1
  let th := (List.range 25).map fun i => lane st i ^^^ lane d (i % 5)
  let b := (List.range 25).map fun i =>
    let x := i % 5
    let y := i / 5
    let j := (x + 3 * y) % 5 + 5 * x
    (lane th j).rotateLeft (rhoOffsets.getD j 0)
  let ch := (List.range 25).map fun i =>
    let y := i / 5 * 5
    lane b i ^^^ (~~~ (lane b (y + (i + 1) % 5)) &&& lane b (y + (i + 2) % 5))
  match ch with
  | [] => []
  | h :: t => (h ^^^ rc) :: t

/-- Keccak-f[1600]. -/
def keccakF (st : List Word) : List Word := iotaConsts.foldl keccakRound st

/-- XOR a block of bytes into the state. -/
def absorb (st : List Word) (bs : List Byte) : List Word :=
  (List.range 25).map fun i => lane st i ^^^ BitVec.ofNat 64 (ofLeBytes ((bs.drop (8 * i)).take 8))

/-- Absorb whole blocks of `rate` bytes. -/
def absorbAll (rate : Nat) : Nat → List Word → List Byte → List Word
  | 0, st, _ => st
  | n + 1, st, bs => absorbAll rate n (keccakF (absorb st (bs.take rate))) (bs.drop rate)

/-- The sponge with a domain byte: pad, absorb, and squeeze up to one block. -/
def sponge (rate : Nat) (dom : Byte) (bs : List Byte) (out : Nat) : List Byte :=
  let gap := rate - bs.length % rate
  let pad := if gap = 1 then [dom ||| 0x80] else dom :: (List.replicate (gap - 2) 0 ++ [(0x80 : Byte)])
  let all := bs ++ pad
  let st := absorbAll rate (all.length / rate) (List.replicate 25 0) all
  (st.flatMap fun w => leBytes 8 w.toNat).take out

/-- SHA3-256 (FIPS 202). -/
def sha3_256 (bs : List Byte) : List Byte := sponge 136 0x06 bs 32

/-- SHA3-384 (FIPS 202). -/
def sha3_384 (bs : List Byte) : List Byte := sponge 104 0x06 bs 48

/-! ## KMAC128 (SP 800-185) -/

/-- The bytes of a number, most significant first, at least one. -/
def beBytes : Nat → Nat → List Byte
  | 0, _ => []
  | n + 1, v => BitVec.ofNat 8 (v / 256 ^ n) :: beBytes n v

/-- How many bytes a number below 2^64 takes. -/
def byteLen (v : Nat) : Nat := if v < 256 then 1 else if v < 65536 then 2 else if v < 16777216 then 3 else 8

/-- left_encode of SP 800-185. -/
def leftEncode (v : Nat) : List Byte := BitVec.ofNat 8 (byteLen v) :: beBytes (byteLen v) v

/-- right_encode of SP 800-185. -/
def rightEncode (v : Nat) : List Byte := beBytes (byteLen v) v ++ [BitVec.ofNat 8 (byteLen v)]

/-- encode_string of SP 800-185. -/
def encodeString (bs : List Byte) : List Byte := leftEncode (8 * bs.length) ++ bs

/-- bytepad of SP 800-185. -/
def bytepad (w : Nat) (bs : List Byte) : List Byte :=
  let x := leftEncode w ++ bs
  x ++ List.replicate ((w - x.length % w) % w) 0

/-- The four bytes of the name KMAC. -/
def kmacName : List Byte := [0x4B, 0x4D, 0x41, 0x43]

/-- KMAC128 with a customization string, of `out` bytes. -/
def kmac128 (key msg custom : List Byte) (out : Nat) : List Byte :=
  let head := bytepad 168 (encodeString kmacName ++ encodeString custom)
  sponge 168 0x04 (head ++ (bytepad 168 (encodeString key) ++ (msg ++ rightEncode (8 * out)))) out

end Sys2Proof.Machine
end

