-- ==== Sys2Proof/Machine/Operands.lean ====
section
/-! DEFINITION. Machine/Operands.lean: the operands of records: descriptors (R61, R248), trip spaces and element indices (R22 to R24, R60), the bytes an element occupies (R60, R67), footprints (R37), and reading and writing elements. -/

namespace Sys2Proof.Machine

/-! ## Descriptors (R248) -/

def descBase (d : BitVec 128) : Nat := (d.extractLsb' 0 24).toNat
def descBound (d : BitVec 128) : Nat := (d.extractLsb' 24 24).toNat
def descFmt (d : BitVec 128) : Fmt := d.extractLsb' 48 6
def descGeom (d : BitVec 128) : Nat := (d.extractLsb' 54 4).toNat
def descSkind (d : BitVec 128) : Nat := (d.extractLsb' 58 4).toNat
def descSbase (d : BitVec 128) : Nat := (d.extractLsb' 64 24).toNat
def descSstride (d : BitVec 128) : Int := (d.extractLsb' 88 16).toInt

/-- The ILLEGAL_FIELD conditions of a descriptor: zero fields, codes, and a scale where the format has none (R61, R248). -/
def descFieldBad (d : BitVec 128) : Bool :=
  decide ((d.extractLsb' 104 24) ≠ 0 ∨ (d.extractLsb' 62 2) ≠ 0 ∨ 2 < descGeom d ∨ 2 < descSkind d) ||
    (!isMx (descFmt d) && decide (descSbase d ≠ 0 ∨ descSstride d ≠ 0))

/-- The FORMAT_MISMATCH conditions of a descriptor used as format `want` (R61, R249). -/
def descFormatBad (want : Fmt) (d : BitVec 128) : Bool :=
  decide (descFmt d ≠ want) || !fmtValid (descFmt d) ||
    !decide ((descGeom d, descSkind d) = if isMx want then (2, 1) else if isPb want then (1, 2) else (0, 0))

/-! ## Trip spaces (R22, R24, R292) -/

/-- A point of the trip space: t0 innermost. -/
structure Point where
  t0 : Nat
  t1 : Nat
  t2 : Nat
  t3 : Nat
  deriving DecidableEq, Repr

/-- Trip `k` of a list of trips. -/
def tripN (ts : List Nat) (k : Nat) : Nat := ts.getD k 1

/-- The active innermost trips under a count predicate (R24). -/
def activeT0 (c : Cap) : Nat := match c.count with | some n => Nat.min n (tripN c.trips 0) | none => tripN c.trips 0

/-- The rows of a trip space in order: every (t1, t2, t3). -/
def rowPoints (ts : List Nat) : List Point :=
  (List.range (tripN ts 3)).flatMap fun t3 => (List.range (tripN ts 2)).flatMap fun t2 =>
    (List.range (tripN ts 1)).map fun t1 => ⟨0, t1, t2, t3⟩

/-- The active points of a row. -/
def rowOf (n0 : Nat) (p : Point) : List Point := (List.range n0).map fun t0 => { p with t0 := t0 }

/-- The active points of the trip space, in ascending linear index (R24, R292). -/
def activePoints (c : Cap) : List Point := (rowPoints c.trips).flatMap (rowOf (activeT0 c))

/-- The linear index of a point (R292). -/
def linIndex (ts : List Nat) (p : Point) : Nat :=
  p.t0 + tripN ts 0 * (p.t1 + tripN ts 1 * (p.t2 + tripN ts 2 * p.t3))

/-- The element index of a slot at a point: offset plus the sum of t_i × stride_i (R23, R60). -/
def slotIndex (o : Slot) (p : Point) : Int :=
  slotOff o + p.t0 * slotStride o 0 + p.t1 * slotStride o 1 + p.t2 * slotStride o 2 + p.t3 * slotStride o 3

/-! ## Footprints (R37, R39, R60) -/

/-- The bytes of element `e` of a stream, relative to its base: first, and one past the last; whole blocks of block formats (R60, R62, R67). -/
def elemSpan (f : Fmt) (e : Nat) : Nat × Nat :=
  if isPb f then (e / 16 * pbBytes f, e / 16 * pbBytes f + pbBytes f)
  else if isMx f then (e / 32 * 4 * fmtBits f, (e / 32 + 1) * 4 * fmtBits f)
  else (e * fmtBits f / 8, (e * fmtBits f + fmtBits f + 7) / 8)

/-- The least and greatest value of an affine index over levels given as (stride, trips). -/
def affineRange (off : Int) : List (Int × Nat) → Int × Int
  | [] => (off, off)
  | (st, n) :: t =>
    let (lo, hi) := affineRange off t
    let d := st * (n - 1 : Nat)
    (if d < 0 then lo + d else lo, if d < 0 then hi else hi + d)

/-- The levels of a slot over a trip space whose innermost trip is `n0`. -/
def slotLevels (o : Slot) (ts : List Nat) (n0 : Nat) : List (Int × Nat) :=
  [(slotStride o 0, n0), (slotStride o 1, tripN ts 1), (slotStride o 2, tripN ts 2), (slotStride o 3, tripN ts 3)]

/-- The scale footprint of the blocks from element `lo` to element `hi` of an MX stream (R37, R61); none when a scale byte lies below address 0 (log 123, DESIGN CHOICE). -/
def scaleFoot (d : BitVec 128) (lo hi : Nat) (w : Bool) : Option Foot :=
  let a : Int := descSbase d + (lo / 32 : Nat) * descSstride d
  let b : Int := descSbase d + (hi / 32 : Nat) * descSstride d
  let m := if a ≤ b then a else b
  let x := if a ≤ b then b else a
  if m < 0 then none else some ⟨m.toNat, x.toNat + 1, w⟩

/-- The footprints of a stream whose element indices run from `lo` to `hi`: none when a byte lies outside the descriptor's bound (R37, R39, R60). -/
def rangeFoots (d : BitVec 128) (lo hi : Int) (w : Bool) : Option (List Foot) :=
  if lo < 0 then none
  else
    let x := (elemSpan (descFmt d) lo.toNat).1
    let y := (elemSpan (descFmt d) hi.toNat).2
    if descBound d < y then none
    else
      let main : Foot := ⟨descBase d + x, descBase d + y, w⟩
      if isMx (descFmt d) then (scaleFoot d lo.toNat hi.toNat w).map fun f => [main, f] else some [main]

/-- The footprints of an operand over given levels; nothing active, nothing touched (R24, R37). -/
def levelFoots (o : Operand) (ls : List (Int × Nat)) (w : Bool) : Option (List Foot) :=
  match o with
  | .stream d sl =>
    if ls.any fun l => decide (l.2 = 0) then some []
    else let (lo, hi) := affineRange (slotOff sl) ls; rangeFoots d lo hi w
  | _ => some []

/-- The footprints of an operand over the record's active trip space. -/
def streamFoots (o : Operand) (c : Cap) (w : Bool) : Option (List Foot) :=
  match o with
  | .stream _ sl => levelFoots o (slotLevels sl c.trips (activeT0 c)) w
  | _ => some []

/-- The bytes of element `e` relative to its stream's base, an element before the base included (R60). -/
def elemReach (f : Fmt) (e : Int) : Int × Int :=
  if e < 0 then (e * fmtBits f / 8, (e * fmtBits f + fmtBits f + 7) / 8) else ((elemSpan f e.toNat).1, (elemSpan f e.toNat).2)

/-- The bytes that a stream's active elements occupy, whatever its bound (R37, R297): what an overlap is judged on. -/
def streamReach (o : Operand) (c : Cap) : List (Int × Int) :=
  match o with
  | .stream d sl =>
    let ls := slotLevels sl c.trips (activeT0 c)
    if ls.any fun l => decide (l.2 = 0) then []
    else
      let (lo, hi) := affineRange (slotOff sl) ls
      [(descBase d + (elemReach (descFmt d) lo).1, descBase d + (elemReach (descFmt d) hi).2)]
  | _ => []

/-- A table operand's footprint is its descriptor's whole range; a bound of zero leaves no byte (R297). -/
def tableFoots (o : Operand) (w : Bool) : Option (List Foot) :=
  match o with
  | .stream d _ => some (if descBound d = 0 then [] else [⟨descBase d, descBase d + descBound d, w⟩])
  | _ => some []

/-- All of several answers, or none. -/
def allFoots : List (Option (List Foot)) → Option (List Foot)
  | [] => some []
  | none :: _ => none
  | some f :: t => (allFoots t).map (f ++ ·)

/-- Two footprints meet, and one of them is a write (R38). -/
def Foot.conflicts (a b : Foot) : Bool := decide (a.lo < b.hi ∧ b.lo < a.hi) && (a.w || b.w)

/-- A footprint and an interval of bytes share one. -/
def Foot.overlaps (a : Foot) (b : Int × Int) : Bool := decide (a.lo < b.2 ∧ b.1 < a.hi ∧ b.1 < b.2)

/-! ## Reading and writing elements (R60, R61, R66 to R68) -/

/-- `n` bits from bit `bit` of the string that starts at byte `base` (R60). -/
def readBits (m : Mem) (base bit n : Nat) : Nat := m.read (base + bit / 8) ((bit % 8 + n + 7) / 8) / 2 ^ (bit % 8) % 2 ^ n

/-- The bit at which element `e` of a format starts: its place in the string, or in its block's string of PB (R60, R67). -/
def elemBit (f : Fmt) (e : Nat) : Nat :=
  if isPb f then 8 * (e / 16 * pbBytes f + 2) + e % 16 * fieldBits f else e * fmtBits f

/-- The bits of element `e` of a stream at `base`. -/
def elemBits (m : Mem) (base : Nat) (f : Fmt) (e : Nat) : Nat := readBits m base (elemBit f e) (fieldBits f)

/-- The bytes that writing `n` bits at bit `bit` leaves: first byte and contents; the bytes' other bits keep their value (R60). -/
def putBits (m : Mem) (base bit n v : Nat) : Nat × List Byte :=
  let a := base + bit / 8
  let k := (bit % 8 + n + 7) / 8
  let old := m.read a k
  let lo := bit % 8
  (a, leBytes k (old / 2 ^ (lo + n) * 2 ^ (lo + n) + v % 2 ^ n * 2 ^ lo + old % 2 ^ lo))

/-- Write element `e` of a stream in a logical core's scratchpad. -/
def State.putElem (s : State) (lc base : Nat) (f : Fmt) (e v : Nat) : State :=
  let (a, bs) := putBits (s.lcoreAt lc).sp base (elemBit f e) (fieldBits f) v
  s.spPut lc a bs

/-- The scale byte's address of element `e` of an MX stream (R61). -/
def scaleAddr (d : BitVec 128) (e : Nat) : Nat := ((descSbase d : Int) + (e / 32 : Nat) * descSstride d).toNat

/-- The element index of a stream operand at a point, as a natural number: dispatch has refused a negative one (R60). -/
def Operand.index (o : Operand) (p : Point) : Nat :=
  match o with
  | .stream _ sl => (slotIndex sl p).toNat
  | _ => 0

/-- The bits that an operand of format `f` gives at a point: a stream's element, or a broadcast value's low bits (R23). -/
def Operand.bits (m : Mem) (f : Fmt) (p : Point) : Operand → Nat
  | .none => 0
  | .stream d sl => elemBits m (descBase d) f (slotIndex sl p).toNat
  | .scalar v => v.toNat % 2 ^ fmtBits f

/-- The broadcast value of an operand. -/
def Operand.val : Operand → Word
  | .scalar v => v
  | _ => 0

/-- The operand is absent. -/
def Operand.absent : Operand → Bool
  | .none => true
  | _ => false

/-- The operand is a stream. -/
def Operand.isStream : Operand → Bool
  | .stream .. => true
  | _ => false

/-- The descriptor of a stream operand. -/
def Operand.desc : Operand → BitVec 128
  | .stream d _ => d
  | _ => 0

/-- The slot of a stream operand. -/
def Operand.slot : Operand → Slot
  | .stream _ sl => sl
  | _ => ⟨0, 0, 0, 0⟩

/-- The spans of bytes an operand touches at a list of points. -/
def Operand.spans (o : Operand) (ps : List Point) : List (Nat × Nat) :=
  match o with
  | .stream d sl => ps.flatMap fun p =>
      let e := (slotIndex sl p).toNat
      let (x, y) := elemSpan (descFmt d) e
      if isMx (descFmt d) then [(descBase d + x, descBase d + y), (scaleAddr d e, scaleAddr d e + 1)] else [(descBase d + x, descBase d + y)]
  | _ => []

end Sys2Proof.Machine
end

