-- ==== Sys2Proof/Machine/Records.lean ====
section
/-! DEFINITION. Machine/Records.lean: dispatch of records and entries: what is captured (R22 to R24, R57), the checks in their order (R254), the queues (R35) and the range checker (R37 to R39). -/

namespace Sys2Proof.Machine

/-! ## Capture -/

/-- The value of a slot of kind 01, 10 or 11 (R23). -/
def State.slotVal (s : State) (o : Slot) : Word :=
  match o.kind.toNat with
  | 1 => s.me.reg o.idx
  | 2 => match s.vrAt s.myVrId with
    | some v => sget 0 v.k o.mid.toNat
    | none => 0
  | _ => o.low

/-- Capture a slot (R23, R248, R323): nothing for an unused slot or an absent optional value. -/
def State.capture (s : State) (u : SlotUse) (o : Slot) : Operand :=
  match u with
  | .unused => .none
  | .valueOpt => if slotZero o then .none else .scalar (s.slotVal o)
  | _ => if o.kind = 0 then .stream (s.me.sdesc o.idx.toNat) o else .scalar (s.slotVal o)

/-- The value of a trip field (R22, R245). -/
def State.trip (s : State) (flag : Bool) (t : BitVec 16) : Nat := if flag then (s.me.reg (t.setWidth 5)).toNat else t.toNat

/-- The four trips of a record. -/
def State.trips (s : State) (r : Rec) : List Nat :=
  [s.trip (r.tflag.getLsbD 0) r.t0, s.trip (r.tflag.getLsbD 1) r.t1, s.trip (r.tflag.getLsbD 2) r.t2, s.trip (r.tflag.getLsbD 3) r.t3]

/-- The registers a record reads at dispatch: trip registers and kind-01 operands (R57). -/
def recRegs (r : Rec) : List Reg :=
  let tr (flag : Bool) (t : BitVec 16) : List Reg := if flag then [t.setWidth 5] else []
  let sl (o : Slot) : List Reg := if o.kind = 1 then [o.idx] else []
  tr (r.tflag.getLsbD 0) r.t0 ++ tr (r.tflag.getLsbD 1) r.t1 ++ tr (r.tflag.getLsbD 2) r.t2 ++ tr (r.tflag.getLsbD 3) r.t3 ++
    sl r.d ++ sl r.a ++ sl r.b ++ sl r.c

/-- What a record captures at dispatch. -/
def State.capRec (s : State) (p : RecSpec) (r : Rec) : Cap :=
  { trips := s.trips r, d := s.capture p.d r.d, a := s.capture p.a r.a, b := s.capture p.b r.b, c := s.capture p.c r.c,
    count := if r.pe then some (s.me.cnt r.psel.toNat).count.toNat else none,
    salt := s.me.srsalt, nbv := s.me.nbv, region := s.me.region, vals := [] }

/-! ## Queues and the range checker -/

/-- The engines in the order of their queues. -/
def engines : List Engine := [.v, .m, .t, .f, .c]

/-- Every incomplete record of a core. -/
def Core.entries (c : Core) : List Entry := engines.flatMap fun e => (c.engine e).all

/-- The remote operations of a core whose answers are outstanding. -/
def State.coreRops (s : State) (core : Nat) : List ROp :=
  s.rops.filter fun o => !o.cancel && decide (s.coreOf o.ref.task o.ref.lcore = core)

/-- The entries of a core's range checker in use (R39). -/
def State.checkerUsed (s : State) (core : Nat) : Nat :=
  ((s.coreAt core).entries.filter fun e => !e.foots.isEmpty).length + ((s.coreRops core).filter fun o => !o.foots.isEmpty).length

/-- The depth of a queue (R35). -/
def depth : Engine → Nat
  | .v => 32 | .m => 16 | .t => 32 | .f => 64 | .c => 16

/-- The records that take a slot of an engine's queue: a class 7 word keeps its slot until its packets are injected (R35, R214). -/
def EngineQ.taken (e : Engine) (q : EngineQ) : Nat := q.q.length + (if e = .f ∧ q.run.isSome then 1 else 0)

/-- The queue is full, or the range checker is for a record with footprints (R35, R39). -/
def State.noRoom (s : State) (e : Engine) (foots : List Foot) : Bool :=
  decide (depth e ≤ ((s.coreAt s.myCore).engine e).taken e) || (!foots.isEmpty && decide (64 ≤ s.checkerUsed s.myCore))

/-- Put an entry at the end of a queue of the issuing strand's core (R35). -/
def State.push (s : State) (e : Engine) (x : Entry) : State :=
  s.onCore s.myCore fun c => c.setEngine e { c.engine e with q := (c.engine e).q ++ [x] }

/-- Dispatch a record or entry: the strand blocks while there is no room, else the record enters its queue and the strand goes on (R35, R39). -/
def State.enqueue (s : State) (e : Engine) (i : Instr) (c : Cap) (foots : List Foot) (len : BitVec 53) : State :=
  if s.noRoom e foots then s.block
  else ((s.push e ⟨s.cur, s.me.sid, s.uid, s.me.pc, i, c, foots⟩).tickUid).onMe fun t => t.retire len

/-! ## Checks (R254) -/

/-- A trip from a register lies outside 1 to 65,535 (R22). -/
def tripsBad (ts : List Nat) : Bool := ts.any fun t => decide (t = 0 ∨ 65535 < t)

/-- A check on every stream among the captured operands. -/
def Cap.anyDesc (c : Cap) (f : BitVec 128 → Bool) : Bool :=
  [c.d, c.a, c.b, c.c].any fun o => match o with | .stream d _ => f d | _ => false

/-- The predicate's width code is not that of the record's type (R267). -/
def State.predBad (s : State) (r : Rec) : Bool :=
  r.pe && decide (r.type ≠ 0) && decide ((s.me.cnt r.psel.toNat).width ≠ widthCode (fmtBits r.type))

/-- The formats that an entry requires of its streams D, A, B and C. -/
structure Wants where
  d : Fmt
  a : Fmt
  b : Fmt
  c : Fmt

/-- Every stream has the record's type (R249). -/
def wantAll (r : Rec) : Wants := ⟨r.type, r.type, r.type, r.type⟩

/-- A stream's descriptor does not agree with its format (R61, R249). -/
def Operand.formatBad (o : Operand) (f : Fmt) : Bool :=
  match o with
  | .stream d _ => descFormatBad f d
  | _ => false

/-- Some stream's descriptor does not agree with its format. -/
def Cap.formatsBad (c : Cap) (w : Wants) : Bool :=
  c.d.formatBad w.d || c.a.formatBad w.a || c.b.formatBad w.b || c.c.formatBad w.c

/-- The status word's footprint (R247). -/
def statFoot (r : Rec) : List Foot := if r.se then [⟨r.stat.toNat * 8, r.stat.toNat * 8 + 8, true⟩] else []

/-- A footprint passes the quota (R39). -/
def footsPast (q : Nat) (l : List Foot) : Bool := l.any fun f => decide (q < f.hi)

/-- The footprints with the status word's, or none when one passes its bound or the quota (R39, R247). -/
def State.quotaFoots (s : State) (r : Rec) (fs : Option (List Foot)) : Option (List Foot) :=
  match fs with
  | some l => if footsPast s.myQuota (l ++ statFoot r) then none else some (l ++ statFoot r)
  | none => none

/-- What an entry's own checks are, each in its place of R254's order: true where the condition is broken. -/
structure Checks where
  priv    : Bool := false
  region  : Bool := false
  det     : Bool := false
  fields  : Bool := false
  types   : Bool := false
  align   : Option Word := none
  late    : Bool := false
  held    : List (Nat × Nat) := []
  extra   : Nat := 0

/-- Adding the held footprint would need a 257th entry of the region store buffer (R43). (log 16, DEDUCED) -/
def State.rsbOver (s : State) (bs : List (Nat × Nat)) (extra : Nat) : Bool :=
  s.me.region && decide (256 < (heldBlocks s.me.rsb ++ bs).eraseDups.length + extra)

/-- The checks 4 to 12 of a record, in order (R254). -/
def State.recChk (s : State) (r : Rec) (c : Cap) (w : Wants) (k : Checks) (foots : Option (List Foot)) : Option Trap :=
  (chk k.priv cPriv).or <|
  (chk (k.region && s.me.region) cRegion).or <|
  (chk k.det cDeterminism).or <|
  (s.me.chkPois (recRegs r)).or <|
  (chk (tripsBad c.trips || c.anyDesc descFieldBad || k.fields) cIllegalField).or <|
  (chk (k.types || s.predBad r || c.formatsBad w) cFormat).or <|
  (k.align.map fun va => { cause := cMisaligned, va := va }).or <|
  (chk foots.isNone cSpad).or <|
  (chk k.late cIllegalField).or <|
  (chk (s.rsbOver k.held k.extra) cCapacity)

/-- Dispatch a record: its checks, then its queue (R35, R254). -/
def State.dispatchRec (s : State) (e : Engine) (cls : BitVec 4) (i : Instr) (r : Rec) (c : Cap) (w : Wants) (k : Checks)
    (foots : Option (List Foot)) : State :=
  let fs := s.quotaFoots r foots
  s.checked cls (s.recChk r c w k fs) fun s => s.enqueue e i c (fs.getD []) 8

/-! ## Leaving a queue (R35, R38, R251) -/

/-- The record's ordering class. -/
def ordClass (i : Instr) : Option (BitVec 4) :=
  match recPlan i with
  | some (r, _, _) => some r.cls
  | none =>
    match i with
    | .rld _ _ _ _ _ m | .rst _ _ _ _ _ m | .rsth _ _ _ _ _ _ m | .ratom _ _ _ _ _ _ m | .rcas _ _ _ _ _ m
    | .rmcast _ _ _ m | .rred _ _ _ _ _ m => some m.cls
    | .rcopy _ _ _ _ _ cls _ => some cls
    | .rfence | .rprobe .. | .rfeat .. | .grant .. | .revoke .. => some 0
    | _ => none

/-- An older record of the same strand in another queue, incomplete, conflicts with `x` (R38). -/
def State.conflicting (s : State) (core : Nat) (e : Engine) (x : Entry) : Bool :=
  let c := s.coreAt core
  (engines.any fun g => decide (g ≠ e) && (c.engine g).all.any fun y =>
    decide (y.sid = x.sid ∧ y.uid < x.uid) && y.foots.any fun f => x.foots.any f.conflicts) ||
  (decide (e ≠ .f) && s.rops.any fun o =>
    decide (o.sid = x.sid ∧ o.uid < x.uid) && o.foots.any fun f => x.foots.any f.conflicts)

/-! ## Ends of records (R55, R247, R256) -/

/-- The strand instance of a running record still stands. -/
def State.ownerAlive (s : State) (x : Entry) : Bool := s.alive x.ref x.sid

/-- Leave ENGINE_ERROR pending for the record's strand (R54 to R56). -/
def State.engineError (s : State) (x : Entry) (cls : BitVec 4) : State :=
  s.addErr x.ref x.sid ⟨x.uid, cEngine, cls, pcWord x.pc⟩

/-- Write a record's status word, after its results (R247). -/
def State.putStatus (s : State) (x : Entry) (r : Rec) (w : Word) : State :=
  if r.se then s.spPut (lckey x.ref.task x.ref.lcore) (r.stat.toNat * 8) (leBytes 8 w.toNat) else s

/-- The engine is idle again (R35). -/
def State.endRun (s : State) (core : Nat) (e : Engine) : State :=
  (s.onCore core fun c => c.setEngine e { c.engine e with run := none })

/-- Change the record an engine runs. -/
def State.onRun (s : State) (core : Nat) (e : Engine) (f : Run → Run) : State :=
  s.onCore core fun c => c.setEngine e { c.engine e with run := (c.engine e).run.map f }

/-- All that a record's random words are drawn from: the VR's seed, the logical core, the word address, the salt and the step number, none of them physical and none a time (R74, R228, R229). -/
structure Draws where
  seed  : BitVec 64
  lcore : Nat
  pc    : BitVec 53
  salt  : BitVec 32
  step  : BitVec 32
  deriving DecidableEq, Repr

/-- The random words for destination element `x0` (R74). -/
def Draws.word (d : Draws) (x0 : Nat) : Ctr :=
  philox d.seed ⟨BitVec.ofNat 32 x0, BitVec.ofNat 16 d.lcore ++ d.pc.setWidth 16, d.salt, d.step⟩

/-- What a record draws from. -/
def State.drawsOf (s : State) (x : Entry) : Draws :=
  let t := s.taskAt x.ref.task
  { seed := (match s.vrAt t.vr with | some v => v.seed | none => 0), lcore := x.ref.lcore, pc := x.pc, salt := x.cap.salt, step := t.step }

/-- The random words of a record for destination element `x0` (R74, R319). -/
def State.randomOf (s : State) (x : Entry) (x0 : Nat) : Ctr := (s.drawsOf x).word x0

/-- y0 of R74. -/
def State.y0 (s : State) (x : Entry) (x0 : Nat) : Nat := (s.randomOf x x0).x0.toNat

/-- The unfilled regions of a logical core that spans of bytes meet (R93). -/
def LCore.unfilledIn (l : LCore) (spans : List (Nat × Nat)) : List Nat :=
  (l.regions.filter fun e => decide (e.2.st = .unfilled) && spans.any fun p => e.2.meets p.1 p.2).map (·.1)

/-- Fill what a record's accesses touch (R93, R297). -/
def State.touchSpans (s : State) (lc : Nat) (spans : List (Nat × Nat)) : State × XR Unit :=
  if spans.any fun p => s.spWaking lc p.1 p.2 then (s, .wait) else State.fillAll lc ((s.lcoreAt lc).unfilledIn spans) s

end Sys2Proof.Machine
end

