-- ==== Sys2Proof/Machine/Blocks.lean ====
section
/-! DEFINITION. Machine/Blocks.lean: decoding elements of MX and PB streams (R66 to R68) and encoding whole blocks (R62, R66, R69, R354). -/

namespace Sys2Proof.Machine

/-! ## Decoding -/

/-- Scale a value by 2^k. -/
def FVal.scale (k : Int) : FVal → FVal
  | .fin n m e t => .fin n m (e + k) t
  | x => x

/-- The value of an MX element under its E8M0 byte (R66). -/
def mxVal (f : Fmt) (x bits : Nat) : FVal := if x = 255 then .nan false else (decodeVal f bits).scale (x - 127)

/-- The value of element `i` of a PB block with shared exponent and micro-exponents (R68). -/
def pbVal (f : Fmt) (E mu i bits : Nat) : FVal :=
  if E = 255 then .nan false
  else
    let m := pbMag f
    .exact (decide (bits / 2 ^ m % 2 = 1)) (bits % 2 ^ m) ((E : Int) - 127 - (mu / 2 ^ (i / 2) % 2 : Nat) - (m - 1 : Nat))

/-- The value of element `e` of a stream (R63 to R68). -/
def streamVal (m : Mem) (d : BitVec 128) (f : Fmt) (e : Nat) : FVal :=
  let b := elemBits m (descBase d) f e
  if isMx f then mxVal f (m.byte (scaleAddr d e)).toNat b
  else if isPb f then
    let blk := descBase d + e / 16 * pbBytes f
    pbVal f (m.byte blk).toNat (m.byte (blk + 1)).toNat (e % 16) b
  else decodeVal f b

/-- The value that an operand of format `f` gives at a point. -/
def Operand.fval (m : Mem) (f : Fmt) (p : Point) : Operand → FVal
  | .none => .zero false
  | .stream d sl => streamVal m d f (slotIndex sl p).toNat
  | .scalar v =>
    let b := v.toNat % 2 ^ fmtBits f
    if isX f then decodeVal fF64 (Config.loneElement f.toNat b).toNat else decodeVal f b

/-! ## Encoding -/

/-- floor(log2) of the greatest magnitude among finite values; none when all are zero. -/
def topOf (l : List FVal) : Option Int :=
  l.foldl (fun best x => match x with
    | .fin _ m e _ => if m = 0 then best
        else match best with
          | none => some (e + topBit m)
          | some b => some (if b < e + topBit m then e + topBit m else b)
    | _ => best) none

/-- Some value is a NaN or infinite. -/
def anySpecial (l : List FVal) : Bool := l.any fun x => x.isNan || x.isInf

/-- emax of an MX element format (R66). -/
def mxEmax (f : Fmt) : Int :=
  match f.toNat with
  | 0x20 => 8 | 0x21 => 15 | 0x22 => 2 | 0x23 => 4 | _ => 2

/-- Clamp an integer. -/
def clampTo (lo hi i : Int) : Int := if i < lo then lo else if hi < i then hi else i

/-- The E8M0 byte of a block whose greatest magnitude has this exponent (R66). -/
def mxScale (f : Fmt) (top : Int) : Int := clampTo 0 254 (top - mxEmax f + 127)

/-- One element of an MX block from x / 2^(X−127) (R66, R354). -/
def mxElem (f : Fmt) (ovf : Bool) (rm : RMode) (y0 : Nat) (x : FVal) : Nat × Flags :=
  match x with
  | .fin n m e st =>
    let big := decide (m ≠ 0 ∧ mxEmax f + 1 ≤ e + topBit m)
    let bit := big && ovf && decide (f.toNat = 0x21)
    let (b, fl) := deliver f (.bit bit) rm y0 (.fin n m e st)
    (b, if !big && decide (fl &&& fOF ≠ 0) then fl &&& ~~~ fSAT else fl)
  | _ => (0, 0)

/-- Encode an MX block: scale byte, elements, flags; inactive elements are zero (R62, R66). -/
def mxEncode (f : Fmt) (ovf : Bool) (rm : RMode) (y0 : Nat → Nat) (xs : List (Option FVal)) : Nat × List Nat × Flags :=
  let act := xs.filterMap id
  if anySpecial act then (255, xs.map fun _ => 0, fNV)
  else
    match topOf act with
    | none => (0, xs.map fun _ => 0, 0)
    | some top =>
      let X := mxScale f top
      let rs := xs.zipIdx.map fun (x, i) => match x with
        | none => ((0 : Nat), (0 : Flags))
        | some v => mxElem f ovf rm (y0 i) (v.scale (127 - X))
      (X.toNat, rs.map (·.1), orFlags (rs.map (·.2)))

/-- q(x, μ) rounded to an integer in a mode, with whether it is inexact (R69): |x| × 2^(m−1) / 2^(E−127−μ). (log 59, DEDUCED) -/
def pbQ (f : Fmt) (E : Int) (mu : Nat) (rm : RMode) (y0 : Nat) (x : FVal) : Nat × Bool :=
  match x with
  | .fin _ m e st => roundQ rm false y0 m (e + (pbMag f - 1 : Nat) - (E - 127 - mu)) 0 st
  | _ => (0, false)

/-- The greatest magnitude of a list of finite values. -/
def maxAbs (l : List FVal) : FVal :=
  l.foldl (fun a b => if vCmp a.abs b.abs = some .lt then b.abs else a) (.zero false)

/-- The shared exponent of a PB block (R69). -/
def pbExp (f : Fmt) (M : FVal) (top : Int) : Int :=
  let E := top + 127
  let E := if (pbQ f E 0 .rne 0 M).1 = 2 ^ pbMag f then E + 1 else E
  clampTo 0 254 E

/-- Encode a PB block: shared exponent, micro-exponents, element fields, flags (R69); OF where the rounded element passes the format's largest magnitude (R67, R75). -/
def pbEncode (f : Fmt) (rm : RMode) (y0 : Nat → Nat) (xs : List FVal) : Nat × Nat × List Nat × Flags :=
  let m := pbMag f
  if anySpecial xs then (255, 0, xs.map fun _ => 0, fNV)
  else
    match topOf xs with
    | none => (0, 0, xs.map fun _ => 0, 0)
    | some top =>
      let E := pbExp f (maxAbs xs) top
      let mus := (List.range 8).map fun j =>
        if (pbQ f E 1 .rne 0 (maxAbs ((xs.drop (2 * j)).take 2))).1 ≤ 2 ^ m - 1 then 1 else 0
      let rs := xs.zipIdx.map fun (x, i) =>
        let (g, inexact) := pbQ f E (mus.getD (i / 2) 0) rm (y0 i) x
        let sat := decide (2 ^ m - 1 < g)
        let g' := if sat then 2 ^ m - 1 else g
        let big := sat && decide (E = 254 ∧ mus.getD (i / 2) 0 = 0)
        let fl := flagIf sat fSAT ||| flagIf big fOF ||| flagIf (inexact || sat) fNX ||| flagIf (decide (E = 0 ∧ g' = 0) && !x.isZero) fUF
        ((if g' ≠ 0 ∧ x.neg then 2 ^ m else 0) + g', fl)
      let mu := mus.zipIdx.foldl (fun acc (b, j) => acc + b * 2 ^ j) 0
      (E.toNat, mu, rs.map (·.1), orFlags (rs.map (·.2)))

end Sys2Proof.Machine
end

