-- ==== Sys2Proof/Machine/Vector.lean ====
section
/-! DEFINITION. Machine/Vector.lean: what each class 4 record computes from its operands (R292 to R319): the elements it writes and the flags it raises. -/

namespace Sys2Proof.Machine

/-! ## The run of a record -/

/-- All that a record's results may depend on: what it captured at dispatch, the scratchpad its sources are read from, the record, rounding mode and overflow bit, and what its random words are drawn from (R292, R296). No effect of a class 4 record sees the state, so placement, bin, timing and sched.detmode reach no result (R228 to R230). -/
structure VCtx where
  m   : Mem
  c   : Cap
  d   : Draws
  r   : Rec
  rm  : RMode
  ovf : Bool

/-- Bits to write: a bit string's base byte, the bit in it, how many bits, their value (R60). -/
structure Put where
  base : Nat
  bit  : Nat
  n    : Nat
  v    : Nat
  deriving DecidableEq, Repr

/-- What a record writes, in order, and the flags it raises. -/
structure VOut where
  puts  : List Put
  flags : Flags
  deriving DecidableEq, Repr

/-- The record's type. -/
def VCtx.ty (v : VCtx) : Fmt := v.r.type

/-- The record's second type. -/
def VCtx.ty2 (v : VCtx) : Fmt := v.r.type2

/-- y0 for destination element `e`, drawn only under SR (R73, R74). -/
def VCtx.y0 (v : VCtx) (e : Nat) : Nat := if v.rm = .sr then (v.d.word e).x0.toNat else 0

/-- The mode of reductions: RNE under SR (R73, R296). -/
def VCtx.rmRed (v : VCtx) : RMode := if v.rm = .sr then .rne else v.rm

/-- Round-down is in force, for the sign of a zero sum. -/
def VCtx.rdn (v : VCtx) : Bool := decide (v.rm = .rdn)

/-- The bits of an operand at a point, in format `f`. -/
def VCtx.bits (v : VCtx) (o : Operand) (f : Fmt) (p : Point) : Nat := o.bits v.m f p

/-- The value of an operand at a point, in format `f`. -/
def VCtx.val (v : VCtx) (o : Operand) (f : Fmt) (p : Point) : FVal := o.fval v.m f p

/-- The integer of an operand at a point. -/
def VCtx.int (v : VCtx) (o : Operand) (p : Point) : Int := intOf v.ty (v.bits o v.ty p)

/-- Write element `e` of a stream operand. -/
def putAt (o : Operand) (e v : Nat) : Put := ⟨descBase o.desc, elemBit (descFmt o.desc) e, fieldBits (descFmt o.desc), v⟩

/-- Write the element of D at a point. -/
def VCtx.put (v : VCtx) (p : Point) (b : Nat) : Put := putAt v.c.d (v.c.d.index p) b

/-- Round a result to the type in the record's mode for destination element `e` (R75, R296). -/
def VCtx.round (v : VCtx) (e : Nat) (r : FVal × Flags) : Nat × Flags :=
  let (b, f) := deliver v.ty (ovfOf v.ty v.ovf) v.rm (v.y0 e) r.1
  (b, f ||| r.2)

/-- Round inside a reduction (R73). -/
def VCtx.roundRed (v : VCtx) (rm : RMode) (r : FVal × Flags) : Nat × Flags :=
  let (b, f) := deliver v.ty (ovfOf v.ty v.ovf) rm 0 r.1
  (b, f ||| r.2)

/-- An element-wise record: `f` gives the bits and flags at a point with its D index (R292). -/
def VCtx.each (v : VCtx) (f : Point → Nat → Nat × Flags) : VOut :=
  let rs := (activePoints v.c).map fun p =>
    let (b, fl) := f p (v.c.d.index p)
    (v.put p b, fl)
  ⟨rs.map (·.1), orFlags (rs.map (·.2))⟩

/-- A record that writes one element a row at t0 = 0 from the row's active points (R310). -/
def VCtx.rows (v : VCtx) (f : List Point → Nat × Flags) : VOut :=
  let rs := (rowPoints v.c.trips).map fun p =>
    let (b, fl) := f (rowOf (activeT0 v.c) p)
    (v.put p b, fl)
  ⟨rs.map (·.1), orFlags (rs.map (·.2))⟩

/-- A NaN of an F or N format becomes canonical; every other pattern is unchanged (R296). -/
def canon (f : Fmt) (b : Nat) : Nat := if (fparam f).isSome && (decodeVal f b).isNan then nanBits f else b

/-! ## Integer arithmetic (R301) -/

/-- Wrap an exact integer, or saturate it under .sat (R301). -/
def VCtx.narrow (v : VCtx) (i : Int) : Nat × Flags :=
  if v.r.ctl.getLsbD 0 then
    let (j, c) := clampInt (intRange v.ty) i
    (intBits v.ty j, flagIf c fSAT)
  else (intBits v.ty i, 0)

/-- vdiv on integers (R261, R301). -/
def intDiv (c : Fmt) (a b : Int) : Nat :=
  if b = 0 then 2 ^ fmtBits c - 1 else intBits c (Int.tdiv a b)

def intMin (a b : Int) : Int := if b < a then b else a
def intMax (a b : Int) : Int := if a < b then b else a

/-! ## Floating-point arithmetic (R302) -/

/-- The minimum or maximum of two elements by IEEE 754-2019: −0 below +0, a NaN canonical, NV for a signalling one. -/
def fPick (c : Fmt) (mx : Bool) (a b : Nat) : Nat × Flags :=
  let x := decodeVal c a
  let y := decodeVal c b
  match vCmp x y with
  | none => (nanBits c, sigFlag [x, y])
  | some .lt => (if mx then b else a, 0)
  | some .gt => (if mx then a else b, 0)
  | some .eq => (if x.neg = mx then b else a, 0)

/-- vabs, vneg, vcopysign: the sign bit alone; a NaN in a gives the canonical NaN (R302). -/
def fSign (c : Fmt) (a : Nat) (neg : Bool) : Nat :=
  if (decodeVal c a).isNan then nanBits c else a % 2 ^ (fmtBits c - 1) + signBit c neg

/-- The sign bit of an element. -/
def topBitSet (c : Fmt) (a : Nat) : Bool := decide (a / 2 ^ (fmtBits c - 1) % 2 = 1)

/-- a rounded to an integral value (R302). -/
def fIntegral (c : Fmt) (rm : RMode) (y0 a : Nat) : Nat × Flags :=
  match decodeVal c a with
  | .nan s => (nanBits c, flagIf s fNV)
  | .inf _ => (a, 0)
  | .fin n m e st =>
    if m = 0 then (a, 0) else ((deliver c .ieee .rne 0 (.exact n (roundQ rm n y0 m e 0 st).1 0)).1, 0)

/-! ## The element-wise arithmetic records (R300) -/

/-- A two-source record: exact integers on I types, exact values on F types. -/
def VCtx.arith2 (v : VCtx) (fi : Int → Int → Int) (ff : FVal → FVal → FVal × Flags) : VOut :=
  let c := v.c
  v.each fun p e =>
    if isF v.ty then v.round e (ff (v.val c.a v.ty p) (v.val c.b v.ty p))
    else v.narrow (fi (v.int c.a p) (v.int c.b p))

/-- A three-source record. -/
def VCtx.arith3 (v : VCtx) (fi : Int → Int → Int → Int) (ff : FVal → FVal → FVal → FVal × Flags) : VOut :=
  let c := v.c
  v.each fun p e =>
    if isF v.ty then v.round e (ff (v.val c.a v.ty p) (v.val c.b v.ty p) (v.val c.c v.ty p))
    else v.narrow (fi (v.int c.a p) (v.int c.b p) (v.int c.c p))

/-- A record over the bits of A, and of B. -/
def VCtx.pattern (v : VCtx) (f : Nat → Nat → Nat) : VOut :=
  let c := v.c
  v.each fun p _ => (f (v.bits c.a v.ty p) (v.bits c.b v.ty p) % 2 ^ fmtBits v.ty, 0)

def effVadd (v : VCtx) : VOut := v.arith2 (· + ·) (vAdd v.rdn)
def effVsub (v : VCtx) : VOut := v.arith2 (· - ·) fun x y => vAdd v.rdn x y.negate
def effVmul (v : VCtx) : VOut := v.arith2 (· * ·) vMul
def effVfma (v : VCtx) : VOut := v.arith3 (fun a b c => a * b + c) (vFma v.rdn)
def effVfms (v : VCtx) : VOut := v.arith3 (fun a b c => a * b - c) fun x y z => vFma v.rdn x y z.negate

/-- vdiv (R300 to R302). -/
def effVdiv (v : VCtx) : VOut :=
  let c := v.c
  v.each fun p e =>
    if isF v.ty then v.round e (vDiv (v.val c.a v.ty p) (v.val c.b v.ty p))
    else (intDiv v.ty (v.int c.a p) (v.int c.b p), 0)

/-- vmin and vmax (R301, R302). -/
def VCtx.minMax (v : VCtx) (mx : Bool) : VOut :=
  let c := v.c
  v.each fun p _ =>
    if isF v.ty then fPick v.ty mx (v.bits c.a v.ty p) (v.bits c.b v.ty p)
    else (intBits v.ty ((if mx then intMax else intMin) (v.int c.a p) (v.int c.b p)), 0)

def effVmin (v : VCtx) : VOut := v.minMax false
def effVmax (v : VCtx) : VOut := v.minMax true

/-- vabs (R301, R302). -/
def effVabs (v : VCtx) : VOut :=
  let c := v.c
  v.each fun p _ =>
    if isF v.ty then (fSign v.ty (v.bits c.a v.ty p) false, 0) else v.narrow (v.int c.a p).natAbs

/-- vneg (R301, R302). -/
def effVneg (v : VCtx) : VOut :=
  let c := v.c
  v.each fun p _ =>
    let a := v.bits c.a v.ty p
    if isF v.ty then (fSign v.ty a !topBitSet v.ty a, 0) else v.narrow (-v.int c.a p)

/-- vcopysign (R302). -/
def effVcopysign (v : VCtx) : VOut :=
  let c := v.c
  v.each fun p _ => (fSign v.ty (v.bits c.a v.ty p) (topBitSet v.ty (v.bits c.b v.ty p)), 0)

/-- vclamp: max(a, b), then min with c (R300 to R302). -/
def effVclamp (v : VCtx) : VOut :=
  let c := v.c
  v.each fun p _ =>
    if isF v.ty then
      let (x, f1) := fPick v.ty true (v.bits c.a v.ty p) (v.bits c.b v.ty p)
      let (y, f2) := fPick v.ty false x (v.bits c.c v.ty p)
      (y, f1 ||| f2)
    else (intBits v.ty (intMin (intMax (v.int c.a p) (v.int c.b p)) (v.int c.c p)), 0)

/-- vround: the mode of ctl when bit 3 is set, else the vector state's (R294, R302). -/
def effVround (v : VCtx) : VOut :=
  let rm := if v.r.ctl.getLsbD 3 then rmodeOf (v.r.ctl.toNat % 8) else v.rm
  v.each fun p e => fIntegral v.ty rm (if rm = .sr then (v.d.word e).x0.toNat else 0) (v.bits v.c.a v.ty p)

/-! ## Logic, shifts, comparison, selection (R303, R304) -/

def effVand (v : VCtx) : VOut := v.pattern fun a b => a &&& b
def effVor (v : VCtx) : VOut := v.pattern fun a b => a ||| b
def effVxor (v : VCtx) : VOut := v.pattern fun a b => a ^^^ b
def effVnot (v : VCtx) : VOut := v.pattern fun a _ => 2 ^ fmtBits v.ty - 1 - a
def effVshl (v : VCtx) : VOut := v.pattern fun a b => a * 2 ^ (b % fmtBits v.ty)
def effVshr (v : VCtx) : VOut := v.pattern fun a b => a / 2 ^ (b % fmtBits v.ty)
def effVsar (v : VCtx) : VOut :=
  v.pattern fun a b => intBits v.ty (signedOf (fmtBits v.ty) a / 2 ^ (b % fmtBits v.ty))

/-- A relation of vcmp holds: codes eq, ne, lt, le, gt, ge, un (R294, R304). -/
def cmpHolds (code : Nat) : Option Ordering → Bool
  | none => decide (code = 1 ∨ code = 6)
  | some o =>
    match code with
    | 0 => decide (o = .eq) | 1 => decide (o ≠ .eq) | 2 => decide (o = .lt) | 3 => decide (o ≠ .gt)
    | 4 => decide (o = .gt) | 5 => decide (o ≠ .lt) | _ => false

/-- The bits of one in a type. -/
def oneBits (c : Fmt) : Nat := if isF c then (deliver c .ieee .rne 0 (.exact false 1 0)).1 else 1

/-- vcmp (R304). -/
def effVcmp (v : VCtx) : VOut :=
  let c := v.c
  let code := v.r.ctl.toNat % 8
  v.each fun p _ =>
    if isF v.ty then
      let x := v.val c.a v.ty p
      let y := v.val c.b v.ty p
      (if cmpHolds code (vCmp x y) then oneBits v.ty else 0, sigFlag [x, y])
    else (if cmpHolds code (some (compare (v.int c.a p) (v.int c.b p))) then 1 else 0, 0)

/-- c is true in vsel: not ±0 in floating formats, nonzero in the others (R304). -/
def selTrue (f : Fmt) (b : Nat) : Bool := if (fparam f).isSome then !(decodeVal f b).isZero else decide (b ≠ 0)

/-- vsel (R304). -/
def effVsel (v : VCtx) : VOut :=
  let c := v.c
  v.each fun p _ =>
    (canon v.ty (if selTrue v.ty (v.bits c.c v.ty p) then v.bits c.a v.ty p else v.bits c.b v.ty p), 0)

/-- vmov (R305). -/
def effVmov (v : VCtx) : VOut := v.each fun p _ => (canon v.ty (v.bits v.c.a v.ty p), 0)

/-- vfill: a + n × b (R305). -/
def effVfill (v : VCtx) : VOut :=
  let c := v.c
  v.each fun p e =>
    let n := linIndex c.trips p
    if isF v.ty then v.round e (vFma v.rdn (.ofInt n) (v.val c.b v.ty p) (v.val c.a v.ty p))
    else (intBits v.ty (v.int c.a p + n * v.int c.b p), 0)

/-! ## Conversion (R306 to R308) -/

/-- vcvt (R306). (log 31, DEDUCED) -/
def effVcvt (v : VCtx) : VOut :=
  let d := v.ty
  let t := v.ty2
  v.each fun p e =>
    let a := v.bits v.c.a t p
    if d = t then (canon d a, 0)
    else if (fparam d).isSome then convFloat d (ovfOf d v.ovf) v.rm (v.y0 e) (decodeVal t a)
    else if (fparam t).isSome then convInt d v.rm (v.y0 e) (decodeVal t a)
    else if v.r.ctl.getLsbD 0 then
      let (j, c) := clampInt (intRange d) (intOf t a)
      (intBits d j, flagIf c fSAT)
    else (intBits d (intOf t a), 0)

/-- The blocks of D that hold an active element, in ascending order, each with its inputs by place (R62, R307). -/
def VCtx.blocks (v : VCtx) : List (Nat × List (Option FVal)) :=
  let c := v.c
  let bs := blockSize v.ty
  let items := (activePoints c).map fun p => (c.d.index p, v.val c.a v.ty2 p)
  let ids := isort (fun a b => decide (a ≤ b)) (items.map fun x => x.1 / bs).eraseDups
  ids.map fun b => (b, (List.range bs).map fun i => (items.reverse.find? fun x => decide (x.1 = b * bs + i)).map (·.2))

/-- One block's bytes as puts. -/
def VCtx.putBlock (v : VCtx) (b : Nat) (xs : List (Option FVal)) : List Put × Flags :=
  let d := v.c.d.desc
  let bs := blockSize v.ty
  let y := fun i => v.y0 (b * bs + i)
  if isMx v.ty then
    let (X, es, fl) := mxEncode v.ty v.ovf v.rm y xs
    (es.zipIdx.map (fun (e, i) => putAt v.c.d (b * bs + i) e) ++ [⟨scaleAddr d (b * bs), 0, 8, X⟩], fl)
  else
    let (E, mu, es, fl) := pbEncode v.ty v.rm y (xs.map fun x => x.getD (.zero false))
    let at_ := descBase d + b * pbBytes v.ty
    ([(⟨at_, 0, 8, E⟩ : Put), ⟨at_, 8, 8, mu⟩] ++ es.zipIdx.map (fun (e, i) => putAt v.c.d (b * bs + i) e), fl)

/-- vquant (R307). -/
def effVquant (v : VCtx) : VOut :=
  let c := v.c
  if isX v.ty then
    let rs := v.blocks.map fun (b, xs) => v.putBlock b xs
    ⟨rs.flatMap (·.1), orFlags (rs.map (·.2))⟩
  else
    v.each fun p e =>
      let (x, fl) := vMul (v.val c.a v.ty2 p) (v.val c.b v.ty2 p)
      let (b, f2) := if (fparam v.ty).isSome then convFloat v.ty (ovfOf v.ty v.ovf) v.rm (v.y0 e) x else convInt v.ty v.rm (v.y0 e) x
      (b, fl ||| f2)

/-- vdeq (R308). -/
def effVdeq (v : VCtx) : VOut :=
  let c := v.c
  v.each fun p e =>
    let x := v.val c.a v.ty2 p
    let y := v.val c.b v.ty p
    if x.isNan then (nanBits v.ty, 0) else v.round e (vMul x y)

/-! ## Correctly rounded functions (R309) -/

/-- A function of one source. -/
def VCtx.fn (v : VCtx) (f : FVal → FVal × Flags) : VOut := v.each fun p e => v.round e (f (v.val v.c.a v.ty p))

def effVrcp (v : VCtx) : VOut := v.fn fnRcp
def effVsqrt (v : VCtx) : VOut := v.fn vSqrt
def effVrsqrt (v : VCtx) : VOut := v.fn fnRsqrt
def effVexp (v : VCtx) : VOut := v.fn (fnExp false)
def effVexp2 (v : VCtx) : VOut := v.fn (fnExp true)
def effVlog (v : VCtx) : VOut := v.fn (fnLog false)
def effVlog2 (v : VCtx) : VOut := v.fn (fnLog true)
def effVtanh (v : VCtx) : VOut := v.fn fnTanh
def effVerf (v : VCtx) : VOut := v.fn fnErf

/-! ## Reductions (R82, R310 to R313) -/

/-- Sixteen empty lanes (R82). -/
def emptyLanes : List (Option Nat) := List.replicate 16 none

/-- Two elements added and rounded inside a reduction. -/
def VCtx.addRed (v : VCtx) (rm : RMode) (a b : Nat) : Nat × Flags :=
  v.roundRed rm (vAdd (decide (rm = .rdn)) (decodeVal v.ty a) (decodeVal v.ty b))

/-- Pair the positions of a level (R82). -/
def VCtx.level (v : VCtx) (rm : RMode) : List (Option Nat) → List (Option Nat) × Flags
  | a :: b :: t =>
    let (rest, fl) := v.level rm t
    match a, b with
    | some x, some y => let (z, f) := v.addRed rm x y; (some z :: rest, fl ||| f)
    | some x, none => (some x :: rest, fl)
    | none, y => (y :: rest, fl)
  | l => (l, 0)

/-- The tree over sixteen lanes: four levels; the empty value is +0 (R82). -/
def VCtx.tree (v : VCtx) (rm : RMode) (lanes : List (Option Nat)) : Nat × Flags :=
  let (l1, f1) := v.level rm lanes
  let (l2, f2) := v.level rm l1
  let (l3, f3) := v.level rm l2
  let (l4, f4) := v.level rm l3
  (((l4.headD none).getD 0), f1 ||| f2 ||| f3 ||| f4)

/-- The lanes of a row: `first` and `later` give a lane's first value and its next (R82, R311). -/
def VCtx.lanes (first : Point → Nat × Flags) (later : Point → Nat → Nat × Flags) (ps : List Point) : List (Option Nat) × Flags :=
  ps.foldl (fun (ls, fl) p =>
    let j := p.t0 % 16
    let (b, f) := match ls.getD j none with
      | none => first p
      | some acc => later p acc
    (ls.set j (some b), fl ||| f)) (emptyLanes, 0)

/-- vsum (R311). -/
def effVsum (v : VCtx) : VOut :=
  let a := v.c.a
  let rm := v.rmRed
  v.rows fun ps =>
    if isF v.ty then
      let (ls, f1) := VCtx.lanes (fun p => (v.bits a v.ty p, 0)) (fun p acc => v.addRed rm acc (v.bits a v.ty p)) ps
      let (b, f2) := v.tree rm ls
      (canon v.ty b, f1 ||| f2)
    else v.narrow ((ps.map fun p => v.int a p).foldl (· + ·) 0)

/-- vdot (R311). -/
def effVdot (v : VCtx) : VOut :=
  let c := v.c
  let rm := v.rmRed
  v.rows fun ps =>
    if isF v.ty then
      let (ls, f1) := VCtx.lanes (fun p => v.roundRed rm (vMul (v.val c.a v.ty p) (v.val c.b v.ty p)))
        (fun p acc => v.roundRed rm (vFma (decide (rm = .rdn)) (v.val c.a v.ty p) (v.val c.b v.ty p) (decodeVal v.ty acc))) ps
      let (b, f2) := v.tree rm ls
      (canon v.ty b, f1 ||| f2)
    else v.narrow ((ps.map fun p => v.int c.a p * v.int c.b p).foldl (· + ·) 0)

/-- The identity of a maximum, or of a minimum: infinities, or the limits of the integer format (R312, R313). -/
def extremeBits (c : Fmt) (low : Bool) : Nat :=
  if isF c then (deliver c .ieee .rne 0 (.inf (!low))).1
  else intBits c (if low then (intRange c).2 else (intRange c).1)

/-- One step of a maximum or minimum on element bits (R301, R302). -/
def pickBits (c : Fmt) (low : Bool) (a b : Nat) : Nat × Flags :=
  if isF c then fPick c (!low) a b
  else (intBits c ((if low then intMin else intMax) (intOf c a) (intOf c b)), 0)

/-- vmaxr (R312). -/
def effVmaxr (v : VCtx) : VOut :=
  let low := v.r.ctl.getLsbD 0
  v.rows fun ps =>
    match ps.map fun p => v.bits v.c.a v.ty p with
    | [] => (extremeBits v.ty low, 0)
    | b :: bs =>
      let (r, _) := bs.foldl (fun (acc, fl) x => let (y, f) := pickBits v.ty low acc x; (y, fl ||| f)) (b, (0 : Flags))
      (canon v.ty r, if isF v.ty then sigFlag ((b :: bs).map (decodeVal v.ty)) else 0)

/-- vamax (R312). -/
def effVamax (v : VCtx) : VOut :=
  v.rows fun ps =>
    ((ps.map fun p => v.bits v.c.a v.ty p).foldl (fun acc b =>
      let x := decodeVal v.ty b
      if x.isNan then acc
      else if vCmp (decodeVal v.ty acc) x.abs = some .lt then b % 2 ^ (fmtBits v.ty - 1) else acc) 0, 0)

/-- One step of a scan's operation (R313): .add, .max, .min. -/
def VCtx.scanOp (v : VCtx) (acc x : Nat) : Nat × Flags :=
  match v.r.ctl.toNat % 4 with
  | 0 => if isF v.ty then v.addRed v.rmRed acc x else (intBits v.ty (intOf v.ty acc + intOf v.ty x), 0)
  | 1 => pickBits v.ty false acc x
  | _ => pickBits v.ty true acc x

/-- The identity of a scan (R313). -/
def VCtx.scanId (v : VCtx) : Nat :=
  match v.r.ctl.toNat % 4 with
  | 0 => 0
  | 1 => extremeBits v.ty false
  | _ => extremeBits v.ty true

/-- One row of a scan: the written values in ascending t0 (R313). -/
def VCtx.scanRow (v : VCtx) (excl : Bool) : Option Nat → List Point → List (Put × Flags)
  | _, [] => []
  | acc, p :: t =>
    let x := v.bits v.c.a v.ty p
    let (nxt, fl) := match acc with
      | none => (canon v.ty x, (0 : Flags))
      | some a => v.scanOp a x
    let w := if excl then acc.getD v.scanId else nxt
    (v.put p w, fl) :: v.scanRow excl (some nxt) t

/-- vscan (R313). -/
def effVscan (v : VCtx) : VOut :=
  let excl := v.r.ctl.getLsbD 2
  let rs := (rowPoints v.c.trips).flatMap fun p =>
    v.scanRow excl (if excl then some v.scanId else none) (rowOf (activeT0 v.c) p)
  ⟨rs.map (·.1), orFlags (rs.map (·.2))⟩

/-! ## Top-k, argmax, random (R85, R314 to R316, R319) -/

/-- Element `a` is ranked no later than `b`, both with their index in rising order: ties go to the lowest logical index (R85, R229). -/
def rankLe (c : Fmt) (a b : Nat × Nat) : Bool :=
  if isF c then
    let x := decodeVal c a.2
    let y := decodeVal c b.2
    if x.isNan || y.isNan then y.isNan && (!x.isNan || decide (a.1 ≤ b.1))
    else match vCmp x y with
      | some .gt => true
      | some .lt => false
      | _ => decide (a.1 ≤ b.1)
  else
    let x := intOf c a.2
    let y := intOf c b.2
    decide (y < x) || (decide (x = y) && decide (a.1 ≤ b.1))

/-- The active elements of a row with their indices, ranked (R85). -/
def VCtx.ranked (v : VCtx) (ps : List Point) : List (Nat × Nat) :=
  isort (rankLe v.ty) (ps.map fun p => (p.t0, v.bits v.c.a v.ty p))

/-- The base of vtopk or vargmax: its low w bits (R314). -/
def baseBits (c : Fmt) (o : Operand) : Nat := o.val.toNat % 2 ^ fmtBits c

/-- vtopk (R315). Of one rank the index is written after the value (log 122, DESIGN CHOICE). -/
def effVtopk (v : VCtx) : VOut :=
  let c := v.c
  let base := baseBits v.ty c.c
  ⟨(rowPoints c.trips).flatMap fun p =>
    ((v.ranked (rowOf (activeT0 c) p)).take v.r.ctl.toNat).zipIdx.flatMap fun ((i, b), j) =>
      [v.put { p with t0 := j } (canon v.ty b), putAt c.b (c.b.index { p with t0 := j }) ((base + i) % 2 ^ fmtBits v.ty)], 0⟩

/-- vargmax (R316). -/
def effVargmax (v : VCtx) : VOut :=
  v.rows fun ps =>
    match v.ranked ps with
    | [] => (2 ^ fmtBits v.ty - 1, 0)
    | (i, _) :: _ => ((baseBits v.ty v.c.b + i) % 2 ^ fmtBits v.ty, 0)

/-- The value vrng writes from its random words (R319). -/
def rngBits (c : Fmt) (y : Ctr) : Nat :=
  let y0 := y.x0.toNat
  let y64 := y.x1.toNat * 2 ^ 32 + y0
  let put (m : Nat) (k : Nat) := (deliver c .ieee .rne 0 (.exact false m (-(k : Int)))).1
  match c.toNat with
  | 0x07 => y64
  | 0x12 => put (y0 / 2 ^ 8) 24
  | 0x13 => put (y64 / 2 ^ 11) 53
  | 0x10 => put (y0 / 2 ^ 21) 11
  | 0x11 => put (y0 / 2 ^ 24) 8
  | _ => y0 % 2 ^ fmtBits c

/-- vrng (R319). -/
def effVrng (v : VCtx) : VOut := v.each fun _ e => (rngBits v.ty (v.d.word e), 0)

/-! ## amax (R79) -/

/-- A magnitude as binary64 bits, exactly: no source format exceeds binary64 (R79). -/
def amaxBits (x : FVal) : Nat := (deliver fF64 .ieee .rne 0 x.abs).1

/-- Fold the active A elements into sys.amax and sys.nanseen (R79). -/
def foldAmax (vals : List FVal) (t : Strand) : Strand :=
  vals.foldl (fun t x =>
    if x.isNan then { t with nanseen := true }
    else if t.amax.toNat < amaxBits x then { t with amax := BitVec.ofNat 63 (amaxBits x) } else t) t

/-- The active A elements of a record (R79). -/
def VCtx.aVals (v : VCtx) (f : Fmt) : List FVal := (activePoints v.c).map fun p => v.val v.c.a f p

end Sys2Proof.Machine
end

