-- ==== Sys2Proof/Machine/VectorEngine.lean ====
section
/-! DEFINITION. Machine/VectorEngine.lean: dispatch of class 4 records and vmode (R292 to R297, R299), one definition per instruction, and the completion of vector records (R292, R295 to R297). -/

namespace Sys2Proof.Machine

/-! ## Dispatch -/

/-- What a class 4 opcode accepts in type and type2 (R293). -/
inductive VTypes
  | fi | f | iBits | i | iSigned | any | cvt | quant | deq

/-- Formats of vquant's destination and vdeq's source (R293). -/
def quantFmt (f : Fmt) : Bool := decide (f = fI8 ∨ f = fN8 ∨ f = fI4) || isNF f || isX f

/-- The types are accepted (R293). -/
def VTypes.ok (k : VTypes) (t t2 : Fmt) : Bool :=
  match k with
  | .fi => isF t || isI t
  | .f => isF t
  | .iBits => isI t || decide (t = fI4) || isM t
  | .i => isI t
  | .iSigned => isI t && isSigned t
  | .any => isF t || isI t || isN t || isM t
  | .cvt => (isF t || isI t || isN t) && (isF t2 || isI t2 || isN t2)
  | .quant => quantFmt t && isF t2
  | .deq => isF t && quantFmt t2

/-- The footprints of an element-wise record: D written, the sources read (R37). -/
def elemFoots (c : Cap) : Option (List Foot) :=
  allFoots [streamFoots c.d c true, streamFoots c.a c false, streamFoots c.b c false, streamFoots c.c c false]

/-- The footprint of a slot whose innermost level runs over `n` elements. -/
def footsN (o : Operand) (c : Cap) (n : Nat) (w : Bool) : Option (List Foot) := levelFoots o (slotLevels o.slot c.trips n) w

/-- The footprints of a record that writes one element a row, empty rows included (R310). -/
def rowFoots (c : Cap) : Option (List Foot) :=
  allFoots [footsN c.d c 1 true, streamFoots c.a c false, streamFoots c.b c false]

/-- The footprints of vtopk: ranks below min(k, active) are written (R315). -/
def topkFoots (c : Cap) (k : Nat) : Option (List Foot) :=
  let n := Nat.min k (activeT0 c)
  allFoots [footsN c.d c n true, streamFoots c.a c false, footsN c.b c n true]

/-- Dispatch a class 4 record with its accepted types, formats, value checks and footprints. -/
def State.dispatchVec (s : State) (i : Instr) (r : Rec) (k : VTypes) (w : Wants) (fields : Cap → Bool)
    (foots : Cap → Option (List Foot)) : State :=
  match recPlan i with
  | some (_, sp, _) =>
    let c := s.capRec sp r
    s.dispatchRec .v 4 i r c w { fields := fields c, types := !k.ok r.type r.type2 } (foots c)
  | none => s

/-- No value checks of its own. -/
def noChecks : Cap → Bool := fun _ => false

/-- An element-wise record whose streams all have its type. -/
def State.dispatchElem (s : State) (i : Instr) (r : Rec) (k : VTypes) : State :=
  s.dispatchVec i r k (wantAll r) noChecks elemFoots

/-- A row reduction. -/
def State.dispatchRow (s : State) (i : Instr) (r : Rec) (k : VTypes) (fields : Cap → Bool) : State :=
  s.dispatchVec i r k (wantAll r) fields rowFoots

/-- T0, when a register gives it, is no multiple of the block size (R307, R308). -/
def blockTripBad (f : Fmt) (c : Cap) : Bool := isX f && decide (tripN c.trips 0 % blockSize f ≠ 0)

/-- base + T0 passes 2^w − 1 where a register or the constant table gives one of them (R314); a type without a width has no w and ends FORMAT_MISMATCH (R254, R293). -/
def baseBad (f : Fmt) (o : Operand) (c : Cap) : Bool := decide (0 < fmtBits f ∧ 2 ^ fmtBits f - 1 < baseBits f o + tripN c.trips 0)

/-- A stream among `others` meets the table, each judged on its own (R254, R317, R318). -/
def tableMeets (table : Operand) (others : List Operand) (c : Cap) : Bool :=
  ((tableFoots table true).getD []).any fun f => others.any fun o => (streamReach o c).any f.overlaps

def execVadd (r : Rec) (s : State) : Res := .next (s.dispatchElem (.vadd r) r .fi)
def execVsub (r : Rec) (s : State) : Res := .next (s.dispatchElem (.vsub r) r .fi)
def execVmul (r : Rec) (s : State) : Res := .next (s.dispatchElem (.vmul r) r .fi)
def execVfma (r : Rec) (s : State) : Res := .next (s.dispatchElem (.vfma r) r .fi)
def execVfms (r : Rec) (s : State) : Res := .next (s.dispatchElem (.vfms r) r .fi)
def execVdiv (r : Rec) (s : State) : Res := .next (s.dispatchElem (.vdiv r) r .fi)
def execVmin (r : Rec) (s : State) : Res := .next (s.dispatchElem (.vmin r) r .fi)
def execVmax (r : Rec) (s : State) : Res := .next (s.dispatchElem (.vmax r) r .fi)
def execVabs (r : Rec) (s : State) : Res := .next (s.dispatchElem (.vabs r) r .fi)
def execVneg (r : Rec) (s : State) : Res := .next (s.dispatchElem (.vneg r) r .fi)
def execVcopysign (r : Rec) (s : State) : Res := .next (s.dispatchElem (.vcopysign r) r .f)
def execVclamp (r : Rec) (s : State) : Res := .next (s.dispatchElem (.vclamp r) r .fi)
def execVround (r : Rec) (s : State) : Res := .next (s.dispatchElem (.vround r) r .f)
def execVand (r : Rec) (s : State) : Res := .next (s.dispatchElem (.vand r) r .iBits)
def execVor (r : Rec) (s : State) : Res := .next (s.dispatchElem (.vor r) r .iBits)
def execVxor (r : Rec) (s : State) : Res := .next (s.dispatchElem (.vxor r) r .iBits)
def execVnot (r : Rec) (s : State) : Res := .next (s.dispatchElem (.vnot r) r .iBits)
def execVshl (r : Rec) (s : State) : Res := .next (s.dispatchElem (.vshl r) r .i)
def execVshr (r : Rec) (s : State) : Res := .next (s.dispatchElem (.vshr r) r .i)
def execVsar (r : Rec) (s : State) : Res := .next (s.dispatchElem (.vsar r) r .iSigned)
def execVcmp (r : Rec) (s : State) : Res := .next (s.dispatchElem (.vcmp r) r .fi)
def execVsel (r : Rec) (s : State) : Res := .next (s.dispatchElem (.vsel r) r .any)
def execVmov (r : Rec) (s : State) : Res := .next (s.dispatchElem (.vmov r) r .any)
def execVfill (r : Rec) (s : State) : Res := .next (s.dispatchElem (.vfill r) r .fi)
def execVrcp (r : Rec) (s : State) : Res := .next (s.dispatchElem (.vrcp r) r .f)
def execVsqrt (r : Rec) (s : State) : Res := .next (s.dispatchElem (.vsqrt r) r .f)
def execVrsqrt (r : Rec) (s : State) : Res := .next (s.dispatchElem (.vrsqrt r) r .f)
def execVexp (r : Rec) (s : State) : Res := .next (s.dispatchElem (.vexp r) r .f)
def execVexp2 (r : Rec) (s : State) : Res := .next (s.dispatchElem (.vexp2 r) r .f)
def execVlog (r : Rec) (s : State) : Res := .next (s.dispatchElem (.vlog r) r .f)
def execVlog2 (r : Rec) (s : State) : Res := .next (s.dispatchElem (.vlog2 r) r .f)
def execVtanh (r : Rec) (s : State) : Res := .next (s.dispatchElem (.vtanh r) r .f)
def execVerf (r : Rec) (s : State) : Res := .next (s.dispatchElem (.verf r) r .f)
def execVscan (r : Rec) (s : State) : Res := .next (s.dispatchElem (.vscan r) r .fi)
def execVrng (r : Rec) (s : State) : Res := .next (s.dispatchElem (.vrng r) r .fi)

/-- vcvt: D in type, A in type2 (R293). -/
def execVcvt (r : Rec) (s : State) : Res :=
  .next (s.dispatchVec (.vcvt r) r .cvt ⟨r.type, r.type2, r.type2, r.type2⟩ noChecks elemFoots)

/-- vquant: D in type, A and the scale B in type2 (R293, R307). -/
def execVquant (r : Rec) (s : State) : Res :=
  .next (s.dispatchVec (.vquant r) r .quant ⟨r.type, r.type2, r.type2, r.type2⟩ (blockTripBad r.type) elemFoots)

/-- vdeq: D and the scale B in type, A in type2 (R293, R308). -/
def execVdeq (r : Rec) (s : State) : Res :=
  .next (s.dispatchVec (.vdeq r) r .deq ⟨r.type, r.type2, r.type, r.type⟩ (fun c => c.a.isStream && blockTripBad r.type2 c) elemFoots)

def execVsum (r : Rec) (s : State) : Res := .next (s.dispatchRow (.vsum r) r .fi noChecks)
def execVdot (r : Rec) (s : State) : Res := .next (s.dispatchRow (.vdot r) r .fi noChecks)
def execVmaxr (r : Rec) (s : State) : Res := .next (s.dispatchRow (.vmaxr r) r .fi noChecks)
def execVamax (r : Rec) (s : State) : Res := .next (s.dispatchRow (.vamax r) r .f noChecks)

/-- vargmax: the base plus T0 stays within the index's width (R314). -/
def execVargmax (r : Rec) (s : State) : Res := .next (s.dispatchRow (.vargmax r) r .fi fun c => baseBad r.type c.b c)

/-- vtopk (R314, R315). -/
def execVtopk (r : Rec) (s : State) : Res :=
  .next (s.dispatchVec (.vtopk r) r .fi (wantAll r) (fun c => baseBad r.type c.c c) fun c => topkFoots c r.ctl.toNat)

/-- vgath: A is the table (R317). -/
def execVgath (r : Rec) (s : State) : Res :=
  .next (s.dispatchVec (.vgath r) r .fi (wantAll r)
    (fun c => tableMeets c.a [c.d] c)
    fun c => allFoots [streamFoots c.d c true, tableFoots c.a false, streamFoots c.b c false])

/-- vscat: D is the table (R318). -/
def execVscat (r : Rec) (s : State) : Res :=
  .next (s.dispatchVec (.vscat r) r .fi (wantAll r)
    (fun c => tableMeets c.d [c.a, c.b] c)
    fun c => allFoots [tableFoots c.d true, streamFoots c.a c false, streamFoots c.b c false])

/-- An entry of class 9 takes one slot of its queue (R35, R250). -/
def State.dispatchEntry (s : State) (e : Engine) (i : Instr) : State :=
  s.enqueue e i { trips := [], d := .none, a := .none, b := .none, c := .none, count := none, salt := s.me.srsalt,
                  nbv := s.me.nbv, region := s.me.region, vals := [] } [] 1

/-- vmode (R299): its effect comes when it leaves the vector queue. -/
def execVmode (rm : RMode) (ovf : Bool) (en : BitVec 7) (s : State) : Res := .next (s.dispatchEntry .v (.vmode rm ovf en))

/-! ## Completion -/

/-- What a completion step of an engine comes to. -/
inductive Done
  | wait (s : State) | ended (s : State) (flags : Flags) (count : Nat) (code : BitVec 8)

/-- Write one put. -/
def State.putOne (lc : Nat) (s : State) (p : Put) : State :=
  let (a, bs) := putBits (s.lcoreAt lc).sp p.base p.bit p.n p.v
  s.spPut lc a bs

/-- Write puts in order. -/
def State.putAll (s : State) (lc : Nat) (ps : List Put) : State := ps.foldl (State.putOne lc) s

/-- The points that a slot of a row reduction writes at. -/
def rowStarts (c : Cap) : List Point := rowPoints c.trips

/-- The points at which vtopk writes. -/
def rankPoints (c : Cap) (k : Nat) : List Point := (rowPoints c.trips).flatMap (rowOf (Nat.min k (activeT0 c)))

/-- The bytes a record touches besides its tables (R93, R297). -/
def vecSpans (i : Instr) (c : Cap) (r : Rec) : List (Nat × Nat) :=
  let ps := activePoints c
  (match i with
   | .vgath _ => c.d.spans ps ++ c.b.spans ps
   | .vscat _ => c.a.spans ps ++ c.b.spans ps
   | .vtopk _ => c.d.spans (rankPoints c r.ctl.toNat) ++ c.a.spans ps ++ c.b.spans (rankPoints c r.ctl.toNat)
   | .vsum _ | .vdot _ | .vmaxr _ | .vamax _ | .vargmax _ => c.d.spans (rowStarts c) ++ c.a.spans ps ++ c.b.spans ps
   | _ => c.d.spans ps ++ c.a.spans ps ++ c.b.spans ps ++ c.c.spans ps) ++
  (statFoot r).map fun f => (f.lo, f.hi)

/-- The record's context, on the scratchpad as it stands. -/
def State.vctx (s : State) (u : Run) (r : Rec) : VCtx :=
  { m := (s.lcoreAt (lckey u.e.ref.task u.e.ref.lcore)).sp, c := u.e.cap, d := s.drawsOf u.e, r := r, rm := u.vm.rm, ovf := u.vm.ovf }

/-- Complete a record that computes all its elements at once; its fills come first (R297). -/
def State.runPlain (s : State) (u : Run) (r : Rec) (eff : VCtx → VOut) : Done :=
  let lc := lckey u.e.ref.task u.e.ref.lcore
  match s.touchSpans lc (vecSpans u.e.instr u.e.cap r) with
  | (s, .wait) => .wait s
  | (s, .refused _) => .ended s fTR 0 eUnfilled
  | (s, .ok ()) =>
    let o := eff (s.vctx u r)
    .ended (s.putAll lc o.puts) o.flags 0 0

/-- As runPlain, and the active A elements fold into sys.amax and sys.nanseen at completion, unless the strand has gone (R79, R89). -/
def State.runAmax (s : State) (u : Run) (r : Rec) (eff : VCtx → VOut) (f : Fmt) : Done :=
  let lc := lckey u.e.ref.task u.e.ref.lcore
  match s.touchSpans lc (vecSpans u.e.instr u.e.cap r) with
  | (s, .wait) => .wait s
  | (s, .refused _) => .ended s fTR 0 eUnfilled
  | (s, .ok ()) =>
    let v := s.vctx u r
    let o := eff v
    let t := s.putAll lc o.puts
    .ended (if t.ownerAlive u.e then t.onStrand u.e.ref.key (foldAmax (v.aVals f)) else t) o.flags 0 0

/-- The table element of an index: its element number and bytes, or none outside the descriptor's range (R317). -/
def tableAt (o : Operand) (f : Fmt) (idx : Nat) : Option (Nat × Nat) :=
  let e : Int := slotOff o.slot + idx
  if e < 0 then none
  else
    let (x, y) := elemSpan f e.toNat
    if descBound o.desc < y then none else some (e.toNat, descBase o.desc + x)

/-- What one element of a gather or scatter does: nothing yet, or its new state with flags and refusals. -/
inductive ElemAns
  | wait (s : State) | ok (s : State) (fl : Flags) | refused (s : State)

/-- Fill the region under one table element (R317). -/
def State.touchElem (s : State) (lc a n : Nat) (k : State → State × Flags) : ElemAns :=
  match s.touchSpans lc [(a, a + n)] with
  | (s, .wait) => .wait s
  | (s, .refused _) => .refused s
  | (s, .ok ()) => let (s, fl) := k s; .ok s fl

/-- A later element of the record that did not wait has written this one's destination, which it keeps: of repeated destinations the higher linear index remains (R292). -/
def overwritten (c : Cap) (done : SMap Bool) (p : Point) : Bool :=
  let k := linIndex c.trips p
  (done.any fun e => decide (k < e.1)) && (activePoints c).any fun q =>
    decide (k < linIndex c.trips q ∧ c.d.index q = c.d.index p) && sget false done (linIndex c.trips q)

/-- One element of vgath (R317), `over` if its destination has been written since; sources are read from `v`. -/
def gathElem (v : VCtx) (lc : Nat) (later : Bool) (p : Point) (s : State) : ElemAns :=
  let c := v.c
  let put (s : State) (x : Nat) : State := if later then s else s.putOne lc (v.put p x)
  match tableAt c.a v.ty (v.bits c.b v.ty p) with
  | none => .ok (put s 0) fNV
  | some (e, a) => s.touchElem lc a (fmtBits v.ty / 8) fun s => (put s (canon v.ty (elemBits (s.lcoreAt lc).sp (descBase c.a.desc) v.ty e)), 0)

/-- One element of vscat (R318): .add reads the table as the record's earlier elements left it. -/
def scatElem (v : VCtx) (lc : Nat) (_later : Bool) (p : Point) (s : State) : ElemAns :=
  let c := v.c
  match tableAt c.d v.ty (v.bits c.a v.ty p) with
  | none => .ok s fNV
  | some (e, a) => s.touchElem lc a (fmtBits v.ty / 8) fun s =>
    let b := v.bits c.b v.ty p
    let old := elemBits (s.lcoreAt lc).sp (descBase c.d.desc) v.ty e
    let (x, fl) :=
      if !v.r.ctl.getLsbD 0 then (canon v.ty b, (0 : Flags))
      else if isF v.ty then v.roundRed .rne (vAdd false (decodeVal v.ty old) (decodeVal v.ty b))
      else ((old + b) % 2 ^ fmtBits v.ty, 0)
    (s.putOne lc (putAt c.d e x), fl)

/-- Work through the elements that are not done, in ascending linear index; those that wait are left (R317, R318). -/
def elemPass (f : Bool → Point → State → ElemAns) (c : Cap) : List Point → State → SMap Bool → Nat → Flags → Bool → State × SMap Bool × Nat × Flags × Bool
  | [], s, done, n, fl, w => (s, done, n, fl, w)
  | p :: t, s, done, n, fl, w =>
    let k := linIndex c.trips p
    if sget false done k then elemPass f c t s done n fl w
    else
      match f (overwritten c done p) p s with
      | .wait s => elemPass f c t s done n fl true
      | .ok s g => elemPass f c t s (sset false done k true) n (fl ||| g) w
      | .refused s => elemPass f c t s (sset false done k true) (n + 1) (fl ||| fTR) w

/-- Complete a gather or scatter, element by element; its sources are read as they stood before its first write (R292). (log 13, DEDUCED) -/
def State.runTable (s : State) (core : Nat) (u : Run) (r : Rec) (f : VCtx → Nat → Bool → Point → State → ElemAns) : Done :=
  let lc := lckey u.e.ref.task u.e.ref.lcore
  match s.touchSpans lc (vecSpans u.e.instr u.e.cap r) with
  | (s, .wait) => .wait s
  | (s, .refused _) => if u.done.isEmpty then .ended s fTR 0 eUnfilled else .ended s (u.flags ||| fTR) u.refused 0
  | (s, .ok ()) =>
    let m := u.srcs.getD (s.lcoreAt lc).sp
    let (s, done, n, fl, w) := elemPass (f { s.vctx u r with m := m } lc) u.e.cap (activePoints u.e.cap) s u.done u.refused u.flags false
    if w then .wait (s.onRun core .v fun u => { u with done := done, refused := n, flags := fl, srcs := some m }) else .ended s fl n 0

/-- The effect of a class 4 record. -/
def State.runVec (s : State) (core : Nat) (u : Run) : Option (Rec × Done) :=
  match u.e.instr with
  | .vadd r => some (r, s.runPlain u r effVadd)
  | .vsub r => some (r, s.runPlain u r effVsub)
  | .vmul r => some (r, s.runPlain u r effVmul)
  | .vfma r => some (r, s.runPlain u r effVfma)
  | .vfms r => some (r, s.runPlain u r effVfms)
  | .vdiv r => some (r, s.runPlain u r effVdiv)
  | .vmin r => some (r, s.runPlain u r effVmin)
  | .vmax r => some (r, s.runPlain u r effVmax)
  | .vabs r => some (r, s.runPlain u r effVabs)
  | .vneg r => some (r, s.runPlain u r effVneg)
  | .vcopysign r => some (r, s.runPlain u r effVcopysign)
  | .vclamp r => some (r, s.runPlain u r effVclamp)
  | .vround r => some (r, s.runPlain u r effVround)
  | .vand r => some (r, s.runPlain u r effVand)
  | .vor r => some (r, s.runPlain u r effVor)
  | .vxor r => some (r, s.runPlain u r effVxor)
  | .vnot r => some (r, s.runPlain u r effVnot)
  | .vshl r => some (r, s.runPlain u r effVshl)
  | .vshr r => some (r, s.runPlain u r effVshr)
  | .vsar r => some (r, s.runPlain u r effVsar)
  | .vcmp r => some (r, s.runPlain u r effVcmp)
  | .vsel r => some (r, s.runPlain u r effVsel)
  | .vmov r => some (r, s.runPlain u r effVmov)
  | .vfill r => some (r, s.runPlain u r effVfill)
  | .vcvt r => some (r, s.runPlain u r effVcvt)
  | .vquant r => some (r, s.runAmax u r effVquant r.type2)
  | .vdeq r => some (r, s.runPlain u r effVdeq)
  | .vrcp r => some (r, s.runPlain u r effVrcp)
  | .vsqrt r => some (r, s.runPlain u r effVsqrt)
  | .vrsqrt r => some (r, s.runPlain u r effVrsqrt)
  | .vexp r => some (r, s.runPlain u r effVexp)
  | .vexp2 r => some (r, s.runPlain u r effVexp2)
  | .vlog r => some (r, s.runPlain u r effVlog)
  | .vlog2 r => some (r, s.runPlain u r effVlog2)
  | .vtanh r => some (r, s.runPlain u r effVtanh)
  | .verf r => some (r, s.runPlain u r effVerf)
  | .vsum r => some (r, s.runPlain u r effVsum)
  | .vdot r => some (r, s.runPlain u r effVdot)
  | .vmaxr r => some (r, s.runPlain u r effVmaxr)
  | .vscan r => some (r, s.runPlain u r effVscan)
  | .vtopk r => some (r, s.runPlain u r effVtopk)
  | .vargmax r => some (r, s.runPlain u r effVargmax)
  | .vgath r => some (r, s.runTable core u r gathElem)
  | .vscat r => some (r, s.runTable core u r scatElem)
  | .vrng r => some (r, s.runPlain u r effVrng)
  | .vamax r => some (r, s.runAmax u r effVamax r.type)
  | _ => none

/-- An enabled flag is among those raised: eNV eDZ eOF eUF eNX eSAT eTR in bits 0 to 6 (R299). -/
def enabledFlags (en : BitVec 7) (fl : Flags) : Bool :=
  decide (en.toNat % 64 &&& fl.toNat % 64 ≠ 0) || (en.getLsbD 6 && fl.getLsbD 7)

/-- The energy of a vector record in units of 0.1 pJ: 1.0 pJ a byte of each active element, four times that for the functions of R77 (R224). (log 65, DEDUCED) Where a record names two formats, type's element counts (log 115, DESIGN CHOICE). -/
def vecEnergy (x : Entry) (r : Rec) : Nat :=
  let n := (activePoints x.cap).length * fmtBits r.type * 10 / 8
  match x.instr with
  | .vrcp _ | .vsqrt _ | .vrsqrt _ | .vexp _ | .vexp2 _ | .vlog _ | .vlog2 _ | .vtanh _ | .verf _ => 4 * n
  | _ => n

/-- A vector record is charged the energy of its elements as it starts (R218, R224). -/
def State.chargeVec (s : State) (x : Entry) : State :=
  match recPlan x.instr with
  | some (r, _) => s.charge (s.payerOf x.ref.task) (vecEnergy x r)
  | none => s

/-- End a vector record: status word, a pending ENGINE_ERROR when its strand's state enables it (R295, R299). -/
def State.endVec (s : State) (core : Nat) (u : Run) (r : Rec) (fl : Flags) (n : Nat) (code : BitVec 8) : State :=
  let s := s.putStatus u.e r (statusWord n code 0 fl)
  let s := if enabledFlags u.vm.en fl then s.engineError u.e 4 else s
  s.endRun core .v

/-- One completion step of a core's vector engine. -/
def State.completeVec (s : State) (core : Nat) (u : Run) : State :=
  match s.runVec core u with
  | some (_, .wait s) => s
  | some (r, .ended s fl n code) => s.endVec core u r fl n code
  | none => s.endRun core .v

end Sys2Proof.Machine
end

