-- ==== Sys2Proof/Machine/Transfer.lean ====
section
/-! DEFINITION. Machine/Transfer.lean: class 6 records and tmode: operands and checks (R337, R338), copies (R339 to R342), the region map (R343 to R345), twload and tmode (R346, R347), and completion. -/

namespace Sys2Proof.Machine

/-! ## Operands (R323, R337 to R339) -/

/-- The formats that tcopy, tgather, tscatter, tfill and tfetch accept (R337). -/
def copyFmt (f : Fmt) : Bool := isF f || isI f || decide (f = fE4m3 ∨ f = fE5m2)

/-- Element width in bytes. -/
def copyBytes (r : Rec) : Nat := fmtBits r.type / 8

/-- A pitch: the low 32 bits, sign-extended; an absent one is zero (R323, R338). -/
def pitchOf (o : Operand) : Int := (o.val.setWidth 32).toInt

/-- The far address of a trip point (R338). -/
def farAddr (base : Operand) (p1 p2 : Operand) (w : Nat) (p : Point) : Int :=
  (base.val.toNat : Int) + p.t0 * w + p.t1 * pitchOf p1 + p.t2 * pitchOf p2

/-- A base or pitch is no multiple of the element width: MISALIGNED at the base (R338). (log 15, DESIGN CHOICE) -/
def farMisaligned (base p1 p2 : Operand) (w : Nat) : Option Word :=
  if base.val.toNat % w ≠ 0 ∨ pitchOf p1 % w ≠ 0 ∨ pitchOf p2 % w ≠ 0 then some base.val else none

/-- The bounds of the far bytes over the whole trip space. -/
def farRange (base p1 p2 : Operand) (w : Nat) (ts : List Nat) : Int × Int :=
  let (lo, hi) := affineRange (base.val.toNat : Int) [((w : Int), tripN ts 0), (pitchOf p1, tripN ts 1), (pitchOf p2, tripN ts 2)]
  (lo, hi + w)

/-- A ws far side leaves the weight store (R338). -/
def wsPast (base p1 p2 : Operand) (w : Nat) (ts : List Nat) : Bool :=
  let (lo, hi) := farRange base p1 p2 w ts
  decide (lo < 0 ∨ 0x10000000 < hi)

/-- A slot with t0 and t1 exchanged (R339). -/
def swapSlot (o : Slot) : Slot :=
  { o with low := o.low.extractLsb' 32 16 ++ o.low.extractLsb' 48 16 ++ o.low.setWidth 32 }

/-- An operand with t0 and t1 exchanged. -/
def Operand.swapped (o : Operand) : Operand :=
  match o with
  | .stream d sl => .stream d (swapSlot sl)
  | o => o

/-- The captured operands of tcopy as it addresses them: under transposition D is exchanged when it is a stream, and A otherwise (R339). -/
def copyCap (r : Rec) (c : Cap) : Cap :=
  if r.ctl.toNat % 4 = 0 then c else if c.d.isStream then { c with d := c.d.swapped } else { c with a := c.a.swapped }

/-- Trips that registers give break a far side's T3 or a transposition's multiples (R338, R339). (log 32, DEDUCED) -/
def copyTripsBad (far : Bool) (ctl : Nat) (ts : List Nat) : Bool :=
  let q := if ctl = 1 then 8 else 16
  (far && decide (tripN ts 3 ≠ 1)) || (decide (ctl ≠ 0) && decide (tripN ts 0 % q ≠ 0 ∨ tripN ts 1 % q ≠ 0))

/-- T3 of a record with a far side, when a register gives it, is not 1 (R338). -/
def farTripBad (c : Cap) : Bool := decide (tripN c.trips 3 ≠ 1)

/-- The 256-byte blocks that a record's far writes touch (R43). -/
def farBlocks (base p1 p2 : Operand) (w : Nat) (c : Cap) : List (Nat × Nat) :=
  ((activePoints c).flatMap fun p => let a := farAddr base p1 p2 w p; if a < 0 then [] else blocksOf 0 a.toNat w).eraseDups

/-! ## Dispatch of copies -/

/-- tcopy (R339). -/
def execTcopy (r : Rec) (s : State) : Res :=
  .next (
    match recPlan (.tcopy r) with
    | some (_, sp, _) =>
      let c := copyCap r (s.capRec sp r)
      let w := copyBytes r
      let far := !(c.d.isStream && c.a.isStream)
      let base := if c.d.isStream then c.a else c.d
      s.dispatchRec .t 6 (.tcopy r) r c (wantAll r)
        { fields := copyTripsBad far (r.ctl.toNat % 4) c.trips
          types := !copyFmt r.type
          align := if far then farMisaligned base c.b c.c w else none
          held := if s.me.region && !c.d.isStream then farBlocks base c.b c.c w c else [] }
        (allFoots [streamFoots c.d c true, streamFoots c.a c false])
    | none => s)

/-- tfill (R340). -/
def execTfill (r : Rec) (s : State) : Res :=
  .next (
    match recPlan (.tfill r) with
    | some (_, sp, _) =>
      let c := s.capRec sp r
      let w := copyBytes r
      let far := !c.d.isStream
      s.dispatchRec .t 6 (.tfill r) r c (wantAll r)
        { fields := copyTripsBad far 0 c.trips
          types := !copyFmt r.type
          align := if far then farMisaligned c.d c.b c.c w else none
          held := if s.me.region && far then farBlocks c.d c.b c.c w c else [] }
        (streamFoots c.d c true)
    | none => s)

/-- tfetch (R341). -/
def execTfetch (r : Rec) (s : State) : Res :=
  .next (
    match recPlan (.tfetch r) with
    | some (_, sp, _) =>
      let c := s.capRec sp r
      let w := copyBytes r
      s.dispatchRec .t 6 (.tfetch r) r c (wantAll r)
        { fields := copyTripsBad true 0 c.trips, types := !copyFmt r.type, align := farMisaligned c.a c.b c.c w }
        (if wsPast c.a c.b c.c w c.trips then none else streamFoots c.d c true)
    | none => s)

/-- tgather (R342). -/
def execTgather (r : Rec) (s : State) : Res :=
  .next (
    match recPlan (.tgather r) with
    | some (_, sp, _) =>
      let c := s.capRec sp r
      s.dispatchRec .t 6 (.tgather r) r c (wantAll r)
        { fields := copyTripsBad true 0 c.trips, types := !copyFmt r.type, align := farMisaligned c.a .none .none (copyBytes r) }
        (allFoots [streamFoots c.d c true, streamFoots c.b c false])
    | none => s)

/-- tscatter: inside an open region each active element counts as one further entry (R43, R342). -/
def execTscatter (r : Rec) (s : State) : Res :=
  .next (
    match recPlan (.tscatter r) with
    | some (_, sp, _) =>
      let c := s.capRec sp r
      s.dispatchRec .t 6 (.tscatter r) r c (wantAll r)
        { fields := copyTripsBad true 0 c.trips, types := !copyFmt r.type, align := farMisaligned c.d .none .none (copyBytes r)
          extra := if s.me.region then (activePoints c).length else 0 }
        (allFoots [streamFoots c.a c false, streamFoots c.b c false])
    | none => s)

/-! ## The region map as dispatch reckons it (R343) -/

/-- An entry of the map as earlier dispatched tmaps and tunmaps leave it: base and length. -/
abbrev MapView := SMap (Option (Nat × Nat))

/-- The entry as it stands. -/
def viewOf (l : LCore) : MapView := l.regions.foldl (fun m e => if e.2.used then sset none m e.1 (some (e.2.base, e.2.len)) else m) []

/-- What a queued record makes of the map. -/
def MapView.after (m : MapView) (x : Entry) : MapView :=
  match x.instr with
  | .tmap _ => sset none m x.cap.d.val.toNat (some (x.cap.b.val.toNat, x.cap.c.val.toNat))
  | .tunmap _ => sset none m x.cap.d.val.toNat none
  | _ => m

/-- The map of the issuing strand's logical core as every earlier dispatched tmap and tunmap leaves it (R343). -/
def State.mapView (s : State) : MapView :=
  ((s.coreAt s.myCore).t.all.filter fun x => decide (x.ref.task = s.cur.task ∧ x.ref.lcore = s.cur.lcore)).foldl
    MapView.after (viewOf (s.lcoreAt s.myLc))

/-- The values break a condition of R92. -/
def State.mapBad (s : State) (i b n : Nat) : Bool :=
  decide (63 < i ∨ n = 0 ∨ 2 ^ 20 < n ∨ s.myQuota < b + n) ||
    s.mapView.any fun e => decide (e.1 ≠ i) && match e.2 with
      | some (x, y) => decide (x < b + n ∧ b < x + y)
      | none => false

/-- tmap (R343). -/
def execTmap (r : Rec) (s : State) : Res :=
  .next (
    match recPlan (.tmap r) with
    | some (_, sp, _) =>
      let c := s.capRec sp r
      let (i, b, n) := (c.d.val.toNat, c.b.val.toNat, c.c.val.toNat)
      s.dispatchRec .t 6 (.tmap r) r c (wantAll r) { fields := farTripBad c || s.mapBad i b n } (some [⟨b, b + n, true⟩])
    | none => s)

/-- The footprint of a map entry that is used (R344). -/
def State.entryFoot (s : State) (i : Nat) : Option (Nat × Nat) := sget none s.mapView i

/-- Dispatch tunmap or tflush: an unused entry is refused (R344). -/
def State.dispatchUnmap (s : State) (i : Instr) (r : Rec) : State :=
  match recPlan i with
  | some (_, sp, _) =>
    let c := s.capRec sp r
    let e := s.entryFoot c.d.val.toNat
    s.dispatchRec .t 6 i r c (wantAll r) { fields := e.isNone }
      (some (e.toList.map fun (b, n) => ⟨b, b + n, true⟩))
  | none => s

/-- tunmap (R344). -/
def execTunmap (r : Rec) (s : State) : Res := .next (s.dispatchUnmap (.tunmap r) r)

/-- tflush (R344). -/
def execTflush (r : Rec) (s : State) : Res := .next (s.dispatchUnmap (.tflush r) r)

/-- tprefetch (R345): no footprint; its index or count is checked. (log 27, DEDUCED) -/
def execTprefetch (r : Rec) (s : State) : Res :=
  .next (
    match recPlan (.tprefetch r) with
    | some (_, sp, _) =>
      let c := s.capRec sp r
      let bad := if r.ctl.getLsbD 0 then farTripBad c || decide (c.b.val.toNat = 0 ∨ 2 ^ 30 < c.b.val.toNat) else decide (63 < c.d.val.toNat)
      s.dispatchRec .t 6 (.tprefetch r) r c (wantAll r) { fields := bad } (some [])
    | none => s)

/-! ## twload (R346) -/

/-- Physical cluster `p` is held by a function's partition registers (R216). -/
def Fn.hasCluster (f : Fn) (p : Nat) : Bool := if p < 64 then f.clus0.getLsbD p else f.clus1.getLsbD (p - 64)

/-- The function holds every active cluster of a C-die (R346). -/
def State.holdsDie (s : State) (fn die : Nat) : Bool :=
  (List.range 18).all fun i => s.fusedAt (18 * die + i) || (s.fnAt fn).hasCluster (18 * die + i)

/-- twloads of the issuing strand's logical core in this step task, executed or queued. -/
def State.loadsSoFar (s : State) : Nat :=
  (s.lcoreAt s.myLc).twloads.length +
    ((s.coreAt s.myCore).t.all.filter fun x => decide (x.ref.task = s.cur.task ∧ x.ref.lcore = s.cur.lcore) &&
      match x.instr with | .twload _ => true | _ => false).length

/-- twload (R346). -/
def execTwload (r : Rec) (s : State) : Res :=
  .next (
    match recPlan (.twload r) with
    | some (_, sp, _) =>
      let c := s.capRec sp r
      let (ws, va, n) := (c.d.val, c.a.val, c.b.val)
      let fn := match s.vrAt s.myVrId with | some v => v.fn | none => 0
      s.dispatchRec .t 6 (.twload r) r c (wantAll r)
        { priv := !s.holdsDie fn (dieOf s.myCore)
          region := true
          fields := farTripBad c || decide (n = 0 ∨ 16 ≤ s.loadsSoFar)
          align := if ws.toNat % 64 ≠ 0 then some ws else if va.toNat % 64 ≠ 0 then some va else if n.toNat % 64 ≠ 0 then some ws else none }
        (if 2 ^ 28 < ws.toNat + n.toNat then none else some [])
    | none => s)

/-- tmode (R347): its effect comes when it leaves the transfer queue. -/
def execTmode (tr : Bool) (s : State) : Res := .next (s.dispatchEntry .t (.tmode tr))

/-! ## Far elements (R112, R337, R338) -/

/-- The access of a record of a core. -/
def State.recAcc (s : State) (core : Nat) (x : Entry) (need : BitVec 5) : Acc :=
  { core := some core, who := .record x.uid, vr := (s.taskAt x.ref.task).vr, need := need, source := 6,
    lcore := x.ref.lcore, join := true, inst := (s.payerOf x.ref.task).inst }

/-- The region that the record was dispatched in is still open: its far writes are held (R42, R337). -/
def State.holdsFar (s : State) (x : Entry) : Bool :=
  let t := s.strandAt x.ref.key
  decide (t.sid = x.sid ∧ t.opened ≤ x.uid) && t.region

/-- The running record's region was aborted: what it would still write there is discarded (R45). -/
def State.voided (s : State) (core : Nat) (x : Entry) : Bool :=
  match (s.coreAt core).t.run with
  | some u => decide (u.e.uid = x.uid) && u.void
  | none => false

/-- A far access waits for what a commit has released of its strand at the same location (R123, R125). -/
def State.farBarred (s : State) (x : Entry) (a n : Nat) : Bool :=
  (s.waitingOf x.ref.key x.sid).any fun w => w.onPath .t allClasses && w.overlaps (s.places (lckey x.ref.task x.ref.lcore)) a n

/-- A budget holds the record's next request for memory (R219; log 62, DEDUCED). -/
def State.farHeld (s : State) (x : Entry) : Bool := s.budgetHeld (s.taskAt x.ref.task).vr 0

/-- Write bytes at a far address: discarded, held, refused, waiting or done. -/
def State.farWrite (s : State) (core : Nat) (x : Entry) (r : Rec) (a : Int) (bs : List Byte) : ElemAns :=
  if s.voided core x then .ok s 0
  else if s.holdsFar x ∧ 0 ≤ a then
    let pl := s.places (lckey x.ref.task x.ref.lcore)
    .ok (s.onStrand x.ref.key fun t => { t with rsb := holdBytes pl x.uid x.pc 6 (.t, r.cls) none 2 t.rsb a.toNat bs }) 0
  else if a < 0 then .refused s
  else if s.farBarred x a.toNat bs.length || s.farHeld x then .wait s
  else
    match s.gvWrite (s.recAcc core x rW) a.toNat bs with
    | (s, .ok ()) => .ok s 0
    | (s, .refused _) => .refused s
    | (s, .wait) => .wait s

/-- Read bytes at a far address and put them where `k` says. -/
def State.farRead (s : State) (core : Nat) (x : Entry) (a : Int) (w : Nat) (k : State → List Byte → State) : ElemAns :=
  if a < 0 then .refused s
  else if s.farBarred x a.toNat w || s.farHeld x then .wait s
  else
    match s.gvRead (s.recAcc core x rR) a.toNat w with
    | (s, .ok bs) => .ok (k s bs) 0
    | (s, .refused _) => .refused s
    | (s, .wait) => .wait s

/-- The bits of a near element. -/
def State.nearBits (s : State) (lc : Nat) (f : Fmt) (o : Operand) (p : Point) : Nat := o.bits (s.lcoreAt lc).sp f p

/-- Write a near element. -/
def State.nearPut (s : State) (lc : Nat) (f : Fmt) (o : Operand) (p : Point) (v : Nat) : State :=
  s.putElem lc (descBase o.desc) f (o.index p) v

/-- One element of tcopy (R339), in the order of the expansion (R26), `over` if its near destination has been written since. -/
def copyElem (core : Nat) (x : Entry) (r : Rec) (lc : Nat) (later : Bool) (p : Point) (s : State) : ElemAns :=
  let c := x.cap
  let w := copyBytes r
  if c.d.isStream then
    if c.a.isStream then .ok (s.nearPut lc r.type c.d p (s.nearBits lc r.type c.a p)) 0
    else s.farRead core x (farAddr c.a c.b c.c w p) w fun s bs => if later then s else s.nearPut lc r.type c.d p (ofLeBytes bs)
  else s.farWrite core x r (farAddr c.d c.b c.c w p) (leBytes w (s.nearBits lc r.type c.a p))

/-- One element of tfill (R340). -/
def fillElem (core : Nat) (x : Entry) (r : Rec) (lc : Nat) (_later : Bool) (p : Point) (s : State) : ElemAns :=
  let c := x.cap
  let w := copyBytes r
  if c.d.isStream then .ok (s.nearPut lc r.type c.d p c.a.val.toNat) 0
  else s.farWrite core x r (farAddr c.d c.b c.c w p) (leBytes w c.a.val.toNat)

/-- One element of tfetch: a bank in refresh or waking holds the read (R99, R100, R341). -/
def fetchElem (core : Nat) (x : Entry) (r : Rec) (lc : Nat) (later : Bool) (p : Point) (s : State) : ElemAns :=
  let c := x.cap
  let w := copyBytes r
  let a := (farAddr c.a c.b c.c w p).toNat
  let die := dieOf core
  if s.wsHeld die (a / 0x1000000) then .wait s
  else .ok (if later then s else s.nearPut lc r.type c.d p (Mem.read (sget [] s.ws die) a w)) 0

/-- One element of tgather (R342). -/
def tgatherElem (core : Nat) (x : Entry) (r : Rec) (lc : Nat) (later : Bool) (p : Point) (s : State) : ElemAns :=
  let c := x.cap
  let w := copyBytes r
  s.farRead core x (c.a.val.toNat + s.nearBits lc r.type c.b p * w) w fun s bs => if later then s else s.nearPut lc r.type c.d p (ofLeBytes bs)

/-- One element of tscatter (R342). -/
def tscatterElem (core : Nat) (x : Entry) (r : Rec) (lc : Nat) (_later : Bool) (p : Point) (s : State) : ElemAns :=
  let c := x.cap
  let w := copyBytes r
  s.farWrite core x r (c.d.val.toNat + s.nearBits lc r.type c.a p * w) (leBytes w (s.nearBits lc r.type c.b p))

/-! ## Completion of copies -/

/-- The near bytes a copying record touches, status word included (R93, R337). -/
def copySpans (c : Cap) (r : Rec) : List (Nat × Nat) :=
  let ps := activePoints c
  c.d.spans ps ++ c.a.spans ps ++ c.b.spans ps ++ (statFoot r).map fun f => (f.lo, f.hi)

/-- A fill that a transfer record triggers would read what a commit of its strand released and has not written yet (R121, R123). -/
def State.fillsBarred (s : State) (x : Entry) (spans : List (Nat × Nat)) : Bool :=
  let l := s.lcoreAt (lckey x.ref.task x.ref.lcore)
  (l.unfilledIn spans).any fun i => s.farBarred x (l.reg i).va.toNat (l.reg i).len

/-- The far address of an element in the global space (R338, R339, R342). -/
def farAt (x : Entry) (r : Rec) (sp : Mem) (p : Point) : Option Int :=
  let c := x.cap
  let w := copyBytes r
  match x.instr with
  | .tcopy _ => if !c.d.isStream then some (farAddr c.d c.b c.c w p) else if c.a.isStream then none else some (farAddr c.a c.b c.c w p)
  | .tfill _ => if c.d.isStream then none else some (farAddr c.d c.b c.c w p)
  | .tgather _ => some ((c.a.val.toNat + c.b.bits sp r.type p * w : Nat) : Int)
  | .tscatter _ => some ((c.d.val.toNat + c.a.bits sp r.type p * w : Nat) : Int)
  | _ => none

/-- Run a copying record: fills first, then the elements that are left: those of retried pages in the order of the retries, then the others (R112, R337, R351). (log 12, DEDUCED) -/
def State.runCopy (s : State) (core : Nat) (u : Run) (r : Rec) (f : Nat → Bool → Point → State → ElemAns) : Done :=
  let lc := lckey u.e.ref.task u.e.ref.lcore
  if s.fillsBarred u.e (copySpans u.e.cap r) then .wait s
  else
  match s.touchSpans lc (copySpans u.e.cap r) with
  | (s, .wait) => .wait s
  | (s, .refused _) => if u.done.isEmpty then .ended s fTR 0 eUnfilled else .ended s (u.flags ||| fTR) u.refused 0
  | (s, .ok ()) =>
    let pts := activePoints u.e.cap
    let onPage (g : Nat) : List Point := pts.filter fun p => decide ((farAt u.e r (s.lcoreAt lc).sp p).map (fun a => a / 65536) = some (g : Int))
    let (s, done, n, fl, w) := elemPass (f lc) u.e.cap (u.retry.flatMap onPage ++ pts) s u.done u.refused u.flags false
    if w then .wait (s.onRun core .t fun u => { u with done := done, refused := n, flags := fl, retry := [] }) else .ended s fl n 0

/-! ## The region map at execution (R95, R343, R344) -/

/-- What becomes of an entry whose dirty lines go out: flushed, removed, or replaced. -/
inductive Evict
  | flush | unmap | map (new : Region)
  deriving DecidableEq, Repr

/-- The entry afterwards. -/
def Evict.leaves (e : Evict) (old : Region) : Region :=
  match e with
  | .flush => if old.st = .dirty then { old with st := .filled, lines := [] } else old
  | .unmap => Region.zero
  | .map r => r

/-- The bytes of the marked lines of a region. -/
def LCore.lineBytes (l : LCore) (r : Region) : List (Nat × List Byte) :=
  r.marked.map fun i => let (off, n) := r.line i; (i, l.spBytes (r.base + off) n)

/-- The blocks of a write-back's lines. -/
def lineBlocks (r : Region) (ls : List (Nat × List Byte)) : List (Nat × Nat) :=
  (ls.flatMap fun e => blocksOf 0 (r.va.toNat + 64 * e.1) e.2.length).eraseDups

/-- Hold a write-back in the open region; one that would overflow the buffer is deferred to commit and takes no entry (R42, R43). What the buffer holds of its bytes takes their values (R43, R119). -/
def State.holdBack (s : State) (x : Entry) (lc idx : Nat) (old : Region) (cls : BitVec 4) (evict : Bool) : State :=
  let ls := (s.lcoreAt lc).lineBytes old
  let bs := lineBlocks old ls
  let pl := s.places lc
  s.onStrand x.ref.key fun t =>
    let full := overCapacity t.rsb bs
    let l := if full then t.rsb else ls.foldl (fun l e => patchAll pl none (lineVa old e.1) e.2 l) t.rsb
    { t with rsb := l ++ [.wback x.uid idx (if full then [] else bs) old ls x.pc cls evict none] }

/-- Run tmap, tunmap or tflush: the dirty entry is written back first (R343, R344). -/
def State.runEvict (s : State) (u : Run) (r : Rec) (e : Evict) : Done :=
  let lc := lckey u.e.ref.task u.e.ref.lcore
  let idx := u.e.cap.d.val.toNat
  let old := (s.lcoreAt lc).reg idx
  let put (s : State) (o : Region) : State := s.onLcore lc fun l => l.setRegion idx (e.leaves o)
  if old.st ≠ .dirty then .ended (put s old) 0 0 0
  else if u.void then .ended s 0 0 0
  else if s.holdsFar u.e then
    .ended (put (s.holdBack u.e lc idx old r.cls (decide (e ≠ .flush))) old) 0 0 0
  else if old.marked.any fun i => let (off, n) := old.line i; s.farBarred u.e (old.va.toNat + off) n then .wait s
  else
    match s.writeBack lc idx with
    | (s, .ok ()) => .ended (put s ((s.lcoreAt lc).reg idx)) 0 0 0
    | (s, .refused _) =>
      let left := ((s.lcoreAt lc).reg idx).marked.length
      .ended (s.onLcore lc fun l => { l with errs := l.errs ++ [⟨u.e.uid, cEngine, 6, pcWord u.e.pc⟩] }) fTR left 0
    | (s, .wait) => .wait s

/-- The region that a tmap installs (R343). -/
def newRegion (c : Cap) (r : Rec) : Region :=
  { va := c.a.val, base := c.b.val.toNat, len := c.c.val.toNat, r := true, w := r.ctl.getLsbD 1, st := .unfilled, lines := [] }

/-- tprefetch at execution: starts a fill, or takes the range's pages onto the fault path with nothing waiting on them (R345). -/
def State.runPrefetch (s : State) (core : Nat) (u : Run) (r : Rec) : State :=
  let x := u.e
  if !r.ctl.getLsbD 0 then s.later (.event (.regionFill x.ref.task x.ref.lcore x.cap.d.val.toNat))
  else
    match s.vrAt (s.taskAt x.ref.task).vr with
    | none => s
    | some v =>
      let a := { s.recAcc core x rR with who := .span, join := false }
      (pagesOf x.cap.a.val.toNat x.cap.b.val.toNat).foldl (fun s pg =>
        let va := pg * 65536
        if 2 ^ 56 ≤ va then s
        else
          let w := s.walkVr v va
          match faultKind w with
          | some (k, ipa, node) => s.enterFault a v va k ipa node (foundEntry w) []
          | none => s) s

/-! ## Completion -/

/-- The status word's bytes are filled before the record does anything; refused, it does nothing (R93, R337). (log 30, DEDUCED) -/
def State.afterStatus (s : State) (u : Run) (r : Rec) (k : State → Done) : Done :=
  match s.touchSpans (lckey u.e.ref.task u.e.ref.lcore) ((statFoot r).map fun f => (f.lo, f.hi)) with
  | (s, .wait) => .wait s
  | (s, .refused _) => .ended s fTR 0 eUnfilled
  | (s, .ok ()) => k s

/-- The effect of a class 6 record. -/
def State.runTransfer (s : State) (core : Nat) (u : Run) : Option (Rec × Done) :=
  let x := u.e
  match x.instr with
  | .tcopy r => some (r, s.runCopy core u r (copyElem core x r))
  | .tgather r => some (r, s.runCopy core u r (tgatherElem core x r))
  | .tscatter r => some (r, s.runCopy core u r (tscatterElem core x r))
  | .tfill r => some (r, s.runCopy core u r (fillElem core x r))
  | .tfetch r => some (r, s.runCopy core u r (fetchElem core x r))
  | .tmap r => some (r, s.afterStatus u r fun s => s.runEvict u r (.map (newRegion x.cap r)))
  | .tunmap r => some (r, s.afterStatus u r fun s => s.runEvict u r .unmap)
  | .tflush r => some (r, s.afterStatus u r fun s => s.runEvict u r .flush)
  | .tprefetch r => some (r, .ended (s.runPrefetch core u r) 0 0 0)
  | .twload r => some (r, s.afterStatus u r fun s => .ended (s.onLcore (lckey x.ref.task x.ref.lcore) fun l =>
      { l with twloads := l.twloads ++ [(⟨x.cap.a.val.toNat, x.cap.d.val.toNat, x.cap.b.val.toNat, x.pc⟩ : WLoad)] }) 0 0 0)
  | _ => none

/-- End a transfer record: status word, and a pending ENGINE_ERROR for TR when the strand's eTR was set at its start (R347). -/
def State.endTransfer (s : State) (core : Nat) (u : Run) (r : Rec) (fl : Flags) (n : Nat) (code : BitVec 8) : State :=
  let s := s.putStatus u.e r (statusWord n code 0 fl)
  let s := if u.etr && fl.getLsbD 7 then s.engineError u.e 6 else s
  (s.settle (.record u.e.uid)).endRun core .t

/-- One completion step of a core's transfer engine. -/
def State.completeTransfer (s : State) (core : Nat) (u : Run) : State :=
  match s.runTransfer core u with
  | some (_, .wait s) => s
  | some (r, .ended s fl n code) => s.endTransfer core u r fl n code
  | none => s.endRun core .t

end Sys2Proof.Machine
end

