-- ==== Sys2Proof/Machine/Fabric.lean ====
section
/-! DEFINITION. Machine/Fabric.lean: class 7 words and qfence at dispatch (R251, R355 to R372), and what a class 7 word does as it leaves the fabric queue (R357, R358, R360). -/

namespace Sys2Proof.Machine

/-! ## Operand registers (R356) -/

/-- Length and scratchpad address of a block operand. -/
def blockOperand (v : Word) : Nat × Nat := ((v.extractLsb' 20 9).toNat, (v.extractLsb' 0 20).toNat)

/-- A block operand breaks its layout. -/
def blockBad (v : Word) : Bool := decide (v.extractLsb' 29 35 ≠ 0 ∨ (blockOperand v).1 = 0 ∨ 256 < (blockOperand v).1)

/-- Length and scratchpad address of a copy operand. -/
def copyOperand (v : Word) : Nat × Nat := ((v.extractLsb' 20 21).toNat, (v.extractLsb' 0 20).toNat)

/-- A copy operand breaks its layout. -/
def copyBad (v : Word) : Bool := decide (v.extractLsb' 41 23 ≠ 0 ∨ (copyOperand v).1 = 0 ∨ 2 ^ 20 < (copyOperand v).1)

/-- A list operand breaks its layout. -/
def listBad (v : Word) : Bool := decide (v.extractLsb' 27 37 ≠ 0 ∨ (listOperand v).1 = 0 ∨ 64 < (listOperand v).1)

/-- A target register breaks its layout. -/
def targetBad (v : Word) : Bool := decide (v.extractLsb' 20 44 ≠ 0)

/-- A handler register breaks its layout. -/
def handlerBad (v : Word) : Bool := decide (v.extractLsb' 57 7 ≠ 0)

/-- Destination VR of a target register. -/
def targetVr (v : Word) : Nat := v.toNat % 2 ^ 20

/-- The packet format of an atomic of a width: integer codes, or the floating codes of .fadd (R363). -/
def atomFmt (fadd : Bool) (w : Width) : BitVec 6 := if fadd then faddFmt w else (codeWidth w).setWidth 6 + 1

/-- MISALIGNED for the first address or length that is no multiple of the width; a length is reported at the VA (R356). -/
def fabMisaligned (w : Nat) (va : Word) (more : List (Nat × Nat)) : Option Word :=
  if va.toNat % w ≠ 0 then some va
  else (more.find? fun e => decide (e.1 % w ≠ 0 ∨ e.2 % w ≠ 0)).map fun e => if e.2 % w ≠ 0 then BitVec.ofNat 64 e.2 else va

/-! ## Dispatch -/

/-- What a class 7 word asks of dispatch, each in its place of R254's order. -/
structure FabChecks where
  region : Bool := false
  det    : Bool := false
  regs   : List Reg := []
  fields : Bool := false
  align  : Option Word := none
  foots  : List Foot := []
  held   : List (Nat × Nat) := []
  extra  : Nat := 0

/-- The checks of a class 7 word (R254, R356, R360). -/
def State.fabChk (s : State) (k : FabChecks) : Option Trap :=
  (chk (k.region && s.me.region) cRegion).or <|
  (chk (k.det && s.detmode) cDeterminism).or <|
  (s.me.chkPois k.regs).or <|
  (chk k.fields cIllegalField).or <|
  (k.align.map fun va => { cause := cMisaligned, va := va }).or <|
  (chk (footsPast s.myQuota k.foots) cSpad).or <|
  (chk (s.rsbOver k.held k.extra) cCapacity)

/-- What a class 7 word captures: its register values (R357). -/
def State.capWord (s : State) (vals : List Word) : Cap :=
  { trips := [], d := .none, a := .none, b := .none, c := .none, count := none, salt := 0, nbv := 1, region := s.me.region, vals := vals }

/-- Dispatch a word that retires (R359). -/
def State.dispatchWord (s : State) (i : Instr) (vals : List Word) (k : FabChecks) : State :=
  s.checked 7 (s.fabChk k) fun s => s.enqueue .f i (s.capWord vals) k.foots 1

/-- Dispatch a word that parks its strand: its continuation is the operation's number (R195, R359). -/
def State.dispatchPark (s : State) (i : Instr) (vals : List Word) (k : FabChecks) : State :=
  s.checked 7 (s.fabChk k) fun s =>
    if s.noRoom .f k.foots then s.block
    else ((s.push .f ⟨s.cur, s.me.sid, s.uid, s.me.pc, i, s.capWord vals, k.foots⟩).onMe fun t =>
      { t with status := .parked, park := some s.uid }).tickUid

/-- The footprint of a block or copy. -/
def spanFoot (o : Nat × Nat) (w : Bool) : Foot := ⟨o.2, o.2 + o.1, w⟩

/-- The blocks of a remote store of `n` bytes (R43): VR `v`'s space is 1 + v. -/
def remoteBlocks (v : Word) (va : Word) (n : Nat) : List (Nat × Nat) := blocksOf (1 + targetVr v) (va.toNat % 2 ^ 56) n

/-- rld (R361). -/
def execRld (blk : Bool) (d a v t : Reg) (m : FMem) (s : State) : Res :=
  .next (
    let (va, o, tv, tok) := (s.me.reg a, s.me.reg d, s.me.reg v, s.me.reg t)
    s.dispatchPark (.rld blk d a v t m) [va, o, tv, tok]
      { regs := [a, v, t] ++ (if blk then [d] else [])
        fields := targetBad tv || (blk && blockBad o)
        align := fabMisaligned (widthBytes m.width) va (if blk then [blockOperand o] else [])
        foots := if blk then [spanFoot (blockOperand o) true] else [] })

/-- The checks that rst and rsth share (R362). -/
def State.storeChecks (s : State) (blk : Bool) (b a v t : Reg) (m : FMem) (more : List Reg) (bad : Bool) : FabChecks :=
  let (va, o, tv) := (s.me.reg a, s.me.reg b, s.me.reg v)
  { regs := [b, a, v, t] ++ more
    fields := targetBad tv || (blk && blockBad o) || bad
    align := fabMisaligned (widthBytes m.width) va (if blk then [blockOperand o] else [])
    foots := if blk then [spanFoot (blockOperand o) false] else []
    held := if s.me.region then remoteBlocks tv va (if blk then (blockOperand o).1 else widthBytes m.width) else [] }

/-- rst (R362). -/
def execRst (blk : Bool) (b a v t : Reg) (m : FMem) (s : State) : Res :=
  .next (s.dispatchWord (.rst blk b a v t m) [s.me.reg a, s.me.reg b, s.me.reg v, s.me.reg t]
    (s.storeChecks blk b a v t m [] false))

/-- rsth (R362). -/
def execRsth (blk : Bool) (b a v t h : Reg) (m : FMem) (s : State) : Res :=
  .next (s.dispatchWord (.rsth blk b a v t h m) [s.me.reg a, s.me.reg b, s.me.reg v, s.me.reg t, s.me.reg h]
    (s.storeChecks blk b a v t m [h] (handlerBad (s.me.reg h))))

/-- ratom (R363). -/
def execRatom (op : BitVec 3) (d a b v t : Reg) (m : FMem) (s : State) : Res :=
  .next (s.dispatchPark (.ratom op d a b v t m) [s.me.reg a, s.me.reg b, s.me.reg v, s.me.reg t]
    { region := true, det := decide (op = 7), regs := [a, b, v, t], fields := targetBad (s.me.reg v)
      align := fabMisaligned (widthBytes m.width) (s.me.reg a) [] })

/-- rcas (R364). -/
def execRcas (d a b v t : Reg) (m : FMem) (s : State) : Res :=
  .next (s.dispatchPark (.rcas d a b v t m) [s.me.reg a, s.me.reg b, s.me.reg v, s.me.reg t, s.me.reg d]
    { region := true, regs := [d, a, b, v, t], fields := targetBad (s.me.reg v)
      align := fabMisaligned (widthBytes m.width) (s.me.reg a) [] })

/-- rprobe (R366). -/
def execRprobe (d a v t : Reg) (s : State) : Res :=
  .next (s.dispatchPark (.rprobe d a v t) [s.me.reg a, 0, s.me.reg v, s.me.reg t]
    { regs := [a, v, t], fields := targetBad (s.me.reg v) })

/-- rfeat (R367). -/
def execRfeat (d v t : Reg) (s : State) : Res :=
  .next (s.dispatchPark (.rfeat d v t) [0, 0, s.me.reg v, s.me.reg t]
    { regs := [v, t], fields := targetBad (s.me.reg v) })

/-- rmcast: inside an open region its unread destinations each count the payload's blocks (R43, R370). (log 17, DEDUCED) -/
def execRmcast (d a b : Reg) (m : FMem) (s : State) : Res :=
  .next (
    let (va, l, o) := (s.me.reg a, s.me.reg d, s.me.reg b)
    let (n, la) := listOperand l
    s.dispatchWord (.rmcast d a b m) [va, l, o]
      { regs := [d, a, b]
        fields := listBad l || blockBad o
        align := fabMisaligned (widthBytes m.width) va [blockOperand o]
        foots := [spanFoot (blockOperand o) false, ⟨la, la + 16 * n, false⟩, ⟨la + 16 * n, la + 16 * n + 16, true⟩]
        extra := if s.me.region then n * (blocksOf 0 (va.toNat % 2 ^ 56) (blockOperand o).1).length else 0 })

/-- rred (R371). -/
def execRred (op : BitVec 3) (b a v t : Reg) (m : FMem) (s : State) : Res :=
  .next (
    let (va, o, tv) := (s.me.reg a, s.me.reg b, s.me.reg v)
    s.dispatchWord (.rred op b a v t m) [va, o, tv, s.me.reg t]
      { det := decide (op = 7), regs := [b, a, v, t], fields := targetBad tv || blockBad o
        align := fabMisaligned (widthBytes m.width) va [blockOperand o]
        foots := [spanFoot (blockOperand o) false]
        held := if s.me.region then remoteBlocks tv va (blockOperand o).1 else [] })

/-- rcopy (R372). -/
def execRcopy (put : Bool) (d a v t : Reg) (cls : BitVec 4) (width : Width) (s : State) : Res :=
  .next (
    let (va, o, tv) := (s.me.reg a, s.me.reg d, s.me.reg v)
    s.dispatchWord (.rcopy put d a v t cls width) [va, o, tv, s.me.reg t]
      { regs := [d, a, v, t], fields := targetBad tv || copyBad o
        align := fabMisaligned (widthBytes width) va [copyOperand o]
        foots := [spanFoot (copyOperand o) (!put)]
        held := if s.me.region && put then remoteBlocks tv va (copyOperand o).1 else [] })

/-- rfence (R365): the first remote failure in issue order traps and is cleared; it waits only for what has been sent or will be (R360). -/
def execRfence (s : State) : Res :=
  .next (if (s.coreAt s.myCore).f.busyFor s.me.sid || s.remoteBusy s.me.sid then s.block
    else match firstFailure s.myRfails with
      | some f => (s.clearRfail f).takeTrap f.cls f.trap
      | none => (s.raiseFence s.cur.key s.uid .f .f allClasses).tickUid.fin id)

/-- qfence (R251). -/
def execQfence (e : Engine) (mask : BitVec 16) (s : State) : Res := .next (s.dispatchEntry e (.qfence e mask))

/-! ## Windows (R190 to R193, R368, R369) -/

def winRmax (w : BitVec 128) : BitVec 4 := w.extractLsb' 0 4
def winOpen (w : BitVec 128) : Bool := w.getLsbD 4
def winSealed (w : BitVec 128) : Bool := w.getLsbD 5
def winBase (w : BitVec 128) : Nat := (w.extractLsb' 8 56).toNat
def winGen (w : BitVec 128) : BitVec 8 := w.extractLsb' 64 8
def winLimit (w : BitVec 128) : Nat := (w.extractLsb' 72 56).toNat

/-- A window entry (R190). -/
def mkWin (limit : Nat) (gen : BitVec 8) (base : Nat) (sld opn : Bool) (rmax : BitVec 4) : BitVec 128 :=
  BitVec.ofNat 56 limit ++ gen ++ BitVec.ofNat 56 base ++ (0 : BitVec 2) ++ (if sld then (1 : BitVec 1) else 0) ++
    (if opn then (1 : BitVec 1) else 0) ++ rmax

/-- Window `n` of a VR. -/
def Vr.win (v : Vr) (n : Nat) : BitVec 128 := sget 0 v.windows n

/-- revoke on a window: the next generation, or sealed at 255 (R192). -/
def winRevoke (w : BitVec 128) : BitVec 128 :=
  if winGen w = 255 then mkWin (winLimit w) 255 (winBase w) true false (winRmax w)
  else mkWin (winLimit w) (winGen w + 1) (winBase w) (winSealed w) (winOpen w) (winRmax w)

/-- grant on a window (R368). -/
def winGrant (w : BitVec 128) (base limit : Nat) (rmax : BitVec 4) : BitVec 128 :=
  if winSealed w then w
  else if !winOpen w then mkWin limit (winGen w) base false true rmax
  else if winBase w = base ∧ winLimit w = limit ∧ winRmax w = rmax then w
  else
    let r := winRevoke w
    if winSealed r then r else mkWin limit (winGen r) base false true rmax

/-- The ASCII text DOLKAFOLD-GRANT (R193). -/
def grantText : List Byte := [0x44, 0x4F, 0x4C, 0x4B, 0x41, 0x46, 0x4F, 0x4C, 0x44, 0x2D, 0x47, 0x52, 0x41, 0x4E, 0x54]

/-- The MAC of the low 40 token bits for a target and a source VR (R193). -/
def tokenMac (key : BitVec 128) (tok : Nat) (target src : Nat) : BitVec 24 :=
  BitVec.ofNat 24 (ofLeBytes ((kmac128 (leBytes 16 key.toNat)
    (leBytes 5 tok ++ leBytes 3 target ++ leBytes 3 src) grantText 16).take 3))

/-- The token of a window for a holder (R191). -/
def mkToken (key : BitVec 128) (target src : Nat) (gen : BitVec 8) (rights : BitVec 4) (win : BitVec 12) (holder : BitVec 16) : Word :=
  let low : BitVec 40 := gen ++ rights ++ win ++ holder
  tokenMac key low.toNat target src ++ low

/-- The values of grant break their layouts or limits (R368). -/
def grantBad (base limit ctl : Word) : Bool :=
  let rights : BitVec 4 := ctl.extractLsb' 52 4
  let rmax : BitVec 4 := ctl.extractLsb' 12 4
  decide (ctl.extractLsb' 0 12 = 4095 ∨ rights.getLsbD 3 = true ∨ rmax.getLsbD 3 = true ∨ rights = 0 ∨ rights &&& rmax ≠ rights ∨
    base.extractLsb' 56 8 ≠ 0 ∨ limit.extractLsb' 56 8 ≠ 0 ∨ limit.toNat < base.toNat ∨ ctl.extractLsb' 56 8 ≠ 0)

/-- Words stand in the core's fabric queue: grant and revoke take their turn behind them (R35). -/
def State.fabricAhead (s : State) : Bool := !(s.coreAt s.myCore).f.all.isEmpty

/-- A word that blocks its strand until it ends (R368, R369). -/
def blocksWord : Instr → Bool
  | .grant .. | .revoke .. => true
  | _ => false

/-- The strand's own word that it is blocked at stands in the fabric queue. -/
def State.inFabric (s : State) : Bool := (s.coreAt s.myCore).f.all.any fun x => decide (x.sid = s.me.sid ∧ x.pc = s.me.pc ∧ blocksWord x.instr = true)

/-- Dispatch a word that keeps its strand blocked until it has taken its turn in the fabric queue: at once where nothing stands there (R35, R368, R369). (log 60, DEDUCED) -/
def State.dispatchBlocked (s : State) (i : Instr) (vals : List Word) (k : FabChecks) (now : State → State × Word) (d : Reg) : State :=
  s.checked 7 (s.fabChk k) fun s =>
    if s.inFabric then s.block
    else if s.fabricAhead then
      (if s.noRoom .f [] then s.block
       else ((s.push .f ⟨s.cur, s.me.sid, s.uid, s.me.pc, i, s.capWord vals, []⟩).tickUid).block)
    else
      let (s, w) := now s
      s.fin fun t => t.setReg d w

/-- What grant makes of a VR's window table, and its token (R190 to R193, R368). -/
def State.mint (s : State) (vr : Nat) (base limit ctl : Word) : State × Word :=
  let win : BitVec 12 := ctl.extractLsb' 0 12
  let s := s.onVr vr fun v =>
    { v with windows := sset 0 v.windows win.toNat (winGrant (v.win win.toNat) base.toNat limit.toNat (ctl.extractLsb' 12 4)) }
  (s, match s.vrAt vr with
    | none => 0
    | some v =>
      let w := v.win win.toNat
      if winSealed w then 0
      else mkToken v.key vr (ctl.extractLsb' 32 20).toNat (winGen w) (ctl.extractLsb' 52 4) win (ctl.extractLsb' 16 16))

/-- What revoke makes of a VR's window table, and what it writes (R192, R369). -/
def State.unmint (s : State) (vr n : Nat) : State × Word :=
  let s := s.onVr vr fun v => { v with windows := sset 0 v.windows n (winRevoke (v.win n)) }
  (s, match s.vrAt vr with
    | none => 0
    | some v => if winSealed (v.win n) then 0x100 else (winGen (v.win n)).setWidth 64)

/-- A grant or revoke leaves the fabric queue: it has its effect, and its strand goes on (R35, R368, R369). -/
def State.endBlocked (s : State) (x : Entry) (d : Reg) (r : State × Word) : State :=
  if s.alive x.ref x.sid then r.1.onStrand x.ref.key fun t => (t.setReg d r.2).retire 1 else r.1

/-- grant (R368). -/
def execGrant (d a b c : Reg) (s : State) : Res :=
  let (base, limit, ctl) := (s.me.reg a, s.me.reg b, s.me.reg c)
  .next (s.dispatchBlocked (.grant d a b c) [base, limit, ctl] { region := true, regs := [a, b, c], fields := grantBad base limit ctl }
    (fun s => s.mint s.myVrId base limit ctl) d)

/-- revoke (R369). -/
def execRevoke (d a : Reg) (s : State) : Res :=
  let n := s.me.reg a
  .next (s.dispatchBlocked (.revoke d a) [n] { region := true, regs := [a], fields := decide (4094 < n.toNat) }
    (fun s => s.unmint s.myVrId n.toNat) d)

/-! ## Packets of a word (R357) -/

/-- A request of a word. -/
def fabPacket (src : Nat) (v va tok : Word) (op : BitVec 8) (cls : BitVec 4) (sem : Sem) (scope : Scope) (sub : BitVec 7)
    (fmt : BitVec 6) (data : List Byte) : Packet :=
  { blankPacket src (targetVr v) 0 op (va.setWidth 56) with
    token := tok, cls := cls, sem := codeSem sem, scope := codeScope scope, sub := sub, fmt := fmt, data := data }

/-- The pieces of a copy: offset and length, cut at multiples of 256 in the VA (R372). -/
def copyPieces : Nat → Nat → Nat → Nat → List (Nat × Nat)
  | 0, _, _, _ => []
  | k + 1, va, off, n =>
    if n = 0 then []
    else let m := Nat.min n (256 - va % 256); (off, m) :: copyPieces k (va + m) (off + m) (n - m)

/-- The data of a store: the low bytes of a register, or the block's bytes. -/
def storeData (sp : Mem) (blk : Bool) (w : Width) (b : Word) : List Byte :=
  if blk then sp.bytes (blockOperand b).2 (blockOperand b).1 else lowBytes w b

/-- The packets that a word sends, with its payload as the scratchpad now stands (R357, R358, R370, R372). -/
def fabPieces (src : Nat) (sp : Mem) (i : Instr) (vals : List Word) : List RPiece :=
  let va := vals.getD 0 0
  let b := vals.getD 1 0
  let v := vals.getD 2 0
  let tok := vals.getD 3 0
  let x := vals.getD 4 0
  let pk (m : FMem) (op : BitVec 8) (sub : BitVec 7) (fmt : BitVec 6) (data : List Byte) : List RPiece :=
    [⟨fabPacket src v va tok op m.cls m.sem m.scope sub fmt data, 0, 0⟩]
  match i with
  | .rld blk _ _ _ _ m => pk m 0x01 0 0 (leBytes 8 (if blk then (blockOperand b).1 else widthBytes m.width))
  | .rst blk _ _ _ _ m => pk m 0x02 0 0 (storeData sp blk m.width b)
  | .rsth blk _ _ _ _ _ m => pk m 0x03 0 0 (leBytes 8 x.toNat ++ storeData sp blk m.width b)
  | .ratom op _ _ _ _ _ m => pk m 0x04 (op.setWidth 7) (atomFmt (decide (op = 7)) m.width) (leBytes 8 (b.toNat % 2 ^ (8 * widthBytes m.width)))
  | .rcas _ _ _ _ _ m =>
    let cut (y : Word) := leBytes 8 (y.toNat % 2 ^ (8 * widthBytes m.width))
    pk m 0x05 0 (atomFmt false m.width) (cut x ++ cut b)
  | .rprobe .. => [⟨fabPacket src v va tok 0x06 0 .plain .strand 0 0 [], 0, 0⟩]
  | .rfeat .. => [⟨fabPacket src v 0 tok 0x07 0 .plain .strand 0 0 [], 0, 0⟩]
  | .rred op _ _ _ _ m => pk m 0x09 (op.setWidth 7) (atomFmt (decide (op = 7)) m.width) (storeData sp true m.width b)
  | .rmcast _ _ _ m =>
    let (n, la) := listOperand b
    let data := storeData sp true m.width v
    (List.range n).flatMap fun i =>
      let w1 := BitVec.ofNat 64 (sp.read (la + 16 * i + 8) 8)
      if targetBad w1 then []
      else [(⟨fabPacket src w1 va (BitVec.ofNat 64 (sp.read (la + 16 * i) 8)) 0x08 m.cls m.sem m.scope 0 0 data, 0, i⟩ : RPiece)]
  | .rcopy put _ _ _ _ cls _ =>
    let (n, a) := copyOperand b
    let ps := copyPieces 4098 (va.toNat % 2 ^ 56) 0 n
    (List.range ps.length).map fun i =>
      let (off, k) := ps.getD i (0, 0)
      ⟨fabPacket src v (va + BitVec.ofNat 64 off) tok (if put then 0x02 else 0x01) cls .plain .strand 0 0
        (if put then sp.bytes (a + off) k else leBytes 8 k), a + off, i⟩
  | _ => []

/-- The word's stores are held by an open region (R360). -/
def holdsWord : Instr → Bool
  | .rst .. | .rsth .. | .rmcast .. | .rred .. => true
  | .rcopy put .. => put
  | _ => false

/-- The word parks its strand (R359). -/
def parksWord : Instr → Bool
  | .rld .. | .ratom .. | .rcas .. | .rprobe .. | .rfeat .. => true
  | _ => false

/-- The blocks of the held packets (R43). -/
def pieceBlocks (ps : List RPiece) : List (Nat × Nat) :=
  (ps.flatMap fun p => blocksOf (1 + p.p.dstvr.toNat) p.p.va.toNat (p.p.data.length - (if p.p.op = 0x03 then 8 else 0))).eraseDups

/-- The operation that a word becomes as it leaves the fabric queue. -/
def ropOf (x : Entry) (left : Nat) (held : Option (List RPiece)) (cancel : Bool) : ROp :=
  { uid := x.uid, ref := x.ref, sid := x.sid, pc := x.pc, instr := x.instr, va := x.cap.vals.getD 0 0, vals := x.cap.vals,
    left := left, ok := [], unk := [], fail := none, parked := parksWord x.instr, cancel := cancel && parksWord x.instr, held := held, com := true, foots := x.foots }

/-- Send what is left of a word's packets; the word leaves the queue once all are injected (R196, R358). -/
def State.injectRest (s : State) (core : Nat) (by_ : Sender) (uid : Nat) (ps : List RPiece) : State :=
  match State.sendPieces by_ uid ps s with
  | (s, []) => ((s.onRop uid fun o => { o with held := none }).finishRop uid).endRun core .f
  | (s, left) => s.onRop uid fun o => { o with held := some left }

/-- A word whose fill was refused ends with REMOTE_FAULT and sends nothing (R358). -/
def State.wordUnfilled (s : State) (x : Entry) : State :=
  let va := x.cap.vals.getD 0 0
  if parksWord x.instr then
    (if s.alive x.ref x.sid then s.trapOn x.ref.key { cause := cRemoteFault, va := va } 7 x.pc else s)
  else s.addRfail x.ref x.sid ⟨x.uid, cRemoteFault, 7, va⟩

/-- Inject the running word of a core's fabric queue: fills first, then its packets, behind an earlier word's to one of its locations in another class; a store of an open region is held instead (R123, R357, R358, R360). -/
def State.inject (s : State) (core : Nat) (u : Run) : State :=
  let x := u.e
  match s.rops.find? (fun o => decide (o.uid = x.uid)) with
  | some o => s.injectRest core (s.senderOf x.ref) x.uid (o.held.getD [])
  | none =>
    if u.void && holdsWord x.instr then s.endRun core .f
    else
    match s.touchSpans (lckey x.ref.task x.ref.lcore) (x.foots.map fun f => (f.lo, f.hi)) with
    | (s, .wait) => s
    | (s, .refused _) => (if u.void && parksWord x.instr then s else s.wordUnfilled x).endRun core .f
    | (s, .ok ()) =>
      let va := x.cap.vals.getD 0 0
      let s := s.onRun core .f fun u => { u with e := { u.e with foots := [] } }
      let ps := fabPieces (s.taskAt x.ref.task).vr (s.lcoreAt (lckey x.ref.task x.ref.lcore)).sp x.instr x.cap.vals
      if va.extractLsb' 56 8 ≠ 0 then
        let isList := match x.instr with | .rmcast .. => true | _ => false
        let o := if isList then ropOf x 0 none u.void else (ropOf x 1 none u.void).ends 0 (some cRemoteFault)
        ({ s with rops := s.rops ++ [o] }.finishRop x.uid).endRun core .f
      else if holdsWord x.instr && s.holdsFar x then
        ({ s with rops := s.rops ++ [{ ropOf x ps.length (some ps) u.void with com := false }] }.onStrand x.ref.key fun t =>
          { t with rsb := t.rsb ++ [Held.remote x.uid (pieceBlocks ps)] }).endRun core .f
      else if s.locWaits x.sid x.uid ps then s
      else ({ s with rops := s.rops ++ [ropOf x ps.length (some ps) u.void] }).injectRest core (s.senderOf x.ref) x.uid ps

end Sys2Proof.Machine
end

