-- ==== Sys2Proof/Machine/Remote.lean ====
section
/-! DEFINITION. Machine/Remote.lean: requests at their destination (R189 to R202, R366, R367, R374, R378) and answers at their requester (R195, R198, R199, R357). -/

namespace Sys2Proof.Machine

/-! ## Sequences at a destination (R196, R197) -/

/-- What the VR `dst` keeps for source `src`. -/
def State.srcAt (s : State) (dst src : Nat) : SrcWin :=
  match s.vrAt dst with
  | some v => sget SrcWin.init v.srcs src
  | none => SrcWin.init

/-- Change what a VR keeps for a source. -/
def State.onSrc (s : State) (dst src : Nat) (f : SrcWin → SrcWin) : State :=
  s.onVr dst fun v => { v with srcs := smod SrcWin.init v.srcs src f }

/-- `p` is above `h`, modulo 2^32. -/
def seqAbove (h p : BitVec 32) : Bool := decide (0 < (p - h).toNat ∧ (p - h).toNat < 2 ^ 31)

/-- `p` lies in the 4,096 sequences up to `h`. -/
def seqIn (h p : BitVec 32) : Bool := decide ((h - p).toNat < 4096)

/-- Accept a sequence: recorded in progress; records that leave the window go (R197). -/
def SrcWin.accept (w : SrcWin) (p : BitVec 32) : SrcWin :=
  let h := if seqAbove w.high p then p else w.high
  { w with high := h, recs := sset none (w.recs.filter fun e => seqIn h (BitVec.ofNat 32 e.1)) p.toNat (some ⟨false, 0, []⟩) }

/-- A sequence is forgotten: a busy or full answer keeps no record (R197, R198). -/
def SrcWin.forget (w : SrcWin) (p : BitVec 32) : SrcWin := { w with recs := sset none w.recs p.toNat none }

/-- Take class sequences resolved ahead of their order into the order. -/
def SrcWin.catchUp (c : Nat) : Nat → SrcWin → SrcWin
  | 0, w => w
  | k + 1, w =>
    let n := sget 0 w.cseq c + 1
    if w.early.contains (c, n) then
      SrcWin.catchUp c k { w with cseq := sset 0 w.cseq c n, early := w.early.filter fun e => decide (e ≠ (c, n)) }
    else w

/-- A class sequence is resolved (R196). -/
def SrcWin.resolved (w : SrcWin) (c : Nat) (n : BitVec 14) : SrcWin :=
  let d := (n - sget 0 w.cseq c).toNat
  if d = 1 then SrcWin.catchUp c w.early.length { w with cseq := sset 0 w.cseq c n }
  else if 1 < d ∧ d < 8192 then { w with early := w.early ++ [(c, n)] }
  else w

/-- Where a packet stands in its class: 0 it is next, 1 a predecessor is missing, 2 it is behind, or resolved ahead of its order (R196). -/
def SrcWin.place (w : SrcWin) (c : Nat) (n : BitVec 14) : Nat :=
  let d := (n - sget 0 w.cseq c).toNat
  if d = 1 then 0 else if 1 < d ∧ d < 8192 ∧ !w.early.contains (c, n) then 1 else 2

/-- The class sequences that are neither resolved nor here, from just before `n` back to one that is here, ascending (R196; log 112, DEDUCED). -/
def SrcWin.missing (w : SrcWin) (here : List (BitVec 14)) (c : Nat) (n : BitVec 14) : List (BitVec 14) :=
  if w.place c n ≠ 1 then []
  else
    ((((List.range ((n - sget 0 w.cseq c).toNat - 1)).map fun i => n - 1 - BitVec.ofNat 14 i).takeWhile fun q => !here.contains q).filter
      fun q => !w.early.contains (c, q)).reverse

/-- Missing class sequences are abandoned, those that were resolved ahead of their order taken into it first: they count as resolved, so that one that arrives later is discarded (R196). -/
def SrcWin.abandoned (w : SrcWin) (c : Nat) (l : List (BitVec 14)) : SrcWin :=
  l.foldl (fun w q => w.resolved c q) (SrcWin.catchUp c w.early.length w)

/-- The MAC failed: the 16th failure, or one beyond the tracked sources, quarantines (R194). Both F-dies share one count and one set of tracked sources (log 117, DESIGN CHOICE). -/
def State.macFail (s : State) (dst src : Nat) : State :=
  let tracked := match s.vrAt dst with | some v => (v.srcs.filter fun e => decide (0 < e.2.fails)).length | none => 0
  s.onSrc dst src fun w =>
    { w with fails := w.fails + 1, quar := w.quar || decide (16 ≤ w.fails + 1) || (decide (w.fails = 0) && decide (1024 ≤ tracked)) }

/-- The token verifies for the packet's source and target (R193). -/
def tokenGood (key : BitVec 128) (p : Packet) : Bool :=
  decide (tokenMac key (p.token.toNat % 2 ^ 40) p.dstvr.toNat p.srcvr.toNat = p.token.extractLsb' 40 24)

/-! ## What a request asks for (R188, R357) -/

/-- The operation's right as token and window bits: 3 migrate, 2 atomic, 1 write, 0 read (R188). -/
def opRight (op : BitVec 8) : Nat :=
  match op.toNat with
  | 1 | 6 => 1
  | 2 | 3 | 8 => 2
  | 4 | 5 | 9 => 4
  | 0x28 | 0x29 | 0x2A => 8
  | _ => 0

/-- The page rights of an arrival (R108). -/
def opNeed (op : BitVec 8) : BitVec 5 :=
  match op.toNat with
  | 1 | 6 => rF ||| rR
  | 2 | 3 | 8 => rF ||| rW
  | _ => rF ||| rW ||| rA

/-- The request's payload has its operation's form (R357). (log 22, DESIGN CHOICE) -/
def reqFormed (p : Packet) : Bool :=
  match p.op.toNat with
  | 1 => decide (p.data.length = 8) && decide (ofLeBytes p.data = reqLen p) && decide (1 ≤ reqLen p ∧ reqLen p ≤ 256)
  | 3 => decide (8 < p.data.length) && decide (ofLeBytes (p.data.take 8) < 2 ^ 57)
  | 4 => decide (p.data.length = 8)
  | 5 => decide (p.data.length = 16)
  | 6 | 7 => p.data.isEmpty
  | 0x28 | 0x2A => p.data.isEmpty && decide (p.va.toNat % 65536 = 0)
  | 0x29 => decide (p.data.length = 4096 ∧ p.va.toNat % 4096 = 0)
  | _ => decide (p.data ≠ [])

/-- The operation and format are supported (R201, R363). (log 24, DEDUCED) -/
def reqSupported (p : Packet) : Bool :=
  let fmtOk := decide (0x05 ≤ p.fmt.toNat ∧ p.fmt.toNat ≤ 0x07 ∨ 0x10 ≤ p.fmt.toNat ∧ p.fmt.toNat ≤ 0x13)
  match p.op.toNat with
  | 4 | 9 => decide (p.sub.toNat ≤ 7) && fmtOk && decide (decide (p.sub = 7) = isF p.fmt) &&
      (decide (p.op = 4) || decide (p.data.length % (fmtBits p.fmt / 8) = 0))
  | 5 => decide (0x05 ≤ p.fmt.toNat ∧ p.fmt.toNat ≤ 0x07)
  | _ => true

/-- The operation is answered with data. -/
def opData (op : BitVec 8) : Bool := decide (op.toNat = 1 ∨ op.toNat = 4 ∨ op.toNat = 5 ∨ op.toNat = 6 ∨ op.toNat = 7)

/-- Answer a request with a status; one that is answered with data gets an empty data reply unless data is given (R189). (log 21, DESIGN CHOICE) -/
def State.reply (s : State) (p : Packet) (status : BitVec 7) (data : List Byte) : State :=
  s.answer p status 0 0 0 (if opData p.op then some data else none)

/-- The window that the token names opens to the request (R189 step 6, R191). -/
def winAllows (v : Vr) (p : Packet) (n : Nat) : Bool :=
  let w := v.win (p.token.extractLsb' 16 12).toNat
  winOpen w && decide (winGen w = p.token.extractLsb' 32 8) &&
    decide ((p.token.extractLsb' 28 4).toNat &&& (winRmax w).toNat &&& opRight p.op = opRight p.op) &&
    decide (winBase w ≤ p.va.toNat ∧ p.va.toNat + n ≤ winLimit w + 1)

/-! ## Collective messages (R374, R378) -/

/-- The VA lies in the collective staging range. (log 25, DESIGN CHOICE) -/
def inStaging (va : Nat) : Bool := decide (0x00FF000000000000 ≤ va)

/-- The packet is a collective message: a store into the staging range through window 4,095. -/
def isCollective (p : Packet) : Bool := decide (p.op = 2 ∧ p.token.extractLsb' 16 12 = 4095) && inStaging p.va.toNat

def msgKind (va : BitVec 56) : Nat := (va.extractLsb' 32 3).toNat
def msgComm (va : BitVec 56) : Nat := (va.extractLsb' 35 4).toNat
def msgInst (va : BitVec 56) : Nat := (va.extractLsb' 28 4).toNat
def msgLevel (va : BitVec 56) : Nat := (va.extractLsb' 24 4).toNat
def msgOff (va : BitVec 56) : Nat := (va.extractLsb' 0 20).toNat

/-- The message's VA and length are ones that some record expects (R378). -/
def msgFormed (va : BitVec 56) (n : Nat) : Bool :=
  decide (va.extractLsb' 39 9 = 0 ∧ va.extractLsb' 20 4 = 0) &&
  match msgKind va with
  | 0 => decide (msgInst va = 0 ∧ msgLevel va = 0 ∧ msgOff va % 16 = 0 ∧ n = 16)
  | 1 => decide (msgLevel va = 0 ∧ msgOff va % 16 = 0 ∧ n = 16)
  | 2 | 3 => decide (msgOff va + n ≤ 2 ^ 20)
  | 4 => decide (msgLevel va = 0 ∧ msgOff va + n ≤ 2 ^ 20)
  | 5 => decide (msgOff va = 0 ∧ n = 8)
  | _ => false

/-- Keep a collective message, unless it is malformed or repeats one from its sender (R378). -/
def State.stage (s : State) (p : Packet) : State :=
  s.onVr p.dstvr.toNat fun v =>
    if !msgFormed p.va p.data.length || v.staged.any fun m => decide (m.src = p.srcvr.toNat ∧ m.va = p.va) then v
    else { v with staged := v.staged ++ [⟨p.srcvr.toNat, p.va, p.data⟩] }

/-! ## Translation of an arrival (R108, R189 step 9, R202) -/

/-- The access of an arriving packet. -/
def pktAcc (p : Packet) : Acc :=
  { core := none, who := .packet p.srcvr.toNat p.dstvr.toNat p.pseq, vr := p.dstvr.toNat, need := opNeed p.op, source := 7,
    lcore := 0, join := true, die := p.die }

/-- A page of an arrival: VA, bytes, and where it lies unless it is refused. -/
abbrev PageRun := Nat × Nat × Option Nat

/-- Judge the pages of a range one by one; true when some page waits (R202). -/
def State.judge (a : Acc) : Nat → State → Nat → Nat → State × List PageRun × Bool
  | 0, s, _, _ => (s, [], false)
  | k + 1, s, va, n =>
    if n = 0 then (s, [], false)
    else
      let m := Nat.min n (65536 - va % 65536)
      let (s, r) := s.xlate a va
      let (s, rest, w) := State.judge a k s (va + m) (n - m)
      match r with
      | .ok pa => (s, (va, m, some pa) :: rest, w)
      | .refused _ => (s, (va, m, none) :: rest, w)
      | .wait => (s, rest, true)

/-- Every page was translated. -/
def pagesOk (l : List PageRun) : Bool := l.all fun r => r.2.2.isSome

/-- The translated runs. -/
def pageRuns (l : List PageRun) : List (Nat × Nat) := l.filterMap fun r => r.2.2.map fun pa => (pa, r.2.1)

/-- The release that a packet's write is, if it is one: its party lies on another chip (R127, R134). -/
def pktRel (p : Packet) : List Rel := if p.sem.getLsbD 1 then [⟨none, p.srcvr.toNat, p.scope⟩] else []

/-- Write a payload on the pages that were translated, with its release (R127, R134, R202). -/
def State.writePages (s : State) (p : Packet) (data : List Byte) (l : List PageRun) : State :=
  l.foldl (fun s (va, n, pa) =>
    match pa with
    | none => s
    | some pa =>
      let bs := (data.drop (va - p.va.toNat)).take n
      let s := s.chargeMem ⟨p.dstvr.toNat, none⟩ pa n false true
      { s with mem := s.mem.setBytes pa bs, rels := sputs [] s.rels pa (List.replicate n (pktRel p)) }) s

/-- One RMW of an arrival at a physical address: old value (R131, R363), its bytes charged once (log 116, DESIGN CHOICE). -/
def State.rmwAt (s : State) (p : Packet) (pa w : Nat) (f : Nat → Option Nat) : State × Nat :=
  let old := s.mem.read pa w
  let s := s.chargeMem ⟨p.dstvr.toNat, none⟩ pa w true true
  match f old with
  | none => (s, old)
  | some x =>
    let rel (i : Nat) : List Rel := (pktRel p).foldl addRel (sget [] s.rels (pa + i))
    ({ s with mem := s.mem.setBytes pa (leBytes w x), rels := sputs [] s.rels pa ((List.range w).map rel) }, old)

/-- The elements of a reducing store on the pages that were translated (R202, R371). -/
def State.reducePages (s : State) (p : Packet) (l : List PageRun) : State :=
  let w := fmtBits p.fmt / 8
  l.foldl (fun s (va, n, pa) =>
    match pa with
    | none => s
    | some pa => (List.range (n / w)).foldl (fun s i =>
        let x := ofLeBytes ((p.data.drop (va - p.va.toNat + i * w)).take w)
        (s.rmwAt p (pa + i * w) w fun old => some (atomNew p.sub.toNat (isSigned p.fmt) p.fmt (8 * w) old x)).1) s) s

/-- The scope pair that a remote acquire returns: sem 01 and the scope of the last release that it reads from and that does not match (R127, R134, R357; log 110, DESIGN CHOICE). -/
def State.acqPair (s : State) (p : Packet) (rs : List (Nat × Nat)) : BitVec 2 × BitVec 3 :=
  if p.sem.getLsbD 0 then
    match ((s.releasesAt (rs.flatMap fun r => keysFrom r.1 r.2)).filter fun r => !decide (r.scope = 6 ∧ p.scope = 6)).getLast? with
    | some r => (1, r.scope)
    | none => (0, 0)
  else (0, 0)

/-- The leaf bits that a probe returns; nothing is fetched or marked (R366). -/
def State.probeBits (s : State) (v : Vr) (va : Nat) : Nat :=
  match s.walkVr v va with
  | .error _ => 0
  | .ok f =>
    let x := f.s1.e.toNat % 4096
    if v.fn = 0 ∨ pteType f.s1.e = 2 then x else x &&& (0xF07 ||| (f.last.e.toNat &&& 0xF8))

/-! ## Performing a request: steps 6 to 10 (R189) -/

/-- A request is resolved with its status and data (R196, R197). -/
def State.resolved (s : State) (p : Packet) (status : BitVec 7) (data : List Byte) : State :=
  let s := s.onSrc p.dstvr.toNat p.srcvr.toNat fun w =>
    { w.resolved p.cls.toNat p.cseq with
      recs := if seqIn w.high p.pseq then sset none w.recs p.pseq.toNat (some ⟨true, status, data⟩) else w.recs }
  s.settle (.packet p.srcvr.toNat p.dstvr.toNat p.pseq)

/-- A request is resolved and answered (R189). -/
def State.resolve (s : State) (p : Packet) (status : BitVec 7) (data : List Byte) (pair : BitVec 2 × BitVec 3) : State :=
  (s.resolved p status data).answer p status 0 pair.1 pair.2 (if opData p.op then some data else none)

/-- A store with handler is judged (R189 step 8): a status, or the logical core that starts it. -/
def State.handlerPlace (s : State) (p : Packet) (v : Vr) : Except (BitVec 7) Nat :=
  let pre := ofLeBytes (p.data.take 8)
  let lcore := pre / 2 ^ 48 % 512
  match s.tasks.find? fun e => decide (e.2.vr = p.dstvr.toNat ∧ (e.2.phase = .running ∨ e.2.phase = .preempted)) with
  | none => .error 0x06
  | some (t, _) =>
    if 4 * v.m ≤ lcore then .error 0x01
    else
      let lc := lckey t lcore
      if (s.freeSlot lc).isNone ∧ 8 ≤ (s.lcoreAt lc).arrivals.length then .error 0x04 else .ok lc

/-- Start a handler, or queue it behind the arrivals that wait (R101). -/
def State.arriveHandler (s : State) (lc : Nat) (p : Packet) : State :=
  let a : Arrival := { va := p.va.setWidth 64, len := p.data.length - 8, src := p.srcvr.toNat, holder := p.token.setWidth 16,
                       handler := BitVec.ofNat 53 (ofLeBytes (p.data.take 8) % 2 ^ 48) }
  match (s.lcoreAt lc).arrivals, s.freeSlot lc with
  | [], some i => s.startHandler lc i a
  | _, _ => s.onLcore lc fun l => { l with arrivals := l.arrivals ++ [a] }

/-- 16 bytes of an atomic reply: the old value zero-extended (R357). -/
def oldBytes (old : Nat) : List Byte := leBytes 8 old ++ leBytes 8 0

/-- Perform a request whose pages are judged: the generation once more, then its effect (R189 step 10, R197, R202). -/
def State.performReq (s : State) (p : Packet) (v : Vr) (l : List PageRun) : State :=
  let st : BitVec 7 := if pagesOk l then 0 else 1
  if !winAllows v p (reqLen p) then s.resolve p 2 [] (0, 0)
  else
    match p.op.toNat with
    | 1 =>
      if pagesOk l then
        let rs := pageRuns l
        (s.chargeRuns ⟨p.dstvr.toNat, none⟩ rs true).resolve p 0 (readRuns s.mem rs) (s.acqPair p rs)
      else s.resolve p 1 [] (0, 0)
    | 2 | 8 => (s.writePages p p.data l).resolve p st [] (0, 0)
    | 3 =>
      if pagesOk l then
        match s.handlerPlace p v with
        | .ok lc => ((s.writePages p (p.data.drop 8) l).arriveHandler lc p).resolve p 0 [] (0, 0)
        | .error e => s.resolve p e [] (0, 0)
      else s.resolve p 1 [] (0, 0)
    | 4 =>
      match pageRuns l with
      | (pa, w) :: _ =>
        let (s, old) := s.rmwAt p pa w fun old =>
          some (atomNew p.sub.toNat (isSigned p.fmt) p.fmt (8 * w) old (ofLeBytes p.data % 2 ^ (8 * w)))
        s.resolve p 0 (oldBytes old) (0, 0)
      | [] => s.resolve p 1 [] (0, 0)
    | 5 =>
      match pageRuns l with
      | (pa, w) :: _ =>
        let (s, old) := s.rmwAt p pa w fun old =>
          if old = ofLeBytes (p.data.take 8) % 2 ^ (8 * w) then some (ofLeBytes (p.data.drop 8) % 2 ^ (8 * w)) else none
        s.resolve p 0 (oldBytes old) (0, 0)
      | [] => s.resolve p 1 [] (0, 0)
    | _ => (s.reducePages p l).resolve p st [] (0, 0)

/-- A packet stops waiting at its destination. -/
def State.unhold (s : State) (p : Packet) : State := { s with hold := s.hold.filter fun h => decide (h.p ≠ p) }

/-! ## Pulls (R106, R207) -/

/-- A VR is gone from this package; its location entry stays, and what was charged to it since its sequences went follows it (R185, R207, R223). -/
def State.freeVr (s : State) (vr : Nat) : State :=
  let rest : List Sent := match s.vrAt vr with
    | some v => (match v.moving with | .sent ep => if v.energy = 0 then [] else [.move ep (.charged vr v.energy)] | _ => [])
    | none => []
  { s.keepTlb fun t => decide (t.vr ≠ vr) with vrs := sset none s.vrs vr none, sent := s.sent ++ rest }

/-- The source answers a pull request with 16 pull-data packets and nothing else, so that a request whose data do not come is sent again, and ends as R198 says (R207; log 81, DEDUCED). -/
def State.servePull (s : State) (p : Packet) (v : Vr) : State :=
  match s.walkVr v p.va.toNat with
  | .ok f =>
    if pteType f.s1.e = 2 then s.resolve p 1 [] (0, 0)
    else
    let s := (s.chargeMem ⟨p.dstvr.toNat, none⟩ f.pa 65536 true false).resolved p 0 []
    (List.range 16).foldl (fun s i =>
      (s.request none 0 0 0 { blankPacket p.dstvr.toNat p.srcvr.toNat p.srcEp.toNat 0x29 (p.va + BitVec.ofNat 56 (4096 * i)) with
        vc := 2, token := p.token, data := s.mem.bytes (f.pa + 4096 * i) 4096 }).getD s) s
  | .error _ => s.resolve p 1 [] (0, 0)

/-- Migration packets past their checks: a request at the source is served; data at the destination are kept; an acknowledged page is released, and the last one frees the VR (R207). -/
def State.pullPacketDone (s : State) (p : Packet) (v : Vr) : State :=
  match v.moving, p.op.toNat with
  | .leaving _, 0x28 | .sent _, 0x28 => s.servePull p v
  | .arriving _, 0x29 =>
    (s.onVr p.dstvr.toNat fun v => { v with pulls := v.pulls ++ [(p.va.toNat, p.data)] }).resolve p 0 [] (0, 0)
  | .sent _, 0x2A =>
    let s := (s.onVr p.dstvr.toNat fun v => { v with acked := v.acked + 1, remain := v.remain - 1 }).resolve p 0 [] (0, 0)
    if v.remain ≤ 1 then s.freeVr p.dstvr.toNat else s
  | _, _ => s.resolve p 1 [] (0, 0)

/-- Steps 6 to 10 of R189 for a request in its class order. -/
def State.pastOrder (s : State) (p : Packet) : State :=
  let s := s.unhold p
  match s.vrAt p.dstvr.toNat with
  | none => s
  | some v =>
    if !winAllows v p (reqLen p) then s.resolve p 2 [] (0, 0)
    else if !reqSupported p then s.resolve p 3 [] (0, 0)
    else
      let place : Except (BitVec 7) Nat := if p.op = 3 then s.handlerPlace p v else .ok 0
      match place with
      | .error 4 => (s.onSrc p.dstvr.toNat p.srcvr.toNat fun w => w.forget p.pseq).reply p 4 []
      | .error e => s.resolve p e [] (0, 0)
      | .ok _ =>
        if p.op = 0x28 && (s.budgetHeld p.dstvr.toNat 0 || s.budgetHeld p.dstvr.toNat 1) then { s with hold := s.hold ++ [⟨p, s.cycle.toNat, true⟩] }
        else if 0x28 ≤ p.op then s.pullPacketDone p v
        else if p.op = 6 then s.resolve p 0 (leBytes 8 (s.probeBits v p.va.toNat)) (0, 0)
        else if isCollective p then (s.stage p).resolve p 0 [] (0, 0)
        else
          if s.budgetHeld p.dstvr.toNat 0 then { s with hold := s.hold ++ [⟨p, s.cycle.toNat, true⟩] }
          else
          let (s, l, w) := State.judge (pktAcc p) 4 s p.va.toNat (reqLen p)
          if w then { s with hold := s.hold ++ [⟨p, s.cycle.toNat, true⟩] } else s.performReq p v l

/-- Packets of the hold store whose predecessors are resolved go on, in class order (R196). -/
def State.drainHold (src dst cls : Nat) : Nat → State → State
  | 0, s => s
  | k + 1, s =>
    let w := s.srcAt dst src
    match s.hold.find? fun h => !h.past && decide (h.p.srcvr.toNat = src ∧ h.p.dstvr.toNat = dst ∧ h.p.cls.toNat = cls) &&
        decide (w.place cls h.p.cseq = 0) with
    | some h => State.drainHold src dst cls k (s.pastOrder h.p)
    | none => s

/-- Perform a request and whatever waited behind it. -/
def State.proceed (s : State) (p : Packet) : State :=
  State.drainHold p.srcvr.toNat p.dstvr.toNat p.cls.toNat (s.hold.length + 1) (s.pastOrder p)

/-- Requests that waited for memory are tried again, the functions at a stack in the order of its pointer, those of one function in their own (R112, R213). -/
def State.retryArrivals (s : State) : State :=
  ((isort (fun x y => decide (x.1 ≤ y.1)) ((s.hold.filter HoldPkt.past).map fun h => (s.memRank h.p.dstvr.toNat h.p.va.toNat, h.p))).map (·.2)).foldl
    State.proceed s

/-! ## Steps 1 to 5 (R189) -/

/-- A request of this pair sequence has been accepted and is not resolved: this one is a copy of it (R197). -/
def SrcWin.inProgress (w : SrcWin) (p : BitVec 32) : Bool := seqIn w.high p && (sget none w.recs p.toNat).any fun d => !d.done

/-- Refuse a request before its duplicate test; it counts as resolved for its class, unless it is a copy of one that waits here, which completes (R194, R196). -/
def State.refuseEarly (s : State) (p : Packet) (status : BitVec 7) : State :=
  let s := (s.onSrc p.dstvr.toNat p.srcvr.toNat fun w => if w.inProgress p.pseq then w else w.resolved p.cls.toNat p.cseq).reply p status []
  State.drainHold p.srcvr.toNat p.dstvr.toNat p.cls.toNat (s.hold.length + 1) s

/-- The destination VR is not here (R189 step 2): moved with its new endpoint, or unknown. -/
def State.notHere (s : State) (p : Packet) : State :=
  match s.locOf p.dstvr.toNat with
  | some ep => if ep = s.endpoint.toNat then s.reply p 1 [] else s.answer p 5 (BitVec.ofNat 56 ep) 0 0 (if opData p.op then some [] else none)
  | none => s.reply p 1 []

/-- A duplicate of a resolved request: a load, a probe and a pull request read anew (R197). -/
def State.duplicate (s : State) (p : Packet) (d : Dedup) : State :=
  if p.op = 1 ∨ p.op = 6 ∨ p.op = 0x28 then s.pastOrder p else s.reply p d.status d.data

/-- The duplicate test and class order (R189 steps 4 and 5, R196, R197). -/
def State.ordered (s : State) (p : Packet) : State :=
  let w := s.srcAt p.dstvr.toNat p.srcvr.toNat
  let fresh (s : State) : State :=
    match w.place p.cls.toNat p.cseq with
    | 0 => (s.onSrc p.dstvr.toNat p.srcvr.toNat fun w => w.accept p.pseq).proceed p
    | 1 =>
      if 2048 ≤ s.heldOn p.die then s.reply p 7 []
      else { s.onSrc p.dstvr.toNat p.srcvr.toNat fun w => w.accept p.pseq with hold := s.hold ++ [⟨p, s.cycle.toNat, false⟩] }
    | _ => s
  if seqAbove w.high p.pseq then fresh s
  else if seqIn w.high p.pseq then
    match sget none w.recs p.pseq.toNat with
    | none => fresh s
    | some d => if d.done then s.duplicate p d else s
  else s

/-- An arriving request between VRs (R189); one whose payload is malformed is discarded and counted (R187). (log 23, DEDUCED) -/
def State.arrive (s : State) (p : Packet) : State :=
  if !reqFormed p then { s with portDrops := s.portDrops + 1 }
  else
    match s.vrAt p.dstvr.toNat with
    | none => s.notHere p
    | some v =>
      if (sget SrcWin.init v.srcs p.srcvr.toNat).quar then s.refuseEarly p 2
      else
        match v.moving, decide (0x28 ≤ p.op) with
        | .leaving _, false | .landing _, false => s.reply p 4 []
        | .sent ep, false => s.answer p 5 (BitVec.ofNat 56 ep) 0 0 (if opData p.op then some [] else none)
        | _, _ =>
          if !tokenGood v.key p then (s.macFail p.dstvr.toNat p.srcvr.toNat).refuseEarly p 2
          else if p.op = 7 then
            let s := (s.onSrc p.dstvr.toNat p.srcvr.toNat fun w => w.resolved p.cls.toNat p.cseq).reply p 0
              (leBytes 8 0x01000F70000000FF)
            State.drainHold p.srcvr.toNat p.dstvr.toNat p.cls.toNat (s.hold.length + 1) s
          else s.ordered p

/-- LOAD_REQUEST. -/
def execLoadRequest (p : Packet) (s : State) : Res := .next (s.arrive p)
/-- STORE_REQUEST. -/
def execStoreRequest (p : Packet) (s : State) : Res := .next (s.arrive p)
/-- STORE_WITH_HANDLER (R101, R200). -/
def execStoreWithHandler (p : Packet) (s : State) : Res := .next (s.arrive p)
/-- ATOMIC_REQUEST. -/
def execAtomicRequest (p : Packet) (s : State) : Res := .next (s.arrive p)
/-- CAS_REQUEST. -/
def execCasRequest (p : Packet) (s : State) : Res := .next (s.arrive p)
/-- PROBE_REQUEST (R366). -/
def execProbeRequest (p : Packet) (s : State) : Res := .next (s.arrive p)
/-- FEATURE_QUERY (R367). -/
def execFeatureQuery (p : Packet) (s : State) : Res := .next (s.arrive p)
/-- MULTICAST_STORE (R202). -/
def execMulticastStore (p : Packet) (s : State) : Res := .next (s.arrive p)
/-- REDUCING_STORE (R202). -/
def execReducingStore (p : Packet) (s : State) : Res := .next (s.arrive p)

/-- The class sequences of a packet's pair and class that have arrived and wait here: for their predecessors, or on the fault path (R196). -/
def State.seqsHere (s : State) (p : Packet) : List (BitVec 14) :=
  (s.hold.filter fun h => decide (h.p.srcvr = p.srcvr ∧ h.p.dstvr = p.dstvr ∧ h.p.cls = p.cls)).map fun h => h.p.cseq

/-- What is missing just before a packet that waits, in the window `w` of its source (R196). -/
def State.missingBefore (s : State) (w : SrcWin) (p : Packet) : List (BitVec 14) := w.missing (s.seqsHere p) p.cls.toNat p.cseq

/-- A packet has been held 2^20 cycles: what is missing just before it is abandoned, and it goes on in its class order (R196). -/
def State.abandon (s : State) (h : HoldPkt) : State :=
  if (s.srcAt h.p.dstvr.toNat h.p.srcvr.toNat).place h.p.cls.toNat h.p.cseq ≠ 1 then s
  else
  let gone := s.missingBefore (s.srcAt h.p.dstvr.toNat h.p.srcvr.toNat) h.p
  State.drainHold h.p.srcvr.toNat h.p.dstvr.toNat h.p.cls.toNat s.hold.length
    (s.onSrc h.p.dstvr.toNat h.p.srcvr.toNat fun w => w.abandoned h.p.cls.toNat gone)

/-! ## Answers at the requester (R195, R198, R199) -/

/-- The packet that an answer is for. -/
def State.answered (s : State) (p : Packet) : Option Unacked :=
  s.unacked.find? fun u => decide (u.p.srcvr = p.dstvr ∧ u.p.dstvr = p.srcvr ∧ u.p.pseq = p.pseq)

/-- A packet is no longer awaited. -/
def State.unawait (s : State) (u : Unacked) : State :=
  { s with unacked := s.unacked.filter fun x => !decide (x.p.srcvr = u.p.srcvr ∧ x.p.dstvr = u.p.dstvr ∧ x.p.pseq = u.p.pseq) }

/-- The failure that a status is (R189). -/
def statusCause (st : BitVec 7) : Option (BitVec 8) :=
  match st.toNat with
  | 1 | 6 => some cRemoteFault
  | 2 => some cDenied
  | 3 => some cUnsupported
  | _ => none

/-- Data comes back to a parked strand: its register or scratchpad, the acquire's mismatch, and it goes on (R127, R195, R361 to R367). -/
def State.resume (s : State) (o : ROp) (p : Packet) : State :=
  let k := o.ref.key
  let go (f : Strand → Strand) (s : State) : State := s.onStrand k fun t => { f t with park := none }.retire 1
  let val (w : Width) : Word := extVal w (ofLeBytes (p.data.take (widthBytes w)))
  let acq (m : FMem) (t : Strand) : Strand :=
    if p.sem.getLsbD 0 then { t with scopestat := mismatch p.scope (codeScope m.scope) m.cls } else t
  match o.instr with
  | .rld blk d _ _ _ m =>
    if blk then go (acq m) (s.land (k / 4) (blockOperand (o.vals.getD 1 0)).2 p.data)
    else go (fun t => acq m (t.setReg d (val m.width))) s
  | .ratom _ d _ _ _ _ m => go (fun t => t.setReg d (val m.width)) s
  | .rcas d _ _ _ _ m => go (fun t => t.setReg d (val m.width)) s
  | .rprobe d _ _ _ | .rfeat d _ _ => go (fun t => t.setReg d (BitVec.ofNat 64 (ofLeBytes (p.data.take 8)))) s
  | _ => s

/-- A packet of an operation was performed (R195, R370, R372). -/
def State.pieceDone (s : State) (u : Unacked) (p : Packet) : State :=
  match s.rops.find? (fun o => decide (o.uid = u.uid)) with
  | none => s
  | some o =>
    let s1 := s.onRop u.uid (ROp.ends u.idx none)
    if o.cancel then s1.finishRop u.uid
    else if o.parked then
      let s2 := { s1 with rops := s1.rops.filter fun x => decide (x.uid ≠ u.uid) }
      if s.alive o.ref o.sid then s2.resume o p else s2
    else
      match o.instr with
      | .rcopy false .. => (s1.land (lckey o.ref.task o.ref.lcore) u.spad p.data).finishRop u.uid
      | _ => s1.finishRop u.uid

/-- A packet of an operation ended with a failure (R198, R357). -/
def State.pieceFailed (s : State) (u : Unacked) (c : BitVec 8) : State := (s.onRop u.uid (ROp.ends u.idx (some c))).finishRop u.uid

/-- What no answer means for a packet that no class 7 word sent: a refused pull, a failed move at a source whose pull data were lost (R207), or a failed member (R205). -/
def State.lostPacket (s : State) (u : Unacked) : State :=
  match u.p.op.toNat with
  | 0x28 => s.later (.event (.pullData u.p false))
  | 0x29 => s.onVr u.p.srcvr.toNat fun v => { v with failed := true }
  | 0x20 | 0x22 | 0x23 | 0x24 => s.later (.event (.peerFailure (u.p.va.setWidth 32)))
  | _ => s

/-- A packet ends with OUTCOME_UNKNOWN (R198). -/
def State.outcomeUnknown (s : State) (u : Unacked) : State :=
  let s := s.unawait u
  (if u.uid = 0 then s.lostPacket u else s.pieceFailed u cUnknown)

/-- What a transmission that goes unanswered adds: itself where it has not been counted (R198). -/
def Unacked.expired (u : Unacked) : Unacked := if u.extra then { u with sends := u.sends + 1, extra := false } else u

/-- Send a packet again on its next path, a counted transmission; without a path, or after the eighth, it ends with OUTCOME_UNKNOWN (R198; log 26, DEDUCED). -/
def State.resend (s : State) (u : Unacked) : State :=
  let left := leftPaths (s.pathsOf u.p) u.rest u.tried
  if 8 ≤ u.sends ∨ u.p.dstEp = s.endpoint then s.outcomeUnknown u
  else
    match s.sendFirst u.inst u.p left with
    | none => s.outcomeUnknown u
    | some (s, q) =>
      { s.unawait u with
        unacked := (s.unawait u).unacked ++ [{ u with sends := u.sends + 1, tried := u.tried ++ left.take 1, rest := left.tail, port := q,
                                                      at_ := s.cycle.toNat, busy := false, extra := false }] }

/-- Send a packet again without counting it, on its path after a busy answer, or on the first path of its new endpoint; a path that is gone gives way to the next, counted (R198, R199). -/
def State.resendSame (s : State) (u : Unacked) (moved : Bool) : State :=
  let order := s.pathsOf u.p
  let same := if moved then order else (u.tried.getLast?.bind fun a => order.find? (FabPath.same a)).toList
  match s.sendFirst u.inst u.p same with
  | none => if moved then s.outcomeUnknown u else s.resend u
  | some (s, q) =>
    let u := if moved then { u with tried := order.take 1, rest := order.tail, extra := false } else { u with extra := true }
    { s.unawait u with
      unacked := (s.unawait u).unacked ++ [{ u with port := q, at_ := s.cycle.toNat, busy := false }] }

/-- A reply's data would land in an absent sharer's scratchpad: the 256-byte entries that it takes of the core's reply buffer (R195). -/
def State.replyNeeds (s : State) (u : Unacked) (p : Packet) : Option (Nat × Nat) :=
  match s.rops.find? (fun o => decide (o.uid = u.uid)) with
  | some o =>
    let core := s.coreOf o.ref.task o.ref.lcore
    let lands := match o.instr with | .rld true .. | .rcopy false .. => true | _ => false
    if lands && !o.cancel && !s.presentOn o.ref.task o.ref.lcore then some (core, (p.data.length + 255) / 256) else none
  | none => none

/-- The entries of a core's reply buffer that are taken (R195). -/
def Core.replyUsed (c : Core) : Nat := (c.replies.map fun r => (r.data.length + 255) / 256).foldl (· + ·) 0

/-- A reply that finds the core's 16 entries taken waits before them until the sharer is present (R195; log 107, DESIGN CHOICE). -/
def State.replyWaits (s : State) (u : Unacked) (p : Packet) : Bool :=
  match s.replyNeeds u p with
  | some (core, n) => decide (16 < (s.coreAt core).replyUsed + n)
  | none => false

/-- A pull request that is refused or unanswered: its page's pull ends so (R106, R207). -/
def State.pullEnds (s : State) (u : Unacked) : State := if u.p.op = 0x28 then s.later (.event (.pullData u.p false)) else s

/-- An answer reaches its requester (R189, R198, R199). -/
def State.answeredBy (s : State) (p : Packet) : State :=
  match s.answered p with
  | none => s
  | some u =>
    match p.sub.toNat with
    | 4 => { s.unawait u with unacked := (s.unawait u).unacked ++ [{ u with busy := true, extra := false, at_ := s.cycle.toNat }] }
    | 5 =>
      let ep := p.va.toNat % 4096
      let s := { s with location := sset none s.location u.p.dstvr.toNat (some ep) }
      s.resendSame { u with p := { u.p with dstEp := BitVec.ofNat 12 ep } } true
    | 7 => s.resend u
    | 0 =>
      if u.uid ≠ 0 ∧ s.replyWaits u p then
        { s.unawait u with unacked := (s.unawait u).unacked ++ [{ u with got := true }], late := s.late ++ [p] }
      else (if u.uid = 0 then s.unawait u else (s.unawait u).pieceDone u p)
    | st =>
      match statusCause (BitVec.ofNat 7 st) with
      | some c => (if u.uid = 0 then (s.unawait u).pullEnds u else (s.unawait u).pieceFailed u c)
      | none => { s with portDrops := s.portDrops + 1 }

/-- REPLY_WITH_DATA (R195). -/
def execReplyWithData (p : Packet) (s : State) : Res := .next (s.answeredBy p)

/-- ACKNOWLEDGEMENT (R198). -/
def execAcknowledgement (p : Packet) (s : State) : Res := .next (s.answeredBy p)

/-- The packet that a timer names. -/
def State.awaited (s : State) (src dst : Nat) (pseq : BitVec 32) : Option Unacked :=
  s.unacked.find? fun u => decide (u.p.srcvr.toNat = src ∧ u.p.dstvr.toNat = dst ∧ u.p.pseq = pseq)

/-- RETRANSMIT_TIMEOUT (R198). -/
def execRetransmitTimeout (src dst : Nat) (pseq : BitVec 32) (s : State) : Res :=
  .next (
    match s.awaited src dst pseq with
    | some u => if !u.busy ∧ !u.got ∧ u.at_ + 65536 ≤ s.cycle.toNat then s.resend u.expired else s
    | none => s)

/-- BUSY_RETRANSMIT (R198): the same path, uncounted. -/
def execBusyRetransmit (src dst : Nat) (pseq : BitVec 32) (s : State) : Res :=
  .next (
    match s.awaited src dst pseq with
    | some u => if u.busy ∧ u.at_ + 4096 ≤ s.cycle.toNat then s.resendSame u false else s
    | none => s)

end Sys2Proof.Machine
end

