-- ==== Sys2Proof/Machine/Collective.lean ====
section
/-! DEFINITION. Machine/Collective.lean: class 8 records: communicators, joins, instances, messages, the rank tree and its reductions (R373 to R384). -/

namespace Sys2Proof.Machine

/-! ## Dispatch (R373, R374, R383) -/

/-- The record's communicator: slot D of cjoin, slot B of the others (R373). -/
def commOf (i : Instr) (c : Cap) : Nat :=
  match i with
  | .cjoin _ => c.d.val.toNat
  | _ => c.b.val.toNat

/-- N of a communicator of the issuing strand's logical core: the T0 of the latest dispatched cjoin that named it, run or not (R374). -/
def State.commN (s : State) (idx : Nat) : Option Nat := sget none (s.lcoreAt s.myLc).joined idx

/-- A dispatched cjoin gives its communicator its N (R374). -/
def State.noteJoin (s : State) (i : Instr) (c : Cap) : State :=
  match i with
  | .cjoin _ => s.onLcore s.myLc fun l => { l with joined := sset none l.joined c.d.val.toNat (some (tripN c.trips 0)) }
  | _ => s

/-- c, the count of the input's active elements (R373). -/
def inputCount (c : Cap) : Nat := activeT0 c * tripN c.trips 1 * tripN c.trips 2 * tripN c.trips 3

/-- The value checks of a class 8 record against its communicator (R373, R374). -/
def State.collBad (s : State) (i : Instr) (r : Rec) (c : Cap) : Bool :=
  let idx := commOf i c
  let n := inputCount c
  decide (15 < idx) ||
    match i, s.commN idx with
    | .cjoin _, _ => false
    | _, none => true
    | .credsc _, some N => decide (n % N ≠ 0)
    | .cbcast _, some N => decide (N ≤ c.c.val.toNat)
    | .ctopk _, some N => (isF r.type || isI r.type) && decide (2 ^ fmtBits r.type < N * n)
    | _, some _ => false

/-- The footprint of `n` elements of a linear operand (R373). -/
def linFoots (o : Operand) (n : Nat) (w : Bool) : Option (List Foot) := levelFoots o [(slotStride o.slot 0, n)] w

/-- The footprints of a class 8 record for N ranks (R37, R373, R378 to R381). -/
def collFoots (i : Instr) (r : Rec) (c : Cap) (N : Nat) : Option (List Foot) :=
  let n := inputCount c
  let input := streamFoots c.a c false
  match i with
  | .cjoin _ => linFoots c.a (tripN c.trips 0) false
  | .callred _ | .cbcast _ => allFoots [input, streamFoots c.d c true]
  | .credsc _ => allFoots [input, linFoots c.d (n / N) true]
  | .callgath _ => allFoots [input, linFoots c.d (N * n) true]
  | .ctopk _ =>
    let k := Nat.min r.ctl.toNat (N * n)
    allFoots [input, linFoots c.d k true, linFoots c.c k true]
  | _ => some []

/-- The record's type is accepted (R373). -/
def collTypeOk (i : Instr) (r : Rec) : Bool :=
  match i with
  | .cjoin _ => decide (r.type = fN32)
  | .cbar _ => true
  | _ => isF r.type || isI r.type

/-- Dispatch a class 8 record: refused in an open region (R44), and after every other check when a peer is lost (R383). -/
def State.dispatchColl (s : State) (i : Instr) (r : Rec) : State :=
  match recPlan i with
  | some (_, sp, _) =>
    let c := s.capRec sp r
    let fs := s.quotaFoots r (collFoots i r c ((s.commN (commOf i c)).getD 1))
    s.checked 8 ((s.recChk r c (wantAll r) { region := true, fields := s.collBad i r c, types := !collTypeOk i r } fs).or
        (chk (s.lcoreAt s.myLc).lost cPeerLost))
      fun s => (if s.noRoom .c (fs.getD []) then s else s.noteJoin i c).enqueue .c i c (fs.getD []) 8
  | none => s

def execCjoin (r : Rec) (s : State) : Res := .next (s.dispatchColl (.cjoin r) r)
def execCallred (r : Rec) (s : State) : Res := .next (s.dispatchColl (.callred r) r)
def execCredsc (r : Rec) (s : State) : Res := .next (s.dispatchColl (.credsc r) r)
def execCallgath (r : Rec) (s : State) : Res := .next (s.dispatchColl (.callgath r) r)
def execCbcast (r : Rec) (s : State) : Res := .next (s.dispatchColl (.cbcast r) r)
def execCtopk (r : Rec) (s : State) : Res := .next (s.dispatchColl (.ctopk r) r)
def execCbar (r : Rec) (s : State) : Res := .next (s.dispatchColl (.cbar r) r)

/-! ## Messages (R374, R377, R378) -/

/-- A running collective record: engine's core, its record and logical core, communicator and its index, own VR. -/
structure CCtx where
  core : Nat
  x    : Entry
  r    : Rec
  lc   : Nat
  idx  : Nat
  cm   : Comm
  vr   : Nat

/-- The VA of a message (R378). -/
def msgVa (idx kind inst level off : Nat) : BitVec 56 :=
  BitVec.ofNat 56 (0xFF * 2 ^ 48 + idx * 2 ^ 35 + kind * 2 ^ 32 + inst % 16 * 2 ^ 28 + level * 2 ^ 24 + off)

/-- Rank `m`'s VR id. -/
def Comm.member (c : Comm) (m : Nat) : Nat := c.members.getD m 0

/-- The packets of a message to rank `m`: plain stores of class 0 on vc 0 with the sender's token for the member (R374, R378). (log 61, DESIGN CHOICE) -/
def CCtx.message (q : CCtx) (s : State) (m kind inst level off : Nat) (bs : List Byte) : List RPiece :=
  let dst := q.cm.member m
  let tok : Word := match s.vrAt q.vr with
    | some v => (sget none v.peers dst).getD 0
    | none => 0
  (copyPieces 4098 off 0 bs.length).map fun (o, k) =>
    ⟨{ blankPacket q.vr dst 0 0x02 (msgVa q.idx kind inst level (off + o)) with token := tok, data := (bs.drop o).take k }, 0, 0⟩

/-- The bytes of a message from rank `m` once every piece of it is kept in the staging range (R378). -/
def CCtx.received (q : CCtx) (s : State) (m kind inst level off n : Nat) : Option (List Byte) :=
  match s.vrAt q.vr with
  | none => none
  | some v =>
    let piece (p : Nat × Nat) : Option (List Byte) :=
      (v.staged.find? fun g => decide (g.src = q.cm.member m ∧ g.va = msgVa q.idx kind inst level (off + p.1) ∧ g.data.length = p.2)).map
        Staged.data
    ((copyPieces 4098 off 0 n).mapM piece).map List.flatten

/-- Forget messages of the communicator in the VR's staging range. -/
def CCtx.purge (q : CCtx) (p : Staged → Bool) (s : State) : State :=
  s.onVr q.vr fun v => { v with staged := v.staged.filter fun g => !(decide (msgComm g.va = q.idx) && p g) }

/-- The other ranks. -/
def Comm.others (c : Comm) : List Nat := (List.range c.n).filter fun m => decide (m ≠ c.rank)

/-! ## Joins (R375, R378) -/

/-- The member list's bytes: 32 bits a rank. -/
def listBytes (ids : List Nat) : List Byte := ids.flatMap fun i => leBytes 4 i

/-- The 16 bytes of a join (R378). -/
def joinBytes (ids : List Nat) (launch : BitVec 32) (rank : Nat) : List Byte :=
  leBytes 8 (crc64 (listBytes ids)).toNat ++ leBytes 4 launch.toNat ++ leBytes 2 rank ++ leBytes 2 (ids.length - 1)

/-- Another logical core of the task holds the index (R375). -/
def State.heldElsewhere (s : State) (task lc idx : Nat) : Bool :=
  s.lcores.any fun e => decide (e.1 / 288 = task ∧ e.1 ≠ lc) && match sget none e.2.comms idx with
    | some c => c.good
    | none => false

/-- The failures a cjoin finds in its own record (R375). -/
def State.joinBad (s : State) (q : CCtx) (ids : List Nat) : Bool :=
  decide ((ids.filter fun i => decide (i = q.vr)).length ≠ 1) || ids.any (fun i => decide (2 ^ 20 ≤ i)) ||
    s.heldElsewhere q.x.ref.task q.lc q.idx ||
    match s.vrAt q.vr with
    | some v => ids.any fun i => decide (i ≠ q.vr) && (sget none v.peers i).isNone
    | none => true

/-- The first join that has come from rank `m` for the communicator, whatever offset its own list gave it; it stays in the staging range until a cjoin completes with it (R375, R378). -/
def CCtx.joinFrom (q : CCtx) (s : State) (m : Nat) : Option Staged :=
  (s.vrAt q.vr).bind fun v =>
    v.staged.find? fun g => decide (g.src = q.cm.member m ∧ msgComm g.va = q.idx ∧ msgKind g.va = 0)

/-- Every other member's join has come: none while one is missing, else whether all agree (R375). -/
def CCtx.joinsAgree (q : CCtx) (launch : BitVec 32) (s : State) : Option Bool :=
  (q.cm.others.mapM fun m => (q.joinFrom s m).map fun g =>
    decide (g.va = msgVa q.idx 0 0 0 (16 * m) ∧ g.data = joinBytes q.cm.members launch m)).map fun l => l.all id

/-- A cjoin that completes takes its joins, one of each member; later ones wait for the next cjoin (R378, R385). -/
def CCtx.takeJoins (q : CCtx) (s : State) : State :=
  q.cm.others.foldl (fun s m => match q.joinFrom s m with
    | some g => s.onVr q.vr fun v => { v with staged := v.staged.erase g }
    | none => s) s

/-! ## Reductions (R83, R379, R381) -/

/-- One operation of the tree on two elements: left position's value first (R379). -/
def collOp (f : Fmt) (op a b : Nat) : Nat × Flags :=
  match op with
  | 0 => if isF f then
      let (v, f1) := vAdd false (decodeVal f a) (decodeVal f b)
      let (x, f2) := deliver f .ieee .rne 0 v
      (x, f1 ||| f2)
    else ((a + b) % 2 ^ fmtBits f, 0)
  | 1 => if isF f then fPick f true a b else (intBits f (intMax (intOf f a) (intOf f b)), 0)
  | 2 => if isF f then fPick f false a b else (intBits f (intMin (intOf f a) (intOf f b)), 0)
  | 3 => (a &&& b, 0)
  | 4 => (a ||| b, 0)
  | _ => (a ^^^ b, 0)

/-- Two vectors reduced element by element. -/
def collVec (f : Fmt) (op : Nat) (a b : List Nat) : List Nat × Flags :=
  let l := (a.zip b).map fun (x, y) => collOp f op x y
  (l.map (·.1), orFlags (l.map (·.2)))

/-- The best `k` of two ranked lists of global index and value (R85, R378). -/
def topMerge (f : Fmt) (k : Nat) (a b : List (Nat × Nat)) : List (Nat × Nat) :=
  (isort (fun x y => rankLe f (x.1, x.2) (y.1, y.2)) (a ++ b)).take k

/-- Elements as bytes, and bytes as elements, of `w` bytes each. -/
def elemsBytes (w : Nat) (l : List Nat) : List Byte := l.flatMap fun x => leBytes w x

/-- `n` elements of `w` bytes from a string. -/
def bytesElems (w n : Nat) (bs : List Byte) : List Nat := (List.range n).map fun i => ofLeBytes ((bs.drop (i * w)).take w)

/-! ## Instances (R376, R378, R383) -/

/-- The opcode of a class 8 record (R252). -/
def collCode : Instr → Nat
  | .cjoin _ => 1 | .callred _ => 2 | .credsc _ => 3 | .callgath _ => 4 | .cbcast _ => 5 | .ctopk _ => 6 | _ => 7

/-- The root of cbcast; zero otherwise. -/
def rootOf (x : Entry) : Nat :=
  match x.instr with
  | .cbcast _ => x.cap.c.val.toNat
  | _ => 0

/-- The 16 bytes of a contribution (R378). -/
def contribution (q : CCtx) (inst : Nat) (refused : Bool) : List Byte :=
  leBytes 4 inst ++ leBytes 1 (collCode q.x.instr) ++ leBytes 1 q.r.type.toNat ++ leBytes 2 q.r.ctl.toNat ++
    leBytes 4 (inputCount q.x.cap) ++ leBytes 2 (rootOf q.x) ++ leBytes 1 (if refused then 1 else 0) ++ leBytes 1 0

/-- The points of the first `n` elements of a linear operand. -/
def linPoints (n : Nat) : List Point := (List.range n).map fun j => ⟨j, 0, 0, 0⟩

/-- How many elements ctopk writes (R381). -/
def CCtx.topN (q : CCtx) : Nat := Nat.min q.r.ctl.toNat (q.cm.n * inputCount q.x.cap)

/-- The record reads its own input: every record but cbar, and cbcast at the root alone (R373). -/
def CCtx.reads (q : CCtx) : Bool :=
  match q.x.instr with
  | .cbar _ => false
  | .cbcast _ => decide (q.cm.rank = rootOf q.x)
  | _ => true

/-- The bytes a record reads or writes here, its status word included (R93, R383). -/
def CCtx.spans (q : CCtx) : List (Nat × Nat) :=
  let c := q.x.cap
  let ps := activePoints c
  let n := inputCount c
  (if q.reads then c.a.spans ps else []) ++
  (match q.x.instr with
   | .callred _ | .cbcast _ => c.d.spans ps
   | .credsc _ => c.d.spans (linPoints (n / q.cm.n))
   | .callgath _ => c.d.spans (linPoints (q.cm.n * n))
   | .ctopk _ => c.d.spans (linPoints q.topN) ++ c.c.spans (linPoints q.topN)
   | _ => []) ++
  (statFoot q.r).map fun f => (f.lo, f.hi)

/-- The input's bits in linear order. -/
def CCtx.input (q : CCtx) (s : State) : List Nat :=
  let m := (s.lcoreAt q.lc).sp
  if q.reads then (activePoints q.x.cap).map fun p => q.x.cap.a.bits m q.r.type p else []

/-- Bytes of an element. -/
def CCtx.w (q : CCtx) : Nat := fmtBits q.r.type / 8

/-- Every other member's contribution has arrived: none while one is missing, else whether all agree and none is refused (R376, R383). -/
def CCtx.contributed (q : CCtx) (s : State) (inst : Nat) : Option Bool :=
  (q.cm.others.mapM fun m => (q.received s m 1 inst 0 (16 * m) 16).map fun b => decide (b = contribution q inst false)).map
    fun l => l.all id

/-! ## The tree (R83, R377, R378) -/

/-- The level at which rank `r` sends up: the lowest bit set in it, below `k`. -/
def upLevel (r : Nat) : Nat → Nat → Nat
  | 0, l => l
  | k + 1, l => if r.testBit l then l else upLevel r k (l + 1)

/-- The ranks from `r` that a position of level `l` covers (R83). -/
def covered (n r l : Nat) : Nat := Nat.min (2 ^ l) (n - r)

/-- The elements of a message of a position or of the whole, with their VA offset: values, and for ctopk the indices (R378). -/
def CCtx.parts (q : CCtx) (first : Nat) (k : Coll) : List (Nat × List Byte) :=
  match q.x.instr with
  | .ctopk _ => [(0, elemsBytes q.w k.vals), (2 ^ 19, elemsBytes q.w k.idxs)]
  | .callgath _ => [(first * inputCount q.x.cap * q.w, elemsBytes q.w k.vals)]
  | _ => [(0, elemsBytes q.w k.vals)]

/-- The record sends flags behind its transfers (R378). -/
def CCtx.flagged (q : CCtx) : Bool :=
  match q.x.instr with
  | .callred _ | .credsc _ => true
  | _ => false

/-- Send a transfer and its flags to rank `m` (R377, R378). -/
def CCtx.transfer (q : CCtx) (s : State) (k : Coll) (m kind level first : Nat) : Coll :=
  { k with out := k.out ++ ((q.parts first k).flatMap fun (off, bs) => q.message s m kind k.inst level off bs) ++
      (if q.flagged then q.message s m 5 k.inst level 0 (leBytes 1 (k.flags.toNat % 64) ++ leBytes 7 0) else []) }

/-- The elements a transfer brings: how many values from which VA offset, with their flags, once all has arrived. -/
def CCtx.take (q : CCtx) (s : State) (inst m kind level first n : Nat) : Option (List Nat × List Nat × Flags) := do
  let w := q.w
  let off := match q.x.instr with
    | .callgath _ => first * inputCount q.x.cap * w
    | _ => 0
  let vs ← q.received s m kind inst level off (n * w)
  let is_ ← match q.x.instr with
    | .ctopk _ => q.received s m kind inst level (2 ^ 19) (n * w)
    | _ => some []
  let fl ← if q.flagged then q.received s m 5 inst level 0 8 else some []
  some (bytesElems w n vs, bytesElems w (match q.x.instr with | .ctopk _ => n | _ => 0) is_, BitVec.ofNat 8 (ofLeBytes fl % 64))

/-- How many elements the position from rank `m` at level `l` holds (R378). -/
def CCtx.posCount (q : CCtx) (m l : Nat) : Nat :=
  let n := inputCount q.x.cap
  match q.x.instr with
  | .callgath _ => covered q.cm.n m l * n
  | .ctopk _ => Nat.min q.r.ctl.toNat (covered q.cm.n m l * n)
  | _ => n

/-- How many elements the final value holds. -/
def CCtx.wholeCount (q : CCtx) : Nat :=
  match q.x.instr with
  | .callgath _ => q.cm.n * inputCount q.x.cap
  | .ctopk _ => q.topN
  | _ => inputCount q.x.cap

/-- Join the right position's value to the left's (R377 to R381). -/
def CCtx.combine (q : CCtx) (k : Coll) (vs is_ : List Nat) (fl : Flags) : Coll :=
  match q.x.instr with
  | .callgath _ => { k with vals := k.vals ++ vs }
  | .ctopk _ =>
    let l := topMerge q.r.type q.r.ctl.toNat (k.idxs.zip k.vals) (is_.zip vs)
    { k with vals := l.map (·.2), idxs := l.map (·.1) }
  | _ =>
    let (v, f) := collVec q.r.type (q.r.ctl.toNat % 8) k.vals vs
    { k with vals := v, flags := k.flags ||| f ||| fl }

/-- The transfers down from this holder, in reverse level order; a broadcast's root gets none (R377, R378). -/
def CCtx.sendDown (q : CCtx) (s : State) (k : Coll) : Coll :=
  let r := q.cm.rank
  let top := if r = 0 then 16 else upLevel r 16 0
  (List.range top).reverse.foldl (fun k l =>
    let m := r + 2 ^ l
    let isRoot := match q.x.instr with | .cbcast _ => decide (m = rootOf q.x) | _ => false
    if m < q.cm.n ∧ !isRoot then q.transfer s k m 3 l 0 else k) k

/-! ## Results (R379 to R381) -/

/-- Write elements of an operand at points. -/
def CCtx.write (q : CCtx) (o : Operand) (s : State) (l : List (Point × Nat)) : State :=
  l.foldl (fun s (p, v) => s.putElem q.lc (descBase o.desc) q.r.type (o.index p) v) s

/-- Write the record's results from its final value: reductions write canonical NaNs, with one rank too (R65, R379 to R381). -/
def CCtx.results (q : CCtx) (k : Coll) (s : State) : State :=
  let c := q.x.cap
  let n := inputCount c
  match q.x.instr with
  | .callred _ => q.write c.d s ((activePoints c).zip (k.vals.map (canon q.r.type)))
  | .cbcast _ => q.write c.d s ((activePoints c).zip k.vals)
  | .credsc _ =>
    let m := n / q.cm.n
    q.write c.d s ((linPoints m).zip ((k.vals.map (canon q.r.type)).drop (q.cm.rank * m)))
  | .callgath _ => q.write c.d s ((linPoints (q.cm.n * n)).zip k.vals)
  | .ctopk _ =>
    let s := q.write c.d s ((linPoints q.topN).zip (k.vals.map (canon q.r.type)))
    q.write c.c s ((linPoints q.topN).zip k.idxs)
  | _ => s

/-! ## Running a record -/

/-- End a record: its status word with count and aux zero, and the messages of its instance are forgotten; joins are kept for the cjoin that takes them (R378, R383). -/
def CCtx.finish (q : CCtx) (s : State) (inst : Nat) (fl : Flags) (code : BitVec 8) : State :=
  let s := q.purge (fun g => match q.x.instr with
    | .cjoin _ => false
    | _ => decide (msgKind g.va ≠ 0 ∧ msgInst g.va = inst % 16)) s
  (s.putStatus q.x q.r (statusWord 0 code 0 fl)).endRun q.core .c

/-- Change the communicator. -/
def CCtx.onComm (q : CCtx) (f : Comm → Comm) (s : State) : State :=
  s.onLcore q.lc fun l => { l with comms := smod none l.comms q.idx (Option.map f) }

/-- What one advance of a record comes to. -/
inductive Adv
  | go (s : State) (k : Coll) | wait (s : State) (k : Coll) | done (s : State)

/-- The communicator fails: the cjoin ends with NV (R375). -/
def CCtx.joinFails (q : CCtx) (s : State) : State := q.finish (q.onComm (fun c => { c with good := false }) s) 0 fNV 0

/-- The joins that a starting cjoin has to send: those that the same record, removed by an abort, has not sent yet, else one for every other member (R375, R384; log 127, DEDUCED). -/
def CCtx.joinsOut (q : CCtx) (s : State) (launch : BitVec 32) : List RPiece :=
  match sget none (s.lcoreAt q.lc).comms q.idx with
  | some ⟨_, ids, _, true, 0, some l⟩ => if ids = q.cm.members then l else fresh
  | _ => fresh
where
  fresh : List RPiece := q.cm.others.flatMap fun m => q.message s m 0 0 0 (16 * q.cm.rank) (joinBytes q.cm.members launch q.cm.rank)

/-- Advance a cjoin (R375): messages of an earlier communicator under the index go as it starts; a cjoin that an abort removed finds its own communicator still unused and keeps what has come for it (R384). One that finds the failure in its own record sends no join and takes none (log 127, DEDUCED). -/
def CCtx.advJoin (q : CCtx) (s : State) (k : Coll) : Adv :=
  let launch := (s.taskAt q.x.ref.task).launch
  match k.phase with
  | 0 =>
    match s.touchSpans q.lc (q.x.cap.a.spans (linPoints (tripN q.x.cap.trips 0)) ++ (statFoot q.r).map fun f => (f.lo, f.hi)) with
    | (s, .wait) => .wait s k
    | (s, .refused _) =>
      .done (q.finish (s.onLcore q.lc fun l =>
        { l with comms := sset none l.comms q.idx (some ⟨tripN q.x.cap.trips 0, [], 0, false, 0, none⟩) }) 0 fTR eUnfilled)
    | (s, .ok ()) =>
      let ids := (linPoints (tripN q.x.cap.trips 0)).map fun p => q.x.cap.a.bits (s.lcoreAt q.lc).sp fN32 p
      let bad := s.joinBad q ids
      let rank := ids.idxOf q.vr
      let cm : Comm := { n := ids.length, members := ids.map (· % 2 ^ 20), rank := rank, good := !bad, inst := 0, owed := none }
      let again := match sget none (s.lcoreAt q.lc).comms q.idx with | some c => decide (c.inst = 0) | none => false
      let q := { q with cm := cm }
      let out := q.joinsOut s launch
      let s := s.onLcore q.lc fun l => { l with comms := sset none l.comms q.idx (some { cm with owed := if bad then none else some out }) }
      let s := if again then s else q.purge (fun g => decide (msgKind g.va ≠ 0)) s
      if bad then .done (q.joinFails s) else .go s { k with phase := 1, out := out }
  | _ =>
    let s := q.onComm (fun c => { c with owed := some k.out }) s
    match q.joinsAgree launch s with
    | none => .wait s k
    | some ok =>
      if !k.out.isEmpty then .wait s k
      else
        let s := q.onComm (fun c => { c with owed := none }) (q.takeJoins s)
        .done (if ok then q.finish s 0 0 0 else q.joinFails s)

/-- The record has its final value: results are written, and what it owes is sent (R378). -/
def CCtx.settleWhole (q : CCtx) (s : State) (k : Coll) : Adv := .go (q.results k s) { q.sendDown s k with phase := 5 }

/-- The record starts: its own input as a position of level 0, or the end of a barrier (R376, R382). An index of ctopk is formed from the rank and the local index alone (R229, R381). -/
def CCtx.start (q : CCtx) (s : State) (k : Coll) : Adv :=
  let r := q.cm.rank
  let n := inputCount q.x.cap
  match q.x.instr with
  | .cbar _ => .go s { k with phase := 5 }
  | .cbcast _ =>
    if r = rootOf q.x then q.settleWhole s (if r = 0 then k else q.transfer s k 0 4 0 0)
    else .go s { k with phase := 3 }
  | .ctopk _ =>
    let l := (isort (rankLe q.r.type) ((List.range n).zip k.vals)).take q.r.ctl.toNat
    .go s { k with phase := 2, vals := l.map (·.2), idxs := l.map fun x => r * n + x.1 }
  | _ => .go s { k with phase := 2 }

/-- Advance up the tree by one level (R377). -/
def CCtx.advUp (q : CCtx) (s : State) (k : Coll) : Adv :=
  let r := q.cm.rank
  let l := k.level
  if q.cm.n ≤ 2 ^ l then q.settleWhole s k
  else if r.testBit l then .go s { q.transfer s k (r - 2 ^ l) 2 l r with phase := 3 }
  else if q.cm.n ≤ r + 2 ^ l then .go s { k with level := l + 1 }
  else
    match q.take s k.inst (r + 2 ^ l) 2 l (r + 2 ^ l) (q.posCount (r + 2 ^ l) l) with
    | none => .wait s k
    | some (vs, is_, fl) => .go s { q.combine k vs is_ fl with level := l + 1 }

/-- Advance on the way down: from the root of a broadcast, or from the left holder (R377, R378). -/
def CCtx.advDown (q : CCtx) (s : State) (k : Coll) : Adv :=
  let r := q.cm.rank
  let l := upLevel r 16 0
  let got := if r = 0 then q.take s k.inst (rootOf q.x) 4 0 0 q.wholeCount else q.take s k.inst (r - 2 ^ l) 3 l 0 q.wholeCount
  match got with
  | none => .wait s k
  | some (vs, is_, fl) => q.settleWhole s { k with vals := vs, idxs := is_, flags := if q.flagged then fl else k.flags }

/-- Advance a record other than cjoin (R376, R383). -/
def CCtx.advColl (q : CCtx) (s : State) (k : Coll) : Adv :=
  match k.phase with
  | 0 =>
    if !q.cm.good then .done (q.finish s 0 fNV 0)
    else
      let inst := q.cm.inst + 1
      let s := q.purge (fun g => decide (msgKind g.va ≠ 0 ∧ msgInst g.va ≠ inst % 16 ∧ msgInst g.va ≠ (inst + 1) % 16)) s
      let contrib (s : State) (refused : Bool) : List RPiece :=
        q.cm.others.flatMap fun m => q.message s m 1 inst 0 (16 * q.cm.rank) (contribution q inst refused)
      match s.touchSpans q.lc q.spans with
      | (s, .wait) => .wait s k
      | (s, .refused _) => .go (q.onComm (fun c => { c with inst := inst }) s) { k with phase := 6, inst := inst, out := contrib s true }
      | (s, .ok ()) => .go s { k with phase := 1, inst := inst, vals := q.input s, out := contrib s false }
  | 1 =>
    match q.contributed s k.inst with
    | none => .wait s k
    | some true => q.start (q.onComm (fun c => { c with inst := k.inst }) s) k
    | some false => .go (q.onComm (fun c => { c with inst := k.inst }) s) { k with phase := 7 }
  | 2 => q.advUp s k
  | 3 => q.advDown s k
  | 6 => if k.out.isEmpty then .done (q.finish s k.inst fTR eUnfilled) else .wait s k
  | 7 => if k.out.isEmpty then .done (q.finish s k.inst fNV 0) else .wait s k
  | _ => if k.out.isEmpty then .done (q.finish s k.inst k.flags 0) else .wait s k

/-- Advance as far as it goes, sending messages while their pairs have room (R196). -/
def CCtx.run (q : CCtx) : Nat → State → Coll → State
  | 0, s, k => s.onRun q.core .c fun u => { u with coll := some k }
  | n + 1, s, k =>
    let (s, left) := State.sendPieces (s.senderOf q.x.ref) 0 k.out s
    let k := { k with out := left }
    let q := { q with cm := (sget none (s.lcoreAt q.lc).comms q.idx).getD q.cm }
    match (match q.x.instr with | .cjoin _ => q.advJoin s k | _ => q.advColl s k) with
    | .go s k => CCtx.run q n s k
    | .wait s k => s.onRun q.core .c fun u => { u with coll := some k }
    | .done s => s

/-- One completion step of a core's collective engine. -/
def State.completeColl (s : State) (core : Nat) (u : Run) : State :=
  match recPlan u.e.instr with
  | some (r, _, _) =>
    let q : CCtx :=
      { core := core, x := u.e, r := r, lc := lckey u.e.ref.task u.e.ref.lcore, idx := commOf u.e.instr u.e.cap,
        cm := ⟨tripN u.e.cap.trips 0, [], 0, false, 0, none⟩, vr := (s.taskAt u.e.ref.task).vr }
    q.run 64 s (u.coll.getD Coll.init)
  | none => s.endRun core .c

/-- A member of the launch is lost: every pending record of the logical core ends and writes nothing (R383). (log 66, DEDUCED) -/
def State.loseColl (s : State) (lc : Nat) : State :=
  let core := s.coreOf (lc / 288) (lc % 288)
  let mine (x : Entry) : Bool := decide (lckey x.ref.task x.ref.lcore = lc)
  ((s.onLcore lc fun l => { l with lost := true }).onCore core fun c =>
    { c with c := { q := c.c.q.filter fun x => !mine x, run := c.c.run.filter fun u => !mine u.e } })

end Sys2Proof.Machine
end

