-- ==== Sys2Proof/Machine/Matrix.lean ====
section
/-! DEFINITION. Machine/Matrix.lean: what matrix commands compute: the rows of R165, operand addressing (R324), seeded sparsity (R173), accumulation (R81, R87, R167), the Briar buffer (R168, R169), conversions (R171, R172). -/

namespace Sys2Proof.Machine

/-! ## Modes and depths (R165) -/

/-- The row of R165's table that a type stands in; 0 for none. -/
def matRow (f : Fmt) : Nat :=
  match f.toNat with
  | 0x13 => 1 | 0x12 => 2 | 0x10 | 0x11 => 3 | 0x14 | 0x15 | 0x20 | 0x21 => 4 | 0x16 | 0x17 | 0x22 | 0x23 => 5
  | 0x18 | 0x24 => 6 | 0x28 => 7 | 0x29 => 8 | 0x2A => 9 | 0x01 | 0x02 => 10 | 0x08 => 11 | _ => 0

/-- K of a type (R165). -/
def matK (f : Fmt) : Nat := [0, 16, 32, 64, 128, 160, 256, 112, 160, 256, 128, 256].getD (matRow f) 0

/-- Cycles per issue of a type (R165). -/
def matCyc (f : Fmt) : Nat := [0, 32, 32, 16, 16, 20, 16, 14, 20, 16, 16, 16].getD (matRow f) 0

/-- The type belongs to the integer mode. -/
def matInt (f : Fmt) : Bool := decide (10 ≤ matRow f)

/-- Columns of one array's tile (R165). -/
def matCols (f : Fmt) : Nat := if f = fF64 then 64 else 128

/-- The op types of seeded sparsity (R173). -/
def sparseFmt (f : Fmt) : Bool :=
  decide (f = fBf16 ∨ f = fF16 ∨ f = fE4m3 ∨ f = fE5m2 ∨ f = fE2m1 ∨ f = fI8 ∨ f = fN8 ∨ f = fI4)

/-- The op types of the down-converter (R172). -/
def downFmt (f : Fmt) : Bool :=
  decide (f = fF32 ∨ f = fBf16 ∨ f = fF16 ∨ f = fE4m3 ∨ f = fE5m2 ∨ f = fI8)

/-! ## Seeded sparsity (R173) -/

/-- Four-element subsets of {0, …, 7} in lexicographic order. -/
def combos : List (List Nat) :=
  (List.range 8).flatMap fun a => (List.range 8).flatMap fun b => (List.range 8).flatMap fun c => (List.range 8).filterMap fun d =>
    if a < b ∧ b < c ∧ c < d then some [a, b, c, d] else none

/-- The hash of a group (R173). -/
def keepHash (seed r g : Nat) : Nat :=
  let h := (seed + 0x9E3779B9 * (g + 1) + 0x85EBCA6B * (r + 1)) % 2 ^ 32
  let h := h ^^^ (h / 2 ^ 16)
  let h := h * 0x045D9F3B % 2 ^ 32
  h ^^^ (h / 2 ^ 16)

/-- The kept positions of group `g` of row `r` (R173). -/
def keep (seed r g : Nat) : List Nat := combos.getD (keepHash seed r g % 70) []

/-- The place of position `k` of a group among the kept ones; none when it is dropped. -/
def keptAt (seed r g k : Nat) : Option Nat := (keep seed r g).findIdx? fun x => decide (x = k)

/-! ## Operand addressing (R324) -/

/-- What a multiplying record reads: K per issue, stored and covered, active K indices, the seed if it is sparse. -/
structure MShape where
  K    : Nat
  kd   : Nat
  n    : Nat
  act  : Nat
  seed : Option Nat
  deriving DecidableEq, Repr

/-- κ_s: where the stored A value of row `i` at K index `k` stands; none where it is dropped (R324). -/
def MShape.stored (m : MShape) (i k : Nat) : Option Nat :=
  match m.seed with
  | none => some k
  | some sd =>
    let q := k / m.kd
    let w := k % m.kd
    (keptAt sd i (w / 8) (w % 8)).map fun p => q * m.K + 4 * (w / 8) + p

/-- How many stored A values of row `i` have active K indices. -/
def MShape.storedCount (m : MShape) (i : Nat) : Nat :=
  match m.seed with
  | none => m.act
  | some _ => m.act / m.kd * m.K + ((List.range (m.act % m.kd)).filter fun k => (m.stored i k).isSome).length

/-- Element index of a matrix operand stream. -/
def matIndex (o : Slot) (k v : Nat) : Nat := (slotOff o + k * slotStride o 0 + v * slotStride o 1).toNat

/-! ## Floating-point accumulation (R81, R166) -/

/-- The exact sum of a group's products with its NV flag: NaN products and opposite infinities give NaN; a zero sum is −0 only when every product is (R81). -/
def groupSum (ps : List FVal) : FVal × Flags :=
  if ps.any FVal.isNan || (ps.contains (.inf true) && ps.contains (.inf false)) then (.nan false, fNV)
  else
    match ps.find? FVal.isInf with
    | some x => (x, 0)
    | none =>
      let s := ps.foldl (fun acc p => match acc, p with
        | .fin n1 m1 e1 _, .fin n2 m2 e2 _ => addFin false n1 m1 e1 n2 m2 e2
        | a, _ => a) (FVal.exact true 0 0)
      if s.isZero then (.zero (ps.all fun p => p.isZero && p.neg), 0) else (s, 0)

/-- A product of a group; a missing operand gives +0 (R81, R327). -/
def product (a b : Option FVal) : FVal × Flags :=
  match a, b with
  | some x, some y => vMul x y
  | _, _ => (.zero false, 0)

/-- Cut a list into groups of 16 (R81, R167). -/
def groups16 {α : Type} : Nat → List α → List (List α)
  | 0, _ => []
  | n + 1, l => if l.isEmpty then [] else l.take 16 :: groups16 n (l.drop 16)

/-- One cell in FP mode over groups of its row of A and its column of B: its new bits and flags (R81). -/
def fpCell (acc : Fmt) (gs : List (List (Option FVal) × List (Option FVal))) (old : Nat) : Nat × Flags :=
  gs.foldl (fun (v, fl) g =>
    let (s, f1) := groupSum ((List.zipWith product g.1 g.2).map (·.1))
    let (sb, f2) := deliver acc .ieee .rne 0 s
    let (x, f3) := vAdd false (decodeVal acc v) (decodeVal acc sb)
    let (w, f4) := deliver acc .ieee .rne 0 x
    (w, fl ||| f1 ||| f2 ||| f3 ||| f4)) (old, 0)

/-! ## Banks as cells (R97, R162, R167) -/

/-- Cell number of (row, column). -/
def cellNo (i j : Nat) : Nat := i * 128 + j

/-- The net of a cell's entries in the Briar buffer (R167). -/
def briarNet (l : List (Nat × Bool)) (c : Nat) : Int :=
  l.foldl (fun n e => if e.1 = c then (if e.2 then n - 1 else n + 1) else n) 0

/-- V of a cell without its entries (R167). -/
def Bank.value (b : Bank) (c : Nat) : Int := (sget 0 b.cells c).toInt + 2 ^ 24 * (sget 0 b.planes c).toInt

/-- The f64 bits of a cell pair (R162). -/
def Bank.pair (b : Bank) (i c : Nat) : Nat :=
  (sget 0 b.cells (cellNo i (2 * c))).toNat + 2 ^ 32 * (sget 0 b.cells (cellNo i (2 * c + 1))).toNat

/-- Write a cell's value word. -/
def Bank.setCell (b : Bank) (c v : Nat) : Bank := { b with cells := sset 0 b.cells c (BitVec.ofNat 32 v) }

/-- Write a cell pair. -/
def Bank.setPair (b : Bank) (i c v : Nat) : Bank :=
  (b.setCell (cellNo i (2 * c)) (v % 2 ^ 32)).setCell (cellNo i (2 * c + 1)) (v / 2 ^ 32)

/-- A value as narrow part and plane (R332). -/
def splitV (v : Int) : Int × Int :=
  let p := (v + 2 ^ 23) / 2 ^ 24
  (v - 2 ^ 24 * p, p)

/-- Give a cell the value V: narrow part and plane (R332). -/
def Bank.setV (b : Bank) (c : Nat) (v : Int) : Bank :=
  let (n, p) := splitV v
  { b with cells := sset 0 b.cells c (BitVec.ofInt 32 n), planes := sset 0 b.planes c (BitVec.ofInt 16 p) }

/-- V lies within what a cell can hold (R167). -/
def vInRange (v : Int) : Bool := decide (-(2 ^ 23) - 32767 * 2 ^ 24 ≤ v ∧ v ≤ 2 ^ 23 - 1 + 32767 * 2 ^ 24)

/-- Add entries into the planes: a fold pass (R168). -/
def Bank.fold (b : Bank) (l : List (Nat × Bool)) : Bank :=
  if l.isEmpty then b
  else
    { b with
      planes := l.foldl (fun m e => smod 0 m e.1 fun p => if e.2 then p - 1 else p + 1) b.planes
      foldn := b.foldn + 1 }

/-! ## Integer and anchored accumulation (R87, R167 to R169) -/

/-- A product rounded at an anchor, and how it ends its command if it does (R87). -/
def anchored (A : Int) (a b : Option FVal) : Int × Option (BitVec 8) :=
  match a, b with
  | some (.fin n1 m1 e1 _), some (.fin n2 m2 e2 _) =>
    let g := (roundQ .rne (n1 != n2) 0 (m1 * m2) (e1 + e2) (A - 23) false).1
    (if n1 != n2 then -(g : Int) else g, if 2 ^ 23 ≤ g then some eRange else none)
  | some _, some _ => (0, some eNV)
  | _, _ => (0, none)

/-- The running state of an integer or anchored command: bank, buffer, entries written, fold passes, stall and fold cycles, groups begun, entries of the earlier group where two fall in one cycle, ending. -/
structure IntRun where
  bank    : Bank
  briar   : List (Nat × Bool)
  carries : Nat
  folds   : Nat
  cycles  : Nat
  groups  : Nat
  shared  : Option Nat
  ended   : BitVec 8
  deriving DecidableEq, Repr

/-- One more entry: a full buffer folds, or ends a .spill command (R169). -/
def IntRun.entry (spill : Bool) (r : IntRun) (e : Nat × Bool) : IntRun :=
  if r.ended ≠ 0 then r
  else if r.briar.length < 4096 then { r with briar := r.briar ++ [e], carries := r.carries + 1 }
  else if spill then { r with ended := eSpill }
  else { r with bank := r.bank.fold r.briar, briar := [e], carries := r.carries + 1, folds := r.folds + 1, cycles := r.cycles + 64 }

/-- The intake stalls of `n` entries in one cycle (R168). -/
def stalls (n : Nat) : Nat := (n + 255) / 256 - 1

/-- The intake stalls of a group of `n` entries spread over `c` cycles, of which the first `w` are written (R168, R169). -/
def stallsOf (c n w : Nat) : Nat :=
  ((List.range c).foldl (fun (t : Nat × Nat) i =>
    let k := Nat.min t.2 (n / c + (if i < n % c then 1 else 0))
    (t.1 + stalls k, t.2 - k)) (0, w)).1

/-- The intake stalls that the first `w` of a group's `n` entries add; with no whole cycle of its own the group shares one with its neighbour (R168). -/
def IntRun.stall (c n w : Nat) (r : IntRun) : IntRun :=
  if c = 0 then
    match r.shared with
    | none => { r with cycles := r.cycles + stalls w, shared := some w }
    | some k => { r with cycles := r.cycles + (stalls (k + w) - stalls k), shared := none }
  else { r with cycles := r.cycles + stallsOf c n w }

/-- How many of a group's `n` entries are written: under .spill the 4,097th ends the command (R169). -/
def IntRun.written (spill : Bool) (n : Nat) (r : IntRun) : Nat := if spill then Nat.min n (4096 - r.briar.length) else n

/-- One cell's update by a group sum: narrow value and carries (R167). -/
def narrowStep (n G : Int) : Int × Int :=
  let t := n + G
  let w := (t + 2 ^ 23) / 2 ^ 24
  (t - w * 2 ^ 24, w)

/-- Entries of one cell. -/
def entriesOf (c : Nat) (w : Int) : List (Nat × Bool) := List.replicate w.natAbs (c, decide (w < 0))

/-- The first ending of a kind among a group's sums. -/
def hasEnd (e : BitVec 8) (l : List (Int × Option (BitVec 8))) : Bool := l.any fun g => decide (g.2 = some e)

/-- One group over all 16,384 cells in order: each cell's exact sum with the ending its products give (R167, R178). Among the products one out of range ends before an NV operand, either before V is judged, and V's range before a spill (log 10, DEDUCED). -/
def IntRun.group (spill : Bool) (cyc : Nat) (sums : List (Int × Option (BitVec 8))) (r : IntRun) : IntRun :=
  if r.ended ≠ 0 then r
  else if hasEnd eRange sums then { r with groups := r.groups + 1, ended := eRange }
  else if hasEnd eNV sums then { r with groups := r.groups + 1, ended := eNV }
  else
    let r := { r with groups := r.groups + 1 }
    let us : List ((Int × Int) × Nat) := (List.zipWith (fun v g => narrowStep (BitVec.toInt v) g.1) (sdense 0 16384 0 r.bank.cells) sums).zipIdx
    let bad := us.any fun u => decide (u.1.2 ≠ 0) &&
      !vInRange (u.1.1 + 2 ^ 24 * ((sget 0 r.bank.planes u.2).toInt + briarNet r.briar u.2 + u.1.2))
    if bad then { r with ended := eRange }
    else
      let es := us.flatMap fun u : (Int × Int) × Nat => entriesOf u.2 u.1.2
      let r := { r with bank := { r.bank with cells := srun 0 0 (us.map fun u : (Int × Int) × Nat => BitVec.ofInt 32 u.1.1) } }.stall cyc es.length (r.written spill es.length)
      es.foldl (IntRun.entry spill) r

/-- A group's sum in integer mode. -/
def intSum (a b : List Int) : Int × Option (BitVec 8) := ((List.zipWith (· * ·) a b).foldl (· + ·) 0, none)

/-- A group's sum at an anchor, with the ending of its products: range before NV (R87; log 10, DEDUCED). -/
def ancSum (A : Int) (a b : List (Option FVal)) : Int × Option (BitVec 8) :=
  (List.zipWith (anchored A) a b).foldl (fun (n, x) p =>
    (n + p.1, match x, p.2 with
      | some a, some b => if b.toNat < a.toNat then some b else some a
      | some a, none => some a
      | none, y => y)) (0, none)

/-- The sums of all cells for one group: rows of A against columns of B, in cell order; cells beyond the columns stand still. -/
def cellSums {α : Type} (f : List α → List α → Int × Option (BitVec 8)) (rows cols : List (List α)) : List (Int × Option (BitVec 8)) :=
  rows.flatMap fun a => cols.map fun b => f a b

/-! ## Conversions out of a bank (R171, R172) -/

/-- The value and destination pairing of a bank's column, with the flags; none where R171 lacks it. `y0` is the random word. -/
def drainVal (b : Bank) (i j : Nat) (d : Fmt) (ovf : Bool) (rm : RMode) (y0 : Nat) : Option (Nat × Flags) :=
  let v := b.value (cellNo i j)
  let w := (sget 0 b.cells (cellNo i j)).toNat
  match b.kind with
  | .none => none
  | .int =>
    if d = fI64 then some (intBits fI64 v, 0)
    else if d = fI32 then let (x, c) := clampInt (intRange fI32) v; some (intBits fI32 x, flagIf c fSAT)
    else if d = fF32 then some (convFloat fF32 .ieee rm y0 (.ofInt v))
    else none
  | .anc A =>
    let x := FVal.exact (decide (v < 0)) v.natAbs (A - 23)
    if d = fF32 then some (deliver fF32 .ieee rm y0 x)
    else if d = fF64 then some (deliver fF64 .ieee rm y0 x)
    else none
  | .f32 =>
    if d = fF32 then some (w, 0)
    else if d = fF16 ∨ d = fBf16 ∨ d = fE4m3 ∨ d = fE5m2 then some (convFloat d (ovfOf d ovf) rm y0 (decodeVal fF32 w))
    else none
  | .f64 =>
    let p := b.pair i j
    if d = fF64 then some (p, 0) else if d = fF32 then some (convFloat fF32 .ieee rm y0 (decodeVal fF64 p)) else none

/-- The columns of a bank: cell pairs for kind f64 (R333). -/
def BKind.cols : BKind → Nat
  | .f64 => 64
  | _ => 128

/-- The down-converter's value for an op type (R172): an int source to i8 saturates; a cell pair beyond the bank's 64 is open (log 9, DESIGN CHOICE). -/
def downVal (b : Bank) (i j : Nat) (d : Fmt) (ovf : Bool) (rm : RMode) (y0 : Nat) : Option (Nat × Flags) :=
  if b.kind = .int ∧ d = fI8 then let (x, c) := clampInt (intRange fI8) (b.value (cellNo i j)); some (intBits fI8 x, flagIf c fSAT)
  else if b.kind = .f64 ∧ 64 ≤ j then
    if d = fF32 then some (convFloat fF32 .ieee rm y0 (decodeVal fF64 (Config.pairBeyond i j).toNat)) else none
  else drainVal b i j d ovf rm y0

end Sys2Proof.Machine
end

