-- ==== Sys2Proof/Machine/MatrixEngine.lean ====
section
/-! DEFINITION. Machine/MatrixEngine.lean: class 5 records and mmode: claims (R163, R174, R325, R326), dispatch checks (R321 to R335), turns of an array (R164), and completion of matrix commands (R327 to R336). -/

namespace Sys2Proof.Machine

/-! ## Fields (R322) -/

/-- The destination bank of ctl. -/
def ctlBank (r : Rec) : Nat := r.ctl.toNat / 2 % 4

/-- The source bank of ctl. -/
def ctlSbank (r : Rec) : Nat := r.ctl.toNat / 8 % 4

/-- A is read through the down-converter. -/
def ctlAsrc (r : Rec) : Bool := r.ctl.getLsbD 5

/-- .spill (R169). -/
def ctlSpill (r : Rec) : Bool := r.ctl.getLsbD 0

/-- The low 8 bits of an operand's value, unsigned (R323). -/
def low8 (o : Operand) : Nat := o.val.toNat % 256

/-- The anchor: the low 8 bits, signed (R323). -/
def anchorOf (o : Operand) : Int := (o.val.setWidth 8).toInt

/-- The anchor is present and outside −126 to 127 (R87, R323). -/
def anchorBad (o : Operand) : Bool := !o.absent && decide (anchorOf o < -126)

/-! ## Claims (R163, R174, R321, R325) -/

/-- The logical clusters of a claim. -/
def Claim.clusters (c : Claim) : List Nat := (List.range (c.rows * c.cols)).map (c.base + ·)

/-- Two claims of one task share a bank. -/
def Claim.meets (a b : Claim) : Bool :=
  decide (a.mask &&& b.mask ≠ 0) && a.clusters.any fun j => b.clusters.contains j

/-- The claim that an mlease asks for. -/
def State.leaseOf (s : State) (r : Rec) (c : Cap) : Claim :=
  let mask : BitVec 4 := r.ctl.extractLsb' 1 4
  if c.a.absent then ⟨mask, 1, 1, s.cur.lcore / 4⟩
  else ⟨mask, r.ctl.toNat / 32 % 4 + 1, r.ctl.toNat / 128 % 8 + 1, low8 c.a⟩

/-- The claims that tailed strands of a logical core keep: their matrix commands are not done (R48, R178). -/
def State.keptClaims (s : State) (e : Nat × LCore) : List Claim :=
  (e.2.claims.filter fun p => (s.coreAt (s.coreOf (e.1 / 288) (e.1 % 288))).m.busyFor p.1).map (·.2)

/-- Claims of the task held by others than strand `k`: those of strands, and those that tailed strands keep (R163, R178). -/
def State.otherClaims (s : State) (task k : Nat) : List Claim :=
  (s.strands.filterMap fun e => if e.1 / 1152 = task ∧ e.1 ≠ k then e.2.claim else none) ++
  s.lcores.flatMap fun e => if e.1 / 288 = task then s.keptClaims e else []

/-- Every bank of the claim is free for strand `k`. -/
def State.claimFree (s : State) (task k : Nat) (c : Claim) : Bool := !(s.otherClaims task k).any c.meets

/-- The physical cluster of a logical cluster of a task (R29). -/
def State.clusterOf (s : State) (task j : Nat) : Nat :=
  match s.bindOf task j with
  | some e => e / 4
  | none => 0

/-- The requester number of a strand at an array: 16 × core in the cluster + slot (R213). -/
def State.requester (s : State) (r : Ref) : Nat := 16 * (s.coreOf r.task r.lcore % 4) + (4 * s.sharerOf r.task (r.lcore / 4) + r.slot)

/-- Among requesters, the first after the pointer, wrapping round (R213). -/
def rotate64 (ptr : Nat) (rs : List Nat) : Option Nat :=
  (List.range 64).findSome? fun i => let n := (ptr + 1 + i) % 64; if rs.contains n then some n else none

/-- The physical clusters of a claim. -/
def State.claimArrays (s : State) (task : Nat) (c : Claim) : List Nat := (c.clusters.map (s.clusterOf task)).eraseDups

/-- The least number of a list. -/
def leastOf : List Nat → Option Nat
  | [] => none
  | a :: t => some (t.foldl Nat.min a)

/-- The winners among claims that are free in one cycle (R163, R178, R213): the pointer of the lowest array that one of them wants picks, its choice drops the claims that meet it, and so on for the rest. (log 92, DESIGN CHOICE) -/
def State.leasePick (s : State) (task : Nat) : Nat → List (Nat × Claim) → List Nat
  | 0, _ => []
  | n + 1, cs =>
    match leastOf (cs.flatMap fun w => s.claimArrays task w.2) with
    | none => []
    | some p =>
      let at_ := cs.filter fun w => (s.claimArrays task w.2).contains p
      match (rotate64 (s.arrayAt p).ptr (at_.map fun w => s.requester (refOf w.1))).bind fun r =>
          at_.find? fun w => decide (s.requester (refOf w.1) = r) with
      | none => []
      | some w => w.1 :: s.leasePick task n (cs.filter fun v => decide (v.1 ≠ w.1) && !v.2.meets w.2)

/-- The cells and planes of a bank are written: no read of one reads from an earlier release any more (R119, R127). -/
def State.bankWritten (s : State) (k : Nat) : State := { s with rels := clearRel s.rels (acRelKey k 0) (2 ^ 20) }

/-- Rows `i` to `i + n - 1` of a bank are written (R127, R332). -/
def State.rowsWritten (s : State) (k i n : Nat) : State :=
  let b := k % 4
  { s with rels := clearRel (clearRel s.rels (acRelKey k (b * 0x10000 + 512 * i)) (512 * n)) (acRelKey k (0x40000 + b * 0x8000 + 256 * i)) (256 * n) }

/-- Clear the banks of a new claim, their histories apart, and discard their Briar entries (R162, R175, R325). -/
def State.clearClaim (s : State) (task : Nat) (c : Claim) : State :=
  c.clusters.foldl (fun s j =>
    ([0, 1, 2, 3].filter fun b => c.mask.getLsbD b).foldl (fun s b =>
      let k := bankKey task j b
      ((s.onBank k fun b => { b with cells := [], planes := [], kind := .none }).bankWritten k).onArray (s.clusterOf task j) fun a =>
        if a.bbank = some k then { a with briar := [], bbank := none } else a) s) s

/-- Grant a claim: the arrays' pointers pass the winner (R213), the banks are cleared (R162). -/
def State.grantClaim (s : State) (c : Claim) : State :=
  let n := s.requester s.cur
  let s := (s.claimArrays s.cur.task c).foldl (fun s p => s.onArray p fun a => { a with ptr := n }) s
  ((s.clearClaim s.cur.task c).onMe fun t => { t with claim := some c }).onMe fun t => t.retire 8

/-- The refusal of an mlease that asks for `want` (R163, R325). -/
def State.leaseChk (s : State) (r : Rec) (c : Cap) (want : Claim) : Option Trap :=
  (chk (s.heldClaim.isSome && decide (s.heldClaim ≠ some want)) cPriv).or <|
  (s.me.chkPois (recRegs r)).or <|
  (chk (tripsBad c.trips || c.trips.any (fun t => decide (t ≠ 1)) ||
    decide ((s.taskAt s.cur.task).m < want.base + want.rows * want.cols)) cIllegalField).or
  (chk (s.predBad r) cFormat)

/-- The claim that the strand's next instruction could be granted: an mlease that is not refused, whose banks are free, and that stands behind no mfree of its own (R163, R213, R349). -/
def State.leaseAsk (s : State) : Option Claim :=
  match s.me.ir with
  | some (.mlease r) => (recPlan (.mlease r)).bind fun p =>
    let c := s.capRec p.2.1 r
    let want := s.leaseOf r c
    if s.me.claim.isNone && (s.leaseChk r c want).isNone && s.claimFree s.cur.task s.cur.key want then some want else none
  | _ => none

/-- The other strands of strand `k`'s task that can issue and whose mlease is ready in this cycle (R163, R213). -/
def State.rivals (s : State) (k : Nat) : List (Nat × Claim) :=
  (s.strands.filter fun e => decide (e.1 ≠ k ∧ e.1 / 1152 = k / 1152 ∧ (e.2.status = .blocked ∨ e.2.status = .ready)) &&
    s.presentOn (refOf e.1).task (refOf e.1).lcore && !(s.coreAt (s.coreOf (refOf e.1).task (refOf e.1).lcore)).rotate).filterMap
    fun e => ({ s with cur := refOf e.1 }.leaseAsk).map fun c => (e.1, c)

/-- mlease (R163, R174, R325): carried out by the dispatcher. A claim is the current one when mask, shape and origin agree (R325), so the same mask in another shape is refused with PRIV (log 93, DEDUCED). -/
def execMlease (r : Rec) (s : State) : Res :=
  .next (match recPlan (.mlease r) with
  | some (_, sp, _) =>
    let c := s.capRec sp r
    let want := s.leaseOf r c
    let k := s.cur.key
    s.checked 5 (s.leaseChk r c want) fun s =>
      if s.heldClaim = some want then s.onMe fun t => t.retire 8
      else if s.me.claim.isSome || !s.claimFree s.cur.task k want then s.block
      else
        let cs := (k, want) :: s.rivals k
        if (s.leasePick s.cur.task cs.length cs).contains k then s.grantClaim want else s.block
  | none => s)

/-! ## Dispatch of commands (R321 to R335) -/

/-- A class 5 record other than mlease is refused with PRIV: no claim, a bank outside it, or the wrong shape (R163, R321). -/
def State.claimBad (s : State) (banks : List Nat) (gang : Option Bool) : Bool :=
  match s.heldClaim with
  | none => true
  | some c => (banks.any fun b => !c.mask.getLsbD b) ||
    (match gang with | some g => decide (g ≠ decide (1 < c.rows * c.cols)) | none => false)

/-- Arrays of the strand's claim. -/
def State.claimSize (s : State) : Nat := match s.heldClaim with | some c => c.rows * c.cols | none => 1

/-- A member operand names no array of the claim (R323). -/
def State.memberBad (s : State) (o : Operand) : Bool := !o.absent && decide (s.claimSize ≤ low8 o)

/-- Trips T1 to T3 are 1 also where a register gives them (R322). -/
def matTripsBad (t0one : Bool) (c : Cap) : Bool :=
  (c.trips.drop 1).any (fun t => decide (t ≠ 1)) || (t0one && decide (tripN c.trips 0 ≠ 1))

/-- The shape of a multiplying record. -/
def mshape (r : Rec) (c : Cap) (sparse : Bool) : MShape :=
  let K := matK r.type
  let kd := if sparse then 2 * K else K
  let n := tripN c.trips 0 * kd
  { K := K, kd := kd, n := n, act := (match c.count with | some k => Nat.min k n | none => n),
    seed := if sparse then some (c.c.val.toNat % 2 ^ 32) else none }

/-- The footprints of a matrix operand stream over `k` K positions and `v` vectors (R324). -/
def matFoots (o : Operand) (k v : Nat) (w : Bool) : Option (List Foot) :=
  levelFoots o [(slotStride o.slot 0, k), (slotStride o.slot 1, v)] w

/-- The least and greatest element index of row `i` of A, which has stored values at its first `n` places; none where it has none (R324). -/
def rowReach (o : Slot) (i n : Nat) : Option (Int × Int) :=
  if n = 0 then none else some (affineRange (slotOff o + i * slotStride o 1) [(slotStride o 0, n)])

/-- The footprint of stream A over `rows` rows: the smallest interval with every stored value that is read (R37, R324). -/
def MShape.aFoots (m : MShape) (o : Operand) (rows : Nat) : Option (List Foot) :=
  match m.seed with
  | none => matFoots o m.act rows false
  | some _ =>
    match (List.range rows).filterMap fun i => rowReach o.slot i (m.storedCount i) with
    | [] => some []
    | p :: t =>
      let (lo, hi) := t.foldl (fun a b => (intMin a.1 b.1, intMax a.2 b.2)) p
      rangeFoots o.desc lo hi false

/-- The types of a multiplying record agree with R165, its anchor with its mode, its type with sparsity or the down-converter. -/
def mulTypesOk (r : Rec) (anc sparse asrc : Bool) : Bool :=
  decide (matRow r.type ≠ 0 ∧ matRow r.type = matRow r.type2) && !(anc && (matInt r.type || decide (r.type = fF64))) &&
    (!sparse || sparseFmt r.type) && (!asrc || downFmt r.type)

/-- Dispatch a multiplying record over a tile of `R` × `C` arrays. -/
def State.dispatchMul (s : State) (i : Instr) (r : Rec) (gang sparse asrc : Bool) : State :=
  match recPlan i with
  | some (_, sp, _) =>
    let c := s.capRec sp r
    let m := mshape r c sparse
    let R := if gang then (match s.heldClaim with | some k => k.rows | none => 1) else 1
    let C := if gang then (match s.heldClaim with | some k => k.cols | none => 1) else 1
    let win := asrc && decide (128 < low8 c.a + matK r.type)
    let fa := if asrc then some [] else m.aFoots c.a (128 * R)
    let fb := matFoots c.b m.act (matCols r.type2 * C) false
    s.dispatchRec .m 5 i r c ⟨r.type, r.type, r.type2, r.type⟩
      { priv := s.claimBad (ctlBank r :: if asrc then [ctlSbank r] else []) (some gang)
        fields := matTripsBad false c || anchorBad c.d || win
        types := !mulTypesOk r (!c.d.absent) sparse asrc }
      (allFoots [fa, fb])
  | none => s

/-- mma (R327, R328). -/
def execMma (r : Rec) (s : State) : Res := .next (s.dispatchMul (.mma r) r false false (ctlAsrc r))

/-- mmas (R329). -/
def execMmas (r : Rec) (s : State) : Res := .next (s.dispatchMul (.mmas r) r false true false)

/-- mmag (R330). -/
def execMmag (r : Rec) (s : State) : Res := .next (s.dispatchMul (.mmag r) r true (r.ctl.getLsbD 6) false)

/-- Dispatch a record on one bank, with its accepted types and footprints. -/
def State.dispatchBank (s : State) (i : Instr) (r : Rec) (t0one : Bool) (types : Cap → Bool) (foots : Cap → Option (List Foot)) : State :=
  match recPlan i with
  | some (_, sp, _) =>
    let c := s.capRec sp r
    s.dispatchRec .m 5 i r c (wantAll r)
      { priv := s.claimBad [ctlBank r] none
        fields := matTripsBad t0one c || anchorBad c.d || s.memberBad c.c ||
          (!t0one && decide (128 < ctlRow r + tripN c.trips 0))
        types := !types c }
      (foots c)
  | none => s

/-- No footprint. -/
def noFoots : Cap → Option (List Foot) := fun _ => some []

/-- mzero: i32 with or without an anchor, f32 and f64 without (R331). -/
def execMzero (r : Rec) (s : State) : Res :=
  .next (s.dispatchBank (.mzero r) r true (fun c => decide (r.type = fI32) || (c.d.absent && decide (r.type = fF32 ∨ r.type = fF64))) noFoots)

/-- The active columns of mlda and mdrain over `n` columns. -/
def colsOf (c : Cap) (n : Nat) : Nat := match c.count with | some k => Nat.min k n | none => n

/-- mlda (R332). -/
def execMlda (r : Rec) (s : State) : Res :=
  .next (s.dispatchBank (.mlda r) r false
    (fun c => decide (r.type = fI32 ∨ r.type = fI64) || (c.d.absent && decide (r.type = fF32 ∨ r.type = fF64)))
    fun c => matFoots c.a (colsOf c (matCols r.type)) (tripN c.trips 0) false)

/-- The destination formats of mdrain (R333). -/
def drainFmt (f : Fmt) : Bool :=
  decide (f = fI32 ∨ f = fI64 ∨ f = fF16 ∨ f = fBf16 ∨ f = fF32 ∨ f = fF64 ∨ f = fE4m3 ∨ f = fE5m2)

/-- The kind that mzero and mlda give (R331, R332). -/
def setKind (r : Rec) (d : Operand) : BKind :=
  if r.type = fF32 then .f32 else if r.type = fF64 then .f64 else if d.absent then .int else .anc (anchorOf d)

/-- The kind of a bank of the strand's claim once the strand's queued commands have run: the last queued mzero or mlda of it decides (R162). -/
def State.kindToBe (s : State) (bank mem : Nat) : BKind :=
  let base := match s.heldClaim with | some c => c.base | none => 0
  ((s.coreAt s.myCore).m.all.filter fun x => decide (x.sid = s.me.sid)).foldl (fun k x => match x.instr with
    | .mzero r | .mlda r => if ctlBank r = bank ∧ low8 x.cap.c = mem then setKind r x.cap.d else k
    | _ => k) (s.bankAt (bankKey s.cur.task (base + mem) bank)).kind

/-- mdrain (R333): its footprint covers the columns of the bank's kind. -/
def execMdrain (r : Rec) (s : State) : Res :=
  .next (s.dispatchBank (.mdrain r) r false (fun _ => drainFmt r.type)
    fun c => matFoots c.d (colsOf c (s.kindToBe (ctlBank r) (low8 c.c)).cols) (tripN c.trips 0) true)

/-- mfold (R334). -/
def execMfold (r : Rec) (s : State) : Res := .next (s.dispatchBank (.mfold r) r true (fun _ => true) noFoots)

/-- mstat (R334). -/
def execMstat (r : Rec) (s : State) : Res := .next (s.dispatchBank (.mstat r) r true (fun _ => true) noFoots)

/-- mfree (R326): the claim counts as ended from its dispatch (R321). -/
def execMfree (r : Rec) (s : State) : Res :=
  .next (match recPlan (.mfree r) with
  | some (_, sp, _) =>
    let c := s.capRec sp r
    s.dispatchRec .m 5 (.mfree r) r c (wantAll r) { priv := s.claimBad [] none, fields := matTripsBad true c } (some [])
  | none => s)

/-- mmode (R336). -/
def execMmode (rm : RMode) (ovf : Bool) (en : BitVec 5) (s : State) : Res := .next (s.dispatchEntry .m (.mmode rm ovf en))

/-! ## The arrays a command uses -/

/-- The claim of a record's strand, alive or tailed. -/
def State.claimOf (s : State) (x : Entry) : Option Claim :=
  if s.ownerAlive x then (s.strandAt x.ref.key).claim
  else ((s.lcoreAt (lckey x.ref.task x.ref.lcore)).claims.find? fun p => decide (p.1 = x.sid)).map (·.2)

/-- The member operand of a bank record. (log 29, DEDUCED) -/
def memberOf (x : Entry) : Nat :=
  match x.instr with
  | .mzero _ | .mlda _ | .mdrain _ | .mfold _ | .mstat _ => low8 x.cap.c
  | _ => 0

/-- The first logical cluster that a command acts on, and how many. -/
def State.matTargets (s : State) (x : Entry) : List Nat :=
  match s.claimOf x with
  | none => []
  | some c => match x.instr with
    | .mmag _ => c.clusters
    | _ => [c.base + memberOf x]

/-- The physical clusters that a command occupies. -/
def State.matClusters (s : State) (x : Entry) : List Nat := ((s.matTargets x).map (s.clusterOf x.ref.task)).eraseDups

/-- An array is held by a running command (R214). -/
def State.arrayBusy (s : State) (p : Nat) : Bool :=
  s.cores.any fun e => match e.2.m.run with
    | some u => (s.matClusters u.e).contains p
    | none => false

/-- The command at the head of a matrix queue: mmode and mfree leave without the array (R164). -/
def headOf : List Entry → Option Entry
  | [] => none
  | x :: t => match x.instr with
    | .mmode .. | .mfree _ => headOf t
    | .qfence .. => none
    | _ => some x

/-- The commands at the heads of the cores' matrix queues: core and entry (R164). -/
def State.headCommands (s : State) : List (Nat × Entry) := s.cores.filterMap fun e => (headOf e.2.m.q).map fun x => (e.1, x)

/-- The strand goes on with its turn at array `p`: fewer than 8 of its commands are done (R164). -/
def State.holds (s : State) (p : Nat) (x : Entry) : Bool :=
  decide ((s.arrayAt p).holder = some x.ref.key ∧ (s.arrayAt p).turn < 8)

/-- A head command could enter at once: its engine is idle, nothing stands before it, the range checker lets it go. -/
def State.headReady (s : State) (e : Nat × Entry) : Bool :=
  (s.coreAt e.1).m.run.isNone && ((s.coreAt e.1).m.q.headD e.2 == e.2) && !s.conflicting e.1 .m e.2

/-- Who goes next at array `p` among commands: the holder of its turn, else the pointer's choice; equal requester numbers by core (R164, R213). -/
def State.pickAt (s : State) (p : Nat) (cs : List Entry) : Option Entry :=
  match cs.find? (s.holds p) with
  | some x => some x
  | none => (rotate64 (s.arrayAt p).ptr (cs.map fun x => s.requester x.ref)).bind fun n => cs.find? fun x => decide (s.requester x.ref = n)

/-- The commands that have the turns of all their arrays: arrays whose turn goes on decide first, then the others, each the lowest first; a choice drops the commands that share an array with it (R164, R174). (log 92, DESIGN CHOICE) -/
def State.turns (s : State) : Nat → List Entry → List Entry
  | 0, _ => []
  | n + 1, cs =>
    let ps := (cs.flatMap s.matClusters).eraseDups
    match (leastOf (ps.filter fun p => cs.any (s.holds p))).or (leastOf ps) with
    | none => []
    | some p => match s.pickAt p (cs.filter fun x => (s.matClusters x).contains p) with
      | none => []
      | some x => x :: s.turns n (cs.filter fun y => !(s.matClusters y).any fun q => (s.matClusters x).contains q)

/-- The commands that ask for arrays: those that could enter, and the heads of holders whose turn goes on. -/
def State.askers (s : State) : List Entry :=
  (s.headCommands.filter fun e => s.headReady e || (s.matClusters e.2).any fun p => s.holds p e.2).map (·.2)

/-- A command may enter its arrays: it has the turn of each, and each is idle (R164, R214). -/
def State.mayEnter (s : State) (x : Entry) : Bool :=
  ((s.matClusters x).isEmpty || (s.turns s.askers.length s.askers).any fun y => decide (y.uid = x.uid)) && (s.matClusters x).all fun p => !s.arrayBusy p

/-- Turns end at idle arrays whose holder has no command at the head of its queue (R164). -/
def State.endTurns (s : State) : State :=
  let past (p : Nat) (a : MArray) : Bool := a.holder.isSome && !s.arrayBusy p &&
    !s.headCommands.any fun e => decide (a.holder = some e.2.ref.key) && (s.matClusters e.2).contains p
  { s with arrays := smapAll MArray.init (fun p a => if past p a then { a with holder := none } else a) s.arrays }

/-- Carry planes of cells of a bank are written (R119, R127). -/
def State.planesWritten (s : State) (k : Nat) (cells : List Nat) : State :=
  { s with rels := cells.foldl (fun m n => clearRel m (acRelKey k (0x40000 + k % 4 * 0x8000 + 2 * n)) 2) s.rels }

/-- Fold an array's Briar buffer into its bank, whose planes are written (R127, R164, R168): the cycles are charged to `payer`. -/
def State.foldArray (s : State) (p : Nat) (payer : Payer) : State :=
  let a := s.arrayAt p
  match a.bbank with
  | none => s
  | some k =>
    if a.briar.isEmpty then s
    else
      (((s.onBank k fun b => b.fold a.briar).planesWritten k (a.briar.map (·.1))).onArray p fun a => { a with briar := [], folds := a.folds + 1 }).charge payer
        (10000 * ((a.briar.length + 63) / 64))

/-- Every claim on a bank with its task and the logical core that made it: those of strands, and those that tailed strands keep (R48, R163, R178). -/
def State.allClaims (s : State) : List (Nat × Nat × Claim) :=
  (s.strands.filterMap fun e => e.2.claim.map fun c => (e.1 / 1152, e.1 / 4 % 288, c)) ++
    s.lcores.flatMap fun e => (s.keptClaims e).map fun c => (e.1 / 288, e.1 % 288, c)

/-- The logical clusters of a task's claim that are bound to a physical array (R29, R174). -/
def State.claimOn (s : State) (p task : Nat) (c : Claim) : List Nat :=
  c.clusters.filter fun j => (s.bindOf task j).isSome && decide (s.clusterOf task j = p)

/-- The claims on the banks of a physical array: sharer, as task × 72 + logical cluster, and banks (R161). -/
def State.claimsAt (s : State) (p : Nat) : List (Nat × BitVec 4) :=
  s.allClaims.flatMap fun e => (s.claimOn p e.1 e.2.2).map fun j => (e.1 * 72 + j, e.2.2.mask)

/-- The banks of a mask. -/
def maskBanks (m : BitVec 4) : Nat := ([0, 1, 2, 3].filter fun b => m.getLsbD b).length

/-- How many banks claims name. -/
def banksIn (l : List (Nat × BitVec 4)) : Nat := (l.map fun e => maskBanks e.2).foldl (· + ·) 0

/-- Bytes of a saved bank: 128 × 128 cells of 32 bits and planes of 16 (R12, R161). -/
def bankBytes : Nat := 98304

/-- A turn passes from one sharer of an array to another: with more than four banks claimed, the banks of the one go to its rotation area and those of the other come back (R161). (log 94, DESIGN CHOICE) -/
def State.turnSaves (s : State) (p key : Nat) : State :=
  let cl := s.claimsAt p
  let move (s : State) (sharer : Nat) : State :=
    s.chargeArea (s.payerOf (sharer / 72)) (bankBytes * banksIn (cl.filter fun e => decide (e.1 = sharer)))
  match (s.arrayAt p).last with
  | some k => if 4 < banksIn cl ∧ k / 4 ≠ key / 4 then move (move s (k / 4)) (key / 4) else s
  | none => s

/-- Begin a command on its arrays: a new turn or a change of bank folds first (R164). (log 28, DEDUCED) -/
def State.beginCommand (s : State) (x : Entry) (bank : Nat) : State :=
  let n := s.requester x.ref
  let payer := s.payerOf x.ref.task
  let fresh := (s.matClusters x).filter fun p => !s.holds p x
  let s := (s.matClusters x).foldl (fun s p => s.onArray p fun a =>
    if fresh.contains p then { a with holder := some x.ref.key, turn := 1, ptr := n } else { a with turn := a.turn + 1 }) s
  (s.matTargets x).foldl (fun s j =>
    let p := s.clusterOf x.ref.task j
    let k := bankKey x.ref.task j bank
    let s := if fresh.contains p || decide ((s.arrayAt p).last ≠ some k) then s.foldArray p payer else s
    (s.turnSaves p k).onArray p fun a => { a with last := some k }) s

/-- The bank that a command names. -/
def matBankOf (i : Instr) : Option (Rec × Nat) :=
  match i with
  | .mma r | .mmas r | .mmag r | .mzero r | .mlda r | .mdrain r | .mfold r | .mstat r => some (r, ctlBank r)
  | _ => none

/-! ## Effects -/

/-- What a command leaves: the machine, flags, carries, folds, end code. -/
structure MDone where
  s       : State
  flags   : Flags
  carries : Nat
  folds   : Nat
  ended   : BitVec 8

/-- A command's history in its bank (R175, R334). -/
def State.history (s : State) (k : Nat) (fl : Flags) (ended : BitVec 8) (carries : Nat) : State :=
  s.onBank k fun b => { b with flags := b.flags ||| (fl &&& 0x3F), ended := if ended = 0 then b.ended else ended, carries := b.carries + carries }

/-- The fold passes of a command that ended, into its bank and its array (R168, R334). -/
def State.foldsOf (s : State) (p k n : Nat) : State :=
  (s.onBank k fun b => { b with foldn := b.foldn + n }).onArray p fun a => { a with folds := a.folds + n }

/-- The kind a multiplying command needs of its bank (R327). -/
def needKind (r : Rec) (d : Operand) : BKind :=
  if matInt r.type then .int else if !d.absent then .anc (anchorOf d) else if r.type = fF64 then .f64 else .f32

/-- A stream element of a matrix operand as a value. -/
def matVal (m : Mem) (o : Operand) (f : Fmt) (k v : Nat) : FVal := streamVal m o.desc f (matIndex o.slot k v)

/-- A stream element of a matrix operand as an integer. -/
def matInt' (m : Mem) (o : Operand) (f : Fmt) (k v : Nat) : Int := intOf f (elemBits m (descBase o.desc) f (matIndex o.slot k v))

/-- A window of converted bank values stands for stream A, or A is a stream (R324, R328). -/
inductive ASrc
  | stream | window (vals : Nat → Nat → Nat)

/-- Row `i` of A over every K index, as values; none where inactive or dropped (R324). -/
def aRow (m : Mem) (c : Cap) (r : Rec) (sh : MShape) (src : ASrc) (i : Nat) : List (Option FVal) :=
  (List.range sh.n).map fun k =>
    if sh.act ≤ k then none
    else match src with
      | .window f => some (decodeVal r.type (f i (k % sh.K)))
      | .stream => (sh.stored i k).map fun q => matVal m c.a r.type q i

/-- Row `i` of A as integers, zero where inactive or dropped. -/
def aRowInt (m : Mem) (c : Cap) (r : Rec) (sh : MShape) (src : ASrc) (i : Nat) : List Int :=
  (List.range sh.n).map fun k =>
    if sh.act ≤ k then 0
    else match src with
      | .window f => intOf r.type (f i (k % sh.K))
      | .stream => match sh.stored i k with
        | some q => matInt' m c.a r.type q i
        | none => 0

/-- Column `j` of B over every K index, as values. -/
def bCol (m : Mem) (c : Cap) (r : Rec) (sh : MShape) (j : Nat) : List (Option FVal) :=
  (List.range sh.n).map fun k => if sh.act ≤ k then none else some (matVal m c.b r.type2 k j)

/-- Column `j` of B as integers. -/
def bColInt (m : Mem) (c : Cap) (r : Rec) (sh : MShape) (j : Nat) : List Int :=
  (List.range sh.n).map fun k => if sh.act ≤ k then 0 else matInt' m c.b r.type2 k j

/-- One array's part of a multiplying command: rows from `128·u`, columns from `cols·v` (R327, R330). -/
structure Tile where
  u : Nat
  v : Nat
  j : Nat
  deriving DecidableEq, Repr

/-- The tiles of a command: one array, or the gang's (R174). -/
def State.tilesOf (s : State) (x : Entry) : List Tile :=
  match x.instr, s.claimOf x with
  | .mmag _, some c => (List.range c.rows).flatMap fun u => (List.range c.cols).map fun v => ⟨u, v, c.base + c.cols * u + v⟩
  | _, some c => [⟨0, 0, c.base⟩]
  | _, none => []

/-- The words of f64 cell pairs, low word first (R162). -/
def pairWords (l : List Nat) : List (BitVec 32) := l.flatMap fun v => [BitVec.ofNat 32 v, BitVec.ofNat 32 (v / 2 ^ 32)]

/-- The cell pairs of a bank in order. -/
def pairsOf : List (BitVec 32) → List Nat
  | a :: b :: t => (a.toNat + 2 ^ 32 * b.toNat) :: pairsOf t
  | _ => []

/-- A bank after a command in FP mode, with its flags (R81). -/
def fpTile (m : Mem) (c : Cap) (r : Rec) (sh : MShape) (src : ASrc) (t : Tile) (b : Bank) : Bank × Flags :=
  let nc := matCols r.type
  let dbl := decide (r.type = fF64)
  let rows := (List.range 128).map fun i => groups16 sh.n (aRow m c r sh src (128 * t.u + i))
  let cols := (List.range nc).map fun j => groups16 sh.n (bCol m c r sh (nc * t.v + j))
  let words := sdense 0 16384 0 b.cells
  let olds := if dbl then pairsOf words else words.map (·.toNat)
  let gs := rows.flatMap fun a => cols.map fun b => List.zip a b
  let rs := List.zipWith (fpCell (if dbl then fF64 else fF32)) gs olds
  let vs := rs.map (·.1)
  ({ b with cells := srun 0 0 (if dbl then pairWords vs else vs.map (BitVec.ofNat 32)) }, orFlags (rs.map (·.2)))

/-- Whole cycles that a group of 16 K indices spans; 0 where two groups fall in one cycle (R168). -/
def groupCycles (r : Rec) (sh : MShape) : Nat := matCyc r.type * 16 / sh.kd

/-- The issue cycles of `g` groups (R165, R168). (log 65, DEDUCED) -/
def issueCycles (r : Rec) (sh : MShape) (g : Nat) : Nat := (g * 16 * matCyc r.type + sh.kd - 1) / sh.kd

/-- Group `g` of a vector. -/
def groupAt {α : Type} (l : List (List α)) (g : Nat) : List α := l.getD g []

/-- One array's part in integer or anchored mode (R167 to R169). -/
def intTile (m : Mem) (c : Cap) (r : Rec) (sh : MShape) (src : ASrc) (t : Tile) (b : Bank) (briar : List (Nat × Bool)) : IntRun :=
  let start : IntRun := { bank := b, briar := briar, carries := 0, folds := 0, cycles := 0, groups := 0, shared := none, ended := 0 }
  let run (sums : Nat → List (Int × Option (BitVec 8))) : IntRun :=
    (List.range ((sh.n + 15) / 16)).foldl (fun st g => st.group (ctlSpill r) (groupCycles r sh) (sums g)) start
  if matInt r.type then
    let rows := (List.range 128).map fun i => groups16 sh.n (aRowInt m c r sh src (128 * t.u + i))
    let cols := (List.range 128).map fun j => groups16 sh.n (bColInt m c r sh (128 * t.v + j))
    run fun g => cellSums intSum (rows.map (groupAt · g)) (cols.map (groupAt · g))
  else
    let rows := (List.range 128).map fun i => groups16 sh.n (aRow m c r sh src (128 * t.u + i))
    let cols := (List.range 128).map fun j => groups16 sh.n (bCol m c r sh (128 * t.v + j))
    run fun g => cellSums (ancSum (anchorOf c.d)) (rows.map (groupAt · g)) (cols.map (groupAt · g))

/-- The source bank's window for an mma with asrc, with its flags, or none for a pairing that R171 lacks (R172, R328). -/
def State.windowOf (s : State) (x : Entry) (r : Rec) (u : Run) (j : Nat) : Option ((Nat → Nat → Nat) × Flags) :=
  let b := s.bankAt (bankKey x.ref.task j (ctlSbank r))
  let c0 := low8 x.cap.a
  let y (i kk : Nat) := if u.mm.rm = .sr then s.y0 x (i * 128 + c0 + kk) else 0
  let conv (i kk : Nat) := downVal b i (c0 + kk) r.type u.mm.ovf u.mm.rm (y i kk)
  let used := if (mshape r x.cap false).act < matK r.type then (mshape r x.cap false).act else matK r.type
  if ctlSbank r = ctlBank r ∨ (conv 0 0).isNone then none
  else
    some (fun i kk => match conv i kk with | some p => p.1 | none => 0,
      orFlags ((List.range 128).flatMap fun i => (List.range used).map fun kk => match conv i kk with | some p => p.2 | none => 0))

/-- End a multiplying command on a bank that it does not fit (R162, R172). -/
def State.kindEnds (s : State) (keys : List Nat) : MDone :=
  ⟨keys.foldl (fun s k => s.history k 0 eKind 0) s, 0, 0, 0, eKind⟩

/-- The flag that an ending sets: NV for an NV ending (R335). -/
def endFlag (e : BitVec 8) : Flags := flagIf (decide (e = eNV)) fNV

/-- The lowest nonzero of end codes (R174). -/
def lowEnd (l : List (BitVec 8)) : BitVec 8 :=
  l.foldl (fun a b => if a = 0 then b else if b = 0 then a else if b.toNat < a.toNat then b else a) 0

/-- A member array takes what its part of an integer or anchored command left (R167, R168, R174). -/
def State.member (s : State) (p k : Nat) (q : IntRun) (issues : Nat) (fl : Flags) : State :=
  (((s.onBank k fun _ => q.bank).bankWritten k).onArray p fun a =>
    { a with briar := q.briar, bbank := some k, folds := a.folds + q.folds, issues := a.issues + issues }).history k fl 0 q.carries

/-- A multiplying command on its tiles (R327 to R330, R169, R174). Members on one array run in turn, each fold between them included (R161, R174); a member's ending does not stop the others' runs, whose carries and fold passes are summed with its own, and a bank of the wrong kind ends them all before any runs (log 95, DESIGN CHOICE). -/
def State.runMul (s : State) (u : Run) (r : Rec) (sparse asrc : Bool) : MDone :=
  let x := u.e
  let payer := s.payerOf x.ref.task
  let m := (s.lcoreAt (lckey x.ref.task x.ref.lcore)).sp
  let sh := mshape r x.cap sparse
  let ts := s.tilesOf x
  let key (t : Tile) := bankKey x.ref.task t.j (ctlBank r)
  let keys := ts.map key
  if ts.any fun t => decide ((s.bankAt (key t)).kind ≠ needKind r x.cap.d) then s.kindEnds keys
  else
    let src := if asrc then (match ts with | t :: _ => s.windowOf x r u t.j | [] => none) else none
    if asrc && src.isNone then s.kindEnds keys
    else
      let (a, f0) : ASrc × Flags := match src with | some (f, fl) => (.window f, fl) | none => (.stream, 0)
      if matInt r.type || !x.cap.d.absent then
        let (done, rs) := ts.foldl (fun (s, rs) t =>
          let p := s.clusterOf x.ref.task t.j
          let s := if (s.arrayAt p).bbank = some (key t) then s else s.foldArray p payer
          let q := intTile m x.cap r sh a t (s.bankAt (key t)) (if (s.arrayAt p).bbank = some (key t) then (s.arrayAt p).briar else [])
          (s.member p (key t) q (tripN x.cap.trips 0) f0, rs ++ [(t, q)])) (s, [])
        let ended := lowEnd (rs.map (·.2.ended))
        let carries := (rs.map (·.2.carries)).foldl (· + ·) 0
        let folds := (rs.map (·.2.folds)).foldl (· + ·) 0
        let cost := (rs.map fun q => 126000 * issueCycles r sh q.2.groups + 10000 * q.2.cycles).foldl (· + ·) 0
        if ended ≠ 0 then
          let s := s.charge payer cost
          let fl := f0 ||| orFlags (rs.map fun q => endFlag q.2.ended)
          ⟨rs.foldl (fun s (t, q) => (s.history (key t) fl ended q.carries).foldsOf (s.clusterOf x.ref.task t.j) (key t) q.folds) s,
            fl, carries, folds, ended⟩
        else ⟨done.charge payer cost, f0, carries, folds, 0⟩
      else
        let s := s.charge payer (126000 * matCyc r.type * tripN x.cap.trips 0 * ts.length)
        let rs := ts.map fun t => (t, fpTile m x.cap r sh a t (s.bankAt (key t)))
        let fl := f0 ||| orFlags (rs.map (·.2.2))
        let s := rs.foldl (fun s (t, b, _) =>
          (((s.onBank (key t) fun _ => b).bankWritten (key t)).onArray (s.clusterOf x.ref.task t.j) fun a =>
            { a with issues := a.issues + tripN x.cap.trips 0 }).history (key t) fl 0 0) s
        ⟨s, fl, 0, 0, 0⟩

/-- Discard a bank's Briar entries (R331, R332). -/
def State.discard (s : State) (p k : Nat) : State :=
  s.onArray p fun a => if a.bbank = some k then { a with briar := [], bbank := none } else a

/-- mzero (R331). -/
def State.runMzero (s : State) (u : Run) (r : Rec) (p k : Nat) : MDone :=
  ⟨((s.discard p k).onBank k fun _ => { Bank.zero with kind := setKind r u.e.cap.d }).bankWritten k, 0, 0, 0, 0⟩

/-- The element that mlda reads for row `i`, column `j`; zero past the predicate's count (R332). -/
def ldaBits (m : Mem) (c : Cap) (r : Rec) (n i j : Nat) : Nat :=
  if colsOf c n ≤ j then 0 else elemBits m (descBase c.a.desc) r.type (matIndex c.a.slot j i)

/-- A fold that a command makes of its own bank, with how many passes it took (R333, R334). -/
def State.ownFold (s : State) (p k : Nat) (payer : Payer) : State × Nat :=
  let a := s.arrayAt p
  if a.bbank = some k ∧ !a.briar.isEmpty then (s.foldArray p payer, 1) else (s, 0)

/-- mlda (R332): the buffer is folded before it (R168), so no entry of the bank is left to discard (log 11, DEDUCED). -/
def State.runMlda (s : State) (u : Run) (r : Rec) (p k : Nat) : MDone :=
  let c := u.e.cap
  let m := (s.lcoreAt (lckey u.e.ref.task u.e.ref.lcore)).sp
  let n := matCols r.type
  let rows := tripN c.trips 0
  let cells := (List.range rows).flatMap fun i => (List.range n).map fun j => (ctlRow r + i, j, ldaBits m c r n i j)
  let (s, folds) := s.ownFold p k (s.payerOf u.e.ref.task)
  let s := s.discard p k
  if r.type = fI64 ∧ cells.any (fun e => !vInRange (intOf fI64 e.2.2)) then
    ⟨s.onBank k fun b => { b with flags := 0, ended := eRange, carries := 0, foldn := 0 }, 0, 0, folds, eRange⟩
  else
    let put (b : Bank) (e : Nat × Nat × Nat) : Bank :=
      if r.type = fF32 then { b.setCell (cellNo e.1 e.2.1) e.2.2 with planes := sset 0 b.planes (cellNo e.1 e.2.1) 0 }
      else if r.type = fF64 then
        let b := b.setPair e.1 e.2.1 e.2.2
        { b with planes := sset 0 (sset 0 b.planes (cellNo e.1 (2 * e.2.1)) 0) (cellNo e.1 (2 * e.2.1 + 1)) 0 }
      else b.setV (cellNo e.1 e.2.1) (intOf r.type e.2.2)
    ⟨(s.onBank k fun b => { cells.foldl put b with kind := setKind r c.d, flags := 0, ended := 0, carries := 0, foldn := 0 }).rowsWritten k (ctlRow r) rows, 0, 0, folds, 0⟩

/-- mdrain (R333). -/
def State.runMdrain (s : State) (u : Run) (r : Rec) (p k : Nat) : MDone :=
  let x := u.e
  let c := x.cap
  let (s, folds) := s.ownFold p k (s.payerOf x.ref.task)
  let b := s.bankAt k
  if (drainVal b 0 0 r.type u.mm.ovf u.mm.rm 0).isNone then ⟨s.history k 0 eKind 0, 0, 0, folds, eKind⟩
  else
    let cells := (List.range (tripN c.trips 0)).flatMap fun i => (List.range (colsOf c b.kind.cols)).map fun j => (i, j)
    let rs := cells.map fun e =>
      let n := matIndex c.d.slot e.2 e.1
      let y := if u.mm.rm = .sr then s.y0 x n else 0
      match drainVal b (ctlRow r + e.1) e.2 r.type u.mm.ovf u.mm.rm y with
      | some (v, fl) => (putAt c.d n v, fl)
      | none => (putAt c.d n 0, 0)
    let fl := orFlags (rs.map (·.2))
    ⟨(s.putAll (lckey x.ref.task x.ref.lcore) (rs.map (·.1))).history k fl 0 0, fl, 0, folds, 0⟩

/-- mfold (R334). -/
def State.runMfold (s : State) (u : Run) (p k : Nat) : MDone :=
  let (s, n) := s.ownFold p k (s.payerOf u.e.ref.task)
  ⟨s, 0, 0, n, 0⟩

/-- mstat (R175, R334): folds, then reports the bank's history. -/
def State.runMstat (s : State) (u : Run) (p k : Nat) : MDone :=
  let (s, _) := s.ownFold p k (s.payerOf u.e.ref.task)
  let b := s.bankAt k
  ⟨s, b.flags, b.carries, b.foldn, b.ended⟩

/-- The bytes that a matrix command touches (R37, R62). -/
def State.matSpans (s : State) (x : Entry) : List (Nat × Nat) :=
  let at_ (o : Operand) (k v : Nat) : List (Nat × Nat) :=
    let e := matIndex o.slot k v
    let (a, b) := elemSpan (descFmt o.desc) e
    (descBase o.desc + a, descBase o.desc + b) :: if isMx (descFmt o.desc) then [(scaleAddr o.desc e, scaleAddr o.desc e + 1)] else []
  let c := x.cap
  let mul (r : Rec) (sparse asrc : Bool) (R C : Nat) : List (Nat × Nat) :=
    let sh := mshape r c sparse
    (if asrc then [] else (List.range (128 * R)).flatMap fun i => (List.range (sh.storedCount i)).flatMap fun k => at_ c.a k i) ++
      (List.range (matCols r.type2 * C)).flatMap fun j => (List.range sh.act).flatMap fun k => at_ c.b k j
  let own := match x.instr with
    | .mma r => mul r false (ctlAsrc r) 1 1
    | .mmas r => mul r true false 1 1
    | .mmag r => match s.claimOf x with
      | some k => mul r (r.ctl.getLsbD 6) false k.rows k.cols
      | none => []
    | .mlda r => (List.range (tripN c.trips 0)).flatMap fun i => (List.range (colsOf c (matCols r.type))).flatMap fun j => at_ c.a j i
    | .mdrain r => (List.range (tripN c.trips 0)).flatMap fun i =>
        let k := match s.matTargets x with
          | j :: _ => (s.bankAt (bankKey x.ref.task j (ctlBank r))).kind
          | [] => BKind.none
        (List.range (colsOf c k.cols)).flatMap fun j => at_ c.d j i
    | _ => []
  own ++ match matBankOf x.instr with
    | some (r, _) => (statFoot r).map fun f => (f.lo, f.hi)
    | none => []

/-- The effect of a matrix command on the bank of its first array. -/
def State.runMat (s : State) (u : Run) (r : Rec) : MDone :=
  let j := match s.matTargets u.e with | j :: _ => j | [] => 0
  let p := s.clusterOf u.e.ref.task j
  let k := bankKey u.e.ref.task j (ctlBank r)
  match u.e.instr with
  | .mma r => s.runMul u r false (ctlAsrc r)
  | .mmas r => s.runMul u r true false
  | .mmag r => s.runMul u r (r.ctl.getLsbD 6) false
  | .mzero r => s.runMzero u r p k
  | .mlda r => s.runMlda u r p k
  | .mdrain r => s.runMdrain u r p k
  | .mfold _ => s.runMfold u p k
  | .mstat _ => s.runMstat u p k
  | _ => ⟨s, 0, 0, 0, 0⟩

/-- The command's ending or TR is enabled: bits 0 to 3 for end codes 1 to 4, bit 4 for TR (R176, R336); mstat and mfold never raise for an end code. -/
def enabledEnd (i : Instr) (en : BitVec 7) (ended : BitVec 8) (tr : Bool) : Bool :=
  (match i with
   | .mstat _ | .mfold _ => false
   | _ => decide (1 ≤ ended.toNat ∧ ended.toNat ≤ 4) && en.getLsbD (ended.toNat - 1)) || (en.getLsbD 4 && tr)

/-- A strand's claim that tail left with the tracker ends once its matrix commands are done (R178). -/
def State.endTailClaims (s : State) (x : Entry) (core : Nat) : State :=
  if (s.coreAt core).m.busyFor x.sid then s
  else s.onLcore (lckey x.ref.task x.ref.lcore) fun l => { l with claims := l.claims.filter fun p => decide (p.1 ≠ x.sid) }

/-- One completion step of a core's matrix engine: fills first; then the whole effect, the status word, a pending error (R175, R335, R336). -/
def State.completeMat (s : State) (core : Nat) (u : Run) : State :=
  match matBankOf u.e.instr with
  | none => (s.endRun core .m).endTailClaims u.e core
  | some (r, _) =>
    let lc := lckey u.e.ref.task u.e.ref.lcore
    match s.touchSpans lc (s.matSpans u.e) with
    | (s, .wait) => s
    | (s, .refused _) =>
      let s := s.putStatus u.e r (statusWord 0 0 0 fTR)
      let s := if enabledEnd u.e.instr u.mm.en 0 true then s.engineError u.e 5 else s
      ((s.endRun core .m).endTailClaims u.e core).endTurns
    | (s, .ok ()) =>
      let d := s.runMat u r
      let s := d.s.putStatus u.e r (statusWord d.carries d.ended d.folds d.flags)
      let s := if enabledEnd u.e.instr u.mm.en d.ended false then s.engineError u.e 5 else s
      ((s.endRun core .m).endTailClaims u.e core).endTurns

/-- mfree takes effect: the claim ends (R326). -/
def State.freeClaim (s : State) (x : Entry) : State :=
  if s.ownerAlive x then s.onStrand x.ref.key fun t => { t with claim := none }
  else s.onLcore (lckey x.ref.task x.ref.lcore) fun l => { l with claims := l.claims.filter fun p => decide (p.1 ≠ x.sid) }

end Sys2Proof.Machine
end

