-- ==== Sys2Proof/Machine/Engine.lean ====
section
/-! DEFINITION. Machine/Engine.lean: records and entries leaving their queues for the engines, and their completion (R35, R38, R71, R164, R251, R299, R336, R347). -/

namespace Sys2Proof.Machine

/-! ## Leaving a queue -/

/-- An entry of qfence. -/
def Entry.isFence (x : Entry) : Bool :=
  match x.instr with
  | .qfence .. => true
  | _ => false

/-- The record's ordering class lies in a mask (R251). -/
def Entry.inMask (x : Entry) (m : BitVec 16) : Bool :=
  match ordClass x.instr with
  | some c => m.getLsbD c.toNat
  | none => false

/-- A remote operation of the strand, older than `u` and of a class in the mask, has been sent and is neither answered nor acknowledged (R125, R251). -/
def State.unanswered (s : State) (sid u : Nat) (m : BitVec 16) : Bool :=
  s.rops.any fun o => decide (o.sid = sid ∧ o.uid < u) && o.sent && match ordClass o.instr with
    | some c => m.getLsbD c.toNat
    | none => false

/-- The path of an engine's accesses (R121). -/
def enginePath : Engine → Path
  | .v => .v | .m => .m | .t => .t | .f => .f | .c => .c

/-- Something of path t and of a class in the mask that a commit of the strand has released has not performed (R124, R125). -/
def State.releasedBusy (s : State) (x : Entry) (m : BitVec 16) : Bool := (s.waitingOf x.ref.key x.sid).any fun w => w.onPath .t m

/-- The condition of a qfence holds: nothing ahead of it of its strand in its classes is incomplete (R251). -/
def State.fenceMet (s : State) (core : Nat) (e : Engine) (ahead : List Entry) (x : Entry) (m : BitVec 16) : Bool :=
  let running := ((s.coreAt core).engine e).run.toList.map (·.e)
  !((running ++ ahead).any fun y => decide (y.sid = x.sid) && !y.isFence && y.inMask m) &&
    !(decide (e = .f) && s.unanswered x.sid x.uid m) && !(decide (e = .t) && s.releasedBusy x m)

/-- An unmet qfence ahead holds the record back (R251). -/
def fencedBy (ahead : List Entry) (x : Entry) : Bool :=
  ahead.any fun y => decide (y.sid = x.sid) && match y.instr with
    | .qfence _ m => x.inMask m
    | _ => false

/-- The resource whose budget can hold a record back: memory for copies and write-backs, flits for fabric and collective records, energy for computing ones; none for the others (R218). -/
def engineResource (i : Instr) : Option Nat :=
  match i with
  | .vmode .. | .mmode .. | .tmode .. | .qfence .. | .mfree _ | .tprefetch _ | .twload _ | .grant .. | .revoke .. => none
  | .tcopy _ | .tgather _ | .tscatter _ | .tfill _ | .tmap _ | .tunmap _ | .tflush _ => some 0
  | .cjoin _ | .callred _ | .credsc _ | .callgath _ | .cbcast _ | .ctopk _ | .cbar _ => some 1
  | i => if (recPlan i).isSome then some 2 else some 1

/-- What a commit of the strand has released goes before the record: transfer writes of its class, remote operations on path f, and a fence that keeps the record's path behind them (R42, R123 to R125, R360). -/
def State.releasedFirst (s : State) (e : Engine) (x : Entry) : Bool :=
  (s.waitingOf x.ref.key x.sid).any fun w =>
    (decide (e = .f) && w.isRemote) || match ordClass x.instr with
      | some c => (decide (e = .t) && w.kinds.contains (.t, c)) || w.fences (enginePath e) c
      | none => false

/-- The engine can take the record, budgets apart: a matrix command needs its arrays, a releasing word waits for the strand's earlier operations, and what a commit released goes first (R42, R127, R164, R214). -/
def State.engineTakes (s : State) (e : Engine) (x : Entry) : Bool :=
  (match matBankOf x.instr with
   | some _ => s.mayEnter x
   | none => true) && !s.relWaits x.sid x.uid x.instr && !s.releasedFirst e x

/-- A budget holds the record back (R218, R219). -/
def State.recordHeld (s : State) (x : Entry) : Bool := (engineResource x.instr).any fun r => s.budgetHeld (s.taskAt x.ref.task).vr r

/-- Budgets apart, the entry may leave the queue now, with `ahead` before it (R35, R38, R251). -/
def State.couldLeave (s : State) (core : Nat) (e : Engine) (ahead : List Entry) (x : Entry) : Bool :=
  match x.instr with
  | .qfence _ m => s.fenceMet core e ahead x m
  | _ => ((s.coreAt core).engine e).run.isNone && ahead.all Entry.isFence && !fencedBy ahead x && !s.conflicting core e x &&
      s.engineTakes e x

/-- The entry may leave the queue now (R35, R219). -/
def State.mayLeave (s : State) (core : Nat) (e : Engine) (ahead : List Entry) (x : Entry) : Bool :=
  s.couldLeave core e ahead x && !s.recordHeld x

/-- The first entry that may leave. -/
def State.leaver (s : State) (core : Nat) (e : Engine) : List Entry → List Entry → Option Entry
  | _, [] => none
  | ahead, x :: t => if s.mayLeave core e ahead x then some x else s.leaver core e (ahead ++ [x]) t

/-- The engine states of a record's strand, live or kept by the tracker (R48, R71, R347). -/
def State.modesOf (s : State) (x : Entry) : Mode × Mode × Bool :=
  if s.ownerAlive x then
    let t := s.strandAt x.ref.key
    (t.vm, t.mm, t.etr)
  else
    match (s.lcoreAt (lckey x.ref.task x.ref.lcore)).tracked.find? fun k => decide (k.sid = x.sid) with
    | some k => (k.vm, k.mm, k.etr)
    | none => (Mode.zero, Mode.zero, false)

/-- Set an engine state of a strand, live or tailed (R48, R71). -/
def State.setModes (s : State) (x : Entry) (f : Strand → Strand) (g : Tracked → Tracked) : State :=
  if s.ownerAlive x then s.onStrand x.ref.key f
  else s.onLcore (lckey x.ref.task x.ref.lcore) fun l =>
    { l with tracked := l.tracked.map fun k => if k.sid = x.sid then g k else k }

/-- The record starts on its engine. -/
def State.startRun (s : State) (core : Nat) (e : Engine) (x : Entry) : State :=
  let (vm, mm, etr) := s.modesOf x
  let u : Run := { e := x, vm := vm, mm := mm, etr := etr, done := [], refused := 0, flags := 0,
                   coll := if e = .c then some Coll.init else none, void := false, srcs := none }
  s.onCore core fun c => c.setEngine e { c.engine e with run := some u }

/-- What leaving does: an entry takes effect, mfree ends its claim, a record starts (R299, R326, R336, R347). -/
def State.leave (s : State) (core : Nat) (e : Engine) (x : Entry) : State :=
  let s := (s.onCore core fun c => c.setEngine e { c.engine e with q := (c.engine e).q.filter fun y => decide (y.uid ≠ x.uid) })
  match x.instr with
  | .qfence _ m => if s.ownerAlive x then s.raiseFence x.ref.key x.uid (enginePath e) (enginePath e) m else s
  | .vmode rm ovf en => s.setModes x (fun t => { t with vm := ⟨rm, ovf, en⟩ }) fun k => { k with vm := ⟨rm, ovf, en⟩ }
  | .mmode rm ovf en => s.setModes x (fun t => { t with mm := ⟨rm, ovf, en.setWidth 7⟩ }) fun k => { k with mm := ⟨rm, ovf, en.setWidth 7⟩ }
  | .tmode tr => s.setModes x (fun t => { t with etr := tr }) fun k => { k with etr := tr }
  | .mfree _ => s.freeClaim x
  | .grant d .. => s.endBlocked x d (s.mint (s.taskAt x.ref.task).vr (x.cap.vals.getD 0 0) (x.cap.vals.getD 1 0) (x.cap.vals.getD 2 0))
  | .revoke d _ => s.endBlocked x d (s.unmint (s.taskAt x.ref.task).vr (x.cap.vals.getD 0 0).toNat)
  | i =>
    let s := match matBankOf i with
      | some (_, b) => s.beginCommand x b
      | none => s
    let s := s.startRun core e x
    let s := if e = .v then s.chargeVec x else s
    match ((s.coreAt core).engine e).run with
    | some u => if e = .f then s.inject core u else if e = .c then s.completeColl core u else s
    | none => s

/-- RECORD_LEAVES_QUEUE (R35, R38). -/
def execRecordLeavesQueue (core : Nat) (e : Engine) (s : State) : Res :=
  .next (
    match s.leaver core e [] ((s.coreAt core).engine e).q with
    | some x => s.leave core e x
    | none => s)

/-! ## Completion -/

/-- A completion step of an engine: the running record goes as far as it can. -/
def State.complete (s : State) (core : Nat) (e : Engine) (u : Run) : State :=
  match e with
  | .v => s.completeVec core u
  | .m => s.completeMat core u
  | .t => s.completeTransfer core u
  | .f => s.inject core u
  | .c => s.completeColl core u

/-- RECORD_COMPLETION (R35, R55, R247). -/
def execRecordCompletion (core : Nat) (e : Engine) (s : State) : Res :=
  .next (
    match ((s.coreAt core).engine e).run with
    | some u => s.complete core e u
    | none => s)

end Sys2Proof.Machine
end

