-- ==== Sys2Proof/Machine/System.lean ====
section
/-! DEFINITION. Machine/System.lean: trap, brk, tret (R53, R283), spawn, signal, snap (R284 to R286), and the system registers (R54, R58, R72, R79, R80, R99, R114, R128, R287 to R289). -/

namespace Sys2Proof.Machine

/-- trap: the cause its operand names, trappc the next instruction (R52, R283). -/
def execTrap (code : BitVec 8) (s : State) : Res := .next (s.trapOn s.cur.key { cause := code } 3 (s.me.pc + 1))

/-- brk (R283): the tag is ignored. -/
def execBrk (_tag : BitVec 16) (s : State) : Res := .next (s.trapOn s.cur.key { cause := cBreak } 3 (s.me.pc + 1))

/-- tret: refused with PRIV while H is clear (R53). -/
def execTret (s : State) : Res := .next (s.checked 3 (chk (!s.me.h) cPriv) fun s => s.onMe Strand.tret)

/-- The templates of a VR's image, in order (R284, R394). -/
def templates (im : Image) : List EntryDecl := im.entries.filter EntryDecl.template

/-- sys.spawnlim (R284, R289). -/
def State.spawnlim (s : State) : Nat :=
  match s.vrAt s.myVrId with
  | some v => (templates v.image).length
  | none => 0

/-- The issuing strand's task (R210). -/
def State.myTask (s : State) : Task := s.taskAt s.cur.task

/-- spawn (R284): a request enters the VR's spawn queue of 64; the strand blocks while it is full. T at or above sys.spawnlim is judged after REGION_ILLEGAL and the poison of `a` (log 121, DESIGN CHOICE). -/
def execSpawn (t : BitVec 12) (a : Reg) (s : State) : Res :=
  .next (s.checked 3 ((chk s.me.region cRegion).or <| (s.me.chkPois [a]).or
      (chk (decide (s.spawnlim ≤ t.toNat)) cIllegalField)) fun s =>
    let q := match s.vrAt s.myVrId with | some v => v.spawnq | none => []
    if 64 ≤ q.length then s.block
    else
      let r : SpawnReq := { t := t.toNat, arg := s.me.reg a, lcore := s.cur.lcore, pc := s.me.pc, task := s.cur.task, step := s.myTask.step }
      (s.onVr s.myVrId fun v => { v with spawnq := v.spawnq ++ [r] }).fin id)

/-- What tells two signals of one step task apart (R285): VR, logical core, N, argument, word address. -/
def State.signalItems (s : State) (n : BitVec 16) (arg : Word) : List Nat :=
  [s.myVrId, s.cur.lcore, n.toNat, arg.toNat, s.me.pc.toNat]

/-- signal (R285): leaves only after every earlier path-s access has performed; blocks while the queue of 64 is full; a repeat is discarded. -/
def execSignal (n : BitVec 16) (a : Reg) (s : State) : Res :=
  .next (s.checked 3 ((chk s.me.region cRegion).or (s.me.chkPois [a])) fun s =>
    let items := s.signalItems n (s.me.reg a)
    if s.pathBusy .s then s.block
    else if s.myTask.seen.contains items then s.fin id
    else if 64 ≤ s.sup.signals.length then s.block
    else
      let w0 : Word := n ++ (0 : BitVec 4) ++ (0 : BitVec 15) ++ BitVec.ofNat 9 s.cur.lcore ++ BitVec.ofNat 20 s.myVrId
      let r : List Word := [w0, s.me.reg a, pcWord s.me.pc, 0]
      let fn := match s.vrAt s.myVrId with | some v => v.fn | none => 0
      ({ (s.onTask s.cur.task fun t => { t with seen := items :: t.seen }) with
          sup := { s.sup with signals := s.sup.signals ++ [(r, fn)] } }).fin id)

/-- A snapshot trigger reaches the management core: every block latches 16 cycles later (R231). -/
def State.triggerSnap (s : State) (id : BitVec 16) : State :=
  { s with sup := { s.sup with latching := s.sup.latching ++ [(id, s.cycle.toNat + 16)] } }

/-- snap (R286): as a write to sched.snap does. -/
def execSnap (trig : BitVec 16) (s : State) : Res :=
  .next (({ s with sup := { s.sup with trigger := trig } }.triggerSnap trig).fin id)

/-! ## System registers -/

/-- sys.wsref of a C-die (R99). -/
def State.wsref (s : State) (die : Nat) : Word :=
  let p := s.phaseOf die
  let inwin := p % 1024 < 128
  let bank := if inwin then p / 1024 else (p / 1024 + 1) % 16
  BitVec.ofNat 64 (bank * 2 ^ 16 + (if inwin then 2 ^ 15 else 0) + p)

/-- Active clusters of the bin (R3). -/
def State.activeClusters (s : State) : Nat := 72 - s.fusedList.length

/-- sys.feat (R289). -/
def State.feat (s : State) : Word := BitVec.ofNat 64 (2 ^ 16 + s.activeClusters * 2 ^ 8 + (if s.detmode then 1 else 0))

/-- sys.trapcause (R54). -/
def Strand.trapcause (t : Strand) : Word :=
  (0 : BitVec 47) ++ (if t.h then (1 : BitVec 1) else 0) ++ (0 : BitVec 4) ++ t.causeCls ++ t.cause

/-- A count predicate as sys.cntN shows it (R289). -/
def Cnt.word (c : Cnt) : Word := (0 : BitVec 44) ++ c.width ++ c.count

/-- The value of a field of the VR. -/
def State.vrField (s : State) (f : Vr → Word) : Word :=
  match s.vrAt s.myVrId with
  | some v => f v
  | none => 0

/-- The value of a system register for the issuing strand (R287 to R289). -/
def State.sysVal (s : State) (n : Nat) : Word :=
  let t := s.me
  match n with
  | 0x000 => t.trapcause
  | 0x001 => pcWord t.trappc
  | 0x002 => t.faultva.setWidth 64
  | 0x003 => t.poisoninfo.setWidth 64
  | 0x004 => pcWord t.trapvec
  | 0x008 => if s.myTask.preq then 1 else 0
  | 0x009 => s.myTask.deadline.setWidth 64
  | 0x010 => t.smode.setWidth 64
  | 0x011 => t.srsalt.setWidth 64
  | 0x012 => t.nbv.setWidth 64
  | 0x013 => t.amax.setWidth 64
  | 0x014 => if t.nanseen then 1 else 0
  | 0x015 => t.scopestat.setWidth 64
  | 0x016 => s.vrField fun v => v.pfthr.setWidth 64 <<< 8 ||| v.pfblk.setWidth 64
  | 0x020 => BitVec.ofNat 64 s.myVrId
  | 0x021 => BitVec.ofNat 64 s.cur.lcore
  | 0x022 => s.vrField Vr.seed
  | 0x023 => s.myTask.step.setWidth 64
  | 0x024 => s.myTask.sparg
  | 0x025 => BitVec.ofNat 64 s.spawnlim
  | 0x028 => s.cycle
  | 0x029 => s.vrField fun v => BitVec.ofNat 64 (v.energy / 10000000)
  | 0x02A => s.wsref (dieOf s.myCore)
  | 0x02B => s.feat
  | 0x030 => (t.cnt 0).word | 0x031 => (t.cnt 1).word | 0x032 => (t.cnt 2).word | 0x033 => (t.cnt 3).word
  | 0x034 => (t.cnt 4).word | 0x035 => (t.cnt 5).word | 0x036 => (t.cnt 6).word | 0x037 => (t.cnt 7).word
  | 0x038 => (t.loop 0).count.setWidth 64 | 0x039 => (t.loop 1).count.setWidth 64
  | 0x03A => (t.loop 2).count.setWidth 64
  | _ => 0

/-- sysr never poisons d (R287). -/
def execSysr (d : Reg) (num : BitVec 12) (s : State) : Res := .next (s.fin fun t => t.setReg d (s.sysVal num.toNat))

/-- The value checks of sysw: sys.smode, sys.nbv, sys.pfctl (R72, R80, R114, R287). -/
def syswBad (n : Nat) (v : Word) : Bool :=
  match n with
  | 0x010 => decide (4 ≤ (v.extractLsb' 0 3).toNat)
  | 0x012 => decide (v.extractLsb' 0 8 ≠ 1)
  | 0x016 => decide (11 ≤ (v.extractLsb' 0 4).toNat)
  | _ => false

/-- A sysw to a strand's own registers: RO fields ignore it, W1C fields clear (R287). -/
def Strand.sysw (n : Nat) (v : Word) (t : Strand) : Strand :=
  match n with
  | 0x001 => { t with trappc := v.setWidth 53 }
  | 0x004 => { t with trapvec := v.setWidth 53 }
  | 0x010 => { t with smode := v.setWidth 3 }
  | 0x011 => { t with srsalt := v.setWidth 32 }
  | 0x012 => { t with nbv := v.setWidth 8 }
  | 0x013 => { t with amax := v.setWidth 63 }
  | 0x014 => { t with nanseen := t.nanseen && !v.getLsbD 0 }
  | 0x015 => { t with scopestat := if v.getLsbD 0 then t.scopestat &&& 0xFFFE else t.scopestat }
  | _ => t

/-- A sysw to a register of the VR: sys.pfctl (R114). -/
def State.syswVr (s : State) (n : Nat) (v : Word) : State :=
  if n = 0x016 then s.onVr s.myVrId fun x => { x with pfthr := v.extractLsb' 8 4, pfblk := v.extractLsb' 0 4 } else s

/-- sysw consumes a (R287). -/
def execSysw (num : BitVec 12) (a : Reg) (s : State) : Res :=
  .next (s.checked 3 ((s.me.chkPois [a]).or (chk (syswBad num.toNat (s.me.reg a)) cIllegalField)) fun s =>
    (s.syswVr num.toNat (s.me.reg a)).fin fun t => t.sysw num.toNat (t.reg a))

end Sys2Proof.Machine
end

