-- ==== Sys2Proof/Machine/Fetch.lean ====
section
/-! DEFINITION. Machine/Fetch.lean: fetching and decoding at the program counter (R235, R236), and what it takes for one word to be fetched next. -/

namespace Sys2Proof.Machine

/-- What a fetch brings: an instruction, a decoding trap with its source class, a refusal, or a wait on the fault path. -/
inductive Fetched
  | ok (i : Instr) | trap (x : Trap) (cls : BitVec 4) | refused | wait
  deriving DecidableEq, Repr

/-- The trap of a word that does not decode (R254). -/
def decTrap : DecErr → BitVec 8
  | .illegalClass => cIllegalClass
  | .illegalOp => cIllegalOp
  | .illegalField => cIllegalField
  | .short => cIllegalField

/-- The code word at a physical address as the issuing strand's fetch returns it: where writes changed it while the step task ran, one of its values since the task's start (R236; log 58, DESIGN CHOICE). -/
def State.codeWord (s : State) (a : Nat) : State × Word :=
  let now : Word := BitVec.ofNat 64 (s.mem.read a 8)
  let before := (s.olds.filter fun o => decide (o.1 = s.cur.task ∧ o.2.1 = a)).map (·.2.2)
  if before.isEmpty then (s, now)
  else ({ s with draw := s.draw + 1 }, (now :: before).getD (Config.fetchChoice s.draw % (before.length + 1)) now)

/-- The code words at physical addresses, one after another. -/
def State.codeWords : List Nat → State → State × List Word
  | [], s => (s, [])
  | a :: t, s =>
    let (s, w) := s.codeWord a
    let (s, ws) := State.codeWords t s
    (s, w :: ws)

/-- Read `n` code words from word address `pc` with the X right (R108, R236); a budget may hold the request (R219). -/
def State.fetchWords (s : State) (pc : BitVec 53) (n : Nat) : State × XR (List Word) :=
  let a : Acc := { s.myAcc rX 2 true with source := 2 }
  if s.budgetHeld s.myVrId 0 then (s, .wait)
  else
  match s.runs a (pc.toNat * 8) (8 * n) with
  | (s, .ok rs) =>
    let (s, ws) := State.codeWords (rs.flatMap fun r => (List.range (r.2 / 8)).map fun i => r.1 + 8 * i) (s.chargeRuns a.payer rs true)
    (s, .ok ws)
  | (s, .refused x) => (s, .refused x)
  | (s, .wait) => (s, .wait)

/-- Decode words whose first word is `w`. -/
def decodeAt (ws : List Word) (w : Word) : Fetched :=
  match decode ws with
  | .ok (i, _) => .ok i
  | .error e => .trap { cause := decTrap e } (w.extractLsb' 60 4)

/-- Fetch and decode the instruction at the issuing strand's pc: one word, or the eight of a record (R235). -/
def State.fetch (s : State) : State × Fetched :=
  match s.fetchWords s.me.pc 1 with
  | (s, .refused _) => (s, .refused)
  | (s, .wait) => (s, .wait)
  | (s, .ok ws) =>
    let w := ws.headD 0
    if isRecordWord w then
      match s.fetchWords (s.me.pc + 1) 7 with
      | (s, .refused _) => (s, .refused)
      | (s, .wait) => (s, .wait)
      | (s, .ok ws) => (s, decodeAt (w :: ws) w)
    else (s, decodeAt ws w)

/-! ## Placing one instruction where the next step fetches -/

/-- A table pointer to a node, and a page entry with rights (R105). -/
def ptrEntry (node : Nat) : Nat := node + 3

/-- A page entry: address and the bits 11:3 given (R105). -/
def pageEntry (pa bits : Nat) : Nat := pa + bits * 8 + 1

/-- Page tables at 0x10000 that map the first code page of a VR to physical page 0x20000 with R and X (R104, R105, R237). -/
def placeTables (m : Mem) : Mem :=
  let m := m.write (0x10000 + 8 * (codeVa / 2 ^ 46 % 1024)) 8 (ptrEntry 0x12000)
  let m := m.write (0x12000 + 8 * (codeVa / 2 ^ 36 % 1024)) 8 (ptrEntry 0x14000)
  let m := m.write (0x14000 + 8 * (codeVa / 2 ^ 26 % 1024)) 8 (ptrEntry 0x16000)
  m.write (0x16000 + 8 * (codeVa / 2 ^ 16 % 1024)) 8 (pageEntry 0x20000 0x05)

/-- An image of one logical cluster with a 1 MiB quota and nothing declared (R394). -/
def blankImage : Image := { m := 1, quota := 2, code := [], gvs := [], regions := [], consts := [], entries := [], streams := [] }

/-- A VR with a stage-1 root and nothing else set (R27): reset values of R114. -/
def blankVr (root : Nat) (im : Image) : Vr :=
  { fn := 0, image := im, m := im.m, quota := im.quota, root := root, seed := 0, key := 0, k := [], windows := [],
    peers := [], pfthr := 8, pfblk := 4, energy := 0, srcs := [], staged := [], spawnq := [], moving := .no, acked := 0,
    remain := 0, failed := false, ipa := 0, ipaEnd := 0, migtok := 0, pulls := [], cursor := 0, cold := false }

/-- The task entry of a one-cluster task of VR 1 (R210). -/
def placeTask : BitVec 192 := BitVec.ofNat 192 (2 ^ 63 + 2 ^ 56 + 2 ^ 64 * (1 * 2 ^ 44))

/-- The bind of logical cluster 0 of task 0 to physical cluster 0, f 1, quota 1 MiB (R209). -/
def placeBind : Word := BitVec.ofNat 64 (2 ^ 63 + 2 * 2 ^ 59)

/-- The state in which the strand of task 0, logical core 0, slot 0 issues next, from VR 1's first code word, and the eight words from there are `ws` (log 7, DESIGN CHOICE). -/
def State.placed (s : State) (ws : List Word) : State :=
  { s with
    power := true
    uid := s.uid + 1
    cur := ⟨0, 0, 0⟩
    agenda := [.strand ⟨0, 0, 0⟩]
    olds := []
    binds := sset 0 s.binds 0 placeBind
    fns := smod Fn.init s.fns 0 fun f => { f with hbm0 := f.hbm0 ||| 1 }
    vrs := sset none s.vrs 1 (some (blankVr 0x10000 blankImage))
    tasks := sset Task.init s.tasks 0 { Task.init with entry := placeTask, phase := .running }
    strands := sset Strand.init s.strands 0 (Strand.start s.uid codeBase true [] [])
    mem := (placeTables s.mem).setBytes 0x20000 (ws.flatMap fun w => leBytes 8 w.toNat) }

end Sys2Proof.Machine
end

