-- ==== Sys2Proof/Machine/Sched.lean ====
section
/-! DEFINITION. Machine/Sched.lean: readiness and the dispatcher's choice (R30, R31, R33, R34, R213), the passing of cycles (R5, R99, R222). -/

namespace Sys2Proof.Machine

/-- A strand can issue: it is ready or trying again, its task runs, its sharer is present and no rotation is due (R31, R33). -/
def State.canIssue (s : State) (r : Ref) : Bool :=
  let t := s.strandAt r.key
  (decide (t.status = .ready) || decide (t.status = .blocked)) && decide ((s.taskAt r.task).phase = .running) &&
    s.presentOn r.task r.lcore && !(s.coreAt (s.coreOf r.task r.lcore)).rotate

/-- The hardware slot of a strand on its core (R29). -/
def State.hwSlot (s : State) (r : Ref) : Nat := 4 * s.sharerOf r.task (r.lcore / 4) + r.slot

/-- The ready strands of a core with their hardware slots. -/
def State.readyOn (s : State) (core : Nat) : List (Nat × Ref) :=
  (s.strands.filterMap fun e =>
    let r := refOf e.1
    if e.2.status = .ready ∧ s.coreOf r.task r.lcore = core ∧ s.canIssue r then some (s.hwSlot r, r) else none)

/-- The first ready slot after the previous winner, in ascending order, wrapping round (R34, R213). -/
def State.pick (s : State) (core : Nat) : Option (Nat × Ref) :=
  let rs := s.readyOn core
  let p := (s.coreAt core).ptr
  (List.range 16).findSome? fun i => rs.find? fun e => decide (e.1 = (p + 1 + i) % 16)

/-- The strand issues next; the core's pointer moves past it (R213). -/
def State.toIssue (s : State) (r : Ref) : State :=
  { (s.onCore (s.coreOf r.task r.lcore) fun c => { c with ptr := s.hwSlot r }) with cur := r }

end Sys2Proof.Machine
end

