-- ==== Sys2Proof/Machine/Tables.lean ====
section
/-! DEFINITION. Machine/Tables.lean: the supervisor's page tables (R109, R237, R386), pages and the free-page ring (R107), the end of faults (R112), promotion and demotion (R103, R107). -/

namespace Sys2Proof.Machine

/-! ## Pages of a function (log 40, DESIGN CHOICE) -/

/-- The first page at or after `at_` in the slices that `own` grants. -/
def nextIn (own : Nat → Bool) (base slice count at_ : Nat) : Option Nat :=
  let i := (at_ - base) / slice
  if i < count ∧ own i then some at_ else ((List.range count).find? fun j => decide (i < j) && own j).map fun j => base + slice * j

/-- A granted HBM4E slice (R216). -/
def Fn.hbmSlice (f : Fn) (i : Nat) : Bool := if i < 64 then f.hbm0.getLsbD i else f.hbm1.getLsbD (i - 64)

/-- A granted LPDDR6 slice (R216). -/
def Fn.lpSlice (f : Fn) (i : Nat) : Bool := if i < 64 then f.lp0.getLsbD i else f.lp1.getLsbD (i - 64)

/-- The next HBM4E page that the supervisor has not given out. -/
def Fn.nextHbmPage (f : Fn) : Option Nat := nextIn f.hbmSlice 0 0xC0000000 127 f.nextHbm

/-- Take an HBM4E page of a function for a VR's tables or ranges. -/
def State.takeHbm (s : State) (fn : Nat) : Option (State × Nat) :=
  ((s.fnAt fn).nextHbmPage).map fun pa => (s.onFn fn fun f => { f with nextHbm := pa + 65536 }, pa)

/-- Take an LPDDR6 page of a function. -/
def State.takeLp (s : State) (fn : Nat) : Option (State × Nat) :=
  let f := s.fnAt fn
  match nextIn f.lpSlice lpBase 0x200000000 128 (Nat.max f.nextLp lpBase) with
  | some pa => if s.hasMem pa then some (s.onFn fn fun f => { f with nextLp := pa + 65536 }, pa) else none
  | none => none

/-- An entry of the free-page ring names a page of the function and keeps its zero fields (R107). -/
def Fn.goodFree (f : Fn) (e : Word) : Bool :=
  decide (e.toNat / 2 ^ 48 = 0 ∧ e.toNat % 65536 = 0 ∧ e.toNat < 0x6000000000) && f.owns e.toNat

/-- Take entries of the ring in order until one is good; the bad ones are counted (R107). -/
def takeRing (f : Fn) : List Word → Fn × Option Nat
  | [] => ({ f with free := [] }, none)
  | e :: t => if f.goodFree e then ({ f with free := t }, some e.toNat) else takeRing { f with badPages := f.badPages + 1 } t

/-- Take a page from a function's free-page ring (R107). -/
def State.takeFree (s : State) (fn : Nat) : State × Option Nat :=
  let (f, r) := takeRing (s.fnAt fn) (s.fnAt fn).free
  (s.onFn fn fun _ => f, r)

/-- Every byte of a range reads zero. -/
def Mem.wipe (m : Mem) (a n : Nat) : Mem := sbelow m a ++ sfrom m (a + n)

/-- Copy a 64 KiB page with what is remembered of its releases; charged to the VR (R103, R224). -/
def State.copyPage (s : State) (vr src dst : Nat) : State :=
  let s := (s.chargeMem ⟨vr, none⟩ src 65536 true false).chargeMem ⟨vr, none⟩ dst 65536 false true
  { s with
    mem := s.mem.setBytes dst (s.mem.bytes src 65536)
    rels := sputs [] s.rels dst (sdense [] 65536 src (sfrom s.rels src)) }

/-! ## Supervisor accesses on behalf of a VR (R109, R112) -/

/-- A supervisor access misses at stage 2: a page request of source 15, kind 4 for a node read, else 1 (R109, R110). -/
def State.supMiss (s : State) (v : Vr) (vr va ipa : Nat) (rd : Bool) : State :=
  let page := 2 ^ 48 + ipa
  let s := if s.faults.any fun f => decide (f.vr = vr ∧ f.page = page) then s
    else { s with faults := s.faults ++ [(⟨s.uid, vr, page, ipa, .host (some v.fn), [.sup vr]⟩ : PFault)], uid := s.uid + 1 }
  s.pageRequest v.fn
    { ipa := BitVec.ofNat 32 ipa, kind := if rd then 4 else 1, source := 15, va := if rd then 0 else BitVec.ofNat 56 va,
      lcore := 0, vr := vr }

/-- The physical address of a node or page that the supervisor reads or writes for a VR (R109). -/
def State.supAddr (s : State) (v : Vr) (vr va a : Nat) (rd : Bool) : State × XR Nat :=
  if v.fn = 0 then (s, .ok a)
  else
    let f := s.fnAt v.fn
    match s.stage2 f a rd with
    | .ok l =>
      let need := if rd then rR else rW
      if pteRights l.e &&& need = need ∧ s.hasMem (l.pa a) ∧ f.owns (l.pa a) then
        ({ s with mem := setAD s.mem (!rd) l.at_ }, .ok (l.pa a))
      else (s, .refused a)
    | .error (.miss ipa _) =>
      if s.denied.contains (.sup vr, vr, 2 ^ 48 + ipa / 65536) then (s, .refused a) else (s.supMiss v vr va (ipa / 65536) rd, .wait)
    | .error _ => (s, .refused a)

/-- A page for a node or for data: physical, in LPDDR6 for a cold VR, or an IPA of the creating message's range (R103, R109). -/
def State.newPage (s : State) (v : Vr) : Option (State × Vr × Nat) :=
  if v.fn = 0 then (if v.cold then s.takeLp 0 else s.takeHbm 0).map fun (s, pa) => (s, v, pa)
  else if v.ipa + 65536 ≤ v.ipaEnd then some (s, { v with ipa := v.ipa + 65536 }, v.ipa)
  else none

/-- Clear a new page and put bytes at its start. -/
def State.supFill (s : State) (v : Vr) (vr va page : Nat) (bs : List Byte) : State × XR Unit :=
  match s.supAddr v vr va page false with
  | (s, .ok pa) => ({ s with mem := (s.mem.wipe pa 65536).setBytes pa (bs.take 65536), rels := clearRel s.rels pa 65536 }, .ok ())
  | (s, .refused x) => (s, .refused x)
  | (s, .wait) => (s, .wait)

/-- Write one entry of a node. -/
def State.supEntry (s : State) (v : Vr) (vr va at_ e : Nat) : State × XR Unit :=
  match s.supAddr v vr va at_ false with
  | (s, .ok pa) => ({ s with mem := s.mem.write pa 8 e }, .ok ())
  | (s, .refused x) => (s, .refused x)
  | (s, .wait) => (s, .wait)

/-- Map the page of `va`: level by level from `node`, with new nodes where there are none (R104, R105). -/
def State.mapFrom (vr va e : Nat) : Nat → State → Vr → Nat → State × XR Vr
  | 0, s, v, node =>
    match s.supEntry v vr va (node + 8 * (va / 2 ^ 16 % 1024)) e with
    | (s, .ok ()) => (s, .ok v)
    | (s, .refused x) => (s, .refused x)
    | (s, .wait) => (s, .wait)
  | k + 1, s, v, node =>
    let at_ := node + 8 * (va / 2 ^ (16 + 10 * (k + 1)) % 1024)
    match s.supAddr v vr va at_ true with
    | (s, .refused x) => (s, .refused x)
    | (s, .wait) => (s, .wait)
    | (s, .ok pa) =>
      let old := s.mem.read pa 8
      if old % 2 = 1 then State.mapFrom vr va e k s v (old % 2 ^ 48 / 2 ^ 13 * 2 ^ 13)
      else
        match s.newPage v with
        | none => (s, .refused va)
        | some (s, v, n) =>
          match s.supFill v vr va n [] with
          | (s, .refused x) => (s, .refused x)
          | (s, .wait) => (s, .wait)
          | (s, .ok ()) =>
            match s.supEntry v vr va at_ (n + 3) with
            | (s, .refused x) => (s, .refused x)
            | (s, .wait) => (s, .wait)
            | (s, .ok ()) => State.mapFrom vr va e k s v n

/-- Place a new page of bytes at a VA with entry bits 11:0 (R109, R386). -/
def State.placePage (s : State) (v : Vr) (vr va bits : Nat) (bs : List Byte) : State × XR Vr :=
  match s.newPage v with
  | none => (s, .refused va)
  | some (s, v, page) =>
    match s.supFill v vr va page bs with
    | (s, .refused x) => (s, .refused x)
    | (s, .wait) => (s, .wait)
    | (s, .ok ()) => State.mapFrom vr va (page + bits) 3 s v v.root

/-- Entry bits of a declared range's leaf: valid, F, and R, W, A of its rights (R386). -/
def gvBits (g : GvRange) : Nat :=
  1 + 0x80 + (if g.rights.getLsbD 0 then 8 else 0) + (if g.rights.getLsbD 1 then 16 else 0) + (if g.rights.getLsbD 2 then 64 else 0)

/-- Entry bits of a code leaf: valid, R and X (R237). -/
def codeBits : Nat := 1 + 8 + 32

/-! ## Leaves -/

/-- A leaf found in a table: 64 KiB page number of its VA, level, entry. -/
abbrev LeafAt := Nat × Nat × Word

/-- Every leaf under a node, ascending (R104). -/
def leavesUnder (read : Nat → Except WErr (Word × Nat × List Nat)) : Nat → Nat → Nat → List LeafAt
  | 0, node, page => (List.range 1024).filterMap fun i =>
      match read (node + 8 * i) with
      | .ok (e, _, _) => if e.getLsbD 0 ∧ pteType e ≠ 1 ∧ pteType e ≠ 3 then some (page + i, 0, e) else none
      | .error _ => none
  | k + 1, node, page => (List.range 1024).flatMap fun i =>
      match read (node + 8 * i) with
      | .ok (e, _, _) =>
        let at_ := page + i * 1024 ^ (k + 1)
        if !e.getLsbD 0 then []
        else if pteType e = 1 then leavesUnder read k (e.toNat % 2 ^ 48 / 2 ^ 13 * 2 ^ 13) at_
        else if pteType e = 0 ∧ k < 2 then [(at_, k + 1, e)]
        else []
      | .error _ => []

/-- The stage-1 leaves of a VR. -/
def State.leavesOf (s : State) (v : Vr) : List LeafAt :=
  let f := s.fnAt v.fn
  leavesUnder (if v.fn = 0 then s.pte f else s.nodeRead f) 3 v.root 0

/-! ## Invalidation of single pages -/

/-- Drop every cached translation of a VR that covers a page. -/
def State.dropPage (s : State) (vr page : Nat) : State :=
  s.keepTlb fun t => !decide (t.vr = vr ∧ t.page ≤ page ∧ page < t.page + t.pages)

/-- Rewrite a page entry with a new physical page and tier hint (R103, R107). -/
def State.rewriteLeaf (s : State) (vr page : Nat) (l : Leaf) (pa tier : Nat) : State :=
  let e := s.mem.read l.at_ 8
  let e := e / 2 ^ 48 * 2 ^ 48 + pa / 65536 * 65536 + tier * 1024 + e % 1024
  { s with mem := s.mem.write l.at_ 8 e }.dropPage vr page

/-! ## The end of a fault (R112) -/

/-- Accesses that the fault path held try again. -/
def State.retryAll (s : State) : State := s.pump.retryArrivals

/-- A page is retried for a running transfer record (R351). -/
def State.noteRetry (s : State) (uid page : Nat) : State :=
  let f : Nat → Core → Core := fun _ c =>
    { c with t := { c.t with run := c.t.run.map fun u => if u.e.uid = uid then { u with retry := u.retry ++ [page] } else u } }
  { s with cores := smapAll Core.init f s.cores }

/-- A fault is resolved: its accesses walk again (R112). -/
def State.faultDone (s : State) (f : PFault) : State :=
  let s := { s with faults := s.faults.filter fun g => decide (g.id ≠ f.id) }
  let s := f.who.foldl (fun s w => match w with
    | .region lc i => s.later (.event (.regionFill (lc / 288) (lc % 288) i))
    | .record uid => s.noteRetry uid f.page
    | _ => s) s
  s.retryAll

/-- A fault is refused: each of its accesses is (R112, R113). -/
def State.faultRefused (s : State) (f : PFault) : State :=
  { s with
    faults := s.faults.filter fun g => decide (g.id ≠ f.id)
    denied := s.denied ++ f.who.map fun w => (w, f.vr, f.page) }.retryAll

/-- The fault with a number. -/
def State.faultAt (s : State) (id : Nat) : Option PFault := s.faults.find? fun f => decide (f.id = id)

/-- The declared range of a VR's image that holds an address. -/
def rangeAt (im : Image) (va : Nat) : Option GvRange := im.gvs.find? fun g => decide (g.va ≤ va ∧ va < g.va + g.len)

/-- Keep a VR's IPA cursor, which the VRs of one creating message share (R109). -/
def State.keepIpa (s : State) (v : Vr) : State :=
  if v.fn = 0 then s
  else
    let f : Nat → Option Vr → Option Vr := fun _ o => o.map fun u => if u.fn = v.fn ∧ u.ipaEnd = v.ipaEnd then { u with ipa := v.ipa } else u
    { s with vrs := smapAll none f s.vrs }

/-- Map the page of a declared range that a fault is for, with the image's bytes (R112, R386). -/
def State.resolveIn (s : State) (f : PFault) (v : Vr) (g : GvRange) : State :=
  let va := f.page * 65536
  match s.placePage v f.vr va (gvBits g) (g.data.drop (va - g.va)) with
  | (s, .ok v) => ((s.keepIpa v).settle (.sup f.vr)).faultDone f
  | (s, .refused _) => (s.settle (.sup f.vr)).faultRefused f
  | (s, .wait) => { s with waits := s.waits ++ [.event (.faultResolution f.id)] }

/-- FAULT_RESOLUTION: inside a declared range the supervisor maps the page; any other address, the collective staging range among them, is refused (R112, R237, R374). -/
def execFaultResolution (id : Nat) (s : State) : Res :=
  .next (
    match s.faultAt id with
    | none => s
    | some f =>
      if f.kind ≠ .supervisor then s
      else
        match s.vrAt f.vr with
        | none => s.faultRefused f
        | some v =>
          match s.walkVr v (f.page * 65536), rangeAt v.image (f.page * 65536) with
          | .error .invalid, some g => s.resolveIn f v g
          | .error .invalid, none => s.faultRefused f
          | _, _ => s.faultDone f)

/-- REGION_FILL: the map unit copies an unfilled region (R93, R96). -/
def execRegionFill (task lcore idx : Nat) (s : State) : Res := .next (s.fill (lckey task lcore) idx).1

/-! ## Tiers (R103, R107) -/

/-- The page of a promote fault still asks for it. -/
def State.promotable (s : State) (f : PFault) : Option Found :=
  match s.vrAt f.vr with
  | none => none
  | some v =>
    match s.walkVr v (f.page * 65536) with
    | .ok w => if faultKind (.ok w) = some (.promote, 0, false) then some w else none
    | .error _ => none

/-- The function of a VR; 0 where there is none. -/
def State.fnOf (s : State) (vr : Nat) : Nat :=
  match s.vrAt vr with
  | some v => v.fn
  | none => 0

/-- Without a page and without a candidate, or of a page larger than the ring's, a promotion is resolved in place with tier 00 (R103, R107; log 35, DEDUCED). -/
def State.promoteInPlace (s : State) (f : PFault) : State :=
  match s.promotable f with
  | none => s.faultDone f
  | some w => (s.rewriteLeaf f.vr f.page w.last (w.last.pa 0) 0).faultDone f

/-- TIER_PROMOTION: the page is copied into a page of the free-page ring and its entry rewritten with tier 00; on an empty ring it waits (R103, R107). -/
def execTierPromotion (id : Nat) (s : State) : Res :=
  .next (
    match s.faultAt id with
    | none => s
    | some f =>
      if f.kind ≠ .promote then s
      else
        match s.promotable f with
        | none => s.faultDone f
        | some w =>
          if w.last.lvl ≠ 0 then s.promoteInPlace f
          else
          match s.takeFree (s.fnOf f.vr) with
          | (s, none) => s
          | (s, some pa) => (((s.copyPage f.vr (w.pa / 65536 * 65536) pa).rewriteLeaf f.vr f.page w.last pa 0).faultDone f))

/-- A VR's level-0 pages in HBM4E: VR, page, the leaf that places it, address. -/
def State.hbmPages (s : State) (vr : Nat) (v : Vr) : List (Nat × Nat × Leaf × Nat) :=
  (s.leavesOf v).filterMap fun l =>
    match s.walkVr v (l.1 * 65536) with
    | .ok w => if pteType w.s1.e = 0 ∧ w.last.lvl = 0 ∧ w.pa < 0x6000000000 then some (vr, l.1, w.last, w.pa) else none
    | .error _ => none

/-- The demote candidates of a function: its VRs' level-0 pages in HBM4E with tier hint 10. -/
def State.candidates (s : State) (fn : Nat) : List (Nat × Nat × Leaf × Nat) :=
  s.vrs.flatMap fun e => match e.2 with
    | none => []
    | some v => if v.fn ≠ fn then [] else (s.hbmPages e.1 v).filter fun c => decide (c.2.2.1.e.extractLsb' 10 2 = 2)

/-- Move one page to LPDDR6 with a tier hint; its HBM4E page joins the ring (R107). Without an LPDDR6 page it stays. -/
def State.toLp (s : State) (fn tier : Nat) (c : Nat × Nat × Leaf × Nat) : State :=
  let (vr, page, l, pa) := c
  match s.takeLp fn with
  | none => s
  | some (s, lp) =>
    ((s.copyPage vr pa lp).rewriteLeaf vr page l lp tier).onFn fn fun f =>
      { f with free := (f.free ++ [BitVec.ofNat 64 pa]).take 4096 }

/-- Demote one page to LPDDR6 (R107). -/
def State.demote (s : State) (fn : Nat) (c : Nat × Nat × Leaf × Nat) : State := s.toLp fn 2 c

/-! ## Cold VRs (R14, R103; log 98, DESIGN CHOICE) -/

/-- The VRs here that are not cold; at most 32 are active (R14). -/
def State.activeVrs (s : State) : Nat := (s.vrs.filter fun e => e.2.any fun v => !v.cold).length

/-- Where a new VR of this chip stands: active while fewer than 32 are, else cold, of which there may be 224, where there is LPDDR6 (R4, R14, R103). -/
def State.newVrCold (s : State) : Option Bool :=
  if s.activeVrs < 32 then some false
  else if s.vrs.length < 256 ∧ s.hasMem lpBase then some true else none

/-- A VR has a step task that is armed or has started, or one that waits for admission. -/
def State.vrTasked (s : State) (vr : Nat) : Bool :=
  (s.tasks.any fun e => decide (e.2.phase ≠ .idle ∧ e.2.vr = vr)) || (s.sup.launches.any fun l => decide (l.vr = vr)) ||
    s.sup.spawned.any fun x => decide (x.vr = vr)

/-- Some page of a VR lies in HBM4E. -/
def State.inHbm (s : State) (v : Vr) : Bool :=
  (s.leavesOf v).any fun l =>
    match s.walkVr v (l.1 * 65536) with
    | .ok w => decide (pteType w.s1.e = 0 ∧ w.pa < 0x6000000000)
    | .error _ => false

/-- Make a VR cold: its pages in HBM4E move to LPDDR6 with their tier hints, those of a virtual function's VR by their stage-2 leaves; none when some page cannot move (R103). -/
def State.chill (s : State) (vr : Nat) : Option State :=
  (s.vrAt vr).bind fun v =>
    let s := (s.hbmPages vr v).foldl (fun s c => s.toLp v.fn (c.2.2.1.e.extractLsb' 10 2).toNat c) s
    if s.inHbm v then none else some (s.onVr vr fun v => { v with cold := true })

/-- Make a VR active for its step task: where 32 are active, the lowest VR without one that can become cold does; none when there is none (R14, R103). -/
def State.warm (s : State) (vr : Nat) : Option State :=
  match s.vrAt vr with
  | none => none
  | some v =>
    let on (s : State) : State := s.onVr vr fun v => { v with cold := false }
    if !v.cold then some s
    else if s.activeVrs < 32 then some (on s)
    else (s.vrs.findSome? fun e => if (e.2.any fun u => !u.cold && decide (u.moving = .no)) && !s.vrTasked e.1 then s.chill e.1 else none).map on

/-- The promotions that wait on a function's ring. -/
def State.promoting (s : State) (fn : Nat) : List PFault :=
  s.faults.filter fun f => decide (f.kind = .promote) && decide (s.fnOf f.vr = fn)

/-! ## Responses of the host (R111) -/

/-- A function's waiting supervisor turns go on. -/
def State.supGoes (s : State) : State := { s with agenda := s.agenda ++ s.waits, waits := [] }

/-- The faults of a function that wait for an IPA page. -/
def State.waitingFor (s : State) (fn ipa : Nat) : List PFault :=
  s.faults.filter fun f => decide (f.ipa = ipa) && match f.kind with
    | .host (some n) => decide (n = fn)
    | .host none => decide (s.fnOf f.vr = fn)
    | _ => false

/-- A response record names its request (R111): tag, IPA page, outcome, zero fields. -/
def goodResponse (f : Fn) (w0 w1 : Nat) : Option (Nat × PReq) :=
  let tag := w0 / 2 ^ 48
  if w0 / 4 % 2 ^ 14 ≠ 0 ∨ w1 ≠ 0 ∨ 2 ≤ w0 % 4 then none
  else
    match sget none f.tags tag with
    | some q => if q.ipa.toNat = w0 / 65536 % 2 ^ 32 then some (tag, q) else none
    | none => none

/-- The tag of an answered request frees; waiting requests are written (R110, R111). -/
def State.freeTags (s : State) (fn tag : Nat) : State :=
  State.drainReqs fn (s.fnAt fn).waiting.length (s.onFn fn fun f => { f with tags := sset none f.tags tag none })

/-- RESPONSE_RECORD: the oldest record that q.tail of ring 1 covers retries or refuses a request, or is discarded and counted (R111, R395). -/
def execResponseRecord (fn : Nat) (s : State) : Res :=
  .next (
    let f := s.fnAt fn
    let r := f.ring 1
    if r.size = 0 ∨ r.head = r.tail then s
    else
      let a := r.base.toNat / 4096 * 4096 + 16 * r.head.toNat
      let w0 := s.hostMem.read a 8
      let w1 := s.hostMem.read (a + 8) 8
      let s := s.onFn fn fun f => f.onRing 1 fun r => { r with head := BitVec.ofNat 12 ((r.head.toNat + 1) % r.size) }
      match goodResponse f w0 w1 with
      | none => s.onFn fn fun f => f.onRing 1 fun r => { r with bad := r.bad + 1 }
      | some (tag, q) =>
        let s := s.freeTags fn tag
        ((s.waitingFor fn q.ipa.toNat).foldl (fun s f => if w0 % 4 = 0 then s.faultDone f else s.faultRefused f) s).supGoes)

end Sys2Proof.Machine
end

