-- ==== Sys2Proof/Machine/Tasks.lean ====
section
/-! DEFINITION. Machine/Tasks.lean: the life of a running step task: rotation (R31), its end and completion record (R48, R50, R95, R96, R221, R346), aborts and pre-emption (R45 to R47, R177), watchdog, budgets and power (R219, R222, R226), gated banks, refresh and invalidation (R99, R100, R115, R116). -/

namespace Sys2Proof.Machine

/-! ## What belongs to a task -/

/-- The keys of a task's logical cores, ascending (R27). -/
def State.lcsOf (s : State) (task : Nat) : List Nat := (List.range (s.taskAt task).L).map (lckey task)

/-- The strands of a task, with their keys. -/
def State.strandsOf (s : State) (task : Nat) : SMap Strand := s.strands.filter fun e => decide (e.1 / 1152 = task)

/-- A record or entry of the task is incomplete. -/
def State.taskBusy (s : State) (task : Nat) : Bool := s.cores.any fun c => c.2.entries.any fun x => decide (x.ref.task = task)

/-- A started record of the task is incomplete. -/
def State.taskRuns (s : State) (task : Nat) : Bool :=
  s.cores.any fun c => engines.any fun e => match (c.2.engine e).run with
    | some u => decide (u.e.ref.task = task)
    | none => false

/-- A record of the logical core is incomplete on its physical core. -/
def State.lcBusy (s : State) (lc : Nat) : Bool :=
  (s.coreAt (s.coreOf (lc / 288) (lc % 288))).entries.any fun x => decide (lckey x.ref.task x.ref.lcore = lc)

/-- A logical core's halt line: every started strand has retired, its tracker and its queues are empty (R50). -/
def State.haltLine (s : State) (lc : Nat) : Bool :=
  ((List.range 4).all fun i => let t := s.strandAt (lc * 4 + i); decide (t.status = .dormant ∨ t.status = .retired)) &&
    !s.lcBusy lc && (s.lcoreAt lc).pending.isEmpty && (s.lcoreAt lc).tracked.all fun k => !s.trackedBusy lc k.sid

/-! ## Rotation (R30, R31, R195) -/

/-- The valid sharers of a physical cluster, ascending. -/
def State.sharers (s : State) (p : Nat) : List Nat := (List.range 4).filter fun k => bindValid (sget 0 s.binds (4 * p + k))

/-- The logical core of sharer `k` on a physical core (R29). -/
def State.lcOn (s : State) (core k : Nat) : Nat :=
  let b := sget 0 s.binds (4 * (core / 4) + k)
  lckey (bindTask b) (4 * bindJ b + core % 4)

/-- A strand is at a rotation point, or was never started (R31). -/
def Strand.atRotation (t : Strand) : Bool :=
  t.atYield || match t.status with
    | .waiting _ | .parked | .retired | .dormant | .yielded => true
    | _ => false

/-- A record of the logical core that a rotation waits for is incomplete: all but a parked strand's word, each until its last answer (R31, R358). -/
def State.lcWorks (s : State) (lc : Nat) : Bool :=
  ((s.coreAt (s.coreOf (lc / 288) (lc % 288))).entries.any fun x => decide (lckey x.ref.task x.ref.lcore = lc) && !parksWord x.instr) ||
    s.rops.any fun o => decide (lckey o.ref.task o.ref.lcore = lc) && !o.parked && o.sent

/-- A fill of the logical core has started and not ended (R31, R93). -/
def State.lcFills (s : State) (lc : Nat) : Bool := (s.lcoreAt lc).regions.any fun r => r.2.filling

/-- The present sharer of a core, whose rotation is due, may leave: its records are complete and its fills have ended (R31). -/
def State.mayRotate (s : State) (core lc : Nat) : Bool := (s.coreAt core).rotate && !s.lcWorks lc && !s.lcFills lc

/-- A rotation of a core becomes due: its sharers form a rotation set, and every started strand of the present one is at a rotation point (R30, R31). -/
def State.rotationDue (s : State) (core : Nat) : Bool :=
  let ks := s.sharers (core / 4)
  let k := (s.coreAt core).present
  let b := sget 0 s.binds (4 * (core / 4) + k)
  decide (1 < ks.length) && ks.contains k && !s.coResident (bindTask b) (bindJ b) &&
    (List.range 4).all fun i => (s.strandAt (s.lcOn core k * 4 + i)).atRotation

/-- The binds of a task go, and with them the rotations that were due to its strands. -/
def State.unbind (s : State) (task : Nat) : State :=
  let f : Nat → Core → Core := fun n c => if bindTask (sget 0 s.binds (4 * (n / 4) + c.present)) = task then { c with rotate := false } else c
  { s with cores := smapAll Core.init f s.cores, binds := s.binds.filter fun e => decide (bindTask e.2 ≠ task) }

/-- The cores whose rotation becomes due stand still until it is done (R31). -/
def State.setRotations (s : State) : State :=
  (((s.binds.filter fun e => bindValid e.2).map fun e => e.1 / 4).eraseDups.flatMap fun p => (List.range 4).map (4 * p + ·)).foldl
    (fun s c => if s.rotationDue c then s.onCore c fun x => { x with rotate := true } else s) s

/-- The next sharer in ascending order, wrapping round. -/
def nextSharer (ks : List Nat) (k : Nat) : Option Nat :=
  match ks.find? (fun x => decide (k < x)) with
  | some x => some x
  | none => ks.head?

/-- The replies held for a logical core land in its scratchpad (R195). -/
def State.landHeld (s : State) (core lc : Nat) : State :=
  let rs := (s.coreAt core).replies
  let s := s.onCore core fun c => { c with replies := rs.filter fun r => decide (r.lc ≠ lc) }
  let s := { s with agenda := s.agenda ++ s.late.map (fun p => .event (.replyWithData p)), late := [] }
  (rs.filter fun r => decide (r.lc = lc)).foldl (fun s r => s.spPut lc r.addr r.data) s

/-- Charge the VR of sharer `k` of a core for its quota, saved to its rotation area or restored from it (R31, R224). -/
def State.chargeQuota (s : State) (core k : Nat) : State :=
  let b := sget 0 s.binds (4 * (core / 4) + k)
  s.chargeArea (s.payerOf (bindTask b)) (quotaBytes (bindQuota b))

/-- Make sharer `k` present on a core; the strands of the others are blocked (R31, R33). -/
def State.present (s : State) (core k : Nat) : State :=
  let off : Nat → Strand → Strand := fun n t =>
    if t.status = .ready ∧ s.coreOf (n / 1152) (n / 4 % 288) = core ∧ n / 4 ≠ s.lcOn core k ∧ !s.coResident (n / 1152) (n / 4 % 288 / 4)
    then { t with status := .blocked } else t
  ({ s with strands := smapAll Strand.init off s.strands }.onCore core fun c => { c with present := k, rotate := false }).landHeld core (s.lcOn core k)

/-- ROTATION: the present sharer at a rotation point gives way to the next (R31). -/
def execRotation (core : Nat) (s : State) : Res :=
  .next (
    let ks := s.sharers (core / 4)
    let k := (s.coreAt core).present
    let b := sget 0 s.binds (4 * (core / 4) + k)
    if !ks.contains k then (match ks.head? with | some k => s.present core k | none => s)
    else if s.coResident (bindTask b) (bindJ b) ∨ !s.mayRotate core (s.lcOn core k) then s
    else match nextSharer ks k with
      | some n => if n = k then s.onCore core fun c => { c with rotate := false } else ((s.chargeQuota core k).chargeQuota core n).present core n
      | none => s)

/-! ## The end of a step task (R48, R50, R95, R96) -/

/-- The dirty regions of logical cores, ascending. -/
def State.dirty (s : State) (lcs : List Nat) : List (Nat × Nat) :=
  lcs.flatMap fun lc => ((s.lcoreAt lc).regions.filter fun e => decide (e.2.st = .dirty)).map fun e => (lc, e.1)

/-- The completion status becomes 0x0D with class 6 if it was 0x00 (R96, R346). -/
def State.taskError (s : State) (task : Nat) : State :=
  s.onTask task fun t => if t.status = 0 then { t with status := cEngine, cls := 6 } else t

/-- Write dirty regions back in order; true when one waits (R95, R96). -/
def State.writeBackAll (task : Nat) : List (Nat × Nat) → State → State × Bool
  | [], s => (s, false)
  | (lc, i) :: t, s =>
    match s.writeBack lc i with
    | (s, .ok ()) => State.writeBackAll task t s
    | (s, .refused _) => State.writeBackAll task t ((s.taskError task).onLcore lc fun l => l.setRegion i Region.zero)
    | (s, .wait) => (s, true)

/-- The failure, first in issue order, that no strand is left to take (R48). -/
def State.leftover (s : State) (task : Nat) : Option Failure :=
  firstFailure ((s.lcsOf task).flatMap fun lc => (s.lcoreAt lc).errs ++ (s.lcoreAt lc).rfails)

/-- The status of a task whose halt lines have risen: a failure left over, a lost peer, or what its write-backs left (R48, R205, R221). -/
def State.closing (s : State) (task : Nat) : State :=
  match s.leftover task with
  | some f => s.onTask task fun t => { t with status := f.cause, cls := f.cls }
  | none => if (s.taskAt task).lost then s.onTask task fun t => if t.status = 0 then { t with status := cPeerLost, cls := 8 } else t else s

/-- A logical core of the task has recorded twload copies. -/
def State.hasLists (s : State) (task : Nat) : Bool := (s.lcsOf task).any fun lc => !(s.lcoreAt lc).twloads.isEmpty

/-- END_TASK_WRITEBACK: when every strand has retired and all work is done, dirty regions go back; then the halt lines rise (R50, R95). -/
def execEndTaskWriteback (task : Nat) (s : State) : Res :=
  .next (
    if (s.taskAt task).phase = .running ∧ (s.lcsOf task).all s.haltLine then
      let (s, w) := State.writeBackAll task (s.dirty (s.lcsOf task)) s
      if w then s
      else
        let s := (s.closing task).onTask task fun t => { t with phase := .stopping }
        s.later (.event (if s.hasLists task then .twloadApply task else .completionSignalWrite task))
    else s)

/-! ## Applying twload lists (R346) -/

/-- The access of an applied copy. -/
def State.applyAcc (s : State) (lc : Nat) : Acc :=
  { core := some (s.coreOf (lc / 288) (lc % 288)), who := .region lc 64, vr := (s.taskAt (lc / 288)).vr, need := rR, source := 6,
    lcore := lc % 288, join := true, inst := (s.payerOf (lc / 288)).inst }

/-- Write weight-store bytes of a C-die (R99). -/
def State.wsPut (s : State) (die a : Nat) (bs : List Byte) : State :=
  { s with ws := smod [] s.ws die fun m => m.setBytes a bs }

/-- Copy page after page; a refused page leaves its bytes and the task's error; true when one waits. -/
def State.applyPages (lc die : Nat) : Nat → State → Nat → Nat → Nat → State × Bool
  | 0, s, _, _, _ => (s, false)
  | k + 1, s, va, ws, n =>
    if n = 0 then (s, false)
    else if s.budgetHeld (s.taskAt (lc / 288)).vr 0 then (s, true)
    else
      let m := Nat.min n (65536 - va % 65536)
      match s.gvRead (s.applyAcc lc) va m with
      | (s, .ok bs) => State.applyPages lc die k (s.wsPut die ws bs) (va + m) (ws + m) (n - m)
      | (s, .refused _) => State.applyPages lc die k ((s.settle (.region lc 64)).taskError (lc / 288)) (va + m) (ws + m) (n - m)
      | (s, .wait) => (s, true)

/-- Apply copies in order; each that is done leaves its list; true when one waits. -/
def State.applyLists : List (Nat × WLoad) → State → State × Bool
  | [], s => (s, false)
  | (lc, w) :: t, s =>
    match State.applyPages lc (dieOf (s.coreOf (lc / 288) (lc % 288))) (w.len / 65536 + 2) s w.va w.ws w.len with
    | (s, true) => (s, true)
    | (s, false) => State.applyLists t ((s.settle (.region lc 64)).onLcore lc fun l => { l with twloads := l.twloads.tail })

/-- The C-dies whose clusters a task is bound to. -/
def State.diesOf (s : State) (task : Nat) : List Nat :=
  ((s.binds.filter fun e => bindValid e.2 && decide (bindTask e.2 = task)).map fun e => e.1 / 4 / 18).eraseDups

/-- A running step task is bound to one of the dies. -/
def State.dieInUse (s : State) (dies : List Nat) : Bool :=
  s.binds.any fun e => bindValid e.2 && dies.contains (e.1 / 4 / 18) && decide ((s.taskAt (bindTask e.2)).phase = .running)

/-- TWLOAD_APPLY (R346): by logical core and dispatch order, once no step task runs on the dies. -/
def execTwloadApply (task : Nat) (s : State) : Res :=
  .next (
    if (s.taskAt task).phase = .stopping ∧ s.hasLists task ∧ !s.dieInUse (s.diesOf task) then
      let l := (s.lcsOf task).flatMap fun lc => (s.lcoreAt lc).twloads.map fun w => (lc, w)
      let (s, w) := State.applyLists l s
      if w then s else s.later (.event (.completionSignalWrite task))
    else s)

/-! ## The completion record (R221, R284) -/

/-- The launch that a task runs for. -/
def State.launchOf (s : State) (task : Nat) : Option Launch := s.sup.launches.find? fun l => decide (l.task = some task)

/-- The two words of a completion record (R221). -/
def Task.record (t : Task) : Word × Word :=
  (t.step ++ t.status ++ t.cls ++ BitVec.ofNat 20 t.vr, BitVec.ofNat 64 (t.energy / 10000000))

/-- Report a task: the record at its cpa with the launching function's vector, or a spawned task's event record (R221, R284, R391, R395). -/
def State.report (s : State) (task : Nat) : State :=
  let t := s.taskAt task
  let (w0, w1) := t.record
  match t.spawn with
  | some o =>
    let h : Word := BitVec.ofNat 16 o.t ++ (1 : BitVec 4) ++ (0 : BitVec 15) ++ BitVec.ofNat 9 o.lcore ++ BitVec.ofNat 20 t.vr
    let fn := match s.vrAt t.vr with | some v => v.fn | none => 0
    s.onFn fn fun f => { f with events := f.events ++ [[h, o.arg, w0, w1]] }
  | none =>
    let a := t.cpa.toNat * 16
    let s := if s.hasMem a then { s with mem := s.mem.setBytes a (leBytes 8 w0.toNat ++ leBytes 8 w1.toNat), rels := clearRel s.rels a 16 } else s
    match s.launchOf task with
    | some l => s.vector l.fn 3
    | none => s

/-- The supervisor accepts the requests of the VRs' spawn queues; one equal in all five items to an earlier one of the same step task is discarded (R284; log 67, DEDUCED). -/
def State.takeQueues (s : State) : State :=
  let put (acc : List Spawned) (vr : Nat) (v : Vr) (q : SpawnReq) : List Spawned :=
    if acc.any fun (x : Spawned) => decide (x.vr = vr ∧ x.req = q) then acc
    else acc ++ [⟨vr, q, (((v.image.entries.filter EntryDecl.template)[q.t]?).map EntryDecl.slot).getD 0, 0⟩]
  let acc := s.vrs.foldl (fun acc e => match e.2 with
    | some v => v.spawnq.foldl (fun acc q => put acc e.1 v q) acc
    | none => acc) s.sup.accepted
  let clear : Nat → Option Vr → Option Vr := fun _ o => o.map fun v => { v with spawnq := [] }
  if acc = s.sup.accepted ∧ s.vrs.all (fun e => match e.2 with | some v => v.spawnq.isEmpty | none => true) then s
  else { s with sup := { s.sup with accepted := acc }, vrs := smapAll none clear s.vrs }

/-- With the task's completion record its accepted requests join the step tasks that wait for admission, after status 0x00, or are discarded (R213, R284). -/
def State.takeSpawns (s : State) (task : Nat) : State :=
  let s := s.takeQueues
  let t := s.taskAt task
  let mine (x : Spawned) : Bool := decide (x.vr = t.vr ∧ x.req.task = task)
  let new := if t.status = 0 then s.sup.accepted.filter mine else []
  { s with sup := { s.sup with
      accepted := s.sup.accepted.filter fun x => !mine x
      spawned := s.sup.spawned ++ ((List.range new.length).zip new).map fun x => { x.2 with arr := s.sup.arrivals + x.1 }
      arrivals := s.sup.arrivals + new.length } }

/-- The key of a release in a scratchpad or bank of a task. -/
def ofTaskKey (task k : Nat) : Bool :=
  if 2 ^ 61 ≤ k then decide ((k - 2 ^ 61) / 2 ^ 20 / 288 = task) else decide (2 ^ 60 ≤ k ∧ (k - 2 ^ 60) / 2 ^ 20 / 288 = task)

/-- Forget a task that has been reported: its strands, logical cores, banks, binds and entry (R212). (log 68, DEDUCED) -/
def State.clearTask (s : State) (task : Nat) : State :=
  let hold : Nat → MArray → MArray := fun _ a =>
    { a with
      briar := if a.bbank.any (fun k => decide (k / 288 = task)) then [] else a.briar
      bbank := if a.bbank.any (fun k => decide (k / 288 = task)) then none else a.bbank
      last := if a.last.any (fun k => decide (k / 288 = task)) then none else a.last
      holder := if a.holder.any (fun k => decide (k / 1152 = task)) then none else a.holder }
  let s := (s.bankCounts task).unbind task
  let rep : Nat → Core → Core := fun _ c => { c with replies := c.replies.filter fun r => decide (r.lc / 288 ≠ task) }
  { s with
    strands := s.strands.filter fun e => decide (e.1 / 1152 ≠ task)
    lcores := s.lcores.filter fun e => decide (e.1 / 288 ≠ task)
    banks := s.banks.filter fun e => decide (e.1 / 288 ≠ task)
    rels := s.rels.filter fun e => !ofTaskKey task e.1
    arrays := smapAll MArray.init hold s.arrays
    cores := smapAll Core.init rep s.cores
    tasks := sset Task.init s.tasks task Task.init
    sup := { s.sup with launches := s.sup.launches.filter fun l => decide (l.task ≠ some task) } }

/-- Nothing of a stopping task is left to finish: started records, issued stores, remote operations with the cancelled continuations, whose effects stand, twload copies (R45, R141, R220, R346). -/
def State.taskDone (s : State) (task : Nat) : Bool :=
  !s.taskRuns task && !(s.rops.any fun o => decide (o.ref.task = task)) && !(s.lcsOf task).any fun lc => !(s.lcoreAt lc).pending.isEmpty || !(s.lcoreAt lc).twloads.isEmpty

/-- COMPLETION_SIGNAL_WRITE (R50, R220, R221). -/
def execCompletionSignalWrite (task : Nat) (s : State) : Res :=
  .next (if (s.taskAt task).phase = .stopping ∧ s.taskDone task then (((s.report task).takeSpawns task).clearTask task) else s)

/-! ## Aborts (R45) -/

/-- A held write-back is undone: its lines are marked again, and an entry that has gone stands at its index again (R45, R344). -/
def LCore.unback (l : LCore) (h : Held) : LCore :=
  match h with
  | .wback _ idx _ old lines _ _ evict _ => l.redirty idx old (lines.map (·.1)) evict
  | _ => l

/-- The strand itself at its restart point, yielded; it inherits nothing of the aborted attempt (R40, R45, R47). (log 64, DEDUCED) -/
def Strand.toRestart (t : Strand) (uid : Nat) : Strand :=
  { t with
    status := .yielded, pc := t.restart, regs := t.ckpt, region := decide (t.opened ≠ 0),
    opened := if t.opened = 0 then 0 else uid, rsb := [], park := none, h := false, cause := 0, causeCls := 0, trappc := 0,
    faultva := 0, poisoninfo := 0, haltAt := none, atYield := false, ir := none }

/-- The strand's unstarted records leave the queues; of its started ones, those of the aborted region write nothing more outside, and a parked word's reply is discarded (R45). (log 63, DEDUCED) -/
def Core.abort (r : Ref) (sid opened : Nat) (c : Core) : Core :=
  let mine (x : Entry) : Bool := decide (x.ref = r ∧ x.sid = sid)
  let cut (q : EngineQ) : EngineQ :=
    let q := q.drop mine
    { q with run := q.run.map fun u =>
        if mine u.e && (decide (opened ≠ 0 ∧ opened ≤ u.e.uid) || parksWord u.e.instr) then { u with void := true } else u }
  { c with v := cut c.v, m := cut c.m, t := cut c.t, f := cut c.f, c := cut c.c }

/-- Abort the strand with key `k` to its restart point (R45). -/
def State.abort (s : State) (k : Nat) : State :=
  let t := s.strandAt k
  let r := refOf k
  let gone := t.rsb.filterMap fun h => match h with | .remote u _ => some u | _ => none
  let cut : Nat → Core → Core := fun _ c => c.abort r t.sid t.opened
  let s := s.onLcore (k / 4) fun l => t.rsb.reverse.foldl LCore.unback l
  let s := { s with
    cores := smapAll Core.init cut s.cores
    rops := (s.rops.filter fun (o : ROp) => !gone.contains o.uid).map fun (o : ROp) =>
      if o.sid = t.sid ∧ o.parked then { o with cancel := true } else o
    faults := s.faults.map (PFault.without fun w => decide (w = Who.strand k))
    denied := s.denied.filter fun d => decide (d.1 ≠ Who.strand k) }
  ((s.onStrand k fun t => t.toRestart s.uid).tickUid)

/-! ## Pre-emption (R46, R47, R177, R215) -/

/-- PREEMPT_REQUEST: sys.preq and sys.deadline of a running gang (R46). -/
def execPreemptRequest (task : Nat) (deadline : BitVec 32) (s : State) : Res :=
  .next (
    let t := s.taskAt task
    if t.phase = .running ∧ !t.preq ∧ deadline ≠ 0 then
      s.onTask task fun t => { t with preq := true, deadline := deadline, reqAt := s.cycle.toNat }
    else s)

/-- A strand has nothing more to give up: yielded, retired, or never started. -/
def Strand.still (t : Strand) : Bool := decide (t.status = .yielded ∨ t.status = .retired ∨ t.status = .dormant)

/-- The strands of a task on a core that a deadline expiry aborts (R47). -/
def State.expiring (s : State) (task core : Nat) : List Nat :=
  ((s.strandsOf task).filter fun e => !e.2.still && decide (s.coreOf task (e.1 / 4 % 288) = core)).map (·.1)

/-- DEADLINE_EXPIRY: the strands on the core that have not yielded are aborted (R47). -/
def execDeadlineExpiry (task core : Nat) (s : State) : Res :=
  .next (
    if s.expired task then (s.expiring task core).foldl State.abort s
    else s)

/-- The arrays fold the buffers that hold the gang's banks and forget its turns (R164, R177). -/
def State.saveArrays (s : State) (task : Nat) : State :=
  let payer := s.payerOf task
  let s := ((s.arrays.filter fun e => e.2.bbank.any fun k => decide (k / 288 = task)).map (·.1)).foldl
    (fun s p => (s.foldArray p payer).onArray p fun a => { a with bbank := none }) s
  let go : Nat → MArray → MArray := fun _ a =>
    { a with
      last := if a.last.any (fun k => decide (k / 288 = task)) then none else a.last
      holder := if a.holder.any (fun k => decide (k / 1152 = task)) then none else a.holder }
  { s with arrays := smapAll MArray.init go s.arrays }

/-- Charge a gang's VR for the state that a release saves and a resumption restores: every logical core's quota and the claimed banks (R47, R177, R224). -/
def State.chargeGang (s : State) (task : Nat) : State :=
  let t := s.taskAt task
  let banks := (s.strandsOf task).foldl (fun n e => match e.2.claim with
    | some c => n + c.rows * c.cols * maskBanks c.mask
    | none => n) 0
  s.chargeArea (s.payerOf task) (t.L * s.quotaOf t.vr + banks * bankBytes)

/-- A gang under pre-emption is clean: strands still, records complete, a class 7 word's with its last answer (R46, R177, R358). -/
def State.clean (s : State) (task : Nat) : Bool :=
  (s.strandsOf task).all (fun e => e.2.still) && !s.taskBusy task && !(s.lcsOf task).any s.lcWorks

/-- GANG_RELEASE: every state of the gang is saved and its clusters are free (R46, R47, R177). -/
def execGangRelease (task : Nat) (s : State) : Res :=
  .next (
    let t := s.taskAt task
    if t.phase = .running ∧ t.preq ∧ s.clean task then
      let s := (s.lcsOf task).foldl (fun s lc => s.landHeld (s.coreOf (lc / 288) (lc % 288)) lc) s
      let s := (((s.saveArrays task).chargeGang task)).onTask task fun t => { t with phase := .preempted }
      (s.bankCounts task).unbind task
    else s)

/-! ## Watchdog, budgets, power (R219, R222, R226) -/

/-- WATCHDOG_EXPIRY (R222). -/
def execWatchdogExpiry (task : Nat) (s : State) : Res :=
  .next (
    let t := s.taskAt task
    if t.phase = .running ∧ t.wdog ≠ 0 ∧ t.wdog * 65536 ≤ t.eligible then s.stopTask task 0x40 0 else s)

/-- A balance at a period boundary (R219). -/
def Fn.refresh (f : Fn) (r : Nat) : Fn :=
  let a := f.allotOf r
  if a = 0xFFFFFFFF then f
  else { f with bal := sset (a.toNat : Int) f.bal r (min (f.balOf r) (2 * a.toNat) + a.toNat) }

/-- BUDGET_PERIOD_BOUNDARY (R219): every balance, then what was held tries again. -/
def execBudgetPeriodBoundary (s : State) : Res :=
  .next (
    if s.periodAt ≤ s.cycle.toNat then
      let f : Nat → Fn → Fn := fun _ f => ((f.refresh 0).refresh 1).refresh 2
      { s with fns := smapAll Fn.init f s.fns, periodAt := s.periodAt + s.period }.retryAll
    else s)

/-- The running tasks. -/
def State.runningTasks (s : State) : List Nat := (s.tasks.filter fun e => decide (e.2.phase = .running)).map (·.1)

/-- POWER_WINDOW_END (R226): above 2,800 W the clock steps down, or in deterministic operation every running task stops; below 2,700 W it steps up. A bare package plans no energy and has no module limit (R4; log 97, DESIGN CHOICE). -/
def execPowerWindowEnd (watts : Nat) (s : State) : Res :=
  .next (
    if s.bare then s
    else if s.detmode then (if 2800 < watts then s.runningTasks.foldl (fun s t => s.stopTask t cPower (Config.powerClass s.draw)) { s with draw := s.draw + 1 } else s)
    else if 2800 < watts then { s with clockStep := Nat.max 8 (s.clockStep - 1) }
    else if watts < 2700 then { s with clockStep := Nat.min 16 (s.clockStep + 1) }
    else s)

/-! ## Banks, refresh, caches (R99, R100, R115, R116) -/

/-- A running task is bound to the physical core's cluster. -/
def State.coreInUse (s : State) (core : Nat) : Bool :=
  s.binds.any fun e => bindValid e.2 && decide (e.1 / 4 = core / 4) && decide ((s.taskAt (bindTask e.2)).phase = .running)

/-- BANK_GATE: a fused cluster has no banks (R2); between step tasks; a re-enabled bank wakes and reads zero; gating a core's banks empties its caches (R100, R116). -/
def execBankGate (bank : BankId) (gate : Bool) (s : State) : Res :=
  .next (
    match bank with
    | .spad c b =>
      if s.fusedAt (c / 4) then s
      else if gate then (if s.coreInUse c then s else s.onCore c fun x =>
        { x with gated := sset false x.gated b true, waking := sset false x.waking b false, tlb := [] })
      else if sget false (s.coreAt c).gated b then
        s.onCore c fun x => { x with gated := sset false x.gated b false, waking := sset false x.waking b true }
      else s
    | .ws d b =>
      let k := 16 * d + b
      if gate then (if s.dieInUse [d] then s else { s with wsGated := sset false s.wsGated k true, wsWaking := sset false s.wsWaking k false })
      else if sget false s.wsGated k then
        { s with wsGated := sset false s.wsGated k false, wsWaking := sset false s.wsWaking k true
                 ws := smod [] s.ws d fun m => m.wipe (b * 0x1000000) 0x1000000 }
      else s)

/-- BANK_WAKE_END: the accesses held on the bank proceed (R100). -/
def execBankWakeEnd (bank : BankId) (s : State) : Res :=
  .next (
    match bank with
    | .spad c b => (s.onCore c fun x => { x with waking := sset false x.waking b false })
    | .ws d b => { s with wsWaking := sset false s.wsWaking (16 * d + b) false })

/-- WS_REFRESH_WINDOW: reads held on the bank proceed (R99). -/
def execWsRefreshWindow (_die : Nat) (s : State) : Res := .next s

/-- An invalidation names a cached translation (R115). -/
def invNames (i : InvScope) (t : Tlb) : Bool :=
  match i with
  | .range vr lo hi => decide (t.vr = vr ∧ t.page < hi ∧ lo < t.page + t.pages)
  | .vr vr => decide (t.vr = vr)
  | .fn f => decide (t.fn = f)
  | .all => true

/-- Remove the cached translations that an invalidation names from every cache of the chip (R115). -/
def State.invalidate (s : State) (names : Tlb → Bool) : State :=
  s.keepTlb fun t => !names t

/-- INVALIDATION (R115, R116): every access is one step, so each cache acknowledges at once. -/
def execInvalidation (scope : InvScope) (s : State) : Res := .next (s.invalidate (invNames scope))

end Sys2Proof.Machine
end

