-- ==== Sys2Proof/Machine/Slots.lean ====
section
/-! DEFINITION. Machine/Slots.lean: the slot table with its checks (R209 to R212), partitions (R216), sched.detmode (R227), snapshots (R231, R232). -/

namespace Sys2Proof.Machine

/-! ## Refusals (R211) -/

/-- The lowest code among those that hold. -/
def lowest (cs : List (Bool × Nat)) : Option Nat := (isort (fun a b => decide (a ≤ b)) ((cs.filter (·.1)).map (·.2))).head?

/-- A refused write: err, the code, and the index or function number (R211). -/
def State.refuse (s : State) (code index : Nat) : State :=
  { s with binderr := (1 : BitVec 1) ++ BitVec.ofNat 4 code ++ (0 : BitVec 3) ++ BitVec.ofNat 9 index }

/-- A task is armed or running (R211); a stopping or a pre-empted one is neither (log 119, DESIGN CHOICE). -/
def State.live (s : State) (task : Nat) : Bool :=
  decide ((s.taskAt task).phase = .armed ∨ (s.taskAt task).phase = .running)

/-- A physical cluster is in the function's partition (R216). -/
def Fn.cluster (f : Fn) (p : Nat) : Bool := if p < 64 then f.clus0.getLsbD p else f.clus1.getLsbD (p - 64)

/-! ## Slot-table writes (R209 to R211) -/

/-- The valid bind entries but that of index `i`. -/
def State.otherBinds (s : State) (i : Nat) : List (Nat × Word) := s.binds.filter fun e => bindValid e.2 && decide (e.1 ≠ i)

/-- The checks of a bind entry: its fields in every entry that is written, the rest for a valid one (R29, R209, R211; log 43, DEDUCED). -/
def State.bindCode (s : State) (i : Nat) (w : Word) : Option Nat :=
  let p := i / 4
  let k := i % 4
  let t := bindTask w
  let j := bindJ w
  let te := s.taskAt t
  let old := sget 0 s.binds i
  let v := bindValid w
  lowest [
    (decide (bindF w = 3 ∨ bindQuota w = 3), 1),
    (v && s.fusedAt p, 2),
    (v && (!te.valid || decide (te.m ≤ j)), 3),
    (v && (decide (2 ^ bindF w ≤ k) || (s.otherBinds i).any fun e =>
      decide (e.1 / 4 = p) && !(if e.1 % 4 < k then decide (bindJ e.2 < j) else decide (j < bindJ e.2))), 4),
    (v && te.valid && !(s.fnAt te.fn).cluster p, 5),
    (v && (s.otherBinds i).any fun e => decide (bindTask e.2 = t) &&
      decide (bindJ e.2 = j ∨ bindF e.2 ≠ bindF w ∨ bindQuota e.2 ≠ bindQuota w), 6),
    (decide (w.extractLsb' 0 46 ≠ 0), 8),
    ((v && s.live t) || (bindValid old && s.live (bindTask old)), 9)]

/-- The checks of a task entry, with the bind entries that name it (R210, R211). -/
def State.entryCode (s : State) (n : Nat) (e : BitVec 192) : Option Nat :=
  let t : Task := { Task.init with entry := e }
  let mine := s.binds.filter fun b => bindValid b.2 && decide (bindTask b.2 = n)
  lowest [
    (mine.any fun b => !t.valid || decide (t.m ≤ bindJ b.2), 3),
    (t.valid && mine.any fun b => !(s.fnAt t.fn).cluster (b.1 / 4), 5),
    (decide (t.w0.extractLsb' 53 1 ≠ 0 ∨ t.w0.extractLsb' 32 16 ≠ 0 ∨ t.w2.extractLsb' 0 32 ≠ 0), 8),
    (s.live n, 9),
    (decide (t.m = 0 ∨ 72 < t.m), 10)]

/-- Write an entry of the slot table; the code of a refusal (R211). -/
def State.slotWrite (s : State) (i : Nat) (value : BitVec 192) : State × Option Nat :=
  if i < 288 then
    match s.bindCode i (value.setWidth 64) with
    | some c => (s.refuse c i, some c)
    | none => ({ s with binds := sset 0 s.binds i (value.setWidth 64) }, none)
  else if i < 352 then
    match s.entryCode (i - 288) value with
    | some c => (s.refuse c (if c = 10 then ({ Task.init with entry := value }).fn else i), some c)
    | none => (s.onTask (i - 288) fun t => { t with entry := value }, none)
  else (s, none)

/-! ## Partitions (R216) -/

/-- A partition register's value for a function. -/
def Fn.part (f : Fn) : PartReg → Word
  | .clus0 => f.clus0
  | .clus1 => f.clus1.setWidth 64
  | .hbm0 => f.hbm0
  | .hbm1 => f.hbm1
  | .lp0 => f.lp0
  | .lp1 => f.lp1
  | .s2root => f.s2root

/-- Set a partition register; bits that are RO ignore the write. -/
def Fn.setPart (f : Fn) (r : PartReg) (v : Word) : Fn :=
  match r with
  | .clus0 => { f with clus0 := v }
  | .clus1 => { f with clus1 := v.setWidth 8 }
  | .hbm0 => { f with hbm0 := v }
  | .hbm1 => { f with hbm1 := v }
  | .lp0 => { f with lp0 := v }
  | .lp1 => { f with lp1 := v }
  | .s2root => { f with s2root := v &&& 0x8000FFFFFFFFE000 }

/-- The value grants a fused cluster. -/
def State.grantsFused (s : State) (r : PartReg) (v : Word) : Bool :=
  match r with
  | .clus0 => (List.range 64).any fun i => v.getLsbD i && s.fusedAt i
  | .clus1 => (List.range 8).any fun i => v.getLsbD i && s.fusedAt (64 + i)
  | _ => false

/-- The value gives a cluster or slice to two functions, or slice 127 (R216). -/
def State.sharesPart (s : State) (fn : Nat) (r : PartReg) (v : Word) : Bool :=
  match r with
  | .s2root => false
  | r =>
    let v := if r = .clus1 then v &&& 0xFF else v
    (decide (r = .hbm1) && v.getLsbD 63) || s.fns.any fun e => decide (e.1 ≠ fn ∧ e.2.part r &&& v ≠ 0)

/-- A task of the function is armed or running. -/
def State.fnLive (s : State) (fn : Nat) : Bool :=
  s.tasks.any fun e => s.live e.1 && decide (e.2.fn = fn)

/-- Write a partition register; the code of a refusal (R216), which stands in sched.binderr with the function number, for code 2 too (log 118, DESIGN CHOICE). A function without clusters is not enabled; its home link is chosen then (R390; log 47, DESIGN CHOICE). (log 69, DEDUCED) -/
def State.partWrite (s : State) (fn : Nat) (r : PartReg) (v : Word) : State × Option Nat :=
  if 32 ≤ fn ∨ (fn = 0 ∧ r = .s2root) then (s, none)
  else
    match lowest [(s.grantsFused r v, 2), (s.sharesPart fn r v || s.fnLive fn, 7)] with
    | some c => (s.refuse c fn, some c)
    | none =>
      let link (f : Fn) : Nat := if f.clus0 = 0 ∧ f.clus1 = 0 then (if Config.homeLink fn then 1 else 0) else f.home
      (s.onFn fn fun f => { f.setPart r v with home := link f }, none)

/-- The function that a slot-table write is for. -/
def State.slotFn (s : State) (index : Nat) (value : BitVec 192) : Nat :=
  if index < 288 then (s.taskAt (bindTask (value.setWidth 64))).fn else ({ Task.init with entry := value }).fn

/-- SLOT_TABLE_WRITE (R211); an index outside the table names no entry. -/
def execSlotTableWrite (index : Nat) (value : BitVec 192) (s : State) : Res :=
  .next (s.slotWrite index value).1

/-- PARTITION_WRITE (R216); fn.s2root[0] ignores writes. -/
def execPartitionWrite (fn : Nat) (reg : PartReg) (value : Word) (s : State) : Res := .next (s.partWrite fn reg value).1

/-! ## sched.detmode (R227) -/

/-- A step task of the chip is armed or running. -/
def State.anyLive (s : State) : Bool := s.tasks.any fun e => s.live e.1

/-- DETMODE_WRITE (R211 code 9, R227): with det set no clock reduction stands. -/
def execDetmodeWrite (value : Word) (s : State) : Res :=
  .next (
    if s.anyLive then s.refuse 9 0
    else { s with detmode := value.getLsbD 0, clockStep := if value.getLsbD 0 then 16 else s.clockStep })

/-! ## Snapshots (R231 to R233) -/

/-- SCHED_SNAP_WRITE (R231). -/
def execSchedSnapWrite (value : Word) (s : State) : Res :=
  .next ({ s with sup := { s.sup with trigger := value.setWidth 16 } }.triggerSnap (value.setWidth 16))

/-- Strands of a core by hardware slot. -/
def State.slotsOn (s : State) (core : Nat) : List (Nat × Ref × Strand) :=
  s.strands.filterMap fun e =>
    let r := refOf e.1
    if s.coreOf r.task r.lcore = core ∧ (s.bindOf r.task (r.lcore / 4)).isSome then some (s.hwSlot r, r, e.2) else none

/-- Content of a core's record (R232). -/
def State.coreSnap (s : State) (core : Nat) : List Word :=
  let c := s.coreAt core
  let occ (e : Engine) : BitVec 8 := BitVec.ofNat 8 ((c.engine e).taken e)
  let sl := s.slotsOn core
  let ready := (sl.filter fun e => decide (s.statusOf e.2.1 = .ready)).foldl (fun m e => m ||| 2 ^ e.1) 0
  [(0 : BitVec 24) ++ occ .c ++ occ .f ++ occ .t ++ occ .m ++ occ .v, BitVec.ofNat 64 ready,
   BitVec.ofNat 64 (c.retired + (sl.map fun e => e.2.2.icount).foldl (· + ·) 0), BitVec.ofNat 64 (s.checkerUsed core),
   BitVec.ofNat 64 (sl.filter fun e => e.2.2.park.isSome).length, 0]

/-- The banks of array `p` that core `i` of a cluster claims, those of gangs from other clusters and of tailed strands too (R174, R178, R232; log 44, DESIGN CHOICE). -/
def State.claimMask (s : State) (p i : Nat) : Nat :=
  (s.allClaims.filter fun e => decide (e.2.1 % 4 = i) && !(s.claimOn p e.1 e.2.2).isEmpty).foldl (fun m e => m ||| e.2.2.mask.toNat) 0

/-- Content of an array's record: one byte of claim mask per core, the requester number of the turn's holder or 64 for none (R232; log 44, DESIGN CHOICE). -/
def State.arraySnap (s : State) (p : Nat) : List Word :=
  let a := s.arrayAt p
  [BitVec.ofNat 64 ((List.range 4).foldl (fun m i => m + s.claimMask p i * 256 ^ i) 0),
   BitVec.ofNat 64 (match a.holder with | some k => s.requester (refOf k) | none => 64),
   BitVec.ofNat 64 a.briar.length, BitVec.ofNat 64 a.folds, BitVec.ofNat 64 a.issues, 0]

/-- fab.portstat of a port (R184). -/
def Port.stat (p : Port) : Word := (0 : BitVec 40) ++ BitVec.ofNat 8 p.mode ++ p.lanes

/-- The last lseq that has gone out: the flits behind the first 512 of the replay buffer still wait (R181, R232). -/
def Port.lastSent (p : Port) : BitVec 16 := ((p.replay.drop 511).head?.map Flit.lseq).getD (p.tx - 1)

/-- Content of a port's record: last lseq sent in bits 15:0 and received in bits 31:16; the hold store is its F-die's (R232; log 44, DESIGN CHOICE). -/
def State.portSnap (s : State) (q : Nat) : List Word :=
  let p := s.portAt q
  [p.stat, (0 : BitVec 32) ++ p.rx ++ p.lastSent, BitVec.ofNat 64 (Nat.min 512 p.replay.length),
   BitVec.ofNat 64 (s.heldOn (q / 16)), 0, 0]

/-- The blocks of the chip: kind, index, content; a fused cluster's cores and array are not there (R2, R232). -/
def State.blocks (s : State) : List (Nat × Nat × List Word) :=
  (((List.range 288).filter fun i => !s.fusedAt (i / 4)).map fun i => (0, i, s.coreSnap i)) ++
  (((List.range 72).filter fun i => !s.fusedAt i).map fun i => (1, i, s.arraySnap i)) ++
  ((List.range 32).map fun i => (2, i, s.portSnap i)) ++
  ((List.range 8).map fun i =>
    let c := sget (0, 0) s.stackBytes i
    (3, i, [BitVec.ofNat 64 c.1, BitVec.ofNat 64 c.2, 0, 0, 0, 0])) ++
  ((List.range 4).map fun i => (4, i, [s.wsref i, Config.readsHeld (s.draw + i), 0, 0, 0, 0]))

/-- Write one block's record, which takes it `n` cycles; drop it while the block still writes an earlier one, or when the ring of 4,096 is full (R232; log 99, DESIGN CHOICE). -/
def Sup.snapPut (u : Sup) (id : BitVec 16) (cycle : Word) (n : Nat) (b : Nat × Nat × List Word) : Sup :=
  if cycle.toNat < sget 0 u.snapBusy (4096 * b.1 + b.2.1) ∨ 4096 ≤ u.ring.length then { u with dropped := (b.1, b.2.1) :: u.dropped }
  else
    let ovf := u.dropped.contains (b.1, b.2.1)
    let w0 : Word := BitVec.ofNat 4 b.1 ++ BitVec.ofNat 12 b.2.1 ++ id ++ (0 : BitVec 31) ++ (if ovf then (1 : BitVec 1) else 0)
    { u with ring := u.ring ++ [w0 :: cycle :: b.2.2], snapBusy := sset 0 u.snapBusy (4096 * b.1 + b.2.1) (cycle.toNat + n), dropped := u.dropped.filter fun d => decide (d ≠ (b.1, b.2.1)) }

/-- SNAPSHOT_LATCH: the triggers that are 16 cycles old latch every block (R231, R232). -/
def execSnapshotLatch (s : State) : Res :=
  .next (
    let due := s.sup.latching.filter fun l => decide (l.2 ≤ s.cycle.toNat)
    due.foldl (fun s l =>
      let u := s.blocks.foldl (fun u b => u.snapPut l.1 s.cycle (Config.snapCycles s.draw) b) s.sup
      { s with sup := { u with latching := u.latching.filter fun x => decide (x ≠ l) }, draw := s.draw + 4 }) s)

end Sys2Proof.Machine
end

