-- ==== Sys2Proof/Machine/Launch.lean ====
section
/-! DEFINITION. Machine/Launch.lean: admission (R215, R225, R284, R401), supervisor packets (R203 to R205), varm and vgo (R290), starting a gang (R41, R92), resuming one (R46, R47), relaying signals (R285, R395). -/

namespace Sys2Proof.Machine

/-! ## Binding a gang (R3, R29, R209, R215) -/

/-- A bind entry (R209). -/
def mkBind (f quota task j : Nat) : Word :=
  (1 : BitVec 1) ++ BitVec.ofNat 2 f ++ BitVec.ofNat 2 quota ++ BitVec.ofNat 6 task ++ BitVec.ofNat 7 j ++ (0 : BitVec 46)

/-- A task entry (R210). -/
def mkEntry (m prio fn : Nat) (step : BitVec 32) (vr : Nat) (cpa : BitVec 44) (wdog : BitVec 32) : BitVec 192 :=
  wdog ++ (0 : BitVec 32) ++ BitVec.ofNat 20 vr ++ cpa ++ (1 : BitVec 1) ++ BitVec.ofNat 7 m ++ BitVec.ofNat 2 prio ++ (0 : BitVec 1) ++
    BitVec.ofNat 5 fn ++ (0 : BitVec 16) ++ step

/-- Bind entries that an admitted launch has not written yet. -/
def State.planned (s : State) : List (Nat × Word) :=
  s.sup.launches.flatMap fun l => match l.task with
    | some t => if (s.taskAt t).phase = .idle then l.binds else []
    | none => []

/-- The clusters that some bind, written or planned, takes. -/
def State.takenClusters (s : State) : List Nat :=
  (((s.binds.filter fun e => bindValid e.2) ++ s.planned).map fun e => e.1 / 4).eraseDups

/-- A stopping task's twload copies wait on the die (R346). -/
def State.dieApplies (s : State) (die : Nat) : Bool :=
  s.tasks.any fun e => decide (e.2.phase = .stopping) && s.hasLists e.1 && (s.diesOf e.1).contains die

/-- The clusters that the supervisor may bind for a function. -/
def State.freeClusters (s : State) (fn : Nat) : List Nat :=
  (List.range 72).filter fun p => (s.fnAt fn).cluster p && !s.fusedAt p && !s.takenClusters.contains p && !s.dieApplies (p / 18)

/-- The binds the supervisor chooses: the smallest time-slice factor for which the free clusters suffice, sharers in ascending order; none when they do not (R3, R29; log 46, DESIGN CHOICE). -/
def State.pickBinds (s : State) (vr task : Nat) : List (Nat × Word) :=
  match s.vrAt vr with
  | none => []
  | some v =>
    let ps := s.freeClusters v.fn
    match [0, 1, 2].find? fun f => decide (v.m ≤ ps.length * 2 ^ f) with
    | none => []
    | some f => (List.range v.m).map fun j => (4 * ps.getD (j / 2 ^ f) 0 + j % 2 ^ f, mkBind f v.quota task j)

/-- Write bind entries one by one; false, with the table as it was, when one is refused (R211). -/
def State.bindAll (s : State) (bs : List (Nat × Word)) : State × Bool :=
  let r := bs.foldl (fun (a : State × Bool) b =>
    if a.2 then let (t, c) := a.1.slotWrite b.1 (b.2.setWidth 192); (t, c.isNone) else a) (s, true)
  if r.2 then r else ({ s with binderr := r.1.binderr }, false)

/-- Every logical cluster of a task is bound (R212). -/
def State.allBound (s : State) (task : Nat) : Bool := (List.range (s.taskAt task).m).all fun j => (s.bindOf task j).isSome

/-- The binds use only clusters that are free to the supervisor, and there are some. -/
def State.bindsFree (s : State) (fn : Nat) (bs : List (Nat × Word)) : Bool :=
  !bs.isEmpty && bs.all fun b => (s.freeClusters fn).contains (b.1 / 4)

/-! ## Planned power (R225) -/

/-- The larger of two fractions. -/
def fracMax (a b : Nat × Nat) : Nat × Nat := if a.1 * b.2 < b.1 * a.2 then b else a

/-- The peak phase power of a launch in watts, as a fraction: µJ × 1,100 over cycles at 1.1 GHz (R225). -/
def peakOf (phases : List (Nat × Nat)) : Nat × Nat := (phases.map fun p => (p.2 * 1100, p.1)).foldl fracMax (0, 1)

/-- 310 W and the peaks together stay at or below 2,800 W (R225). -/
def powerFits (ps : List (Nat × Nat)) : Bool :=
  let s := ps.foldl (fun a b => (a.1 * b.2 + b.1 * a.2, a.2 * b.2)) (0, 1)
  decide (s.1 ≤ 2490 * s.2)

/-- The planned peaks of the admitted tasks that hold their clusters; a spawned task's template declares no phases, so that it counts with none (R284, R394; log 96, DESIGN CHOICE). -/
def State.peaks (s : State) : List (Nat × Nat) :=
  (s.sup.launches.filter fun l => match l.task with
    | some t => decide ((s.taskAt t).phase ≠ .preempted)
    | none => false).map fun l => peakOf l.phases

/-- A step task of a planned peak may run beside the admitted ones; a bare package plans no energy (R4, R16, R225; log 97, DESIGN CHOICE). -/
def State.powerOk (s : State) (peak : Nat × Nat) : Bool := s.bare || powerFits (peak :: s.peaks)

/-! ## Starting a gang (R41, R92, R203, R284) -/

/-- Region-map entries of a logical core from the image (R92, R394). -/
def imageRegions (im : Image) (n : Nat) : SMap Region :=
  im.regions.foldl (fun m d => sset Region.zero m d.idx
    { va := BitVec.ofNat 64 (d.va + n * d.step), base := d.base, len := d.len, r := d.r, w := d.w, st := .unfilled, lines := [] }) []

/-- The strands that a step task starts: strand key, entry record (R284, R394). -/
def startsOf (im : Image) (task L : Nat) (template : Option Nat) : List (Nat × Nat × EntryDecl) :=
  ((List.range im.entries.length).zip im.entries).flatMap fun e =>
    match template with
    | some t =>
      if e.2.template ∧ ((im.entries.take e.1).filter EntryDecl.template).length = t then
        (List.range L).map fun n => (lckey task n * 4, e.1, e.2) else []
    | none =>
      if e.2.template then []
      else match e.2.lcore with
        | some n => if n < L then [(lckey task n * 4 + e.2.slot, e.1, e.2)] else []
        | none => (List.range L).map fun n => (lckey task n * 4 + e.2.slot, e.1, e.2)

/-- Start one strand at its entry (R41). -/
def State.startStrand (s : State) (im : Image) (x : Nat × Nat × EntryDecl) : State :=
  (s.onStrand x.1 fun _ => Strand.start s.uid (codeBase + BitVec.ofNat 53 x.2.2.entry) true (streamsAt im (some x.2.1)) []).tickUid

/-- The cores of a bound gang. -/
def State.coresOf (s : State) (task : Nat) : List Nat := (List.range (s.taskAt task).L).map (s.coreOf task) |>.eraseDups

/-- A core is ready for its sharers: gated banks wake, and where no present sharer is bound the lowest is present (R31, R100). (log 73, DESIGN CHOICE) -/
def State.prepareCore (s : State) (task core : Nat) : State :=
  let k := (s.coreAt core).present
  let b := sget 0 s.binds (4 * (core / 4) + k)
  s.onCore core fun c =>
    { c with
      gated := []
      waking := c.gated.foldl (fun m g => sset false m g.1 true) c.waking
      present := if bindValid b ∧ bindTask b ≠ task then k else (s.sharers (core / 4)).headD 0 }

/-- Start a task's gang from its VR's image; of two entry records for one slot of one logical core the later one starts it (R41, R92, R203, R284; log 101, DESIGN CHOICE). -/
def State.startGang (s : State) (task : Nat) (template : Option Nat) : State :=
  let t := s.taskAt task
  match s.vrAt t.vr with
  | none => s
  | some v =>
    let s := (s.lcsOf task).foldl (fun s lc => { s with
      lcores := sset LCore.init s.lcores lc { LCore.init with regions := imageRegions v.image (lc % 288) } }) s
    let s := (s.coresOf task).foldl (fun s c => s.prepareCore task c) { s with olds := s.olds.filter fun o => decide (o.1 ≠ task) }
    let s := (startsOf v.image task (4 * v.m) template).foldl (fun s x => s.startStrand v.image x) s
    s.tickUid.onTask task fun t => { t with
      inst := s.uid, phase := .running, preq := false, deadline := 0, reqAt := 0, eligible := 0, energy := 0, status := 0, cls := 0, seen := [],
      lost := false }

/-! ## Admission (R215, R225, R401) -/

/-- Every step task that waits for admission on this chip: priority and place in the order of arrival (R213, R215). -/
def State.queued (s : State) : List (Nat × Nat) :=
  ((s.sup.launches.filter fun l => l.task.isNone && (s.vrAt l.vr).isSome).map fun l => (l.prio, l.arr)) ++
    ((s.sup.spawned.filter fun x => (s.vrAt x.vr).isSome).map fun x => (x.prio, x.arr))

/-- The first of them: the highest priority, then order of arrival. -/
def State.firstQueued (s : State) : Option (Nat × Nat) :=
  s.queued.foldl (fun b x => match b with
    | none => some x
    | some y => if y.1 < x.1 ∨ (x.1 = y.1 ∧ x.2 < y.2) then some x else b) none

/-- The launch that is admitted next, where no spawned step task comes before it (R213, R215). -/
def State.nextLaunch (s : State) : Option Launch :=
  s.sup.launches.find? fun l => l.task.isNone && decide (s.firstQueued = some (l.prio, l.arr))

/-- The spawned step task that is admitted next, where no launch comes before it (R213, R215, R284). -/
def State.nextSpawned (s : State) : Option Spawned := s.sup.spawned.find? fun x => decide (s.firstQueued = some (x.prio, x.arr))

/-- The running task of lower priority that is pre-empted first: the lowest priority (R215). -/
def State.victim (s : State) (prio : Nat) : Option Nat :=
  ((s.tasks.filter fun e => decide (e.2.phase = .running ∧ e.2.prio < prio) && !e.2.preq).foldl (fun b e => match b with
    | none => some e
    | some x => if e.2.prio < x.2.prio then some e else b) none).map (·.1)

/-- Pre-empt for a launch that cannot be admitted (R215). -/
def State.makeRoom (s : State) (prio : Nat) : State :=
  match s.victim prio with
  | some t =>
    let d := Config.preemptDeadline s.draw
    { s with draw := s.draw + 1 }.later (.event (.preemptRequest t (if d = 0 then 1 else d)))
  | none => s

/-- The launch of an id for a task entry index (R389). -/
def State.launchAt (s : State) (id : BitVec 32) (idx : Nat) : Option Launch :=
  s.sup.launches.find? fun l => decide (l.id = id ∧ l.idx = idx)

/-- Change a launch record. -/
def State.onLaunch (s : State) (id : BitVec 32) (idx : Nat) (f : Launch → Launch) : State :=
  { s with sup := { s.sup with launches := s.sup.launches.map fun l => if l.id = id ∧ l.idx = idx then f l else l } }

/-- The task entry index is free: no task there, and no launch admitted to it. -/
def State.indexFree (s : State) (task : Nat) : Bool :=
  decide (task < 64 ∧ (s.taskAt task).phase = .idle) && !s.sup.launches.any fun l => decide (l.task = some task)

/-- The launch id that a packet carries. -/
def launchId (p : Packet) : BitVec 32 := p.va.setWidth 32

/-- The task entry index that an arm carries (R204). -/
def armIdx (p : Packet) : Nat := ofLeBytes p.data / 65536 % 64

/-- The VR id of this chip's supervisor (R204). -/
def State.supId (s : State) : Nat := 0xFF000 + s.endpoint.toNat

/-- The endpoint of a supervisor's packet. -/
def supEp (p : Packet) : Nat := p.srcvr.toNat - 0xFF000

/-- Send an arm reply (R203). -/
def State.armAnswer (s : State) (p : Packet) (st : BitVec 7) : State := s.supSend (supEp p) 0x21 ((launchId p).setWidth 56) st []

/-- Arm an admitted launch: its binds are written, its strands stay dormant; what the reply says (R203, R212, R396). (log 72, DEDUCED) -/
def State.armTask (s : State) (l : Launch) (task : Nat) : State × BitVec 7 :=
  let resident := match s.vrAt l.vr with | some v => (match v.moving with | .no | .arriving _ => true | _ => false) | none => false
  if s.tasks.any (fun e => decide (e.2.phase = .armed ∧ e.2.launch ≠ l.id)) then (s, 1)
  else if (s.taskAt task).phase = .armed then (s, 0)
  else if !(s.taskAt task).valid ∨ !resident then (s, 2)
  else
    match s.bindAll l.binds with
    | (s, false) => (s, 2)
    | (s1, true) =>
      if s1.allBound task then
        ((s1.invalidate (invNames (.fn (s1.taskAt task).fn))).onTask task fun t =>
          { t with phase := .armed, launch := l.id, armedAt := s.cycle.toNat }, 0)
      else (s, 2)

/-- An arm is judged, or held until its launch is admitted; one of a launch that ended here is refused (R203, R401). (log 71, DEDUCED) -/
def State.doArm (s : State) (p : Packet) : State :=
  let id := launchId p
  let idx := armIdx p
  match s.launchAt id idx with
  | some l =>
    match l.task with
    | some t => let (s, st) := s.armTask l t; s.armAnswer p st
    | none => { s with sup := { s.sup with waitArm := s.sup.waitArm ++ [(p, s.cycle.toNat)] } }
  | none =>
    if s.sup.ended.contains (id, idx) then s.armAnswer p 2
    else { s with sup := { s.sup with waitArm := s.sup.waitArm ++ [(p, s.cycle.toNat)] } }

/-- Arms that waited for a launch's admission are judged (R203, R401). -/
def State.answerArms (s : State) (id : BitVec 32) (idx : Nat) : State :=
  let mine (w : Packet × Nat) : Bool := decide (launchId w.1 = id ∧ armIdx w.1 = idx)
  (s.sup.waitArm.filter mine).foldl (fun s w => s.doArm w.1)
    { s with sup := { s.sup with waitArm := s.sup.waitArm.filter fun w => !mine w } }

/-- ADMIT_STEP_TASK: the next launch is admitted to the index its member list names here, when its power fits, its clusters are free and its VR can be active; else a task of lower priority gives way (R103, R215, R225, R401). -/
def execAdmitStepTask (task : Nat) (binds : List (Nat × Word)) (s : State) : Res :=
  .next (
    match s.nextLaunch with
    | none => s
    | some l =>
      match s.vrAt l.vr with
      | none => s
      | some v =>
        if l.idx ≠ task ∨ !s.indexFree task then s
        else if !s.bindsFree v.fn binds || !s.powerOk (peakOf l.phases) then s.makeRoom l.prio
        else
          match s.warm l.vr with
          | none => s
          | some s1 =>
            match s1.slotWrite (288 + task) (mkEntry v.m l.prio v.fn l.step l.vr l.cpa l.wdog) with
            | (s, some _) => s
            | (s, none) => (s.onLaunch l.id l.idx fun l => { l with task := some task, binds := binds }).answerArms l.id l.idx)

/-- SPAWN_ADMIT: after the spawning task's record with status 0x00 its template's task is bound and started in its turn, when the admitted peaks leave it power; a task of lower priority gives way (R103, R215, R225, R284; log 96, DESIGN CHOICE). -/
def execSpawnAdmit (vr task : Nat) (binds : List (Nat × Word)) (s : State) : Res :=
  .next (
    match s.nextSpawned with
    | none => s
    | some x =>
      match s.vrAt vr with
      | none => s
      | some v =>
        let s1 := { s with sup := { s.sup with spawned := s.sup.spawned.erase x } }
        match (templates v.image)[x.req.t]? with
        | none => s1
        | some tm =>
          if x.vr ≠ vr ∨ !s.indexFree task then s
          else if !s.bindsFree v.fn binds || !s.powerOk (0, 1) then s.makeRoom tm.slot
          else
            match s1.warm vr with
            | none => s
            | some s1 =>
              match s1.slotWrite (288 + task) (mkEntry v.m tm.slot v.fn (x.req.step + 1) vr 0 (BitVec.ofNat 32 tm.wdog)) with
              | (_, some _) => s
              | (s2, none) =>
                let s2 := s2.onTask task fun t => { t with sparg := x.req.arg, spawn := some ⟨x.req.t, x.req.arg, x.req.lcore⟩, launch := 0 }
                match s2.bindAll binds with
                | (s2, true) => if s2.allBound task then (s2.invalidate (invNames (.fn v.fn))).startGang task (some x.req.t) else s
                | (_, false) => s)

/-! ## Packets between supervisors (R203 to R205) -/

/-- The task that is armed or running for a launch. -/
def State.taskFor (s : State) (id : BitVec 32) (ph : TPhase → Bool) : Option Nat :=
  (s.tasks.find? fun e => ph e.2.phase && decide (e.2.launch = id) && e.2.spawn.isNone).map (·.1)

/-- Remove a launch and remember that it ended here. -/
def State.dropLaunch (s : State) (id : BitVec 32) (idx : Nat) : State :=
  { s with sup := { s.sup with
      launches := s.sup.launches.filter fun l => !decide (l.id = id ∧ l.idx = idx)
      ended := (id, idx) :: s.sup.ended } }

/-- Discard an arm: binds, entry and launch (R203). -/
def State.disarm (s : State) (task : Nat) : State :=
  let id := (s.taskAt task).launch
  { s with
    binds := s.binds.filter fun e => decide (bindTask e.2 ≠ task)
    tasks := sset Task.init s.tasks task Task.init }.dropLaunch id task

/-- Send a packet without payload to every member of a launch (R203, R205). -/
def State.toMembers (s : State) (members : List (Nat × Nat)) (op : BitVec 8) (id : BitVec 32) : State :=
  members.foldl (fun s m => s.supSend m.1 op (id.setWidth 56) 0 []) s

/-- The result of an arming is known: anything but 0 aborts it everywhere; varm goes on (R203, R290). -/
def State.armResult (s : State) (id : BitVec 32) (r : Nat) : State :=
  match s.sup.arming.find? fun a => decide (a.launch = id) with
  | none => s
  | some a =>
    let s := { s with sup := { s.sup with arming := s.sup.arming.map fun (a : Arming) => if a.launch = id then { a with result := some r } else a } }
    (if r = 0 then s else s.toMembers a.members 0x23 id).supGoes

/-- An arm reply is recorded (R203, R290). -/
def State.doArmReply (s : State) (p : Packet) : State :=
  let id := launchId p
  match s.sup.arming.find? fun a => decide (a.launch = id) && a.result.isNone with
  | none => s
  | some a =>
    let rs := a.replies ++ [(supEp p, 0, p.sub)]
    let s := { s with sup := { s.sup with arming := s.sup.arming.map fun (x : Arming) => if x.launch = id then { x with replies := rs } else x } }
    if rs.any fun r => decide (r.2.2 ≠ 0) then s.armResult id 2
    else if a.members.all fun m => decide ((a.members.filter fun x => decide (x.1 = m.1)).length ≤
        (rs.filter fun r => decide (r.1 = m.1)).length) then s.armResult id 0
    else s

/-- go: an armed gang starts, one for each go; a member that holds no arm answers lost (R203, R205, R389). -/
def State.doGo (s : State) (p : Packet) : State :=
  match s.taskFor (launchId p) fun x => decide (x = .armed) with
  | some t => s.startGang t none
  | none => s.supSend (supEp p) 0x24 p.va 0 []

/-- A launch that has not started here ends: its arm is discarded, its entry freed (R203, R400). -/
def State.undoLaunch (s : State) (l : Launch) : State :=
  match l.task with
  | some t =>
    if (s.taskAt t).phase = .armed then s.disarm t
    else if (s.taskAt t).phase = .idle then { s with tasks := sset Task.init s.tasks t Task.init }.dropLaunch l.id l.idx
    else s
  | none => s.dropLaunch l.id l.idx

/-- abort: the member discards its arms, its held arms and its launches of that id (R203). -/
def State.doAbort (s : State) (p : Packet) : State :=
  let id := launchId p
  let s := { s with sup := { s.sup with waitArm := s.sup.waitArm.filter fun w => decide (launchId w.1 ≠ id) } }
  (s.sup.launches.filter fun l => decide (l.id = id)).foldl State.undoLaunch s

/-- lost: the collective engines of the launch's task mark the peer lost, and PEER_FAILURE follows: the initiator tells every member once, others have been told; the step task ends (R205, R383). -/
def State.doLost (s : State) (p : Packet) : State :=
  let id := launchId p
  let mine := s.tasks.filter fun e => decide ((e.2.phase = .running ∨ e.2.phase = .preempted) ∧ e.2.launch = id) && e.2.spawn.isNone
  let s := mine.foldl (fun (s : State) e =>
    (s.lcsOf e.1).foldl (fun (s : State) lc => s.loseColl lc) (s.onTask e.1 fun t => { t with lost := true })) s
  let s := if s.sup.arming.any (fun a => decide (a.launch = id) && a.gone) ∨ s.sup.lostSent.contains id then s
    else { s with sup := { s.sup with lostSent := id :: s.sup.lostSent } }
  (s.later (.event (.peerFailure id)))

/-- What a supervisor's packet does (R203, R205, R231). -/
def State.supAct (s : State) (p : Packet) : State :=
  match p.op.toNat with
  | 0x20 => s.doArm p
  | 0x21 => s.doArmReply p
  | 0x22 => s.doGo p
  | 0x23 => s.doAbort p
  | 0x24 => s.doLost p
  | 0x30 => s.triggerSnap (p.va.setWidth 16)
  | _ => s

/-- What the supervisor keeps for a source supervisor (R204). -/
def State.supWin (s : State) (src : Nat) : SrcWin := sget SrcWin.init s.sup.srcs src

/-- Change it. -/
def State.onSupWin (s : State) (src : Nat) (f : SrcWin → SrcWin) : State :=
  { s with sup := { s.sup with srcs := smod SrcWin.init s.sup.srcs src f } }

/-- Perform a supervisor's packet: recorded, acknowledged, then its effect (R197, R204). -/
def State.supDo (s : State) (p : Packet) : State :=
  let s := (s.unhold p).onSupWin p.srcvr.toNat fun w =>
    { w.resolved p.cls.toNat p.cseq with recs := sset none w.recs p.pseq.toNat (some ⟨true, 0, []⟩) }
  (s.answer p 0 0 0 0 none).supAct p

/-- Packets of a source supervisor that waited for their order (R196, R204). -/
def State.supDrain (src : Nat) : Nat → State → State
  | 0, s => s
  | k + 1, s =>
    match s.hold.find? fun h => decide (h.p.srcvr.toNat = src ∧ h.p.dstvr.toNat = s.supId) &&
        decide ((s.supWin src).place h.p.cls.toNat h.p.cseq = 0) with
    | some h => State.supDrain src k (s.supDo h.p)
    | none => s

/-- A packet of the supervisors has its form: ids, token, payload (R204). -/
def State.supFormed (s : State) (p : Packet) : Bool :=
  decide (p.dstvr.toNat = s.supId ∧ 0xFF000 ≤ p.srcvr.toNat ∧ p.token = 0) &&
    (if p.op = 0x20 then decide (p.data.length = 8 ∧ ofLeBytes p.data / 65536 % 64 * 65536 = ofLeBytes p.data) else p.data.isEmpty)

/-- A supervisor's packet arrives: duplicate test, order, then its effect (R196, R197, R204). -/
def State.supArrive (s : State) (p : Packet) : State :=
  if !s.supFormed p then { s with portDrops := s.portDrops + 1 }
  else
    let src := p.srcvr.toNat
    let w := s.supWin src
    let fresh : State :=
      match w.place p.cls.toNat p.cseq with
      | 0 => State.supDrain src (s.hold.length + 1) ((s.onSupWin src fun w => w.accept p.pseq).supDo p)
      | 1 =>
        if 2048 ≤ s.heldOn p.die then s.answer p 7 0 0 0 none
        else { s.onSupWin src fun w => w.accept p.pseq with hold := s.hold ++ [⟨p, s.cycle.toNat, false⟩] }
      | _ => s
    if seqAbove w.high p.pseq then fresh
    else if seqIn w.high p.pseq then
      match sget none w.recs p.pseq.toNat with
      | none => fresh
      | some d => if d.done then s.answer p d.status 0 0 0 none else s
    else s

/-- ARM (R203, R401). -/
def execArm (p : Packet) (s : State) : Res := .next (s.supArrive p)
/-- ARM_REPLY (R203). -/
def execArmReply (p : Packet) (s : State) : Res := .next (s.supArrive p)
/-- GO (R203). -/
def execGo (p : Packet) (s : State) : Res := .next (s.supArrive p)
/-- LAUNCH_ABORT (R203). -/
def execLaunchAbort (p : Packet) (s : State) : Res := .next (s.supArrive p)
/-- LOST (R205). -/
def execLost (p : Packet) (s : State) : Res := .next (s.supArrive p)
/-- SNAPSHOT_TRIGGER (R204, R231). -/
def execSnapshotTrigger (p : Packet) (s : State) : Res := .next (s.supArrive p)

/-- The window that a packet's destination keeps for its source: a VR's, or the supervisor's (R196, R204). -/
def State.winFor (s : State) (p : Packet) : SrcWin := if p.dstvr.toNat = s.supId then s.supWin p.srcvr.toNat else s.srcAt p.dstvr.toNat p.srcvr.toNat

/-- HOLD_STORE_ABANDON (R196): for a VR's packet, or a supervisor's (R204). -/
def execHoldStoreAbandon (src dst : Nat) (pseq : BitVec 32) (s : State) : Res :=
  .next (
    match s.hold.find? fun h => !h.past && decide (h.p.srcvr.toNat = src ∧ h.p.dstvr.toNat = dst ∧ h.p.pseq = pseq) with
    | some h =>
      if s.cycle.toNat < h.at_ + 2 ^ 20 then s
      else if dst = s.supId then
        if (s.supWin src).place h.p.cls.toNat h.p.cseq ≠ 1 then s else
        let gone := s.missingBefore (s.supWin src) h.p
        State.supDrain src s.hold.length (s.onSupWin src fun w => w.abandoned h.p.cls.toNat gone)
      else s.abandon h
    | none => s)

/-- ARM_TIMEOUT (R203, R290). -/
def execArmTimeout (launch : BitVec 32) (s : State) : Res :=
  .next (
    match s.sup.arming.find? fun a => decide (a.launch = launch) with
    | some a => if a.result.isNone ∧ a.until_ ≤ s.cycle.toNat then s.armResult launch 1 else s
    | none => s)

/-- ARM_EXPIRY (R203): an arm held 2^26 cycles without a go, or without its launch's admission, is discarded. -/
def execArmExpiry (launch : BitVec 32) (s : State) : Res :=
  .next (
    let old (n : Nat) : Bool := decide (n + 2 ^ 26 ≤ s.cycle.toNat)
    let s := { s with sup := { s.sup with waitArm := s.sup.waitArm.filter fun w => !(decide (launchId w.1 = launch) && old w.2) } }
    (s.tasks.filter fun e => decide (e.2.phase = .armed ∧ e.2.launch = launch) && old e.2.armedAt).foldl (fun s e => s.disarm e.1) s)

/-- The members of a launch that this supervisor knows. -/
def State.membersOf (s : State) (id : BitVec 32) : List (Nat × Nat) :=
  match s.sup.launches.find? fun l => decide (l.id = id) with
  | some l => l.members
  | none => match s.sup.arming.find? fun a => decide (a.launch = id) with
    | some a => a.members
    | none => []

/-- PEER_FAILURE (R205): after go, lost goes once to every member; a step task here whose launch has lost a member ends with PEER_LOST, source class 8. -/
def execPeerFailure (launch : BitVec 32) (s : State) : Res :=
  .next (
    let gone := (s.sup.arming.any fun a => decide (a.launch = launch) && a.gone) ||
      (s.taskFor launch fun x => decide (x = .running ∨ x = .preempted ∨ x = .stopping)).isSome
    let s := if gone ∧ !s.sup.lostSent.contains launch then
        { s with sup := { s.sup with lostSent := launch :: s.sup.lostSent } }.toMembers (s.membersOf launch) 0x24 launch
      else s
    (s.tasks.filter fun e => e.2.lost && decide (e.2.launch = launch)).foldl (fun s e => s.stopTask e.1 cPeerLost 8) s)

/-! ## varm and vgo (R290) -/

/-- Only the supervisor executes these words (R253), and not inside an open region (R44). -/
def State.supChk (s : State) (srcs : List Reg) : Option Trap :=
  (chk (decide (s.cur ≠ supRef)) cPriv).or <| (chk s.me.region cRegion).or (s.me.chkPois srcs)

/-- The member list at a physical address: endpoint and task entry index of each; none when a zero field is nonzero (R290). -/
def memberList (m : Mem) (pa : Nat) : Nat → Option (List (Nat × Nat))
  | 0 => some []
  | k + 1 =>
    let e := m.read pa 8
    if e % 4096 + e / 65536 % 64 * 65536 ≠ e then none
    else (memberList m (pa + 8) k).map fun l => (e % 4096, e / 65536 % 64) :: l

/-- Send the arms of a launch (R203). -/
def State.sendArms (s : State) (id : BitVec 32) (timeout : Nat) (ms : List (Nat × Nat)) : State :=
  let s := { s with sup := { s.sup with
    arming := (s.sup.arming.filter fun a => decide (a.launch ≠ id)) ++
      [{ launch := id, members := ms, replies := [], until_ := s.cycle.toNat + 1000 * timeout, result := none, told := false, gone := false }] } }
  ms.foldl (fun s m => s.supSend m.1 0x20 (id.setWidth 56) 0 (leBytes 8 (m.2 * 65536))) s

/-- varm: arms go out once; the strand blocks until the result is known (R290). -/
def execVarm (d a b : Reg) (s : State) : Res :=
  .next (s.checked 3 (s.supChk [a, b]) fun s =>
    let x := s.me.reg a
    let id : BitVec 32 := x.setWidth 32
    let timeout := (x.extractLsb' 48 16).toNat
    let wait (s : State) : State := { s.block with waits := s.waits ++ [.sup (.varm d a b)] }
    match s.sup.arming.find? fun r => decide (r.launch = id) && !r.told with
    | some r =>
      match r.result with
      | some v => ({ s with sup := { s.sup with arming := s.sup.arming.map fun (x : Arming) =>
          if x.launch = id then { x with told := true } else x } }).fin fun t => t.setReg d (BitVec.ofNat 64 v)
      | none => wait s
    | none =>
      if x.extractLsb' 42 6 ≠ 0 ∨ timeout = 0 ∨ (s.me.reg b).toNat % 8 ≠ 0 then s.fin fun t => t.setReg d 3
      else
        match memberList s.mem (s.me.reg b).toNat ((x.extractLsb' 32 10).toNat + 1) with
        | none => s.fin fun t => t.setReg d 3
        | some ms => wait (s.sendArms id timeout ms))

/-- vgo (R290). -/
def execVgo (d a : Reg) (s : State) : Res :=
  .next (s.checked 3 (s.supChk [a]) fun s =>
    let id : BitVec 32 := (s.me.reg a).setWidth 32
    match s.sup.arming.find? fun r => decide (r.launch = id) && decide (r.result = some 0) && r.told && !r.gone with
    | some r =>
      let s := { s with sup := { s.sup with arming := s.sup.arming.map fun (x : Arming) => if x.launch = id then { x with gone := true } else x } }
      (s.toMembers r.members 0x22 id).fin fun t => t.setReg d 0
    | none => s.fin fun t => t.setReg d 3)

/-- Where the supervisor keeps a member list: slice 127 is its own (R216; log 46, DESIGN CHOICE). -/
def memberArea : Nat := 127 * 0xC0000000

/-- The supervisor sets s1 and s2 and the member list for a launch that it initiates (R290, R401). -/
def State.readyVarm (s : State) (id : BitVec 32) : State :=
  match s.sup.launches.find? fun l => decide (l.id = id) with
  | none => s
  | some l =>
    let tm := Config.armTimeout s.draw
    let w : Word := (if tm = 0 then (1 : BitVec 16) else tm) ++ (0 : BitVec 6) ++ BitVec.ofNat 10 (l.members.length - 1) ++ id
    { s.onStrand supRef.key fun t => (t.setReg 1 w).setReg 2 (BitVec.ofNat 64 memberArea) with
      mem := s.mem.setBytes memberArea (l.members.flatMap fun m => leBytes 8 (m.1 + m.2 * 65536))
      draw := s.draw + 1
      cur := supRef }

/-- The supervisor names the launch in s1 (R290). -/
def State.readyVgo (s : State) (id : BitVec 32) : State :=
  { s.onStrand supRef.key fun t => t.setReg 1 (id.setWidth 64) with cur := supRef }

/-! ## Resuming a gang (R46, R47) -/

/-- A pre-empted gang may come back: no step task of higher priority waits, and its planned peak fits (R46, R215, R225). -/
def State.mayResume (s : State) (task : Nat) : Bool :=
  decide ((s.taskAt task).phase = .preempted) && !(s.queued.any fun x => decide ((s.taskAt task).prio < x.1)) &&
    s.powerOk (match s.launchOf task with | some l => peakOf l.phases | none => (0, 1))

/-- GANG_RESUME: the gang is bound afresh; yielded strands go on, sys.preq reads zero (R46, R47, R225). -/
def execGangResume (task : Nat) (binds : List (Nat × Word)) (s : State) : Res :=
  .next (
    if !s.mayResume task then s
    else
      match s.bindAll binds with
      | (s, false) => s
      | (s1, true) =>
        if !s1.allBound task then s
        else
          let s1 := ((s1.coresOf task).foldl (fun s c => s.prepareCore task c) s1).chargeGang task
          let f : Nat → Strand → Strand := fun k t => if k / 1152 = task ∧ t.status = .yielded then { t with status := .ready } else t
          ({ s1 with strands := smapAll Strand.init f s1.strands }.onTask task fun t =>
            { t with phase := .running, preq := false, deadline := 0, reqAt := 0 }))

/-! ## Relaying signals (R284, R285, R395) -/

/-- Write an event record to ring 2 of a function. -/
def State.eventPut (s : State) (fn : Nat) (r : List Word) : State :=
  s.ringPut fn 2 (r.getD 0 0) (r.getD 1 0) (r.getD 2 0) (r.getD 3 0)

/-- SIGNAL_RELAY: the oldest completion report, or signal, whose event ring has room is written; the rest wait (R285, R395). -/
def execSignalRelay (s : State) : Res :=
  .next (
    match s.fns.find? fun e => !e.2.events.isEmpty && (e.2.ring 2).room with
    | some (fn, f) => (s.onFn fn fun f => { f with events := f.events.tail }).eventPut fn (f.events.headD [])
    | none =>
      match s.sup.signals.find? fun g => ((s.fnAt g.2).ring 2).room with
      | some g => ({ s with sup := { s.sup with signals := s.sup.signals.erase g } }.eventPut g.2 g.1)
      | none => s)

end Sys2Proof.Machine
end

