-- ==== Sys2Proof/Machine/Link.lean ====
section
/-! DEFINITION. Machine/Link.lean: flits that arrive at a port, replay, dead ports (R180, R181), wavelengths (R182 to R184), packets put together or passed on (R186, R187), and the register writes of the supervisor (R184, R185, R194, R218, R391, R392, R395). -/

namespace Sys2Proof.Machine

/-! ## Dead ports (R181, R198) -/

/-- A port's traffic is lost: what it keeps goes, so that no flit before the next one awaits an acknowledgement, and every packet that awaits its answer on it is sent again on its next path (R181, R185, R198). -/
def State.portLost (s : State) (q : Nat) : State :=
  let s := s.onPort q fun p => { p with replay := [], parts := [], acked := p.tx - 1 }
  (s.unacked.filter fun u => decide (u.port = q) && !u.busy && !u.got).foldl (fun s u => s.resend u.expired) s

/-- Declare a port dead (R181). -/
def State.portDies (s : State) (q : Nat) : State := (s.onPort q fun p => { p with dead := true }).portLost q

/-- The endpoint at the other end of a port's circuit, as the route table has it (R185). -/
def State.neighbour (s : State) (q : Nat) : Nat := ((s.route.find? fun e => e.2.getLsbD 63 && e.2.getLsbD q).map (·.1)).getD 0

/-- A link control flit announces the port's mode to the other end; it is charged to the base (R182, R224; log 79, DESIGN CHOICE). -/
def State.announce (s : State) (q : Nat) : State :=
  let p := s.portAt q
  let to_ : Packet := { blankPacket 0 0 (s.neighbour q) 0 0 with srcEp := s.endpoint }
  let b := mkFlit 3 to_ 0 p.tx p.rx (creditField p.owed) (leBytes 192 (Config.linkControl p.mode).toNat)
  { s.onPort q fun o => { o with tx := o.tx + 1, replay := o.replay ++ [⟨p.tx, ⟨0xFF000, none⟩, b⟩], owed := payCredits o.owed,
                                 since := if o.replay.isEmpty then s.cycle.toNat else o.since } with
    sent := if p.replay.length < 512 then s.sent ++ [Sent.flit q b] else s.sent }

/-- The mode that a link control flit of the other end announces (R182). -/
def modeOf (payload : List Byte) : Option Nat := [8, 7, 4].find? fun m => decide (leBytes 192 (Config.linkControl m).toNat = payload)

/-- Change a port's wavelengths: a mode change is announced, and a port without enough wavelengths is dead (R182). -/
def State.changePort (s : State) (q : Nat) (f : Port → Port) : State :=
  let s1 := s.onPort q f
  if (s1.portAt q).mode = (s.portAt q).mode then s1
  else if (s1.portAt q).isDead then s1.portLost q
  else s1.announce q

/-! ## Counters of a wavelength (R184) -/

/-- The wavelengths that a mode uses, ascending: in 4-wavelength mode the four lowest healthy ones (R182). -/
def Port.used (p : Port) (mode : Nat) : List Nat := ((List.range 8).filter fun j => decide (p.lane j = 1)).take mode

/-- The bytes of a flit that one wavelength carries (R182). -/
def stripeWidth (mode : Nat) : Nat := 224 / mode

/-- The wavelength that carries byte `b` of a flit of the other end, in the mode it has announced (R182). -/
def Port.waveOf (p : Port) (b : Nat) : Option Nat := (p.used p.peer)[b / stripeWidth p.peer]?

/-- Change a wavelength. -/
def Port.onWave (p : Port) (j : Nat) (f : Wave → Wave) : Port := { p with waves := smod ⟨0, 0⟩ p.waves j f }

/-- Add to a saturating field of a counter register. -/
def addField (w : Word) (lo n : Nat) (by_ : Nat) : Word :=
  let x := Nat.min (2 ^ n - 1) (w.toNat / 2 ^ lo % 2 ^ n + by_)
  BitVec.ofNat 64 (w.toNat - w.toNat / 2 ^ lo % 2 ^ n * 2 ^ lo + x * 2 ^ lo)

/-- Count a discarded flit against a wavelength. -/
def Port.badFlit (p : Port) (j : Nat) : Port := p.onWave j fun w => { w with cnt := addField w.cnt 32 16 1 }

/-- Set a wavelength's code: 00 off, 01 active, 10 retraining, 11 failed. -/
def Port.setLane (p : Port) (j c : Nat) : Port := { p with lanes := BitVec.ofNat 16 (p.lanes.toNat - p.lane j * 4 ^ j + c * 4 ^ j) }

/-! ## Acknowledgement and replay (R181) -/

/-- An acknowledgement frees the flits up to it; those that were waiting for room go out. -/
def State.linkAck (s : State) (q : Nat) (ack : BitVec 16) : State :=
  let p := s.portAt q
  let d := (ack - p.acked).toNat
  if d = 0 ∨ Nat.min 512 p.replay.length < d then s
  else
    { s.onPort q fun p => { p with acked := ack, replay := p.replay.drop d, since := s.cycle.toNat } with
      sent := s.sent ++ ((p.replay.drop 512).take d).map fun (f : Flit) => Sent.flit q f.bytes }

/-- LINK_REPLAY: the flits from the requested lseq onwards go out again in their order (R181). -/
def execLinkReplay (port : Nat) (lseq : BitVec 16) (s : State) : Res :=
  .next (
    let p := s.portAt port
    let n := (lseq - p.acked - 1).toNat
    if p.isDead then s
    else
      let again := (p.replay.take 512).drop n
      again.foldl (fun s f => s.chargeFlit f.payer 1) { s with sent := s.sent ++ again.map fun (f : Flit) => Sent.flit port f.bytes })

/-- ACK_TIMEOUT: no acknowledgement for 2^20 cycles while flits are outstanding (R181). -/
def execAckTimeout (port : Nat) (s : State) : Res :=
  .next (
    let p := s.portAt port
    if !p.isDead && !p.replay.isEmpty && decide (p.since + 2 ^ 20 ≤ s.cycle.toNat) then (s.portDies port) else s)

/-! ## Packets (R186, R187) -/

/-- A packet is complete: for this chip its step follows; with hop 01 it is passed on over a live direct port, setting no further hop; else it is discarded and counted (R186). (log 78, DEDUCED) -/
def State.deliver (s : State) (q h0 : Nat) (bs : List Byte) (rem : Nat) : State :=
  let drop : State := { s with portDrops := s.portDrops + 1 }
  match parsePacket h0 bs rem with
  | none => drop
  | some p =>
    let p := { p with die := q / 16 }
    if p.dstEp = s.endpoint then
      match arrivalStep p with
      | some i => s.later (.event i)
      | none => drop
    else if p.hop = 1 then
      match s.directPorts p.dstEp.toNat (pathHash p.srcvr.toNat p.dstvr.toNat p.cls.toNat) with
      | q :: _ => s.transmit none q 0 p
      | [] => drop
    else drop

/-- Charge the VR of its destination for a flit that is accepted; `b` holds the flit's packet from its header word on (R224). -/
def State.chargeIn (s : State) (b : List Byte) : State := s.charge ⟨bitsOf (ofLeBytes ((b.drop 16).take 8)) 20 20, none⟩ 26900

/-- The flits of a vc's packet so far, kept as the first flit's header word and all payloads: one more joins, and a packet with all its flits is delivered (R180, R187). -/
def State.flitJoins (s : State) (q h0 : Nat) (first : Bool) (payload : List Byte) : State :=
  let vc := bitsOf h0 28 2
  let rem := bitsOf h0 16 8
  let old := sget [] (s.portAt q).parts vc
  let keep (s : State) (b : List Byte) : State := s.onPort q fun p => { p with parts := sset [] p.parts vc b }
  let lose (s : State) : State := { keep s [] with portDrops := s.portDrops + 1 }
  let take (s : State) (b : List Byte) : State :=
    let s := if bitsOf (ofLeBytes (b.take 8)) 44 12 = s.endpoint.toNat then s.chargeIn b else s
    if rem = 0 then
      let h := ofLeBytes (b.take 8)
      (keep s []).deliver q h (b.drop 8) (bitsOf h 16 8)
    else keep s b
  if first then take (if old.isEmpty then s else lose s) (leBytes 8 h0 ++ payload)
  else if old.isEmpty ∨ bitsOf (ofLeBytes (old.take 8)) 16 8 ≠ (old.length - 8) / 192 + rem then lose s
  else take s (old ++ payload)

/-! ## A flit arrives (R180, R181) -/

/-- The flit's check holds and its last bytes are zero (R180). -/
def flitChecks (bs : List Byte) : Bool :=
  decide (bs.length = 224 ∧ (crc64 (bs.take 208)).toNat = ofLeBytes ((bs.drop 208).take 8)) && (bs.drop 216).all fun b => decide (b = 0)

/-- The flit header has a kind, a hop and zero fields (R180). -/
def flitFormed (h0 h1 : Nat) : Bool := decide (bitsOf h0 56 8 ≤ 3 ∧ bitsOf h0 30 2 ≤ 1 ∧ bitsOf h0 24 4 = 0 ∧ bitsOf h1 0 32 = 0)

/-- A flit failed its check: counted against the wavelength, replay requested; the eighth failure in succession of one flit, told by the lseq it came with, kills the port (R180, R181; log 106, DESIGN CHOICE). -/
def State.flitFails (s : State) (q wave : Nat) (bs : List Byte) : State :=
  let lseq := ofLeBytes (bs.take 2)
  let s := s.onPort q fun p => { p.badFlit wave with fails := smod 0 p.fails lseq (· + 1) }
  if 8 ≤ sget 0 (s.portAt q).fails lseq then s.portDies q else { s with sent := s.sent ++ [Sent.replay q ((s.portAt q).rx + 1)] }

/-- A flit in its order is taken: the credits it returns count, and one of its vc will be returned (R180, R181; log 105, DESIGN CHOICE). -/
def Port.takes (p : Port) (lseq : BitVec 16) (h0 h1 : Nat) : Port :=
  let back := (List.range 4).foldl (fun m vc => smod 0 m vc fun n => n + bitsOf h1 (32 + 4 * vc) 4) p.credit
  { p with rx := lseq, credit := back,
           owed := if bitsOf h0 56 8 = 1 ∨ bitsOf h0 56 8 = 2 then smod 0 p.owed (bitsOf h0 28 2) (· + 1) else p.owed }

/-- A good flit: the failures of its lseq are not in succession with a later one, its acknowledgement counts; the next lseq in order is taken, a later one is asked for again, an earlier one was taken before (R180, R181). (log 77, DEDUCED) -/
def State.flitGood (s : State) (q wave : Nat) (bs : List Byte) : State :=
  let h0 := ofLeBytes (bs.take 8)
  let h1 := ofLeBytes ((bs.drop 8).take 8)
  let ok := flitFormed h0 h1
  let s := s.onPort q fun p => { p with fails := sset 0 p.fails (bitsOf h0 0 16) 0 }
  let s := if ok then s.linkAck q (BitVec.ofNat 16 (bitsOf h1 48 16)) else s
  let lseq := BitVec.ofNat 16 (bitsOf h0 0 16)
  let rx := (s.portAt q).rx
  if lseq = rx + 1 then
    let s := s.onPort q fun p => p.takes lseq h0 h1
    if !ok then s.onPort q fun p => p.badFlit wave
    else
      match bitsOf h0 56 8 with
      | 1 => s.flitJoins q h0 true ((bs.drop 16).take 192)
      | 2 => s.flitJoins q h0 false ((bs.drop 16).take 192)
      | 3 => match modeOf ((bs.drop 16).take 192) with
        | some m => s.onPort q fun p => { p with peer := m }
        | none => s
      | _ => s
  else if 1 < (lseq - rx).toNat ∧ (lseq - rx).toNat < 2 ^ 15 then { s with sent := s.sent ++ [Sent.replay q (rx + 1)] }
  else s

/-- FLIT_RECEIVE: `wave` carried the bytes that fail, where some do (`Port.waveOf`; R180, R181, R182). -/
def execFlitReceive (port wave : Nat) (bytes : List Byte) (s : State) : Res :=
  .next (
    if (s.portAt port).isDead then s
    else if flitChecks bytes then (s.flitGood port wave bytes)
    else (s.flitFails port wave bytes))

/-! ## Wavelengths (R183, R184) -/

/-- An attempt to retrain a wavelength begins (R183, R184). -/
def Port.retrain (p : Port) (j : Nat) : Port := (p.setLane j 2).onWave j fun w => { w with cnt := addField w.cnt 48 16 1 }

/-- FEC_WINDOW_END: the window's corrected bits are counted; above the die's threshold the wavelength retrains (R183, R184). -/
def execFecWindowEnd (port wave corrected : Nat) (s : State) : Res :=
  .next (
    if (s.portAt port).lane wave ≠ 1 then s
    else
      let thr := (sget 1024 s.lanethr (port / 16)).toNat
      let s := s.onPort port fun p => p.onWave wave fun w => { w with cnt := addField w.cnt 0 32 corrected }
      if thr ≠ 0 ∧ thr < corrected then
        (s.changePort port fun p => (p.retrain wave).onWave wave fun w => { w with attempts := 0 })
      else s)

/-- RETRAIN_END: success hands the wavelength back; the third failure in succession makes it failed, and one before it is followed by the next attempt (R183). -/
def execRetrainEnd (port wave : Nat) (ok : Bool) (s : State) : Res :=
  .next (
    if (s.portAt port).lane wave ≠ 2 then s
    else if ok then s.changePort port fun p => (p.setLane wave 1).onWave wave fun w => { w with attempts := 0 }
    else
      let n := (sget ⟨0, 0⟩ (s.portAt port).waves wave).attempts + 1
      if 3 ≤ n then s.changePort port fun p => (p.setLane wave 3).onWave wave fun w => { w with attempts := 0 }
      else s.changePort port fun p => (p.retrain wave).onWave wave fun w => { w with attempts := n })

/-! ## Register writes of the supervisor (R6) -/

/-- FAB_PORTSTAT_WRITE: 01 over 11 re-enables a wavelength; every other write is ignored (R182, R184). -/
def execFabPortstatWrite (port : Nat) (value : Word) (s : State) : Res :=
  .next (s.changePort port fun p => (List.range 8).foldl (fun p j =>
    if p.lane j = 3 ∧ value.toNat / 4 ^ j % 4 = 1 then (p.setLane j 1).onWave j fun w => { w with attempts := 0 } else p) p)

/-- Write an allotment: a balance that is kept stands; with the first limited allotment it starts at that value (R218, R219). (log 70, DESIGN CHOICE) -/
def Fn.setAllot (x : Fn) (r : Nat) (a : BitVec 32) : Fn :=
  { x with
    allot := sset 0xFFFFFFFF x.allot r a
    bal := sset (a.toNat : Int) x.bal r (if x.allotOf r = 0xFFFFFFFF ∨ a = 0xFFFFFFFF then (a.toNat : Int) else x.balOf r) }

/-- A route entry is written: a port that loses its circuit to the endpoint loses what is in flight on it (R185). -/
def State.routeWrite (s : State) (ep : Nat) (value : Word) : State :=
  let bits (w : Word) (q : Nat) : Bool := w.getLsbD 63 && w.getLsbD q
  let old := s.routeOf ep
  let new := value &&& 0xEFFFFFF0FFFFFFFF
  ((List.range 32).filter fun q => bits old q && !bits new q).foldl State.portLost { s with route := sset 0 s.route ep new }

/-- REGISTER_WRITE: by the register's access codes (R184, R185, R194, R211, R218, R391, R392, R395). (log 70, DESIGN CHOICE) A period out of range is refused with index 0 (log 120, DESIGN CHOICE). -/
def execRegisterWrite (reg : SupReg) (value : Word) (s : State) : Res :=
  .next (
    match reg with
    | .lanecnt q j => s.onPort q fun p => { p with waves := smod ⟨0, 0⟩ p.waves j fun w => { w with cnt := value } }
    | .lanethr d => { s with lanethr := sset 1024 s.lanethr d (value.setWidth 16) }
    | .route ep => s.routeWrite ep value
    | .allot f r => s.onFn f fun x => x.setAllot r (value.setWidth 32)
    | .period =>
      let p := value.toNat % 2 ^ 25
      if p < 1024 ∨ 2 ^ 24 < p then s.refuse 10 0
      else { s with period := p, periodAt := (s.cycle.toNat / p + 1) * p }
    | .binderr => if value.getLsbD 16 then { s with binderr := s.binderr &&& 0xFFFF } else s
    | .qbad f q => s.onFn f fun x => if q = 1 then x.onRing 1 fun r => { r with bad := r.bad &&& ~~~(value.setWidth 32) } else x
    | .mbxSt f n => s.onFn f fun x => { x with mbx := smod Mbx.zero x.mbx n fun m => { m with lost := m.lost && !value.getLsbD 8 } }
    | .quarantine v => s.onVr v fun x =>
        let f : Nat → SrcWin → SrcWin := fun _ w => { w with fails := 0, quar := false }
        { x with srcs := smapAll SrcWin.init f x.srcs }
    | .bar4 _ | .unused _ => s)

end Sys2Proof.Machine
end

