-- ==== Sys2Proof/Machine/Move.lean ====
section
/-! DEFINITION. Machine/Move.lean: moving a VR between packages (R206, R290), its pulls at the destination (R106, R207), and refilling a free-page ring (R107). -/

namespace Sys2Proof.Machine

/-! ## Leaving (R206, R290) -/

/-- Some task of the VR is armed or has started and not ended. -/
def State.vrBusy (s : State) (vr : Nat) : Bool := s.tasks.any fun e => decide (e.2.phase ≠ .idle ∧ e.2.vr = vr)

/-- The lowest window that is neither open nor sealed; window 4095 is the supervisor's (R374). -/
def Vr.freeWindow (v : Vr) : Option Nat := (List.range 4095).find? fun n => !winOpen (v.win n) && !winSealed (v.win n)

/-- The migrate-pull leaves that a leaf becomes, one for each of its 64 KiB units (R206): VA page number and bits 11:0. -/
def pullUnits (l : LeafAt) : List (Nat × BitVec 12) :=
  (List.range (1024 ^ l.2.1)).map fun i => (l.1 + i, (0 : BitVec 4) ++ pteRights l.2.2 ++ (5 : BitVec 3))

/-- First and last byte of a VR's ranges: its code and its declared ranges (R206, R237, R386), to whole pages. -/
def spanOfRanges (im : Image) : Nat × Nat :=
  let ends := (codeVa, codeVa + 8 * im.code.length) :: im.gvs.map fun g => (g.va, g.va + g.len)
  (ends.foldl (fun m e => Nat.min m e.1) codeVa / 65536 * 65536, (ends.foldl (fun m e => Nat.max m e.2) 0 + 65535) / 65536 * 65536 - 1)

/-- migr may begin: the VR is here with no task, some window is free, and the other endpoint has a path (R290). (log 80, DEDUCED) -/
def State.canMove (s : State) (vr ep : Nat) : Option (Vr × Nat) :=
  match s.vrAt vr with
  | none => none
  | some v =>
    match v.freeWindow with
    | none => none
    | some w =>
      if v.moving = .no ∧ !s.vrBusy vr ∧ ep ≠ s.endpoint.toNat ∧ s.paths ep (pathHash vr vr 0) ≠ [] then some (v, w) else none

/-- The move begins: a window for the destination's Hornbeam, the context on its way, new arrivals answered busy (R206). What is charged from here on follows the context (R223). -/
def State.beginMove (s : State) (v : Vr) (vr ep w : Nat) : State :=
  let (lo, hi) := spanOfRanges v.image
  let leaves := (s.leavesOf v).flatMap pullUnits
  let v := { v with
    windows := sset 0 v.windows w (mkWin hi (winGen (v.win w)) lo false true 8)
    moving := .leaving ep, acked := 0, remain := leaves.length, failed := false }
  let c : MoveContext :=
    { vr := vr, fn := v.fn, from_ := s.endpoint, image := v.image, consts := v.k, windows := v.windows, key := v.key, seed := v.seed,
      peers := v.peers, leaves := leaves, ipa := v.ipa, ipaEnd := v.ipaEnd, energy := v.energy,
      token := mkToken v.key vr vr (winGen (v.win w)) 8 (BitVec.ofNat 12 w) 0 }
  { s.onVr vr fun _ => { v with energy := 0 } with sent := s.sent ++ [.move ep (.context c)] }

/-- migr (R290). -/
def execMigr (d a b : Reg) (s : State) : Res :=
  .next (s.checked 3 (s.supChk [a, b]) fun s =>
    let vr := (s.me.reg a).toNat % 2 ^ 20
    let ep := (s.me.reg b).toNat % 2 ^ 12
    match s.canMove vr ep with
    | some (v, w) => (s.beginMove v vr ep w).fin fun t => t.setReg d 0
    | none => s.fin fun t => t.setReg d 1)

/-- MIGRATION_DRAIN_END: once every accepted arrival has resolved, the dedup windows and sequences go, and the location entry points at the destination (R206). -/
def execMigrationDrainEnd (vr : Nat) (s : State) : Res :=
  .next (
    match s.vrAt vr with
    | none => s
    | some v =>
      match v.moving with
      | .leaving ep =>
        if s.hold.any fun h => decide (h.p.dstvr.toNat = vr) then s
        else
          let part := MovePart.last vr v.srcs (s.pairs.filter fun e => decide (e.1 / 2 ^ 20 = vr)) v.staged v.energy
          let s := { s.onVr vr fun v => { v with moving := .sent ep, energy := 0 } with
            sent := s.sent ++ [.move ep part]
            location := sset none s.location vr (some ep) }
          if v.remain = 0 then s.freeVr vr else s
      | _ => s)

/-! ## Pulls at the destination (R106, R107, R207) -/

/-- The pull that a page waits for. -/
def State.pullOf (s : State) (vr page : Nat) : Option PFault :=
  s.faults.find? fun f => decide (f.kind = .pull ∧ f.vr = vr ∧ f.page = page)

/-- The bytes of a page, once its 16 packets are there. -/
def Vr.pulled (v : Vr) (page : Nat) : Option (List Byte) :=
  (List.range 16).foldl (fun b i =>
    match b, v.pulls.find? fun x => decide (x.1 = page * 65536 + 4096 * i) with
    | some bs, some x => some (bs ++ x.2)
    | _, _ => none) (some [])

/-- What came for a page goes. -/
def Vr.dropPulls (v : Vr) (page : Nat) : Vr := { v with pulls := v.pulls.filter fun x => decide (x.1 / 65536 ≠ page) }

/-- A pull is refused: the move records its failure, and the page keeps its entry (R106, R207). -/
def State.pullFails (s : State) (vr page : Nat) : State :=
  let s := s.onVr vr fun v => { v.dropPulls page with failed := true }
  match s.pullOf vr page with
  | some f => s.faultRefused f
  | none => s

/-- The next migrate-pull page for the background pulls (R207). -/
def State.nextPull (s : State) (v : Vr) (vr : Nat) : Option (Nat × Word) :=
  ((s.leavesOf v).find? fun l => decide (v.cursor ≤ l.1 ∧ pteType l.2.2 = 2) && (s.pullOf vr l.1).isNone).map fun l => (l.1, l.2.2)

/-- Background pulls in ascending VA order, while fewer than 8 pulls are outstanding (R207). -/
def State.pullOn (vr : Nat) : Nat → State → State
  | 0, s => s
  | k + 1, s =>
    match s.vrAt vr with
    | none => s
    | some v =>
      match v.moving, s.nextPull v vr with
      | .arriving _, some (page, e) =>
        if 8 ≤ (s.faults.filter fun f => decide (f.kind = .pull ∧ f.vr = vr)).length then s
        else
          let a : Acc := { core := none, who := .span, vr := vr, need := rR, source := 7, lcore := 0, join := false }
          State.pullOn vr k
            ((s.enterFault a v (page * 65536) .pull 0 false e []).onVr vr fun v => { v with cursor := page + 1 })
      | _, _ => s

/-- A stage-2 leaf of 64 KiB names another page; the page it named joins the function's ring (R107, R109; log 76, DESIGN CHOICE). -/
def State.restage (s : State) (fn : Nat) (l : Leaf) (pa old : Nat) : State :=
  let e := s.mem.read l.at_ 8
  { s with mem := s.mem.write l.at_ 8 (e / 2 ^ 48 * 2 ^ 48 + pa / 65536 * 65536 + e % 65536) }.onFn fn fun f =>
    if old < 0x6000000000 then { f with free := (f.free ++ [BitVec.ofNat 64 (old / 65536 * 65536)]).take 4096 } else f

/-- A larger stage-2 leaf becomes a table of 1,024 leaves of the next smaller size, in the page `node`: no address translates otherwise (R105, R109; log 76, DESIGN CHOICE). -/
def State.splitLeaf (s : State) (l : Leaf) (node : Nat) : State :=
  let e := s.mem.read l.at_ 8
  let part (i : Nat) : List Byte := leBytes 8 (e + i * 65536 * 1024 ^ (l.lvl - 1))
  { s with mem := (s.mem.setBytes node ((List.range 1024).flatMap part)).write l.at_ 8 (ptrEntry node) }

/-- The 64 KiB stage-2 leaf of an IPA page; larger leaves are split, each with a page that `take` answers (R107, R109; log 76, DESIGN CHOICE). -/
def State.smallLeaf (fn ipa : Nat) (take : State → State × Option Nat) : Nat → State → State × XR Leaf
  | 0, s => (s, .refused ipa)
  | k + 1, s =>
    match s.stage2 (s.fnAt fn) ipa false with
    | .error _ => (s, .refused ipa)
    | .ok l =>
      if l.lvl = 0 then (s, .ok l)
      else
        match take s with
        | (s, some node) => State.smallLeaf fn ipa take k (s.splitLeaf l node)
        | (s, none) => (s, .wait)

/-- Place a pulled page on a page that `take` answers, with the address that its entry names: in a virtual function an IPA page of the VR's range, whose stage-2 leaf then names that page (R107, R109; log 76, DESIGN CHOICE). -/
def State.pullAt (s : State) (v : Vr) (vr va : Nat) (take : State → State × Option Nat) : State × XR (Nat × Nat) :=
  if v.fn = 0 then
    match take s with
    | (s, some pa) => (s, .ok (pa, pa))
    | (s, none) => (s, .wait)
  else
    match s.newPage v with
    | none => (s, .refused va)
    | some (s1, v1, ipa) =>
      match s1.supAddr v1 vr va ipa false with
      | (s2, .refused x) => (s2, .refused x)
      | (s2, .wait) =>
        let w : Turn := .event (.freePageRingRefill v.fn [])
        (if s2.waits.contains w then s2 else { s2 with waits := s2.waits ++ [w] }, .wait)
      | (s2, .ok old) =>
        match State.smallLeaf v.fn ipa take 3 s2 with
        | (s3, .refused x) => (s3, .refused x)
        | (s3, .wait) => (s3, .wait)
        | (s3, .ok l) =>
          match take s3 with
          | (s4, some pa) => ((s4.restage v.fn l pa old).keepIpa v1, .ok (pa, ipa))
          | (s4, none) => (s4, .wait)

/-- An LPDDR6 page of a function, if it has one left. -/
def State.takeLp? (s : State) (fn : Nat) : State × Option Nat :=
  match s.takeLp fn with
  | some (s, pa) => (s, some pa)
  | none => (s, none)

/-- Where a pulled page lands: an HBM4E page of its function's ring, in LPDDR6 for a cold VR (R103, R106, R107). -/
def State.pullPlace (s : State) (v : Vr) (vr va : Nat) : State × XR (Nat × Nat) :=
  if v.cold then (if (s.takeLp v.fn).isNone then (s, .refused va) else s.pullAt v vr va fun s => s.takeLp? v.fn)
  else s.pullAt v vr va fun s => s.takeFree v.fn

/-- A page has landed: written, its entry rewritten, its accesses released, the source told; after the last one the move has ended (R207). -/
def State.pullLands (s : State) (v : Vr) (vr page pa addr : Nat) (f : Found) (bs : List Byte) : State :=
  let e := f.s1.e.toNat % 256 / 8 * 8 + 1 + addr
  let s := s.chargeMem ⟨vr, none⟩ pa 65536 false true
  let s := { s with mem := (s.mem.setBytes pa bs).write f.s1.at_ 8 e, rels := clearRel s.rels pa 65536 }.dropPage vr page
  let s := s.onVr vr fun v =>
    { v.dropPulls page with acked := v.acked + 1, remain := v.remain - 1, moving := if v.remain ≤ 1 then .no else v.moving }
  let s := match s.pullOf vr page with
    | some g => s.faultDone g
    | none => s
  let ack := { pullPacket vr v page f.s1.e with op := 0x2A }
  (s.request none 0 0 0 ack).getD s

/-- Finish a pull whose packets are all there and whose page can be placed (R107, R207). -/
def State.landPull (s : State) (vr page : Nat) : State :=
  match s.vrAt vr with
  | none => s
  | some v =>
    match v.pulled page, s.walkVr v (page * 65536) with
    | some bs, .ok f =>
      if pteType f.s1.e ≠ 2 then s.onVr vr fun v => v.dropPulls page
      else
        match s.pullPlace v vr (page * 65536) with
        | (s, .ok (pa, addr)) => State.pullOn vr 8 (s.pullLands v vr page pa addr f bs)
        | (s, .refused _) => s.pullFails vr page
        | (s, .wait) => s
    | _, _ => s

/-- The pages that packets have come for. -/
def State.pullPages (s : State) : List (Nat × Nat) :=
  s.vrs.flatMap fun e => match e.2 with
    | some v => (v.pulls.map fun x => (e.1, x.1 / 65536)).eraseDups
    | none => []

/-- Finish every pull that can be. -/
def State.landPulls (s : State) : State := s.pullPages.foldl (fun s x => s.landPull x.1 x.2) s

/-- PULL_REQUEST (R207). -/
def execPullRequest (p : Packet) (s : State) : Res := .next (s.arrive p)

/-- PULL_ACKNOWLEDGEMENT (R207). -/
def execPullAcknowledgement (p : Packet) (s : State) : Res := .next (s.arrive p)

/-- All 16 packets of a page are there: its pull request is answered (R207). -/
def State.pullHeard (s : State) (vr page : Nat) : State :=
  match s.vrAt vr with
  | some v =>
    if (v.pulled page).isSome then
      { s with unacked := s.unacked.filter fun u => !decide (u.p.op = 0x28 ∧ u.p.srcvr.toNat = vr ∧ u.p.va.toNat / 65536 = page) }
    else s
  | none => s

/-- PULL_DATA: a packet of a page arrives; or the pull request `p` has ended without an answer, and is refused (R207). -/
def execPullData (p : Packet) (arrived : Bool) (s : State) : Res :=
  .next (
    if arrived then ((s.arrive p).pullHeard p.dstvr.toNat (p.va.toNat / 65536)).landPulls
    else State.pullOn p.srcvr.toNat 8 (s.pullFails p.srcvr.toNat (p.va.toNat / 65536)))

/-! ## Arriving (R206) -/

/-- A VR with its identity and image and nothing else (R27, R92, R114, R394). -/
def newVr (fn root : Nat) (im : Image) (seed : Word) (key : BitVec 128) (ipa ipaEnd : Nat) : Vr :=
  { fn := fn, image := im, m := im.m, quota := im.quota, root := root, seed := seed, key := key, k := [], windows := [],
    peers := [], pfthr := 8, pfblk := 4, energy := 0, srcs := [], staged := [], spawnq := [], moving := .no, acked := 0, remain := 0,
    failed := false, ipa := ipa, ipaEnd := ipaEnd, migtok := 0, pulls := [], cursor := 0, cold := false }

/-- Give a VR its root node (R104, R109). -/
def State.newRoot (s : State) (v : Vr) (vr : Nat) : State × XR Vr :=
  match s.newPage v with
  | none => (s, .refused 0)
  | some (s, v, root) =>
    match s.supFill v vr 0 root [] with
    | (s, .ok ()) => (s, .ok { v with root := root })
    | (s, .refused x) => (s, .refused x)
    | (s, .wait) => (s, .wait)

/-- The entry of a migrate-pull leaf (R106). -/
def pullEntry (from_ : BitVec 12) (vr : Nat) (bits : BitVec 12) : Nat := from_.toNat * 2 ^ 36 + vr * 2 ^ 16 + bits.toNat

/-- Where the IPA pages that no VR here holds begin, in the range that a moving VR shares with the VRs created beside it (R109, R388). -/
def State.ipaFrom (s : State) (c : MoveContext) : Nat :=
  s.vrs.foldl (fun m e => match e.2 with
    | some v => if v.fn = c.fn ∧ v.ipaEnd = c.ipaEnd then Nat.max m v.ipa else m
    | none => m) c.ipa

/-- The destination builds the moving VR's tables and keeps its context; it stays busy until its sequences are there (R206). A VR that is here already, or that finds 32 active and 224 cold ones here, is not taken: its context has no effect (R14; log 98, DESIGN CHOICE). -/
def State.landContext (s : State) (c : MoveContext) : State :=
  if (s.vrAt c.vr).isSome ∨ s.newVrCold.isNone then s
  else
    let v := { newVr c.fn 0 c.image c.seed c.key (s.ipaFrom c) c.ipaEnd with cold := s.newVrCold.getD true, energy := c.energy }
    let r := c.leaves.foldl (fun (r : State × XR Vr) l =>
      match r with
      | (s, .ok v) => State.mapFrom c.vr (l.1 * 65536) (pullEntry c.from_ c.vr l.2) 3 s v v.root
      | _ => r) (s.newRoot v c.vr)
    match r with
    | (s, .ok v) =>
      let s := (s.settle (.sup c.vr)).keepIpa v
      { s with
        vrs := sset none s.vrs c.vr (some { v with
          k := c.consts, windows := c.windows, peers := c.peers, migtok := c.token, moving := .landing c.from_.toNat,
          remain := c.leaves.length })
        location := sset none s.location c.vr (some s.endpoint.toNat) }
    | (s, .refused _) => s.settle (.sup c.vr)
    | (s, .wait) => { s with waits := s.waits ++ [.event (.migrationContext (.context c))] }

/-- The dedup windows and sequences have come: the VR is here, and its pages follow (R206, R207). -/
def State.landLast (s : State) (vr : Nat) (srcs : SMap SrcWin) (pairs : SMap Pair) (staged : List Staged) (energy : Nat) : State :=
  match s.vrAt vr with
  | none => s
  | some v =>
    match v.moving with
    | .landing src =>
      let s := s.onVr vr fun v =>
        { v with srcs := srcs, staged := staged, energy := v.energy + energy, moving := if v.remain = 0 then .no else .arriving src }
      State.pullOn vr 8 { s with pairs := pairs.foldl (fun m e => sset ⟨0, []⟩ m e.1 e.2) s.pairs }
    | _ => s

/-- MIGRATION_CONTEXT: what the source supervisor sends of a VR arrives (R206). -/
def execMigrationContext (part : MovePart) (s : State) : Res :=
  .next (
    match part with
    | .context c => s.landContext c
    | .last vr srcs pairs staged n => s.landLast vr srcs pairs staged n
    | .charged vr n => s.onVr vr fun v => { v with energy := v.energy + n })

/-! ## Refilling a free-page ring (R107) -/

/-- Something of the function waits for a page of its ring. -/
def State.ringWanted (s : State) (fn : Nat) : Bool :=
  !(s.promoting fn).isEmpty || s.pullPages.any fun x => match s.vrAt x.1 with
    | some v => decide (v.fn = fn) && (v.pulled x.2).isSome
    | none => false

/-- Promotions that wait are tried again. -/
def State.promoteAgain (s : State) (fn : Nat) : State :=
  { s with agenda := s.agenda ++ (s.promoting fn).map fun f => .event (.tierPromotion f.id) }

/-- Without an HBM4E page or a candidate: promotions are resolved in place, pulls take an LPDDR6 page of the function or are refused (R107). -/
def State.withoutPages (s : State) (fn : Nat) : State :=
  let s := (s.promoting fn).foldl (fun s f => s.promoteInPlace f) s
  s.pullPages.foldl (fun s x =>
    match s.vrAt x.1 with
    | none => s
    | some v =>
      if v.fn ≠ fn then s
      else
        match v.pulled x.2, s.walkVr v (x.2 * 65536) with
        | some bs, .ok f =>
          if pteType f.s1.e ≠ 2 then s
          else if (s.takeLp fn).isNone then s.pullFails x.1 x.2
          else
            match s.pullAt v x.1 (x.2 * 65536) fun s => s.takeLp? fn with
            | (s, .ok (pa, addr)) => State.pullOn x.1 8 (s.pullLands v x.1 x.2 pa addr f bs)
            | (s, .refused _) => s.pullFails x.1 x.2
            | (s, .wait) => s
        | _, _ => s) s

/-- Fewer than 256 entries: the supervisor writes pages into a function's ring, and without any it demotes pages of tier hint 10 (R107). -/
def State.refillRing (s : State) (fn : Nat) (pages : List Word) : State :=
  if 256 ≤ (s.fnAt fn).free.length then s
  else
    let s := s.onFn fn fun f => { f with
      free := (f.free ++ pages).take 4096
      nextHbm := pages.foldl (fun m p => Nat.max m (p.toNat + 65536)) f.nextHbm }
    if pages.isEmpty then ((s.candidates fn).take 256).foldl (fun s c => s.demote fn c) s else s

/-- FREE_PAGE_RING_REFILL: the supervisor refills a function's ring; what waits for a page of it goes on, or does without (R107). -/
def execFreePageRingRefill (fn : Nat) (pages : List Word) (s : State) : Res :=
  .next (
    let s := s.refillRing fn pages
    if (s.fnAt fn).free.isEmpty then s.withoutPages fn else s.landPulls.promoteAgain fn)

end Sys2Proof.Machine
end

