-- ==== Sys2Proof/Machine/Messages.lean ====
section
/-! DEFINITION. Machine/Messages.lean: VR images (R394), mailboxes and their messages (R392, R393), creating VRs (R109, R237, R386, R388), launches (R225, R401), cancels, tokens, status, partitions, locations, quotes and identity (R398, R399). -/

namespace Sys2Proof.Machine

/-! ## A VR image (R394) -/

/-- Bytes read as zero. -/
def zeros (rd : Nat → Nat → Nat) (off n : Nat) : Bool := decide (rd off n = 0)

/-- The bytes of a range, from its number. -/
def imageBytes (rd : Nat → Nat → Nat) (off n : Nat) : List Byte := leBytes n (rd off n)

/-- The range overlaps the code range or the collective staging range (R237, R374). -/
def hitsFixed (va len : Nat) : Bool :=
  decide (va < codeVa + 0x4000000 ∧ codeVa < va + len ∨ va < 2 ^ 56 ∧ 0x00FF000000000000 < va + len)

/-- The .gv records from an offset, and where they end; a range of no bytes is refused (R19, R394; log 103, DESIGN CHOICE). -/
def imageGvs (rd : Nat → Nat → Nat) : Nat → Nat → Option (List GvRange × Nat)
  | 0, off => some ([], off)
  | k + 1, off =>
    let (va, len, rights, n) := (rd off 8, rd (off + 8) 8, rd (off + 16) 1, rd (off + 24) 8)
    let padded := (n + 7) / 8 * 8
    if va % 65536 ≠ 0 ∨ len % 65536 ≠ 0 ∨ len = 0 ∨ rights = 0 ∨ 7 < rights ∨ !zeros rd (off + 17) 7 ∨ len < n ∨ 2 ^ 56 < va + len ∨
        hitsFixed va len ∨ !zeros rd (off + 32 + n) (padded - n) then none
    else (imageGvs rd k (off + 32 + padded)).map fun r =>
      ({ va := va, len := len, rights := BitVec.ofNat 3 rights, data := imageBytes rd (off + 32) n } :: r.1, r.2)

/-- A region record (R92, R394). -/
def imageRegion (rd : Nat → Nat → Nat) (off quota : Nat) : Option RegionDecl :=
  let (idx, rw, base, len) := (rd off 1, rd (off + 1) 1, rd (off + 4) 4, rd (off + 8) 4)
  if 63 < idx ∨ 3 < rw ∨ rw % 2 = 0 ∨ !zeros rd (off + 2) 2 ∨ !zeros rd (off + 12) 4 ∨ len = 0 ∨ 2 ^ 20 < len ∨ quota < base + len then none
  else some { idx := idx, w := decide (2 ≤ rw), r := true, base := base, len := len, va := rd (off + 16) 8, step := rd (off + 24) 8 }

/-- An entry record (R19, R394). -/
def imageEntry (rd : Nat → Nat → Nat) (off code L : Nat) : Option EntryDecl :=
  let (kind, slot, lc, entry, wdog) := (rd off 1, rd (off + 1) 1, rd (off + 2) 2, rd (off + 4) 4, rd (off + 8) 4)
  if 1 < kind ∨ 3 < slot ∨ code ≤ entry ∨ !zeros rd (off + 12) 4 ∨ (kind = 1 ∧ lc ≠ 0) ∨ (kind = 0 ∧ wdog ≠ 0) ∨
      (kind = 0 ∧ lc ≠ 0xFFFF ∧ L ≤ lc) then none
  else some { template := decide (kind = 1), slot := slot, lcore := if kind = 0 ∧ lc ≠ 0xFFFF then some lc else none,
              entry := entry, wdog := wdog }

/-- A stream record (R394). -/
def imageStream (rd : Nat → Nat → Nat) (off : Nat) : Option StreamDecl :=
  if 15 < rd off 1 ∨ !zeros rd (off + 1) 3 ∨ !zeros rd (off + 6) 2 then none
  else some { n := rd off 1, first := rd (off + 4) 2, value := BitVec.ofNat 128 (rd (off + 8) 16) }

/-- `n` records of `size` bytes from an offset. -/
def imageTable {α : Type} (f : Nat → Option α) (size : Nat) : Nat → Nat → Option (List α)
  | 0, _ => some []
  | k + 1, off =>
    match f off, imageTable f size k (off + size) with
    | some x, some l => some (x :: l)
    | _, _ => none

/-- No two region records name one index or overlap in scratchpad (R92). -/
def regionsApart : List RegionDecl → Bool
  | [] => true
  | d :: t => t.all (fun e => decide (e.idx ≠ d.idx ∧ (d.base + d.len ≤ e.base ∨ e.base + e.len ≤ d.base))) && regionsApart t

/-- The image of a byte string of a length (R394); none when it is malformed. -/
def parseImage (rd : Nat → Nat → Nat) (length : Nat) : Option Image :=
  let (m, quota, code, ngv, nreg) := (rd 16 1, rd 17 1, rd 20 4, rd 24 2, rd 26 2)
  let (nconst, nent, nstr) := (rd 28 2, rd 30 2, rd 32 2)
  if length < 64 ∨ rd 0 4 ≠ 0x3156444E ∨ rd 4 4 ≠ 1 ∨ rd 8 8 ≠ length ∨ m = 0 ∨ 72 < m ∨ 2 < quota ∨ !zeros rd 18 2 ∨ code = 0 ∨
      2 ^ 23 < code ∨ 64 < nreg ∨ 1024 < nconst ∨ !zeros rd 34 30 then none
  else
    match imageGvs rd ngv (64 + 8 * code) with
    | none => none
    | some (gvs, o1) =>
      let o2 := o1 + 32 * nreg
      let o3 := o2 + 8 * nconst
      let o4 := o3 + 16 * nent
      match imageTable (fun o => imageRegion rd o (quotaBytes quota)) 32 nreg o1,
          imageTable (fun o => imageEntry rd o code (4 * m)) 16 nent o3, imageTable (imageStream rd) 24 nstr o4 with
      | some regions, some entries, some streams =>
        if o4 + 24 * nstr ≠ length ∨ !regionsApart regions ∨ 4095 < (entries.filter EntryDecl.template).length then none
        else some
          { m := m, quota := quota, code := (List.range code).map fun i => BitVec.ofNat 64 (rd (64 + 8 * i) 8), gvs := gvs,
            regions := regions, consts := (List.range nconst).map fun i => BitVec.ofNat 64 (rd (o2 + 8 * i) 8), entries := entries,
            streams := streams }
      | _, _, _ => none

/-! ## Creating VRs (R109, R185, R237, R374, R386, R388) -/

/-- The pages of an image: VA, entry bits, bytes (R237, R386). -/
def imagePages (im : Image) : List (Nat × Nat × List Byte) :=
  ((List.range ((8 * im.code.length + 65535) / 65536)).map fun i =>
    (codeVa + 65536 * i, codeBits, ((im.code.drop (8192 * i)).take 8192).flatMap fun w => leBytes 8 w.toNat)) ++
  im.gvs.flatMap fun g => (List.range (g.len / 65536)).map fun i => (g.va + 65536 * i, gvBits g, (g.data.drop (65536 * i)).take 65536)

/-- A VR id that names no VR known here, from the one that is tried first (R185, R204; log 48, DESIGN CHOICE). -/
def State.freshId (s : State) (n : Nat) : Nat :=
  let base := (Config.vrId n).toNat
  ((List.range (s.vrs.length + s.location.length + 1)).map fun i => (base + i) % 0xFF000).find?
    (fun v => (s.vrAt v).isNone && (sget none s.location v).isNone) |>.getD 0

/-- Place the pages of an image for a VR, one record after another: where two ranges overlap, the later one's pages and rights replace the earlier one's (R19, R237, R386; log 104, DESIGN CHOICE). -/
def State.placePages (s : State) (v : Vr) (vr : Nat) : State × XR Vr :=
  (imagePages v.image).foldl (fun (r : State × XR Vr) g =>
    match r with
    | (s, .ok v) => s.placePage v vr g.1 g.2.1 g.2.2
    | _ => r) (s.newRoot v vr)

/-- A new VR's constant bank, and window 4,095 open over the staging range (R374, R388). -/
def Vr.finished (v : Vr) : Vr :=
  { v with
    k := ((List.range v.image.consts.length).zip v.image.consts).foldl (fun m e => sset 0 m e.1 e.2) []
    windows := sset 0 [] 4095 (mkWin (2 ^ 56 - 1) 0 0x00FF000000000000 false true 2) }

/-- A new VR that is to be cold has its pages in LPDDR6 (R14, R103). -/
def State.coolNew (s : State) (vr : Nat) (cold : Bool) : Option State := if cold then s.chill vr else some s

/-- Create VRs one after another, cold where 32 are active (R14); their ids, or a refusal or wait with the id it met. (log 82, DEDUCED) -/
def State.createVrs (fn : Nat) (im : Image) (ipaEnd : Nat) : Nat → State → Nat → List Nat → State × Except (Nat × Bool) (List Nat)
  | 0, s, _, ids => (s, .ok ids)
  | k + 1, s, ipa, ids =>
    let vr := s.freshId s.draw
    let v := { newVr fn 0 im (Config.vrSeed s.draw) (Config.vrKey s.draw) ipa ipaEnd with cold := s.newVrCold.getD true }
    if s.newVrCold.isNone then (s, .error (vr, false))
    else match s.placePages v vr with
    | (s, .ok v) =>
      let s := { s.settle (.sup vr) with
        vrs := sset none s.vrs vr (some v.finished)
        location := sset none s.location vr (some s.endpoint.toNat)
        draw := s.draw + 1 }
      match s.coolNew vr v.cold with
      | some s => State.createVrs fn im ipaEnd k (s.keepIpa v) v.ipa (ids ++ [vr])
      | none => (s, .error (vr, false))
    | (s, .refused _) => (s, .error (vr, false))
    | (s, .wait) => (s, .error (vr, true))

/-! ## Mailboxes (R392, R393) -/

/-- Mailbox `n` of a function. -/
def State.mbx (s : State) (fn n : Nat) : Mbx := sget Mbx.zero (s.fnAt fn).mbx n

/-- Change a mailbox. -/
def State.onMbx (s : State) (fn n : Nat) (f : Mbx → Mbx) : State := s.onFn fn fun x => { x with mbx := smod Mbx.zero x.mbx n f }

/-- A mailbox that answers: in recovery only mailbox 0 of the physical function (R397). -/
def State.mbxThere (s : State) (fn n : Nat) : Bool := decide (fn < 32 ∧ n < 8) && (!s.sup.recovery || decide (fn = 0 ∧ n = 0))

/-- MAILBOX_POST: idle becomes posted; a post in another state is lost (R392). -/
def execMailboxPost (fn n : Nat) (s : State) : Res :=
  .next (if s.mbxThere fn n then s.onMbx fn n fun m => if m.st = .idle then { m with st := .posted } else { m with lost := true } else s)

/-- MAILBOX_RELEASE: replied becomes idle; a release in another state is lost (R392). -/
def execMailboxRelease (fn n : Nat) (s : State) : Res :=
  .next (if s.mbxThere fn n then s.onMbx fn n fun m => if m.st = .replied then { m with st := .idle } else { m with lost := true } else s)

/-- The header word of a message, in numbers. -/
def Mbx.head (m : Mbx) : Nat := m.bytes.read 0 8

/-- The payload of a message. -/
def Mbx.payload (m : Mbx) : List Byte := m.bytes.bytes 16 (m.head % 4096)

/-- Word `i` of a payload. -/
def pword (p : List Byte) (i : Nat) : Nat := ofLeBytes ((p.drop (8 * i)).take 8)

/-- Reply to the message in a busy mailbox (R392, R393). -/
def State.mbxReply (s : State) (fn n status : Nat) (data : List Byte) : State :=
  let h := (s.mbx fn n).head
  let w := (h / 2 ^ 56 + 0x80) % 256 * 2 ^ 56 + status * 2 ^ 48 + h / 2 ^ 32 % 2 ^ 16 * 2 ^ 32 + data.length
  (s.onMbx fn n fun m => { m with bytes := m.bytes.setBytes 0 (leBytes 8 w ++ leBytes 8 0 ++ data), st := .replied }).vector fn 0

/-- The message of a kind, as the step that handles it. -/
def kindStep (kind fn n : Nat) : Option Instr :=
  match kind with
  | 1 => some (.createVr fn n) | 2 => some (.launch fn n) | 3 => some (.cancel fn n) | 4 => some (.migrate fn n)
  | 5 => some (.peerTokens fn n) | 6 => some (.vrStatus fn n) | 7 => some (.quote fn n) | 8 => some (.identity fn n)
  | 9 => some (.image fn n) | 10 => some (.window fn n) | 11 => some (.partition fn n) | 12 => some (.locations fn n)
  | _ => none

/-- Only the physical function sends these kinds (R393). -/
def kindPhysical (kind : Nat) : Bool := [4, 5, 9, 10, 11, 12].contains kind

/-- The first posted mailbox after the previous winner (R213, R392). -/
def State.nextPosted (s : State) : Option (Nat × Nat) :=
  ((List.range 256).map fun i => (s.sup.ptr + 1 + i) % 256).findSome? fun k =>
    if s.mbxThere (k / 8) (k % 8) ∧ (s.mbx (k / 8) (k % 8)).st = .posted then some (k / 8, k % 8) else none

/-- MAILBOX_TAKE: the next posted mailbox becomes busy, and its message is handled (R392, R393, R397). -/
def execMailboxTake (s : State) : Res :=
  .next (
    match s.nextPosted with
    | none => s
    | some (fn, n) =>
      let s := (s.onMbx fn n fun m => { m with st := .busy })
      let s := { s with sup := { s.sup with ptr := 8 * fn + n } }
      let m := s.mbx fn n
      let kind := m.head / 2 ^ 56
      if m.head / 2 ^ 12 % 2 ^ 20 ≠ 0 ∨ m.head / 2 ^ 48 % 256 ≠ 0 ∨ m.bytes.read 8 8 ≠ 0 ∨ 4080 < m.head % 4096 then s.mbxReply fn n 1 []
      else
        match kindStep kind fn n with
        | none => s.mbxReply fn n 1 []
        | some i =>
          if s.sup.recovery ∧ kind ≠ 8 ∧ kind ≠ 9 ∨ kindPhysical kind ∧ fn ≠ 0 then s.mbxReply fn n 2 []
          else { s with agenda := .event i :: s.agenda })

/-- Handle the message of a busy mailbox: the payload gives a new state with a status and reply payload. -/
def State.onMessage (s : State) (fn n : Nat) (f : List Byte → State × Nat × List Byte) : State :=
  if (s.mbx fn n).st ≠ .busy then s
  else
    let (t, status, data) := f (s.mbx fn n).payload
    t.mbxReply fn n status data

/-- The function may name the VR: it created it, or it is the physical function (R393). -/
def State.mayName (s : State) (fn vr : Nat) : Option Vr :=
  match s.vrAt vr with
  | some v => if fn = 0 ∨ v.fn = fn then some v else none
  | none => none

/-- CREATE_VR (R109, R388, R393, R394): creation waits while a stage-2 access does; a refused one ends it, and nothing is created. -/
def execCreateVr (fn n : Nat) (s : State) : Res :=
  .next (
    let m := s.mbx fn n
    let p := m.payload
    let (addr, len, count, ipa, ipaLen) := (pword p 0, pword p 1, pword p 2, pword p 3, pword p 4)
    if m.st ≠ .busy then s
    else if p.length ≠ (if fn = 0 then 24 else 40) ∨ count = 0 ∨ 510 < count ∨ ipa % 65536 ≠ 0 ∨ ipaLen % 65536 ≠ 0 then s.mbxReply fn n 1 []
    else
      match parseImage (fun off k => s.hostMem.read (addr + off) k) len with
      | none => s.mbxReply fn n 1 []
      | some im =>
        match State.createVrs fn im (ipa + ipaLen) count s ipa [] with
        | (t, .ok ids) => t.mbxReply fn n 0 (ids.flatMap fun v => leBytes 8 v)
        | (_, .error (vr, false)) => (s.settle (.sup vr)).mbxReply fn n 7 []
        | (t, .error (_, true)) =>
          { t with vrs := s.vrs, location := s.location, draw := s.draw, waits := t.waits ++ [.event (.createVr fn n)] })

/-! ## Launch and cancel (R225, R401) -/

/-- The payload of a launch, in 8-byte words: launch id, step, priority, wdog, cpa, VR id, phases P, members N; P pairs of duration and energy; N member entries (R290, R393; log 51, DESIGN CHOICE). -/
def parseLaunch (fn ep : Nat) (nth : Nat → Nat) (p : List Byte) : Option Launch :=
  let (np, nm) := (pword p 6, pword p 7)
  let phases := (List.range np).map fun i => (pword p (8 + 2 * i), pword p (9 + 2 * i))
  let entries := (List.range nm).map fun i => pword p (8 + 2 * np + i)
  let members := entries.map fun e => (e % 4096, e / 65536 % 64)
  let mine := members.filter fun m => decide (m.1 = ep)
  if p.length < 64 ∨ 16 < np ∨ 510 < nm ∨ p.length ≠ 64 + 16 * np + 8 * nm ∨ 2 ^ 32 ≤ pword p 0 ∨ 2 ^ 32 ≤ pword p 1 ∨ 3 < pword p 2 ∨
      2 ^ 32 ≤ pword p 3 ∨ 2 ^ 44 ≤ pword p 4 ∨ 2 ^ 20 ≤ pword p 5 ∨ (phases.any fun x => decide (x.1 = 0)) ∨
      (entries.any fun e => decide (e % 4096 + e / 65536 % 64 * 65536 ≠ e)) then none
  else (mine[nth (pword p 0)]?).map fun m =>
    { id := BitVec.ofNat 32 (pword p 0), fn := fn, vr := pword p 5, step := BitVec.ofNat 32 (pword p 1), prio := pword p 2,
      wdog := BitVec.ofNat 32 (pword p 3), cpa := BitVec.ofNat 44 (pword p 4), phases := phases, members := members, idx := m.2,
      task := none, binds := [], arr := 0 }

/-- An earlier launch of the same id that is over leaves nothing behind. -/
def State.forgetLaunch (s : State) (id : BitVec 32) : State :=
  if s.sup.launches.any fun l => decide (l.id = id) then s
  else { s with sup := { s.sup with
    arming := s.sup.arming.filter fun a => decide (a.launch ≠ id)
    ended := s.sup.ended.filter fun e => decide (e.1 ≠ id)
    lostSent := s.sup.lostSent.filter fun e => decide (e ≠ id) } }

/-- The first launches and arms of an id that this supervisor knows (R389). -/
def State.launchCount (s : State) (id : Nat) : Nat :=
  (s.sup.launches.filter fun l => decide (l.id = BitVec.ofNat 32 id)).length

/-- LAUNCH: the launch is queued for admission (R225, R393, R401). (log 83, DEDUCED) -/
def execLaunch (fn n : Nat) (s : State) : Res :=
  .next (s.onMessage fn n fun p =>
    match parseLaunch fn s.endpoint.toNat s.launchCount p with
    | none => (s, 1, [])
    | some l =>
      if (s.mayName fn l.vr).isNone then (s, 6, [])
      else if !s.bare ∧ !powerFits [peakOf l.phases] then (s, 4, [])
      else
        let s := s.forgetLaunch l.id
        ({ s with sup := { s.sup with launches := s.sup.launches ++ [{ l with arr := s.sup.arrivals }], arrivals := s.sup.arrivals + 1 } }, 0, []))

/-- The arms that are held for a launch are answered: it will not be admitted (R203). -/
def State.refuseArms (s : State) (id : BitVec 32) (idx : Nat) : State :=
  let mine (w : Packet × Nat) : Bool := decide (launchId w.1 = id ∧ armIdx w.1 = idx)
  (s.sup.waitArm.filter mine).foldl (fun s w => s.armAnswer w.1 2)
    { s with sup := { s.sup with waitArm := s.sup.waitArm.filter fun w => !mine w } }

/-- Cancel everything of the VRs that `p` names: launches not yet started, spawned tasks not yet admitted, tasks (R220, R393, R400). -/
def State.cancelVrs (s : State) (p : Nat → Bool) : State :=
  let s := (s.sup.launches.filter fun l => p l.vr).foldl (fun s l =>
    let t := s.undoLaunch l
    if (t.launchAt l.id l.idx).isNone then t.refuseArms l.id l.idx else t) s
  let s := { s with sup := { s.sup with spawned := s.sup.spawned.filter fun x => !p x.vr } }
  (s.tasks.filter fun e => p e.2.vr).foldl (fun s e => s.stopTask e.1 0x41 0) s

/-- CANCEL (R220, R393). -/
def execCancel (fn n : Nat) (s : State) : Res :=
  .next (s.onMessage fn n fun p =>
    if p.length ≠ 8 then (s, 1, [])
    else if (s.mayName fn (pword p 0)).isNone then (s, 6, [])
    else (s.cancelVrs fun v => decide (v = pword p 0), 0, []))

/-! ## The other messages (R393) -/

/-- MIGRATE: a VR moves as migr begins it; where migr would answer 1 the message is answered with 0x01 (R206, R290, R393; log 52, DESIGN CHOICE). -/
def execMigrate (fn n : Nat) (s : State) : Res :=
  .next (s.onMessage fn n fun p =>
    if p.length ≠ 16 ∨ 4096 ≤ pword p 1 then (s, 1, [])
    else if (s.mayName fn (pword p 0)).isNone then (s, 6, [])
    else
      match s.canMove (pword p 0) (pword p 1) with
      | some (v, w) => (s.beginMove v (pword p 0) (pword p 1) w, 0, [])
      | none => (s, 1, []))

/-- PEER_TOKENS: entries of a VR's peer-token table (R374, R393). -/
def execPeerTokens (fn n : Nat) (s : State) : Res :=
  .next (s.onMessage fn n fun p =>
    let k := (p.length - 8) / 16
    let es := (List.range k).map fun i => (pword p (1 + 2 * i), pword p (2 + 2 * i))
    if p.length < 8 ∨ p.length ≠ 8 + 16 * k ∨ 240 < k ∨ es.any fun e => decide (2 ^ 20 ≤ e.1) then (s, 1, [])
    else if (s.mayName fn (pword p 0)).isNone then (s, 6, [])
    else (s.onVr (pword p 0) fun v =>
      { v with peers := es.foldl (fun m e => sset none m e.1 (some (BitVec.ofNat 64 e.2))) v.peers }, 0, []))

/-- Where a VR stands, as VR_STATUS reports it: 0 no task, 1 armed, 2 running, 3 pre-empted, 4 stopping, 5 moving away, 6 moving here (log 53, DESIGN CHOICE). -/
def State.vrState (s : State) (vr : Nat) (v : Vr) : Nat :=
  match v.moving with
  | .leaving _ | .sent _ => 5
  | .landing _ => 6
  | _ =>
    match s.tasks.find? fun e => decide (e.2.phase ≠ .idle ∧ e.2.vr = vr) with
    | some e => match e.2.phase with | .idle => 0 | .armed => 1 | .running => 2 | .preempted => 3 | .stopping => 4
    | none => match v.moving with | .arriving _ => 6 | _ => 0

/-- VR_STATUS: state, pages acknowledged, pages remaining, failed bit, one 8-byte word each (R207, R393; log 53, DESIGN CHOICE). -/
def execVrStatus (fn n : Nat) (s : State) : Res :=
  .next (s.onMessage fn n fun p =>
    if p.length ≠ 8 then (s, 1, [])
    else
      match s.mayName fn (pword p 0) with
      | none => (s, 6, [])
      | some v => (s, 0, leBytes 8 (s.vrState (pword p 0) v) ++ leBytes 8 v.acked ++ leBytes 8 v.remain ++ leBytes 8 (if v.failed then 1 else 0)))

/-- The 168 field bytes of a quote (R399). -/
def State.quoteFields (s : State) (fn : Nat) (nonce : List Byte) : List Byte :=
  let f := s.fnAt fn
  nonce ++ sponge 72 0x06 s.sup.running 64 ++ leBytes 4 (ofLeBytes ((s.sup.running.drop 8).take 4)) ++ leBytes 8 (if s.detmode then 1 else 0) ++ leBytes 4 fn ++
    ([PartReg.clus0, .clus1, .hbm0, .hbm1, .lp0, .lp1].flatMap fun r => leBytes 8 (f.part r).toNat) ++ leBytes 8 s.cycle.toNat

/-- QUOTE: the fields and both device signatures over them (R399). -/
def execQuote (fn n : Nat) (s : State) : Res :=
  .next (s.onMessage fn n fun p =>
    if p.length ≠ 32 then (s, 1, [])
    else
      let b := s.quoteFields fn p
      ({ s with draw := s.draw + 1 }, 0,
        b ++ leBytes 64 (Config.signEd (Config.deriveEd Config.deviceSecret).1 s.draw b).toNat ++
          leBytes 3309 (Config.signMl (Config.deriveMl Config.deviceSecret).1 s.draw b).toNat))

/-- The ordering code of a bin in package or module form (R1). -/
def orderingCode (b : Bin) (package : Bool) : String :=
  match b, package with
  | .s288, true => "GZ-S288-P"
  | .s272, true => "GZ-S272-P"
  | .s256, true => "GZ-S256-P"
  | .s288, false => "GZ-S288-M"
  | .s272, false => "GZ-S272-M"
  | .s256, false => "GZ-S256-M"

/-- What the identity statement carries of this part (R3, R10, R398). -/
structure Identity where
  serial : List Byte
  code   : String
  active : Nat
  fused  : List Nat
  ed     : BitVec 256
  ml     : BitVec 15616
  deriving DecidableEq, Repr

/-- The identity of the part: its keys are those it derives from its fused secret at first boot, the same ones each time (R3, R10, R398). -/
def State.identity (s : State) : Identity :=
  { serial := Config.serial, code := orderingCode s.bin s.isPackage, active := s.activeClusters, fused := s.fusedList,
    ed := (Config.deriveEd Config.deviceSecret).2, ml := (Config.deriveMl Config.deviceSecret).2 }

/-- The bytes of an identity statement, as many as a reply holds (R393, R398; log 50, DESIGN CHOICE). -/
def Identity.bytes (i : Identity) : List Byte := (Config.identityLayout i.serial i.code i.active i.fused i.ed i.ml).take 4080

/-- IDENTITY: the identity statement (R398). -/
def execIdentity (fn n : Nat) (s : State) : Res :=
  .next (s.onMessage fn n fun p => if p.length ≠ 0 then (s, 1, []) else (s, 0, s.identity.bytes))

/-- WINDOW: fnw.base (R393, R396). -/
def execWindow (fn n : Nat) (s : State) : Res :=
  .next (s.onMessage fn n fun p =>
    if p.length ≠ 8 ∨ 65536 ≤ pword p 0 then (s, 1, [])
    else ({ s with sup := { s.sup with fnwBase := BitVec.ofNat 64 (pword p 0) } }, 0, []))

/-- The partition register that a message names (log 54, DESIGN CHOICE). -/
def partReg (k : Nat) : Option PartReg :=
  match k with
  | 0 => some .clus0 | 1 => some .clus1 | 2 => some .hbm0 | 3 => some .hbm1 | 4 => some .lp0 | 5 => some .lp1 | 6 => some .s2root
  | _ => none

/-- PARTITION: writes a partition register; a refusal is answered with its code (R211, R216, R393). -/
def execPartition (fn n : Nat) (s : State) : Res :=
  .next (s.onMessage fn n fun p =>
    match partReg (pword p 1) with
    | some r =>
      if p.length ≠ 24 ∨ 32 ≤ pword p 0 then (s, 1, [])
      else
        match s.partWrite (pword p 0) r (BitVec.ofNat 64 (pword p 2)) with
        | (s, some c) => (s, 3, [BitVec.ofNat 8 c])
        | (s, none) => (s, 0, [])
    | none => (s, 1, []))

/-- LOCATIONS: entries of the location table; endpoint 0xFFF removes one (R185, R393). -/
def execLocations (fn n : Nat) (s : State) : Res :=
  .next (s.onMessage fn n fun p =>
    let k := p.length / 16
    let es := (List.range k).map fun i => (pword p (2 * i), pword p (2 * i + 1))
    if p.length ≠ 16 * k ∨ es.any fun e => decide (0xFF000 ≤ e.1 ∨ 4096 ≤ e.2) then (s, 1, [])
    else ({ s with location := es.foldl (fun m e => sset none m e.1 (if e.2 = 0xFFF then none else some e.2)) s.location }, 0, []))

end Sys2Proof.Machine
end

