-- ==== Sys2Proof/Machine/HostLink.lean ====
section
/-! DEFINITION. Machine/HostLink.lean: the host's rings (R395), BAR2 (R396), function-level reset (R400), PCIe links (R390), flash images, boot and power (R397). -/

namespace Sys2Proof.Machine

/-! ## Rings (R395) -/

/-- Q_BASE_WRITE: the ring's place and size; its indices and phase start again (R395). -/
def execQBaseWrite (fn ring : Nat) (value : Word) (s : State) : Res :=
  .next (
    if 3 ≤ ring then s
    else
      let s := s.onFn fn fun f => f.onRing ring fun r => { r with base := value &&& 0xFFFFFFFFFFFFF00F, head := 0, tail := 0, phase := true }
      if ring = 0 then State.drainReqs fn (s.fnAt fn).waiting.length s else s)

/-- Q_TAIL_WRITE: on ring 1 the records up to the index become readable, unless that would make it hold 2^lg; on the others it is read-only (R395). (log 86, DESIGN CHOICE) -/
def execQTailWrite (fn ring : Nat) (value : Word) (s : State) : Res :=
  .next (
    let r := (s.fnAt fn).ring 1
    let t := value.toNat % 4096
    let new := (t + r.size - r.tail.toNat) % r.size
    if ring ≠ 1 ∨ r.size ≤ t ∨ r.size ≤ (r.tail.toNat + r.size - r.head.toNat) % r.size + new then s
    else
      { s.onFn fn fun f => f.onRing 1 fun r => { r with tail := BitVec.ofNat 12 t } with
        agenda := s.agenda ++ List.replicate new (.event (.responseRecord fn)) })

/-- Q_HEAD_WRITE: the consumer index of ring 0 or 2; records that waited for room are written (R395). -/
def execQHeadWrite (fn ring : Nat) (value : Word) (s : State) : Res :=
  .next (
    if ring ≠ 0 ∧ ring ≠ 2 then s
    else
      let s := s.onFn fn fun f => f.onRing ring fun r => { r with head := value.setWidth 12 }
      if ring = 0 then State.drainReqs fn (s.fnAt fn).waiting.length s else s)

/-! ## BAR2 (R396) -/

/-- The values that a write to `n` bytes at `a` changes, kept for each task whose strands may fetch them (R236). -/
def State.keepOlds (s : State) (a n : Nat) : State :=
  let words := (List.range (n / 8 + 2)).map (fun i => a / 8 * 8 + 8 * i) |>.filter fun x => decide (x < a + n)
  let tasks := (s.tasks.filter fun e => decide (e.2.phase = .running ∨ e.2.phase = .preempted ∨ e.2.phase = .stopping)).map (·.1)
  { s with olds := s.olds ++ tasks.flatMap fun k => words.map fun x => (k, x, BitVec.ofNat 64 (s.mem.read x 8)) }

/-- BAR2_WRITE: a plain write to device memory at fnw.base × 2^32 (R396); addresses without memory take nothing. -/
def execBar2Write (off : Nat) (bytes : List Byte) (s : State) : Res :=
  .next (
    let a := s.sup.fnwBase.toNat * 2 ^ 32 + off
    if 2 ^ 32 < off + bytes.length ∨ !s.hasMem a ∨ !s.hasMem (a + bytes.length - 1) then s
    else { s.keepOlds a bytes.length with mem := s.mem.setBytes a bytes, rels := clearRel s.rels a bytes.length })

/-! ## What a host read returns (R391, R392, R395, R396) -/

/-- The code of a mailbox's state (R392). -/
def MbxSt.code : MbxSt → BitVec 2
  | .idle => 0
  | .posted => 1
  | .busy => 2
  | .replied => 3

/-- mbx.st of a mailbox (R392). -/
def Mbx.stat (m : Mbx) : Word := (0 : BitVec 55) ++ (if m.lost then (1 : BitVec 1) else 0) ++ (0 : BitVec 6) ++ m.st.code

/-- A register of a ring's block: q.base, q.head, q.tail, q.bad, of which only ring 1 has a count; the rest reads zero (R395). -/
def State.ringReg (s : State) (fn q off : Nat) : Word :=
  let r := (s.fnAt fn).ring q
  match off with
  | 0x00 => r.base
  | 0x08 => r.head.setWidth 64
  | 0x10 => r.tail.setWidth 64
  | 0x18 => if q = 1 then r.bad.setWidth 64 else 0
  | _ => 0

/-- The 8 bytes at an offset of a function's BAR0: mailboxes, queue registers, and each mailbox's doorbell, which reads zero, and state (R391, R392, R395). -/
def State.bar0 (s : State) (fn off : Nat) : Word :=
  if off < 0x8000 then (if s.mbxThere fn (off / 0x1000) then BitVec.ofNat 64 ((s.mbx fn (off / 0x1000)).bytes.read (off % 0x1000) 8) else 0)
  else if off < 0x80C0 then s.ringReg fn ((off - 0x8000) / 0x40) (off % 0x40)
  else if 0x9000 ≤ off ∧ off < 0x9080 ∧ off % 16 = 8 then (if s.mbxThere fn ((off - 0x9000) / 16) then (s.mbx fn ((off - 0x9000) / 16)).stat else 0)
  else 0

/-- The 8 bytes at an offset of BAR2, which only the physical function has: device memory from fnw.base × 2^32 (R391, R396). -/
def State.bar2 (s : State) (off : Nat) : Word :=
  let a := s.sup.fnwBase.toNat * 2 ^ 32 + off
  if s.hasMem a ∧ s.hasMem (a + 7) then BitVec.ofNat 64 (s.mem.read a 8) else 0

/-- The 8 bytes at an offset of BAR4, which only the physical function has: for each F-die fab.portstat, fab.lanecnt and fab.lanethr (R184, R391). -/
def State.bar4 (s : State) (off : Nat) : Word :=
  let d := off / 0x8000
  let o := off % 0x8000
  if 2 ≤ d ∨ o % 8 ≠ 0 then 0
  else if o < 0x80 then (s.portAt (16 * d + o / 8)).stat
  else if 0x100 ≤ o ∧ o < 0x500 then (sget ⟨0, 0⟩ (s.portAt (16 * d + (o - 0x100) / 64)).waves ((o - 0x100) % 64 / 8)).cnt
  else if o = 0x500 then (sget 1024 s.lanethr d).setWidth 64
  else 0

/-- What a host read of 8 bytes through a BAR of a function returns; an unused address reads zero (R391). -/
def State.hostRead (s : State) (fn bar off : Nat) : Word :=
  match bar with
  | 0 => s.bar0 fn off
  | 2 => if fn = 0 then s.bar2 off else 0
  | 4 => if fn = 0 then s.bar4 off else 0
  | _ => 0

/-! ## Function-level reset (R400) -/

/-- FUNCTION_LEVEL_RESET: every task of the function is cancelled; its rings, tags and mailboxes reset; accesses that waited for the host ask again once it listens (R15, R220, R400). (log 84, DEDUCED) -/
def execFunctionLevelReset (fn : Nat) (s : State) : Res :=
  .next (
    let s := s.cancelVrs fun v => match s.vrAt v with | some x => decide (x.fn = fn) | none => false
    let s := s.onFn fn fun f => { f with rings := [], tags := [], mbx := [], waiting := [] }
    let mine := s.faults.filter fun f => match f.kind with
      | .host (some n) => decide (n = fn)
      | .host none => decide (s.fnOf f.vr = fn)
      | _ => false
    (mine.foldl (fun s f => s.faultDone f) s).supGoes)

/-- LINK_TRAINING: the rate and width that a link trains or falls back to (R390). -/
def execLinkTraining (link rate width : Nat) (s : State) : Res :=
  .next (if 2 ≤ link then s else { s with sup := { s.sup with links := sset (0, 0) s.sup.links link (rate, width) } })

/-! ## Flash images (R397) -/

/-- The length that an image's header gives (R397; log 55, DESIGN CHOICE). -/
def flashLength (b : List Byte) : Nat := ofLeBytes ((b.drop 4).take 4)

/-- The security version that an image's header gives. -/
def flashVersion (b : List Byte) : Nat := ofLeBytes ((b.drop 8).take 4)

/-- The image has its layout, both vendor signatures verify, and its version is not below the rollback counter (R397). -/
def flashGood (b : List Byte) (rollback : Nat) : Bool :=
  let body := ofLeBytes ((b.drop 12).take 4)
  let msg := b.take (64 + body)
  decide (ofLeBytes (b.take 4) = 0x47535A31 ∧ b.length = 64 + body + 64 + 3309 ∧ flashLength b = b.length ∧
    ofLeBytes ((b.drop 16).take 48) = 0 ∧ rollback ≤ flashVersion b) &&
    Config.vendorEd msg ((b.drop (64 + body)).take 64) && Config.vendorMl msg (b.drop (64 + body + 64))

/-- IMAGE: a chunk is staged; the last one is verified and, where it is good, written to flash; it runs at the next reset (R393, R397, R400; log 85, DEDUCED). A package has no LPDDR6 to stage it in and no flash: the kind is not allowed (R4; log 97, DESIGN CHOICE). -/
def execImage (fn n : Nat) (s : State) : Res :=
  .next (s.onMessage fn n fun p =>
    if s.bare then (s, 2, []) else
    let off := pword p 0
    let bs := p.drop 8
    if p.length ≤ 8 ∨ s.sup.stagedLen < off then (s, 1, [])
    else
      let old : Mem := if off = 0 then [] else s.sup.staged
      let u : Sup := { s.sup with staged := old.setBytes off bs, stagedLen := off + bs.length }
      let all := u.staged.bytes 0 u.stagedLen
      if u.stagedLen < 16 ∨ u.stagedLen < flashLength all then ({ s with sup := u }, 0, [])
      else
        let u : Sup := { u with staged := [], stagedLen := 0 }
        if flashGood all u.rollback then ({ s with sup := { u with flash := all } }, 0, []) else ({ s with sup := u }, 5, []))

/-! ## Boot and power (R397) -/

/-- What a reset leaves: flash, counter, links, fuses and bin, the endpoint that the group gives, and what the host has; everything else is as at reset. -/
def State.afterReset (s : State) : State :=
  { State.reset with
    hostMem := s.hostMem, bin := s.bin, fuses := s.fuses, isPackage := s.isPackage, supplied := s.supplied, endpoint := s.endpoint, sent := s.sent, draw := s.draw
    sup := { Sup.init with flash := s.sup.flash, rollback := s.sup.rollback, links := s.sup.links } }

/-- BOOT: the flash image is verified; a good one runs and advances the counter, else the part enters recovery (R397). A package without flash does not boot from a signed image: it is as at reset and runs what its design supplies (R4; log 97, DESIGN CHOICE). -/
def execBoot (s : State) : Res :=
  .next (
    let t := s.afterReset
    if s.bare then t
    else if flashGood t.sup.flash t.sup.rollback then
      { t with sup := { t.sup with running := t.sup.flash, rollback := Nat.max t.sup.rollback (flashVersion t.sup.flash), recovery := false } }
    else { t with sup := { t.sup with running := [], recovery := true } })

/-- POWER_LOSS: the part stops; flash keeps its image (R397). -/
def execPowerLoss (s : State) : Res := .next { s with power := false, agenda := [] }

end Sys2Proof.Machine
end

