-- ==== Sys2Proof/Machine/Dispatch.lean ====
section
/-! DEFINITION. Machine/Dispatch.lean: one arm per instruction and event, each a direct call of its meaning. -/

namespace Sys2Proof.Machine

/-- The meaning of every instruction and event. -/
def exec (i : Instr) (s : State) : Host.Outcome State Fault Refusal :=
  match i with
  | .add d a b => Sys2Proof.Machine.execAdd d a b s
  | .sub d a b => Sys2Proof.Machine.execSub d a b s
  | .mul d a b => Sys2Proof.Machine.execMul d a b s
  | .mulh k d a b => Sys2Proof.Machine.execMulh k d a b s
  | .div u d a b => Sys2Proof.Machine.execDiv u d a b s
  | .rem u d a b => Sys2Proof.Machine.execRem u d a b s
  | .and d a b => Sys2Proof.Machine.execAnd d a b s
  | .or d a b => Sys2Proof.Machine.execOr d a b s
  | .xor d a b => Sys2Proof.Machine.execXor d a b s
  | .shl d a b => Sys2Proof.Machine.execShl d a b s
  | .shr d a b => Sys2Proof.Machine.execShr d a b s
  | .sar d a b => Sys2Proof.Machine.execSar d a b s
  | .rot d a b => Sys2Proof.Machine.execRot d a b s
  | .clz d a => Sys2Proof.Machine.execClz d a s
  | .ctz d a => Sys2Proof.Machine.execCtz d a s
  | .popc d a => Sys2Proof.Machine.execPopc d a s
  | .min u d a b => Sys2Proof.Machine.execMin u d a b s
  | .max u d a b => Sys2Proof.Machine.execMax u d a b s
  | .sel d a b n => Sys2Proof.Machine.execSel d a b n s
  | .cmp k d a b => Sys2Proof.Machine.execCmp k d a b s
  | .addi d a imm => Sys2Proof.Machine.execAddi d a imm s
  | .andi d a imm => Sys2Proof.Machine.execAndi d a imm s
  | .ori d a imm => Sys2Proof.Machine.execOri d a imm s
  | .xori d a imm => Sys2Proof.Machine.execXori d a imm s
  | .shli d a n => Sys2Proof.Machine.execShli d a n s
  | .li d imm => Sys2Proof.Machine.execLi d imm s
  | .lih d imm => Sys2Proof.Machine.execLih d imm s
  | .lea d a space off => Sys2Proof.Machine.execLea d a space off s
  | .bnd d a b => Sys2Proof.Machine.execBnd d a b s
  | .fadd f d a b => Sys2Proof.Machine.execFadd f d a b s
  | .fmul f d a b => Sys2Proof.Machine.execFmul f d a b s
  | .ffma f d a b => Sys2Proof.Machine.execFfma f d a b s
  | .fcvt k d a => Sys2Proof.Machine.execFcvt k d a s
  | .fcmp f k d a b => Sys2Proof.Machine.execFcmp f k d a b s
  | .cntset c a w => Sys2Proof.Machine.execCntset c a w s
  | .cntmin c x b => Sys2Proof.Machine.execCntmin c x b s
  | .cntsub c x b => Sys2Proof.Machine.execCntsub c x b s
  | .ld d a m => Sys2Proof.Machine.execLd d a m s
  | .st b a m => Sys2Proof.Machine.execSt b a m s
  | .lda d a m => Sys2Proof.Machine.execLda d a m s
  | .stl b a m => Sys2Proof.Machine.execStl b a m s
  | .atom op d a b m => Sys2Proof.Machine.execAtom op d a b m s
  | .cas d a b m => Sys2Proof.Machine.execCas d a b m s
  | .kld d a imm => Sys2Proof.Machine.execKld d a imm s
  | .sdld n a cls space off => Sys2Proof.Machine.execSdld n a cls space off s
  | .sdst n a cls space off => Sys2Proof.Machine.execSdst n a cls space off s
  | .fence mask => Sys2Proof.Machine.execFence mask s
  | .xfence p q => Sys2Proof.Machine.execXfence p q s
  | .br imm => Sys2Proof.Machine.execBr imm s
  | .bc k a b imm => Sys2Proof.Machine.execBc k a b imm s
  | .jal d imm => Sys2Proof.Machine.execJal d imm s
  | .jr d a => Sys2Proof.Machine.execJr d a s
  | .loop n a len cnt => Sys2Proof.Machine.execLoop n a len cnt s
  | .bts k a b imm => Sys2Proof.Machine.execBts k a b imm s
  | .bpois np a imm => Sys2Proof.Machine.execBpois np a imm s
  | .semwait n cnt => Sys2Proof.Machine.execSemwait n cnt s
  | .semsig n cnt named a => Sys2Proof.Machine.execSemsig n cnt named a s
  | .trap code => Sys2Proof.Machine.execTrap code s
  | .brk tag => Sys2Proof.Machine.execBrk tag s
  | .spawn t a => Sys2Proof.Machine.execSpawn t a s
  | .signal n a => Sys2Proof.Machine.execSignal n a s
  | .snap trig => Sys2Proof.Machine.execSnap trig s
  | .sysr d num => Sys2Proof.Machine.execSysr d num s
  | .sysw num a => Sys2Proof.Machine.execSysw num a s
  | .varm d a b => Sys2Proof.Machine.execVarm d a b s
  | .vgo d a => Sys2Proof.Machine.execVgo d a s
  | .migr d a b => Sys2Proof.Machine.execMigr d a b s
  | .recordLeavesQueue core e => Sys2Proof.Machine.execRecordLeavesQueue core e s
  | .recordCompletion core e => Sys2Proof.Machine.execRecordCompletion core e s
  | .vadd r => Sys2Proof.Machine.execVadd r s
  | .vsub r => Sys2Proof.Machine.execVsub r s
  | .vmul r => Sys2Proof.Machine.execVmul r s
  | .vfma r => Sys2Proof.Machine.execVfma r s
  | .vfms r => Sys2Proof.Machine.execVfms r s
  | .vdiv r => Sys2Proof.Machine.execVdiv r s
  | .vmin r => Sys2Proof.Machine.execVmin r s
  | .vmax r => Sys2Proof.Machine.execVmax r s
  | .vabs r => Sys2Proof.Machine.execVabs r s
  | .vneg r => Sys2Proof.Machine.execVneg r s
  | .vcopysign r => Sys2Proof.Machine.execVcopysign r s
  | .vclamp r => Sys2Proof.Machine.execVclamp r s
  | .vround r => Sys2Proof.Machine.execVround r s
  | .vand r => Sys2Proof.Machine.execVand r s
  | .vor r => Sys2Proof.Machine.execVor r s
  | .vxor r => Sys2Proof.Machine.execVxor r s
  | .vnot r => Sys2Proof.Machine.execVnot r s
  | .vshl r => Sys2Proof.Machine.execVshl r s
  | .vshr r => Sys2Proof.Machine.execVshr r s
  | .vsar r => Sys2Proof.Machine.execVsar r s
  | .vcmp r => Sys2Proof.Machine.execVcmp r s
  | .vsel r => Sys2Proof.Machine.execVsel r s
  | .vmov r => Sys2Proof.Machine.execVmov r s
  | .vfill r => Sys2Proof.Machine.execVfill r s
  | .vcvt r => Sys2Proof.Machine.execVcvt r s
  | .vquant r => Sys2Proof.Machine.execVquant r s
  | .vdeq r => Sys2Proof.Machine.execVdeq r s
  | .vrcp r => Sys2Proof.Machine.execVrcp r s
  | .vsqrt r => Sys2Proof.Machine.execVsqrt r s
  | .vrsqrt r => Sys2Proof.Machine.execVrsqrt r s
  | .vexp r => Sys2Proof.Machine.execVexp r s
  | .vexp2 r => Sys2Proof.Machine.execVexp2 r s
  | .vlog r => Sys2Proof.Machine.execVlog r s
  | .vlog2 r => Sys2Proof.Machine.execVlog2 r s
  | .vtanh r => Sys2Proof.Machine.execVtanh r s
  | .verf r => Sys2Proof.Machine.execVerf r s
  | .vsum r => Sys2Proof.Machine.execVsum r s
  | .vdot r => Sys2Proof.Machine.execVdot r s
  | .vmaxr r => Sys2Proof.Machine.execVmaxr r s
  | .vscan r => Sys2Proof.Machine.execVscan r s
  | .vtopk r => Sys2Proof.Machine.execVtopk r s
  | .vargmax r => Sys2Proof.Machine.execVargmax r s
  | .vgath r => Sys2Proof.Machine.execVgath r s
  | .vscat r => Sys2Proof.Machine.execVscat r s
  | .vrng r => Sys2Proof.Machine.execVrng r s
  | .vamax r => Sys2Proof.Machine.execVamax r s
  | .vmode rm ovf en => Sys2Proof.Machine.execVmode rm ovf en s
  | .mlease r => Sys2Proof.Machine.execMlease r s
  | .mfree r => Sys2Proof.Machine.execMfree r s
  | .mma r => Sys2Proof.Machine.execMma r s
  | .mmas r => Sys2Proof.Machine.execMmas r s
  | .mmag r => Sys2Proof.Machine.execMmag r s
  | .mzero r => Sys2Proof.Machine.execMzero r s
  | .mlda r => Sys2Proof.Machine.execMlda r s
  | .mdrain r => Sys2Proof.Machine.execMdrain r s
  | .mfold r => Sys2Proof.Machine.execMfold r s
  | .mstat r => Sys2Proof.Machine.execMstat r s
  | .mmode rm ovf en => Sys2Proof.Machine.execMmode rm ovf en s
  | .tcopy r => Sys2Proof.Machine.execTcopy r s
  | .tgather r => Sys2Proof.Machine.execTgather r s
  | .tscatter r => Sys2Proof.Machine.execTscatter r s
  | .tfill r => Sys2Proof.Machine.execTfill r s
  | .tmap r => Sys2Proof.Machine.execTmap r s
  | .tunmap r => Sys2Proof.Machine.execTunmap r s
  | .tflush r => Sys2Proof.Machine.execTflush r s
  | .tprefetch r => Sys2Proof.Machine.execTprefetch r s
  | .twload r => Sys2Proof.Machine.execTwload r s
  | .tfetch r => Sys2Proof.Machine.execTfetch r s
  | .tmode tr => Sys2Proof.Machine.execTmode tr s
  | .qfence e mask => Sys2Proof.Machine.execQfence e mask s
  | .rld blk d a v t m => Sys2Proof.Machine.execRld blk d a v t m s
  | .rst blk b a v t m => Sys2Proof.Machine.execRst blk b a v t m s
  | .rsth blk b a v t h m => Sys2Proof.Machine.execRsth blk b a v t h m s
  | .ratom op d a b v t m => Sys2Proof.Machine.execRatom op d a b v t m s
  | .rcas d a b v t m => Sys2Proof.Machine.execRcas d a b v t m s
  | .rprobe d a v t => Sys2Proof.Machine.execRprobe d a v t s
  | .rfeat d v t => Sys2Proof.Machine.execRfeat d v t s
  | .grant d a b c => Sys2Proof.Machine.execGrant d a b c s
  | .revoke d a => Sys2Proof.Machine.execRevoke d a s
  | .rmcast d a b m => Sys2Proof.Machine.execRmcast d a b m s
  | .rred op b a v t m => Sys2Proof.Machine.execRred op b a v t m s
  | .rcopy put d a v t cls width => Sys2Proof.Machine.execRcopy put d a v t cls width s
  | .cjoin r => Sys2Proof.Machine.execCjoin r s
  | .callred r => Sys2Proof.Machine.execCallred r s
  | .credsc r => Sys2Proof.Machine.execCredsc r s
  | .callgath r => Sys2Proof.Machine.execCallgath r s
  | .cbcast r => Sys2Proof.Machine.execCbcast r s
  | .ctopk r => Sys2Proof.Machine.execCtopk r s
  | .cbar r => Sys2Proof.Machine.execCbar r s
  | .regionFill task lcore idx => Sys2Proof.Machine.execRegionFill task lcore idx s
  | .faultResolution id => Sys2Proof.Machine.execFaultResolution id s
  | .tierPromotion id => Sys2Proof.Machine.execTierPromotion id s
  | .responseRecord fn => Sys2Proof.Machine.execResponseRecord fn s
  | .endTaskWriteback task => Sys2Proof.Machine.execEndTaskWriteback task s
  | .completionSignalWrite task => Sys2Proof.Machine.execCompletionSignalWrite task s
  | .twloadApply task => Sys2Proof.Machine.execTwloadApply task s
  | .rotation core => Sys2Proof.Machine.execRotation core s
  | .preemptRequest task deadline => Sys2Proof.Machine.execPreemptRequest task deadline s
  | .deadlineExpiry task core => Sys2Proof.Machine.execDeadlineExpiry task core s
  | .gangRelease task => Sys2Proof.Machine.execGangRelease task s
  | .gangResume task binds => Sys2Proof.Machine.execGangResume task binds s
  | .watchdogExpiry task => Sys2Proof.Machine.execWatchdogExpiry task s
  | .powerWindowEnd watts => Sys2Proof.Machine.execPowerWindowEnd watts s
  | .admitStepTask task binds => Sys2Proof.Machine.execAdmitStepTask task binds s
  | .spawnAdmit vr task binds => Sys2Proof.Machine.execSpawnAdmit vr task binds s
  | .invalidation scope => Sys2Proof.Machine.execInvalidation scope s
  | .bankGate bank gate => Sys2Proof.Machine.execBankGate bank gate s
  | .wsRefreshWindow die => Sys2Proof.Machine.execWsRefreshWindow die s
  | .ackTimeout port => Sys2Proof.Machine.execAckTimeout port s
  | .loadRequest p => Sys2Proof.Machine.execLoadRequest p s
  | .storeRequest p => Sys2Proof.Machine.execStoreRequest p s
  | .storeWithHandler p => Sys2Proof.Machine.execStoreWithHandler p s
  | .atomicRequest p => Sys2Proof.Machine.execAtomicRequest p s
  | .casRequest p => Sys2Proof.Machine.execCasRequest p s
  | .probeRequest p => Sys2Proof.Machine.execProbeRequest p s
  | .featureQuery p => Sys2Proof.Machine.execFeatureQuery p s
  | .multicastStore p => Sys2Proof.Machine.execMulticastStore p s
  | .reducingStore p => Sys2Proof.Machine.execReducingStore p s
  | .replyWithData p => Sys2Proof.Machine.execReplyWithData p s
  | .acknowledgement p => Sys2Proof.Machine.execAcknowledgement p s
  | .retransmitTimeout src dst pseq => Sys2Proof.Machine.execRetransmitTimeout src dst pseq s
  | .busyRetransmit src dst pseq => Sys2Proof.Machine.execBusyRetransmit src dst pseq s
  | .holdStoreAbandon src dst pseq => Sys2Proof.Machine.execHoldStoreAbandon src dst pseq s
  | .arm p => Sys2Proof.Machine.execArm p s
  | .armReply p => Sys2Proof.Machine.execArmReply p s
  | .armTimeout launch => Sys2Proof.Machine.execArmTimeout launch s
  | .go p => Sys2Proof.Machine.execGo p s
  | .launchAbort p => Sys2Proof.Machine.execLaunchAbort p s
  | .armExpiry launch => Sys2Proof.Machine.execArmExpiry launch s
  | .lost p => Sys2Proof.Machine.execLost p s
  | .peerFailure launch => Sys2Proof.Machine.execPeerFailure launch s
  | .migrationContext part => Sys2Proof.Machine.execMigrationContext part s
  | .migrationDrainEnd vr => Sys2Proof.Machine.execMigrationDrainEnd vr s
  | .pullRequest p => Sys2Proof.Machine.execPullRequest p s
  | .pullData p arrived => Sys2Proof.Machine.execPullData p arrived s
  | .pullAcknowledgement p => Sys2Proof.Machine.execPullAcknowledgement p s
  | .snapshotTrigger p => Sys2Proof.Machine.execSnapshotTrigger p s
  | .createVr fn n => Sys2Proof.Machine.execCreateVr fn n s
  | .launch fn n => Sys2Proof.Machine.execLaunch fn n s
  | .cancel fn n => Sys2Proof.Machine.execCancel fn n s
  | .migrate fn n => Sys2Proof.Machine.execMigrate fn n s
  | .peerTokens fn n => Sys2Proof.Machine.execPeerTokens fn n s
  | .vrStatus fn n => Sys2Proof.Machine.execVrStatus fn n s
  | .quote fn n => Sys2Proof.Machine.execQuote fn n s
  | .identity fn n => Sys2Proof.Machine.execIdentity fn n s
  | .image fn n => Sys2Proof.Machine.execImage fn n s
  | .window fn n => Sys2Proof.Machine.execWindow fn n s
  | .partition fn n => Sys2Proof.Machine.execPartition fn n s
  | .locations fn n => Sys2Proof.Machine.execLocations fn n s
  | .bankWakeEnd bank => Sys2Proof.Machine.execBankWakeEnd bank s
  | .freePageRingRefill fn pages => Sys2Proof.Machine.execFreePageRingRefill fn pages s
  | .slotTableWrite index value => Sys2Proof.Machine.execSlotTableWrite index value s
  | .partitionWrite fn reg value => Sys2Proof.Machine.execPartitionWrite fn reg value s
  | .detmodeWrite value => Sys2Proof.Machine.execDetmodeWrite value s
  | .schedSnapWrite value => Sys2Proof.Machine.execSchedSnapWrite value s
  | .fabPortstatWrite port value => Sys2Proof.Machine.execFabPortstatWrite port value s
  | .registerWrite reg value => Sys2Proof.Machine.execRegisterWrite reg value s
  | .flitReceive port wave bytes => Sys2Proof.Machine.execFlitReceive port wave bytes s
  | .linkReplay port lseq => Sys2Proof.Machine.execLinkReplay port lseq s
  | .fecWindowEnd port wave corrected => Sys2Proof.Machine.execFecWindowEnd port wave corrected s
  | .retrainEnd port wave ok => Sys2Proof.Machine.execRetrainEnd port wave ok s
  | .mailboxPost fn n => Sys2Proof.Machine.execMailboxPost fn n s
  | .mailboxRelease fn n => Sys2Proof.Machine.execMailboxRelease fn n s
  | .qBaseWrite fn ring value => Sys2Proof.Machine.execQBaseWrite fn ring value s
  | .qTailWrite fn ring value => Sys2Proof.Machine.execQTailWrite fn ring value s
  | .qHeadWrite fn ring value => Sys2Proof.Machine.execQHeadWrite fn ring value s
  | .bar2Write off bytes => Sys2Proof.Machine.execBar2Write off bytes s
  | .functionLevelReset fn => Sys2Proof.Machine.execFunctionLevelReset fn s
  | .linkTraining link rate width => Sys2Proof.Machine.execLinkTraining link rate width s
  | .ret => Sys2Proof.Machine.execRet s
  | .barc => Sys2Proof.Machine.execBarc s
  | .barg => Sys2Proof.Machine.execBarg s
  | .esync => Sys2Proof.Machine.execEsync s
  | .tret => Sys2Proof.Machine.execTret s
  | .yield => Sys2Proof.Machine.execYield s
  | .region => Sys2Proof.Machine.execRegion s
  | .tail => Sys2Proof.Machine.execTail s
  | .halt => Sys2Proof.Machine.execHalt s
  | .nop => Sys2Proof.Machine.execNop s
  | .rfence => Sys2Proof.Machine.execRfence s
  | .budgetPeriodBoundary => Sys2Proof.Machine.execBudgetPeriodBoundary s
  | .signalRelay => Sys2Proof.Machine.execSignalRelay s
  | .snapshotLatch => Sys2Proof.Machine.execSnapshotLatch s
  | .mailboxTake => Sys2Proof.Machine.execMailboxTake s
  | .boot => Sys2Proof.Machine.execBoot s
  | .powerLoss => Sys2Proof.Machine.execPowerLoss s

end Sys2Proof.Machine
end

