-- ==== Sys2Proof/Machine/Due.lean ====
section
/-! DEFINITION. Machine/Due.lean: who moves when the agenda is empty (log 1, DESIGN CHOICE): the events that are due, each core's dispatch, then a cycle passes. -/

namespace Sys2Proof.Machine

/-- The turns of one engine of a core that has queued or running work (R35). -/
def EngineQ.due (core : Nat) (e : Engine) (q : EngineQ) : List Instr :=
  (if q.q.isEmpty then [] else [Instr.recordLeavesQueue core e]) ++ (if q.run.isNone then [] else [Instr.recordCompletion core e])

/-- The entry that an engine works on next. -/
def EngineQ.front (q : EngineQ) : Option Entry := q.all.head?

/-- The F-die that a core's next word or message injects on: that of the first path to its destination. -/
def State.injDie (s : State) (q : EngineQ) : Nat :=
  let die (src dst cls : Nat) : Nat :=
    match (s.locOf dst).map fun ep => s.pathsOf { blankPacket src dst ep 0 0 with cls := BitVec.ofNat 4 cls } with
    | some (p :: _) => portDie p.port
    | _ => 0
  match q.run.bind fun u => u.coll.bind fun k => k.out.head? with
  | some p => die p.p.srcvr.toNat p.p.dstvr.toNat p.p.cls.toNat
  | none => match q.front with
    | some x => die (s.taskAt x.ref.task).vr (targetVr (x.cap.vals.getD 2 0)) ((ordClass x.instr).getD 0).toNat
    | none => 0

/-- The place of a transfer record's far side among the requests for memory (R102, R213). -/
def State.farRank (s : State) (q : EngineQ) : Nat :=
  match q.front with
  | none => 0
  | some x => s.memRank (s.taskAt x.ref.task).vr (if x.cap.d.isStream then x.cap.a else x.cap.d).val.toNat

/-- The engines of a kind that have queued or running work. -/
def State.busy (s : State) (e : Engine) : List (Nat × EngineQ) := (s.cores.map fun c => (c.1, c.2.engine e)).filter fun c => !c.2.all.isEmpty

/-- Engines with queued or running work, but for those that ask for memory; what injects goes in the order of its F-die's pointer (R35, R213). -/
def State.dueEngines (s : State) : List Instr :=
  let run (e : Engine) : List Instr := (s.busy e).flatMap fun c => c.2.due c.1 e
  let inj (e : Engine) : List (Nat × List Instr) :=
    (s.busy e).map fun c => let d := s.injDie c.2; (288 * d + behindPtr 288 (sget 287 s.injPtr d) c.1, c.2.due c.1 e)
  run .v ++ run .m ++ (isort (fun x y => decide (x.1 ≤ y.1)) (inj .f ++ inj .c)).flatMap (·.2)

/-- Timers of packets, ports and arms that have run out (R181, R196, R198, R203, R290). -/
def State.dueTimers (s : State) : List Instr :=
  let t := s.cycle.toNat
  (s.unacked.filterMap fun u =>
    if u.got then none else if u.busy then (if u.at_ + 4096 ≤ t then some (Instr.busyRetransmit u.p.srcvr.toNat u.p.dstvr.toNat u.p.pseq) else none)
    else if u.at_ + 65536 ≤ t then some (Instr.retransmitTimeout u.p.srcvr.toNat u.p.dstvr.toNat u.p.pseq) else none) ++
  (s.hold.filterMap fun h =>
    if !h.past && decide (h.at_ + 2 ^ 20 ≤ t) && !(s.missingBefore (s.winFor h.p) h.p).isEmpty then some (Instr.holdStoreAbandon h.p.srcvr.toNat h.p.dstvr.toNat h.p.pseq) else none) ++
  (s.ports.filterMap fun e => if !e.2.replay.isEmpty && decide (e.2.since + 2 ^ 20 ≤ t) then some (Instr.ackTimeout e.1) else none) ++
  (s.sup.arming.filterMap fun a => if a.result.isNone && decide (a.until_ ≤ t) then some (Instr.armTimeout a.launch) else none) ++
  (s.sup.waitArm.filterMap fun w => if w.2 + 2 ^ 26 ≤ t then some (Instr.armExpiry (launchId w.1)) else none) ++
  (s.tasks.filterMap fun e => if e.2.phase = .armed ∧ e.2.armedAt + 2 ^ 26 ≤ t then some (Instr.armExpiry e.2.launch) else none)

/-- The expired deadlines of gangs that are not clean yet, on each of their cores (R47). -/
def State.dueExpiries (s : State) : List Instr :=
  s.tasks.flatMap fun e => if s.expired e.1 && !s.clean e.1 then (s.coresOf e.1).map fun c => Instr.deadlineExpiry e.1 c else []

/-- What a step task's life calls for next (R46, R47, R50, R220, R222, R346). -/
def State.dueTask (s : State) (task : Nat) (t : Task) : List Instr :=
  match t.phase with
  | .running =>
    (if (s.lcsOf task).all s.haltLine then [Instr.endTaskWriteback task] else []) ++
    (if t.preq then
      (if s.clean task then [Instr.gangRelease task]
      else [])
    else []) ++
    (if t.wdog ≠ 0 ∧ t.wdog * 65536 ≤ t.eligible then [Instr.watchdogExpiry task] else [])
  | .stopping =>
    if s.hasLists task then (if s.dieInUse (s.diesOf task) then [] else [Instr.twloadApply task])
    else if s.taskDone task then [Instr.completionSignalWrite task] else []
  | _ => []

/-- A pre-empted task may resume where its clusters are free (R46, R215, R225). -/
def State.dueResume (s : State) (task : Nat) : List Instr :=
  if !s.mayResume task then []
  else match s.pickBinds (s.taskAt task).vr task with
    | [] => []
    | bs => [.gangResume task bs]

/-- Launches, spawned tasks and signals that the supervisor takes up (R215, R284, R285). -/
def State.dueAdmission (s : State) : List Instr :=
  (match s.nextLaunch with
    | some l => [Instr.admitStepTask l.idx (s.pickBinds l.vr l.idx)]
    | none => []) ++
  (match s.nextSpawned, (List.range 64).find? s.indexFree with
    | some x, some t => [Instr.spawnAdmit x.vr t (s.pickBinds x.vr t)]
    | _, _ => []) ++
  (if (s.fns.any fun e => !e.2.events.isEmpty && (e.2.ring 2).room) || s.sup.signals.any fun g => ((s.fnAt g.2).ring 2).room
    then [.signalRelay] else []) ++
  (if s.nextPosted.isSome then [.mailboxTake] else [])

/-- What the supervisor's strand runs next: vgo for a launch whose varm answered 0, else varm for an admitted launch whose first member is this chip; nothing while a varm blocks it (R290, R401). -/
def State.dueLaunches (s : State) : List Turn :=
  match s.sup.arming.find? fun a => a.told && decide (a.result = some 0) && !a.gone with
  | some a => [.launchGo a.launch]
  | none =>
    if s.sup.arming.any fun a => !a.told then []
    else
      ((s.sup.launches.find? fun l =>
        l.task.isSome && (l.members.head?).any (fun m => decide (m.1 = s.endpoint.toNat ∧ m.2 = l.idx)) &&
          !s.sup.arming.any fun a => decide (a.launch = l.id)).map fun l => Turn.launchArm l.id).toList

/-- Cores whose present sharer gives way (R31). -/
def State.dueRotations (s : State) : List Instr :=
  ((s.binds.filter fun e => bindValid e.2).map fun e => e.1 / 4).eraseDups.flatMap fun p =>
    if (s.sharers p).length ≤ 1 then []
    else (List.range 4).filterMap fun i =>
      let c := 4 * p + i
      let k := (s.coreAt c).present
      if !(s.sharers p).contains k ∨ s.mayRotate c (s.lcOn c k) then some (.rotation c) else none

/-- Up to 256 HBM4E pages of a function that the supervisor has not given out (R107; log 40, DESIGN CHOICE). -/
def Fn.freshPages (f : Fn) : Nat → Nat → List Word
  | 0, _ => []
  | k + 1, at_ =>
    match nextIn f.hbmSlice 0 0xC0000000 127 at_ with
    | some pa => BitVec.ofNat 64 pa :: f.freshPages k (pa + 65536)
    | none => []

/-- The function has an HBM4E page or a page to demote for its ring. -/
def State.ringSupply (s : State) (fn : Nat) : Bool := (decide (fn = 0) && (s.fnAt 0).nextHbmPage.isSome) || !(s.candidates fn).isEmpty

/-- Rings below 256 entries that can be refilled or that an access waits on (R107); only for the physical function does the supervisor hold pages of its own (log 40, DESIGN CHOICE). -/
def State.dueRings (s : State) : List Instr :=
  (List.range 32).filterMap fun fn =>
    if decide ((s.fnAt fn).free.length < 256) && (s.ringWanted fn || s.ringSupply fn) then
      some (.freePageRingRefill fn (if fn = 0 then (s.fnAt 0).freshPages 256 (s.fnAt 0).nextHbm else []))
    else none

/-- Fills that have started and not ended: task, logical core, index (R93, R118). -/
def State.dueFills (s : State) : List (Nat × Nat × Nat) :=
  s.lcores.flatMap fun l => (l.2.regions.filter fun r => r.2.filling).map fun r => (l.1 / 288, l.1 % 288, r.1)

/-- Everything else that is due (R100, R206, R219, R231). -/
def State.dueRest (s : State) : List Instr :=
  (if s.periodAt ≤ s.cycle.toNat then [.budgetPeriodBoundary] else []) ++
  (if s.sup.latching.any fun l => decide (l.2 ≤ s.cycle.toNat) then [.snapshotLatch] else []) ++
  (s.cores.flatMap fun c => (c.2.waking.filter (·.2)).map fun b => Instr.bankWakeEnd (.spad c.1 b.1)) ++
  ((s.wsWaking.filter (·.2)).map fun b => Instr.bankWakeEnd (.ws (b.1 / 16) (b.1 % 16))) ++
  (s.vrs.filterMap fun e => match e.2 with
    | some v => (match v.moving with
      | .leaving _ => if s.hold.any fun h => decide (h.p.dstvr.toNat = e.1) then none else some (Instr.migrationDrainEnd e.1)
      | _ => none)
    | none => none)

/-- The cores that have a strand which is ready or blocked. -/
def State.busyCores (s : State) : List Nat :=
  ((s.strands.filter fun e => decide (e.2.status = .ready ∨ e.2.status = .blocked)).map fun e => s.coreOf (e.1 / 1152) (e.1 / 4 % 288)).eraseDups

/-! ## Partition writes before bind writes (R234) -/

/-- The function whose partition a turn writes: by register, or by message (R216, R393). -/
def State.partFn (s : State) (t : Turn) : Option Nat :=
  match t with
  | .event (.partitionWrite f _ _) => some f
  | .event (.partition f n) => some (pword (s.mbx f n).payload 0)
  | _ => none

/-- The function that a turn writes binds for: a slot-table write, an arm, an admission or a resumption (R29, R203, R211). -/
def State.bindFn (s : State) (t : Turn) : Option Nat :=
  let of_ (vr : Nat) : Option Nat := (s.vrAt vr).map Vr.fn
  match t with
  | .event (.slotTableWrite i v) => some (s.slotFn i v)
  | .event (.arm p) => (s.launchAt (launchId p) (armIdx p)).bind fun l => of_ l.vr
  | .event (.admitStepTask ..) => s.nextLaunch.bind fun l => of_ l.vr
  | .event (.spawnAdmit vr _ _) => of_ vr
  | .event (.gangResume task _) => some (s.taskAt task).fn
  | _ => none

/-- A partition write for one function comes before a bind write in its cycle (R234). -/
def State.partsFirst (s : State) : State :=
  match s.agenda with
  | [] => s
  | t :: _ =>
    match s.bindFn t with
    | none => s
    | some f =>
      let now := s.agenda.takeWhile fun t => match t with | .tick _ => false | _ => true
      match now.find? fun t => decide (s.partFn t = some f) with
      | some w => { s with agenda := w :: s.agenda.erase w }
      | none => s

/-! ## A cycle's turns -/

/-- The address of a scalar access to the global space. -/
def gvAddr (t : Strand) (i : Instr) : Option Nat :=
  let of_ (m : SMem) (a : Word) : Option Nat := if m.space = .gv then some a.toNat else none
  match i with
  | .ld _ a m | .st _ a m | .atom _ _ a _ m | .cas _ a _ m => of_ m (addrOf (t.reg a) m.off)
  | .lda _ a m | .stl _ a m => of_ m (t.reg a)
  | _ => none

/-- The place of a core's dispatch among the requests for memory, where its next instruction makes one (R213). -/
def State.dispatchRank (s : State) (core : Nat) : Option Nat :=
  (s.pick core).bind fun e =>
    let t := s.strandAt e.2.key
    (t.ir.bind (gvAddr t)).map (s.memRank (s.taskAt e.2.task).vr)

/-- What asks for memory in a cycle: transfer records, fills and scalar accesses, the functions at a stack in the order of its pointer (R102, R213). -/
def State.memTurns (s : State) : List Turn :=
  let ranked : List (Nat × Turn) :=
    (s.busy .t).flatMap (fun c => (c.2.due c.1 .t).map fun i => (s.farRank c.2, Turn.event i)) ++
    (s.dueFills.map fun f => (s.memRank (s.taskAt f.1).vr (((s.lcoreAt (lckey f.1 f.2.1)).reg f.2.2).va.toNat + ((s.lcoreAt (lckey f.1 f.2.1)).reg f.2.2).fillAt),
      Turn.event (.regionFill f.1 f.2.1 f.2.2))) ++
    s.busyCores.filterMap fun c => (s.dispatchRank c).map fun n => (n, Turn.dispatch c)
  (isort (fun x y => decide (x.1 ≤ y.1)) ranked).map (·.2)

/-- The turns of one cycle when the agenda is empty (log 1, DESIGN CHOICE). -/
def State.cycleTurns (s : State) : List Turn :=
  (s.dueExpiries ++ s.dueEngines ++ s.dueTimers ++ (s.tasks.flatMap fun e => s.dueTask e.1 e.2 ++ s.dueResume e.1) ++ s.dueAdmission ++
    s.dueRotations ++ s.dueRings ++ s.dueRest).map Turn.event ++ s.dueLaunches ++ s.memTurns ++
    (s.busyCores.filter fun c => (s.dispatchRank c).isNone).map Turn.dispatch ++ [.tick 1]

end Sys2Proof.Machine
end

