-- ==== Sys2Proof/Machine/Issue.lean ====
section
/-! DEFINITION. Machine/Issue.lean: a strand issues an instruction (R34, R235); which strands are ready (R33); a core's dispatch (R34, R213); the passing of a cycle (R5, R31, R99, R222). -/

namespace Sys2Proof.Machine

/-! ## Issuing -/

/-- A strand that an instruction blocks stays at it, and at the yield that it retired before, `y` (R31, R33); one that goes on has no access left on the fault path (R112). -/
def State.keepAt (s : State) (k : Nat) (i : Instr) (y : Bool) : State :=
  if (s.strandAt k).status = .blocked then s.onStrand k fun t => { t with ir := some i, atYield := y }
  else (s.settle (.strand k)).onStrand k fun t => { t with ir := none }

/-- The issuing strand leaves the yield that it retired (R31). -/
def State.leaveYield (s : State) : State := s.onMe fun t => { t with atYield := false }

/-- Run an instruction of the issuing strand. -/
def issueOf (i : Instr) (s : State) : Host.Outcome State Fault Refusal :=
  match exec i s.leaveYield with
  | .next t => .next (t.keepAt s.cur.key i s.me.atYield)
  | o => o

/-- The strand `cur` issues one instruction: the one it is blocked at, else fetch, decode, run (R34, R235); a word that does not decode traps (R254), a refused fetch stops the step task (R112). -/
def issue (s : State) : Host.Outcome State Fault Refusal :=
  match s.me.ir with
  | some i => issueOf i s
  | none =>
    match s.fetch with
    | (s, .ok i) => issueOf i s
    | (s, .trap x cls) => .next (s.leaveYield.takeTrap cls x)
    | (s, .refused) => .next (s.stopTask s.cur.task cEngine 2)
    | (s, .wait) => .next s.block

/-! ## Ready and blocked strands (R33) -/

/-- Give a strand a status. -/
def State.setStatus (s : State) (k : Nat) (st : Status) : State := s.onStrand k fun t => { t with status := st }

/-- A strand fetches the instruction that it runs next, if it has not; a fetch that waits blocks it, and one that traps or is refused is left to its issue (R33, R235). -/
def State.fetchAhead (s : State) (r : Ref) : State :=
  if (s.strandAt r.key).ir.isSome then s
  else
    match State.fetch { s with cur := r } with
    | (t, .ok i) => { t with cur := s.cur }.onStrand r.key fun x => { x with status := .ready, ir := some i }
    | (t, .wait) => { t with cur := s.cur }.setStatus r.key .blocked
    | _ => s.setStatus r.key .ready

/-- The strand's instruction, tried, would leave the machine as it is with the strand blocked at it (R33). -/
def State.cannotDispatch (s : State) (r : Ref) (i : Instr) : Bool :=
  match issueOf i { s with cur := r } with
  | .next t => decide ((t.strandAt r.key).status = .blocked ∧ { t with cur := s.cur } = s.setStatus r.key .blocked)
  | _ => false

/-- Give a strand's status where it is ready or blocked: ready when its next instruction can dispatch, which is then still to be done; blocked when trying it changes nothing; blocked while its sharer is absent or a rotation is due. -/
def State.judgeStrand (s : State) (r : Ref) : State :=
  if (s.strandAt r.key).status ≠ .ready ∧ (s.strandAt r.key).status ≠ .blocked then s
  else if (s.taskAt r.task).phase ≠ .running then s
  else if !s.canIssue r then s.setStatus r.key .blocked
  else
    let s := s.fetchAhead r
    match (s.strandAt r.key).ir with
    | some i => s.setStatus r.key (if s.cannotDispatch r i then .blocked else .ready)
    | none => s

/-- Judge every strand of a core. -/
def State.judgeCore (s : State) (core : Nat) : State :=
  ((s.strands.map fun e => refOf e.1).filter fun r => decide (s.coreOf r.task r.lcore = core)).foldl State.judgeStrand s

/-- A core dispatches one instruction of its ready strands (R34, R213). -/
def State.dispatch (s : State) (core : Nat) : Host.Outcome State Fault Refusal :=
  let s := s.judgeCore core
  match s.pick core with
  | some (_, r) => issue (s.toIssue r)
  | none => .next s

/-! ## The watchdog's eligible cycles (R222) -/

/-- The first entry that could leave a queue if budgets let it (R35, R219). -/
def State.firstOut (s : State) (core : Nat) (e : Engine) : List Entry → List Entry → Option Entry
  | _, [] => none
  | ahead, x :: t => if !x.isFence && s.couldLeave core e ahead x then some x else s.firstOut core e (ahead ++ [x]) t

/-- The resource of a held or waiting store (R218). -/
def Held.resource (h : Held) : Option Nat :=
  match h with
  | .fence .. => none
  | .remote .. => some 1
  | _ => some 0

/-- An access has been issued and waits on the fault path: it is a request that no budget holds. -/
def State.onFaultPath (s : State) (w : Who) : Bool := s.faults.any fun f => f.who.contains w

/-- What waits is a request: on the fault path, where no budget holds it, or held by one; else it waits for something else. -/
def State.heldAsk (s : State) (vr r : Nat) (w : Option Who) : List Bool :=
  if w.any s.onFaultPath then [false] else if s.budgetHeld vr r then [true] else []

/-- The machine with every allotment unlimited. -/
def State.unbudgeted (s : State) : State := { s with fns := smapAll Fn.init (fun _ f => { f with allot := [] }) s.fns }

/-- A blocked strand's request: its fetch, or a scalar access that only a budget keeps from dispatching, or that waits on the fault path. -/
def State.strandAsk (s : State) (k : Nat) (t : Strand) : List Bool :=
  let vr := (s.taskAt (k / 1152)).vr
  if t.status ≠ .blocked then []
  else
    match t.ir with
    | none => s.heldAsk vr 0 (some (.strand k))
    | some i =>
      if s.onFaultPath (.strand k) then [false]
      else if (gvAddr t i).isSome && s.budgetHeld vr 0 && !s.unbudgeted.cannotDispatch (refOf k) i then [true]
      else []

/-- A running record's requests: a transfer's next element, or messages to send. -/
def Run.asks (s : State) (u : Run) : List Bool :=
  let vr := (s.taskAt u.e.ref.task).vr
  match engineResource u.e.instr, u.coll with
  | some 0, _ => s.heldAsk vr 0 (some (.record u.e.uid))
  | _, some k => if k.out.isEmpty then [] else s.heldAsk vr 1 none
  | _, none => []

/-- The resource requests that a step task's gang makes, and whether a budget holds each: records that leave their queues or run, fetches and scalar accesses, stores that wait, packets to send, fills (R218, R219, R222). -/
def State.requests (s : State) (task : Nat) : List Bool :=
  let vr := (s.taskAt task).vr
  let qs := s.cores.flatMap fun c => engines.map fun e => (c.1, e, c.2.engine e)
  let mine := s.strands.filter fun e => decide (e.1 / 1152 = task)
  let store (h : Held) : List Bool := h.resource.toList.flatMap fun r => s.heldAsk vr r h.who
  (qs.flatMap fun q => ((s.firstOut q.1 q.2.1 [] q.2.2.q).filter fun x => decide (x.ref.task = task)).toList.flatMap fun x =>
    (engineResource x.instr).toList.map fun r => s.budgetHeld vr r) ++
  (qs.flatMap fun q => (q.2.2.run.filter fun u => decide (u.e.ref.task = task)).toList.flatMap (Run.asks s)) ++
  (mine.flatMap fun e => s.strandAsk e.1 e.2 ++ e.2.pending.flatMap store) ++
  ((s.lcsOf task).flatMap fun lc => ((s.lcoreAt lc).pending.flatMap fun e => store e.2.2) ++
    ((s.lcoreAt lc).regions.filter fun r => r.2.filling).flatMap fun r => s.heldAsk vr 0 (some (.region lc r.1))) ++
  ((s.rops.filter fun o => decide (o.ref.task = task) && o.com && o.held.any fun l => !l.isEmpty).flatMap fun _ => s.heldAsk vr 1 none)

/-- Every resource request of a task's gang is held by a budget, and there is one (R219, R222). -/
def State.gangHeld (s : State) (task : Nat) (t : Task) : Bool :=
  (s.budgetHeld t.vr 0 || s.budgetHeld t.vr 1) && !(s.requests task).isEmpty && (s.requests task).all id

/-! ## A cycle passes -/

/-- `n` cycles pass: strands are judged, what waits is tried again, the supervisor takes spawn requests, turns end, rotations become due; the chip's counter, the refresh phases, the eligible cycles of running tasks (R5, R31, R33, R99, R112, R164, R222, R284). -/
def State.tick (s : State) (n : Nat) : State :=
  let s := s.busyCores.foldl State.judgeCore s
  let s := s.pump.takeQueues.endTurns.setRotations
  let f : Nat → Task → Task := fun k t =>
    if t.phase = .running ∧ s.clockStep = 16 ∧ !s.gangHeld k t then { t with eligible := t.eligible + n } else t
  { s with
    cycle := s.cycle + BitVec.ofNat 64 n
    wsPhase := [0, 1, 2, 3].foldl (fun m d => sset 0 m d ((sget 0 s.wsPhase d + n) % 16384)) s.wsPhase
    tasks := smapAll Task.init f s.tasks }

end Sys2Proof.Machine
end

