-- ==== Sys2Proof/Machine/Step.lean ====
section
/-! DEFINITION. Machine/Step.lean: one step of the machine: the agenda's next turn (log 1, DESIGN CHOICE); a strand's turn fetches, decodes and runs one instruction. -/

namespace Sys2Proof.Machine

/-- One turn of the agenda. -/
def turn (t : Turn) (s : State) : Host.Outcome State Fault Refusal :=
  match t with
  | .strand r => if s.canIssue r then issue (s.toIssue r) else .next s
  | .dispatch c => s.dispatch c
  | .event i => exec i s
  | .sup i => exec i { s with cur := supRef }
  | .launchArm id => exec (.varm 3 1 2) (s.readyVarm id)
  | .launchGo id => exec (.vgo 4 1) (s.readyVgo id)
  | .tick n => .next (s.tick n)
  | .dropTlb c v p => .next (s.onCore c fun x => { x with tlb := x.tlb.filter fun t => !decide (t.vr = v ∧ t.page = p) })
  | .hostWrite a bs => .next { s with hostMem := s.hostMem.setBytes a bs }
  | .mbxWrite f n off bs => .next (s.onFn f fun x =>
      let m := sget Mbx.zero x.mbx n
      if m.st = .busy then x else { x with mbx := sset Mbx.zero x.mbx n { m with bytes := m.bytes.setBytes off (bs.take (4096 - off)) } })

/-- The turn that needs no power: BOOT (R397). -/
def Turn.isBoot : Turn → Bool
  | .event .boot => true
  | _ => false

/-- The machine with its agenda refilled when it is empty, and a partition write before a bind write (R234; log 1, DESIGN CHOICE). -/
def State.filled (s : State) : State := (if s.agenda.isEmpty then { s with agenda := s.cycleTurns } else s).partsFirst

/-- One step: the first turn of the agenda (log 1, DESIGN CHOICE). (log 88, DEDUCED) -/
def step (s : State) : Host.Outcome State Fault Refusal :=
  match s.filled.agenda with
  | [] => .next s.filled
  | t :: rest =>
    if s.power || t.isBoot then turn t { s.filled with agenda := rest } else .fault .noPower

/-- `s` with one instruction of `nbits` bits placed where the next step fetches, and all that this fetch takes (log 7, DESIGN CHOICE). -/
def State.withFetchWord (s : State) (nbits w : Nat) : State := s.placed (tableWords (w % 2 ^ nbits))

end Sys2Proof.Machine
end

