-- ==== Sys2Proof/Machine/Ordering.lean ====
section
/-! DEFINITION. Machine/Ordering.lean: the memory-ordering axioms (R119 to R143) as relations over the accesses of a small case, and the test catalogue (R144 to R160). -/

namespace Sys2Proof.Machine.Order

/-! ## Accesses and agents (R119 to R121, R126) -/

/-- The paths, and none for the map unit's own accesses (R121). -/
inductive APath | s | v | m | t | f | c | none
  deriving DecidableEq, Repr

/-- A read, a write, or an arrival or departure of a barrier or semaphore (R120, R129). -/
inductive Dir | read | write | sync
  deriving DecidableEq, Repr

/-- An access: strand, place in program order, path, ordering class, direction, location, the value of a write, release and acquire scopes, destination VR, whether it parks its strand, and for a held store the place of the instruction that commits it (R120 to R123, R125, R127). -/
structure Access where
  strand : Nat
  at_    : Nat
  path   : APath
  cls    : Nat
  dir    : Dir
  loc    : Nat
  val    : Nat
  rel    : Option (BitVec 3)
  acq    : Option (BitVec 3)
  dest   : Nat
  parks  : Bool
  held   : Option Nat
  /-- Its place in the expansion of its record; parts of one wide access share it (R120, R122). -/
  sub    : Nat := 0
  deriving DecidableEq, Repr

/-- The scope instances of a strand: its logical core, logical cluster, gang, chip and VR (R126). -/
structure Party where
  lcore : Nat
  clus  : Nat
  gang  : Nat
  chip  : Nat
  vr    : Nat
  deriving DecidableEq, Repr

/-- The fences (R124). -/
inductive FenceKind
  | fence (mask : Nat) | qfence (p : APath) (mask : Nat) | xfence (p q : APath) | rfence
  deriving DecidableEq, Repr

/-- A fence of a strand at a place of its program. -/
structure Fence where
  strand : Nat
  at_    : Nat
  kind   : FenceKind
  deriving DecidableEq, Repr

/-- A case: its accesses, the parties of its strands, fences, dependencies, records of different queues that conflict, RMW pairs, arrivals with the departures they synchronise (R129), and the edges of R135 to R141. Accesses are named by their place in `acc`. -/
structure Case where
  acc     : List Access
  parties : List Party
  fences  : List Fence
  deps    : List (Nat × Nat)
  ranges  : List (Nat × Nat)
  rmws    : List (Nat × Nat)
  syncs   : List (Nat × Nat)
  more    : List (Nat × Nat)
  deriving DecidableEq, Repr

/-- A choice of reads-from (none: the initial value) and coherence order (R122). -/
structure Choice where
  rf : List (Nat × Option Nat)
  co : List Nat
  deriving DecidableEq, Repr

/-- An access that is not there; what a case does not say of an access is as here. A barrier's or semaphore's access has class 0 where a case gives none: R129 puts it on path s, and R121 gives class 0 to an instruction without one (log 111, DEDUCED). -/
def Access.blank : Access := ⟨0, 0, .none, 0, .sync, 0, 0, none, none, 0, false, none, 0⟩

/-- The access named `i`. -/
def Case.at (k : Case) (i : Nat) : Access := k.acc.getD i Access.blank

/-- The names of a case's accesses. -/
def Case.ids (k : Case) : List Nat := List.range k.acc.length

/-! ## Relations (R122 to R125) -/

/-- Program order of one strand: dispatch order, then the expansion order within a record (R122). -/
def po (a b : Access) : Bool := decide (a.strand = b.strand ∧ (a.at_ < b.at_ ∨ a.at_ = b.at_ ∧ a.sub < b.sub))

/-- Two accesses belong to one agent (R121). -/
def sameAgent (a b : Access) : Bool := decide (a.strand = b.strand ∧ a.path = b.path)

/-- A fence of the strand orders a before b (R124). -/
def Fence.orders (f : Fence) (a b : Access) : Bool :=
  decide (f.strand = a.strand ∧ a.at_ < f.at_ ∧ f.at_ < b.at_) &&
  match f.kind with
  | .fence m => decide (a.path = .s ∧ b.path = .s ∧ m / 2 ^ a.cls % 2 = 1 ∧ m / 2 ^ b.cls % 2 = 1)
  | .qfence e m => decide (a.path = e ∧ b.path = e ∧ m / 2 ^ a.cls % 2 = 1 ∧ m / 2 ^ b.cls % 2 = 1)
  | .xfence p q => decide (a.path = p ∧ b.path = q)
  | .rfence => decide (a.path = .f ∧ b.path = .f)

/-- Preserved program order (R123 to R125). -/
def Case.ppo (k : Case) (i j : Nat) : Bool :=
  let a := k.at i
  let b := k.at j
  po a b && decide (a.path ≠ .none) && decide (b.path ≠ .none) &&
    (match a.held with | some c => decide (c < b.at_) | none => true) &&
    (decide (a.path = b.path ∧ a.cls = b.cls ∧ (a.path = .f → a.dest = b.dest)) ||
      decide (a.path = b.path ∧ a.dir ≠ .sync ∧ b.dir ≠ .sync ∧ a.loc = b.loc) ||
      k.ranges.contains (i, j) || k.deps.contains (i, j) || a.parks || k.fences.any fun f => f.orders a b)

/-- Coherence order of two writes to one location (R122). -/
def Choice.before (x : Choice) (k : Case) (i j : Nat) : Bool :=
  decide ((k.at i).loc = (k.at j).loc ∧ x.co.idxOf i < x.co.idxOf j ∧ x.co.idxOf j < x.co.length)

/-- reads-from. -/
def Choice.from_ (x : Choice) (w r : Nat) : Bool := x.rf.contains (r, some w)

/-- fr: the read's source is co-before the write, or the read reads the initial value (R122). -/
def Choice.fr (x : Choice) (k : Case) (r w : Nat) : Bool :=
  decide ((k.at r).dir = .read ∧ (k.at w).dir = .write ∧ (k.at r).loc = (k.at w).loc) &&
    (x.rf.contains (r, none) || k.ids.any fun v => x.from_ v r && x.before k v w)

/-! ## Scopes and synchronises-with (R126, R127, R134) -/

/-- A scope of one strand includes another (R126); a remote party lies only in the peer instance (R134). -/
def Case.includes (k : Case) (sc : BitVec 3) (a b : Access) : Bool :=
  let p := k.parties.getD a.strand ⟨0, 0, 0, 0, 0⟩
  let q := k.parties.getD b.strand ⟨0, 0, 0, 0, 0⟩
  if a.path = .f ∨ b.path = .f then decide (sc = 6)
  else
    match sc.toNat with
    | 0 => decide (a.strand = b.strand)
    | 1 => decide (p.lcore = q.lcore)
    | 2 => decide (p.clus = q.clus)
    | 3 => decide (p.gang = q.gang)
    | 4 => decide (p.chip = q.chip)
    | 5 => decide (p.vr = q.vr)
    | 6 => true
    | _ => false

/-- A write is the write of an RMW. -/
def Case.isRmw (k : Case) (w : Nat) : Bool := k.rmws.any fun e => decide (e.2 = w)

/-- The read reads the write, or an RMW behind it with nothing but RMWs between (R127). -/
def Choice.reads (x : Choice) (k : Case) (w r : Nat) : Bool :=
  x.from_ w r || k.ids.any fun v => x.from_ v r && k.isRmw v && x.before k w v &&
    k.ids.all fun u => !(x.before k w u && x.before k u v) || k.isRmw u

/-- synchronises-with (R127, R129). -/
def Choice.sw (x : Choice) (k : Case) (w r : Nat) : Bool :=
  k.syncs.contains (w, r) ||
  match (k.at w).rel, (k.at r).acq with
  | some p, some q => x.reads k w r && k.includes p (k.at w) (k.at r) && k.includes q (k.at r) (k.at w)
  | _, _ => false

/-- sys.scopestat that a read leaves, where it reads a release whose pair of scopes does not match (R127, R128). -/
def Choice.stat (x : Choice) (k : Case) (r : Nat) : BitVec 16 :=
  match k.ids.find? fun w => x.reads k w r && (k.at w).rel.isSome && (k.at r).acq.isSome && !x.sw k w r with
  | some w => mismatch ((k.at w).rel.getD 0) ((k.at r).acq.getD 0) (BitVec.ofNat 4 (k.at r).cls)
  | none => 0

/-- The release side of a sync or write. -/
def Access.releases (a : Access) : Bool := a.rel.isSome && decide (a.dir ≠ .read)

/-- relpo: to a later release of the strand on the same path (R132). -/
def relpo (a r : Access) : Bool := po a r && decide (a.path = r.path) && r.releases

/-- acqpo: from an acquire to the later accesses of its strand on the path (R132). -/
def acqpo (a b : Access) : Bool := po a b && decide (a.path = b.path) && a.acq.isSome

/-! ## The axioms (R130 to R132) -/

/-- The edges over the accesses of a case that a relation gives. -/
def Case.edges (k : Case) (r : Nat → Nat → Bool) : List (Nat × Nat) :=
  k.ids.flatMap fun i => (k.ids.filter fun j => r i j).map fun j => (i, j)

/-- Take away nodes without incoming edges until none is left. -/
def peel (es : List (Nat × Nat)) : Nat → List Nat → List Nat
  | 0, ns => ns
  | k + 1, ns => peel es k (ns.filter fun n => es.any fun e => decide (e.2 = n) && ns.contains e.1)

/-- A relation over the accesses of a case is acyclic. -/
def Case.acyclic (k : Case) (r : Nat → Nat → Bool) : Bool := (peel (k.edges r) k.acc.length k.ids).isEmpty

/-- R130. -/
def Choice.coherent (x : Choice) (k : Case) : Bool :=
  k.acyclic fun i j =>
    let a := k.at i
    let b := k.at j
    x.from_ i j || x.before k i j || x.fr k i j ||
      (po a b && decide (a.path = b.path ∧ a.loc = b.loc ∧ a.dir ≠ .sync ∧ b.dir ≠ .sync))

/-- R131. -/
def Choice.atomic (x : Choice) (k : Case) : Bool :=
  k.rmws.all fun e => k.ids.all fun w =>
    !(decide ((k.at w).dir = .write ∧ w ≠ e.2) && x.fr k e.1 w && x.before k w e.2)

/-- A read of the strand's own held bytes before their commit: its rf edge is not in rfe (R125). -/
def ownHeld (w r : Access) : Bool :=
  decide (w.strand = r.strand) && match w.held with
  | some c => decide (r.at_ < c)
  | none => false

/-- One edge of ob (R132); `k.more` holds those of R135 to R141. -/
def Choice.ob1 (x : Choice) (k : Case) (i j : Nat) : Bool :=
  let a := k.at i
  let b := k.at j
  let far := !sameAgent a b
  k.ppo i j || (far && ((x.from_ i j && !ownHeld a b) || x.before k i j || x.fr k i j)) || k.more.contains (i, j) ||
    (k.ids.any fun w => (decide (w = i) || relpo a (k.at w)) && k.ids.any fun r =>
      x.sw k w r && (decide (r = j) || acqpo (k.at r) b))

/-- The choice satisfies the three axioms (R130 to R132). -/
def Choice.good (x : Choice) (k : Case) : Bool := x.coherent k && x.atomic k && k.acyclic (x.ob1 k)

/-! ## Every choice -/

/-- Every order of a list. -/
def orders : List Nat → List (List Nat)
  | [] => [[]]
  | a :: t => (orders t).flatMap fun l => (List.range (l.length + 1)).map fun i => l.take i ++ a :: l.drop i

/-- Every source of every read. -/
def Case.sources (k : Case) : List Nat → List (List (Nat × Option Nat))
  | [] => [[]]
  | r :: t => (none :: ((k.ids.filter fun w => decide ((k.at w).dir = .write ∧ (k.at w).loc = (k.at r).loc)).map some)).flatMap fun o =>
      (k.sources t).map fun l => (r, o) :: l

/-- Every choice of rf and co. -/
def Case.choices (k : Case) : List Choice :=
  let ws := k.ids.filter fun i => decide ((k.at i).dir = .write)
  let rs := k.ids.filter fun i => decide ((k.at i).dir = .read)
  (k.sources rs).flatMap fun rf => (orders ws).map fun co => ⟨rf, co⟩

/-- The value that read `r` returns; initial values are zero (R144). -/
def Choice.value (x : Choice) (k : Case) (r : Nat) : Nat :=
  match x.rf.find? fun e => decide (e.1 = r) with
  | some (_, some w) => (k.at w).val
  | _ => 0

/-- The value that a location ends with: the last write in coherence order. -/
def Choice.final (x : Choice) (k : Case) (loc : Nat) : Nat :=
  match (x.co.filter fun w => decide ((k.at w).loc = loc)).getLast? with
  | some w => (k.at w).val
  | none => 0

/-- An outcome is allowed: some choice that satisfies the axioms shows it (R145). -/
def Case.allows (k : Case) (out : Choice → Bool) : Bool := k.choices.any fun x => out x && x.good k

/-! ## The test catalogue (R144) -/

/-- A read on path s. -/
def ldAcc (strand at_ cls loc : Nat) (acq : Option (BitVec 3)) : Access :=
  { Access.blank with strand := strand, at_ := at_, path := .s, cls := cls, dir := .read, loc := loc, acq := acq }

/-- A write on path s. -/
def stAcc (strand at_ cls loc val : Nat) (rel : Option (BitVec 3)) : Access :=
  { Access.blank with strand := strand, at_ := at_, path := .s, cls := cls, dir := .write, loc := loc, val := val, rel := rel }

/-- A remote store's write at its destination, of VR `dest`. -/
def rstAcc (strand at_ cls loc val dest : Nat) (rel : Option (BitVec 3)) : Access :=
  { stAcc strand at_ cls loc val rel with path := .f, dest := dest }

/-- Four strands 0 to 3 of distinct logical cores of one gang (R144). -/
def gangOfFour : List Party := (List.range 4).map fun i => ⟨i, 0, 0, 0, 0⟩

/-- A case on path s alone. -/
def plainCase (acc : List Access) (fences : List Fence) (deps : List (Nat × Nat)) : Case :=
  { acc := acc, parties := gangOfFour, fences := fences, deps := deps, ranges := [], rmws := [], syncs := [], more := [] }

/-- fence 0x0006 of a strand between its steps 1 and 2. -/
def fence6 (strand : Nat) : Fence := ⟨strand, 1, .fence 6⟩

/-- MP and its variants (R146 to R148): classes of the four accesses, fences, and the scopes of the release and the acquire. -/
def mp (a b c d : Nat) (fences : List Fence) (rel acq : Option (BitVec 3)) : Case :=
  plainCase [stAcc 0 0 a 0 1 none, stAcc 0 2 b 1 1 rel, ldAcc 1 0 c 1 acq, ldAcc 1 2 d 0 none] fences []

/-- s10 = 1 and s11 = 0. -/
def stale (k : Case) (x : Choice) : Bool := decide (x.value k 2 = 1 ∧ x.value k 3 = 0)

/-- SB (R149). -/
def sb (a b : Nat) (fences : List Fence) : Case :=
  plainCase [stAcc 0 0 a 0 1 none, ldAcc 0 2 b 1 none, stAcc 1 0 a 1 1 none, ldAcc 1 2 b 0 none] fences []

/-- LB (R150). -/
def lb (fences : List Fence) (deps : List (Nat × Nat)) : Case :=
  plainCase [ldAcc 0 0 1 0 none, stAcc 0 2 2 1 1 none, ldAcc 1 0 1 1 none, stAcc 1 2 2 0 1 none] fences deps

/-- IRIW (R151): the class of the second loads. -/
def iriw (c : Nat) : Case :=
  plainCase [stAcc 0 0 1 0 1 none, stAcc 1 0 1 1 1 none, ldAcc 2 0 1 0 none, ldAcc 2 1 c 1 none, ldAcc 3 0 1 1 none, ldAcc 3 1 c 0 none] [] []

/-- CoRR (R152). -/
def corr : Case := plainCase [stAcc 0 0 0 0 1 none, stAcc 0 1 0 0 2 none, ldAcc 1 0 1 0 none, ldAcc 1 1 2 0 none] [] []

/-- CoRR with Q's second read made by a region's fill for a vector record (R139, R152). -/
def corrFill : Case :=
  plainCase [stAcc 0 0 0 0 1 none, stAcc 0 1 0 0 2 none, ldAcc 1 0 1 0 none, { ldAcc 1 1 0 0 none with path := .v }] [] []

/-- ATOM (R153): x ends as `x`, and the adds write what they read and one. -/
def atomCase (p q : Nat) : Case :=
  { plainCase [ldAcc 0 0 0 0 none, stAcc 0 1 0 0 (p + 1) none, ldAcc 1 0 0 0 none, stAcc 1 1 0 0 (q + 1) none] [] [] with
    rmws := [(0, 1), (2, 3)] }

/-- ATOM shows x, s10 and s11. -/
def atomShows (x p q : Nat) : Bool :=
  (atomCase p q).allows fun c => decide (c.value (atomCase p q) 0 = p ∧ c.value (atomCase p q) 2 = q ∧ c.final (atomCase p q) 0 = x)

/-- BAR+v (R154): a vector write, a cluster barrier, a scalar read by another strand. -/
def barV (fences : List Fence) : Case :=
  { plainCase [{ stAcc 0 0 0 0 1 none with path := .v }, { Access.blank with strand := 0, at_ := 2, path := .s, rel := some 2 },
      { Access.blank with strand := 1, at_ := 0, path := .s, acq := some 2 }, ldAcc 1 1 0 0 none] fences [] with
    parties := [⟨0, 0, 0, 0, 0⟩, ⟨0, 0, 0, 0, 0⟩], syncs := [(1, 2)] }

/-- TF+v (R155): the vadd's write and the tflush's read of A (location 2), the write-back of a (0), the flag (1). -/
def tfv (fences : List Fence) : Case :=
  { plainCase [{ stAcc 0 0 0 2 1 none with path := .v }, { ldAcc 0 1 0 2 none with path := .t }, { stAcc 0 2 0 0 1 none with path := .t },
      stAcc 0 4 0 1 1 (some 3), ldAcc 1 0 0 1 (some 3), ldAcc 1 1 0 0 none] fences [(1, 2)] with
    ranges := [(0, 1)] }

/-- TF+v shows s10 = 1 and s11 as given. -/
def tfvShows (k : Case) (v : Nat) : Bool :=
  k.allows fun x => decide (x.value k 1 = 1 ∧ x.value k 4 = 1 ∧ x.value k 5 = v)

/-- SCOPE (R156): the acquire's scope, and whether Q runs on P's logical core. -/
def scopeCase (acq : BitVec 3) (near : Bool) : Case :=
  { mp 1 2 2 3 [] (some 3) (some acq) with parties := if near then [⟨0, 0, 0, 0, 0⟩, ⟨0, 0, 0, 0, 0⟩] else gangOfFour }

/-- SCOPE shows s10, s11 and sys.scopestat. -/
def scopeShows (k : Case) (s10 s11 : Nat) (st : BitVec 16) : Bool :=
  k.allows fun x => decide (x.value k 2 = s10 ∧ x.value k 3 = s11 ∧ x.stat k 2 = st)

/-- RMP (R157): classes, scopes, the destinations of x and y, and Q's read of y, remote or not. A remote read of the last variant carries no acquire: R132 would order an acquiring one, against the table (log 57, DEDUCED). -/
def rmp (c1 c2 c3 c4 : Nat) (rel acq : Option (BitVec 3)) (dy : Nat) : Case :=
  { plainCase [rstAcc 0 0 c1 0 1 1 none, rstAcc 0 1 c2 1 1 dy rel,
      (if dy = 1 then ldAcc 1 0 c3 1 acq else { ldAcc 1 0 c3 1 none with path := .f, dest := dy, parks := true }), ldAcc 1 1 c4 0 none] [] [] with
    parties := [⟨0, 0, 0, 0, 0⟩, ⟨0, 1, 1, 1, 1⟩] }

/-- RDUP (R158): whether each of the remote stores performs; one that ends with OUTCOME_UNKNOWN has one write or none (R133). -/
def rdup (first second : Bool) : Case :=
  plainCase ((if first then [rstAcc 0 0 1 0 1 1 none] else []) ++ (if second then [rstAcc 0 1 1 0 2 1 none] else []) ++
    [ldAcc 1 0 0 0 none, ldAcc 1 1 0 0 none]) [⟨0, 2, .rfence⟩] []

/-- The reads of RDUP return s10 and s11. -/
def rdupShows (first second : Bool) (s10 s11 : Nat) : Bool :=
  let n := (if first then 1 else 0) + if second then 1 else 0
  (rdup first second).allows fun x => decide (x.value (rdup first second) n = s10 ∧ x.value (rdup first second) (n + 1) = s11)

/-- HND (R135, R159): x, then the payload of y, then the handler's reads of y and x; with a release at peer scope the earlier store is before the handler as well. -/
def hnd (c : Nat) (rel : Bool) : Case :=
  { plainCase [rstAcc 0 0 1 0 1 1 none, rstAcc 0 1 c 1 2 1 (if rel then some 6 else none), ldAcc 1 0 0 1 none, ldAcc 1 1 0 0 none] [] [] with
    more := [(1, 2), (1, 3)] ++ if rel then [(0, 2), (0, 3)] else [] }

/-- HND with y read through a region that was filled before the arrival: the read is one at the time of the fill, made for the strand that triggered it (R94, R101, R121, R139, R159). -/
def hndFill : Case :=
  { plainCase [rstAcc 0 0 1 0 1 1 none, rstAcc 0 1 2 1 2 1 (some 6), ldAcc 2 0 0 1 none, ldAcc 1 1 0 0 none] [] [] with
    more := [(1, 3), (0, 3)] }

/-- DRN (R137, R160): the mdrain's write of D (location 0), P's flag (1), Q's acquire, the vsum's read of D and its write of S (2), which is `v`, Q's read of S. -/
def drn (fenced : Bool) (v : Nat) : Case :=
  { plainCase [{ stAcc 0 0 0 0 3 none with path := .m }, stAcc 0 2 0 1 1 (some 1), ldAcc 1 0 0 1 (some 1),
      { ldAcc 1 2 0 0 none with path := .v }, { stAcc 1 2 0 2 v none with path := .v, sub := 1 }, ldAcc 1 4 0 2 none]
      ([⟨1, 1, .xfence .s .v⟩, ⟨1, 3, .xfence .v .s⟩] ++ if fenced then [⟨0, 1, .xfence .m .s⟩] else []) [(3, 4)] with
    parties := [⟨0, 0, 0, 0, 0⟩, ⟨0, 0, 0, 0, 0⟩] }

/-- DRN shows s10 = 1 and `v` in s11: the vsum read `v` and wrote it. -/
def drnShows (fenced : Bool) (v : Nat) : Bool :=
  let k := drn fenced v
  k.allows fun x => decide (x.value k 2 = 1 ∧ x.value k 3 = v ∧ x.value k 5 = v)

/-- DRN on one strand (R160): P runs the vsum, the fence and the ld itself; the range checker keeps the vsum behind the mdrain (R38). -/
def drnOne (v : Nat) : Case :=
  { plainCase [{ stAcc 0 0 0 0 3 none with path := .m }, { ldAcc 0 1 0 0 none with path := .v },
      { stAcc 0 1 0 2 v none with path := .v, sub := 1 }, ldAcc 0 3 0 2 none] [⟨0, 2, .xfence .v .s⟩] [(1, 2)] with
    ranges := [(0, 1)] }

/-- DRN on one strand shows `v` in s11. -/
def drnOneShows (v : Nat) : Bool :=
  let k := drnOne v
  k.allows fun x => decide (x.value k 1 = v ∧ x.value k 3 = v)

end Sys2Proof.Machine.Order
end

