-- ==== Sys2Proof/Safety.lean ====
section
/-! DEFINITION. Safety.lean: what counts as a safe run: every step answers a next state. -/

namespace Sys2Proof

/-- The step from `s` goes on. -/
def Machine.State.goesOn (s : Machine.State) : Prop := ∃ t, Machine.step s = .next t

/-- A run of `n` steps from `s` that neither faults nor is refused. -/
def safeRun (n : Nat) (s : Machine.State) : Prop := ∃ t, Host.Core.run core n s = .next t

end Sys2Proof
end

