-- ==== Sys2Proof/Certificates/Slice0/Obligations.lean ====
section
/-! DEFINITION. Certificates/Slice0/Obligations.lean: the statements for the provers, with the predicates they share. -/

namespace Sys2Proof.Claims

open Sys2Proof.Machine

/-! ## What an instruction leaves as it was -/

/-- Every byte of every memory, and every accumulator bank, reads as before. -/
def MemSame (s t : State) : Prop :=
  (∀ a, t.mem.byte a = s.mem.byte a) ∧ (∀ a, t.hostMem.byte a = s.hostMem.byte a) ∧
  (∀ lc a, (t.lcoreAt lc).sp.byte a = (s.lcoreAt lc).sp.byte a) ∧
  (∀ die a, Mem.byte (sget [] t.ws die) a = Mem.byte (sget [] s.ws die) a) ∧ ∀ b, t.bankAt b = s.bankAt b

/-- Of all state only the issuing strand's own may have changed. -/
def OnlyMe (s t : State) : Prop :=
  t = { s with strands := t.strands } ∧ (∀ k, k ≠ s.cur.key → t.strandAt k = s.strandAt k) ∧ MemSame s t

/-- Of the general registers and their poison only those named may differ. -/
def RegsBut (ds : List Reg) (a b : Strand) : Prop := ∀ r, r ∉ ds → b.reg r = a.reg r ∧ b.pois r = a.pois r

/-- Everything a strand holds beside general registers, loops, pc and status is as before: count predicates, descriptors, special registers, trap registers, modes, held stores. (The word that it was blocked at is no longer kept.) -/
def RestSame (a b : Strand) : Prop :=
  (∀ n, b.cnt n = a.cnt n) ∧ (∀ n, b.sdesc n = a.sdesc n) ∧
  b = { a with pc := b.pc, status := b.status, icount := b.icount, regs := b.regs, ir := b.ir }

/-- The strand has retired a word at its pc: ready, one instruction more, pc and loops stepped (R235, R277). -/
def Stepped (len : BitVec 53) (a b : Strand) : Prop :=
  b.status = .ready ∧ b.icount = a.icount + 1 ∧ b.pc = (a.retire len).pc ∧ ∀ n, b.loop n = (a.retire len).loop n

/-- A register-only instruction of one word has retired: of all state, pc, loops and the registers named may differ. -/
def Retired (ds : List Reg) (s t : State) : Prop :=
  OnlyMe s t ∧ RegsBut ds s.me t.me ∧ RestSame s.me t.me ∧ Stepped 1 s.me t.me

/-! ## Class 0 -/

/-- Destination, sources in their order and value of the instructions of class 0 that write an s register (R260 to R265). -/
def scalarForm (s : State) : Instr → Option (Reg × List Reg × Word)
  | .add d a b => some (d, [a, b], s.me.reg a + s.me.reg b)
  | .sub d a b => some (d, [a, b], s.me.reg a - s.me.reg b)
  | .mul d a b => some (d, [a, b], BitVec.ofNat 64 ((s.me.reg a).toNat * (s.me.reg b).toNat))
  | .mulh .ss d a b => some (d, [a, b], BitVec.ofInt 64 ((s.me.reg a).toInt * (s.me.reg b).toInt / 2 ^ 64))
  | .mulh .uu d a b => some (d, [a, b], BitVec.ofNat 64 ((s.me.reg a).toNat * (s.me.reg b).toNat / 2 ^ 64))
  | .mulh .su d a b => some (d, [a, b], BitVec.ofInt 64 ((s.me.reg a).toInt * ((s.me.reg b).toNat : Int) / 2 ^ 64))
  | .div u d a b => some (d, [a, b],
      if s.me.reg b = 0 then BitVec.allOnes 64
      else if u then BitVec.ofNat 64 ((s.me.reg a).toNat / (s.me.reg b).toNat)
      else BitVec.ofInt 64 ((s.me.reg a).toInt.tdiv (s.me.reg b).toInt))
  | .rem u d a b => some (d, [a, b],
      if s.me.reg b = 0 then s.me.reg a
      else if u then BitVec.ofNat 64 ((s.me.reg a).toNat % (s.me.reg b).toNat)
      else BitVec.ofInt 64 ((s.me.reg a).toInt.tmod (s.me.reg b).toInt))
  | .and d a b => some (d, [a, b], s.me.reg a &&& s.me.reg b)
  | .or d a b => some (d, [a, b], s.me.reg a ||| s.me.reg b)
  | .xor d a b => some (d, [a, b], s.me.reg a ^^^ s.me.reg b)
  | .shl d a b => some (d, [a, b], BitVec.ofNat 64 ((s.me.reg a).toNat * 2 ^ ((s.me.reg b).toNat % 64)))
  | .shr d a b => some (d, [a, b], BitVec.ofNat 64 ((s.me.reg a).toNat / 2 ^ ((s.me.reg b).toNat % 64)))
  | .sar d a b => some (d, [a, b], BitVec.ofInt 64 ((s.me.reg a).toInt / 2 ^ ((s.me.reg b).toNat % 64)))
  | .rot d a b => some (d, [a, b], (s.me.reg a).rotateLeft ((s.me.reg b).toNat % 64))
  | .clz d a => some (d, [a], BitVec.ofNat 64 (clzVal (s.me.reg a)))
  | .ctz d a => some (d, [a], BitVec.ofNat 64 (ctzVal (s.me.reg a)))
  | .popc d a => some (d, [a], BitVec.ofNat 64 (popcVal (s.me.reg a)))
  | .min u d a b => some (d, [a, b],
      if (if u then (s.me.reg b).toNat < (s.me.reg a).toNat else (s.me.reg b).toInt < (s.me.reg a).toInt) then s.me.reg b else s.me.reg a)
  | .max u d a b => some (d, [a, b],
      if (if u then (s.me.reg a).toNat < (s.me.reg b).toNat else (s.me.reg a).toInt < (s.me.reg b).toInt) then s.me.reg b else s.me.reg a)
  | .sel d a b n => some (d, [a, b, n], if s.me.reg n = 0 then s.me.reg b else s.me.reg a)
  | .cmp k d a b => some (d, [a, b],
      match k with
      | .eq => if s.me.reg a = s.me.reg b then 1 else 0
      | .ne => if s.me.reg a = s.me.reg b then 0 else 1
      | .lt => if (s.me.reg a).toInt < (s.me.reg b).toInt then 1 else 0
      | .ge => if (s.me.reg a).toInt < (s.me.reg b).toInt then 0 else 1
      | .ltu => if (s.me.reg a).toNat < (s.me.reg b).toNat then 1 else 0
      | .geu => if (s.me.reg a).toNat < (s.me.reg b).toNat then 0 else 1)
  | .addi d a i => some (d, [a], s.me.reg a + i.signExtend 64)
  | .andi d a i => some (d, [a], s.me.reg a &&& i.signExtend 64)
  | .ori d a i => some (d, [a], s.me.reg a ||| i.signExtend 64)
  | .xori d a i => some (d, [a], s.me.reg a ^^^ i.signExtend 64)
  | .shli d a n => some (d, [a], BitVec.ofNat 64 ((s.me.reg a).toNat * 2 ^ n.toNat))
  | .li d i => some (d, [], i.signExtend 64)
  | .lih d i => some (d, [d], BitVec.ofNat 64 (i.toNat * 2 ^ 32 + (s.me.reg d).toNat % 2 ^ 32))
  | .lea d a _ off => some (d, [a], s.me.reg a + off.signExtend 64)
  | .bnd d a b => some (d, [a, b],
      if (s.me.reg a).toNat < (s.me.reg b).toNat then s.me.reg a else if s.me.reg b = 0 then 0 else s.me.reg b - 1)
  | .fadd f d a b => some (d, [a, b], s.fround f (vAdd s.smodeDown (s.fval f a) (s.fval f b)).1)
  | .fmul f d a b => some (d, [a, b], s.fround f (vMul (s.fval f a) (s.fval f b)).1)
  | .ffma f d a b => some (d, [a, b, d], s.fround f (vFma s.smodeDown (s.fval f a) (s.fval f b) (s.fval f d)).1)
  | .fcmp f k d a b => some (d, [a, b], if frelHolds k (s.fval f a) (s.fval f b) then 1 else 0)
  | .fcvt (.ff g f) d a => some (d, [a],
      if g = f ∧ !(s.fval f a).isNan then BitVec.ofNat 64 ((s.me.reg a).toNat % 2 ^ fmtBits (sfmtCode f)) else s.fround g (s.fval f a))
  | .fcvt (.toI64 f) d a => some (d, [a], BitVec.ofNat 64 (convInt fI64 s.smode 0 (s.fval f a)).1)
  | .fcvt (.toN64 f) d a => some (d, [a], match s.fval f a with
      | .nan _ => 0
      | .inf n => if n then 0 else BitVec.allOnes 64
      | .fin n m e st => BitVec.ofInt 64 (max 0 (min (2 ^ 64 - 1) (roundInt s.smode 0 n m e st).1)))
  | .fcvt (.ofI64 g) d a => some (d, [a], s.fround g (.ofInt (s.me.reg a).toInt))
  | .fcvt (.ofN64 g) d a => some (d, [a], s.fround g (.ofInt (s.me.reg a).toNat))
  | _ => none

end Sys2Proof.Claims

open Sys2Proof Sys2Proof.Machine Sys2Proof.Claims

/-- The instructions of class 0 that write an s register complete with their value, s0 excepted, and change nothing else; clz and ctz are the places of the highest and of the lowest one, 64 for zero, popc the number of ones; with a poisoned source the destination takes the poison record of the first poisoned source, in the order of the sources, and keeps its bits (R57, R238, R259 to R265). -/
def Obligations.ScalarResultsAndPoison : Prop :=
  ((∀ (s : State) (i : Instr) (d : Reg) (srcs : List Reg) (v : Word),
    scalarForm s i = some (d, srcs, v) → (∀ r ∈ srcs, s.me.pois r = none) →
    ∃ t, exec i s = .next t ∧ t.me.reg d = (if d = 0 then 0 else v) ∧ t.me.pois d = none ∧ Retired [d] s t) ∧
  ∀ a : Word, (clzVal a = 64 ↔ a = 0) ∧ (ctzVal a = 64 ↔ a = 0) ∧
    (a ≠ 0 → clzVal a < 64 ∧ a.toNat / 2 ^ (63 - clzVal a) = 1 ∧ ctzVal a < 64 ∧ a.toNat % 2 ^ (ctzVal a + 1) = 2 ^ ctzVal a) ∧
    popcVal a = ((List.range 64).map fun n => a.toNat / 2 ^ n % 2).sum) ∧
  ∀ (s : State) (i : Instr) (d : Reg) (srcs : List Reg) (v : Word) (p : Poison),
    scalarForm s i = some (d, srcs, v) → srcs.findSome? s.me.pois = some p →
    ∃ t, exec i s = .next t ∧ t.me.pois d = (if d = 0 then none else some p) ∧ t.me.reg d = s.me.reg d ∧ Retired [d] s t

/-- count predicates (R266): cntset, cntmin and cntsub with an s source that is not poisoned. -/
def Obligations.CountPredicatesSet : Prop :=
  ∀ (s : State) (c x w : BitVec 3) (a : Reg), s.me.pois a = none →
    let put (n : Nat) (wd : BitVec 3) (t : State) : Prop :=
      (∀ m, t.me.cnt m = if m = c.toNat then ⟨BitVec.ofNat 17 n, wd⟩ else s.me.cnt m) ∧
      OnlyMe s t ∧ RegsBut [] s.me t.me ∧ Stepped 1 s.me t.me ∧ (∀ n, t.me.sdesc n = s.me.sdesc n) ∧
      t.me = { s.me with pc := t.me.pc, status := t.me.status, icount := t.me.icount, regs := t.me.regs, ir := t.me.ir }
    (∃ t, exec (.cntset c a w) s = .next t ∧ put (min (s.me.reg a).toNat 0x1FFFF) w t) ∧
    (∃ t, exec (.cntmin c x a) s = .next t ∧
      put (min (s.me.cnt x.toNat).count.toNat (s.me.reg a).toNat) (s.me.cnt x.toNat).width t) ∧
    (∃ t, exec (.cntsub c x a) s = .next t ∧
      put ((s.me.cnt x.toNat).count.toNat - (s.me.reg a).toNat) (s.me.cnt x.toNat).width t)

namespace Sys2Proof.Claims

/-! ## Class 1 -/

/-- An access of `n` bytes at `a` in a space meets the rules of R90 and R97: width, claim, alignment and bound. -/
def AccessGood (s : State) (x : Space) (a n : Nat) : Prop :=
  a % n = 0 ∧
  match x with
  | .sp => a + n ≤ s.myQuota
  | .gv => True
  | .ws => a + n ≤ 0x10000000
  | .ac => a + n ≤ 0x60000 ∧ n = (if a < 0x40000 then 4 else 2) ∧
      ∃ c, s.heldClaim = some c ∧ c.covers (s.cur.lcore / 4) (acBank a) = true

/-- No bank under scratchpad bytes of the issuing strand's logical core wakes, and no unfilled region meets them (R93, R100). -/
def SpReady (s : State) (a n : Nat) : Prop :=
  s.spWaking s.myLc a (a + n) = false ∧ (s.lcoreAt s.myLc).unfilled a (a + n) = []

/-- ld, or lda where `adv`. -/
def ldOf (adv : Bool) (d a : Reg) (m : SMem) : Instr := if adv then .lda d a m else .ld d a m

/-- st, or stl where `adv`. -/
def stOf (adv : Bool) (b a : Reg) (m : SMem) : Instr := if adv then .stl b a m else .st b a m

/-- The address: base plus offset, or the base itself in the advancing forms (R268, R269). -/
def eaOf (s : State) (adv : Bool) (a : Reg) (off : BitVec 20) : Nat :=
  (if adv then s.me.reg a else s.me.reg a + off.signExtend 64).toNat

/-- What R241 gives for `v` read with a width: sign-extended or zero-extended. -/
def extOf (w : Width) (v : Nat) : Word :=
  if widthSigned w ∧ 2 ^ (8 * widthBytes w - 1) ≤ v then BitVec.ofInt 64 ((v : Int) - 2 ^ (8 * widthBytes w)) else BitVec.ofNat 64 v

/-- Another strand's state is as before, and of the issuing strand's only registers named, pc, loops, and for an acquire sys.scopestat. -/
def AccessFrame (ds : List Reg) (m : SMem) (s t : State) : Prop :=
  (∀ k, k ≠ s.cur.key → t.strandAt k = s.strandAt k) ∧ RegsBut ds s.me t.me ∧ Stepped 1 s.me t.me ∧
  (∀ n, t.me.cnt n = s.me.cnt n) ∧ (∀ n, t.me.sdesc n = s.me.sdesc n) ∧
  t.me = { s.me with pc := t.me.pc, status := t.me.status, icount := t.me.icount, regs := t.me.regs, ir := t.me.ir, scopestat := t.me.scopestat } ∧
  (isAcq m.sem = false → t.me.scopestat = s.me.scopestat)

/-- A load has retired with the value `v`; an advancing form has moved its base (R268, R269). -/
def Loaded (adv : Bool) (d a : Reg) (m : SMem) (v : Nat) (s t : State) : Prop :=
  t.me.reg d = (if d = 0 then 0 else extOf m.width v) ∧ t.me.pois d = none ∧
  (adv = true → t.me.reg a = s.me.reg a + m.off.signExtend 64 ∧ t.me.pois a = none) ∧
  AccessFrame (if adv then [d, a] else [d]) m s t

/-- A store has retired; an advancing form has moved its base. -/
def Stored (adv : Bool) (a : Reg) (m : SMem) (s t : State) : Prop :=
  (adv = true → t.me.reg a = s.me.reg a + m.off.signExtend 64 ∧ t.me.pois a = none) ∧
  (∀ k, k ≠ s.cur.key → t.strandAt k = s.strandAt k) ∧ RegsBut (if adv then [a] else []) s.me t.me ∧ Stepped 1 s.me t.me ∧
  (∀ n, t.me.cnt n = s.me.cnt n) ∧ (∀ n, t.me.sdesc n = s.me.sdesc n) ∧
  t.me = { s.me with pc := t.me.pc, status := t.me.status, icount := t.me.icount, regs := t.me.regs, ir := t.me.ir, rsb := t.me.rsb } ∧
  (s.me.region = false ∨ m.space ≠ .gv → t.me.rsb = s.me.rsb)

/-- Which of the `n` bytes at `A` is the location that `x` names, with the pages at the places `pl`: the same byte of the same physical page (R119). -/
def placeAmong (pl : Nat → Nat) (A n x : Nat) : Option Nat :=
  (List.range n).find? fun i => decide ((A + i) % 65536 = x % 65536 ∧ pl ((A + i) / 65536) = pl (x / 65536))

/-- A buffer behind a fence: its marker follows what the fence orders, if the buffer holds any of that (R124, R125). -/
def fenced (f : Held) (p : Path) (mask : BitVec 16) (l : List Held) : List Held :=
  if l.any (fun h => h.onPath p mask) then l ++ [f] else l

/-- A fence has retired: nothing but its strand and the issue number has changed, and in the strand's buffers its marker stands where something waits that it orders. -/
def FenceSet (p q : Path) (mask : BitVec 16) (s t : State) : Prop :=
  t = { s with strands := t.strands, uid := s.uid + 1 } ∧ MemSame s t ∧ (∀ k, k ≠ s.cur.key → t.strandAt k = s.strandAt k) ∧
  t.me = ({ s.me with pending := fenced (.fence s.uid p q mask) p mask s.me.pending
                      rsb := fenced (.fence s.uid p q mask) p mask s.me.rsb } : Strand).retire 1

/-- Byte `i` of a word's number. -/
def byteOf (v i : Nat) : Byte := BitVec.ofNat 8 (v / 256 ^ i)

/-- The new value of an atomic operation on `n`-bit values (R270). -/
def atomSpec (op : BitVec 3) (w : Width) (old v : Nat) : Nat :=
  let n := 8 * widthBytes w
  let less (x y : Nat) : Bool := if widthSigned w then decide (signedOf n x < signedOf n y) else decide (x < y)
  match op.toNat with
  | 0 => (old + v) % 2 ^ n
  | 1 => old &&& v
  | 2 => old ||| v
  | 3 => old ^^^ v
  | 4 => if less v old then v else old
  | 5 => if less v old then old else v
  | 6 => v
  | _ => atomFadd (faddFmt w) old v

/-- atom or cas on registers d, a and b, with what it makes of the old value: cas writes only when the comparison holds (R270, R271). -/
def rmwForm (s : State) : Instr → Option (Reg × Reg × SMem × List Reg × Bool × (Nat → Option Nat))
  | .atom op d a b m => some (d, a, m, [a, b], decide (op = 7), fun old =>
      some (atomSpec op m.width old ((s.me.reg b).toNat % 2 ^ (8 * widthBytes m.width))))
  | .cas d a b m => some (d, a, m, [a, b, d], false, fun old =>
      if old = (s.me.reg d).toNat % 2 ^ (8 * widthBytes m.width) then some ((s.me.reg b).toNat % 2 ^ (8 * widthBytes m.width)) else none)
  | _ => none

end Sys2Proof.Claims

/-- ld and lda: from the scratchpad, the weight store and the accumulators; from the global space, bytes that the strand's own region holds, else those at the translated address, and a refused translation poisons d: value, advance, frame (R43, R57, R90, R97, R241, R268, R269). -/
def Obligations.LoadsReadMemory : Prop :=
  (∀ (s : State) (adv : Bool) (d a : Reg) (m : SMem),
    let A := eaOf s adv a m.off
    let n := widthBytes m.width
    s.me.pois a = none → AccessGood s m.space A n → s.me.pending = [] → (adv = true → a ≠ 0 ∧ a ≠ d) →
    (m.space = .sp → SpReady s A n →
      ∃ t, exec (ldOf adv d a m) s = .next t ∧ Loaded adv d a m ((s.lcoreAt s.myLc).sp.read A n) s t ∧ MemSame s t) ∧
    (m.space = .ws → s.wsHeld (dieOf s.myCore) (A / 0x1000000) = false →
      ∃ t, exec (ldOf adv d a m) s = .next t ∧ Loaded adv d a m (Mem.read (sget [] s.ws (dieOf s.myCore)) A n) s t ∧ MemSame s t) ∧
    (m.space = .ac →
      let b := s.bankAt (bankKey s.cur.task (s.cur.lcore / 4) (acBank A))
      ∃ t, exec (ldOf adv d a m) s = .next t ∧ MemSame s t ∧
        Loaded adv d a m (if A < 0x40000 then (sget 0 b.cells (A % 0x10000 / 4)).toNat % 2 ^ 32
          else (sget 0 b.planes ((A - 0x40000) % 0x8000 / 2)).toNat) s t)) ∧
  ∀ (s : State) (adv : Bool) (d a : Reg) (m : SMem),
    let A := eaOf s adv a m.off
    let n := widthBytes m.width
    m.space = .gv → s.me.pois a = none → A % n = 0 → s.me.pending = [] → s.budgetHeld s.myVrId 0 = false →
    (adv = true → a ≠ 0 ∧ a ≠ d) →
    ((∀ i < n, (heldByte s.myPlaces s.me.rsb (A + i)).isSome) →
      ∃ t, exec (ldOf adv d a m) s = .next t ∧ MemSame s t ∧
        Loaded adv d a m (ofLeBytes ((List.range n).map fun i => (heldByte s.myPlaces s.me.rsb (A + i)).getD 0)) s t) ∧
    (∀ s1 pa, ¬ (∀ i < n, (heldByte s.myPlaces s.me.rsb (A + i)).isSome) → s.xlate (s.myAcc rR 1 s.me.h) A = (s1, .ok pa) →
      ∃ t, exec (ldOf adv d a m) s = .next t ∧ (∀ x, t.mem.byte x = s1.mem.byte x) ∧
        Loaded adv d a m (ofLeBytes ((List.range n).map fun i => (heldByte s.myPlaces s.me.rsb (A + i)).getD (s1.mem.byte (pa + i)))) s t) ∧
    (∀ s1 va, ¬ (∀ i < n, (heldByte s.myPlaces s.me.rsb (A + i)).isSome) → s.xlate (s.myAcc rR 1 s.me.h) A = (s1, .refused va) →
      ∃ t, exec (ldOf adv d a m) s = .next t ∧ t.me.pois d = (if d = 0 then none else some ⟨BitVec.ofNat 64 va, codeWidth m.width, m.cls⟩) ∧
        t.me.reg d = s.me.reg d ∧ (adv = true → t.me.reg a = s.me.reg a + m.off.signExtend 64) ∧
        AccessFrame (if adv then [d, a] else [d]) m s t ∧ ∀ x, t.mem.byte x = s1.mem.byte x)

/-- st and stl: to the scratchpad and the accumulators; to the global space, outside a region the bytes at the translated address, in an open region what the region holds for every address that names their location: the stored bytes, every other byte, advance, frame (R42, R43, R90, R97, R119, R178, R268, R269). -/
def Obligations.StoresWriteMemory : Prop :=
  (∀ (s : State) (adv : Bool) (b a : Reg) (m : SMem),
    let A := eaOf s adv a m.off
    let n := widthBytes m.width
    s.me.pois a = none → s.me.pois b = none → AccessGood s m.space A n → s.me.pending = [] → (adv = true → a ≠ 0) →
    (m.space = .sp → SpReady s A n →
      ∃ t, exec (stOf adv b a m) s = .next t ∧ Stored adv a m s t ∧
        (∀ lc x, (t.lcoreAt lc).sp.byte x = if lc = s.myLc ∧ A ≤ x ∧ x < A + n then byteOf (s.me.reg b).toNat (x - A)
          else (s.lcoreAt lc).sp.byte x) ∧
        (∀ x, t.mem.byte x = s.mem.byte x) ∧ (∀ die x, Mem.byte (sget [] t.ws die) x = Mem.byte (sget [] s.ws die) x) ∧
        ∀ k, t.bankAt k = s.bankAt k) ∧
    (m.space = .ac →
      let k := bankKey s.cur.task (s.cur.lcore / 4) (acBank A)
      ∃ t, exec (stOf adv b a m) s = .next t ∧ Stored adv a m s t ∧ (∀ j, j ≠ k → t.bankAt j = s.bankAt j) ∧
        (∀ x, t.mem.byte x = s.mem.byte x) ∧ (∀ lc x, (t.lcoreAt lc).sp.byte x = (s.lcoreAt lc).sp.byte x) ∧
        (∀ c, sget 0 (t.bankAt k).cells c = if A < 0x40000 ∧ c = A % 0x10000 / 4 then cellWord (s.bankAt k).kind (s.me.reg b).toNat
          else sget 0 (s.bankAt k).cells c) ∧
        (∀ c, sget 0 (t.bankAt k).planes c = if 0x40000 ≤ A ∧ c = (A - 0x40000) % 0x8000 / 2 then (s.me.reg b).setWidth 16
          else sget 0 (s.bankAt k).planes c))) ∧
  ∀ (s : State) (adv : Bool) (b a : Reg) (m : SMem),
    let A := eaOf s adv a m.off
    let n := widthBytes m.width
    m.space = .gv → s.me.pois a = none → s.me.pois b = none → A % n = 0 → (adv = true → a ≠ 0) →
    (∀ s1 pa, s.me.region = false → s.me.pending = [] → s.budgetHeld s.myVrId 0 = false →
      s.xlate { s.myAcc rW 1 true with who := .store s.uid } A = (s1, .ok pa) →
      ∃ t, exec (stOf adv b a m) s = .next t ∧ Stored adv a m s t ∧
        (∀ x, t.mem.byte x = if pa ≤ x ∧ x < pa + n then byteOf (s.me.reg b).toNat (x - pa) else s1.mem.byte x) ∧
        ∀ lc x, (t.lcoreAt lc).sp.byte x = (s.lcoreAt lc).sp.byte x) ∧
    (s.me.region = true → overCapacity s.me.rsb (blocksOf 0 A n) = false →
      ∃ t, exec (stOf adv b a m) s = .next t ∧ Stored adv a m s t ∧ MemSame s t ∧
        ∀ x, heldByte s.myPlaces t.me.rsb x = match placeAmong s.myPlaces A n x with
          | some i => some (byteOf (s.me.reg b).toNat i)
          | none => heldByte s.myPlaces s.me.rsb x)

/-- atom and cas: d takes the old value, memory the new one, or nothing where the comparison of cas fails (R131, R270, R271). -/
def Obligations.AtomicsReadModifyWrite : Prop :=
  ∀ (s : State) (i : Instr) (d a : Reg) (m : SMem) (srcs : List Reg) (fadd : Bool) (f : Nat → Option Nat),
    rmwForm s i = some (d, a, m, srcs, fadd, f) →
    let A := eaOf s false a m.off
    let n := widthBytes m.width
    (∀ r ∈ srcs, s.me.pois r = none) → AccessGood s m.space A n → (fadd && s.detmode) = false → s.me.pending = [] →
    (m.space = .sp → SpReady s A n →
      let old := (s.lcoreAt s.myLc).sp.read A n
      ∃ t, exec i s = .next t ∧ Loaded false d a m old s t ∧ (∀ x, t.mem.byte x = s.mem.byte x) ∧
        ∀ lc x, (t.lcoreAt lc).sp.byte x =
          match f old with
          | some v => if lc = s.myLc ∧ A ≤ x ∧ x < A + n then byteOf v (x - A) else (s.lcoreAt lc).sp.byte x
          | none => (s.lcoreAt lc).sp.byte x) ∧
    (m.space = .ac → n = 4 →
      let k := bankKey s.cur.task (s.cur.lcore / 4) (acBank A)
      let old := (sget 0 (s.bankAt k).cells (A % 0x10000 / 4)).toNat
      ∃ t, exec i s = .next t ∧ Loaded false d a m old s t ∧ (∀ x, t.mem.byte x = s.mem.byte x) ∧ (∀ j, j ≠ k → t.bankAt j = s.bankAt j) ∧
        ∀ c, sget 0 (t.bankAt k).cells c =
          match f old with
          | some v => if c = A % 0x10000 / 4 then cellWord (s.bankAt k).kind v else sget 0 (s.bankAt k).cells c
          | none => sget 0 (s.bankAt k).cells c) ∧
    (∀ s1 pa, m.space = .gv → s.me.region = false → s.budgetHeld s.myVrId 0 = false →
      s.xlate (s.myAcc (rW ||| rA) 1 true) A = (s1, .ok pa) →
      let old := s1.mem.read pa n
      ∃ t, exec i s = .next t ∧ Loaded false d a m old s t ∧ (∀ lc x, (t.lcoreAt lc).sp.byte x = (s.lcoreAt lc).sp.byte x) ∧
        ∀ x, t.mem.byte x =
          match f old with
          | some v => if pa ≤ x ∧ x < pa + n then byteOf v (x - pa) else s1.mem.byte x
          | none => s1.mem.byte x)

/-- kld reads the constant bank at an index from 0 to 1,023, else traps with ILLEGAL_FIELD, or with POISON_USE when a is poisoned; sdld and sdst move a descriptor between its register and 16 bytes of the scratchpad or, for sdld, the weight store (R272, R273). -/
def Obligations.ConstantsAndDescriptorsMove : Prop :=
  ∀ s : State,
    (∀ (d a : Reg) (imm : BitVec 32),
      let n := (s.me.reg a + imm.signExtend 64).toNat
      (s.me.pois a = none → n ≤ 1023 →
        ∃ t, exec (.kld d a imm) s = .next t ∧ Retired [d] s t ∧ t.me.pois d = none ∧
          t.me.reg d = if d = 0 then 0 else match s.vrAt (s.taskAt s.cur.task).vr with
            | some v => sget 0 v.k n
            | none => 0) ∧
      (s.me.pois a = none → 1023 < n → exec (.kld d a imm) s = .next (s.takeTrap 1 { cause := 0x03 })) ∧
      (s.me.pois a ≠ none → ∃ x : Trap, x.cause = 0x07 ∧ exec (.kld d a imm) s = .next (s.takeTrap 1 x))) ∧
    (∀ (n : BitVec 4) (a : Reg) (cls : BitVec 4) (off : BitVec 20),
      let A := eaOf s false a off
      let put (v : Nat) (t : State) : Prop :=
        OnlyMe s t ∧ RegsBut [] s.me t.me ∧ Stepped 1 s.me t.me ∧ (∀ k, t.me.cnt k = s.me.cnt k) ∧
        ∀ k, t.me.sdesc k = if k = n.toNat then BitVec.ofNat 128 v else s.me.sdesc k
      s.me.pois a = none → A % 16 = 0 → s.me.pending = [] →
      (A + 16 ≤ s.myQuota → SpReady s A 16 →
        (∃ t, exec (.sdld n a cls .sp off) s = .next t ∧ put ((s.lcoreAt s.myLc).sp.read A 16) t) ∧
        ∃ t, exec (.sdst n a cls .sp off) s = .next t ∧ Stored false a ⟨cls, .sp, .i64, .strand, .plain, off⟩ s t ∧
          (∀ x, t.mem.byte x = s.mem.byte x) ∧
          ∀ lc x, (t.lcoreAt lc).sp.byte x = if lc = s.myLc ∧ A ≤ x ∧ x < A + 16 then byteOf (s.me.sdesc n.toNat).toNat (x - A)
            else (s.lcoreAt lc).sp.byte x) ∧
      (A + 16 ≤ 0x10000000 → s.wsHeld (dieOf s.myCore) (A / 0x1000000) = false →
        ∃ t, exec (.sdld n a cls .ws off) s = .next t ∧ put (Mem.read (sget [] s.ws (dieOf s.myCore)) A 16) t))

/-- fence and xfence: a fence always retires, an xfence once nothing of its first path is incomplete, and blocks till then; where stores wait that a fence orders its marker stands behind them, a load of a class that it orders waits behind the marker, and other strands, registers and memory are as before (R124, R125, R274). -/
def Obligations.FencesWaitForEarlierAccesses : Prop :=
  ∀ (s : State) (mask : BitVec 16) (p q : Path),
    (∃ t, exec (.fence mask) s = .next t ∧ FenceSet .s .s mask s t) ∧
    (s.pathBusy p = false → ∃ t, exec (.xfence p q) s = .next t ∧ FenceSet p q 0xFFFF s t) ∧
    (s.pathBusy p = true → exec (.xfence p q) s = .next (s.onMe fun t => { t with status := .blocked })) ∧
    ∀ (adv : Bool) (d a : Reg) (m : SMem) (u : Nat), .fence u p .s mask ∈ s.me.pending → mask.getLsbD m.cls.toNat = true →
      s.me.pois a = none → AccessGood s m.space (eaOf s adv a m.off) (widthBytes m.width) →
      exec (ldOf adv d a m) s = .next (s.onMe fun t => { t with status := .blocked })

namespace Sys2Proof.Claims

/-! ## Class 2 -/

/-- A loop register as a taken transfer from `pc` to `target` leaves it (R277). -/
def leftLoop (pc target : BitVec 53) (l : Loop) : Loop :=
  if l.active = true ∧ (l.start.toNat ≤ pc.toNat ∧ pc.toNat < l.stop.toNat) ∧ ¬ (l.start.toNat ≤ target.toNat ∧ target.toNat < l.stop.toNat)
  then { l with active := false } else l

/-- Control has gone to `target`: of all state pc, loops and the registers named may differ (R275, R277). -/
def Transferred (target : BitVec 53) (ds : List Reg) (s t : State) : Prop :=
  OnlyMe s t ∧ RegsBut ds s.me t.me ∧ RestSame s.me t.me ∧ t.me.pc = target ∧ t.me.status = .ready ∧
  t.me.icount = s.me.icount + 1 ∧ ∀ n < 3, t.me.loop n = leftLoop s.me.pc target (s.me.loop n)

/-- The word address that the immediate of a branch names (R243). -/
def labelOf (s : State) (imm : BitVec 32) : BitVec 53 := s.me.pc + imm.signExtend 53

/-- The condition of bc (R242). -/
def condSpec : Cond → Word → Word → Bool
  | .eq, x, y => decide (x = y)
  | .ne, x, y => decide (x ≠ y)
  | .lt, x, y => decide (x.toInt < y.toInt)
  | .ge, x, y => decide (y.toInt ≤ x.toInt)
  | .ltu, x, y => decide (x.toNat < y.toNat)
  | .geu, x, y => decide (y.toNat ≤ x.toNat)

/-- Consumed registers, the register that takes pc + 1, whether the transfer is taken, and its target (R275, R279). -/
def transferForm (s : State) : Instr → Option (List Reg × List Reg × Bool × BitVec 53)
  | .br imm => some ([], [], true, labelOf s imm)
  | .bc k a b imm => some ([a, b], [], condSpec k (s.me.reg a) (s.me.reg b), labelOf s imm)
  | .jal d imm => some ([], [d], true, labelOf s imm)
  | .jr d a => some ([a], [d], true, (s.me.reg a).setWidth 53)
  | .ret => some ([31], [], true, (s.me.reg 31).setWidth 53)
  | .bpois np a imm => some ([], [], if np then (s.me.pois a).isNone else (s.me.pois a).isSome, labelOf s imm)
  | _ => none

/-- The test of bts on the word of number `v` (R278). -/
def btsSpec : BtsKind → Nat → Word → Bool
  | .any, v, b => decide (BitVec.ofNat 64 v &&& b ≠ 0)
  | .none, v, b => decide (BitVec.ofNat 64 v &&& b = 0)
  | .ended, v, _ => decide (v / 2 ^ 24 % 2 ^ 8 ≠ 0)

end Sys2Proof.Claims

/-- br, bc, jal, jr, ret, bpois and bts: the target, the link register, the fall-through, the frame; bts reads the word at sp[a] and branches on its bits, a misaligned word traps with MISALIGNED, one beyond the quota with SPAD_BOUND (R242, R243, R275, R277 to R279). -/
def Obligations.TransfersAndBranches : Prop :=
  (∀ (s : State) (i : Instr) (srcs ds : List Reg) (taken : Bool) (target : BitVec 53),
    transferForm s i = some (srcs, ds, taken, target) → (∀ r ∈ srcs, s.me.pois r = none) →
    ∃ t, exec i s = .next t ∧ (taken = true → Transferred target ds s t) ∧ (taken = false → Retired [] s t) ∧
      ∀ d ∈ ds, t.me.pois d = none ∧ t.me.reg d = if d = 0 then 0 else (s.me.pc + 1).setWidth 64) ∧
  ∀ (s : State) (k : BtsKind) (a b : Reg) (imm : BitVec 32),
    let A := (s.me.reg a).toNat
    let v := (s.lcoreAt s.myLc).sp.read A 8
    s.me.pois a = none → s.me.pois b = none →
    (A % 8 ≠ 0 → exec (.bts k a b imm) s = .next (s.takeTrap 2 { cause := cMisaligned, va := s.me.reg a })) ∧
    (A % 8 = 0 → s.myQuota < A + 8 → exec (.bts k a b imm) s = .next (s.takeTrap 2 { cause := cSpad, va := s.me.reg a })) ∧
    (A % 8 = 0 → A + 8 ≤ s.myQuota → s.me.pending = [] → SpReady s A 8 →
      ∃ t, exec (.bts k a b imm) s = .next t ∧
        if btsSpec k v (s.me.reg b) then Transferred (labelOf s imm) [] s t else Retired [] s t)

/-- loop: its count from the word or a register, what it sets, and when it is refused; as an instruction falls through, the innermost loop that it ends steps: it goes back to its start, or ends and the next one steps the same way; with none the strand goes on (R276, R277). -/
def Obligations.LoopsStartAndStep : Prop :=
  (∀ (s : State) (n : BitVec 2) (a : Reg) (len cnt : BitVec 16),
    let count := if cnt = 0 then (s.me.reg a).toNat else cnt.toNat
    let inBody (m : Nat) : Prop := (s.me.loop m).active = true ∧ (s.me.loop m).start.toNat ≤ s.me.pc.toNat ∧ s.me.pc.toNat < (s.me.loop m).stop.toNat
    let stop := s.me.pc + 1 + len.setWidth 53
    let bad := 65535 < count ∨ inBody n.toNat ∨ ∃ m < 3, inBody m ∧ (s.me.loop m).stop.toNat < stop.toNat
    (cnt = 0 → s.me.pois a = none) →
    (bad → exec (.loop n a len cnt) s = .next (s.takeTrap 2 { cause := cIllegalField })) ∧
    (¬ bad → ∃ t, exec (.loop n a len cnt) s = .next t ∧ OnlyMe s t ∧ RegsBut [] s.me t.me ∧ RestSame s.me t.me ∧
      t.me.status = .ready ∧ t.me.icount = s.me.icount + 1 ∧
      (count ≠ 0 → t.me.pc = s.me.pc + 1 ∧
        ∀ m, t.me.loop m = if m = n.toNat then ⟨BitVec.ofNat 16 count, s.me.pc + 1, stop, true⟩ else s.me.loop m) ∧
      (count = 0 → (t.me.loop n.toNat).active = false ∧ (t.me.loop n.toNat).count = 0 ∧
        ((∀ m < 3, ¬ inBody m) → t.me.pc = stop ∧ ∀ m, m ≠ n.toNat → t.me.loop m = s.me.loop m)))) ∧
  ∀ (t : Strand) (len : BitVec 53),
    let ends (n : Nat) : Prop := n < 3 ∧ (t.loop n).active = true ∧ ((t.loop n).start.toNat ≤ t.pc.toNat ∧ t.pc.toNat < (t.loop n).stop.toNat) ∧
      (t.loop n).stop.toNat ≤ (t.pc + len).toNat
    ((∀ n, ¬ ends n) → (t.retire len).pc = t.pc + len ∧ ∀ n, (t.retire len).loop n = t.loop n) ∧
    ∀ n, ends n → (∀ m, ends m → m ≠ n → (t.loop m).start.toNat < (t.loop n).start.toNat) →
      ((t.loop n).count ≠ 1 → (t.retire len).pc = (t.loop n).start ∧
        ∀ m, (t.retire len).loop m = if m = n then { t.loop n with count := (t.loop n).count - 1 } else t.loop m) ∧
      ((t.loop n).count = 1 → t.retire len = (t.setLoop n { t.loop n with count := 0, active := false }).retire len)

namespace Sys2Proof.Claims

/-! ## Class 3 -/

/-- A semaphore's count. -/
def semOf (s : State) (lc n : Nat) : BitVec 32 := sget 0 (s.lcoreAt lc).hs n

/-- The strands of a logical core that wait on semaphore `n`, each with its count, in the order of their arrival. -/
def WaitersAre (s : State) (lc n : Nat) (ws : List (Nat × Nat)) : Prop :=
  (∀ k c, (k, c) ∈ ws ↔ (∃ i < 4, k = lc * 4 + i) ∧ (s.strandAt k).status = .waiting (.sem n c)) ∧
  ws.Pairwise fun x y => (s.strandAt x.1).arrived < (s.strandAt y.1).arrived

/-- Waiters served in order from a count: those served, and what is left of it (R280). -/
def servedOf (v : Nat) : List (Nat × Nat) → List Nat × Nat
  | [] => ([], v)
  | (k, c) :: t => if c ≤ v then let r := servedOf (v - c) t; (k :: r.1, r.2) else ([], v)

/-- Of all state only strands and the count of semaphore `n` of one logical core may differ. -/
def OnlySem (lc n : Nat) (s t : State) : Prop :=
  t = { s with strands := t.strands, lcores := t.lcores } ∧
  (∀ k, t.lcoreAt k = { s.lcoreAt k with hs := (t.lcoreAt k).hs }) ∧ ∀ k m, (k ≠ lc ∨ m ≠ n) → semOf t k m = semOf s k m

/-- A strand that counts for a barrier of the issuing strand's task: of its logical cluster for barc, of its gang for barg (R281). -/
def partyOf (gang : Bool) (s : State) (k : Nat) : Prop :=
  k / 1152 = s.cur.task ∧ (s.strandAt k).entry = true ∧ (s.strandAt k).status ≠ .retired ∧ (s.strandAt k).status ≠ .dormant ∧
  (gang = false → k / 4 % 288 / 4 = s.cur.lcore / 4)

/-- A strand as trap entry leaves it (R52, R54). -/
def entered (cause : BitVec 8) (va : Word) (info : Option (BitVec 12)) (cls : BitVec 4) (ret : BitVec 53) (a : Strand) : Strand :=
  { a with cause := cause, causeCls := cls, h := true, trappc := ret, faultva := va.setWidth 56,
           poisoninfo := info.getD a.poisoninfo, pc := a.trapvec, status := .ready, park := none, ir := none }

/-- A trap of the issuing strand enters its handler: it has one, none runs, and its gang's deadline does not expire (R47, R52). -/
def Enters (s : State) : Prop := s.me.trapvec ≠ 0 ∧ s.me.h = false ∧ s.expired (s.cur.key / 1152) = false

/-- The registers that an instruction consumes, and its class (R57, R259). -/
def consumed : Instr → Option (List Reg × BitVec 4)
  | .bc _ a b _ | .bts _ a b _ => some ([a, b], 2)
  | .jr _ a => some ([a], 2)
  | .ret => some ([31], 2)
  | .ld _ a _ | .lda _ a _ | .kld _ a _ | .sdld _ a _ _ _ => some ([a], 1)
  | .st b a m | .stl b a m => if m.space = .ws then none else some ([a, b], 1)
  | .cntset _ a _ | .cntmin _ _ a | .cntsub _ _ a => some ([a], 0)
  | .sysw _ a => some ([a], 3)
  | _ => none

/-- What sysr reads (R54, R58, R72, R79, R80, R114, R128, R223, R287 to R289). -/
def sysSpec (s : State) (n : Nat) : Word :=
  let t := s.me
  let k := s.taskAt s.cur.task
  let vr (f : Vr → Nat) : Word := match s.vrAt k.vr with | some v => BitVec.ofNat 64 (f v) | none => 0
  if n = 0x000 then BitVec.ofNat 64 (t.cause.toNat + 2 ^ 8 * t.causeCls.toNat + if t.h then 2 ^ 16 else 0)
  else if n = 0x001 then t.trappc.setWidth 64
  else if n = 0x002 then t.faultva.setWidth 64
  else if n = 0x003 then t.poisoninfo.setWidth 64
  else if n = 0x004 then t.trapvec.setWidth 64
  else if n = 0x008 then (if k.preq then 1 else 0)
  else if n = 0x009 then k.deadline.setWidth 64
  else if n = 0x010 then t.smode.setWidth 64
  else if n = 0x011 then t.srsalt.setWidth 64
  else if n = 0x012 then t.nbv.setWidth 64
  else if n = 0x013 then t.amax.setWidth 64
  else if n = 0x014 then (if t.nanseen then 1 else 0)
  else if n = 0x015 then t.scopestat.setWidth 64
  else if n = 0x016 then vr fun v => v.pfblk.toNat + 2 ^ 8 * v.pfthr.toNat
  else if n = 0x020 then BitVec.ofNat 64 k.vr
  else if n = 0x021 then BitVec.ofNat 64 s.cur.lcore
  else if n = 0x022 then vr fun v => v.seed.toNat
  else if n = 0x023 then k.step.setWidth 64
  else if n = 0x024 then k.sparg
  else if n = 0x025 then vr fun v => (v.image.entries.filter EntryDecl.template).length
  else if n = 0x028 then s.cycle
  else if n = 0x029 then vr fun v => v.energy / 10000000
  else if n = 0x02A then s.wsref (dieOf s.myCore)
  else if n = 0x02B then BitVec.ofNat 64 (2 ^ 16 + 2 ^ 8 * (72 - ((List.range 72).filter fun p => s.fusedAt p).length) + if s.detmode then 1 else 0)
  else if 0x030 ≤ n ∧ n ≤ 0x037 then BitVec.ofNat 64 ((t.cnt (n - 0x030)).count.toNat + 2 ^ 17 * (t.cnt (n - 0x030)).width.toNat)
  else if 0x038 ≤ n ∧ n ≤ 0x03A then (t.loop (n - 0x038)).count.setWidth 64
  else 0

/-- The value that sysw refuses (R72, R80, R114, R287). -/
def syswRefused (n : Nat) (v : Word) : Prop :=
  (n = 0x010 ∧ 4 ≤ v.toNat % 8) ∨ (n = 0x012 ∧ v.toNat % 2 ^ 8 ≠ 1) ∨ (n = 0x016 ∧ 11 ≤ v.toNat % 16)

/-- A strand after sysw: RW fields take the value, W1C fields clear, RO fields ignore it (R287 to R289). -/
def syswSpec (n : Nat) (v : Word) (t : Strand) : Strand :=
  if n = 0x001 then { t with trappc := v.setWidth 53 }
  else if n = 0x004 then { t with trapvec := v.setWidth 53 }
  else if n = 0x010 then { t with smode := v.setWidth 3 }
  else if n = 0x011 then { t with srsalt := v.setWidth 32 }
  else if n = 0x012 then { t with nbv := v.setWidth 8 }
  else if n = 0x013 then { t with amax := v.setWidth 63 }
  else if n = 0x014 ∧ v.getLsbD 0 = true then { t with nanseen := false }
  else if n = 0x015 ∧ v.getLsbD 0 = true then { t with scopestat := t.scopestat &&& 0xFFFE }
  else t

end Sys2Proof.Claims

/-- semsig adds up to 2^32 - 1 and serves the waiters of its target in order; semwait subtracts, or waits behind others or for the count (R280). -/
def Obligations.SemaphoresCountAndWait : Prop :=
  ∀ (s : State) (n : BitVec 6) (cnt : BitVec 16) (named : Bool) (a : Reg) (ws : List (Nat × Nat)),
    let tgt := if named then (s.me.reg a).toNat else s.cur.lcore
    let lc := lckey s.cur.task tgt
    s.me.status = .ready → WaitersAre s lc n.toNat ws →
    (s.me.region = false → (named = true → s.me.pois a = none ∧ tgt < 4 * (s.taskAt s.cur.task).m) → s.pathBusy .s = false →
      let r := servedOf (min ((semOf s lc n.toNat).toNat + cnt.toNat) (2 ^ 32 - 1)) ws
      ∃ t, exec (.semsig n cnt named a) s = .next t ∧ OnlySem lc n.toNat s t ∧ (semOf t lc n.toNat).toNat = r.2 ∧
        t.me = s.me.retire 1 ∧ ∀ k, k ≠ s.cur.key → t.strandAt k = if k ∈ r.1 then (s.strandAt k).retire 1 else s.strandAt k) ∧
    (named = false →
      (ws = [] ∧ cnt.toNat ≤ (semOf s lc n.toNat).toNat →
        ∃ t, exec (.semwait n cnt) s = .next t ∧ OnlySem lc n.toNat s t ∧
          semOf t lc n.toNat = semOf s lc n.toNat - cnt.setWidth 32 ∧ t.me = s.me.retire 1 ∧ ∀ k, k ≠ s.cur.key → t.strandAt k = s.strandAt k) ∧
      (¬ (ws = [] ∧ cnt.toNat ≤ (semOf s lc n.toNat).toNat) →
        ∃ t, exec (.semwait n cnt) s = .next t ∧ t.me.status = .waiting (.sem n.toNat cnt.toNat) ∧
          t.me = { s.me with status := t.me.status, arrived := t.me.arrived } ∧ t.lcores = s.lcores ∧ MemSame s t ∧
          ∀ k, k ≠ s.cur.key → t.strandAt k = s.strandAt k))

/-- barc and barg: the strand waits; as the last party arrives every party goes on (R281). -/
def Obligations.BarriersComplete : Prop :=
  ∀ (s : State) (gang : Bool), swf Strand.init s.strands = true → partyOf gang s s.cur.key →
    s.me.handler = false → s.me.region = false → s.pathBusy .s = false →
    let w : Wait := if gang then .barg else .barc
    let here : Strand := { s.me with status := .waiting w, arrived := s.uid }
    let all := ∀ k, partyOf gang s k → k ≠ s.cur.key → (s.strandAt k).status = .waiting w
    ∃ t, exec (if gang then .barg else .barc) s = .next t ∧ t = { s with strands := t.strands, uid := t.uid } ∧
      (all → t.me = here.retire 1 ∧ ∀ k, k ≠ s.cur.key →
        (partyOf gang s k → t.strandAt k = (s.strandAt k).retire 1) ∧ (¬ partyOf gang s k → t.strandAt k = s.strandAt k)) ∧
      (¬ all → t.me = here ∧ ∀ k, k ≠ s.cur.key → t.strandAt k = s.strandAt k)

/-- region opens a region at a restart point, yield sets a restart point and yields under sys.preq; both when no store is held (R40, R42, R46). -/
def Obligations.RegionsAndYieldsSetRestartPoint : Prop :=
  ∀ s : State, s.me.rsb = [] → s.me.pending = [] →
    let point (t : State) : Prop :=
      (∀ k, k ≠ s.cur.key → t.strandAt k = s.strandAt k) ∧ MemSame s t ∧ RegsBut [] s.me t.me ∧ (∀ n, t.me.cnt n = s.me.cnt n) ∧
      (∀ n, t.me.sdesc n = s.me.sdesc n) ∧ t.me.pc = (s.me.retire 1).pc ∧ (∀ n, t.me.loop n = (s.me.retire 1).loop n) ∧
      t.me.restart = t.me.pc ∧ t.me.ckpt = t.me.regs ∧ t.me.rsb = [] ∧ t.me.pending = [] ∧ t.me.icount = s.me.icount + 1 ∧
      t.me = { s.me with pc := t.me.pc, status := t.me.status, icount := t.me.icount, regs := t.me.regs, ir := t.me.ir, region := t.me.region,
                         opened := t.me.opened, restart := t.me.restart, ckpt := t.me.ckpt, atYield := t.me.atYield }
    (∃ t, exec .region s = .next t ∧ point t ∧ t.me.region = true ∧ t.me.status = .ready) ∧
    ∃ t, exec .yield s = .next t ∧ point t ∧ t.me.region = false ∧
      t.me.status = if (s.taskAt s.cur.task).preq then .yielded else .ready

/-- The commit of an open region releases the held stores in buffer order: after region or yield a held byte stands at its translated address and no other byte of memory has changed; the second of two held blocks is performed on the state that the first one leaves; while the first one waits, it and every block behind it waits, and of none a byte is written (R42). That what waits keeps the order of its commit is the model's reading (log 20). -/
def Obligations.CommitPerformsHeldStore : Prop :=
  ∀ (s : State) (i : Instr),
    let s0 := (s.onMe fun t => { t with rsb := [], region := false }).tickUid.onMe fun t => { t with pending := [] }
    let o := s.ownerOf s.cur.key
    let com (b : HeldBlk) : Held := .bytes { b with com := some s.uid }
    let done (held : List Held) (t : State) : Prop := t.me.rsb = [] ∧ t.me.pending = held ∧ t.me.region = decide (i = .region)
    i = .region ∨ i = .yield → s.cur.lcore < 288 → s.cur.slot < 4 → s.me.region = true → s.me.pending = [] →
    (∀ (s1 : State) (b : HeldBlk) (off : Nat) (x : Byte) (pa : Nat), s.me.rsb = [.bytes b] → b.data = [(off, some x)] → b.rel = [] → off < 256 →
      s.budgetHeld (s.taskAt s.cur.task).vr 0 = false → s0.xlate (s0.storeAcc s.myLc b.uid b.src) (b.blk * 256 + off) = (s1, .ok pa) →
      ∃ t, exec i s = .next t ∧ done [] t ∧ ∀ a, t.mem.byte a = if a = pa then x else s1.mem.byte a) ∧
    (∀ (s1 s2 : State) (b c : HeldBlk), s.me.rsb = [.bytes b, .bytes c] → s0.perform o (com b) = (s1, none, none) →
      (s1.heldEnds (com b) [com c]).perform o (com c) = (s2, none, none) →
      ∃ t, exec i s = .next t ∧ done [] t ∧ ∀ a, t.mem.byte a = s2.mem.byte a) ∧
    ∀ (s1 : State) (b : HeldBlk) (l : List HeldBlk), s.me.rsb = (b :: l).map Held.bytes → s0.perform o (com b) = (s1, some (com b), none) →
      ∃ t, exec i s = .next t ∧ done ((b :: l).map com) t ∧ ∀ a, t.mem.byte a = s1.mem.byte a

/-- trap and brk enter the handler with the cause of the operand, class 3 and the next word's address; without a handler, or in one, the step task ends with that cause; at the expiry of the gang's deadline the trap is discarded; tret clears H and goes on at sys.trappc with loops unchanged; with H clear it is refused with PRIV (R47, R52 to R54, R220, R277, R283). -/
def Obligations.TrapsEnterAndReturn : Prop :=
  (∀ (s : State) (code : BitVec 8) (tag : BitVec 16),
    (s.expired (s.cur.key / 1152) = true → exec (.trap code) s = .next s ∧ exec (.brk tag) s = .next s) ∧
    (Enters s →
      (∃ t, exec (.trap code) s = .next t ∧ OnlyMe s t ∧ t.me = entered code 0 none 3 (s.me.pc + 1) s.me) ∧
      ∃ t, exec (.brk tag) s = .next t ∧ OnlyMe s t ∧ t.me = entered 0x13 0 none 3 (s.me.pc + 1) s.me) ∧
    (s.me.trapvec = 0 ∨ s.me.h = true → s.expired (s.cur.key / 1152) = false → s.cur.lcore < 288 → s.cur.slot < 4 → swf LCore.init s.lcores = true → (s.taskAt s.cur.task).phase = .running →
      let ended (c : BitVec 8) (t : State) : Prop :=
        (t.taskAt s.cur.task).phase = .stopping ∧ (t.taskAt s.cur.task).status = c ∧ (t.taskAt s.cur.task).cls = 3 ∧
        (∀ k, k / 1152 = s.cur.task → t.strandAt k = Strand.init) ∧ (∀ n, n ≠ s.cur.task → t.taskAt n = s.taskAt n) ∧ MemSame s t
      (∃ t, exec (.trap code) s = .next t ∧ ended code t) ∧ ∃ t, exec (.brk tag) s = .next t ∧ ended 0x13 t)) ∧
  ∀ s : State,
    (s.me.h = true → ∃ t, exec .tret s = .next t ∧ OnlyMe s t ∧
      t.me = { s.me with h := false, pc := s.me.trappc, status := .ready, icount := s.me.icount + 1 }) ∧
    (s.me.h = false → exec .tret s = .next (s.takeTrap 3 { cause := 0x08 }))

/-- A consumed poisoned register traps with POISON_USE at the instruction: its recorded address, and the width, class and number of the lowest-numbered one; at the expiry of the gang's deadline the trap is discarded (R47, R51, R52, R57, R58). -/
def Obligations.ConsumedPoisonTraps : Prop :=
  ∀ (s : State) (i : Instr) (srcs : List Reg) (cls : BitVec 4) (r : Reg) (p : Poison),
    consumed i = some (srcs, cls) → r ∈ srcs → s.me.pois r = some p → (∀ q ∈ srcs, q.toNat < r.toNat → s.me.pois q = none) →
    (s.expired (s.cur.key / 1152) = true → exec i s = .next s) ∧
    (Enters s → ∃ t, exec i s = .next t ∧ OnlyMe s t ∧
      t.me = entered 0x07 p.va (some (BitVec.ofNat 12 (p.width.toNat * 2 ^ 9 + p.cls.toNat * 2 ^ 5 + r.toNat))) cls s.me.pc s.me)

/-- esync, where no record of the strand is incomplete, no class 7 operation unanswered and no failure pending, completes: it retires, whatever else holds (R56). -/
def Obligations.EsyncCompletes : Prop :=
  ∀ s : State, s.recordsBusy = false → s.remoteBusy s.me.sid = false →
    s.me.errs = [] → (s.lcoreAt s.myLc).errs = [] → s.me.rfails = [] → (s.lcoreAt s.myLc).rfails = [] →
    ∃ t, exec .esync s = .next t ∧ Retired [] s t

/-- esync waits for the strand's records and remote operations; without a failure it retires; else it traps with the first in issue order, clearing every engine error or that one remote failure (R48, R56). -/
def Obligations.FailuresRaisedAtEsync : Prop :=
  ∀ (s : State),
    let fs := s.me.errs ++ (s.lcoreAt s.myLc).errs ++ (s.me.rfails ++ (s.lcoreAt s.myLc).rfails)
    let idle := s.recordsBusy = false ∧ s.remoteBusy s.me.sid = false
    (¬ idle → exec .esync s = .next (s.onMe fun t => { t with status := .blocked })) ∧
    (idle → fs = [] → ∃ t, exec .esync s = .next t ∧ Retired [] s t) ∧
    ∀ f ∈ fs, idle → (∀ g ∈ fs, g = f ∨ f.uid < g.uid) → Enters s →
      ∃ t, exec .esync s = .next t ∧ (∀ k, k ≠ s.cur.key → t.strandAt k = s.strandAt k) ∧ (∀ k, k ≠ s.myLc → t.lcoreAt k = s.lcoreAt k) ∧
        t = { s with strands := t.strands, lcores := t.lcores } ∧
        (f.cause = 0x0D → t.me = entered f.cause f.va none f.cls s.me.pc { s.me with errs := [] } ∧
          t.lcoreAt s.myLc = { s.lcoreAt s.myLc with errs := [] }) ∧
        (f.cause ≠ 0x0D → t.me = entered f.cause f.va none f.cls s.me.pc { s.me with rfails := s.me.rfails.erase f } ∧
          t.lcoreAt s.myLc = { s.lcoreAt s.myLc with rfails := (s.lcoreAt s.myLc).rfails.erase f })

/-- tail ends the strand at once and hands what is left of its work to its logical core, unless a 17th tracker entry would be needed; halt retires after all earlier work (R48, R49). -/
def Obligations.StrandsEndAtTailAndHalt : Prop :=
  ∀ s : State, s.me.region = false →
    (s.workLeft = true → 16 ≤ s.trackerUsed s.myCore → exec .tail s = .next (s.onMe fun t => { t with status := .blocked })) ∧
    ((s.workLeft = false ∨ s.trackerUsed s.myCore < 16) → (s.lcoreAt s.myLc).arrivals = [] →
      ∃ t, exec .tail s = .next t ∧ MemSame s t ∧
        t.me = { Strand.init with status := .retired, tailed := true, icount := s.me.icount + 1 } ∧
        (∀ k, k ≠ s.myLc → t.lcoreAt k = s.lcoreAt k) ∧
        t.lcoreAt s.myLc = { s.lcoreAt s.myLc with
          pending := (s.lcoreAt s.myLc).pending ++ s.me.pending.map fun h => (s.me.sid, s.cur.slot, h)
          errs := (s.lcoreAt s.myLc).errs ++ s.me.errs
          rfails := (s.lcoreAt s.myLc).rfails ++ s.me.rfails
          claims := (s.lcoreAt s.myLc).claims ++
            if (s.coreAt s.myCore).m.busyFor s.me.sid then s.me.claim.toList.map fun c => (s.me.sid, c) else []
          tracked := (s.lcoreAt s.myLc).tracked ++ if s.workLeft then [⟨s.me.sid, s.me.vm, s.me.mm, s.me.etr⟩] else [] }) ∧
    (s.me.haltAt = none → (s.coreAt s.myCore).busyBefore s.uid = false → s.coreHolds s.myCore = false → s.remoteBusy s.me.sid = false →
      s.me.errs ++ (s.lcoreAt s.myLc).errs ++ (s.me.rfails ++ (s.lcoreAt s.myLc).rfails) = [] →
      ∃ t, exec .halt s = .next t ∧ MemSame s t ∧ t.lcores = s.lcores ∧
        t.me = { s.me with status := .retired, claim := none, icount := s.me.icount + 1 }) ∧
    (s.me.haltAt = none → ((s.coreAt s.myCore).busyBefore s.uid = true ∨ s.coreHolds s.myCore = true ∨ s.remoteBusy s.me.sid = true) →
      ∃ t, exec .halt s = .next t ∧ MemSame s t ∧ t.me = { s.me with status := .blocked, haltAt := some s.uid })

/-- spawn and signal put their record at the end of their queue, or block while it holds 64; snap sends its trigger; nop does nothing (R282, R284 to R286). -/
def Obligations.SpawnSignalSnap : Prop :=
  ∀ (s : State) (v : Vr) (T : BitVec 12) (n id : BitVec 16) (a : Reg),
    let k := s.taskAt s.cur.task
    let same := [k.vr, s.cur.lcore, n.toNat, (s.me.reg a).toNat, s.me.pc.toNat]
    s.vrAt k.vr = some v → s.me.region = false → s.me.pois a = none →
    (T.toNat < (v.image.entries.filter EntryDecl.template).length →
      (v.spawnq.length < 64 → ∃ t, exec (.spawn T a) s = .next t ∧ Retired [] { s with vrs := t.vrs } t ∧
        (∀ w, w ≠ k.vr → t.vrAt w = s.vrAt w) ∧
        t.vrAt k.vr = some { v with spawnq := v.spawnq ++ [⟨T.toNat, s.me.reg a, s.cur.lcore, s.me.pc, s.cur.task, k.step⟩] }) ∧
      (64 ≤ v.spawnq.length → exec (.spawn T a) s = .next (s.onMe fun t => { t with status := .blocked }))) ∧
    (s.pathBusy .s = false → same ∉ k.seen →
      (s.sup.signals.length < 64 → ∃ t, exec (.signal n a) s = .next t ∧ Retired [] { s with tasks := t.tasks, sup := t.sup } t ∧
        (∀ m, m ≠ s.cur.task → t.taskAt m = s.taskAt m) ∧ t.taskAt s.cur.task = { k with seen := same :: k.seen } ∧
        t.sup = { s.sup with signals := s.sup.signals ++
          [([BitVec.ofNat 64 (n.toNat * 2 ^ 48 + s.cur.lcore % 2 ^ 9 * 2 ^ 20 + k.vr % 2 ^ 20), s.me.reg a, s.me.pc.setWidth 64, 0], v.fn)] }) ∧
      (64 ≤ s.sup.signals.length → exec (.signal n a) s = .next (s.onMe fun t => { t with status := .blocked }))) ∧
    (s.pathBusy .s = true → exec (.signal n a) s = .next (s.onMe fun t => { t with status := .blocked })) ∧
    (∃ t, exec (.snap id) s = .next t ∧ Retired [] { s with sup := t.sup } t ∧
      t.sup = { s.sup with trigger := id, latching := s.sup.latching ++ [(id, s.cycle.toNat + 16)] }) ∧
    ∃ t, exec .nop s = .next t ∧ Retired [] s t

/-- sysr reads every system register without poisoning d; sysw writes RW fields, clears W1C fields, ignores RO fields, and traps on refused values (R54, R58, R287 to R289). -/
def Obligations.SystemRegisters : Prop :=
  ∀ (s : State) (num : BitVec 12) (d a : Reg),
    let n := num.toNat
    let x := s.me.reg a
    (∃ t, exec (.sysr d num) s = .next t ∧ t.me.reg d = (if d = 0 then 0 else sysSpec s n) ∧ t.me.pois d = none ∧ Retired [d] s t) ∧
    (s.me.pois a = none → syswRefused n x → exec (.sysw num a) s = .next (s.takeTrap 3 { cause := 0x03 })) ∧
    (s.me.pois a = none → ¬ syswRefused n x →
      ∃ t, exec (.sysw num a) s = .next t ∧ OnlyMe { s with vrs := t.vrs } t ∧ t.me = (syswSpec n x s.me).retire 1 ∧
        (∀ w, n ≠ 0x016 ∨ w ≠ (s.taskAt s.cur.task).vr → t.vrAt w = s.vrAt w) ∧
        (n = 0x016 → t.vrAt (s.taskAt s.cur.task).vr =
          (s.vrAt (s.taskAt s.cur.task).vr).map fun v => { v with pfblk := BitVec.ofNat 4 x.toNat, pfthr := BitVec.ofNat 4 (x.toNat / 2 ^ 8) }))

/-- varm, vgo and migr: PRIV for a strand of a VR; in an open region the supervisor's own traps with REGION_ILLEGAL; else its d takes the result code (R44, R253, R290). -/
def Obligations.SupervisorInstructions : Prop :=
  ∀ (s : State) (d a b : Reg),
    let x := s.me.reg a
    let id : BitVec 32 := x.setWidth 32
    let known : Option Arming := s.sup.arming.find? fun r => decide (r.launch = id) && !r.told
    let ready : Option Arming := s.sup.arming.find? fun r => decide (r.launch = id) && decide (r.result = some 0) && r.told && !r.gone
    let bad := x.toNat / 2 ^ 42 % 2 ^ 6 ≠ 0 ∨ x.toNat / 2 ^ 48 = 0 ∨ (s.me.reg b).toNat % 8 ≠ 0
    let wrote (n : Nat) (t : State) : Prop := t.me.reg d = (if d = 0 then 0 else BitVec.ofNat 64 n) ∧ t.me.pois d = none
    (s.cur ≠ supRef → ∀ i ∈ [Instr.varm d a b, .vgo d a, .migr d a b], exec i s = .next (s.takeTrap 3 { cause := 0x08 })) ∧
    (s.cur = supRef → s.me.region = true → ∀ i ∈ [Instr.varm d a b, .vgo d a, .migr d a b], exec i s = .next (s.takeTrap 3 { cause := 0x0F })) ∧
    (s.cur = supRef → s.me.region = false → s.me.pois a = none → s.me.pois b = none →
      (known = none → bad → ∃ t, exec (.varm d a b) s = .next t ∧ wrote 3 t ∧ Retired [d] s t) ∧
      (∀ ms, known = none → ¬ bad → memberList s.mem (s.me.reg b).toNat (x.toNat / 2 ^ 32 % 2 ^ 10 + 1) = some ms →
        ∃ t, exec (.varm d a b) s = .next t ∧ t.me = { s.me with status := .blocked } ∧
          ∃ r ∈ t.sup.arming, r.launch = id ∧ r.members = ms ∧ r.result = none ∧ r.until_ = s.cycle.toNat + 1000 * (x.toNat / 2 ^ 48)) ∧
      (∀ r v, known = some r → r.result = some v →
        ∃ t, exec (.varm d a b) s = .next t ∧ wrote v t ∧ Retired [d] { s with sup := t.sup } t) ∧
      (∀ r, known = some r → r.result = none → ∃ t, exec (.varm d a b) s = .next t ∧ t.me = { s.me with status := .blocked }) ∧
      (ready = none → ∃ t, exec (.vgo d a) s = .next t ∧ wrote 3 t ∧ Retired [d] s t) ∧
      (∀ r, ready = some r → ∃ t, exec (.vgo d a) s = .next t ∧ wrote 0 t ∧
        (∀ k, k ≠ s.cur.key → t.strandAt k = s.strandAt k) ∧ ∀ y ∈ t.sup.arming, y.launch = id → y.gone = true) ∧
      (s.canMove (x.toNat % 2 ^ 20) ((s.me.reg b).toNat % 2 ^ 12) = none →
        ∃ t, exec (.migr d a b) s = .next t ∧ wrote 1 t ∧ Retired [d] s t) ∧
      ∀ v w, s.canMove (x.toNat % 2 ^ 20) ((s.me.reg b).toNat % 2 ^ 12) = some (v, w) →
        ∃ t, exec (.migr d a b) s = .next t ∧ wrote 0 t ∧ Retired [d] { s with vrs := t.vrs, sent := t.sent } t ∧
          (∃ u, t.vrAt (x.toNat % 2 ^ 20) = some u ∧ u.moving = .leaving ((s.me.reg b).toNat % 2 ^ 12) ∧ winOpen (u.win w) = true) ∧
          ∃ c, t.sent = s.sent ++ [.move ((s.me.reg b).toNat % 2 ^ 12) (.context c)] ∧ c.vr = x.toNat % 2 ^ 20)

namespace Sys2Proof.Claims

/-! ## Records -/

/-- What the record of an instruction captures at dispatch: operands by their slots, trips, count (R22 to R24, R57). -/
def capOf (s : State) (i : Instr) (r : Rec) : Cap :=
  match recPlan i with
  | some (_, p, _) => s.capRec p r
  | none => s.capRec {} r

/-- The conditions that every record must meet: no poisoned register, trips from 1 to 65,535, sound descriptors, their formats, the predicate's width, footprints within bound and quota, room in an open region's buffer (R22, R39, R43, R57, R61, R248, R249, R267). -/
def RecordPasses (s : State) (r : Rec) (c : Cap) (w : Wants) (k : Checks) (foots : Option (List Foot)) (l : List Foot) : Prop :=
  (∀ q ∈ recRegs r, s.me.pois q = none) ∧ (∀ n ∈ c.trips, 1 ≤ n ∧ n ≤ 65535) ∧
  (∀ o ∈ [c.d, c.a, c.b, c.c], ∀ d sl, o = .stream d sl → descFieldBad d = false) ∧ c.formatsBad w = false ∧
  (r.pe = true → r.type ≠ 0 → (s.me.cnt r.psel.toNat).width = widthCode (fmtBits r.type)) ∧
  (∃ l0, foots = some l0 ∧ l = l0 ++ statFoot r ∧ ∀ f ∈ l, f.hi ≤ s.myQuota) ∧ s.rsbOver k.held k.extra = false ∧
  k.priv = false ∧ (k.region = true → s.me.region = false) ∧ k.det = false ∧ k.fields = false ∧ k.types = false ∧ k.align = none ∧ k.late = false

/-- The entries of a queue (R35). -/
def queueDepth : Engine → Nat
  | .v => 32 | .m => 16 | .t => 32 | .f => 64 | .c => 16

/-- The slots of a queue that are taken: a class 7 word keeps its slot until its packets are injected (R35, R214, R358). -/
def takenOf (s : State) (e : Engine) : Nat :=
  let q := (s.coreAt s.myCore).engine e
  if e = .f ∧ q.run.isSome then q.q.length + 1 else q.q.length

/-- The queue and, for an entry with footprints, the 64 entries of the range checker have room (R35, R39). -/
def Room (s : State) (e : Engine) (l : List Foot) : Prop :=
  takenOf s e < queueDepth e ∧ (l ≠ [] → s.checkerUsed s.myCore < 64)

/-- An entry stands at the end of a queue of the issuing strand's core; of all else only the strand and the issue number have changed. -/
def Enqueued (e : Engine) (i : Instr) (c : Cap) (l : List Foot) (s t : State) : Prop :=
  t = { s with strands := t.strands, cores := t.cores, uid := s.uid + 1 } ∧ MemSame s t ∧
  (∀ k, k ≠ s.cur.key → t.strandAt k = s.strandAt k) ∧ (∀ k, k ≠ s.myCore → t.coreAt k = s.coreAt k) ∧
  t.coreAt s.myCore = (s.coreAt s.myCore).setEngine e
    { (s.coreAt s.myCore).engine e with q := ((s.coreAt s.myCore).engine e).q ++ [⟨s.cur, s.me.sid, s.uid, s.me.pc, i, c, l⟩] }

/-- A record that passes enters its queue and its strand goes on after its eight words, or blocks while there is no room (R35, R39). -/
def Dispatches (e : Engine) (i : Instr) (c : Cap) (l : List Foot) (s : State) : Prop :=
  (Room s e l → ∃ t, exec i s = .next t ∧ Enqueued e i c l s t ∧ t.me = s.me.retire 8) ∧
  (¬ Room s e l → exec i s = .next (s.onMe fun t => { t with status := .blocked }))

/-- Class 4: the record, whether its types are accepted (R293), the formats of its streams, values that are refused (R307, R308, R314, R317, R318) and footprints (R37, R310, R315, R317, R318). -/
def vecForm : Instr → Option (Rec × Bool × Wants × (Cap → Bool) × (Cap → Option (List Foot)))
  | .vadd r | .vsub r | .vmul r | .vfma r | .vfms r | .vdiv r | .vmin r | .vmax r | .vabs r | .vneg r | .vclamp r | .vcmp r
  | .vfill r | .vscan r | .vrng r => some (r, isF r.type || isI r.type, ⟨r.type, r.type, r.type, r.type⟩, fun _ => false, elemFoots)
  | .vcopysign r | .vround r | .vrcp r | .vsqrt r | .vrsqrt r | .vexp r | .vexp2 r | .vlog r | .vlog2 r | .vtanh r | .verf r =>
    some (r, isF r.type, ⟨r.type, r.type, r.type, r.type⟩, fun _ => false, elemFoots)
  | .vand r | .vor r | .vxor r | .vnot r =>
    some (r, isI r.type || decide (r.type = fI4) || isM r.type, ⟨r.type, r.type, r.type, r.type⟩, fun _ => false, elemFoots)
  | .vshl r | .vshr r => some (r, isI r.type, ⟨r.type, r.type, r.type, r.type⟩, fun _ => false, elemFoots)
  | .vsar r => some (r, isI r.type && isSigned r.type, ⟨r.type, r.type, r.type, r.type⟩, fun _ => false, elemFoots)
  | .vsel r | .vmov r =>
    some (r, isF r.type || isI r.type || isN r.type || isM r.type, ⟨r.type, r.type, r.type, r.type⟩, fun _ => false, elemFoots)
  | .vcvt r => some (r, (isF r.type || isI r.type || isN r.type) && (isF r.type2 || isI r.type2 || isN r.type2),
      ⟨r.type, r.type2, r.type2, r.type2⟩, fun _ => false, elemFoots)
  | .vquant r => some (r, quantFmt r.type && isF r.type2, ⟨r.type, r.type2, r.type2, r.type2⟩, blockTripBad r.type, elemFoots)
  | .vdeq r => some (r, isF r.type && quantFmt r.type2, ⟨r.type, r.type2, r.type, r.type⟩,
      fun c => c.a.isStream && blockTripBad r.type2 c, elemFoots)
  | .vsum r | .vdot r | .vmaxr r => some (r, isF r.type || isI r.type, ⟨r.type, r.type, r.type, r.type⟩, fun _ => false, rowFoots)
  | .vamax r => some (r, isF r.type, ⟨r.type, r.type, r.type, r.type⟩, fun _ => false, rowFoots)
  | .vargmax r => some (r, isF r.type || isI r.type, ⟨r.type, r.type, r.type, r.type⟩, fun c => baseBad r.type c.b c, rowFoots)
  | .vtopk r => some (r, isF r.type || isI r.type, ⟨r.type, r.type, r.type, r.type⟩, fun c => baseBad r.type c.c c,
      fun c => topkFoots c r.ctl.toNat)
  | .vgath r => some (r, isF r.type || isI r.type, ⟨r.type, r.type, r.type, r.type⟩,
      fun c => tableMeets c.a [c.d] c,
      fun c => allFoots [streamFoots c.d c true, tableFoots c.a false, streamFoots c.b c false])
  | .vscat r => some (r, isF r.type || isI r.type, ⟨r.type, r.type, r.type, r.type⟩,
      fun c => tableMeets c.d [c.a, c.b] c,
      fun c => allFoots [tableFoots c.d true, streamFoots c.a c false, streamFoots c.b c false])
  | _ => none

/-- The footprints of a multiplying record over the arrays of its claim: A unless a window of a bank stands for it, and B (R37, R324, R327 to R330). -/
def mulFoots (s : State) (r : Rec) (c : Cap) (gang sparse asrc : Bool) : Option (List Foot) :=
  let m := mshape r c sparse
  let R := if gang then (match s.heldClaim with | some k => k.rows | none => 1) else 1
  let C := if gang then (match s.heldClaim with | some k => k.cols | none => 1) else 1
  allFoots [if asrc then some [] else m.aFoots c.a (128 * R), matFoots c.b m.act (matCols r.type2 * C) false]

/-- Class 5 but for mlease: the record, the banks it needs of the claim, whether it needs a gang's claim or none, the formats of its streams, refused values, accepted types, footprints (R163, R321 to R335). -/
def matForm (s : State) : Instr → Option (Rec × List Nat × Option Bool × Wants × (Cap → Bool) × (Cap → Bool) × (Cap → Option (List Foot)))
  | .mma r => some (r, ctlBank r :: (if ctlAsrc r then [ctlSbank r] else []), some false, ⟨r.type, r.type, r.type2, r.type⟩,
      fun c => matTripsBad false c || anchorBad c.d || (ctlAsrc r && decide (128 < low8 c.a + matK r.type)),
      fun c => mulTypesOk r (!c.d.absent) false (ctlAsrc r), fun c => mulFoots s r c false false (ctlAsrc r))
  | .mmas r => some (r, [ctlBank r], some false, ⟨r.type, r.type, r.type2, r.type⟩, fun c => matTripsBad false c || anchorBad c.d,
      fun c => mulTypesOk r (!c.d.absent) true false, fun c => mulFoots s r c false true false)
  | .mmag r => some (r, [ctlBank r], some true, ⟨r.type, r.type, r.type2, r.type⟩, fun c => matTripsBad false c || anchorBad c.d,
      fun c => mulTypesOk r (!c.d.absent) (r.ctl.getLsbD 6) false, fun c => mulFoots s r c true (r.ctl.getLsbD 6) false)
  | .mzero r => some (r, [ctlBank r], none, ⟨r.type, r.type, r.type, r.type⟩,
      fun c => matTripsBad true c || anchorBad c.d || s.memberBad c.c,
      fun c => decide (r.type = fI32) || (c.d.absent && decide (r.type = fF32 ∨ r.type = fF64)), fun _ => some [])
  | .mlda r => some (r, [ctlBank r], none, ⟨r.type, r.type, r.type, r.type⟩,
      fun c => matTripsBad false c || anchorBad c.d || s.memberBad c.c || decide (128 < ctlRow r + tripN c.trips 0),
      fun c => decide (r.type = fI32 ∨ r.type = fI64) || (c.d.absent && decide (r.type = fF32 ∨ r.type = fF64)),
      fun c => matFoots c.a (colsOf c (matCols r.type)) (tripN c.trips 0) false)
  | .mdrain r => some (r, [ctlBank r], none, ⟨r.type, r.type, r.type, r.type⟩,
      fun c => matTripsBad false c || anchorBad c.d || s.memberBad c.c || decide (128 < ctlRow r + tripN c.trips 0),
      fun _ => drainFmt r.type, fun c => matFoots c.d (colsOf c (s.kindToBe (ctlBank r) (low8 c.c)).cols) (tripN c.trips 0) true)
  | .mfold r | .mstat r => some (r, [ctlBank r], none, ⟨r.type, r.type, r.type, r.type⟩,
      fun c => matTripsBad true c || anchorBad c.d || s.memberBad c.c, fun _ => true, fun _ => some [])
  | .mfree r => some (r, [], none, ⟨r.type, r.type, r.type, r.type⟩, fun c => matTripsBad true c, fun _ => true, fun _ => some [])
  | _ => none

/-- Class 6: the record, what it captures, its own checks and footprints (R337 to R346). -/
def transferRec (s : State) : Instr → Option (Rec × Cap × Checks × Option (List Foot))
  | .tcopy r =>
    let c := copyCap r (capOf s (.tcopy r) r)
    let far := !(c.d.isStream && c.a.isStream)
    let base := if c.d.isStream then c.a else c.d
    some (r, c, { fields := copyTripsBad far (r.ctl.toNat % 4) c.trips, types := !copyFmt r.type
                  align := if far then farMisaligned base c.b c.c (copyBytes r) else none
                  held := if s.me.region && !c.d.isStream then farBlocks base c.b c.c (copyBytes r) c else [] },
      allFoots [streamFoots c.d c true, streamFoots c.a c false])
  | .tfill r =>
    let c := capOf s (.tfill r) r
    some (r, c, { fields := copyTripsBad (!c.d.isStream) 0 c.trips, types := !copyFmt r.type
                  align := if c.d.isStream then none else farMisaligned c.d c.b c.c (copyBytes r)
                  held := if s.me.region && !c.d.isStream then farBlocks c.d c.b c.c (copyBytes r) c else [] }, streamFoots c.d c true)
  | .tfetch r =>
    let c := capOf s (.tfetch r) r
    some (r, c, { fields := copyTripsBad true 0 c.trips, types := !copyFmt r.type, align := farMisaligned c.a c.b c.c (copyBytes r) },
      if wsPast c.a c.b c.c (copyBytes r) c.trips then none else streamFoots c.d c true)
  | .tgather r =>
    let c := capOf s (.tgather r) r
    some (r, c, { fields := copyTripsBad true 0 c.trips, types := !copyFmt r.type, align := farMisaligned c.a .none .none (copyBytes r) },
      allFoots [streamFoots c.d c true, streamFoots c.b c false])
  | .tscatter r =>
    let c := capOf s (.tscatter r) r
    some (r, c, { fields := copyTripsBad true 0 c.trips, types := !copyFmt r.type, align := farMisaligned c.d .none .none (copyBytes r)
                  extra := if s.me.region then (activePoints c).length else 0 },
      allFoots [streamFoots c.a c false, streamFoots c.b c false])
  | .tmap r =>
    let c := capOf s (.tmap r) r
    some (r, c, { fields := decide (tripN c.trips 3 ≠ 1) || s.mapBad c.d.val.toNat c.b.val.toNat c.c.val.toNat }, some [⟨c.b.val.toNat, c.b.val.toNat + c.c.val.toNat, true⟩])
  | .tunmap r | .tflush r =>
    let c := s.capRec { d := .value, typed := false } r
    some (r, c, { fields := (s.entryFoot c.d.val.toNat).isNone }, some ((s.entryFoot c.d.val.toNat).toList.map fun e => ⟨e.1, e.1 + e.2, true⟩))
  | .tprefetch r =>
    let c := capOf s (.tprefetch r) r
    some (r, c, { fields := if r.ctl.getLsbD 0 then decide (tripN c.trips 3 ≠ 1 ∨ c.b.val.toNat = 0 ∨ 2 ^ 30 < c.b.val.toNat) else decide (63 < c.d.val.toNat) }, some [])
  | .twload r =>
    let c := capOf s (.twload r) r
    let fn := match s.vrAt s.myVrId with | some v => v.fn | none => 0
    some (r, c, { priv := !s.holdsDie fn (dieOf s.myCore), region := true, fields := decide (tripN c.trips 3 ≠ 1 ∨ c.b.val = 0 ∨ 16 ≤ s.loadsSoFar)
                  align := if c.d.val.toNat % 64 ≠ 0 then some c.d.val else if c.a.val.toNat % 64 ≠ 0 then some c.a.val
                    else if c.b.val.toNat % 64 ≠ 0 then some c.d.val else none },
      if 2 ^ 28 < c.d.val.toNat + c.b.val.toNat then none else some [])
  | _ => none

/-- The record of a class 8 instruction. -/
def collRec : Instr → Option Rec
  | .cjoin r | .callred r | .credsc r | .callgath r | .cbcast r | .ctopk r | .cbar r => some r
  | _ => none

/-- The entries of class 9, with their queue (R250, R251). -/
def entryForm : Instr → Option Engine
  | .vmode .. => some .v
  | .mmode .. => some .m
  | .tmode _ => some .t
  | .qfence e _ => some e
  | _ => none

/-- Class 7: whether the strand parks, the register values captured, and the checks (R356, R359 to R372). -/
def fabForm (s : State) : Instr → Option (Bool × List Word × FabChecks)
  | .rld blk d a v t m => some (true, [s.me.reg a, s.me.reg d, s.me.reg v, s.me.reg t],
      { regs := [a, v, t] ++ (if blk then [d] else []), fields := targetBad (s.me.reg v) || (blk && blockBad (s.me.reg d))
        align := fabMisaligned (widthBytes m.width) (s.me.reg a) (if blk then [blockOperand (s.me.reg d)] else [])
        foots := if blk then [spanFoot (blockOperand (s.me.reg d)) true] else [] })
  | .rst blk b a v t m => some (false, [s.me.reg a, s.me.reg b, s.me.reg v, s.me.reg t], s.storeChecks blk b a v t m [] false)
  | .rsth blk b a v t h m => some (false, [s.me.reg a, s.me.reg b, s.me.reg v, s.me.reg t, s.me.reg h],
      s.storeChecks blk b a v t m [h] (handlerBad (s.me.reg h)))
  | .ratom op _ a b v t m => some (true, [s.me.reg a, s.me.reg b, s.me.reg v, s.me.reg t],
      { region := true, det := decide (op = 7), regs := [a, b, v, t], fields := targetBad (s.me.reg v)
        align := fabMisaligned (widthBytes m.width) (s.me.reg a) [] })
  | .rcas d a b v t m => some (true, [s.me.reg a, s.me.reg b, s.me.reg v, s.me.reg t, s.me.reg d],
      { region := true, regs := [d, a, b, v, t], fields := targetBad (s.me.reg v), align := fabMisaligned (widthBytes m.width) (s.me.reg a) [] })
  | .rprobe _ a v t => some (true, [s.me.reg a, 0, s.me.reg v, s.me.reg t], { regs := [a, v, t], fields := targetBad (s.me.reg v) })
  | .rfeat _ v t => some (true, [0, 0, s.me.reg v, s.me.reg t], { regs := [v, t], fields := targetBad (s.me.reg v) })
  | .rmcast d a b m =>
    let (n, la) := listOperand (s.me.reg d)
    some (false, [s.me.reg a, s.me.reg d, s.me.reg b],
      { regs := [d, a, b], fields := listBad (s.me.reg d) || blockBad (s.me.reg b)
        align := fabMisaligned (widthBytes m.width) (s.me.reg a) [blockOperand (s.me.reg b)]
        foots := [spanFoot (blockOperand (s.me.reg b)) false, ⟨la, la + 16 * n, false⟩, ⟨la + 16 * n, la + 16 * n + 16, true⟩]
        extra := if s.me.region then n * (blocksOf 0 ((s.me.reg a).toNat % 2 ^ 56) (blockOperand (s.me.reg b)).1).length else 0 })
  | .rred op b a v t m => some (false, [s.me.reg a, s.me.reg b, s.me.reg v, s.me.reg t],
      { det := decide (op = 7), regs := [b, a, v, t], fields := targetBad (s.me.reg v) || blockBad (s.me.reg b)
        align := fabMisaligned (widthBytes m.width) (s.me.reg a) [blockOperand (s.me.reg b)]
        foots := [spanFoot (blockOperand (s.me.reg b)) false]
        held := if s.me.region then remoteBlocks (s.me.reg v) (s.me.reg a) (blockOperand (s.me.reg b)).1 else [] })
  | .rcopy put d a v t _ width => some (false, [s.me.reg a, s.me.reg d, s.me.reg v, s.me.reg t],
      { regs := [d, a, v, t], fields := targetBad (s.me.reg v) || copyBad (s.me.reg d)
        align := fabMisaligned (widthBytes width) (s.me.reg a) [copyOperand (s.me.reg d)]
        foots := [spanFoot (copyOperand (s.me.reg d)) (!put)]
        held := if s.me.region && put then remoteBlocks (s.me.reg v) (s.me.reg a) (copyOperand (s.me.reg d)).1 else [] })
  | _ => none

/-- A class 7 word meets every check (R254, R356, R360). -/
def WordPasses (s : State) (k : FabChecks) : Prop :=
  (k.region = true → s.me.region = false) ∧ (k.det = true → s.detmode = false) ∧ (∀ r ∈ k.regs, s.me.pois r = none) ∧
  k.fields = false ∧ k.align = none ∧ (∀ f ∈ k.foots, f.hi ≤ s.myQuota) ∧ s.rsbOver k.held k.extra = false

/-- What an entry that takes effect as it leaves its queue makes of its strand (R299, R326, R336, R347). -/
def takesEffect (x : Entry) (t : Strand) : Option Strand :=
  match x.instr with
  | .vmode rm ovf en => some { t with vm := ⟨rm, ovf, en⟩ }
  | .mmode rm ovf en => some { t with mm := ⟨rm, ovf, en.setWidth 7⟩ }
  | .tmode tr => some { t with etr := tr }
  | .mfree _ => some { t with claim := none }
  | _ => none

/-- What an entry of class 9 captures: nothing that it uses. -/
def entryCap (s : State) : Cap :=
  { trips := [], d := .none, a := .none, b := .none, c := .none, count := none, salt := s.me.srsalt, nbv := s.me.nbv
    region := s.me.region, vals := [] }

end Sys2Proof.Claims

/-- Every class 4 record that meets its checks enters the vector queue with what it captures (R22 to R24, R35, R39, R254, R292 to R318). -/
def Obligations.VectorRecordsDispatch : Prop :=
  ∀ (s : State) (i : Instr) (r : Rec) (ok : Bool) (w : Wants) (bad : Cap → Bool) (fs : Cap → Option (List Foot)) (l : List Foot),
    vecForm i = some (r, ok, w, bad, fs) → ok = true → bad (capOf s i r) = false →
    RecordPasses s r (capOf s i r) w {} (fs (capOf s i r)) l → Dispatches .v i (capOf s i r) l s

/-- Every class 5 record but mlease that meets its checks and its claim enters the matrix queue (R35, R163, R321 to R335). -/
def Obligations.MatrixRecordsDispatch : Prop :=
  ∀ (s : State) (i : Instr) (r : Rec) (banks : List Nat) (gang : Option Bool) (w : Wants) (bad ok : Cap → Bool)
    (fs : Cap → Option (List Foot)) (l : List Foot) (k : Claim),
    matForm s i = some (r, banks, gang, w, bad, ok, fs) → s.heldClaim = some k → (∀ b ∈ banks, k.mask.getLsbD b = true) →
    (∀ g, gang = some g → (g = true ↔ 1 < k.rows * k.cols)) → bad (capOf s i r) = false → ok (capOf s i r) = true →
    RecordPasses s r (capOf s i r) w {} (fs (capOf s i r)) l → Dispatches .m i (capOf s i r) l s

/-- mlease takes free banks at once where no other strand of the gang asks for free ones: the claim is set and its banks' cells and planes are zero, with kind none and their history as it was; a strand that holds the same claim goes on, one that holds another is refused with PRIV (R162, R163, R174, R325). That a claim of the same mask with another shape or origin is another claim, and so is refused, is the model's choice (log 93). -/
def Obligations.MatrixLeaseGranted : Prop :=
  ∀ (s : State) (r : Rec),
    let c := capOf s (.mlease r) r
    let want := s.leaseOf r c
    (∀ q ∈ recRegs r, s.me.pois q = none) → (∀ n ∈ c.trips, n = 1) → want.base + want.rows * want.cols ≤ (s.taskAt s.cur.task).m →
    s.predBad r = false →
    (s.heldClaim = some want → exec (.mlease r) s = .next (s.onMe fun t => t.retire 8)) ∧
    (∀ k, s.heldClaim = some k → k ≠ want → exec (.mlease r) s = .next (s.takeTrap 5 { cause := 0x08 })) ∧
    (s.heldClaim = none → s.me.claim = none → s.claimFree s.cur.task s.cur.key want = true →
      s.rivals s.cur.key = [] → s.cur.slot < 4 →
      ∃ t, exec (.mlease r) s = .next t ∧ t.me = ({ s.me with claim := some want } : Strand).retire 8 ∧
        (∀ k, k ≠ s.cur.key → t.strandAt k = s.strandAt k) ∧
        t = { s with strands := t.strands, arrays := t.arrays, banks := t.banks, rels := t.rels } ∧
        (∀ j ∈ want.clusters, ∀ b < 4, want.mask.getLsbD b = true →
          t.bankAt (bankKey s.cur.task j b) = { s.bankAt (bankKey s.cur.task j b) with cells := [], planes := [], kind := .none }) ∧
        ∀ k, (∀ j ∈ want.clusters, ∀ b < 4, want.mask.getLsbD b = true → k ≠ bankKey s.cur.task j b) → t.bankAt k = s.bankAt k)

/-- Every class 6 record that meets its checks enters the transfer queue (R35, R43, R337 to R346). -/
def Obligations.TransferRecordsDispatch : Prop :=
  ∀ (s : State) (i : Instr) (r : Rec) (c : Cap) (k : Checks) (fs : Option (List Foot)) (l : List Foot),
    transferRec s i = some (r, c, k, fs) → RecordPasses s r c ⟨r.type, r.type, r.type, r.type⟩ k fs l → Dispatches .t i c l s

/-- Every class 8 record that meets its checks enters the collective queue; after a peer is lost it traps with PEER_LOST (R35, R44, R205, R373, R374, R383). -/
def Obligations.CollectiveRecordsDispatch : Prop :=
  ∀ (s : State) (i : Instr) (r : Rec) (l : List Foot), collRec i = some r →
    let c := capOf s i r
    RecordPasses s r c ⟨r.type, r.type, r.type, r.type⟩ { region := true, fields := s.collBad i r c, types := !collTypeOk i r }
      (collFoots i r c ((s.commN (commOf i c)).getD 1)) l →
    ((s.lcoreAt s.myLc).lost = false → Dispatches .c i c l s) ∧
    ((s.lcoreAt s.myLc).lost = true → exec i s = .next (s.takeTrap 8 { cause := 0x12 }))

/-- A class 4 record that breaks conditions traps with the first of them in the order of the checks: a poisoned register, a trip out of range, a wrong type, a footprint past the quota; with no register poisoned, a record of a refused type never enters a queue (R22, R39, R57, R254, R293). -/
def Obligations.VectorRecordsRefused : Prop :=
  ∀ (s : State) (i : Instr) (r : Rec) (ok : Bool) (w : Wants) (bad : Cap → Bool) (fs : Cap → Option (List Foot)),
    vecForm i = some (r, ok, w, bad, fs) →
    let c := capOf s i r
    let values := (∀ n ∈ c.trips, 1 ≤ n ∧ n ≤ 65535) ∧ c.anyDesc descFieldBad = false ∧ bad c = false
    (∀ q p, q ∈ recRegs r → s.me.pois q = some p → (∀ x ∈ recRegs r, x.toNat < q.toNat → s.me.pois x = none) →
      exec i s = .next (s.takeTrap 4 { cause := 0x07, va := p.va, info := some (p.width ++ p.cls ++ q) })) ∧
    ((∀ q ∈ recRegs r, s.me.pois q = none) →
      (¬ values → exec i s = .next (s.takeTrap 4 { cause := 0x03 })) ∧
      (values → (ok = false ∨ s.predBad r = true ∨ c.formatsBad w = true) → exec i s = .next (s.takeTrap 4 { cause := 0x04 })) ∧
      (values → ok = true → s.predBad r = false → c.formatsBad w = false →
        (fs c = none ∨ ∃ l, fs c = some l ∧ ∃ f ∈ l ++ statFoot r, s.myQuota < f.hi) → exec i s = .next (s.takeTrap 4 { cause := 0x05 })))

/-- vmode, mmode, tmode and qfence take one slot of their queue and their strand goes on, or blocks while the queue is full (R35, R250, R251, R299, R336, R347). -/
def Obligations.QueueEntriesDispatch : Prop :=
  ∀ (s : State) (i : Instr) (e : Engine), entryForm i = some e →
    (takenOf s e < queueDepth e →
      ∃ t, exec i s = .next t ∧ Enqueued e i (entryCap s) [] s t ∧ t.me = s.me.retire 1) ∧
    (queueDepth e ≤ takenOf s e → exec i s = .next (s.onMe fun t => { t with status := .blocked }))

/-- Every class 7 word that meets its checks enters the fabric queue with its register values; rld, ratom, rcas, rprobe and rfeat park their strand, the others retire (R35, R195, R356, R357, R359 to R372). -/
def Obligations.FabricWordsDispatch : Prop :=
  ∀ (s : State) (i : Instr) (parks : Bool) (vals : List Word) (k : FabChecks), fabForm s i = some (parks, vals, k) → WordPasses s k →
    (Room s .f k.foots → ∃ t, exec i s = .next t ∧ Enqueued .f i (s.capWord vals) k.foots s t ∧
      t.me = if parks then { s.me with status := .parked, park := some s.uid } else s.me.retire 1) ∧
    (¬ Room s .f k.foots → exec i s = .next (s.onMe fun t => { t with status := .blocked }))

/-- grant opens a closed window at its generation, leaves an open one of the same contents as it is, writes one of other contents at the next generation or seals it at 255, changes nothing of a sealed one, and d takes the token, or 0 on a sealed window; revoke's d takes the next generation, or 0x100 for a window then sealed; behind other words both take a slot of the fabric queue and their strand stays blocked; rfence retires when the strand has nothing outstanding and no failure, and traps with the first failure when it has one (R35, R190 to R193, R365, R368, R369). That the word takes its slot once and that its strand stays blocked at it is the model's choice (log 60). -/
def Obligations.GrantRevokeFence : Prop :=
  ∀ (s : State) (v : Vr) (d a b c : Reg), s.vrAt s.myVrId = some v →
    let (x, y, z) := (s.me.reg a, s.me.reg b, s.me.reg c)
    let n := z.toNat % 2 ^ 12
    let m := x.toNat
    let w := v.win n
    let rmax : BitVec 4 := z.extractLsb' 12 4
    let same := winBase w = x.toNat ∧ winLimit w = y.toNat ∧ winRmax w = rmax
    let token (g : BitVec 8) : Word :=
      mkToken v.key s.myVrId (z.toNat / 2 ^ 32 % 2 ^ 20) g (z.extractLsb' 52 4) (BitVec.ofNat 12 n) (z.extractLsb' 16 16)
    let granted (u : BitVec 128) (r : Word) : Prop :=
      ∃ t, exec (.grant d a b c) s = .next t ∧ Retired [d] { s with vrs := t.vrs } t ∧
        t.vrAt s.myVrId = some { v with windows := sset 0 v.windows n u } ∧ t.me.reg d = if d = 0 then 0 else r
    (s.me.region = false → s.me.pois a = none → s.me.pois b = none → s.me.pois c = none → grantBad x y z = false → s.fabricAhead = false →
      (winSealed w = false → winOpen w = false → granted (mkWin y.toNat (winGen w) x.toNat false true rmax) (token (winGen w))) ∧
      (winSealed w = false → winOpen w = true → same → granted w (token (winGen w))) ∧
      (winSealed w = false → winOpen w = true → ¬ same → winGen w ≠ 255 →
        granted (mkWin y.toNat (winGen w + 1) x.toNat false true rmax) (token (winGen w + 1))) ∧
      (winSealed w = false → winOpen w = true → ¬ same → winGen w = 255 →
        granted (mkWin (winLimit w) 255 (winBase w) true false (winRmax w)) 0) ∧
      (winSealed w = true → granted w 0)) ∧
    (s.me.region = false → s.me.pois a = none → m ≤ 4094 → s.fabricAhead = false →
      ∃ t, exec (.revoke d a) s = .next t ∧ Retired [d] { s with vrs := t.vrs } t ∧ ∃ u, t.vrAt s.myVrId = some u ∧
        (∀ k, k ≠ m → u.win k = v.win k) ∧ winOpen (u.win m) = (if winGen (v.win m) = 255 then false else winOpen (v.win m)) ∧
        (winGen (v.win m) = 255 → winSealed (u.win m) = true ∧ t.me.reg d = if d = 0 then 0 else 0x100) ∧
        (winGen (v.win m) ≠ 255 → winGen (u.win m) = winGen (v.win m) + 1 ∧
          (winSealed (v.win m) = false → t.me.reg d = if d = 0 then 0 else (winGen (v.win m) + 1).setWidth 64))) ∧
    (s.fabricAhead = true → s.inFabric = false → s.me.region = false → s.me.pois a = none → takenOf s .f < 64 →
      (s.me.pois b = none → s.me.pois c = none → grantBad x y z = false → ∃ t, exec (.grant d a b c) s = .next t ∧
        Enqueued .f (.grant d a b c) (s.capWord [x, y, z]) [] s t ∧ t.me = { s.me with status := .blocked }) ∧
      (m ≤ 4094 → ∃ t, exec (.revoke d a) s = .next t ∧
        Enqueued .f (.revoke d a) (s.capWord [x]) [] s t ∧ t.me = { s.me with status := .blocked })) ∧
    ((s.coreAt s.myCore).f.busyFor s.me.sid = false → s.remoteBusy s.me.sid = false →
      let fs := s.me.rfails ++ (s.lcoreAt s.myLc).rfails
      (fs = [] → ∃ t, exec .rfence s = .next t ∧ FenceSet .f .f 0xFFFF s t) ∧
      ∀ r ∈ fs, (∀ g ∈ fs, g = r ∨ r.uid < g.uid) → Enters s → ∃ t, exec .rfence s = .next t ∧
        t.me = entered r.cause r.va none r.cls s.me.pc { s.me with rfails := s.me.rfails.erase r }) ∧
    (((s.coreAt s.myCore).f.busyFor s.me.sid = true ∨ s.remoteBusy s.me.sid = true) →
      exec .rfence s = .next (s.onMe fun t => { t with status := .blocked }))

/-- A record at the head of an idle engine's queue leaves it: a vector, matrix or transfer record starts, with its strand's engine state, a matrix command once it has the turn of its arrays; a class 7 word and a collective record start and go on as a completion step takes them; one that conflicts with an older incomplete record stays, and so does a word that releases while an earlier operation of its strand is unanswered; vmode, mmode and tmode take effect, mfree ends its claim, a qfence leaves once what it waits for is done. A class 7 word of one packet sends it when its pair has room, and keeps its slot till then (R35, R38, R71, R127, R164, R251, R299, R326, R336, R347, R357, R358). -/
def Obligations.RecordsLeaveQueueInOrder : Prop :=
  ∀ (s : State) (core : Nat),
    (∀ (e : Engine) (x : Entry) (rest : List Entry), ((s.coreAt core).engine e).q = x :: rest → ((s.coreAt core).engine e).run = none → (∀ y ∈ rest, y.uid ≠ x.uid ∧ y.isFence = false) →
    s.ownerAlive x = true → (s.strandAt x.ref.key).pending = [] → swf Strand.init s.strands = true → (s.conflicting core e x = true → x.isFence = false → exec (.recordLeavesQueue core e) s = .next s) ∧
    (s.conflicting core e x = false → (∀ r, s.budgetHeld (s.taskAt x.ref.task).vr r = false) →
      (∀ r ok w bad fs, e = .v → vecForm x.instr = some (r, ok, w, bad, fs) →
        ∃ t, exec (.recordLeavesQueue core e) s = .next t ∧ MemSame s t ∧ ((t.coreAt core).engine e).q = rest ∧
          ∃ u, ((t.coreAt core).engine e).run = some u ∧ u.e = x ∧ u.vm = (s.strandAt x.ref.key).vm) ∧
      (∀ r c k fs, e = .t → transferRec s x.instr = some (r, c, k, fs) →
        ∃ t, exec (.recordLeavesQueue core e) s = .next t ∧ MemSame s t ∧ ((t.coreAt core).engine e).q = rest ∧
          ∃ u, ((t.coreAt core).engine e).run = some u ∧ u.e = x ∧ u.etr = (s.strandAt x.ref.key).etr) ∧
      (∀ r b, e = .m → matBankOf x.instr = some (r, b) →
        (s.mayEnter x = false → exec (.recordLeavesQueue core e) s = .next s) ∧
        (s.mayEnter x = true → ∃ t, exec (.recordLeavesQueue core e) s = .next t ∧ t.mem = s.mem ∧ ((t.coreAt core).engine e).q = rest ∧
          ∃ u, ((t.coreAt core).engine e).run = some u ∧ u.e = x ∧ u.mm = (s.strandAt x.ref.key).mm)) ∧
      ((e = .f ∧ (fabForm s x.instr).isSome ∨ e = .c ∧ (collRec x.instr).isSome) →
        (s.relWaits x.sid x.uid x.instr = true → exec (.recordLeavesQueue core e) s = .next s) ∧
        (s.relWaits x.sid x.uid x.instr = false → ∃ s1 u, exec (.recordLeavesQueue core e) s = exec (.recordCompletion core e) s1 ∧ MemSame s s1 ∧
          ((s1.coreAt core).engine e).q = rest ∧ ((s1.coreAt core).engine e).run = some u ∧ u.e = x ∧ (e = .c → u.coll = some Coll.init))) ∧
      (∀ t, takesEffect x (s.strandAt x.ref.key) = some t →
        ∃ y, exec (.recordLeavesQueue core e) s = .next y ∧ MemSame s y ∧ ((y.coreAt core).engine e).q = rest ∧
          ((y.coreAt core).engine e).run = none ∧ y.strandAt x.ref.key = t) ∧
      (∀ e' m, x.instr = .qfence e' m →
        (e = .f → s.unanswered x.sid x.uid m = true → rest = [] → exec (.recordLeavesQueue core e) s = .next s) ∧
        ((e = .f → s.unanswered x.sid x.uid m = false) → ∃ t, exec (.recordLeavesQueue core e) s = .next t ∧ MemSame s t ∧
          ((t.coreAt core).engine e).q = rest ∧ ((t.coreAt core).engine e).run = none)))) ∧
    ∀ (u : Run) (p : RPiece) (ep : Nat),
      let lc := lckey u.e.ref.task u.e.ref.lcore
      let c := (s.coreAt core).engine .f
      c.run = some u → u.void = false → (∀ o ∈ s.rops, o.uid ≠ u.e.uid) → s.touchSpans lc (u.e.foots.map fun f => (f.lo, f.hi)) = (s, .ok ()) →
      (u.e.cap.vals.getD 0 0).toNat < 2 ^ 56 → (holdsWord u.e.instr = false ∨ s.holdsFar u.e = false) →
      fabPieces (s.taskAt u.e.ref.task).vr (s.lcoreAt lc).sp u.e.instr u.e.cap.vals = [p] → s.locWaits u.e.sid u.e.uid [p] = false →
      s.locOf p.p.dstvr.toNat = some ep → ep < 4096 →
      (ep = s.endpoint.toNat ∨ s.paths ep (pathHash p.p.srcvr.toNat p.p.dstvr.toNat p.p.cls.toNat) ≠ []) →
      (s.pairRoom p = false → ∃ t v, exec (.recordCompletion core .f) s = .next t ∧ ((t.coreAt core).engine .f).run = some v ∧ v.e.uid = u.e.uid ∧
        t.unacked = s.unacked ∧ t.sent = s.sent ∧ t.agenda = s.agenda) ∧
      (s.pairRoom p = true → ∃ t, exec (.recordCompletion core .f) s = .next t ∧ ((t.coreAt core).engine .f).run = none ∧ t.mem = s.mem ∧
        (∃ o ∈ t.rops, o.uid = u.e.uid ∧ o.left = 1 ∧ o.held = none) ∧
        ∃ v ∈ t.unacked, v.uid = u.e.uid ∧ v.p.op = p.p.op ∧ v.p.va = p.p.va ∧ v.p.data = p.p.data ∧ v.p.token = p.p.token ∧
          v.p.dstvr = p.p.dstvr ∧ v.p.dstEp.toNat = ep)

namespace Sys2Proof.Claims

/-- Nothing is held behind the fault path: no store of a strand or tracker, no arrival. -/
def Quiet (s : State) : Prop :=
  s.hold = [] ∧ (∀ k, (s.strandAt k).pending = []) ∧ ∀ lc, (s.lcoreAt lc).pending = []

/-- The address lies in `n` bytes from `a`. -/
def within (a n x : Nat) : Prop := a ≤ x ∧ x < a + n

/-- What a page entry becomes when its page is rewritten to `pa` with a tier hint (R103, R107). -/
def leafWith (old pa tier : Nat) : Nat := old / 2 ^ 48 * 2 ^ 48 + pa + tier * 1024 + old % 1024

/-- A 64 KiB page has been copied from `src` to `dst` and the entry at `at_` rewritten to it with a tier hint; every other byte of memory is as before. -/
def PageMoved (s t : State) (src dst at_ tier : Nat) : Prop :=
  ∀ x, (within at_ 8 x → t.mem.byte x = byteOf (leafWith (s.mem.read at_ 8) dst tier) (x - at_)) ∧
    (within dst 65536 x → t.mem.byte x = s.mem.byte (src + (x - dst))) ∧
    (¬ within at_ 8 x → ¬ within dst 65536 x → t.mem.byte x = s.mem.byte x)

end Sys2Proof.Claims

/-- END_TASK_WRITEBACK and COMPLETION_SIGNAL_WRITE: when every halt line of a running task has risen, its dirty regions go back; one whose line waits keeps the task running, one that is refused leaves status 0x0D with class 6 where the status was 0; then the task stops with the first failure left over, a lost peer, or its status so far; before that nothing changes. Once its work is done, its record stands at its cpa, no other byte of memory differs, and its entry, binds and strands are gone (R48, R50, R95, R96, R205, R212, R220, R221). That a failure left over takes the place of an earlier status, and that a lost peer counts only at status 0, is the model's choice (log 66). -/
def Obligations.TaskEnds : Prop :=
  ∀ (s : State) (task : Nat),
    let tk := s.taskAt task
    let a := 16 * tk.cpa.toNat
    ((tk.phase ≠ .running ∨ (∃ lc ∈ s.lcsOf task, s.haltLine lc = false)) → exec (.endTaskWriteback task) s = .next s) ∧
    (tk.phase = .running → (∀ lc ∈ s.lcsOf task, s.haltLine lc = true) → s.dirty (s.lcsOf task) = [] →
      ∃ t, exec (.endTaskWriteback task) s = .next t ∧ t = { s with tasks := t.tasks, agenda := t.agenda } ∧
        (∀ k, k ≠ task → t.taskAt k = s.taskAt k) ∧
        t.agenda = s.agenda ++ [.event (if s.hasLists task then .twloadApply task else .completionSignalWrite task)] ∧
        t.taskAt task = { tk with phase := .stopping, status := (t.taskAt task).status, cls := (t.taskAt task).cls } ∧
        (∀ f, s.leftover task = some f → (t.taskAt task).status = f.cause ∧ (t.taskAt task).cls = f.cls) ∧
        (s.leftover task = none → (t.taskAt task).status = if tk.lost = true ∧ tk.status = 0 then 0x12 else tk.status)) ∧
    (∀ lc i ln s1 (x : XR Unit), tk.phase = .running → (∀ lc ∈ s.lcsOf task, s.haltLine lc = true) → s.dirty (s.lcsOf task) = [(lc, i)] →
      s.leftover task = none → tk.lost = false → s.budgetHeld (s.taskAt (lc / 288)).vr 0 = false →
      let r := (s.lcoreAt lc).reg i
      r.marked = [ln] →
      s.gvWrite (s.mapAcc lc i rW) (r.va.toNat + 64 * ln) ((s.lcoreAt lc).sp.bytes (r.base + 64 * ln) (min 64 (r.len - 64 * ln))) = (s1, x) →
      ∃ t, exec (.endTaskWriteback task) s = .next t ∧ (∀ y, t.mem.byte y = s1.mem.byte y) ∧
        (x = .ok () → (t.taskAt task).phase = .stopping ∧ (t.taskAt task).status = tk.status ∧
          (t.lcoreAt lc).reg i = { r with st := .filled, lines := [] }) ∧
        (∀ va, x = .refused va → (t.taskAt task).phase = .stopping ∧ (t.lcoreAt lc).reg i = Region.zero ∧
          (t.taskAt task).status = (if tk.status = 0 then 0x0D else tk.status) ∧ (t.taskAt task).cls = if tk.status = 0 then 6 else tk.cls) ∧
        (x = .wait → (t.taskAt task).phase = .running ∧ (t.lcoreAt lc).reg i = { r with lines := [(ln, true)] })) ∧
    ((tk.phase ≠ .stopping ∨ s.taskDone task = false) → exec (.completionSignalWrite task) s = .next s) ∧
    (tk.phase = .stopping → s.taskDone task = true → tk.spawn = none → s.hasMem a = true →
      ∃ t, exec (.completionSignalWrite task) s = .next t ∧
        t.mem.read a 8 = tk.step.toNat * 2 ^ 32 + tk.status.toNat * 2 ^ 24 + tk.cls.toNat * 2 ^ 20 + tk.vr ∧
        t.mem.read (a + 8) 8 = tk.energy / 10000000 % 2 ^ 64 ∧
        (∀ x, ¬ within a 16 x → t.mem.byte x = s.mem.byte x) ∧ (∀ x, t.hostMem.byte x = s.hostMem.byte x) ∧ t.ws = s.ws ∧
        t.taskAt task = Task.init ∧ (∀ e ∈ t.binds, bindTask e.2 ≠ task) ∧
        (∀ e ∈ s.binds, bindTask e.2 ≠ task → e ∈ t.binds) ∧ (∀ k, k ≠ task → t.taskAt k = s.taskAt k) ∧
        (∀ k, k / 1152 = task → t.strandAt k = Strand.init) ∧ (∀ lc, lc / 288 = task → t.lcoreAt lc = LCore.init) ∧
        (∀ lc, lc / 288 ≠ task → t.lcoreAt lc = s.lcoreAt lc) ∧ ∀ b, b / 288 ≠ task → t.bankAt b = s.bankAt b)

/-- REGION_FILL copies what is left of an unfilled region from the global space, here within one page: the region is then filled, or it stays unfilled after a refusal, or its fill waits, and every other byte and region stays; TWLOAD_APPLY copies a recorded twload's bytes into the die's weight store once no step task runs there (R93, R96, R346). That a refused fill starts again from its first byte with the bytes that it copied kept, and that a budget holds a fill, is the model's choice (logs 36, 62). -/
def Obligations.RegionFillsAndStoreCopies : Prop :=
  ∀ (s : State) (task : Nat),
    (∀ (lcore idx : Nat),
      let lc := lckey task lcore
      let r := (s.lcoreAt lc).reg idx
      let va := r.va.toNat + r.fillAt
      let n := r.len - r.fillAt
      let held := s.budgetHeld (s.taskAt (lc / 288)).vr 0
      let read := s.gvRead (s.mapAcc lc idx rR) va n
      (r.st ≠ .unfilled → exec (.regionFill task lcore idx) s = .next s) ∧
      (r.st = .unfilled → 0 < n → va % 65536 + n ≤ 65536 →
        ∃ t, exec (.regionFill task lcore idx) s = .next t ∧
          (∀ j, j ≠ idx → (t.lcoreAt lc).reg j = (s.lcoreAt lc).reg j) ∧ (∀ k, k ≠ lc → t.lcoreAt k = s.lcoreAt k) ∧
          (∀ x, ¬ within (r.base + r.fillAt) n x → (t.lcoreAt lc).sp.byte x = (s.lcoreAt lc).sp.byte x) ∧
          (held = true → (t.lcoreAt lc).sp = (s.lcoreAt lc).sp ∧ (t.lcoreAt lc).reg idx = { r with filling := true } ∧ t.mem = s.mem) ∧
          (held = false → (∀ x, t.mem.byte x = read.1.mem.byte x) ∧
            (∀ bs, read.2 = .ok bs → (t.lcoreAt lc).sp.bytes (r.base + r.fillAt) n = bs ∧
              (t.lcoreAt lc).reg idx = { r with st := .filled, lines := [], fillAt := 0, filling := false }) ∧
            (∀ x, read.2 = .refused x → (t.lcoreAt lc).sp = (s.lcoreAt lc).sp ∧
              (t.lcoreAt lc).reg idx = { r with fillAt := 0, filling := false }) ∧
            (read.2 = .wait → (t.lcoreAt lc).sp = (s.lcoreAt lc).sp ∧ (t.lcoreAt lc).reg idx = { r with filling := true })))) ∧
    (((s.taskAt task).phase ≠ .stopping ∨ s.hasLists task = false ∨ s.dieInUse (s.diesOf task) = true) →
      exec (.twloadApply task) s = .next s) ∧
    (∀ lc w s1 bs, (s.taskAt task).phase = .stopping → s.dieInUse (s.diesOf task) = false → s.budgetHeld (s.taskAt (lc / 288)).vr 0 = false →
      ((s.lcsOf task).flatMap fun lc => (s.lcoreAt lc).twloads.map fun w => (lc, w)) = [(lc, w)] → 0 < w.len →
      w.va % 65536 + w.len ≤ 65536 → s.gvRead (s.applyAcc lc) w.va w.len = (s1, .ok bs) →
      let d := dieOf (s.coreOf (lc / 288) (lc % 288))
      ∃ t, exec (.twloadApply task) s = .next t ∧ Mem.bytes (sget [] t.ws d) w.ws w.len = bs ∧
        (∀ die x, ¬ (die = d ∧ within w.ws w.len x) → Mem.byte (sget [] t.ws die) x = Mem.byte (sget [] s.ws die) x) ∧
        (t.lcoreAt lc).twloads = [] ∧ Turn.event (.completionSignalWrite task) ∈ t.agenda ∧ ∀ x, t.mem.byte x = s1.mem.byte x)

/-- FAULT_RESOLUTION and RESPONSE_RECORD: an access to an address of no declared range is refused, each waiting access with it; a page of a declared range is placed and the fault leaves. A response retries or refuses the accesses that wait for its page and frees its tag; a bad record is discarded and counted (R109 to R112, R395). -/
def Obligations.FaultsResolved : Prop :=
  ∀ s : State,
    (∀ id, s.faultAt id = none → exec (.faultResolution id) s = .next s) ∧
    (∀ id f v, s.faultAt id = some f → f.kind = .supervisor → s.vrAt f.vr = some v →
      s.walkVr v (f.page * 65536) = .error .invalid →
      (rangeAt v.image (f.page * 65536) = none → Quiet s →
        exec (.faultResolution id) s = .next { s with
            faults := s.faults.filter fun g => decide (g.id ≠ id)
            denied := s.denied ++ f.who.map fun w => (w, f.vr, f.page) }) ∧
      (∀ g s1 u, rangeAt v.image (f.page * 65536) = some g → v.fn = 0 →
        s.placePage v f.vr (f.page * 65536) (gvBits g) (g.data.drop (f.page * 65536 - g.va)) = (s1, .ok u) → Quiet s1 →
        ∃ t, exec (.faultResolution id) s = .next t ∧ (∀ x, t.mem.byte x = s1.mem.byte x) ∧ ∀ h ∈ t.faults, h.id ≠ id)) ∧
    (∀ fn,
      let f := s.fnAt fn
      let r := f.ring 1
      let a := r.base.toNat / 4096 * 4096 + 16 * r.head.toNat
      let w0 := s.hostMem.read a 8
      let w1 := s.hostMem.read (a + 8) 8
      let next := BitVec.ofNat 12 ((r.head.toNat + 1) % r.size)
      ((r.size = 0 ∨ r.head = r.tail) → exec (.responseRecord fn) s = .next s) ∧
      (r.size ≠ 0 → r.head ≠ r.tail → goodResponse f w0 w1 = none →
        ∃ t, exec (.responseRecord fn) s = .next t ∧ t = { s with fns := t.fns } ∧ (∀ g, g ≠ fn → t.fnAt g = s.fnAt g) ∧
          t.fnAt fn = { f with rings := (t.fnAt fn).rings } ∧ (∀ q, q ≠ 1 → (t.fnAt fn).ring q = f.ring q) ∧
          (t.fnAt fn).ring 1 = { r with head := next, bad := r.bad + 1 }) ∧
      (∀ tag q g, r.size ≠ 0 → r.head ≠ r.tail → goodResponse f w0 w1 = some (tag, q) → f.waiting = [] → Quiet s → s.waits = [] →
        s.waitingFor fn q.ipa.toNat = [g] →
        ∃ t, exec (.responseRecord fn) s = .next t ∧ sget none (t.fnAt fn).tags tag = none ∧
          (t.fnAt fn).ring 1 = { r with head := next } ∧ (∀ h ∈ t.faults, h.id ≠ g.id) ∧ t.mem = s.mem ∧
          t.denied = if w0 % 4 = 0 then s.denied else s.denied ++ g.who.map fun w => (w, g.vr, g.page)))

/-- TIER_PROMOTION and FREE_PAGE_RING_REFILL: a page that an access promotes is copied into the first page of the ring, its entry names it with tier 00; on an empty ring the promotion waits; a page larger than the ring's stays where it is and its entry takes tier 00. A ring with fewer than 256 entries takes the supervisor's pages, or the HBM4E page of a demoted page, which is copied to LPDDR6 (R103, R107). That a larger page is promoted where it stands, and that a demoted page takes tier 10, is the model's choice (logs 35, 40). -/
def Obligations.PagesPromotedAndDemoted : Prop :=
  ∀ s : State,
    (∀ id f w, s.faultAt id = some f → f.kind = .promote → s.promotable f = some w →
      let fn := s.fnOf f.vr
      (w.last.lvl ≠ 0 → Quiet s → ∃ t, exec (.tierPromotion id) s = .next t ∧
        (∀ x, within w.last.at_ 8 x →
          t.mem.byte x = byteOf (leafWith (s.mem.read w.last.at_ 8) (w.last.pa 0 / 65536 * 65536) 0) (x - w.last.at_)) ∧
        (∀ x, ¬ within w.last.at_ 8 x → t.mem.byte x = s.mem.byte x) ∧ ∀ g ∈ t.faults, g.id ≠ id) ∧
      (w.last.lvl = 0 → (s.fnAt fn).free = [] →
        ∃ t, exec (.tierPromotion id) s = .next t ∧ t = { s with fns := t.fns } ∧ ∀ g, t.fnAt g = s.fnAt g) ∧
      (∀ e rest, w.last.lvl = 0 → (s.fnAt fn).free = e :: rest → (s.fnAt fn).goodFree e = true → Quiet s →
        (w.last.at_ + 8 ≤ e.toNat ∨ e.toNat + 65536 ≤ w.last.at_) →
        ∃ t, exec (.tierPromotion id) s = .next t ∧ PageMoved s t (w.pa / 65536 * 65536) e.toNat w.last.at_ 0 ∧
          (∀ g ∈ t.faults, g.id ≠ id) ∧ (t.fnAt fn).free = rest)) ∧
    (∀ fn pages,
      let f := s.fnAt fn
      (256 ≤ f.free.length → s.pullPages = [] → exec (.freePageRingRefill fn pages) s = .next (s.promoteAgain fn)) ∧
      (f.free.length < 256 → pages ≠ [] → s.pullPages = [] →
        ∃ t, exec (.freePageRingRefill fn pages) s = .next t ∧ t = { s with fns := t.fns, agenda := t.agenda } ∧
          (t.fnAt fn).free = (f.free ++ pages).take 4096 ∧ (∀ p ∈ pages, p.toNat + 65536 ≤ (t.fnAt fn).nextHbm) ∧ (∀ g, g ≠ fn → t.fnAt g = s.fnAt g) ∧
          t.agenda = s.agenda ++ (s.promoting fn).map fun f => .event (.tierPromotion f.id)) ∧
      (∀ vr page l pa lp, f.free = [] → pages = [] → s.pullPages = [] → s.candidates fn = [(vr, page, l, pa)] →
        nextIn f.lpSlice lpBase 0x200000000 128 (Nat.max f.nextLp lpBase) = some lp → s.hasMem lp = true → lp % 65536 = 0 →
        (l.at_ + 8 ≤ lp ∨ lp + 65536 ≤ l.at_) →
        ∃ t, exec (.freePageRingRefill fn pages) s = .next t ∧ PageMoved s t pa lp l.at_ 2 ∧
          (t.fnAt fn).free = [BitVec.ofNat 64 pa] ∧ ∀ lc x, (t.lcoreAt lc).sp.byte x = (s.lcoreAt lc).sp.byte x))

namespace Sys2Proof.Claims

/-- `n` follows sharer `k` in ascending order, wrapping round. -/
def IsNext (ks : List Nat) (k n : Nat) : Prop :=
  n ∈ ks ∧ ((k < n ∧ ∀ x ∈ ks, k < x → n ≤ x) ∨ ((∀ x ∈ ks, x ≤ k) ∧ ∀ x ∈ ks, n ≤ x))

/-- No byte of device, host, scratchpad or weight-store memory differs. -/
def BytesSame (s t : State) : Prop :=
  (∀ a, t.mem.byte a = s.mem.byte a) ∧ (∀ a, t.hostMem.byte a = s.hostMem.byte a) ∧
  (∀ lc a, (t.lcoreAt lc).sp.byte a = (s.lcoreAt lc).sp.byte a) ∧ t.ws = s.ws

end Sys2Proof.Claims

/-- ROTATION, PREEMPT_REQUEST, DEADLINE_EXPIRY, GANG_RELEASE, GANG_RESUME and WATCHDOG_EXPIRY: an absent sharer's turn comes in ascending order; a gang under pre-emption gives up its clusters once its strands stand still, keeps its strands' registers, and goes on when it is bound again; a strand past the deadline goes back to its restart point; a watchdog stops the task with 0x40 (R31, R45 to R47, R222). -/
def Obligations.GangsShareTime : Prop :=
  ∀ s : State,
    (∀ core,
      let ks := s.sharers (core / 4)
      let k := (s.coreAt core).present
      let b := sget 0 s.binds (4 * (core / 4) + k)
      (k ∈ ks → (s.coResident (bindTask b) (bindJ b) = true ∨ s.mayRotate core (s.lcOn core k) = false) →
        exec (.rotation core) s = .next s) ∧
      (∀ n, k ∈ ks → s.coResident (bindTask b) (bindJ b) = false → s.mayRotate core (s.lcOn core k) = true → IsNext ks k n →
        (s.coreAt core).replies = [] → swf Strand.init s.strands = true →
        ∃ t, exec (.rotation core) s = .next t ∧ (t.coreAt core).present = n ∧ (t.coreAt core).rotate = false ∧ MemSame s t ∧
          (∀ c, c ≠ core → t.coreAt c = s.coreAt c) ∧
          ∀ j, t.strandAt j = { s.strandAt j with status := (t.strandAt j).status } ∧
            ((s.strandAt j).status ≠ .ready → t.strandAt j = s.strandAt j))) ∧
    (∀ task,
      let tk := s.taskAt task
      (∀ d, (tk.phase = .running → tk.preq = false → d ≠ 0 →
          ∃ t, exec (.preemptRequest task d) s = .next t ∧ t = { s with tasks := t.tasks } ∧ (∀ k, k ≠ task → t.taskAt k = s.taskAt k) ∧
            t.taskAt task = { tk with preq := true, deadline := d, reqAt := s.cycle.toNat }) ∧
        ((tk.phase ≠ .running ∨ tk.preq = true ∨ d = 0) → exec (.preemptRequest task d) s = .next s)) ∧
      (∀ core, ((tk.phase ≠ .running ∨ tk.preq = false ∨ s.cycle.toNat < tk.reqAt + tk.deadline.toNat) →
          exec (.deadlineExpiry task core) s = .next s) ∧
        (∀ k, tk.phase = .running → tk.preq = true → tk.reqAt + tk.deadline.toNat ≤ s.cycle.toNat → s.expiring task core = [k] →
          ∃ t, exec (.deadlineExpiry task core) s = .next t ∧ MemSame s t ∧ (t.strandAt k).status = .yielded ∧
            (t.strandAt k).pc = (s.strandAt k).restart ∧ (t.strandAt k).regs = (s.strandAt k).ckpt ∧ (t.strandAt k).rsb = [] ∧
            (t.strandAt k).h = false ∧ (t.strandAt k).ir = none ∧ ∀ j, j ≠ k → t.strandAt j = s.strandAt j)) ∧
      ((tk.phase ≠ .running ∨ tk.preq = false ∨ s.clean task = false) → exec (.gangRelease task) s = .next s) ∧
      (tk.phase = .running → tk.preq = true → s.clean task = true → swf Strand.init s.strands = true → (∀ c, (s.coreAt c).replies = []) →
        ∃ t, exec (.gangRelease task) s = .next t ∧ BytesSame s t ∧ (t.taskAt task).phase = .preempted ∧
          (∀ e ∈ t.binds, bindTask e.2 ≠ task) ∧ (∀ e ∈ s.binds, bindTask e.2 ≠ task → e ∈ t.binds) ∧
          ∀ k, t.strandAt k = if k / 1152 = task then { s.strandAt k with icount := 0 } else s.strandAt k) ∧
      (∀ bs s1, ((tk.phase ≠ .preempted ∨ (∃ x ∈ s.queued, tk.prio < x.1)) → exec (.gangResume task bs) s = .next s) ∧
        (s.mayResume task = true → s.bindAll bs = (s1, true) → s1.allBound task = true → swf Strand.init s.strands = true →
          ∃ t, exec (.gangResume task bs) s = .next t ∧ MemSame s t ∧ t.binds = s1.binds ∧ (t.taskAt task).phase = .running ∧
            (t.taskAt task).preq = false ∧
            ∀ k, t.strandAt k = if k / 1152 = task ∧ (s.strandAt k).status = .yielded then
              { s.strandAt k with status := .ready } else s.strandAt k)) ∧
      ((tk.phase ≠ .running ∨ tk.wdog = 0 ∨ tk.eligible < tk.wdog * 65536) → exec (.watchdogExpiry task) s = .next s) ∧
      (tk.phase = .running → tk.wdog ≠ 0 → tk.wdog * 65536 ≤ tk.eligible →
        ∃ t, exec (.watchdogExpiry task) s = .next t ∧ t.mem = s.mem ∧ t.hostMem = s.hostMem ∧ t.binds = s.binds ∧
          (t.taskAt task).phase = .stopping ∧ (t.taskAt task).status = 0x40 ∧ (t.taskAt task).cls = 0 ∧
          (∀ k, k / 1152 = task → t.strandAt k = Strand.init) ∧ ∀ k, k ≠ task → t.taskAt k = s.taskAt k))

namespace Sys2Proof.Claims

/-- The record of a snapshot for one block: kind, index, trigger id, no overflow; the cycle; the block's content (R232). -/
def snapRecord (id : BitVec 16) (cycle : Word) (b : Nat × Nat × List Word) (r : List Word) : Prop :=
  ∃ w, r = w :: cycle :: b.2.2 ∧ w.toNat = b.1 * 2 ^ 60 + b.2.1 * 2 ^ 48 + id.toNat * 2 ^ 32

end Sys2Proof.Claims

/-- POWER_WINDOW_END, BUDGET_PERIOD_BOUNDARY, BANK_GATE, BANK_WAKE_END, WS_REFRESH_WINDOW, INVALIDATION and SNAPSHOT_LATCH: the clock steps with the window's power, deterministic tasks stop with POWER_LIMIT; every limited balance takes its allotment and at most two of them are carried; a bank is gated only between step tasks and reads zero in the weight store when it is enabled; no cache keeps a translation that an invalidation names; a due trigger latches every block that writes no earlier record (R99, R100, R115, R219, R226, R231, R232). That a window's end does nothing in a package whose design supplies no power stages is the model's choice (log 97). -/
def Obligations.PowerBudgetsAndBanks : Prop :=
  ∀ s : State,
    (∀ w, (s.bare = true → exec (.powerWindowEnd w) s = .next s) ∧
      (s.bare = false → s.detmode = false →
        let c := if 2800 < w then max 8 (s.clockStep - 1) else if w < 2700 then min 16 (s.clockStep + 1) else s.clockStep
        exec (.powerWindowEnd w) s = .next { s with clockStep := c }) ∧
      (s.detmode = true → w ≤ 2800 → exec (.powerWindowEnd w) s = .next s) ∧
      (s.bare = false → s.detmode = true → 2800 < w → ∃ t, exec (.powerWindowEnd w) s = .next t ∧ t.mem = s.mem ∧
        t.clockStep = s.clockStep ∧
        ∀ task, (s.taskAt task).phase = .running → (t.taskAt task).phase = .stopping ∧ (t.taskAt task).status = 0x11)) ∧
    (s.cycle.toNat < s.periodAt → exec .budgetPeriodBoundary s = .next s) ∧
    (s.periodAt ≤ s.cycle.toNat → Quiet s → swf Fn.init s.fns = true →
      ∃ t, exec .budgetPeriodBoundary s = .next t ∧ t = { s with fns := t.fns, periodAt := s.periodAt + s.period } ∧
        ∀ f r, r < 3 → (t.fnAt f).allotOf r = (s.fnAt f).allotOf r ∧ (t.fnAt f).balOf r =
          if (s.fnAt f).allotOf r = 0xFFFFFFFF then (s.fnAt f).balOf r
          else min ((s.fnAt f).balOf r) (2 * ((s.fnAt f).allotOf r).toNat) + ((s.fnAt f).allotOf r).toNat) ∧
    (∀ c b,
      let x := s.coreAt c
      (s.fusedAt (c / 4) = true → ∀ g, exec (.bankGate (.spad c b) g) s = .next s) ∧
      (s.coreInUse c = true → exec (.bankGate (.spad c b) true) s = .next s) ∧
      (s.fusedAt (c / 4) = false → s.coreInUse c = false → ∃ t, exec (.bankGate (.spad c b) true) s = .next t ∧ t = { s with cores := t.cores } ∧
        sget false (t.coreAt c).gated b = true ∧ sget false (t.coreAt c).waking b = false ∧ (t.coreAt c).tlb = [] ∧
        ∀ k, k ≠ c → t.coreAt k = s.coreAt k) ∧
      (sget false x.gated b = false → exec (.bankGate (.spad c b) false) s = .next s) ∧
      (s.fusedAt (c / 4) = false → sget false x.gated b = true → ∃ t, exec (.bankGate (.spad c b) false) s = .next t ∧ t = { s with cores := t.cores } ∧
        sget false (t.coreAt c).gated b = false ∧ sget false (t.coreAt c).waking b = true ∧ ∀ k, k ≠ c → t.coreAt k = s.coreAt k) ∧
      (∃ t, exec (.bankWakeEnd (.spad c b)) s = .next t ∧ t = { s with cores := t.cores } ∧
        sget false (t.coreAt c).waking b = false ∧ (∀ k, k ≠ b → sget false (t.coreAt c).waking k = sget false x.waking k) ∧
        ∀ k, k ≠ c → t.coreAt k = s.coreAt k)) ∧
    (∀ d b, b < 16 →
      let k := 16 * d + b
      (s.dieInUse [d] = true → exec (.bankGate (.ws d b) true) s = .next s) ∧
      (s.dieInUse [d] = false → ∃ t, exec (.bankGate (.ws d b) true) s = .next t ∧
        t = { s with wsGated := t.wsGated, wsWaking := t.wsWaking } ∧ sget false t.wsGated k = true ∧
        ∀ j, j ≠ k → sget false t.wsGated j = sget false s.wsGated j) ∧
      (sget false s.wsGated k = true → ∃ t, exec (.bankGate (.ws d b) false) s = .next t ∧
        t = { s with wsGated := t.wsGated, wsWaking := t.wsWaking, ws := t.ws } ∧ sget false t.wsGated k = false ∧
        sget false t.wsWaking k = true ∧
        ∀ die x, (die = d → within (b * 0x1000000) 0x1000000 x → Mem.byte (sget [] t.ws die) x = 0) ∧
          (¬ (die = d ∧ within (b * 0x1000000) 0x1000000 x) → Mem.byte (sget [] t.ws die) x = Mem.byte (sget [] s.ws die) x)) ∧
      (∃ t, exec (.bankWakeEnd (.ws d b)) s = .next t ∧ t = { s with wsWaking := t.wsWaking } ∧
        sget false t.wsWaking k = false ∧ ∀ j, j ≠ k → sget false t.wsWaking j = sget false s.wsWaking j)) ∧
    (∀ d, exec (.wsRefreshWindow d) s = .next s) ∧
    (∀ i, swf Core.init s.cores = true → swf [] s.ftlb = true →
      ∃ t, exec (.invalidation i) s = .next t ∧ t = { s with cores := t.cores, ftlb := t.ftlb } ∧
        (∀ d x, x ∈ sget [] t.ftlb d ↔ x ∈ sget [] s.ftlb d ∧ invNames i x = false) ∧
        ∀ c x, x ∈ (t.coreAt c).tlb ↔ x ∈ (s.coreAt c).tlb ∧ invNames i x = false) ∧
    ((∀ l ∈ s.sup.latching, s.cycle.toNat < l.2) → exec .snapshotLatch s = .next s) ∧
    (∀ id at_, s.sup.latching = [(id, at_)] → at_ ≤ s.cycle.toNat → s.sup.dropped = [] →
      (s.sup.snapBusy = [] → s.sup.ring.length + s.blocks.length ≤ 4096 →
        ∃ t rs, exec .snapshotLatch s = .next t ∧ t = { s with sup := t.sup, draw := t.draw } ∧ t.sup.latching = [] ∧
          t.sup.ring = s.sup.ring ++ rs ∧ rs.length = s.blocks.length ∧
          ∀ (n : Nat) b (r : List Word), s.blocks[n]? = some b → rs[n]? = some r → snapRecord id s.cycle b r) ∧
      ((∀ b ∈ s.blocks, s.cycle.toNat < sget 0 s.sup.snapBusy (4096 * b.1 + b.2.1)) →
        ∃ t, exec .snapshotLatch s = .next t ∧ t.sup.ring = s.sup.ring ∧ ∀ b ∈ s.blocks, (b.1, b.2.1) ∈ t.sup.dropped))

namespace Sys2Proof.Claims

/-- An event record of four words stands at the producer end of a function's ring 2, its tail and phase have moved, and vector 2 is raised (R395). -/
def EventWritten (s t : State) (fn : Nat) (ws : List Word) : Prop :=
  let r := (s.fnAt fn).ring 2
  let a := r.base.toNat / 4096 * 4096 + 32 * r.tail.toNat
  let next := (r.tail.toNat + 1) % r.size
  t.hostMem.bytes a 32 = ws.flatMap (fun w => leBytes 8 w.toNat) ∧ (∀ x, ¬ within a 32 x → t.hostMem.byte x = s.hostMem.byte x) ∧
  (t.fnAt fn).ring 2 = { r with tail := BitVec.ofNat 12 next, phase := if next = 0 then !r.phase else r.phase } ∧
  t.sent = s.sent ++ [.vector (s.fnAt fn).home fn 2] ∧ t.mem = s.mem

end Sys2Proof.Claims

/-- ADMIT_STEP_TASK, SPAWN_ADMIT and SIGNAL_RELAY: the next launch is admitted to its index when its clusters are free and its power fits, its entry says what it was launched with and nothing runs yet; else a task of lower priority is pre-empted or nothing changes. A spawned task in its turn starts at its template's entry on every logical core, when its clusters are free, or pre-empts. The oldest completion report, else the first signal whose ring has room, goes to its function's event ring (R210, R213, R215, R225, R284, R285, R395, R401). That a spawned task's planned peak is 0 is the model's choice (log 96). -/
def Obligations.TasksAdmitted : Prop :=
  ∀ s : State,
    (∀ task bs, s.nextLaunch = none → exec (.admitStepTask task bs) s = .next s) ∧
    (∀ l v task bs, s.nextLaunch = some l → s.vrAt l.vr = some v →
      let fits := s.bindsFree v.fn bs && s.powerOk (peakOf l.phases)
      let e := mkEntry v.m l.prio v.fn l.step l.vr l.cpa l.wdog
      ((l.idx ≠ task ∨ s.indexFree task = false) → exec (.admitStepTask task bs) s = .next s) ∧
      (l.idx = task → s.indexFree task = true → fits = false → s.victim l.prio = none → exec (.admitStepTask task bs) s = .next s) ∧
      (∀ k, l.idx = task → s.indexFree task = true → fits = false → s.victim l.prio = some k →
        ∃ d, d ≠ 0 ∧ exec (.admitStepTask task bs) s =
          .next { s with draw := s.draw + 1, agenda := s.agenda ++ [.event (.preemptRequest k d)] }) ∧
      (l.idx = task → s.indexFree task = true → fits = true → s.warm l.vr = none → exec (.admitStepTask task bs) s = .next s) ∧
      (∀ s1, l.idx = task → s.indexFree task = true → fits = true → s.warm l.vr = some s1 → s1.entryCode task e = none →
        (∀ w ∈ s.sup.waitArm, launchId w.1 = l.id → armIdx w.1 = task → False) → v.m < 128 → l.prio < 4 → v.fn < 32 → l.vr < 2 ^ 20 →
        ∃ t, exec (.admitStepTask task bs) s = .next t ∧ t = { s1 with tasks := t.tasks, sup := t.sup } ∧
          (t.taskAt task).phase = .idle ∧ (t.taskAt task).valid = true ∧ (t.taskAt task).m = v.m ∧ (t.taskAt task).prio = l.prio ∧
          (t.taskAt task).fn = v.fn ∧ (t.taskAt task).step = l.step ∧ (t.taskAt task).vr = l.vr ∧ (t.taskAt task).cpa = l.cpa ∧
          (t.taskAt task).wdog = l.wdog.toNat ∧ (∀ k, k ≠ task → t.taskAt k = s1.taskAt k) ∧
          ∀ x ∈ t.sup.launches, x.id = l.id → x.idx = task → x.task = some task ∧ x.binds = bs)) ∧
    (s.vrs.all (fun e => e.2.all fun v => !v.cold) = true → ∀ vr, (s.vrAt vr).isSome = true → s.warm vr = some s) ∧
    (∀ vr task bs, s.nextSpawned = none → exec (.spawnAdmit vr task bs) s = .next s) ∧
    (∀ x v tm task bs, s.nextSpawned = some x → s.vrAt x.vr = some v → (templates v.image)[x.req.t]? = some tm →
      let fits := s.bindsFree v.fn bs && s.powerOk (0, 1)
      let s1 : State := { s with sup := { s.sup with spawned := s.sup.spawned.erase x } }
      (s.indexFree task = false → exec (.spawnAdmit x.vr task bs) s = .next s) ∧
      (s.indexFree task = true → fits = false → s.victim tm.slot = none → exec (.spawnAdmit x.vr task bs) s = .next s) ∧
      (∀ k, s.indexFree task = true → fits = false → s.victim tm.slot = some k →
        ∃ d, d ≠ 0 ∧ exec (.spawnAdmit x.vr task bs) s =
          .next { s with draw := s.draw + 1, agenda := s.agenda ++ [.event (.preemptRequest k d)] }) ∧
      (∀ s2 s3 s4, s.indexFree task = true → fits = true → s1.warm x.vr = some s2 →
        s2.slotWrite (288 + task) (mkEntry v.m tm.slot v.fn (x.req.step + 1) x.vr 0 (BitVec.ofNat 32 tm.wdog)) = (s3, none) →
        (s3.onTask task fun t => { t with sparg := x.req.arg, spawn := some ⟨x.req.t, x.req.arg, x.req.lcore⟩, launch := 0 }).bindAll bs
          = (s4, true) →
        s4.allBound task = true → 4 * v.m ≤ 288 → x.vr < 2 ^ 20 →
        ∃ t, exec (.spawnAdmit x.vr task bs) s = .next t ∧ t.binds = s4.binds ∧ t.mem = s2.mem ∧ (t.taskAt task).phase = .running ∧
          (t.taskAt task).sparg = x.req.arg ∧ (t.taskAt task).spawn = some ⟨x.req.t, x.req.arg, x.req.lcore⟩ ∧
          (t.taskAt task).step = x.req.step + 1 ∧ (t.taskAt task).vr = x.vr ∧
          ∀ n, n < 4 * v.m → (t.strandAt (lckey task n * 4)).status = .ready ∧
            (t.strandAt (lckey task n * 4)).pc = codeBase + BitVec.ofNat 53 tm.entry)) ∧
    (∀ fn f r rest, swf Fn.init s.fns = true →
      s.fns.find? (fun e => !e.2.events.isEmpty && (e.2.ring 2).room) = some (fn, f) → f.events = r :: rest → r.length = 4 →
      ∃ t, exec .signalRelay s = .next t ∧ EventWritten s t fn r ∧ (t.fnAt fn).events = rest) ∧
    (s.fns.find? (fun e => !e.2.events.isEmpty && (e.2.ring 2).room) = none →
      (s.sup.signals.find? (fun g => ((s.fnAt g.2).ring 2).room) = none → exec .signalRelay s = .next s) ∧
      ∀ g, s.sup.signals.find? (fun g => ((s.fnAt g.2).ring 2).room) = some g → g.1.length = 4 →
        ∃ t, exec .signalRelay s = .next t ∧ EventWritten s t g.2 g.1 ∧ t.sup.signals = s.sup.signals.erase g)

namespace Sys2Proof.Claims

/-- A reply to a request of this chip's own endpoint is on its way, with a status, an address and data. -/
def Replies (s t : State) (p : Packet) (status : BitVec 7) (va : BitVec 56) (data : List Byte) : Prop :=
  p.srcEp = s.endpoint → ∃ r : Packet, t.agenda = s.agenda ++ [.event (if opData p.op then .replyWithData r else .acknowledgement r)] ∧
    r.sub = status ∧ r.va = va ∧ r.data = (if opData p.op then data else []) ∧ r.dstvr = p.srcvr ∧ r.srcvr = p.dstvr ∧ r.pseq = p.pseq

/-- The request is recorded as resolved with a status and data, and answered (R189, R197). -/
def Resolved (s t : State) (p : Packet) (status : BitVec 7) (data : List Byte) : Prop :=
  (∃ v, t.vrAt p.dstvr.toNat = some v ∧ sget none (sget SrcWin.init v.srcs p.srcvr.toNat).recs p.pseq.toNat = some ⟨true, status, data⟩) ∧
  ∃ r : Packet, r.sub = status ∧ (p.srcEp = s.endpoint →
    t.agenda = s.agenda ++ [.event (if opData p.op then .replyWithData r else .acknowledgement r)] ∧
    r.data = (if opData p.op then data else []) ∧ r.dstvr = p.srcvr ∧ r.srcvr = p.dstvr ∧ r.pseq = p.pseq)

/-- A request that is formed, new, next in its class order, from a source that is not quarantined, to a VR that is here, with a token that verifies, while nothing is held (steps 1 to 5 of R189). -/
def InOrder (s : State) (p : Packet) (v : Vr) : Prop :=
  reqFormed p = true ∧ s.vrAt p.dstvr.toNat = some v ∧ (s.srcAt p.dstvr.toNat p.srcvr.toNat).quar = false ∧
  tokenGood v.key p = true ∧ seqAbove (s.srcAt p.dstvr.toNat p.srcvr.toNat).high p.pseq = true ∧
  (s.srcAt p.dstvr.toNat p.srcvr.toNat).place p.cls.toNat p.cseq = 0 ∧ s.hold = []

/-- The VR is here, neither leaving nor arriving. -/
def Here (v : Vr) : Prop := v.moving = .no

/-- The destination has taken the request's sequence. -/
def accepted (s : State) (p : Packet) : State := s.onSrc p.dstvr.toNat p.srcvr.toNat fun w => w.accept p.pseq

/-- Bytes of memory at `pa` are `bs`, every other byte is as in `s`. -/
def Wrote (s t : State) (pa : Nat) (bs : List Byte) : Prop :=
  t.mem.bytes pa bs.length = bs ∧ (∀ x, ¬ within pa bs.length x → t.mem.byte x = s.mem.byte x) ∧
  ∀ lc x, (t.lcoreAt lc).sp.byte x = (s.lcoreAt lc).sp.byte x

end Sys2Proof.Claims

/-- LOAD_REQUEST, STORE_REQUEST, STORE_WITH_HANDLER, ATOMIC_REQUEST, CAS_REQUEST, PROBE_REQUEST, FEATURE_QUERY, MULTICAST_STORE and REDUCING_STORE at their destination: a request that meets the checks of R189 on one page reads or writes exactly its bytes, a handler starts or queues behind its payload, and the answer carries the result; one that does not is refused with the status of the first check it fails, changes no memory, and a duplicate is answered as before without being performed again (R101, R189, R193, R194, R196, R197, R200 to R202, R357, R363 to R367, R371). That a failed request for data is answered by a reply without data, with its status, is the model's choice (log 21). -/
def Obligations.RequestsAtDestination : Prop :=
  ∀ (s : State) (p : Packet) (i : Instr) (v : Vr), arrivalStep p = some i → p.op ≤ 9 →
    let n := reqLen p
    let va := p.va.toNat
    let w := s.srcAt p.dstvr.toNat p.srcvr.toNat
    (reqFormed p = false → ∃ t, exec i s = .next t ∧ t.portDrops = s.portDrops + 1 ∧ t.mem = s.mem ∧ t.vrs = s.vrs) ∧
    (reqFormed p = true → s.vrAt p.dstvr.toNat = none → ∃ t, exec i s = .next t ∧ t.mem = s.mem ∧
      (s.locOf p.dstvr.toNat = none → Replies s t p 1 0 []) ∧
      ∀ ep, s.locOf p.dstvr.toNat = some ep → ep ≠ s.endpoint.toNat → Replies s t p 5 (BitVec.ofNat 56 ep) []) ∧
    (reqFormed p = true → s.vrAt p.dstvr.toNat = some v → s.hold = [] →
      (w.quar = true → ∃ t, exec i s = .next t ∧ t.mem = s.mem ∧ Replies s t p 2 0 []) ∧
      (w.quar = false → Here v → tokenGood v.key p = false → ∃ t u, exec i s = .next t ∧ t.mem = s.mem ∧ Replies s t p 2 0 [] ∧
        t.vrAt p.dstvr.toNat = some u ∧ (sget SrcWin.init u.srcs p.srcvr.toNat).fails = w.fails + 1 ∧
        (15 ≤ w.fails → (sget SrcWin.init u.srcs p.srcvr.toNat).quar = true)) ∧
      (∀ ep, w.quar = false → v.moving = .leaving ep → ∃ t, exec i s = .next t ∧ t.mem = s.mem ∧ Replies s t p 4 0 []) ∧
      (∀ d, w.quar = false → Here v → tokenGood v.key p = true → p.op ≠ 7 → p.op ≠ 1 → p.op ≠ 6 → seqAbove w.high p.pseq = false →
        seqIn w.high p.pseq = true → sget none w.recs p.pseq.toNat = some d → d.done = true →
        ∃ t, exec i s = .next t ∧ t.mem = s.mem ∧ t.vrs = s.vrs ∧ Replies s t p d.status 0 d.data) ∧
      (w.quar = false → Here v → tokenGood v.key p = true → p.op ≠ 7 → seqAbove w.high p.pseq = true → w.place p.cls.toNat p.cseq = 1 →
        ∃ t, exec i s = .next t ∧ t.mem = s.mem ∧ t.hold = [⟨p, s.cycle.toNat, false⟩])) ∧
    (InOrder s p v → Here v →
      (p.op = 7 → ∃ t, exec i s = .next t ∧ t.mem = s.mem ∧ Replies s t p 0 0 (leBytes 8 0x01000F70000000FF)) ∧
      (p.op ≠ 7 → winAllows v p n = false → ∃ t, exec i s = .next t ∧ t.mem = s.mem ∧ Resolved s t p 2 []) ∧
      (p.op ≠ 7 → winAllows v p n = true → reqSupported p = false → ∃ t, exec i s = .next t ∧ t.mem = s.mem ∧ Resolved s t p 3 []) ∧
      (p.op ≠ 7 → winAllows v p n = true → reqSupported p = true →
        (p.op = 6 → ∃ t, exec i s = .next t ∧ t.mem = s.mem ∧ Resolved s t p 0 (leBytes 8 (s.probeBits v va))) ∧
        (∀ s1 x, p.op ≠ 3 → p.op ≠ 6 → isCollective p = false → s.budgetHeld p.dstvr.toNat 0 = false → va % 65536 + n ≤ 65536 →
          (accepted s p).xlate (pktAcc p) va = (s1, .refused x) →
          ∃ t, exec i s = .next t ∧ t.mem = s.mem ∧ Resolved s t p 1 []) ∧
        (∀ s1 pa, isCollective p = false → s.budgetHeld p.dstvr.toNat 0 = false → va % 65536 + n ≤ 65536 →
          (accepted s p).xlate (pktAcc p) va = (s1, .ok pa) →
          let old := s1.mem.read pa n
          let x := atomNew p.sub.toNat (isSigned p.fmt) p.fmt (8 * n) old (ofLeBytes p.data % 2 ^ (8 * n))
          (p.op = 1 → ∃ t, exec i s = .next t ∧ t.mem = s1.mem ∧ Resolved s t p 0 (s1.mem.bytes pa n)) ∧
          ((p.op = 2 ∨ p.op = 8) → ∃ t, exec i s = .next t ∧ Wrote s1 t pa p.data ∧ Resolved s t p 0 []) ∧
          (∀ e, p.op = 3 → s.handlerPlace p v = .error e → e ≠ 4 → ∃ t, exec i s = .next t ∧ t.mem = s.mem ∧ Resolved s t p e []) ∧
          (∀ lc, p.op = 3 → s.handlerPlace p v = .ok lc →
            ∃ t, exec i s = .next t ∧ Wrote s1 t pa (p.data.drop 8) ∧ Resolved s t p 0 [] ∧
              (∀ k, (s.lcoreAt lc).arrivals = [] → s.freeSlot lc = some k →
                (t.strandAt (lc * 4 + k)).status = .ready ∧
                (t.strandAt (lc * 4 + k)).pc = BitVec.ofNat 53 (ofLeBytes (p.data.take 8) % 2 ^ 48) ∧
                (t.strandAt (lc * 4 + k)).reg 1 = p.va.setWidth 64 ∧
                (t.strandAt (lc * 4 + k)).reg 2 = BitVec.ofNat 64 (p.data.length - 8) ∧
                (t.strandAt (lc * 4 + k)).reg 3 = p.srcvr.setWidth 64 ∧
                (t.strandAt (lc * 4 + k)).reg 4 = BitVec.ofNat 64 (p.token.toNat % 2 ^ 16)) ∧
              (((s.lcoreAt lc).arrivals ≠ [] ∨ s.freeSlot lc = none) → ∃ a : Arrival, (t.lcoreAt lc).arrivals = (s.lcoreAt lc).arrivals ++ [a] ∧
                a.va = p.va.setWidth 64 ∧ a.len = p.data.length - 8 ∧ a.src = p.srcvr.toNat)) ∧
          (p.op = 4 → ∃ t, exec i s = .next t ∧ Wrote s1 t pa (leBytes n x) ∧ Resolved s t p 0 (leBytes 8 old ++ leBytes 8 0)) ∧
          (p.op = 5 → ∃ t, exec i s = .next t ∧ Resolved s t p 0 (leBytes 8 old ++ leBytes 8 0) ∧
            Wrote s1 t pa (if old = ofLeBytes (p.data.take 8) % 2 ^ (8 * n) then leBytes n (ofLeBytes (p.data.drop 8) % 2 ^ (8 * n))
              else s1.mem.bytes pa n)) ∧
          (p.op = 9 → n = fmtBits p.fmt / 8 → ∃ t, exec i s = .next t ∧ Wrote s1 t pa (leBytes n x) ∧ Resolved s t p 0 []))))

namespace Sys2Proof.Claims

/-- The answer is for the packet `u` that its requester awaits. -/
def Awaits (s : State) (p : Packet) (u : Unacked) : Prop := s.answered p = some u

/-- No packet with the pair and sequence of `u` is awaited. -/
def Forgotten (t : State) (u : Unacked) : Prop :=
  ∀ x ∈ t.unacked, ¬ (x.p.srcvr = u.p.srcvr ∧ x.p.dstvr = u.p.dstvr ∧ x.p.pseq = u.p.pseq)

/-- What a reply's data put into the destination register of a parked word (R241, R361 to R367). -/
def replyForm (p : Packet) : Instr → Option (Reg × Word)
  | .rld false d _ _ _ m => some (d, extOf m.width (ofLeBytes (p.data.take (widthBytes m.width))))
  | .ratom _ d _ _ _ _ m | .rcas d _ _ _ _ m => some (d, extOf m.width (ofLeBytes (p.data.take (widthBytes m.width))))
  | .rprobe d _ _ _ | .rfeat d _ _ => some (d, BitVec.ofNat 64 (ofLeBytes (p.data.take 8)))
  | _ => none

end Sys2Proof.Claims

/-- REPLY_WITH_DATA, ACKNOWLEDGEMENT, RETRANSMIT_TIMEOUT, BUSY_RETRANSMIT and HOLD_STORE_ABANDON: data reach the parked strand's register or the scratchpad; a failure traps the parked strand; data that find the reply buffer full wait; a busy packet waits, a moved one goes to the new endpoint, a held-out one takes its next path; a timer sends again at its time and not before, on the next path and counted up to eight, or for a busy packet on the same path; a packet held 2^20 cycles is performed without its predecessors (R189, R195, R196, R198, R199, R241, R357, R359). That data which find the buffer full wait, which path comes next, and that all that is missing before the packet is abandoned, is the model's choice (logs 107, 26, 112). -/
def Obligations.AnswersAndTimers : Prop :=
  ∀ (s : State) (p : Packet) (i : Instr), (i = .replyWithData p ∨ i = .acknowledgement p) →
    (s.answered p = none → exec i s = .next s) ∧
    (∀ u, Awaits s p u →
      let mine (o : ROp) : Prop := s.rops.find? (fun o => decide (o.uid = u.uid)) = some o
      let left := leftPaths (s.pathsOf u.p) u.rest u.tried
      (p.sub = 0 → u.uid = 0 → ∃ t, exec i s = .next t ∧ t = { s with unacked := t.unacked } ∧ Forgotten t u) ∧
      (∀ o d v, p.sub = 0 → u.uid ≠ 0 → mine o → o.cancel = false → o.parked = true → s.alive o.ref o.sid = true →
        (s.strandAt o.ref.key).status = .parked → replyForm p o.instr = some (d, v) →
        ∃ t, exec i s = .next t ∧ Forgotten t u ∧ (∀ x ∈ t.rops, x.uid ≠ u.uid) ∧ (t.strandAt o.ref.key).park = none ∧
          (t.strandAt o.ref.key).reg d = (if d = 0 then 0 else v) ∧ (t.strandAt o.ref.key).pois d = none ∧
          RegsBut [d] (s.strandAt o.ref.key) (t.strandAt o.ref.key) ∧ (t.strandAt o.ref.key).status = .ready ∧
          (t.strandAt o.ref.key).pc = ((s.strandAt o.ref.key).retire 1).pc ∧ BytesSame s t ∧
          ∀ k, k ≠ o.ref.key → t.strandAt k = s.strandAt k) ∧
      (p.sub = 0 → u.uid ≠ 0 → s.replyWaits u p = true → ∃ t, exec i s = .next t ∧
        t = { s with unacked := t.unacked, late := s.late ++ [p] } ∧ { u with got := true } ∈ t.unacked) ∧
      (∀ o d a v tok c w, p.sub = 0 → u.uid ≠ 0 → mine o → o.cancel = false → o.parked = false → o.instr = .rcopy false d a v tok c w →
        s.presentOn o.ref.task o.ref.lcore = true → o.ref.lcore < 288 →
        ∃ t, exec i s = .next t ∧ Forgotten t u ∧ (∀ x, t.mem.byte x = s.mem.byte x) ∧
          (t.lcoreAt (lckey o.ref.task o.ref.lcore)).sp.bytes u.spad p.data.length = p.data ∧
          ∀ lc x, ¬ (lc = lckey o.ref.task o.ref.lcore ∧ within u.spad p.data.length x) →
            (t.lcoreAt lc).sp.byte x = (s.lcoreAt lc).sp.byte x) ∧
      (∀ o c, statusCause p.sub = some c → p.sub ≠ 0 → u.uid ≠ 0 → mine o → o.left = 1 → o.held = none → o.cancel = false → o.parked = true →
        o.fail = none → s.alive o.ref o.sid = true → (∀ a b e m, o.instr ≠ .rmcast a b e m) →
        (s.strandAt o.ref.key).trapvec ≠ 0 → (s.strandAt o.ref.key).h = false → s.expired (o.ref.key / 1152) = false →
        (s.strandAt o.ref.key).status = .parked →
        ∃ t, exec i s = .next t ∧ Forgotten t u ∧ (∀ x ∈ t.rops, x.uid ≠ u.uid) ∧ BytesSame s t ∧
          t.strandAt o.ref.key = (s.strandAt o.ref.key).enter { cause := c, va := o.va } 7 o.pc) ∧
      (p.sub = 4 → ∃ t, exec i s = .next t ∧ t = { s with unacked := t.unacked } ∧
        { u with busy := true, extra := false, at_ := s.cycle.toNat } ∈ t.unacked) ∧
      (p.sub = 5 → ∃ t, exec i s = .next t ∧ t.location = sset none s.location u.p.dstvr.toNat (some (p.va.toNat % 4096)) ∧
        (p.va.toNat % 4096 = s.endpoint.toNat → (arrivalStep u.p).isSome → BytesSame s t ∧
          ∃ x ∈ t.unacked, x.p = { u.p with dstEp := s.endpoint } ∧ x.sends = u.sends ∧ x.busy = false)) ∧
      (∀ s1 q, p.sub = 7 → u.sends < 8 → u.p.dstEp ≠ s.endpoint → s.sendFirst u.inst u.p left = some (s1, q) →
        ∃ t, exec i s = .next t ∧ { u with
          sends := u.sends + 1, tried := u.tried ++ left.take 1, rest := left.tail, port := q, at_ := s.cycle.toNat, busy := false
          extra := false } ∈ t.unacked)) ∧
    (∀ src dst seq,
      (s.awaited src dst seq = none → exec (.retransmitTimeout src dst seq) s = .next s ∧ exec (.busyRetransmit src dst seq) s = .next s) ∧
      ∀ u, s.awaited src dst seq = some u →
        let e := u.expired
        let left := leftPaths (s.pathsOf u.p) u.rest u.tried
        let same := (u.tried.getLast?.bind fun a => (s.pathsOf u.p).find? (FabPath.same a)).toList
        ((u.busy = true ∨ u.got = true ∨ s.cycle.toNat < u.at_ + 65536) → exec (.retransmitTimeout src dst seq) s = .next s) ∧
        ((u.busy = false ∨ s.cycle.toNat < u.at_ + 4096) → exec (.busyRetransmit src dst seq) s = .next s) ∧
        (u.busy = false → u.got = false → u.at_ + 65536 ≤ s.cycle.toNat →
          (∀ s1 q, e.sends < 8 → u.p.dstEp ≠ s.endpoint → s.sendFirst u.inst u.p left = some (s1, q) →
            ∃ t, exec (.retransmitTimeout src dst seq) s = .next t ∧ BytesSame s t ∧ { u with
              sends := e.sends + 1, tried := u.tried ++ left.take 1, rest := left.tail, port := q, at_ := s.cycle.toNat, busy := false
              extra := false } ∈ t.unacked) ∧
          (8 ≤ e.sends → ∃ t, exec (.retransmitTimeout src dst seq) s = .next t ∧ Forgotten t u)) ∧
        (∀ s1 q, u.busy = true → u.at_ + 4096 ≤ s.cycle.toNat → s.sendFirst u.inst u.p same = some (s1, q) →
          ∃ t, exec (.busyRetransmit src dst seq) s = .next t ∧ BytesSame s t ∧
            { u with port := q, at_ := s.cycle.toNat, busy := false, extra := true } ∈ t.unacked)) ∧
    (∀ h v s1 pa,
      let q := h.p
      let cut := s.onSrc q.dstvr.toNat q.srcvr.toNat fun w =>
        w.abandoned q.cls.toNat (s.missingBefore (s.srcAt q.dstvr.toNat q.srcvr.toNat) q)
      s.hold = [h] → h.past = false →
      let place := (s.srcAt q.dstvr.toNat q.srcvr.toNat).place q.cls.toNat q.cseq
      (s.cycle.toNat < h.at_ + 2 ^ 20 → exec (.holdStoreAbandon q.srcvr.toNat q.dstvr.toNat q.pseq) s = .next s) ∧
      (q.dstvr.toNat ≠ s.supId → place ≠ 1 → exec (.holdStoreAbandon q.srcvr.toNat q.dstvr.toNat q.pseq) s = .next s) ∧
      (h.at_ + 2 ^ 20 ≤ s.cycle.toNat → q.dstvr.toNat ≠ s.supId → place = 1 → s.vrAt q.dstvr.toNat = some v → (q.op = 2 ∨ q.op = 8) → q.data ≠ [] →
        winAllows v q q.data.length = true → isCollective q = false → s.budgetHeld q.dstvr.toNat 0 = false →
        q.va.toNat % 65536 + q.data.length ≤ 65536 → ({ cut with hold := [] } : State).xlate (pktAcc q) q.va.toNat = (s1, .ok pa) →
        ∃ t, exec (.holdStoreAbandon q.srcvr.toNat q.dstvr.toNat q.pseq) s = .next t ∧ t.hold = [] ∧ Wrote s1 t pa q.data))

namespace Sys2Proof.Claims

/-- A packet between supervisors that is formed, new and next in its order, while nothing is held (R196, R204). -/
def SupNext (s : State) (p : Packet) : Prop :=
  s.supFormed p = true ∧ sget none (s.supWin p.srcvr.toNat).recs p.pseq.toNat = none ∧
  seqAbove (s.supWin p.srcvr.toNat).high p.pseq = true ∧ (s.supWin p.srcvr.toNat).place p.cls.toNat p.cseq = 0 ∧ s.hold = []

/-- A packet of an operation for a launch is on its way to this chip's own supervisor. -/
def SentHome (t : State) (f : Packet → Instr) (id : BitVec 32) (st : BitVec 7) : Prop :=
  ∃ q : Packet, Turn.event (f q) ∈ t.agenda ∧ launchId q = id ∧ q.sub = st

end Sys2Proof.Claims

/-- ARM, ARM_REPLY, GO, LAUNCH_ABORT, LOST, SNAPSHOT_TRIGGER, ARM_TIMEOUT, ARM_EXPIRY and PEER_FAILURE: an arm binds its launch's gang and leaves its strands dormant, go starts it, an abort or 2^26 cycles without go undo it; replies decide varm's result, its timeout makes it 1; lost reaches every logical core of the launch and goes to every member once, and its step task stops with PEER_LOST; a packet that repeats a performed one is only acknowledged; a trigger latches 16 cycles later. A packet that is not formed is discarded and counted (R203 to R205, R212, R231, R290, R383, R389, R401). That the arm of a launch which has ended is answered 0x02, and that the stop for a lost peer has class 8, is the model's choice (logs 72, 66). -/
def Obligations.LaunchProtocol : Prop :=
  ∀ s : State,
    (∀ p i, arrivalStep p = some i → 0x20 ≤ p.op → p.op ≠ 0x28 → p.op ≠ 0x29 → p.op ≠ 0x2A →
      s.supFormed p = false → exec i s = .next { s with portDrops := s.portDrops + 1 }) ∧
    (∀ p, SupNext s p →
      let id := launchId p
      (∀ l k s1, s.launchAt id (armIdx p) = some l → l.task = some k → (∀ e ∈ s.tasks, e.2.phase = .armed → e.2.launch = l.id) →
        (s.taskAt k).phase = .idle → (s.taskAt k).valid = true → (∃ v, s.vrAt l.vr = some v ∧ v.moving = .no) →
        s.bindAll l.binds = (s1, true) → s1.allBound k = true →
        p.op = 0x20 → ∃ t, exec (.arm p) s = .next t ∧ (t.taskAt k).phase = .armed ∧ (t.taskAt k).launch = l.id ∧
          (t.taskAt k).armedAt = s.cycle.toNat ∧ t.binds = s1.binds ∧ t.strands = s.strands ∧ BytesSame s t ∧
          (p.srcvr.toNat = s.supId → SentHome t .armReply id 0)) ∧
      (s.launchAt id (armIdx p) = none → (id, armIdx p) ∉ s.sup.ended → p.op = 0x20 →
        ∃ t, exec (.arm p) s = .next t ∧ t.sup.waitArm = s.sup.waitArm ++ [(p, s.cycle.toNat)] ∧ t.tasks = s.tasks) ∧
      (s.launchAt id (armIdx p) = none → (id, armIdx p) ∈ s.sup.ended → p.op = 0x20 →
        ∃ t, exec (.arm p) s = .next t ∧ t.tasks = s.tasks ∧ (p.srcvr.toNat = s.supId → SentHome t .armReply id 2)) ∧
      (∀ a m, s.sup.arming = [a] → a.launch = id → a.result = none → a.members = [m] → m.1 = supEp p → a.replies = [] → p.op = 0x21 →
        ∃ t, exec (.armReply p) s = .next t ∧ BytesSame s t ∧
          ∀ x ∈ t.sup.arming, x.launch = id → x.result = some (if p.sub = 0 then 0 else 2)) ∧
      (∀ k v, s.taskFor id (fun x => decide (x = .armed)) = some k → s.vrAt (s.taskAt k).vr = some v → p.op = 0x22 →
        ∃ t, exec (.go p) s = .next t ∧ (t.taskAt k).phase = .running ∧ (∀ x, t.mem.byte x = s.mem.byte x) ∧ t.binds = s.binds ∧
          ∀ e n, v.image.entries = [e] → e.template = false → e.lcore = some n → n < 4 * v.m →
            (t.strandAt (lckey k n * 4 + e.slot)).status = .ready ∧
            (t.strandAt (lckey k n * 4 + e.slot)).pc = codeBase + BitVec.ofNat 53 e.entry) ∧
      (s.taskFor id (fun x => decide (x = .armed)) = none → p.op = 0x22 →
        ∃ t, exec (.go p) s = .next t ∧ t.tasks = s.tasks ∧ (p.srcvr.toNat = s.supId → SentHome t .lost id 0)) ∧
      (∀ l k, (s.sup.launches.filter fun l => decide (l.id = id)) = [l] → l.task = some k → l.idx = k → (s.taskAt k).phase = .armed →
        (s.taskAt k).launch = id → p.op = 0x23 →
        ∃ t, exec (.launchAbort p) s = .next t ∧ t.taskAt k = Task.init ∧ (∀ e ∈ t.binds, bindTask e.2 ≠ k) ∧
          (∀ x ∈ t.sup.launches, x.id ≠ id) ∧ (∀ w ∈ t.sup.waitArm, launchId w.1 ≠ id) ∧ t.strands = s.strands ∧ BytesSame s t) ∧
      (∀ k, ((s.taskAt k).phase = .running ∨ (s.taskAt k).phase = .preempted) → (s.taskAt k).launch = id → (s.taskAt k).spawn = none →
        p.op = 0x24 →
        ∃ t, exec (.lost p) s = .next t ∧ (t.taskAt k).lost = true ∧ (∀ lc ∈ s.lcsOf k, (t.lcoreAt lc).lost = true) ∧ BytesSame s t) ∧
      (p.op = 0x30 → ∃ t, exec (.snapshotTrigger p) s = .next t ∧
        t.sup.latching = s.sup.latching ++ [(p.va.setWidth 16, s.cycle.toNat + 16)] ∧ t.tasks = s.tasks ∧ BytesSame s t)) ∧
    (∀ id a, s.sup.arming.find? (fun a => decide (a.launch = id)) = some a →
      ((a.result ≠ none ∨ s.cycle.toNat < a.until_) → exec (.armTimeout id) s = .next s) ∧
      (a.result = none → a.until_ ≤ s.cycle.toNat → ∃ t, exec (.armTimeout id) s = .next t ∧ BytesSame s t ∧
        ∀ x ∈ t.sup.arming, x.launch = id → x.result = some 1)) ∧
    (∀ id k, (s.taskAt k).phase = .armed → (s.taskAt k).launch = id → (s.taskAt k).armedAt + 2 ^ 26 ≤ s.cycle.toNat →
      ∃ t, exec (.armExpiry id) s = .next t ∧ t.taskAt k = Task.init ∧ (∀ e ∈ t.binds, bindTask e.2 ≠ k) ∧ t.strands = s.strands) ∧
    (∀ p d i, s.supFormed p = true → seqAbove (s.supWin p.srcvr.toNat).high p.pseq = false → seqIn (s.supWin p.srcvr.toNat).high p.pseq = true →
      sget none (s.supWin p.srcvr.toNat).recs p.pseq.toNat = some d → d.done = true → arrivalStep p = some i → 0x20 ≤ p.op → p.op ≠ 0x28 →
      p.op ≠ 0x29 → p.op ≠ 0x2A → exec i s = .next (s.answer p d.status 0 0 0 none)) ∧
    (∀ id, id ∈ s.sup.lostSent → (∀ e ∈ s.tasks, e.2.lost = true → e.2.launch ≠ id) → exec (.peerFailure id) s = .next s) ∧
    (∀ id k, (s.taskAt k).phase = .running → (s.taskAt k).lost = true → (s.taskAt k).launch = id →
      ∃ t, exec (.peerFailure id) s = .next t ∧ (t.taskAt k).phase = .stopping ∧ (t.taskAt k).status = 0x12 ∧ (t.taskAt k).cls = 8 ∧
        BytesSame s t) ∧
    (∀ id a, id ∉ s.sup.lostSent → s.sup.arming.find? (fun a => decide (a.launch = id) && a.gone) = some a →
      ∃ t, exec (.peerFailure id) s = .next t ∧ id ∈ t.sup.lostSent ∧ BytesSame s t ∧
        ∀ m ∈ s.membersOf id, m.1 = s.endpoint.toNat → SentHome t .lost id 0)

/-- MIGRATION_CONTEXT, MIGRATION_DRAIN_END, PULL_REQUEST, PULL_DATA and PULL_ACKNOWLEDGEMENT: a moving VR's context stands at the destination under its new endpoint and stays busy until its sequences are there; the source keeps the VR until every arrival has resolved and every page is acknowledged; a pulled page goes out in 16 packets, lands whole in a page of the ring with its entry rewritten, a refused pull marks the move as failed, and what is charged to the VR after its context went follows it (R106, R107, R185, R206, R207, R223). That pull data alone answer a pull request, where a pulled page lands, and that a context which finds no room is not taken, is the model's choice (logs 81, 76, 98). -/
def Obligations.MovingVr : Prop :=
  ∀ s : State,
    (∀ c : MoveContext, (s.vrAt c.vr).isSome → exec (.migrationContext (.context c)) s = .next s) ∧
    (∀ c : MoveContext, s.newVrCold = none → exec (.migrationContext (.context c)) s = .next s) ∧
    (∀ (c : MoveContext) b s1 v1, s.vrAt c.vr = none → s.newVrCold = some b →
      let v0 := { newVr c.fn 0 c.image c.seed c.key (s.ipaFrom c) c.ipaEnd with cold := b, energy := c.energy }
      c.leaves.foldl (fun (r : State × XR Vr) l =>
        match r with
        | (s, .ok v) => State.mapFrom c.vr (l.1 * 65536) (pullEntry c.from_ c.vr l.2) 3 s v v.root
        | _ => r) (s.newRoot v0 c.vr) = (s1, .ok v1) →
      ∃ t u, exec (.migrationContext (.context c)) s = .next t ∧ t.mem = s1.mem ∧ t.vrAt c.vr = some u ∧ u.fn = v1.fn ∧ u.root = v1.root ∧
        u.image = v1.image ∧ u.key = v1.key ∧ u.seed = v1.seed ∧ u.k = c.consts ∧ u.windows = c.windows ∧ u.peers = c.peers ∧
        u.migtok = c.token ∧ u.moving = .landing c.from_.toNat ∧ u.remain = c.leaves.length ∧
        u.energy = v1.energy ∧ u.cold = v1.cold ∧ sget none t.location c.vr = some s.endpoint.toNat) ∧
    (∀ vr n v, s.vrAt vr = some v → ∃ t, exec (.migrationContext (.charged vr n)) s = .next t ∧ t = { s with vrs := t.vrs } ∧
      t.vrAt vr = some { v with energy := v.energy + n } ∧ ∀ k, k ≠ vr → t.vrAt k = s.vrAt k) ∧
    (∀ vr srcs pairs staged n v src, s.vrAt vr = some v → v.moving = .landing src →
      ∃ t u, exec (.migrationContext (.last vr srcs pairs staged n)) s = .next t ∧ t.vrAt vr = some u ∧ u.srcs = srcs ∧ u.staged = staged ∧
        u.moving = (if v.remain = 0 then .no else .arriving src) ∧ u.windows = v.windows ∧ ∀ x, t.mem.byte x = s.mem.byte x) ∧
    (∀ vr v ep, s.vrAt vr = some v → v.moving = .leaving ep →
      ((∃ h ∈ s.hold, h.p.dstvr.toNat = vr) → exec (.migrationDrainEnd vr) s = .next s) ∧
      ((∀ h ∈ s.hold, h.p.dstvr.toNat ≠ vr) →
        ∃ t pairs, exec (.migrationDrainEnd vr) s = .next t ∧ sget none t.location vr = some ep ∧
          t.sent = s.sent ++ [.move ep (.last vr v.srcs pairs v.staged v.energy)] ∧ t.mem = s.mem ∧
          (v.remain ≠ 0 → t.vrAt vr = some { v with moving := .sent ep, energy := 0 }) ∧ (v.remain = 0 → t.vrAt vr = none))) ∧
    (∀ vr v, s.vrAt vr = some v → v.moving = .no → exec (.migrationDrainEnd vr) s = .next s) ∧
    (∀ (p : Packet) v ep, InOrder s p v → winAllows v p (reqLen p) = true → (v.moving = .leaving ep ∨ v.moving = .sent ep) →
      (∀ f, p.op = 0x28 → s.budgetHeld p.dstvr.toNat 0 = false → s.budgetHeld p.dstvr.toNat 1 = false → s.walkVr v p.va.toNat = .ok f → pteType f.s1.e ≠ 2 → p.srcEp = s.endpoint →
        ∃ t, exec (.pullRequest p) s = .next t ∧ t.mem = s.mem ∧
          ∀ i, i < 16 → ∃ q : Packet, Turn.event (.pullData q true) ∈ t.agenda ∧ q.va = p.va + BitVec.ofNat 56 (4096 * i) ∧
            q.token = p.token ∧ q.dstvr = p.srcvr ∧ q.srcvr = p.dstvr ∧ q.data = s.mem.bytes (f.pa + 4096 * i) 4096) ∧
      (p.op = 0x2A → v.moving = .sent ep →
        (2 ≤ v.remain → ∃ t u, exec (.pullAcknowledgement p) s = .next t ∧ t.mem = s.mem ∧ t.vrAt p.dstvr.toNat = some u ∧
          u.acked = v.acked + 1 ∧ u.remain = v.remain - 1 ∧ u.moving = .sent ep) ∧
        (v.remain ≤ 1 → ∃ t, exec (.pullAcknowledgement p) s = .next t ∧ t.mem = s.mem ∧ t.vrAt p.dstvr.toNat = none))) ∧
    (∀ (p : Packet) v src, InOrder s p v → winAllows v p (reqLen p) = true → v.moving = .arriving src → p.op = 0x29 →
      (s.pullPages = [] → ∃ t u, exec (.pullData p true) s = .next t ∧ t.mem = s.mem ∧ t.vrAt p.dstvr.toNat = some u ∧
        u.pulls = v.pulls ++ [(p.va.toNat, p.data)]) ∧
      (∀ bs e rest f page, s.pullPages = [(p.dstvr.toNat, page)] → p.va.toNat / 65536 = page → v.fn = 0 → v.cold = false → v.remain = 1 →
        ({ v with pulls := v.pulls ++ [(p.va.toNat, p.data)] } : Vr).pulled page = some bs → bs.length = 65536 →
        s.walkVr v (page * 65536) = .ok f → pteType f.s1.e = 2 → (s.fnAt 0).free = e :: rest → (s.fnAt 0).goodFree e = true →
        s.pullOf p.dstvr.toNat page = none → (f.s1.at_ + 8 ≤ e.toNat ∨ e.toNat + 65536 ≤ f.s1.at_) →
        ∃ t u, exec (.pullData p true) s = .next t ∧ t.vrAt p.dstvr.toNat = some u ∧ u.moving = .no ∧ u.remain = 0 ∧
          (t.fnAt 0).free = rest ∧
          ∀ x, (within f.s1.at_ 8 x → t.mem.byte x = byteOf (f.s1.e.toNat % 256 / 8 * 8 + 1 + e.toNat) (x - f.s1.at_)) ∧
            (within e.toNat 65536 x → t.mem.byte x = bs.getD (x - e.toNat) 0) ∧
            (¬ within f.s1.at_ 8 x → ¬ within e.toNat 65536 x → t.mem.byte x = s.mem.byte x))) ∧
    (∀ (p : Packet) v, s.vrAt p.srcvr.toNat = some v → Quiet s →
      ∃ t u, exec (.pullData p false) s = .next t ∧ t.mem = s.mem ∧ t.vrAt p.srcvr.toNat = some u ∧ u.failed = true ∧
        ∀ f, s.pullOf p.srcvr.toNat (p.va.toNat / 65536) = some f → ∀ w ∈ f.who, (w, f.vr, f.page) ∈ t.denied)

namespace Sys2Proof.Claims

/-- The message of a busy mailbox. -/
def Asks (s : State) (fn n : Nat) (p : List Byte) : Prop := (s.mbx fn n).st = .busy ∧ (s.mbx fn n).payload = p

/-- A message has been answered: the mailbox holds the reply's header, a zero word and its data, and vector 0 is raised (R392, R393). -/
def Told (s t : State) (fn n status : Nat) (data : List Byte) : Prop :=
  let h := (s.mbx fn n).head
  (t.mbx fn n).st = .replied ∧
  (t.mbx fn n).bytes.read 0 8 = (h / 2 ^ 56 + 0x80) % 256 * 2 ^ 56 + status * 2 ^ 48 + h / 2 ^ 32 % 2 ^ 16 * 2 ^ 32 + data.length ∧
  (t.mbx fn n).bytes.read 8 8 = 0 ∧ (t.mbx fn n).bytes.bytes 16 data.length = data ∧ (.vector (s.fnAt fn).home fn 0) ∈ t.sent

/-- The VR is one that the function may not name. -/
def Foreign (s : State) (fn vr : Nat) : Prop := s.mayName fn vr = none

end Sys2Proof.Claims

/-- MAILBOX_POST, MAILBOX_RELEASE, MAILBOX_TAKE and the messages CREATE_VR, LAUNCH, CANCEL, MIGRATE, PEER_TOKENS and VR_STATUS: a mailbox goes from idle to posted to busy to replied and back, anything else is lost; a well-formed message about a VR that the function may name has its effect and is answered with status 0x00, another VR with 0x06, a malformed payload with 0x01, and a refused creation leaves no VR (R206, R220, R225, R374, R388, R392, R393, R401). The codes of VR_STATUS, 0x01 for a migrate that cannot be, 0x07 for a creation that finds no page, 0x02 in recovery, and launches without planning in a package are the model's choice (logs 53, 52, 82, 83, 97). -/
def Obligations.MailboxesAndVrMessages : Prop :=
  ∀ (s : State) (fn n : Nat),
    (s.mbxThere fn n = true →
      ((s.mbx fn n).st = .idle → ∃ t, exec (.mailboxPost fn n) s = .next t ∧ t = { s with fns := t.fns } ∧ t.mbx fn n = { s.mbx fn n with st := .posted }) ∧
      ((s.mbx fn n).st ≠ .idle → ∃ t, exec (.mailboxPost fn n) s = .next t ∧ t = { s with fns := t.fns } ∧ t.mbx fn n = { s.mbx fn n with lost := true }) ∧
      ((s.mbx fn n).st = .replied → ∃ t, exec (.mailboxRelease fn n) s = .next t ∧ t = { s with fns := t.fns } ∧ t.mbx fn n = { s.mbx fn n with st := .idle }) ∧
      ((s.mbx fn n).st ≠ .replied →
        ∃ t, exec (.mailboxRelease fn n) s = .next t ∧ t = { s with fns := t.fns } ∧ t.mbx fn n = { s.mbx fn n with lost := true })) ∧
    (s.nextPosted = none → exec .mailboxTake s = .next s) ∧
    (s.nextPosted = some (fn, n) →
      let h := (s.mbx fn n).head
      let kind := h / 2 ^ 56
      let good := h / 2 ^ 12 % 2 ^ 20 = 0 ∧ h / 2 ^ 48 % 256 = 0 ∧ (s.mbx fn n).bytes.read 8 8 = 0 ∧ h % 4096 ≤ 4080
      ((¬ good ∨ kindStep kind fn n = none) → ∃ t, exec .mailboxTake s = .next t ∧ Told s t fn n 1 [] ∧ t.mem = s.mem) ∧
      (∀ i, good → kindStep kind fn n = some i → ((s.sup.recovery = true ∧ kind ≠ 8 ∧ kind ≠ 9) ∨ (kindPhysical kind = true ∧ fn ≠ 0)) →
        ∃ t, exec .mailboxTake s = .next t ∧ Told s t fn n 2 [] ∧ t.mem = s.mem) ∧
      (∀ i, good → kindStep kind fn n = some i → (s.sup.recovery = false ∨ kind = 8 ∨ kind = 9) → (kindPhysical kind = false ∨ fn = 0) →
        ∃ t, exec .mailboxTake s = .next t ∧ t = { s with fns := t.fns, sup := t.sup, agenda := .event i :: s.agenda } ∧
          t.mbx fn n = { s.mbx fn n with st := .busy } ∧ t.sup.ptr = 8 * fn + n)) ∧
    (∀ p, Asks s fn n p →
      (∀ im s1 ids, p.length = (if fn = 0 then 24 else 40) → 0 < pword p 2 → pword p 2 ≤ 510 → pword p 3 % 65536 = 0 → pword p 4 % 65536 = 0 →
        parseImage (fun off k => s.hostMem.read (pword p 0 + off) k) (pword p 1) = some im →
        State.createVrs fn im (pword p 3 + pword p 4) (pword p 2) s (pword p 3) [] = (s1, .ok ids) →
        ∃ t, exec (.createVr fn n) s = .next t ∧ t.mem = s1.mem ∧ t.vrs = s1.vrs ∧ t.location = s1.location ∧
          (t.mbx fn n).st = .replied ∧ (t.mbx fn n).bytes.bytes 16 (ids.flatMap fun v => leBytes 8 v).length = ids.flatMap fun v => leBytes 8 v) ∧
      ((p.length ≠ (if fn = 0 then 24 else 40) ∨ pword p 2 = 0 ∨ 510 < pword p 2 ∨
          parseImage (fun off k => s.hostMem.read (pword p 0 + off) k) (pword p 1) = none) →
        ∃ t, exec (.createVr fn n) s = .next t ∧ Told s t fn n 1 [] ∧ t.vrs = s.vrs ∧ t.mem = s.mem) ∧
      (∀ im s1 vr, p.length = (if fn = 0 then 24 else 40) → 0 < pword p 2 → pword p 2 ≤ 510 → pword p 3 % 65536 = 0 → pword p 4 % 65536 = 0 →
        parseImage (fun off k => s.hostMem.read (pword p 0 + off) k) (pword p 1) = some im →
        State.createVrs fn im (pword p 3 + pword p 4) (pword p 2) s (pword p 3) [] = (s1, .error (vr, false)) →
        ∃ t, exec (.createVr fn n) s = .next t ∧ Told s t fn n 7 [] ∧ t.vrs = s.vrs ∧ t.mem = s.mem ∧ t.location = s.location) ∧
      (parseLaunch fn s.endpoint.toNat s.launchCount p = none → ∃ t, exec (.launch fn n) s = .next t ∧ Told s t fn n 1 [] ∧ t.sup = s.sup) ∧
      (∀ l, parseLaunch fn s.endpoint.toNat s.launchCount p = some l →
        (Foreign s fn l.vr → ∃ t, exec (.launch fn n) s = .next t ∧ Told s t fn n 6 [] ∧ t.sup = s.sup) ∧
        (¬ Foreign s fn l.vr → s.bare = false → powerFits [peakOf l.phases] = false →
          ∃ t, exec (.launch fn n) s = .next t ∧ Told s t fn n 4 [] ∧ t.sup = s.sup) ∧
        (¬ Foreign s fn l.vr → (s.bare = true ∨ powerFits [peakOf l.phases] = true) →
          ∃ t, exec (.launch fn n) s = .next t ∧ Told s t fn n 0 [] ∧ t.tasks = s.tasks ∧
            t.sup.launches = s.sup.launches ++ [{ l with arr := s.sup.arrivals }])) ∧
      (p.length = 8 → ¬ Foreign s fn (pword p 0) → ∃ t, exec (.cancel fn n) s = .next t ∧ (t.mbx fn n).st = .replied ∧ t.mem = s.mem ∧
        (∀ l ∈ t.sup.launches, l.vr = pword p 0 → l ∈ s.sup.launches) ∧
        ∀ k, (s.taskAt k).vr = pword p 0 → ((s.taskAt k).phase = .running ∨ (s.taskAt k).phase = .preempted) →
          (t.taskAt k).phase = .stopping ∧ (t.taskAt k).status = 0x41) ∧
      (p.length = 16 → pword p 1 < 4096 → ¬ Foreign s fn (pword p 0) →
        (s.canMove (pword p 0) (pword p 1) = none → ∃ t, exec (.migrate fn n) s = .next t ∧ Told s t fn n 1 [] ∧ t.vrs = s.vrs) ∧
        (∀ v w, s.canMove (pword p 0) (pword p 1) = some (v, w) →
          ∃ t u, exec (.migrate fn n) s = .next t ∧ Told s t fn n 0 [] ∧ t.vrAt (pword p 0) = some u ∧ u.moving = .leaving (pword p 1) ∧
            u.image = v.image ∧ u.key = v.key ∧ t.mem = s.mem)) ∧
      (∀ peer tok, p.length = 24 → pword p 1 = peer → pword p 2 = tok → peer < 2 ^ 20 → ¬ Foreign s fn (pword p 0) →
        ∃ t u v, exec (.peerTokens fn n) s = .next t ∧ Told s t fn n 0 [] ∧ s.vrAt (pword p 0) = some v ∧ t.vrAt (pword p 0) = some u ∧
          ∀ k, sget none u.peers k = if k = peer then some (BitVec.ofNat 64 tok) else sget none v.peers k) ∧
      (∀ v, p.length = 8 → s.mayName fn (pword p 0) = some v →
        ∃ t, exec (.vrStatus fn n) s = .next t ∧ t.vrs = s.vrs ∧ Told s t fn n 0 (leBytes 8 (s.vrState (pword p 0) v) ++ leBytes 8 v.acked ++
          leBytes 8 v.remain ++ leBytes 8 (if v.failed then 1 else 0))) ∧
      (∀ i, (i = .cancel fn n ∨ i = .vrStatus fn n) → p.length ≠ 8 → ∃ t, exec i s = .next t ∧ (t.mbx fn n).st = .replied ∧ t.mem = s.mem) ∧
      (∀ i, (i = .cancel fn n ∧ p.length = 8 ∨ i = .vrStatus fn n ∧ p.length = 8 ∨ i = .migrate fn n ∧ p.length = 16 ∧ pword p 1 < 4096) →
        Foreign s fn (pword p 0) → ∃ t, exec i s = .next t ∧ Told s t fn n 6 [] ∧ t.tasks = s.tasks ∧ t.vrs = s.vrs))

/-- QUOTE, IDENTITY, IMAGE, WINDOW, PARTITION and LOCATIONS: a quote's 168 field bytes come first in its reply and hold the nonce, the measurement, the version, sched.detmode, the function, its partition and sys.cycle; an identity names the part's ordering code, lists the fused clusters and counts the active ones; an image's chunk is staged; the window is set; a partition register is written or its refusal's code returned; location entries are set or removed (R1, R185, R216, R393, R396 to R399). The numbers of the partition registers and 0x02 for an image message to a package without signed boot are the model's choice (logs 54, 97). -/
def Obligations.PlatformMessages : Prop :=
  ∀ (s : State) (fn n : Nat) (p : List Byte), Asks s fn n p →
    (p.length = 32 → ∃ t sig, exec (.quote fn n) s = .next t ∧ Told s t fn n 0 (s.quoteFields fn p ++ sig) ∧ sig.length = 64 + 3309 ∧
      (s.quoteFields fn p).length = 168 ∧ (s.quoteFields fn p).take 32 = p ∧
      ofLeBytes ((s.quoteFields fn p).drop 160) = s.cycle.toNat ∧ ofLeBytes (((s.quoteFields fn p).drop 108).take 4) = fn % 2 ^ 32 ∧
      ((s.quoteFields fn p).drop 32).take 64 = sponge 72 0x06 s.sup.running 64 ∧
      ofLeBytes (((s.quoteFields fn p).drop 96).take 4) = flashVersion s.sup.running ∧
      ofLeBytes (((s.quoteFields fn p).drop 100).take 8) = (if s.detmode then 1 else 0) ∧
      (∀ i r, [PartReg.clus0, .clus1, .hbm0, .hbm1, .lp0, .lp1][i]? = some r →
        ofLeBytes (((s.quoteFields fn p).drop (112 + 8 * i)).take 8) = ((s.fnAt fn).part r).toNat) ∧ t = { s with fns := t.fns, draw := s.draw + 1, sent := t.sent }) ∧
    (p = [] → ∃ t, exec (.identity fn n) s = .next t ∧ Told s t fn n 0 s.identity.bytes ∧ s.identity.bytes.length ≤ 4080 ∧
      t = { s with fns := t.fns, sent := t.sent } ∧ s.identity.active + s.identity.fused.length = 72 ∧
      s.identity.code = (match s.bin with | .s288 => "GZ-S288" | .s272 => "GZ-S272" | .s256 => "GZ-S256") ++ (if s.isPackage then "-P" else "-M") ∧
      ∀ k, k ∈ s.identity.fused ↔ k < 72 ∧ s.fusedAt k = true) ∧
    (∀ i, (i = .quote fn n ∧ p.length ≠ 32 ∨ i = .identity fn n ∧ p ≠ [] ∨ i = .window fn n ∧ p.length ≠ 8 ∨ i = .image fn n ∧ p.length ≤ 8 ∧ s.bare = false) →
      ∃ t, exec i s = .next t ∧ Told s t fn n 1 [] ∧ t = { s with fns := t.fns, sent := t.sent }) ∧
    (s.bare = true → ∃ t, exec (.image fn n) s = .next t ∧ Told s t fn n 2 [] ∧ t = { s with fns := t.fns, sent := t.sent }) ∧
    (s.bare = false → 8 < p.length → pword p 0 = 0 → p.length - 8 < 16 →
      ∃ t, exec (.image fn n) s = .next t ∧ Told s t fn n 0 [] ∧ t.sup.stagedLen = p.length - 8 ∧ t.sup.staged.bytes 0 (p.length - 8) = p.drop 8 ∧
        t.sup.flash = s.sup.flash ∧ t.sup.running = s.sup.running) ∧
    (s.bare = false → 8 < p.length → pword p 0 = 0 → 16 ≤ p.length - 8 → flashLength (p.drop 8) ≤ p.length - 8 →
      (flashGood (p.drop 8) s.sup.rollback = true →
        ∃ t, exec (.image fn n) s = .next t ∧ Told s t fn n 0 [] ∧ t.sup.flash = p.drop 8 ∧ t.sup.running = s.sup.running) ∧
      (flashGood (p.drop 8) s.sup.rollback = false →
        ∃ t, exec (.image fn n) s = .next t ∧ Told s t fn n 5 [] ∧ t.sup.flash = s.sup.flash)) ∧
    (p.length = 8 → pword p 0 < 65536 → ∃ t, exec (.window fn n) s = .next t ∧ Told s t fn n 0 [] ∧
      t.sup.fnwBase = BitVec.ofNat 64 (pword p 0) ∧ t.mem = s.mem) ∧
    (∀ r s1, p.length = 24 → pword p 0 < 32 → partReg (pword p 1) = some r →
      (∀ c, s.partWrite (pword p 0) r (BitVec.ofNat 64 (pword p 2)) = (s1, some c) →
        ∃ t, exec (.partition fn n) s = .next t ∧ Told s t fn n 3 [BitVec.ofNat 8 c] ∧ t.binderr = s1.binderr ∧
          ∀ g q, (t.fnAt g).part q = (s.fnAt g).part q) ∧
      (s.partWrite (pword p 0) r (BitVec.ofNat 64 (pword p 2)) = (s1, none) →
        ∃ t, exec (.partition fn n) s = .next t ∧ (t.mbx fn n).st = .replied ∧ t.mem = s.mem ∧ ∀ g q, (t.fnAt g).part q = (s1.fnAt g).part q)) ∧
    (∀ vr ep, p.length = 16 → pword p 0 = vr → pword p 1 = ep → vr < 0xFF000 → ep < 4096 →
      ∃ t, exec (.locations fn n) s = .next t ∧ Told s t fn n 0 [] ∧
        ∀ k, sget none t.location k = if k = vr then (if ep = 0xFFF then none else some ep) else sget none s.location k)

namespace Sys2Proof.Claims

/-- A refused write: err, the code, and the index or function number, and nothing else changes (R211). -/
def Refused (s t : State) (code index : Nat) : Prop :=
  t = { s with binderr := t.binderr } ∧ t.binderr.toNat = 2 ^ 16 + code % 16 * 2 ^ 12 + index % 512

/-- The code of a mailbox's state in mbx.st (R392). -/
def stateCode : MbxSt → Nat
  | .idle => 0
  | .posted => 1
  | .busy => 2
  | .replied => 3

/-- A route entry gives the port a circuit to its endpoint (R185). -/
def circuit (w : Word) (q : Nat) : Bool := w.getLsbD 63 && w.getLsbD q

/-- The register writes that leave everything as it was. -/
def idleReg : SupReg → Bool
  | .bar4 _ | .unused _ => true
  | _ => false

end Sys2Proof.Claims

/-- SLOT_TABLE_WRITE, PARTITION_WRITE, DETMODE_WRITE, SCHED_SNAP_WRITE, FAB_PORTSTAT_WRITE, REGISTER_WRITE, Q_BASE_WRITE, Q_TAIL_WRITE, Q_HEAD_WRITE and BAR2_WRITE: a write that a check of R211 refuses changes sched.binderr alone, any other writes its entry or register as its access codes say and nothing else, but that a port which loses its circuit loses its traffic and a changed mode is announced; a host's read gives the register, an unused address zero (R184, R185, R194, R211, R216, R218, R227, R231, R391, R392, R395, R396). What sched.binderr names beside the codes 2, 9 and 10, which tasks count as live, that function 0 has no s2root, and a BAR2 write without memory that has no effect are the model's choice (logs 118, 68, 120, 119, 69, 86). -/
def Obligations.RegisterWrites : Prop :=
  ∀ s : State,
    (∀ i value, i < 288 →
      (∀ c, s.bindCode i (value.setWidth 64) = some c → ∃ t, exec (.slotTableWrite i value) s = .next t ∧ Refused s t c i) ∧
      (s.bindCode i (value.setWidth 64) = none → ∃ t, exec (.slotTableWrite i value) s = .next t ∧ t = { s with binds := t.binds } ∧
        ∀ k, sget 0 t.binds k = if k = i then value.setWidth 64 else sget 0 s.binds k)) ∧
    (∀ n value, n < 64 →
      (∀ c, s.entryCode n value = some c → ∃ t, exec (.slotTableWrite (288 + n) value) s = .next t ∧
        Refused s t c (if c = 10 then (value.toNat / 2 ^ 48) % 32 else 288 + n)) ∧
      (s.entryCode n value = none → ∃ t, exec (.slotTableWrite (288 + n) value) s = .next t ∧ t = { s with tasks := t.tasks } ∧
        t.taskAt n = { s.taskAt n with entry := value } ∧ ∀ k, k ≠ n → t.taskAt k = s.taskAt k)) ∧
    (∀ fn r v, fn < 32 → ¬ (fn = 0 ∧ r = .s2root) →
      (s.grantsFused r v = true → ∃ t, exec (.partitionWrite fn r v) s = .next t ∧ Refused s t 2 fn) ∧
      (s.grantsFused r v = false → (s.sharesPart fn r v = true ∨ s.fnLive fn = true) →
        ∃ t, exec (.partitionWrite fn r v) s = .next t ∧ Refused s t 7 fn) ∧
      (s.grantsFused r v = false → s.sharesPart fn r v = false → s.fnLive fn = false →
        ∃ t, exec (.partitionWrite fn r v) s = .next t ∧ t = { s with fns := t.fns } ∧ (∀ g, g ≠ fn → t.fnAt g = s.fnAt g) ∧
          ∀ q, (t.fnAt fn).part q = if q ≠ r then (s.fnAt fn).part q else
            if r = .clus1 then v &&& 0xFF else if r = .s2root then v &&& 0x8000FFFFFFFFE000 else v)) ∧
    (∀ v, exec (.partitionWrite 0 .s2root v) s = .next s) ∧
    (∀ v, (s.anyLive = true → ∃ t, exec (.detmodeWrite v) s = .next t ∧ Refused s t 9 0) ∧
      (s.anyLive = false → ∃ t, exec (.detmodeWrite v) s = .next t ∧ t = { s with detmode := v.getLsbD 0, clockStep := t.clockStep } ∧
        t.clockStep = if v.getLsbD 0 then 16 else s.clockStep)) ∧
    (∀ v, exec (.schedSnapWrite v) s = .next { s with sup := { s.sup with
      trigger := v.setWidth 16, latching := s.sup.latching ++ [(v.setWidth 16, s.cycle.toNat + 16)] } }) ∧
    (∀ port v, ∃ t, exec (.fabPortstatWrite port v) s = .next t ∧ t = { s with ports := t.ports, sent := t.sent } ∧
      ((t.portAt port).mode = (s.portAt port).mode → t.sent = s.sent) ∧
      ((t.portAt port).mode ≠ (s.portAt port).mode → (s.portAt port).replay.length < 512 → ∃ bs, t.sent = s.sent ++ [.flit port bs]) ∧
      (∀ q, q ≠ port → t.portAt q = s.portAt q) ∧ (t.portAt port).dead = (s.portAt port).dead ∧
      ∀ j, j < 8 → (t.portAt port).lane j = if (s.portAt port).lane j = 3 ∧ v.toNat / 4 ^ j % 4 = 1 then 1 else (s.portAt port).lane j) ∧
    (∀ reg v, idleReg reg = true → exec (.registerWrite reg v) s = .next s) ∧
    (∀ v,
      (∀ q j, ∃ t, exec (.registerWrite (.lanecnt q j) v) s = .next t ∧ t = { s with ports := t.ports } ∧
        (sget ⟨0, 0⟩ (t.portAt q).waves j).cnt = v) ∧
      (∀ d, ∃ t, exec (.registerWrite (.lanethr d) v) s = .next t ∧ t = { s with lanethr := t.lanethr } ∧
        ∀ k, sget 1024 t.lanethr k = if k = d then v.setWidth 16 else sget 1024 s.lanethr k) ∧
      (∀ ep,
        let new := v &&& 0xEFFFFFF0FFFFFFFF
        let lost (q : Nat) : Prop := q < 32 ∧ circuit (s.routeOf ep) q = true ∧ circuit new q = false
        ((∀ q, ¬ lost q) → ∃ t, exec (.registerWrite (.route ep) v) s = .next t ∧ t = { s with route := t.route } ∧
          ∀ k, t.routeOf k = if k = ep then new else s.routeOf k) ∧
        (s.unacked = [] → ∃ t, exec (.registerWrite (.route ep) v) s = .next t ∧ t = { s with route := t.route, ports := t.ports } ∧
          (∀ k, t.routeOf k = if k = ep then new else s.routeOf k) ∧ (∀ q, ¬ lost q → t.portAt q = s.portAt q) ∧
          ∀ q, lost q → t.portAt q = { s.portAt q with replay := [], parts := [], acked := (s.portAt q).tx - 1 })) ∧
      (∀ f r, ∃ t, exec (.registerWrite (.allot f r) v) s = .next t ∧ t = { s with fns := t.fns } ∧ (∀ g, g ≠ f → t.fnAt g = s.fnAt g) ∧
        ∀ k, (t.fnAt f).allotOf k = if k = r then v.setWidth 32 else (s.fnAt f).allotOf k) ∧
      ((v.toNat % 2 ^ 25 < 1024 ∨ 2 ^ 24 < v.toNat % 2 ^ 25) → ∃ t, exec (.registerWrite .period v) s = .next t ∧ Refused s t 10 0) ∧
      (1024 ≤ v.toNat % 2 ^ 25 → v.toNat % 2 ^ 25 ≤ 2 ^ 24 →
        ∃ t, exec (.registerWrite .period v) s = .next t ∧ t = { s with period := v.toNat % 2 ^ 25, periodAt := t.periodAt } ∧
          s.cycle.toNat < t.periodAt) ∧
      (∃ t, exec (.registerWrite .binderr v) s = .next t ∧ t = { s with binderr := t.binderr } ∧
        t.binderr.toNat = if v.getLsbD 16 then s.binderr.toNat % 2 ^ 16 else s.binderr.toNat) ∧
      (∀ f, ∃ t, exec (.registerWrite (.qbad f 1) v) s = .next t ∧ t = { s with fns := t.fns } ∧
        (t.fnAt f).ring 1 = { (s.fnAt f).ring 1 with bad := ((s.fnAt f).ring 1).bad &&& ~~~(v.setWidth 32) }) ∧
      (∀ f n, ∃ t, exec (.registerWrite (.mbxSt f n) v) s = .next t ∧ t = { s with fns := t.fns } ∧
        t.mbx f n = { s.mbx f n with lost := (s.mbx f n).lost && !v.getLsbD 8 }) ∧
      (∀ vr x, s.vrAt vr = some x → swf SrcWin.init x.srcs = true → ∃ t u, exec (.registerWrite (.quarantine vr) v) s = .next t ∧
        t = { s with vrs := t.vrs } ∧ t.vrAt vr = some u ∧ u.windows = x.windows ∧
        ∀ k, sget SrcWin.init u.srcs k = { sget SrcWin.init x.srcs k with fails := 0, quar := false })) ∧
    (∀ fn q v, (3 ≤ q → exec (.qBaseWrite fn q v) s = .next s) ∧
      (q < 3 → (q = 0 → (s.fnAt fn).waiting = []) → ∃ t, exec (.qBaseWrite fn q v) s = .next t ∧ t = { s with fns := t.fns } ∧
        (t.fnAt fn).ring q = { (s.fnAt fn).ring q with base := v &&& 0xFFFFFFFFFFFFF00F, head := 0, tail := 0, phase := true }) ∧
      (q ≠ 0 → q ≠ 2 → exec (.qHeadWrite fn q v) s = .next s) ∧
      ((q = 0 ∧ (s.fnAt fn).waiting = [] ∨ q = 2) → ∃ t, exec (.qHeadWrite fn q v) s = .next t ∧ t = { s with fns := t.fns } ∧
        (t.fnAt fn).ring q = { (s.fnAt fn).ring q with head := v.setWidth 12 }) ∧
      (q ≠ 1 → exec (.qTailWrite fn q v) s = .next s) ∧
      (∀ k, ((s.fnAt fn).ring 1).size ≠ 0 → k < ((s.fnAt fn).ring 1).size → v.toNat % 4096 = (((s.fnAt fn).ring 1).tail.toNat + k) % ((s.fnAt fn).ring 1).size →
        ((s.fnAt fn).ring 1).tail.toNat < ((s.fnAt fn).ring 1).size → ((s.fnAt fn).ring 1).head.toNat < ((s.fnAt fn).ring 1).size →
        let held := (((s.fnAt fn).ring 1).tail.toNat + ((s.fnAt fn).ring 1).size - ((s.fnAt fn).ring 1).head.toNat) % ((s.fnAt fn).ring 1).size
        (held + k < ((s.fnAt fn).ring 1).size → ∃ t, exec (.qTailWrite fn 1 v) s = .next t ∧
          t = { s with fns := t.fns, agenda := s.agenda ++ List.replicate k (.event (.responseRecord fn)) } ∧
          (t.fnAt fn).ring 1 = { (s.fnAt fn).ring 1 with tail := BitVec.ofNat 12 (v.toNat % 4096) }) ∧
        (((s.fnAt fn).ring 1).size ≤ held + k → exec (.qTailWrite fn 1 v) s = .next s))) ∧
    (∀ off bs,
      let a := s.sup.fnwBase.toNat * 2 ^ 32 + off
      (off + bs.length ≤ 2 ^ 32 → s.hasMem a = true → s.hasMem (a + bs.length - 1) = true →
        ∃ t, exec (.bar2Write off bs) s = .next t ∧ t = { s with mem := t.mem, rels := t.rels, olds := t.olds } ∧ t.mem.bytes a bs.length = bs ∧
          ∀ x, ¬ within a bs.length x → t.mem.byte x = s.mem.byte x) ∧
      ((s.hasMem a = false ∨ 2 ^ 32 < off + bs.length) → exec (.bar2Write off bs) s = .next s)) ∧
    (∀ fn q, q < 3 →
      let r := (s.fnAt fn).ring q
      let at_ := 0x8000 + 0x40 * q
      s.hostRead fn 0 at_ = r.base ∧ s.hostRead fn 0 (at_ + 8) = r.head.setWidth 64 ∧ s.hostRead fn 0 (at_ + 16) = r.tail.setWidth 64 ∧
      s.hostRead fn 0 (at_ + 24) = (if q = 1 then r.bad.setWidth 64 else 0) ∧ ∀ k, 32 ≤ k → k < 64 → s.hostRead fn 0 (at_ + k) = 0) ∧
    (∀ fn n, s.mbxThere fn n = true →
      s.hostRead fn 0 (0x9000 + 16 * n) = 0 ∧
      (s.hostRead fn 0 (0x9008 + 16 * n)).toNat = (if (s.mbx fn n).lost then 256 else 0) + stateCode (s.mbx fn n).st) ∧
    ((∀ fn off, 0x9080 ≤ off → s.hostRead fn 0 off = 0) ∧
      (∀ fn off, fn ≠ 0 → s.hostRead fn 2 off = 0 ∧ s.hostRead fn 4 off = 0) ∧
      ∀ d j, d < 2 → j < 16 → s.hostRead 0 4 (0x8000 * d + 8 * j) = (s.portAt (16 * d + j)).stat)

namespace Sys2Proof.Claims

/-- The port's traffic stops: it is dead and keeps nothing. -/
def PortDown (t : State) (q : Nat) : Prop := (t.portAt q).isDead = true ∧ (t.portAt q).replay = []

end Sys2Proof.Claims

/-- FLIT_RECEIVE, LINK_REPLAY, FEC_WINDOW_END, RETRAIN_END and ACK_TIMEOUT: a flit that fails its check is counted and asked for again, the eighth failure of one flit kills the port; the next flit in order is taken, frees what it acknowledges and returns credits, a link control flit names the other end's mode, a later one is asked for again; replay sends the kept flits from the requested one; more corrected bits than the threshold make a wavelength retrain, a success returns it, the third failure fails it; no acknowledgement for 2^20 cycles kills the port (R180 to R184). That a failing flit is told by its lseq, what an earlier and a later flit do, and what the sender replays and counts is the model's choice (logs 106, 77, 79). -/
def Obligations.Links : Prop :=
  ∀ (s : State) (q : Nat),
    let p := s.portAt q
    (∀ w bs, p.isDead = true → exec (.flitReceive q w bs) s = .next s) ∧
    (∀ w bs, p.isDead = false → flitChecks bs = false →
      let seq := ofLeBytes (bs.take 2)
      let n := sget 0 p.fails seq
      (n < 7 → ∃ t, exec (.flitReceive q w bs) s = .next t ∧ t = { s with ports := t.ports, sent := s.sent ++ [.replay q (p.rx + 1)] } ∧
        (∀ k, sget 0 (t.portAt q).fails k = if k = seq then n + 1 else sget 0 p.fails k) ∧ (t.portAt q).rx = p.rx ∧
        (sget ⟨0, 0⟩ (t.portAt q).waves w).cnt = addField (sget ⟨0, 0⟩ p.waves w).cnt 32 16 1) ∧
      (7 ≤ n → ∃ t, exec (.flitReceive q w bs) s = .next t ∧ PortDown t q)) ∧
    (∀ w bs,
      let h0 := ofLeBytes (bs.take 8)
      let h1 := ofLeBytes ((bs.drop 8).take 8)
      let lseq : BitVec 16 := BitVec.ofNat 16 h0
      let d := (BitVec.ofNat 16 (h1 / 2 ^ 48) - p.acked).toNat
      p.isDead = false → flitChecks bs = true → flitFormed h0 h1 = true →
      (lseq = p.rx + 1 → (bitsOf h0 56 8 = 0 ∨ bitsOf h0 56 8 = 3) → p.replay.length ≤ 512 →
        ∃ t, exec (.flitReceive q w bs) s = .next t ∧ t = { s with ports := t.ports } ∧
          (t.portAt q).rx = lseq ∧ sget 0 (t.portAt q).fails lseq.toNat = 0 ∧
          (∀ vc, vc < 4 → sget 0 (t.portAt q).credit vc = sget 0 p.credit vc + bitsOf h1 (32 + 4 * vc) 4) ∧
          (∀ m, bitsOf h0 56 8 = 3 → modeOf ((bs.drop 16).take 192) = some m → (t.portAt q).peer = m) ∧
          (t.portAt q).replay = if d ≤ p.replay.length then p.replay.drop d else p.replay) ∧
      (1 < (lseq - p.rx).toNat → (lseq - p.rx).toNat < 2 ^ 15 → ∃ t, exec (.flitReceive q w bs) s = .next t ∧
        .replay q (p.rx + 1) ∈ t.sent ∧ (t.portAt q).rx = p.rx) ∧
      ((lseq = p.rx ∨ 2 ^ 15 ≤ (lseq - p.rx).toNat) → ∃ t, exec (.flitReceive q w bs) s = .next t ∧ (t.portAt q).rx = p.rx ∧ t.mem = s.mem) ∧
      (∀ pk i, lseq = p.rx + 1 → bitsOf h0 56 8 = 1 → bitsOf h0 16 8 = 0 → sget [] p.parts (bitsOf h0 28 2) = [] → d = 0 →
        parsePacket h0 ((bs.drop 16).take 192) 0 = some pk → pk.dstEp = s.endpoint → arrivalStep { pk with die := q / 16 } = some i → bs.length = 224 → h0 < 2 ^ 64 →
        ∃ t, exec (.flitReceive q w bs) s = .next t ∧ t.agenda = s.agenda ++ [.event i] ∧ (t.portAt q).rx = lseq ∧ t.mem = s.mem)) ∧
    (∀ lseq : BitVec 16,
      let again := (p.replay.take 512).drop (lseq - p.acked - 1).toNat
      (p.isDead = true → exec (.linkReplay q lseq) s = .next s) ∧
      (p.isDead = false → ∃ t, exec (.linkReplay q lseq) s = .next t ∧
        t.sent = s.sent ++ again.map (fun f : Flit => Sent.flit q f.bytes) ∧ t.ports = s.ports ∧ t.mem = s.mem)) ∧
    ((p.isDead = true ∨ p.replay = [] ∨ s.cycle.toNat < p.since + 2 ^ 20) → exec (.ackTimeout q) s = .next s) ∧
    (p.isDead = false → p.replay ≠ [] → p.since + 2 ^ 20 ≤ s.cycle.toNat → ∃ t, exec (.ackTimeout q) s = .next t ∧ PortDown t q) ∧
    (∀ w n,
      let thr := (sget 1024 s.lanethr (q / 16)).toNat
      (p.lane w ≠ 1 → exec (.fecWindowEnd q w n) s = .next s) ∧
      (w < 8 → p.lane w = 1 → (thr = 0 ∨ n ≤ thr) → ∃ t, exec (.fecWindowEnd q w n) s = .next t ∧ t = { s with ports := t.ports } ∧
        (t.portAt q).lanes = p.lanes ∧ (sget ⟨0, 0⟩ (t.portAt q).waves w).cnt = addField (sget ⟨0, 0⟩ p.waves w).cnt 0 32 n) ∧
      (w < 8 → p.lane w = 1 → thr ≠ 0 → thr < n → ∃ t, exec (.fecWindowEnd q w n) s = .next t ∧ (t.portAt q).lane w = 2 ∧ t.mem = s.mem)) ∧
    (∀ w ok,
      (p.lane w ≠ 2 → exec (.retrainEnd q w ok) s = .next s) ∧
      (w < 8 → p.lane w = 2 → ∃ t, exec (.retrainEnd q w ok) s = .next t ∧ t.mem = s.mem ∧
        (t.portAt q).lane w = if ok then 1 else if 2 ≤ (sget ⟨0, 0⟩ p.waves w).attempts then 3 else 2))

/-- FUNCTION_LEVEL_RESET, LINK_TRAINING, BOOT and POWER_LOSS: the function's tasks stop with 0x41 and its rings, tags and mailboxes are as at reset; a link has its new rate and width; boot runs a good image and raises the rollback counter, else the part enters recovery, and keeps flash, links, fuses, endpoint and the host's memory; without power nothing moves but boot (R220, R390, R397, R400). What boot keeps beside flash, the zero bytes of the other memories, and the boot of a package without signed boot are the model's choice (logs 3, 4, 97). -/
def Obligations.ResetsBootAndPower : Prop :=
  ∀ s : State,
    (∀ fn, s.faults = [] →
      ∃ t, exec (.functionLevelReset fn) s = .next t ∧ t.mem = s.mem ∧ (t.fnAt fn).rings = [] ∧ (t.fnAt fn).tags = [] ∧ (t.fnAt fn).mbx = [] ∧
        (∀ q, (t.fnAt fn).part q = (s.fnAt fn).part q) ∧
        ∀ k v, s.vrAt (s.taskAt k).vr = some v → v.fn = fn → ((s.taskAt k).phase = .running ∨ (s.taskAt k).phase = .preempted) →
          (t.taskAt k).phase = .stopping ∧ (t.taskAt k).status = 0x41) ∧
    (∀ link rate width, (2 ≤ link → exec (.linkTraining link rate width) s = .next s) ∧
      (link < 2 → ∃ t, exec (.linkTraining link rate width) s = .next t ∧ t = { s with sup := { s.sup with links := t.sup.links } } ∧
        ∀ k, sget (0, 0) t.sup.links k = if k = link then (rate, width) else sget (0, 0) s.sup.links k)) ∧
    (∃ t, exec .boot s = .next t ∧ t.power = true ∧ t.mem = [] ∧ t.strands = [] ∧ t.binds = [] ∧ t.hostMem = s.hostMem ∧ t.bin = s.bin ∧ t.fuses = s.fuses ∧
      t.isPackage = s.isPackage ∧ t.supplied = s.supplied ∧
      t.endpoint = s.endpoint ∧ t.sup.flash = s.sup.flash ∧ t.sup.links = s.sup.links ∧
      (s.bare = true → t.sup.recovery = false ∧ t.sup.running = [] ∧ t.sup.rollback = s.sup.rollback) ∧
      (s.bare = false → flashGood s.sup.flash s.sup.rollback = true → t.sup.recovery = false ∧ t.sup.running = s.sup.flash ∧
        t.sup.rollback = max s.sup.rollback (flashVersion s.sup.flash)) ∧
      (s.bare = false → flashGood s.sup.flash s.sup.rollback = false → t.sup.recovery = true ∧ t.sup.rollback = s.sup.rollback)) ∧
    (∃ t, exec .powerLoss s = .next t ∧ t = { s with power := false, agenda := [] }) ∧
    (∀ t rest, s.power = false → s.agenda = t :: rest → t.isBoot = false → step s = .fault .noPower) ∧
    (∀ rest, s.agenda = .event .boot :: rest → step s = exec .boot { s with agenda := rest })

namespace Sys2Proof.Claims

/-! ## Running records, checks of scalar instructions -/

/-- Record and exact function of the integer arithmetic records covered (R300, R301). -/
def vecIntForm : Instr → Option (Rec × (Int → Int → Int))
  | .vadd r => some (r, fun a b => a + b)
  | .vsub r => some (r, fun a b => a - b)
  | .vmul r => some (r, fun a b => a * b)
  | .vmin r => some (r, fun a b => min a b)
  | .vmax r => some (r, fun a b => max a b)
  | _ => none

/-- The integer that an operand gives at a point: a stream's element or the low bits of a broadcast value, in two's complement for a signed format (R23, R63). -/
def intOperand (m : Mem) (f : Fmt) (p : Point) : Operand → Int
  | .none => 0
  | .stream d sl => sgn (m.read (descBase d + (slotIndex sl p).toNat * (fmtBits f / 8)) (fmtBits f / 8))
  | .scalar v => sgn (v.toNat % 2 ^ fmtBits f)
where
  sgn (n : Nat) : Int := if isSigned f ∧ 2 ^ (fmtBits f - 1) ≤ n then (n : Int) - 2 ^ fmtBits f else n

/-- Instructions that an open region refuses, with their class (R44). -/
def regionForm : Instr → Option (BitVec 4)
  | .atom _ _ _ _ m | .cas _ _ _ m => if m.space = .gv then some 1 else none
  | .ratom .. | .rcas .. | .grant .. | .revoke .. => some 7
  | .semsig .. | .barc | .barg | .spawn .. | .signal .. => some 3
  | .twload _ => some 6
  | .cjoin _ | .callred _ | .credsc _ | .callgath _ | .cbcast _ | .ctopk _ | .cbar _ => some 8
  | _ => none

/-- A scalar access after its dispatch checks: base register plus offset, or the base alone where the base advances afterwards (R268 to R271). -/
def accessForm (s : State) : Instr → Option (Word × SMem)
  | .ld _ a m | .st _ a m | .atom _ _ a _ m | .cas _ a _ m => some (s.me.reg a + m.off.signExtend 64, m)
  | .lda _ a m | .stl _ a m => some (s.me.reg a, m)
  | _ => none

/-- A scalar store, atomic or descriptor store to the weight store. -/
def writesWs : Instr → Bool
  | .st _ _ m | .stl _ _ m | .atom _ _ _ _ m | .cas _ _ _ m => decide (m.space = .ws)
  | .sdst _ _ _ x _ => decide (x = .ws)
  | _ => false

/-- The general registers that a scalar access reads. -/
def accessRegs : Instr → List Reg
  | .ld _ a _ | .lda _ a _ => [a]
  | .st b a _ | .stl b a _ | .atom _ _ a b _ => [a, b]
  | .cas d a b _ => [a, b, d]
  | _ => []

/-! ## What engine records write -/

/-- Write `n` bits at bit `bit` of the string at `base` of a byte memory (R60). -/
def setBits (m : Mem) (p : Put) : Mem :=
  let w := putBits m p.base p.bit p.n p.v
  m.setBytes w.1 w.2

/-- The write of element `i` of a stream of descriptor `d`. -/
def elemPut (d : BitVec 128) (i v : Nat) : Put := ⟨descBase d, elemBit (descFmt d) i, fieldBits (descFmt d), v⟩

/-- The write of the element that a stream operand names at a point. -/
def pointPut (o : Operand) (p : Point) (v : Nat) : Put := elemPut o.desc (o.index p) v

/-- One bit of a memory. -/
def bitAt (m : Mem) (x : Nat) : Bool := (m.byte (x / 8)).getLsbD (x % 8)

/-- Bit `x` of a memory lies in what a put writes. -/
def Covers (p : Put) (x : Nat) : Prop := 8 * p.base + p.bit ≤ x ∧ x < 8 * p.base + p.bit + p.n

/-- Bit `x` lies in the record's status word (R247). -/
def InStat (r : Rec) (x : Nat) : Prop := r.se = true ∧ 64 * r.stat.toNat ≤ x ∧ x < 64 * r.stat.toNat + 64

/-- A record of logical core `lc` has written `ws` in order, and its status word: each bit holds what the last write over it gave; no bit outside them and the status word differs, in this scratchpad or another (R60, R247). -/
def WroteAll (lc : Nat) (r : Rec) (ws : List Put) (s t : State) : Prop :=
  (∀ l1 w l2, ws = l1 ++ w :: l2 → ∀ x, Covers w x → ¬ InStat r x → (∀ w' ∈ l2, ¬ Covers w' x) →
    bitAt (t.lcoreAt lc).sp x = w.v.testBit (x - (8 * w.base + w.bit))) ∧
  (∀ x, (∀ w ∈ ws, ¬ Covers w x) → ¬ InStat r x → bitAt (t.lcoreAt lc).sp x = bitAt (s.lcoreAt lc).sp x) ∧
  ∀ k, k ≠ lc → ∀ a, (t.lcoreAt k).sp.byte a = (s.lcoreAt k).sp.byte a

/-- Nothing but scratchpads and the engines' own bookkeeping has changed: no other memory, no bank. -/
def OnlyTile (s t : State) : Prop := t.mem = s.mem ∧ t.hostMem = s.hostMem ∧ t.ws = s.ws ∧ t.banks = s.banks

/-! ## Class 4: element-wise records -/

/-- The element-wise records of class 4, and whether their type is floating only (R293). -/
def elemRec : Instr → Option (Rec × Bool)
  | .vadd r | .vsub r | .vmul r | .vfma r | .vfms r | .vdiv r | .vmin r | .vmax r | .vabs r | .vneg r | .vclamp r | .vand r | .vor r | .vxor r
  | .vnot r | .vshl r | .vshr r | .vsar r | .vcmp r | .vsel r | .vmov r | .vfill r | .vcvt r | .vrng r => some (r, false)
  | .vcopysign r | .vround r | .vdeq r | .vrcp r | .vsqrt r | .vrsqrt r | .vexp r | .vexp2 r | .vlog r | .vlog2 r | .vtanh r | .verf r => some (r, true)
  | .vquant r => if isX r.type then none else some (r, false)
  | _ => none

/-- The exact result of a floating-point record on its three sources (R302, R309). -/
def realForm (dn : Bool) (a b c : FVal) : Instr → FVal × Flags
  | .vadd _ => vAdd dn a b | .vsub _ => vAdd dn a b.negate | .vmul _ => vMul a b
  | .vfma _ => vFma dn a b c | .vfms _ => vFma dn a b c.negate | .vdiv _ => vDiv a b
  | .vrcp _ => fnRcp a | .vsqrt _ => vSqrt a | .vrsqrt _ => fnRsqrt a | .vexp _ => fnExp false a | .vexp2 _ => fnExp true a
  | .vlog _ => fnLog false a | .vlog2 _ => fnLog true a | .vtanh _ => fnTanh a | .verf _ => fnErf a
  | _ => (a, 0)

/-- The exact result of an integer record that wraps or, with .sat, clamps (R301). -/
def wholeForm (a b c : Int) : Instr → Option Int
  | .vadd _ => some (a + b) | .vsub _ => some (a - b) | .vmul _ => some (a * b) | .vfma _ => some (a * b + c) | .vfms _ => some (a * b - c)
  | .vabs _ => some (if a < 0 then -a else a) | .vneg _ => some (-a)
  | _ => none

/-- An integer as the bits of a type: modulo 2^w, or clamped with SAT (R301). -/
def narrowed (f : Fmt) (sat : Bool) (x : Int) : Nat × Flags :=
  let lo := if isSigned f then -(2 ^ (fmtBits f - 1)) else (0 : Int)
  let hi := if isSigned f then 2 ^ (fmtBits f - 1) - 1 else (2 ^ fmtBits f - 1 : Int)
  if sat = true ∧ (x < lo ∨ hi < x) then (((if x < lo then lo else hi) % 2 ^ fmtBits f).toNat, fSAT)
  else ((x % 2 ^ fmtBits f).toNat, 0)

/-- The greater or smaller of two floating-point elements: −0 is below +0, a NaN gives the canonical NaN, NV for a signalling one (R302). -/
def pickSpec (f : Fmt) (mx : Bool) (a b : Nat) : Nat × Flags :=
  match vCmp (decodeVal f a) (decodeVal f b) with
  | none => (nanBits f, sigFlag [decodeVal f a, decodeVal f b])
  | some .eq => (if (decodeVal f a).neg = mx then b else a, 0)
  | some .lt => (if mx then b else a, 0)
  | some .gt => (if mx then a else b, 0)

/-- The relation of vcmp with code `n` (R294, R304). -/
def relSpec (n : Nat) (o : Option Ordering) : Bool :=
  match n with
  | 0 => o == some .eq | 1 => o != some .eq | 2 => o == some .lt | 3 => o == some .lt || o == some .eq
  | 4 => o == some .gt | 5 => o == some .gt || o == some .eq | 6 => o == none | _ => false

/-- The bits of one (R63, R304). -/
def oneSpec (f : Fmt) : Nat :=
  if f = fF16 then 0x3C00 else if f = fBf16 then 0x3F80 else if f = fF32 then 0x3F800000 else if f = fF64 then 0x3FF0000000000000 else 1

/-- A NaN of a floating-point format is written canonical (R65, R296). -/
def canonSpec (f : Fmt) (b : Nat) : Nat := if (fparam f).isSome && (decodeVal f b).isNan then nanBits f else b

/-- The bits, and the flags, that a running element-wise record gives D at a point, from scratchpad `m` (R300 to R309, R319). -/
def elemSpec (s : State) (m : Mem) (u : Run) (r : Rec) (p : Point) : Nat × Flags :=
  let c := u.e.cap
  let f := r.type
  let w := fmtBits f
  let bits (o : Operand) : Nat := o.bits m f p
  let int (o : Operand) : Int := intOf f (bits o)
  let e := c.d.index p
  let y0 := if u.vm.rm = .sr then s.y0 u.e e else 0
  let rounded (x : FVal × Flags) : Nat × Flags := let d := deliver f (ovfOf f u.vm.ovf) u.vm.rm y0 x.1; (d.1, d.2 ||| x.2)
  let dn := decide (u.vm.rm = .rdn)
  let real : Nat × Flags := rounded (realForm dn (c.a.fval m f p) (c.b.fval m f p) (c.c.fval m f p) u.e.instr)
  let abs := (bits c.a) % 2 ^ (w - 1)
  match u.e.instr with
  | .vrcp _ | .vsqrt _ | .vrsqrt _ | .vexp _ | .vexp2 _ | .vlog _ | .vlog2 _ | .vtanh _ | .verf _ => real
  | .vdiv _ => if isF f then real else
      (if int c.b = 0 then 2 ^ w - 1 else ((int c.a).tdiv (int c.b) % 2 ^ w).toNat, 0)
  | .vmin _ => if isF f then pickSpec f false (bits c.a) (bits c.b) else ((min (int c.a) (int c.b) % 2 ^ w).toNat, 0)
  | .vmax _ => if isF f then pickSpec f true (bits c.a) (bits c.b) else ((max (int c.a) (int c.b) % 2 ^ w).toNat, 0)
  | .vclamp _ =>
    if isF f then
      let x := pickSpec f true (bits c.a) (bits c.b)
      let y := pickSpec f false x.1 (bits c.c)
      (y.1, x.2 ||| y.2)
    else ((min (max (int c.a) (int c.b)) (int c.c) % 2 ^ w).toNat, 0)
  | .vcopysign _ => (if (c.a.fval m f p).isNan then nanBits f else abs + bits c.b / 2 ^ (w - 1) * 2 ^ (w - 1), 0)
  | .vround _ =>
    let rm := if r.ctl.getLsbD 3 then rmodeOf (r.ctl.toNat % 8) else u.vm.rm
    fIntegral f rm (if rm = .sr then s.y0 u.e e else 0) (bits c.a)
  | .vand _ => (bits c.a &&& bits c.b, 0)
  | .vor _ => (bits c.a ||| bits c.b, 0)
  | .vxor _ => (bits c.a ^^^ bits c.b, 0)
  | .vnot _ => (2 ^ w - 1 - bits c.a, 0)
  | .vshl _ => (bits c.a * 2 ^ (bits c.b % w) % 2 ^ w, 0)
  | .vshr _ => (bits c.a / 2 ^ (bits c.b % w), 0)
  | .vsar _ => ((signedOf w (bits c.a) / 2 ^ (bits c.b % w) % 2 ^ w).toNat, 0)
  | .vcmp _ =>
    if isF f then
      (if relSpec (r.ctl.toNat % 8) (vCmp (c.a.fval m f p) (c.b.fval m f p)) then oneSpec f else 0, sigFlag [c.a.fval m f p, c.b.fval m f p])
    else (if relSpec (r.ctl.toNat % 8) (some (compare (int c.a) (int c.b))) then 1 else 0, 0)
  | .vsel _ =>
    let yes := if (fparam f).isSome then !(decodeVal f (bits c.c)).isZero else decide (bits c.c ≠ 0)
    (canonSpec f (if yes then bits c.a else bits c.b), 0)
  | .vmov _ => (canonSpec f (bits c.a), 0)
  | .vfill _ =>
    let n := p.t0 + tripN c.trips 0 * (p.t1 + tripN c.trips 1 * (p.t2 + tripN c.trips 2 * p.t3))
    if isF f then rounded (vFma dn (.ofInt n) (c.b.fval m f p) (c.a.fval m f p)) else (((int c.a + n * int c.b) % 2 ^ w).toNat, 0)
  | .vcvt _ =>
    let g := r.type2
    let a := c.a.bits m g p
    if f = g then (canonSpec f a, 0)
    else if (fparam f).isSome then convFloat f (ovfOf f u.vm.ovf) u.vm.rm y0 (decodeVal g a)
    else if (fparam g).isSome then convInt f u.vm.rm y0 (decodeVal g a)
    else narrowed f (r.ctl.getLsbD 0) (intOf g a)
  | .vquant _ =>
    let x := vMul (c.a.fval m r.type2 p) (c.b.fval m r.type2 p)
    let d := if (fparam f).isSome then convFloat f (ovfOf f u.vm.ovf) u.vm.rm y0 x.1 else convInt f u.vm.rm y0 x.1
    (d.1, x.2 ||| d.2)
  | .vdeq _ => if (c.a.fval m r.type2 p).isNan then (nanBits f, 0) else rounded (vMul (c.a.fval m r.type2 p) (c.b.fval m f p))
  | .vrng _ => (rngBits f (s.randomOf u.e e), 0)
  | .vabs _ => if isF f then (if (c.a.fval m f p).isNan then nanBits f else abs, 0) else narrowed f (r.ctl.getLsbD 0) (if int c.a < 0 then -int c.a else int c.a)
  | .vneg _ =>
    if isF f then (if (c.a.fval m f p).isNan then nanBits f else (bits c.a + 2 ^ (w - 1)) % 2 ^ w, 0) else narrowed f (r.ctl.getLsbD 0) (-int c.a)
  | i => if isF f then real else match wholeForm (int c.a) (int c.b) (int c.c) i with
    | some x => narrowed f (r.ctl.getLsbD 0) x
    | none => (0, 0)

/-! ## Class 4: rows, scans, ranks, tables -/

/-- The active points of the row of a point: t0 below the count (R24, R310). -/
def rowActive (c : Cap) (p : Point) : List Point :=
  (List.range (match c.count with | some n => min n (tripN c.trips 0) | none => tripN c.trips 0)).map fun i => { p with t0 := i }

/-- A lane's value: its first element's, then each further one joined to it; no value without an element (R82). -/
def laneOf (first : Point → Nat) (later : Nat → Point → Nat) (ps : List Point) (j : Nat) : Option Nat :=
  match ps.filter fun p => decide (p.t0 % 16 = j) with
  | [] => none
  | p :: t => some (t.foldl later (first p))

/-- The tree over 2^n lanes: the left half's value joined to the right half's; an empty half gives the other's (R82). -/
def halves (op : Nat → Nat → Nat) : Nat → List (Option Nat) → Option Nat
  | 0, l => l.headD none
  | n + 1, l =>
    match halves op n (l.take (2 ^ n)), halves op n (l.drop (2 ^ n)) with
    | some a, some b => some (op a b)
    | some a, none => some a
    | none, b => b

/-- The value of the row reductions for a row's points, as bits (R311, R312, R316). -/
def rowSpec (m : Mem) (u : Run) (r : Rec) (ps : List Point) : Nat :=
  let c := u.e.cap
  let f := r.type
  let w := fmtBits f
  let bits (o : Operand) (p : Point) : Nat := o.bits m f p
  let int (o : Operand) (p : Point) : Int := intOf f (bits o p)
  let val (o : Operand) (p : Point) : FVal := o.fval m f p
  let rm := if u.vm.rm = .sr then RMode.rne else u.vm.rm
  let dn := decide (rm = .rdn)
  let rounded (x : FVal) : Nat := (deliver f (ovfOf f u.vm.ovf) rm 0 x).1
  let add (a b : Nat) : Nat := rounded (vAdd dn (decodeVal f a) (decodeVal f b)).1
  let tree (first : Point → Nat) (later : Nat → Point → Nat) : Nat :=
    canonSpec f ((halves add 4 ((List.range 16).map (laneOf first later ps))).getD 0)
  match u.e.instr with
  | .vsum _ =>
    if isF f then tree (bits c.a) fun acc p => add acc (bits c.a p)
    else (narrowed f (r.ctl.getLsbD 0) ((ps.map (int c.a)).foldl (· + ·) 0)).1
  | .vdot _ =>
    if isF f then tree (fun p => rounded (vMul (val c.a p) (val c.b p)).1) fun acc p => rounded (vFma dn (val c.a p) (val c.b p) (decodeVal f acc)).1
    else (narrowed f (r.ctl.getLsbD 0) ((ps.map fun p => int c.a p * int c.b p).foldl (· + ·) 0)).1
  | .vmaxr _ =>
    let low := r.ctl.getLsbD 0
    let pick (a b : Nat) : Nat :=
      if isF f then (pickSpec f (!low) a b).1
      else ((if low then min (intOf f a) (intOf f b) else max (intOf f a) (intOf f b)) % 2 ^ w).toNat
    match ps.map (bits c.a) with
    | [] => extremeBits f low
    | b :: t => canonSpec f (t.foldl pick b)
  | .vamax _ =>
    (ps.filter fun p => !(decodeVal f (bits c.a p)).isNan).foldl (fun acc p =>
      if vCmp (decodeVal f acc) (decodeVal f (bits c.a p)).abs = some .lt then bits c.a p % 2 ^ (w - 1) else acc) 0
  | _ =>
    match isort (rankLe f) (ps.map fun p => (p.t0, bits c.a p)) with
    | [] => 2 ^ w - 1
    | x :: _ => (c.b.val.toNat % 2 ^ w + x.1) % 2 ^ w

/-- The values of a scan over a row: each element's is the join of those up to it, or for .excl of those before it, from the identity (R313). -/
def scanSpec (m : Mem) (u : Run) (r : Rec) (ps : List Point) : List Nat :=
  let f := r.type
  let rm := if u.vm.rm = .sr then RMode.rne else u.vm.rm
  let code := r.ctl.toNat % 4
  let op (a b : Nat) : Nat :=
    match code with
    | 0 => if isF f then (deliver f (ovfOf f u.vm.ovf) rm 0 (vAdd (decide (rm = .rdn)) (decodeVal f a) (decodeVal f b)).1).1
      else ((intOf f a + intOf f b) % 2 ^ fmtBits f).toNat
    | 1 => if isF f then (pickSpec f true a b).1 else (max (intOf f a) (intOf f b) % 2 ^ fmtBits f).toNat
    | _ => if isF f then (pickSpec f false a b).1 else (min (intOf f a) (intOf f b) % 2 ^ fmtBits f).toNat
  let start := match code with | 0 => 0 | 1 => extremeBits f false | _ => extremeBits f true
  let xs := ps.map fun p => u.e.cap.a.bits m f p
  (List.range ps.length).map fun i =>
    if r.ctl.getLsbD 2 then (xs.take i).foldl op start
    else match xs.take (i + 1) with
      | x :: t => t.foldl op (canonSpec f x)
      | [] => 0

/-- The puts of the row records in order (R310 to R316). -/
def rowPuts (m : Mem) (u : Run) : Option (Rec × List Put) :=
  let c := u.e.cap
  let rows := rowPoints c.trips
  match u.e.instr with
  | .vsum r | .vdot r | .vmaxr r | .vamax r | .vargmax r => some (r, rows.map fun p => pointPut c.d p (rowSpec m u r (rowActive c p)))
  | .vscan r => some (r, rows.flatMap fun p => ((rowActive c p).zip (scanSpec m u r (rowActive c p))).map fun (q, v) => pointPut c.d q v)
  | .vtopk r =>
    let w := fmtBits r.type
    some (r, rows.flatMap fun p =>
      let l := isort (rankLe r.type) ((rowActive c p).map fun q => (q.t0, c.a.bits m r.type q))
      (l.take r.ctl.toNat).zipIdx.flatMap fun (x, j) =>
        [pointPut c.d { p with t0 := j } (canonSpec r.type x.2), pointPut c.b { p with t0 := j } ((c.c.val.toNat % 2 ^ w + x.1) % 2 ^ w)])
  | _ => none

/-- The table element that an index names: the slot's offset plus the index, within the descriptor's bound, else none (R317). -/
def tableElem (o : Operand) (f : Fmt) (idx : Nat) : Option Nat :=
  let e : Int := slotOff o.slot + idx
  if e < 0 ∨ (descBound o.desc : Int) < (e + 1) * (fmtBits f / 8 : Nat) then none else some e.toNat

/-- The puts of vgath, with zero for an index outside the table; of vscat, in order, .add on what earlier elements left (R317, R318). -/
def tablePuts (m : Mem) (u : Run) : Option (Rec × List Put) :=
  let c := u.e.cap
  let ps := activePoints c
  match u.e.instr with
  | .vgath r => some (r, ps.map fun p => pointPut c.d p (match tableElem c.a r.type (c.b.bits m r.type p) with
      | some e => canonSpec r.type (elemBits m (descBase c.a.desc) r.type e)
      | none => 0))
  | .vscat r =>
    let f := r.type
    let add (a b : Nat) : Nat :=
      if isF f then (deliver f (ovfOf f u.vm.ovf) .rne 0 (vAdd false (decodeVal f a) (decodeVal f b)).1).1 else (a + b) % 2 ^ fmtBits f
    let step (acc : List (Nat × Nat)) (p : Point) : List (Nat × Nat) :=
      match tableElem c.d f (c.a.bits m f p) with
      | none => acc
      | some e =>
        let b := c.b.bits m f p
        let old := match acc.reverse.find? (fun x => decide (x.1 = e)) with
          | some x => x.2
          | none => elemBits m (descBase c.d.desc) f e
        acc ++ [(e, if r.ctl.getLsbD 0 then add old b else canonSpec f b)]
    some (r, (ps.foldl step []).map fun x => elemPut c.d.desc x.1 x.2)
  | _ => none

/-- The bytes of a table. -/
def tableBytes (u : Run) : List (Nat × Nat) :=
  let o := match u.e.instr with
    | .vgath _ => u.e.cap.a
    | _ => u.e.cap.d
  [(descBase o.desc, descBase o.desc + descBound o.desc)]

end Sys2Proof.Claims

open Sys2Proof Sys2Proof.Machine Sys2Proof.Claims

/-- RECORD_COMPLETION of an element-wise record of class 4: each active element of D takes what its rule gives from the sources as they stood, the status word the OR of the flags, and no other bit changes; an integer vadd, vsub, vmul, vmin or vmax gives the exact result modulo 2^w; two such records of the same operands, modes, scratchpad and draws leave the same scratchpad on any two machines, whatever the core, the fused clusters, the time and sched.detmode (R24, R60, R65, R73, R75, R228 to R230, R247, R292, R296, R300 to R309, R319). No flag from an equal-format vcvt, and the flags of an infinite source and of 0 × ∞ + NaN, are the model's choice (logs 31, 34, 37). -/
def Obligations.VectorElementValues : Prop :=
  (∀ (s : State) (core : Nat) (u : Run) (r : Rec) (f : Int → Int → Int) (d : BitVec 128) (sl : Slot),
    let lc := lckey u.e.ref.task u.e.ref.lcore
    let ps := activePoints u.e.cap
    let n := fmtBits r.type / 8
    let at_ (p : Point) : Nat := descBase d + (slotIndex sl p).toNat * n
    ((s.coreAt core).engine .v).run = some u → vecIntForm u.e.instr = some (r, f) → isI r.type = true → r.ctl = 0 → r.se = false →
    u.e.cap.d = .stream d sl → descFmt d = r.type → (∀ p ∈ ps, 0 ≤ slotIndex sl p) →
    (∀ p ∈ ps, ∀ q ∈ ps, slotIndex sl p = slotIndex sl q → p = q) →
    s.touchSpans lc (vecSpans u.e.instr u.e.cap r) = (s, .ok ()) →
    ∃ t, exec (.recordCompletion core .v) s = .next t ∧ ((t.coreAt core).engine .v).run = none ∧
      (∀ p ∈ ps, ((t.lcoreAt lc).sp.read (at_ p) n : Int) =
        f (intOperand (s.lcoreAt lc).sp r.type p u.e.cap.a) (intOperand (s.lcoreAt lc).sp r.type p u.e.cap.b) % 2 ^ fmtBits r.type) ∧
      (∀ a, (∀ p ∈ ps, ¬ within (at_ p) n a) → (t.lcoreAt lc).sp.byte a = (s.lcoreAt lc).sp.byte a) ∧
      (∀ k, k ≠ lc → t.lcoreAt k = s.lcoreAt k) ∧ t.mem = s.mem ∧ t.hostMem = s.hostMem ∧ t.ws = s.ws ∧ t.banks = s.banks ∧ t.strands = s.strands) ∧
  (∀ (s s' : State) (core core' : Nat) (u u' : Run) (r : Rec) (float : Bool),
    let lc := lckey u.e.ref.task u.e.ref.lcore
    let lc' := lckey u'.e.ref.task u'.e.ref.lcore
    ((s.coreAt core).engine .v).run = some u → ((s'.coreAt core').engine .v).run = some u' → elemRec u.e.instr = some (r, float) →
    (float = true → isF r.type = true) → u'.e.instr = u.e.instr → u'.e.cap = u.e.cap → u'.vm = u.vm → s'.drawsOf u'.e = s.drawsOf u.e →
    (s'.lcoreAt lc').sp = (s.lcoreAt lc).sp → s.touchSpans lc (vecSpans u.e.instr u.e.cap r) = (s, .ok ()) →
    s'.touchSpans lc' (vecSpans u.e.instr u.e.cap r) = (s', .ok ()) →
    ∃ t t', exec (.recordCompletion core .v) s = .next t ∧ exec (.recordCompletion core' .v) s' = .next t' ∧
      ∀ a, (t'.lcoreAt lc').sp.byte a = (t.lcoreAt lc).sp.byte a) ∧
  ∀ (s : State) (core : Nat) (u : Run) (r : Rec) (float : Bool),
    let lc := lckey u.e.ref.task u.e.ref.lcore
    let ps := activePoints u.e.cap
    let value (p : Point) := elemSpec s (s.lcoreAt lc).sp u r p
    ((s.coreAt core).engine .v).run = some u → elemRec u.e.instr = some (r, float) → (float = true → isF r.type = true) →
    s.touchSpans lc (vecSpans u.e.instr u.e.cap r) = (s, .ok ()) →
    ∃ t, exec (.recordCompletion core .v) s = .next t ∧ ((t.coreAt core).engine .v).run = none ∧ OnlyTile s t ∧
      WroteAll lc r (ps.map fun p => pointPut u.e.cap.d p (value p).1) s t ∧
      (r.se = true → (t.lcoreAt lc).sp.read (r.stat.toNat * 8) 8 = (statusWord 0 0 0 (orFlags (ps.map fun p => (value p).2))).toNat)

/-- RECORD_COMPLETION of the row reductions, scans, ranks and tables of class 4: vsum, vdot, vmaxr, vamax and vargmax write one element a row, vscan every element, vtopk the k best with their indices, vgath the table's elements or zero, vscat the table in order; no other bit changes; vamax and vquant fold their source into sys.amax and sys.nanseen (R24, R79, R82, R85, R310 to R318). -/
def Obligations.VectorRowValues : Prop :=
  ∀ (s : State) (core : Nat) (u : Run),
    let lc := lckey u.e.ref.task u.e.ref.lcore
    let m := (s.lcoreAt lc).sp
    ((s.coreAt core).engine .v).run = some u →
    (∀ r ws, rowPuts m u = some (r, ws) → s.touchSpans lc (vecSpans u.e.instr u.e.cap r) = (s, .ok ()) →
      ∃ t, exec (.recordCompletion core .v) s = .next t ∧ ((t.coreAt core).engine .v).run = none ∧ OnlyTile s t ∧ WroteAll lc r ws s t) ∧
    (∀ r ws, tablePuts m u = some (r, ws) → isF r.type = true ∨ isI r.type = true → u.done = [] → u.srcs = none →
      s.touchSpans lc (vecSpans u.e.instr u.e.cap r) = (s, .ok ()) →
      (tableBytes u).any (fun p => s.spWaking lc p.1 p.2) = false → (s.lcoreAt lc).unfilledIn (tableBytes u) = [] →
      (∀ y, u.e.instr = .vgath y → ∀ w ∈ ws, ∀ x, Covers w x → ∀ p ∈ tableBytes u, ¬ (8 * p.1 ≤ x ∧ x < 8 * p.2)) →
      ∃ t, exec (.recordCompletion core .v) s = .next t ∧ ((t.coreAt core).engine .v).run = none ∧ OnlyTile s t ∧ WroteAll lc r ws s t) ∧
    ∀ r g, (u.e.instr = .vamax r ∧ g = r.type ∨ u.e.instr = .vquant r ∧ g = r.type2) → isF g = true → s.ownerAlive u.e = true →
      s.touchSpans lc (vecSpans u.e.instr u.e.cap r) = (s, .ok ()) →
      let xs := (activePoints u.e.cap).map fun p => u.e.cap.a.fval m g p
      let old := s.strandAt u.e.ref.key
      ∃ t, exec (.recordCompletion core .v) s = .next t ∧ (t.strandAt u.e.ref.key).nanseen = (old.nanseen || xs.any FVal.isNan) ∧
        (t.strandAt u.e.ref.key).amax.toNat =
          ((xs.filter fun x => !x.isNan).map fun x => (deliver fF64 .ieee .rne 0 x.abs).1).foldl max old.amax.toNat

namespace Sys2Proof.Claims

/-! ## Class 5: what is in a bank -/

/-- V of a cell: its narrow part, its plane, and the net of its entries in the array's Briar buffer (R167). -/
def cellV (s : State) (p k c : Nat) : Int :=
  (s.bankAt k).value c + if (s.arrayAt p).bbank = some k then 2 ^ 24 * briarNet (s.arrayAt p).briar c else 0

/-- A bank's words hold narrow parts, and every V is one that R167 allows. -/
def GoodBank (s : State) (p k : Nat) : Prop :=
  ∀ c, -(2 ^ 23) ≤ (sget 0 (s.bankAt k).cells c).toInt ∧ (sget 0 (s.bankAt k).cells c).toInt < 2 ^ 23 ∧ vInRange (cellV s p k c) = true

/-- The bank with its Briar entries folded in (R168). -/
def foldedBank (s : State) (p k : Nat) : Bank :=
  if (s.arrayAt p).bbank = some k then (s.bankAt k).fold (s.arrayAt p).briar else s.bankAt k

/-- The folding of a bank's entries is a pass. -/
def foldsNow (s : State) (p k : Nat) : Nat := if (s.arrayAt p).bbank = some k ∧ (s.arrayAt p).briar ≠ [] then 1 else 0

/-- A multiplying record, whether A is sparse, whether A comes from the source bank (R327 to R330). -/
def mulForm : Instr → Option (Rec × Bool × Bool)
  | .mma r => some (r, false, r.ctl.getLsbD 5)
  | .mmas r => some (r, true, false)
  | .mmag r => some (r, r.ctl.getLsbD 6, false)
  | _ => none

/-- The kind that a multiplying record needs (R162, R165). -/
def mulKind (r : Rec) (d : Operand) : BKind :=
  if r.type = fI8 ∨ r.type = fN8 ∨ r.type = fI4 then .int
  else if d ≠ .none then .anc (d.val.setWidth 8).toInt
  else if r.type = fF64 then .f64 else .f32

/-- The element of a matrix stream for K position `k` of vector `v` (R324). -/
def matElem (o : Operand) (k v : Nat) : Nat := (slotOff o.slot + k * slotStride o.slot 0 + v * slotStride o.slot 1).toNat

/-- A[i][k] as a value; none where it is inactive or dropped (R324, R328). -/
def factorA (m : Mem) (c : Cap) (r : Rec) (sh : MShape) (src : ASrc) (i k : Nat) : Option FVal :=
  if sh.act ≤ k then none
  else match src with
    | .window f => some (decodeVal r.type (f i (k % sh.K)))
    | .stream => (sh.stored i k).map fun q => streamVal m c.a.desc r.type (matElem c.a q i)

/-- B[k][j] as a value. -/
def factorB (m : Mem) (c : Cap) (r : Rec) (sh : MShape) (j k : Nat) : Option FVal :=
  if sh.act ≤ k then none else some (streamVal m c.b.desc r.type2 (matElem c.b k j))

/-- A[i][k] as an integer, zero where it is inactive or dropped. -/
def wholeA (m : Mem) (c : Cap) (r : Rec) (sh : MShape) (src : ASrc) (i k : Nat) : Int :=
  if sh.act ≤ k then 0
  else match src with
    | .window f => intOf r.type (f i (k % sh.K))
    | .stream => match sh.stored i k with
      | some q => intOf r.type (elemBits m (descBase c.a.desc) r.type (matElem c.a q i))
      | none => 0

/-- B[k][j] as an integer. -/
def wholeB (m : Mem) (c : Cap) (r : Rec) (sh : MShape) (j k : Nat) : Int :=
  if sh.act ≤ k then 0 else intOf r.type2 (elemBits m (descBase c.b.desc) r.type2 (matElem c.b k j))

/-- A product in integer or anchored mode, with its ending (R87, R167). -/
def mulProduct (m : Mem) (c : Cap) (r : Rec) (sh : MShape) (src : ASrc) (i j k : Nat) : Int × Option (BitVec 8) :=
  if mulKind r c.d = .int then (wholeA m c r sh src i k * wholeB m c r sh j k, none)
  else anchored (c.d.val.setWidth 8).toInt (factorA m c r sh src i k) (factorB m c r sh j k)

/-- The sum of the products of the first `n` K indices. -/
def mulSum (m : Mem) (c : Cap) (r : Rec) (sh : MShape) (src : ASrc) (i j n : Nat) : Int :=
  ((List.range n).map fun k => (mulProduct m c r sh src i j k).1).foldl (· + ·) 0

/-- Groups of 16 K indices of a row of A with a column of B (R81). -/
def fpGroups (m : Mem) (c : Cap) (r : Rec) (sh : MShape) (src : ASrc) (i j : Nat) : List (List (Option FVal) × List (Option FVal)) :=
  (List.range ((sh.n + 15) / 16)).map fun g =>
    let ks := (List.range 16).map (16 * g + ·) |>.filter (· < sh.n)
    (ks.map (factorA m c r sh src i), ks.map (factorB m c r sh j))

end Sys2Proof.Claims

open Sys2Proof Sys2Proof.Machine Sys2Proof.Claims

/-- RECORD_COMPLETION of mma, mmas and mmag: D := D ⊕ Σ A × B on every cell of every tile: in integer and anchored mode V gains the exact sum of the products while it stays in range and nothing spills; in FP mode the cell takes the rounded group sums of R81; a bank of another kind ends with KIND, and after any end code every V is as it was (R81, R87, R162, R165 to R169, R174, R327 to R330). That every member of a gang runs to its own end, and what the status word of a gang sums, is the model's choice (log 95). -/
def Obligations.MatrixProductsAccumulate : Prop :=
  ∀ (s : State) (core : Nat) (u : Run) (r : Rec) (sparse asrc : Bool) (src : ASrc),
    let c := u.e.cap
    let lc := lckey u.e.ref.task u.e.ref.lcore
    let m := (s.lcoreAt lc).sp
    let sh := mshape r c sparse
    let ts := s.tilesOf u.e
    let p (x : Tile) := s.clusterOf u.e.ref.task x.j
    let k (x : Tile) := bankKey u.e.ref.task x.j (r.ctl.toNat / 2 % 4)
    let stat (t : State) : Nat := (t.lcoreAt lc).sp.read (r.stat.toNat * 8) 8
    let fits := (∀ x ∈ ts, (s.bankAt (k x)).kind = mulKind r c.d) ∧
      ((asrc = false ∧ src = .stream) ∨ (asrc = true ∧ ∃ x f fl, ts.head? = some x ∧ s.windowOf u.e r u x.j = some (f, fl) ∧ src = .window f))
    ((s.coreAt core).engine .m).run = some u → mulForm u.e.instr = some (r, sparse, asrc) → matRow r.type ≠ 0 →
    s.touchSpans lc (s.matSpans u.e) = (s, .ok ()) →
    ∃ t, exec (.recordCompletion core .m) s = .next t ∧ ((t.coreAt core).engine .m).run = none ∧ t.mem = s.mem ∧
      (∀ b, (∀ x ∈ ts, b ≠ k x ∧ (s.arrayAt (p x)).bbank ≠ some b) → t.bankAt b = s.bankAt b) ∧
      ((∃ x ∈ ts, (s.bankAt (k x)).kind ≠ mulKind r c.d ∨ (asrc = true ∧ ts.head? = some x ∧ s.windowOf u.e r u x.j = none)) → (r.se = true → stat t = 0x04000000) ∧
        ∀ x ∈ ts, (t.bankAt (k x)).kind = (s.bankAt (k x)).kind ∧ ∀ n, cellV t (p x) (k x) n = cellV s (p x) (k x) n) ∧
      (r.se = true → stat t / 2 ^ 24 % 256 ≠ 0 → ∀ x ∈ ts, ∀ n, cellV t (p x) (k x) n = cellV s (p x) (k x) n) ∧
      (fits → mulKind r c.d ≠ .f32 → mulKind r c.d ≠ .f64 → r.ctl.getLsbD 0 = false →
        (∀ x ∈ ts, swf 0 (s.bankAt (k x)).cells = true ∧ GoodBank s (p x) (k x) ∧
          ((s.arrayAt (p x)).briar = [] ∨ ∃ y ∈ ts, p y = p x ∧ (s.arrayAt (p x)).bbank = some (k y))) →
        (∀ x ∈ ts, ∀ i < 128, ∀ j < 128, ∀ g, vInRange (cellV s (p x) (k x) (128 * i + j) +
            mulSum m c r sh src (128 * x.u + i) (128 * x.v + j) (min (16 * g) sh.n)) = true ∧
          ∀ l < sh.n, (mulProduct m c r sh src (128 * x.u + i) (128 * x.v + j) l).2 = none) →
        ∀ x ∈ ts, (t.bankAt (k x)).kind = mulKind r c.d ∧ ∀ i < 128, ∀ j < 128,
          cellV t (p x) (k x) (128 * i + j) = cellV s (p x) (k x) (128 * i + j) + mulSum m c r sh src (128 * x.u + i) (128 * x.v + j) sh.n) ∧
      (fits → (∀ x ∈ ts, swf 0 (s.bankAt (k x)).cells = true) →
        (mulKind r c.d = .f32 → ∀ x ∈ ts, ∀ i < 128, ∀ j < 128, (sget 0 (t.bankAt (k x)).cells (128 * i + j)).toNat =
          (fpCell fF32 (fpGroups m c r sh src (128 * x.u + i) (128 * x.v + j)) (sget 0 (s.bankAt (k x)).cells (128 * i + j)).toNat).1) ∧
        (mulKind r c.d = .f64 → ∀ x ∈ ts, ∀ i < 128, ∀ j < 64, (t.bankAt (k x)).pair i j =
          (fpCell fF64 (fpGroups m c r sh src (128 * x.u + i) (64 * x.v + j)) ((s.bankAt (k x)).pair i j)).1))

/-- RECORD_COMPLETION of mzero, mlda, mdrain, mfold and mstat: a zero bank of its kind; loaded rows, the others as they were; elements written by the conversion of R171, or KIND; entries folded with every V as it was; the history reported (R162, R168, R171, R175, R331 to R335). -/
def Obligations.MatrixBanksLoadDrainFold : Prop :=
  ∀ (s : State) (core : Nat) (u : Run) (r : Rec) (cl : Claim),
    let c := u.e.cap
    let lc := lckey u.e.ref.task u.e.ref.lcore
    let j := cl.base + c.c.val.toNat % 256
    let p := s.clusterOf u.e.ref.task j
    let k := bankKey u.e.ref.task j (r.ctl.toNat / 2 % 4)
    let row0 := ctlRow r
    let rows := tripN c.trips 0
    let cols (n : Nat) := match c.count with | some x => min x n | none => n
    let b := foldedBank s p k
    let kind : BKind := if r.type = fF32 then .f32 else if r.type = fF64 then .f64 else if c.d = .none then .int else .anc (c.d.val.setWidth 8).toInt
    let read (f : Fmt) (i n : Nat) : Nat := if cols (if f = fF64 then 64 else 128) ≤ n then 0 else elemBits (s.lcoreAt lc).sp (descBase c.a.desc) f (matElem c.a n i)
    let stat (t : State) (w : Word) : Prop := r.se = true → (t.lcoreAt lc).sp.read (r.stat.toNat * 8) 8 = w.toNat
    let same (t : State) : Prop := (t.bankAt k).kind = (s.bankAt k).kind ∧ ∀ n, cellV t p k n = cellV s p k n
    let done (t : State) : Prop := exec (.recordCompletion core .m) s = .next t ∧ ((t.coreAt core).engine .m).run = none ∧ t.mem = s.mem ∧
      ∀ x, x ≠ k → t.bankAt x = s.bankAt x
    ((s.coreAt core).engine .m).run = some u → s.claimOf u.e = some cl →
    ((s.arrayAt p).bbank = some k → GoodBank s p k) → s.touchSpans lc (s.matSpans u.e) = (s, .ok ()) →
    (u.e.instr = .mzero r → ∃ t, done t ∧ t.bankAt k = ⟨[], [], kind, 0, 0, 0, 0⟩ ∧ (t.arrayAt p).bbank ≠ some k) ∧
    (u.e.instr = .mlda r → (∀ i < rows, ∀ n < 128, r.type = fI64 → vInRange (intOf fI64 (read fI64 i n)) = true) → row0 + rows ≤ 128 →
      ∃ t, done t ∧ (t.bankAt k).kind = kind ∧ (t.bankAt k).flags = 0 ∧ (t.bankAt k).ended = 0 ∧ (t.bankAt k).carries = 0 ∧ (t.bankAt k).foldn = 0 ∧
        (r.type = fI32 ∨ r.type = fI64 → ∀ i < rows, ∀ n < 128, cellV t p k (128 * (row0 + i) + n) = intOf r.type (read r.type i n)) ∧
        (r.type = fF32 → ∀ i < rows, ∀ n < 128, (sget 0 (t.bankAt k).cells (128 * (row0 + i) + n)).toNat = read fF32 i n) ∧
        (r.type = fF64 → ∀ i < rows, ∀ n < 64, (t.bankAt k).pair (row0 + i) n = read fF64 i n) ∧
        ∀ n, (n < 128 * row0 ∨ 128 * (row0 + rows) ≤ n) → sget 0 (t.bankAt k).cells n = sget 0 b.cells n ∧ sget 0 (t.bankAt k).planes n = sget 0 b.planes n) ∧
    (u.e.instr = .mlda r → (∃ i < rows, ∃ n < 128, r.type = fI64 ∧ vInRange (intOf fI64 (read fI64 i n)) = false) →
      ∃ t, done t ∧ same t ∧ stat t (statusWord 0 0x02 (foldsNow s p k) 0)) ∧
    (u.e.instr = .mdrain r → drainVal b 0 0 r.type u.mm.ovf u.mm.rm 0 = none → ∃ t, done t ∧ same t ∧ stat t (statusWord 0 0x04 (foldsNow s p k) 0) ∧
      WroteAll lc r [] s t) ∧
    (u.e.instr = .mdrain r → drainVal b 0 0 r.type u.mm.ovf u.mm.rm 0 ≠ none →
      let cells := (List.range rows).flatMap fun i => (List.range (cols (if b.kind = .f64 then 64 else 128))).map fun n => (i, n)
      let value (e : Nat × Nat) : Nat × Flags :=
        (drainVal b (row0 + e.1) e.2 r.type u.mm.ovf u.mm.rm (if u.mm.rm = .sr then s.y0 u.e (matElem c.d e.2 e.1) else 0)).getD (0, 0)
      ∃ t, done t ∧ same t ∧ WroteAll lc r (cells.map fun e => elemPut c.d.desc (matElem c.d e.2 e.1) (value e).1) s t ∧
        stat t (statusWord 0 0 (foldsNow s p k) (orFlags (cells.map fun e => (value e).2)))) ∧
    (u.e.instr = .mfold r → ∃ t, done t ∧ same t ∧ stat t (statusWord 0 0 (foldsNow s p k) 0) ∧
      ((s.arrayAt p).bbank = some k → (t.arrayAt p).briar = [])) ∧
    (u.e.instr = .mstat r → ∃ t, done t ∧ same t ∧ stat t (statusWord b.carries b.ended b.foldn b.flags))

namespace Sys2Proof.Claims

/-! ## Class 6 -/

/-- The write of a near element of a transfer or collective record. -/
def nearWrite (f : Fmt) (o : Operand) (p : Point) (v : Nat) : Put := ⟨descBase o.desc, elemBit f (o.index p), fieldBits f, v⟩

/-- The operand is a near stream. -/
def isNear : Operand → Bool
  | .stream .. => true
  | _ => false

/-- The active points that a running record has not done, in order. -/
def pointsLeft (u : Run) : List Point := (activePoints u.e.cap).filter fun p => !sget false u.done (linIndex u.e.cap.trips p)

/-- The address of a far element: base, t0 elements, and the two pitches (R338). -/
def farOf (base : Operand) (c : Cap) (w : Nat) (p : Point) : Int :=
  (base.val.toNat : Int) + p.t0 * w + p.t1 * (c.b.val.setWidth 32).toInt + p.t2 * (c.c.val.setWidth 32).toInt

/-- A later element of the record, done before, has written this one's near destination, which it keeps (R292, R337). -/
def writtenSince (u : Run) (p : Point) : Bool :=
  (activePoints u.e.cap).any fun q => decide (linIndex u.e.cap.trips p < linIndex u.e.cap.trips q ∧ u.e.cap.d.index q = u.e.cap.d.index p) &&
    sget false u.done (linIndex u.e.cap.trips q)

/-- The records that touch no far memory but the weight store: tcopy between streams, tfill of a stream, tfetch (R339 to R341). -/
def nearRec (c : Cap) : Instr → Option Rec
  | .tcopy r => if isNear c.d && isNear c.a then some r else none
  | .tfill r => if isNear c.d then some r else none
  | .tfetch r => some r
  | _ => none

/-- The value that such a record writes at a point: the near source as it stands, the fill's value, or the weight store's bytes. -/
def nearValue (s : State) (core : Nat) (c : Cap) (r : Rec) (p : Point) (m : Mem) : Instr → Nat
  | .tcopy _ => c.a.bits m r.type p
  | .tfill _ => c.a.val.toNat
  | _ => Mem.read (sget [] s.ws (core / 72)) (farOf c.a c (fmtBits r.type / 8) p).toNat (fmtBits r.type / 8)

/-- The address that a far-reading record reads for a point (R339, R342). -/
def readForm (c : Cap) (p : Point) (m : Mem) : Instr → Option (Rec × Int)
  | .tcopy r => if isNear c.d && !isNear c.a then some (r, farOf c.a c (fmtBits r.type / 8) p) else none
  | .tgather r => some (r, (c.a.val.toNat : Int) + c.b.bits m r.type p * (fmtBits r.type / 8 : Nat))
  | _ => none

/-- The address and value that a far-writing record writes for a point (R339, R340, R342). -/
def writeForm (c : Cap) (p : Point) (m : Mem) : Instr → Option (Rec × Int × Nat)
  | .tcopy r => if isNear c.d then none else some (r, farOf c.d c (fmtBits r.type / 8) p, c.a.bits m r.type p)
  | .tfill r => if isNear c.d then none else some (r, farOf c.d c (fmtBits r.type / 8) p, c.a.val.toNat)
  | .tscatter r => some (r, (c.d.val.toNat : Int) + c.a.bits m r.type p * (fmtBits r.type / 8 : Nat), c.b.bits m r.type p)
  | _ => none

/-- The region that tmap, tunmap or tflush leaves in its entry (R343, R344). -/
def mapForm (c : Cap) (old : Region) : Instr → Option (Rec × Region)
  | .tmap r => some (r, ⟨c.a.val, c.b.val.toNat, c.c.val.toNat, true, r.ctl.getLsbD 1, .unfilled, [], 0, false⟩)
  | .tunmap r => some (r, Region.zero)
  | .tflush r => some (r, if old.st = .dirty then { old with st := .filled, lines := [] } else old)
  | _ => none

/-! ## Class 8 -/

/-- One operation of a reduction, the left value first (R379). -/
def redSpec (f : Fmt) (op a b : Nat) : Nat :=
  match op with
  | 0 => if isF f then (deliver f .ieee .rne 0 (vAdd false (decodeVal f a) (decodeVal f b)).1).1 else (a + b) % 2 ^ fmtBits f
  | 1 => if isF f then (pickSpec f true a b).1 else (max (intOf f a) (intOf f b) % 2 ^ fmtBits f).toNat
  | 2 => if isF f then (pickSpec f false a b).1 else (min (intOf f a) (intOf f b) % 2 ^ fmtBits f).toNat
  | 3 => a &&& b
  | 4 => a ||| b
  | _ => a ^^^ b

/-- The input's element count (R373). -/
def collCount (c : Cap) : Nat := (activePoints c).length

/-- The linear points of `n` elements. -/
def linear (n : Nat) : List Point := (List.range n).map fun i => ⟨i, 0, 0, 0⟩

/-- The writes of a record's final value, with global indices for ctopk, at rank `k` of `N` (R65, R379 to R381). -/
def collPuts (c : Cap) (k N : Nat) (vals idxs : List Nat) : Instr → List Put
  | .callred r => ((activePoints c).zip (vals.map (canonSpec r.type))).map fun x => nearWrite r.type c.d x.1 x.2
  | .cbcast r => ((activePoints c).zip vals).map fun x => nearWrite r.type c.d x.1 x.2
  | .credsc r =>
    let m := collCount c / N
    ((linear m).zip ((vals.drop (k * m)).map (canonSpec r.type))).map fun x => nearWrite r.type c.d x.1 x.2
  | .callgath r => ((linear (N * collCount c)).zip vals).map fun x => nearWrite r.type c.d x.1 x.2
  | .ctopk r =>
    let l := linear (min r.ctl.toNat (N * collCount c))
    (l.zip (vals.map (canonSpec r.type))).map (fun x => nearWrite r.type c.d x.1 x.2) ++ (l.zip idxs).map fun x => nearWrite r.type c.c x.1 x.2
  | _ => []

/-- The value of a position and its right neighbour's, joined (R377 to R381). -/
def joined (r : Rec) (vals idxs vs is_ : List Nat) : Instr → List Nat × List Nat
  | .callgath _ => (vals ++ vs, idxs)
  | .ctopk _ =>
    let l := (isort (rankLe r.type) (idxs.zip vals ++ is_.zip vs)).take r.ctl.toNat
    (l.map (·.2), l.map (·.1))
  | _ => (List.zipWith (redSpec r.type (r.ctl.toNat % 8)) vals vs, idxs)

end Sys2Proof.Claims

open Sys2Proof Sys2Proof.Machine Sys2Proof.Claims

/-- RECORD_COMPLETION of class 6: near copies, fills and weight fetches write every element left; the element left of a far record is read from or written to its translated address, held in the record's open region, or counted with TR when refused; tmap, tunmap and tflush set their entry, dirty lines written back first; tprefetch starts the fill or takes pages onto the fault path; twload joins the list (R26, R42, R95, R219, R337 to R346). That each near copy reads what the record's earlier elements wrote is the model's choice (log 12). -/
def Obligations.TransferRecordValues : Prop :=
  ∀ (s : State) (core : Nat) (u : Run),
    let c := u.e.cap
    let lc := lckey u.e.ref.task u.e.ref.lcore
    let m := (s.lcoreAt lc).sp
    let vr := (s.taskAt u.e.ref.task).vr
    let ended (t : State) : Prop := exec (.recordCompletion core .t) s = .next t ∧ ((t.coreAt core).engine .t).run = none
    let stat (r : Rec) (w : Word) (t : State) : Prop := r.se = true → (t.lcoreAt lc).sp.read (r.stat.toNat * 8) 8 = w.toNat
    let ready (r : Rec) : Prop := s.fillsBarred u.e (copySpans c r) = false ∧ s.touchSpans lc (copySpans c r) = (s, .ok ())
    let idx := c.d.val.toNat
    let old := (s.lcoreAt lc).reg idx
    ((s.coreAt core).engine .t).run = some u → u.void = false →
    (∀ r, nearRec c u.e.instr = some r → ready r →
      (∀ y, u.e.instr = .tfetch y → ∀ p ∈ pointsLeft u, s.wsHeld (core / 72) ((farOf c.a c (fmtBits r.type / 8) p).toNat / 0x1000000) = false) →
      ∃ t, ended t ∧ OnlyTile s t ∧ stat r (statusWord u.refused 0 0 u.flags) t ∧
        ∀ a, ¬ InStat r (8 * a) → (t.lcoreAt lc).sp.byte a = ((pointsLeft u).foldl (fun m p =>
          if u.e.instr = .tfetch r ∧ writtenSince u p = true then m else setBits m (nearWrite r.type c.d p (nearValue s core c r p m u.e.instr))) m).byte a) ∧
    (∀ p r x, pointsLeft u = [p] → readForm c p m u.e.instr = some (r, x) → ready r → s.farHeld u.e = false →
      (∀ s1 pa, 0 ≤ x → x % (fmtBits r.type / 8 : Nat) = 0 → copyFmt r.type = true → s.farBarred u.e x.toNat (fmtBits r.type / 8) = false →
        s.xlate (s.recAcc core u.e rR) x.toNat = (s1, .ok pa) →
        ∃ t, ended t ∧ (∀ a, t.mem.byte a = s1.mem.byte a) ∧ stat r (statusWord u.refused 0 0 u.flags) t ∧
          WroteAll lc r (if writtenSince u p then [] else [nearWrite r.type c.d p (s1.mem.read pa (fmtBits r.type / 8))]) s t) ∧
      (x < 0 ∨ (0 ≤ x ∧ x % (fmtBits r.type / 8 : Nat) = 0 ∧ copyFmt r.type = true ∧ s.farBarred u.e x.toNat (fmtBits r.type / 8) = false ∧
          ∃ s1 va, s.xlate (s.recAcc core u.e rR) x.toNat = (s1, .refused va)) →
        ∃ t, ended t ∧ stat r (statusWord (u.refused + 1) 0 0 (u.flags ||| fTR)) t ∧ WroteAll lc r [] s t)) ∧
    (∀ p r x v, pointsLeft u = [p] → writeForm c p m u.e.instr = some (r, x, v) → ready r → copyFmt r.type = true →
      (∀ s1 pa, s.holdsFar u.e = false → s.farHeld u.e = false → 0 ≤ x → x % (fmtBits r.type / 8 : Nat) = 0 → s.farBarred u.e x.toNat (fmtBits r.type / 8) = false →
        s.xlate (s.recAcc core u.e rW) x.toNat = (s1, .ok pa) →
        ∃ t, ended t ∧ stat r (statusWord u.refused 0 0 u.flags) t ∧ WroteAll lc r [] s t ∧
          ∀ a, t.mem.byte a = if pa ≤ a ∧ a < pa + fmtBits r.type / 8 then byteOf v (a - pa) else s1.mem.byte a) ∧
      (s.holdsFar u.e = true → 0 ≤ x → ∃ t, ended t ∧ OnlyTile s t ∧ stat r (statusWord u.refused 0 0 u.flags) t ∧ WroteAll lc r [] s t ∧
        ∀ a, heldByte (s.places lc) (t.strandAt u.e.ref.key).rsb a = match placeAmong (s.places lc) x.toNat (fmtBits r.type / 8) a with
          | some i => some (byteOf v i)
          | none => heldByte (s.places lc) (s.strandAt u.e.ref.key).rsb a) ∧
      (x < 0 → ∃ t, ended t ∧ stat r (statusWord (u.refused + 1) 0 0 (u.flags ||| fTR)) t ∧ WroteAll lc r [] s t ∧ t.mem = s.mem)) ∧
    (∀ r new, mapForm c old u.e.instr = some (r, new) → s.touchSpans lc ((statFoot r).map fun f => (f.lo, f.hi)) = (s, .ok ()) →
      (r.se = true → old.meets (r.stat.toNat * 8) (r.stat.toNat * 8 + 8) = false) →
      (old.st ≠ .dirty → ∃ t, ended t ∧ OnlyTile s t ∧ (t.lcoreAt lc).reg idx = new ∧ WroteAll lc r [] s t) ∧
      (∀ s1, old.st = .dirty → s.holdsFar u.e = false → (∀ i ∈ old.marked, s.farBarred u.e (old.va.toNat + (old.line i).1) (old.line i).2 = false) →
        s.writeBack lc idx = (s1, .ok ()) →
        ∃ t, ended t ∧ t.mem = s1.mem ∧ (t.lcoreAt lc).reg idx = new ∧ WroteAll lc r [] s t)) ∧
    (∀ r, u.e.instr = .tprefetch r → r.ctl.getLsbD 0 = false →
      ∃ t, ended t ∧ t.agenda = s.agenda ++ [.event (.regionFill u.e.ref.task u.e.ref.lcore idx)] ∧ OnlyTile s t) ∧
    (∀ r v, u.e.instr = .tprefetch r → r.ctl.getLsbD 0 = true → s.vrAt vr = some v →
      (∀ pg ∈ pagesOf c.a.val.toNat c.b.val.toNat, ∀ y, faultKind (s.walkVr v (pg * 65536)) = some y → y.1 ≠ .pull) →
      ∃ t, ended t ∧ t.mem = s.mem ∧ ∀ pg ∈ pagesOf c.a.val.toNat c.b.val.toNat, pg * 65536 < 2 ^ 56 →
        ∀ y, faultKind (s.walkVr v (pg * 65536)) = some y → ∃ f ∈ t.faults, f.vr = vr ∧ f.page = pg ∧ f.ipa = y.2.1) ∧
    (∀ r, u.e.instr = .twload r → s.touchSpans lc ((statFoot r).map fun f => (f.lo, f.hi)) = (s, .ok ()) →
      ∃ t, ended t ∧ OnlyTile s t ∧ WroteAll lc r [] s t ∧
        (t.lcoreAt lc).twloads = (s.lcoreAt lc).twloads ++ [⟨c.a.val.toNat, c.d.val.toNat, c.b.val.toNat, u.e.pc⟩])

/-- RECORD_COMPLETION of class 8: with one rank every record writes its own input reduced, gathered or ranked; rank 0 joins the last position to its own, and any other rank takes the value from above, and each writes its part; contributions that disagree end with NV and nothing written; cbar ends when all have come; cjoin founds its communicator, or fails it when a join disagrees (R65, R373 to R382). -/
def Obligations.CollectiveRecordValues : Prop :=
  ∀ (s : State) (core : Nat) (u : Run) (r : Rec) (sp : RecSpec) (ok : Bool) (cm : Comm) (k : Coll),
    let c := u.e.cap
    let lc := lckey u.e.ref.task u.e.ref.lcore
    let idx := commOf u.e.instr c
    let q : CCtx := ⟨core, u.e, r, lc, idx, cm, (s.taskAt u.e.ref.task).vr⟩
    let settled (l : List (Nat × Nat)) : Prop := (l.any fun p => s.spWaking lc p.1 p.2) = false ∧ (s.lcoreAt lc).unfilledIn l = []
    let free (t : State) : Prop := ((t.coreAt core).engine .c).run = none
    let stat (w : Word) (t : State) : Prop := r.se = true → (t.lcoreAt lc).sp.read (r.stat.toNat * 8) 8 = w.toNat
    let x := (activePoints c).map fun p => c.a.bits (s.lcoreAt lc).sp r.type p
    ((s.coreAt core).engine .c).run = some u → recPlan u.e.instr = some (r, sp, ok) → u.coll = some k → k.out = [] →
    ((∃ y, u.e.instr = .cjoin y) ∨
      (sget none (s.lcoreAt lc).comms idx = some cm →
        (cm = ⟨1, cm.members, 0, true, cm.inst, cm.owed⟩ → k = Coll.init → collCode u.e.instr ≠ 7 → rootOf u.e = 0 → settled q.spans →
          let l := (isort (rankLe r.type) ((List.range x.length).zip x)).take r.ctl.toNat
          ∃ t, exec (.recordCompletion core .c) s = .next t ∧ free t ∧ OnlyTile s t ∧ stat 0 t ∧
            WroteAll lc r (collPuts c 0 1 (if collCode u.e.instr = 6 then l.map (·.2) else x) (l.map (·.1)) u.e.instr) s t) ∧
        (∀ vs is_ fl, k.phase = 2 → cm.rank = 0 → 2 ^ k.level < cm.n → cm.n ≤ 2 ^ (k.level + 1) →
          q.take s k.inst (2 ^ k.level) 2 k.level (2 ^ k.level) (q.posCount (2 ^ k.level) k.level) = some (vs, is_, fl) →
          ∃ t, exec (.recordCompletion core .c) s = .next t ∧
            WroteAll lc r (collPuts c 0 cm.n (joined r k.vals k.idxs vs is_ u.e.instr).1 (joined r k.vals k.idxs vs is_ u.e.instr).2 u.e.instr) s t) ∧
        (∀ vs is_ fl, k.phase = 3 → (cm.rank = 0 ∧ q.take s k.inst (rootOf u.e) 4 0 0 q.wholeCount = some (vs, is_, fl) ∨
            cm.rank ≠ 0 ∧ q.take s k.inst (cm.rank - 2 ^ upLevel cm.rank 16 0) 3 (upLevel cm.rank 16 0) 0 q.wholeCount = some (vs, is_, fl)) →
          ∃ t, exec (.recordCompletion core .c) s = .next t ∧ WroteAll lc r (collPuts c cm.rank cm.n vs is_ u.e.instr) s t) ∧
        (k.phase = 1 → q.contributed s k.inst = some true → collCode u.e.instr = 7 →
          ∃ t, exec (.recordCompletion core .c) s = .next t ∧ free t ∧ OnlyTile s t ∧ stat (statusWord 0 0 0 k.flags) t ∧ WroteAll lc r [] s t) ∧
        (k.phase = 1 → q.contributed s k.inst = some false →
          ∃ t, exec (.recordCompletion core .c) s = .next t ∧ free t ∧ OnlyTile s t ∧ stat 1 t ∧ WroteAll lc r [] s t))) ∧
    (∀ y, u.e.instr = .cjoin y →
      (∀ v, k = Coll.init → tripN c.trips 0 = 1 → c.a.bits (s.lcoreAt lc).sp fN32 ⟨0, 0, 0, 0⟩ = q.vr → q.vr < 2 ^ 20 → s.vrAt q.vr = some v →
        s.heldElsewhere u.e.ref.task lc idx = false → (∀ y l, sget none (s.lcoreAt lc).comms idx = some y → y.owed = some l → l = []) → settled (c.a.spans (linear 1) ++ (statFoot r).map fun f => (f.lo, f.hi)) →
        ∃ t, exec (.recordCompletion core .c) s = .next t ∧ free t ∧ OnlyTile s t ∧ stat 0 t ∧ WroteAll lc r [] s t ∧
          sget none (t.lcoreAt lc).comms idx = some ⟨1, [q.vr], 0, true, 0, none⟩) ∧
      (∀ good, sget none (s.lcoreAt lc).comms idx = some cm → k.phase = 1 → q.joinsAgree (s.taskAt u.e.ref.task).launch s = some good →
        ∃ t, exec (.recordCompletion core .c) s = .next t ∧ free t ∧ OnlyTile s t ∧ stat (if good then 0 else 1) t ∧ WroteAll lc r [] s t ∧
          sget none (t.lcoreAt lc).comms idx = some { cm with good := good && cm.good, owed := none }))

/-- Scalar instructions that a check refuses, and the cause: stores and atomics to the weight store PRIV (R98), barc and barg in a handler PRIV (R281), an open region (R44), a floating atomic add of a deterministic VR (R227), MISALIGNED and SPAD_BOUND with the address (R90, R97, R254). -/
def Obligations.ScalarChecksTrap : Prop :=
  ∀ (s : State) (i : Instr), Enters s →
    let trapped (cause : BitVec 8) (va : Word) (cls : BitVec 4) : Prop :=
      ∃ t, exec i s = .next t ∧ OnlyMe s t ∧ t.me = entered cause va none cls s.me.pc s.me
    (writesWs i = true → trapped 0x08 0 1) ∧
    ((i = .barc ∨ i = .barg) → s.me.handler = true → trapped 0x08 0 3) ∧
    (∀ cls, regionForm i = some cls → s.me.region = true → s.me.handler = false →
      (∀ r, i = .twload r → ∃ v, s.vrAt s.myVrId = some v ∧ s.holdsDie v.fn (dieOf s.myCore) = true) → trapped 0x0F 0 cls) ∧
    (∀ d a b m, i = .atom 7 d a b m → (m.space = .sp ∨ (m.space = .gv ∧ s.me.region = false)) → s.detmode = true → trapped 0x10 0 1) ∧
    (∀ x m, accessForm s i = some (x, m) → (∀ q ∈ accessRegs i, s.me.pois q = none) →
      (m.space = .sp ∨ (m.space = .gv ∧ s.me.region = false) ∨ (m.space = .ws ∧ writesWs i = false)) →
      (∀ d a b, i = .atom 7 d a b m → s.detmode = false) →
      (x.toNat % widthBytes m.width ≠ 0 → trapped 0x06 x 1) ∧
      (x.toNat % widthBytes m.width = 0 → m.space = .sp → s.myQuota < x.toNat + widthBytes m.width → trapped 0x05 x 1) ∧
      (x.toNat % widthBytes m.width = 0 → m.space = .ws → 2 ^ 28 < x.toNat + widthBytes m.width → trapped 0x05 x 1))

/-- Decoding an encoded well-formed instruction gives it back, and what decodes is well formed and encodes to the words read (R235, R238 to R252, R355). -/
def Obligations.DecodeInvertsEncode : Prop :=
  (∀ (i : Instr) (ws rest : List Word), i.wf = true → encode i = some ws → decode (ws ++ rest) = .ok (i, rest)) ∧
  (∀ (ws rest : List Word) (i : Instr), decode ws = .ok (i, rest) → i.wf = true ∧ ∃ us, encode i = some us ∧ ws = us ++ rest)

/-- Words written out from the encodings decode to their instructions; words of undefined classes and opcodes and broken fields are refused by name (R235, R238 to R252, R254, R355). -/
def Obligations.DecodeWords : Prop :=
  decode [0x0051_90A0_0000_0000] = .ok (.div false 3 4 5, []) ∧
  decode [0x1020_1C61_6B80_0000] = .ok (.st 3 7 ⟨1, .gv, .n32, .gang, .rel, 0⟩, []) ∧
  decode [0x2060_0000_0003_0004] = .ok (.loop 0 0 3 4, []) ∧
  decode [0x3020_1000_0001_0043] = .ok (.semsig 3 1 true 4, []) ∧
  decode [0x7013_9800_7002_8C01] = .ok (.rld true 7 6 3 5 ⟨0, .i64, .strand, .plain⟩, []) ∧
  decode [0x9040_0002_0000_0006] = .ok (.qfence .t 6, []) ∧
  decode [0xA000_0000_0000_0000] = .error .illegalClass ∧
  decode [0x0260_0000_0000_0000] = .error .illegalOp ∧
  decode [0x1020_1C71_6B80_0000] = .error .illegalField

/-- A turn of a strand runs the instruction that it is blocked at, or fetches at its pc: words that decode run as exec of their instruction on the state that the fetch leaves, where the strand is past the yield it retired; afterwards a blocked strand stays at the instruction, and at that yield, and of one that goes on nothing is left on the fault path; words that do not decode trap, and a fetch that waits blocks (R31, R33, R34, R235, R254). An event of the agenda runs as its own instruction. -/
def Obligations.StepRunsDecoded : Prop :=
  ∀ (s : State) (t : Turn) (rest : List Turn), s.power = true → s.filled.agenda = t :: rest →
    let s0 := { s.filled with agenda := rest }
    (∀ i, t = .event i → step s = exec i s0) ∧
    (∀ r, t = .strand r → s0.canIssue r = false → step s = .next s0) ∧
    (∀ c, t = .dispatch c → (s0.judgeCore c).pick c = none → step s = .next (s0.judgeCore c)) ∧
    (∀ (r : Ref) (u s1 s2 : State) (w : Word) (ws : List Word),
      ((t = .strand r ∧ s0.canIssue r = true ∧ u = s0.toIssue r) ∨
        ∃ c n, t = .dispatch c ∧ (s0.judgeCore c).pick c = some (n, r) ∧ u = (s0.judgeCore c).toIssue r) →
      let ready (x : State) : State := x.onMe fun y => { y with atYield := false }
      let runs (i : Instr) (x : State) : Prop :=
        (∀ y, exec i (ready x) = .next y → step s = .next (if (y.strandAt x.cur.key).status = .blocked then
            y.onStrand x.cur.key fun z => { z with ir := some i, atYield := x.me.atYield }
          else (y.settle (.strand x.cur.key)).onStrand x.cur.key fun z => { z with ir := none })) ∧
        (∀ f, exec i (ready x) = .fault f → step s = .fault f) ∧ ∀ f, exec i (ready x) = .refused f → step s = .refused f
      (∀ i, u.me.ir = some i → runs i u) ∧
      (u.me.ir = none → u.fetchWords u.me.pc 1 = (s1, .wait) → step s = .next (s1.onMe fun y => { y with status := .blocked })) ∧
      (u.me.ir = none → u.fetchWords u.me.pc 1 = (s1, .ok [w]) →
        (isRecordWord w = false → s2 = s1 ∧ ws = [w]) → (isRecordWord w = true → ∃ vs, s1.fetchWords (s1.me.pc + 1) 7 = (s2, .ok vs) ∧ ws = w :: vs) →
        (∀ i, decode ws = .ok (i, []) → i.wf = true ∧ runs i s2) ∧
        (∀ e, decode ws = .error e → step s = .next ((ready s2).takeTrap (w.extractLsb' 60 4)
          { cause := match e with | .illegalClass => 0x01 | .illegalOp => 0x02 | _ => 0x03 }))))

namespace Sys2Proof.Claims

/-- Every byte memory of the machine, device, host, weight stores and scratchpads, is in its canonical form: addresses rising, no byte listed that an unlisted address reads as. -/
structure Canonical (s : State) : Prop where
  device : Mem.wf s.mem
  host : Mem.wf s.hostMem
  weights : ∀ e ∈ s.ws, Mem.wf e.2
  scratch : ∀ e ∈ s.lcores, Mem.wf e.2.sp

/-- A test of the catalogue allows that read `i` returns `x` and read `j` returns `y` (R144). -/
def shows (k : Order.Case) (i x j y : Nat) : Bool := k.allows fun c => decide (c.value k i = x ∧ c.value k j = y)

/-- IRIW shows 1, 0, 1, 0 (R151). -/
def iriwShows (k : Order.Case) : Bool :=
  k.allows fun c => decide (c.value k 2 = 1 ∧ c.value k 3 = 0 ∧ c.value k 4 = 1 ∧ c.value k 5 = 0)

end Sys2Proof.Claims

open Sys2Proof Sys2Proof.Machine Sys2Proof.Claims

/-- Every step, from any state whose memories are in canonical form, leaves them so: equal memories stay equal data. -/
def Obligations.MemoriesStayCanonical : Prop :=
  ∀ s t : State, Canonical s → step s = .next t → Canonical t

/-- After reset: slot table, sched.binderr, sched.detmode and sys.cycle 0, a period of 1,048,576 cycles, pointers at their last requester, no VR, empty queues, unlimited allotments, rings with phase 1, eight active wavelengths with thresholds of 1,024, memories canonical, and the machine runs (R184, R209 to R211, R213, R218, R223, R227, R289, R395). That every byte reads 0 is log entry 4's choice. -/
def Obligations.ResetState : Prop :=
  let s := State.reset
  (∀ k, sget 0 s.binds k = 0) ∧ (∀ k, (s.taskAt k).entry = 0) ∧ s.binderr = 0 ∧ s.detmode = false ∧ s.cycle = 0 ∧ s.period = 1048576 ∧
  (∀ c, (s.coreAt c).ptr = 15 ∧ ∀ e, ((s.coreAt c).engine e).q = [] ∧ ((s.coreAt c).engine e).run = none) ∧ (∀ v, s.vrAt v = none) ∧
  (∀ f, (∀ r, (s.fnAt f).allotOf r = 0xFFFFFFFF) ∧ (s.fnAt f).energy = 0 ∧ ∀ n, (s.fnAt f).ring n = ⟨0, 0, 0, true, 0⟩) ∧
  (∀ q, (s.portAt q).lanes = 0x5555 ∧ sget 1024 s.lanethr q = 1024) ∧
  Canonical s ∧ (∀ a, s.mem.byte a = 0 ∧ s.hostMem.byte a = 0) ∧ ∃ t, step s = .next t

/-- The ordering tests: which outcomes the axioms R130 to R143 allow in MP, SB, LB, IRIW, CoRR, ATOM, BAR+v, TF+v, SCOPE, RMP, RDUP, HND and DRN with their variants (R146 to R160). That the remote variant of RMP reads with a plain rld, and the class of a barrier's accesses, are the model's choice (logs 57, 111). -/
def Obligations.OrderingTests : Prop :=
  let f := Order.fence6
  (shows (Order.mp 0 0 0 0 [] none none) 2 1 3 0 = false ∧ shows (Order.mp 1 2 2 1 [] none none) 2 1 3 0 = true ∧
    shows (Order.mp 1 2 2 1 [f 0, f 1] none none) 2 1 3 0 = false ∧ shows (Order.mp 1 2 2 1 [f 0] none none) 2 1 3 0 = true ∧
    shows (Order.mp 1 2 2 3 [] (some 3) (some 3)) 2 1 3 0 = false) ∧
  (shows (Order.sb 1 2 []) 1 0 3 0 = true ∧ shows (Order.sb 1 2 [f 0, f 1]) 1 0 3 0 = false ∧ shows (Order.sb 0 0 []) 1 0 3 0 = false) ∧
  (shows (Order.lb [] []) 0 1 2 1 = true ∧ shows (Order.lb [] [(0, 1), (2, 3)]) 0 1 2 1 = false ∧
    shows (Order.lb [f 0, f 1] []) 0 1 2 1 = false) ∧
  (iriwShows (Order.iriw 1) = false ∧ iriwShows (Order.iriw 2) = true) ∧
  (shows Order.corr 2 2 3 1 = false ∧ shows Order.corr 2 1 3 0 = false ∧ shows Order.corr 2 2 3 0 = false ∧
    shows Order.corrFill 2 2 3 1 = true ∧ shows Order.corrFill 2 1 3 0 = true) ∧
  (Order.atomShows 2 0 1 = true ∧ Order.atomShows 2 1 0 = true ∧ Order.atomShows 1 0 0 = false ∧ Order.atomShows 2 1 1 = false) ∧
  (shows (Order.barV []) 3 0 3 0 = true ∧ shows (Order.barV [⟨0, 1, .xfence .v .s⟩]) 3 0 3 0 = false) ∧
  (Order.tfvShows (Order.tfv [⟨0, 3, .xfence .t .s⟩]) 0 = false ∧ Order.tfvShows (Order.tfv [⟨0, 3, .xfence .t .s⟩]) 1 = true ∧
    Order.tfvShows (Order.tfv []) 0 = true) ∧
  (Order.scopeShows (Order.scopeCase 1 false) 1 0 0x6421 = true ∧ Order.scopeShows (Order.scopeCase 1 false) 1 0 0 = false ∧
    Order.scopeShows (Order.scopeCase 1 false) 0 0 0x6421 = false ∧ shows (Order.scopeCase 3 false) 2 1 3 0 = false ∧
    shows (Order.scopeCase 1 true) 2 1 3 0 = false) ∧
  (shows (Order.rmp 1 2 2 3 (some 6) (some 6) 1) 2 1 3 0 = false ∧ shows (Order.rmp 1 2 2 3 (some 5) (some 6) 1) 2 1 3 0 = true ∧
    shows (Order.rmp 1 1 1 1 none none 1) 2 1 3 0 = false ∧ shows (Order.rmp 1 2 2 3 (some 6) (some 6) 2) 2 1 3 0 = true) ∧
  (Order.rdupShows true true 2 1 = false ∧ (Order.rdup true true).allows (fun c => decide (c.final (Order.rdup true true) 0 = 1)) = false ∧
    Order.rdupShows true false 0 1 = true ∧ Order.rdupShows true false 1 1 = true ∧ Order.rdupShows false false 0 0 = true ∧
    Order.rdupShows true false 1 0 = false ∧ Order.rdupShows false true 2 0 = false) ∧
  (shows (Order.hnd 2 true) 2 2 3 1 = true ∧ shows (Order.hnd 2 true) 2 0 3 1 = false ∧ shows (Order.hnd 2 true) 2 2 3 0 = false ∧
    shows (Order.hnd 2 false) 2 2 3 0 = true ∧ shows (Order.hnd 1 false) 2 2 3 0 = false ∧ shows Order.hndFill 2 0 3 1 = true) ∧
  (Order.drnShows true 3 = true ∧ Order.drnShows true 0 = false ∧ Order.drnShows false 0 = true ∧ Order.drnOneShows 3 = true ∧
    Order.drnOneShows 0 = false)
end

