-- ==== Sys2Proof/Laws/Alu.lean ====
section
/-! SUPPORT. Laws/Alu.lean: the value functions of class 0 as arithmetic on the operands' signed and unsigned numbers (R260 to R265). -/

namespace Sys2Proof.Machine

theorem mul_val (a b : Word) : a * b = BitVec.ofNat 64 (a.toNat * b.toNat) := by
  apply BitVec.eq_of_toNat_eq; simp [BitVec.toNat_mul]

theorem shAmt_val (b : Word) : shAmt b = b.toNat % 64 := by
  simp [shAmt, BitVec.extractLsb'_toNat]

theorem shl_val (a : Word) (n : Nat) : a <<< n = BitVec.ofNat 64 (a.toNat * 2 ^ n) := by
  apply BitVec.eq_of_toNat_eq; simp [BitVec.toNat_shiftLeft, Nat.shiftLeft_eq]

theorem shr_val (a : Word) (n : Nat) : a >>> n = BitVec.ofNat 64 (a.toNat / 2 ^ n) := by
  apply BitVec.eq_of_toNat_eq
  rw [BitVec.toNat_ushiftRight, Nat.shiftRight_eq_div_pow, BitVec.toNat_ofNat]
  exact (Nat.mod_eq_of_lt (lt_of_le_of_lt (Nat.div_le_self _ _) a.isLt)).symm

theorem sar_val (a : Word) (n : Nat) : a.sshiftRight n = BitVec.ofInt 64 (a.toInt / 2 ^ n) := by
  rw [BitVec.sshiftRight, Int.shiftRight_eq_div_pow]; norm_cast

theorem boolWord_val (c : Prop) [Decidable c] : boolWord (decide c) = if c then 1 else 0 := by
  unfold boolWord; by_cases h : c <;> simp [h]

theorem mulh_uu_val (a b : Word) : mulhVal .uu a b = BitVec.ofNat 64 (a.toNat * b.toNat / 2 ^ 64) := by
  apply BitVec.eq_of_toNat_eq
  have h : a.toNat * b.toNat < 2 ^ 128 := by
    have := Nat.mul_lt_mul'' a.isLt b.isLt
    simpa using this
  unfold mulhVal
  simp only [BitVec.extractLsb'_toNat, BitVec.toNat_mul, BitVec.toNat_setWidth, Nat.shiftRight_eq_div_pow, BitVec.toNat_ofNat]
  rw [Nat.mod_eq_of_lt (lt_trans a.isLt (by norm_num)), Nat.mod_eq_of_lt (lt_trans b.isLt (by norm_num)), Nat.mod_eq_of_lt h]

/-- Bits 127:64 of a 128-bit word are the floor of its signed number over 2^64. -/
theorem high_val (x : BitVec 128) : x.extractLsb' 64 64 = BitVec.ofInt 64 (x.toInt / 2 ^ 64) := by
  apply BitVec.eq_of_toInt_eq
  have hx := x.isLt
  rw [BitVec.toInt_ofInt, BitVec.toInt_eq_toNat_bmod, BitVec.toInt_eq_toNat_bmod, BitVec.extractLsb'_toNat, Nat.shiftRight_eq_div_pow]
  rw [Int.bmod_def, Int.bmod_def, Int.bmod_def]
  norm_num
  split <;> split <;> split <;> omega

theorem mulh_ss_val (a b : Word) : mulhVal .ss a b = BitVec.ofInt 64 (a.toInt * b.toInt / 2 ^ 64) := by
  unfold mulhVal
  simp only [high_val, BitVec.toInt_mul, BitVec.toInt_signExtend]
  congr 2
  have ha := BitVec.toInt_lt (x := a); have ha' := BitVec.le_toInt (x := a)
  have hb := BitVec.toInt_lt (x := b); have hb' := BitVec.le_toInt (x := b)
  rw [Int.bmod_eq_of_le (n := a.toInt) (by norm_num at *; omega) (by norm_num at *; omega),
    Int.bmod_eq_of_le (n := b.toInt) (by norm_num at *; omega) (by norm_num at *; omega)]
  norm_num at ha ha' hb hb'
  refine Int.bmod_eq_of_le ?_ ?_ <;> norm_num <;> nlinarith

theorem mulh_su_val (a b : Word) : mulhVal .su a b = BitVec.ofInt 64 (a.toInt * (b.toNat : Int) / 2 ^ 64) := by
  unfold mulhVal
  simp only [high_val, BitVec.toInt_mul, BitVec.toInt_signExtend, BitVec.toInt_setWidth]
  congr 2
  have ha := BitVec.toInt_lt (x := a); have ha' := BitVec.le_toInt (x := a)
  have hb := b.isLt
  rw [Int.bmod_eq_of_le (n := a.toInt) (by norm_num at *; omega) (by norm_num at *; omega),
    Int.bmod_eq_of_le (n := (b.toNat : Int)) (by norm_num at *) (by norm_num at *; omega)]
  norm_num at ha ha'
  have hb2 : (b.toNat : Int) < 18446744073709551616 := by norm_num at hb; exact_mod_cast hb
  have hb0 : (0 : Int) ≤ b.toNat := Int.natCast_nonneg _
  refine Int.bmod_eq_of_le ?_ ?_ <;> norm_num <;> nlinarith

theorem div_val (u : Bool) (a b : Word) : divVal u a b =
    if b = 0 then BitVec.allOnes 64
    else if u then BitVec.ofNat 64 (a.toNat / b.toNat)
    else BitVec.ofInt 64 (a.toInt.tdiv b.toInt) := by
  unfold divVal
  by_cases hb : b = 0
  · simp only [hb, if_true]; decide
  · simp only [hb, if_false]
    cases u
    · simp only [Bool.false_eq_true, if_false]
      by_cases h : a = 0x8000000000000000 ∧ b = 0xFFFFFFFFFFFFFFFF
      · obtain ⟨rfl, rfl⟩ := h; decide
      · simp only [h, if_false]
    · simp only [if_true]
      apply BitVec.eq_of_toNat_eq
      rw [BitVec.toNat_udiv, BitVec.toNat_ofNat]
      exact (Nat.mod_eq_of_lt (lt_of_le_of_lt (Nat.div_le_self _ _) a.isLt)).symm

theorem rem_val (u : Bool) (a b : Word) : remVal u a b =
    if b = 0 then a
    else if u then BitVec.ofNat 64 (a.toNat % b.toNat)
    else BitVec.ofInt 64 (a.toInt.tmod b.toInt) := by
  unfold remVal
  by_cases hb : b = 0
  · simp only [hb, if_true]
  · simp only [hb, if_false]
    cases u
    · simp only [Bool.false_eq_true, if_false]
      by_cases h : a = 0x8000000000000000 ∧ b = 0xFFFFFFFFFFFFFFFF
      · obtain ⟨rfl, rfl⟩ := h; decide
      · simp only [h, if_false]
        congr 1
        rw [Int.tmod_def, mul_comm]
    · simp only [if_true]
      have : a - a / b * b = a % b := by
        apply BitVec.eq_of_toNat_eq
        have h1 : a.toNat / b.toNat * b.toNat ≤ a.toNat := Nat.div_mul_le_self _ _
        rw [BitVec.toNat_sub, BitVec.toNat_mul, BitVec.toNat_udiv, BitVec.toNat_umod]
        rw [Nat.mod_eq_of_lt (lt_of_le_of_lt h1 a.isLt)]
        have h2 := Nat.div_add_mod a.toNat b.toNat
        have h3 := a.isLt
        rw [mul_comm] at h2
        have h4 : 2 ^ 64 - a.toNat / b.toNat * b.toNat + a.toNat = 2 ^ 64 + a.toNat % b.toNat := by omega
        rw [h4, Nat.add_mod_left, Nat.mod_eq_of_lt (lt_of_le_of_lt (Nat.mod_le _ _) a.isLt)]
      rw [this]
      apply BitVec.eq_of_toNat_eq
      rw [BitVec.toNat_umod, BitVec.toNat_ofNat]
      exact (Nat.mod_eq_of_lt (lt_of_le_of_lt (Nat.mod_le _ _) a.isLt)).symm

theorem min_val (u : Bool) (a b : Word) : minVal u a b =
    if (if u then b.toNat < a.toNat else b.toInt < a.toInt) then b else a := by
  unfold minVal; cases u <;> simp [BitVec.slt, BitVec.ult]

theorem max_val (u : Bool) (a b : Word) : maxVal u a b =
    if (if u then a.toNat < b.toNat else a.toInt < b.toInt) then b else a := by
  unfold maxVal; cases u <;> simp [BitVec.slt, BitVec.ult]

theorem lih_val (i : BitVec 32) (x : Word) :
    (i ++ x.extractLsb' 0 32 : Word) = BitVec.ofNat 64 (i.toNat * 2 ^ 32 + x.toNat % 2 ^ 32) := by
  apply BitVec.eq_of_toNat_eq
  have h := i.isLt
  have hx : x.toNat % 2 ^ 32 < 2 ^ 32 := Nat.mod_lt _ (by norm_num)
  rw [BitVec.toNat_append, BitVec.extractLsb'_toNat, Nat.shiftRight_zero, BitVec.toNat_ofNat, Nat.shiftLeft_eq, mul_comm i.toNat, ← Nat.two_pow_add_eq_or_of_lt hx]
  exact (Nat.mod_eq_of_lt (by omega)).symm

theorem bnd_val (a b : Word) : bndVal a b = if a.toNat < b.toNat then a else if b = 0 then 0 else b - 1 := by
  unfold bndVal
  by_cases hb : b = 0
  · subst hb; simp
  · simp only [hb, if_false]
    by_cases h : a.toNat < b.toNat <;> simp [BitVec.ult, h]

end Sys2Proof.Machine
end

