-- ==== Sys2Proof/Laws/Encoding.lean ====
section
/-! SUPPORT. Laws/Encoding.lean: the fields of words and records come back from the words they are joined into; codes of named fields come back; what decoding an encoded word comes to. -/

namespace Sys2Proof

/-! ## Bits of an append -/

/-- A bit in the low part of an append. -/
theorem getLsbD_append_low {m n : Nat} (x : BitVec m) (y : BitVec n) (i : Nat) (h : i < n) : (x ++ y).getLsbD i = y.getLsbD i := by
  simp [BitVec.getLsbD_append, h]

/-- A bit in the high part of an append. -/
theorem getLsbD_append_high {m n : Nat} (x : BitVec m) (y : BitVec n) (i : Nat) (h : n ≤ i) :
    (x ++ y).getLsbD i = x.getLsbD (i - n) := by
  simp [BitVec.getLsbD_append, Nat.not_lt.mpr h]

/-! ## Fields -/

/-- The fields of an S-word come back. -/
theorem splitWord_joinWord (s : SWord) : splitWord (joinWord s) = s := by
  obtain ⟨c, o, d, a, b, u, i⟩ := s
  simp only [splitWord, joinWord, SWord.mk.injEq]
  refine ⟨?_, ?_, ?_, ?_, ?_, ?_, ?_⟩ <;>
  · apply BitVec.eq_of_getLsbD_eq
    intro j hj
    simp (disch := omega) only [BitVec.getLsbD_extractLsb', getLsbD_append_low, getLsbD_append_high, hj, decide_true, Bool.true_and]
    try (congr 1; omega)

/-- A word is joined from its fields. -/
theorem joinWord_splitWord (w : Word) : joinWord (splitWord w) = w := by
  apply BitVec.eq_of_getLsbD_eq
  intro j hj
  simp only [splitWord, joinWord, BitVec.getLsbD_append, BitVec.getLsbD_extractLsb']
  repeat' split
  all_goals first
    | omega
    | (rename_i h; simp only [h, decide_true, Bool.true_and]; congr 1; omega)
    | (have h4 : j - 32 - 5 - 5 - 5 - 5 - 8 < 4 := by omega
       simp only [h4, decide_true, Bool.true_and]; congr 1; omega)

/-- The imm fields of the SM form come back. -/
theorem splitImm_joinImm (f : SMImm) : splitImm (joinImm f) = f := by
  obtain ⟨a, b, c, d, e, g⟩ := f
  simp only [splitImm, joinImm, SMImm.mk.injEq]
  refine ⟨?_, ?_, ?_, ?_, ?_, ?_⟩ <;>
  · apply BitVec.eq_of_getLsbD_eq
    intro j hj
    simp (disch := omega) only [BitVec.getLsbD_extractLsb', getLsbD_append_low, getLsbD_append_high, hj, decide_true, Bool.true_and]
    try (congr 1; omega)

/-- The low fields of a class 7 word come back. -/
theorem splitLow_joinLow (f : FabLow) : splitLow (joinLow f) = f := by
  obtain ⟨a, b, c, d⟩ := f
  simp only [splitLow, joinLow, FabLow.mk.injEq]
  refine ⟨?_, ?_, ?_, ?_⟩ <;>
  · apply BitVec.eq_of_getLsbD_eq
    intro j hj
    simp (disch := omega) only [BitVec.getLsbD_extractLsb', getLsbD_append_low, getLsbD_append_high, hj, decide_true, Bool.true_and]
    try (congr 1; omega)

/-- The first word of a record gives its class and opcode back. -/
theorem joinRec_head (c : BitVec 4) (o : BitVec 8) (r : Rec) :
    (joinRec c o r).w0.extractLsb' 60 4 = c ∧ (joinRec c o r).w0.extractLsb' 52 8 = o := by
  constructor <;>
  · apply BitVec.eq_of_getLsbD_eq
    intro j hj
    simp (disch := omega) only [joinRec, BitVec.getLsbD_extractLsb', getLsbD_append_low, getLsbD_append_high, hj, decide_true, Bool.true_and]
    try (congr 1; omega)

/-- A slot comes back from its parts. -/
theorem splitSlot_slotHi (o : Slot) : splitSlot (slotHi o) o.low = o := by
  obtain ⟨a, b, c, d⟩ := o
  simp only [splitSlot, slotHi, Slot.mk.injEq, and_true]
  refine ⟨?_, ?_, ?_⟩ <;>
  · apply BitVec.eq_of_getLsbD_eq
    intro j hj
    simp (disch := omega) only [BitVec.getLsbD_extractLsb', getLsbD_append_low, getLsbD_append_high, hj, decide_true, Bool.true_and]
    try (congr 1; omega)

/-- The halves of a word joined from halves. -/
theorem wHi_append (x y : BitVec 32) : wHi (x ++ y) = x := by
  apply BitVec.eq_of_getLsbD_eq
  intro j hj
  simp (disch := omega) only [wHi, BitVec.getLsbD_extractLsb', getLsbD_append_high, hj, decide_true, Bool.true_and]
  congr 1; omega

theorem wLo_append (x y : BitVec 32) : wLo (x ++ y) = y := by
  apply BitVec.eq_of_getLsbD_eq
  intro j hj
  simp (disch := omega) only [wLo, BitVec.getLsbD_extractLsb', getLsbD_append_low, hj, decide_true, Bool.true_and]
  congr 1; omega

/-- A word is its halves. -/
theorem wHi_wLo (w : Word) : wHi w ++ wLo w = w := by
  apply BitVec.eq_of_getLsbD_eq
  intro j hj
  by_cases h : j < 32
  · simp (disch := omega) only [wLo, BitVec.getLsbD_extractLsb', getLsbD_append_low, h, decide_true, Bool.true_and]
    congr 1; omega
  · have h2 : j - 32 < 32 := by omega
    simp (disch := omega) only [wHi, BitVec.getLsbD_extractLsb', getLsbD_append_high, h2, decide_true, Bool.true_and]
    congr 1; omega

/-- The fields of a record come back. -/
theorem splitRec_joinRec (c : BitVec 4) (o : BitVec 8) (r : Rec) : splitRec (joinRec c o r) = r := by
  have hs : ∀ x : Slot, splitSlot (slotHi x) x.low = x := splitSlot_slotHi
  obtain ⟨ty, ty2, ps, pe, cl, tf, st, se, ct, t0, t1, t2, t3, d, a, b, e⟩ := r
  simp only [splitRec, joinRec, Rec.mk.injEq, wHi_append, wLo_append, wHi_wLo, hs, and_true]
  refine ⟨?_, ?_, ?_, ?_, ?_, ?_, ?_, ?_, ?_, ?_, ?_, ?_, ?_⟩ <;> first
  | (apply BitVec.eq_of_getLsbD_eq
     intro j hj
     simp (disch := omega) only [BitVec.getLsbD_extractLsb', getLsbD_append_low, getLsbD_append_high, hj, decide_true, Bool.true_and]
     try (congr 1; omega))
  | (simp (disch := omega) only [getLsbD_append_low, getLsbD_append_high]; simp)

/-! ## Fields that stand at the bottom of a wider field -/

/-- A number widened with zeros and cut back. -/
theorem extract_zeroExtend {w : Nat} (n : BitVec w) (k : Nat) (h : w ≤ k) : (n.zeroExtend k).extractLsb' 0 w = n := by
  apply BitVec.eq_of_getLsbD_eq
  intro j hj
  have : j < k := by omega
  simp [hj, this]

/-- A number widened with zeros keeps its value. -/
theorem toNat_zeroExtend_lt {w : Nat} (n : BitVec w) (k : Nat) (h : w ≤ k) : (n.zeroExtend k).toNat < 2 ^ w := by
  have h1 : n.toNat < 2 ^ w := n.isLt
  have h2 : 2 ^ w ≤ 2 ^ k := Nat.pow_le_pow_right (by omega) h
  simp only [BitVec.truncate_eq_setWidth, BitVec.toNat_setWidth]
  rw [Nat.mod_eq_of_lt (by omega)]
  exact h1

/-- A number widened with zeros has zeros above. -/
theorem high_zeroExtend {w : Nat} (n : BitVec w) (k a c : Nat) (h : w ≤ a) : (n.zeroExtend k).extractLsb' a c = 0 := by
  apply BitVec.eq_of_getLsbD_eq
  intro j hj
  have : n.getLsbD (a + j) = false := BitVec.getLsbD_of_ge n _ (by omega)
  simp [this]

/-- A number joined below a small one stays small. -/
theorem toNat_append_lt {m n : Nat} (k : Nat) (x : BitVec m) (y : BitVec n) (h : x.toNat < 2 ^ k) : (x ++ y).toNat < 2 ^ (k + n) := by
  rw [BitVec.toNat_append]
  apply Nat.or_lt_two_pow
  · rw [Nat.shiftLeft_eq, Nat.pow_add]
    exact Nat.mul_lt_mul_of_pos_right h (Nat.two_pow_pos n)
  · exact Nat.lt_of_lt_of_le y.isLt (Nat.pow_le_pow_right (by omega) (by omega))

/-! ## Codes of named fields -/

@[simp] theorem ofCond_codeCond (k : Cond) : ofCond (codeCond k) = some k := by cases k <;> rfl
@[simp] theorem ofMulh_codeMulh (k : MulhMode) : ofMulh (codeMulh k) = some k := by cases k <;> rfl
@[simp] theorem ofSFmt_codeSFmt (k : SFmt) : ofSFmt (codeSFmt k) = some k := by cases k <;> rfl
@[simp] theorem ofFRel_codeFRel (k : FRel) : ofFRel (codeFRel k) = some k := by cases k <;> rfl
@[simp] theorem ofSpace_codeSpace (k : Space) : ofSpace (codeSpace k) = some k := by cases k <;> rfl
@[simp] theorem ofWidth_codeWidth (k : Width) : ofWidth (codeWidth k) = some k := by cases k <;> rfl
@[simp] theorem ofSem_codeSem (k : Sem) : ofSem (codeSem k) = some k := by cases k <;> rfl
@[simp] theorem ofScope_codeScope (k : Scope) : ofScope (codeScope k) = some k := by cases k <;> rfl
@[simp] theorem ofPath_codePath (k : Path) : ofPath (codePath k) = some k := by cases k <;> rfl
@[simp] theorem ofEngine_codeEngine (k : Engine) : ofEngine (codeEngine k) = some k := by cases k <;> rfl
@[simp] theorem ofRMode_codeRMode (k : RMode) : ofRMode (codeRMode k) = some k := by cases k <;> rfl
@[simp] theorem ofBts_codeBts (k : BtsKind) : ofBts (codeBts k) = some k := by cases k <;> rfl
@[simp] theorem ofFcvt_codeFcvt (k : FcvtKind) : ofFcvt (codeFcvt k) = some k := by
  cases k with
  | ff g f => cases g <;> cases f <;> rfl
  | toI64 f => cases f <;> rfl
  | toN64 f => cases f <;> rfl
  | ofI64 f => cases f <;> rfl
  | ofN64 f => cases f <;> rfl

/-! ## SM words and class 7 words -/

/-- The low part of an append. -/
theorem extract_append_low {m n : Nat} (x : BitVec m) (y : BitVec n) : (x ++ y).extractLsb' 0 n = y := by
  apply BitVec.eq_of_getLsbD_eq
  intro j hj
  simp [BitVec.getLsbD_append, hj]

/-- The high part of an append. -/
theorem extract_append_high {m n : Nat} (x : BitVec m) (y : BitVec n) : (x ++ y).extractLsb' n m = x := by
  apply BitVec.eq_of_getLsbD_eq
  intro j hj
  simp [BitVec.getLsbD_append, hj]

/-- A number is its parts. -/
theorem append_extract {m n : Nat} (x : BitVec (m + n)) : x.extractLsb' n m ++ x.extractLsb' 0 n = x := by
  apply BitVec.eq_of_getLsbD_eq
  intro j hj
  by_cases h : j < n
  · simp only [BitVec.getLsbD_append, h, BitVec.getLsbD_extractLsb', decide_true, Bool.true_and, if_true, Nat.zero_add]
  · have : j - n < m := by omega
    simp only [BitVec.getLsbD_append, h, BitVec.getLsbD_extractLsb', this, decide_true, Bool.true_and, if_false]
    congr 1; omega

/-- The access fields of an SM word come back. -/
theorem ofSMem_smWord (op d a b t o) (m : SMem) : ofSMem (smWord op d a b t o m) = some m := by
  have e := extract_append_low t m.cls
  simp only [ofSMem, smWord, splitImm_joinImm, ofSpace_codeSpace, ofWidth_codeWidth, ofScope_codeScope, ofSem_codeSem]
  simp only [Option.bind_eq_bind, Option.bind_some, Option.pure_def]
  rw [show BitVec.extractLsb' 0 4 (t ++ m.cls) = m.cls from e]

/-- The fields that are zero in an SM word. -/
theorem smZero_smWord (op d a b) (m : SMem) : smZero (smWord op d a b 0 0 m) = true := by
  have e := extract_append_high (0 : BitVec 1) m.cls
  simp only [smZero, smWord, splitImm_joinImm]
  rw [show BitVec.extractLsb' 4 1 ((0 : BitVec 1) ++ m.cls) = 0 from e]
  rfl

/-- The operation of an atomic comes back. -/
theorem atomOp_smWord (op : BitVec 8) (d a b) (x : BitVec 3) (m : SMem) : atomOp (smWord op d a b (x.extractLsb' 2 1) (x.extractLsb' 0 2) m) = x := by
  have e := extract_append_high (x.extractLsb' 2 1) m.cls
  simp only [atomOp, smWord, splitImm_joinImm]
  rw [show BitVec.extractLsb' 4 1 ((x.extractLsb' 2 1) ++ m.cls) = _ from e]
  exact append_extract (m := 1) (n := 2) x

/-- The access fields of a class 7 word come back. -/
theorem ofFMem_fabWord (op d a b t o l) (m : FMem) : ofFMem 1 (fabWord op d a b t o l m) = some m := by
  have e := extract_append_low t m.cls
  simp only [ofFMem, fabWord, splitImm_joinImm, ofWidth_codeWidth, ofScope_codeScope, ofSem_codeSem, if_true]
  simp only [Option.bind_eq_bind, Option.bind_some, Option.pure_def]
  rw [show BitVec.extractLsb' 0 4 (t ++ m.cls) = m.cls from e]

/-- The low fields of a class 7 word come back. -/
theorem low_fabWord (op d a b t o l) (m : FMem) : splitLow (splitImm (fabWord op d a b t o l m).imm).off = l := by
  simp only [fabWord, splitImm_joinImm, splitLow_joinLow]

/-- The fields that are zero in a class 7 word. -/
theorem smZero_fabWord (op d a b l) (m : FMem) : smZero (fabWord op d a b 0 0 l m) = true := by
  have e := extract_append_high (0 : BitVec 1) m.cls
  simp only [smZero, fabWord, splitImm_joinImm]
  rw [show BitVec.extractLsb' 4 1 ((0 : BitVec 1) ++ m.cls) = 0 from e]
  rfl

/-- The operation of a remote atomic comes back. -/
theorem atomOp_fabWord (op : BitVec 8) (d a b) (x : BitVec 3) (l) (m : FMem) : atomOp (fabWord op d a b (x.extractLsb' 2 1) (x.extractLsb' 0 2) l m) = x := by
  have e := extract_append_high (x.extractLsb' 2 1) m.cls
  simp only [atomOp, fabWord, splitImm_joinImm]
  rw [show BitVec.extractLsb' 4 1 ((x.extractLsb' 2 1) ++ m.cls) = _ from e]
  exact append_extract (m := 1) (n := 2) x


/-- SM words belong to class 1, class 7 words to class 7. -/
theorem decodeS_smWord (op : BitVec 8) (d a b : Reg) (t : BitVec 1) (o : BitVec 2) (m : SMem) :
    decodeS (smWord op d a b t o m) = decode1 (smWord op d a b t o m) := rfl

theorem decodeS_fabWord (op : BitVec 8) (d a b : Reg) (t : BitVec 1) (o : BitVec 2) (l : FabLow) (m : FMem) :
    decodeS (fabWord op d a b t o l m) = decode7 (fabWord op d a b t o l m) := rfl

/-! ## Decoding what was encoded -/

/-- An instruction whose fields are sound and whose own words pass is accepted. -/
theorem accept_eq {c : Bool} {i : Instr} (hc : c = true) (h : i.wf = true) : accept c i = .ok i := by simp [accept, hc, h]

theorem acceptOpt_eq {c : Bool} {o : Option Instr} {i : Instr} (hc : c = true) (ho : o = some i) (h : i.wf = true) :
    acceptOpt c o = .ok i := by simp [acceptOpt, accept, hc, ho, h]

/-- What is accepted is the instruction given, sound and well formed. -/
theorem of_accept {c : Bool} {i j : Instr} (h : accept c i = .ok j) : c = true ∧ i = j ∧ j.wf = true := by
  simp only [accept] at h
  split at h
  · rename_i hc
    simp only [Bool.and_eq_true] at hc
    simp only [Except.ok.injEq] at h
    subst h; exact ⟨hc.1, rfl, hc.2⟩
  · cases h

theorem of_acceptOpt {c : Bool} {o : Option Instr} {j : Instr} (h : acceptOpt c o = .ok j) : c = true ∧ o = some j ∧ j.wf = true := by
  cases o with
  | none => cases h
  | some i =>
    obtain ⟨hc, rfl, hw⟩ := of_accept (show accept c i = .ok j from h)
    exact ⟨hc, rfl, hw⟩

/-- A class whose instructions have one word (R235). -/
def oneWord (c : BitVec 4) : Bool := !decide (c.toNat = 4 ∨ c.toNat = 5 ∨ c.toNat = 6 ∨ c.toNat = 8)

theorem isRecordWord_joinWord (s : SWord) (h : oneWord s.cls = true) : isRecordWord (joinWord s) = false := by
  have e : (joinWord s).extractLsb' 60 4 = s.cls := congrArg SWord.cls (splitWord_joinWord s)
  simp only [isRecordWord, e]
  simpa [oneWord] using h

/-- A one-word instruction is what its word decodes to. -/
theorem decode_word (s : SWord) (i : Instr) (rest : List Word) (h : oneWord s.cls = true) (hd : decodeS s = .ok i) :
    decode (joinWord s :: rest) = .ok (i, rest) := by
  simp only [decode, isRecordWord_joinWord s h, splitWord_joinWord, hd]
  rfl

/-- A record is what its words decode to. -/
theorem decode_record (c : BitVec 4) (o : BitVec 8) (r : Rec) (i : Instr) (rest : List Word)
    (h : c.toNat = 4 ∨ c.toNat = 5 ∨ c.toNat = 6 ∨ c.toNat = 8) (hi : recInstr c.toNat o.toNat r = some i) (hw : i.wf = true) :
    decode (recWords (joinRec c o r) ++ rest) = .ok (i, rest) := by
  have hr : isRecordWord (joinRec c o r).w0 = true := by
    simp only [isRecordWord, (joinRec_head c o r).1]
    simpa using h
  have hd : decodeR (joinRec c o r) = .ok i := by
    simp only [decodeR, joinRec_head c o r, splitRec_joinRec, hi]
    exact accept_eq rfl hw
  have e : recWords (joinRec c o r) ++ rest = (joinRec c o r).w0 :: (joinRec c o r).w1 :: (joinRec c o r).w2 :: (joinRec c o r).w3 ::
      (joinRec c o r).w4 :: (joinRec c o r).w5 :: (joinRec c o r).w6 :: (joinRec c o r).w7 :: rest := rfl
  rw [e]
  simp only [decode, hr, if_true, hd]
  rfl

end Sys2Proof
end

