-- ==== Sys2Proof/Laws/Sparse.lean ====
section
/-! SUPPORT. Laws/Sparse.lean: a read after a write, a write elsewhere, and that every write keeps the canonical form. -/

namespace Sys2Proof.Machine

variable {α : Type}

theorem sget_append (d : α) (l₁ l₂ : SMap α) (k : Nat) :
    sget d (l₁ ++ l₂) k = if l₁.any (fun e => e.1 == k) then sget d l₁ k else sget d l₂ k := by
  induction l₁ with
  | nil => simp
  | cons e t ih =>
    obtain ⟨k', v⟩ := e
    by_cases h : k = k'
    · simp [sget, h]
    · have h' : (k' == k) = false := beq_eq_false_iff_ne.mpr (Ne.symm h)
      simp only [List.cons_append, sget, h, if_false, ih, List.any_cons, h', Bool.false_or]

theorem sget_filter (d : α) (p : Nat → Bool) (m : SMap α) (k : Nat) :
    sget d (m.filter fun e => p e.1) k = if p k then sget d m k else d := by
  induction m with
  | nil => simp [sget]
  | cons e t ih =>
    obtain ⟨k', v⟩ := e
    by_cases hp : p k' = true <;> by_cases h : k = k'
    · subst h; simp [sget, hp]
    · simp [sget, hp, h, ih]
    · subst h; simp [ih, hp]
    · simp [sget, hp, h, ih]

theorem any_filter_key (p : Nat → Bool) (m : SMap α) (k : Nat) (h : p k = false) :
    (m.filter fun e => p e.1).any (fun e => e.1 == k) = false := by
  simp only [List.any_eq_false, List.mem_filter, beq_iff_eq]
  rintro ⟨k', v⟩ ⟨_, hp⟩ rfl
  exact absurd hp (by simp [h])

theorem sget_of_not_any (d : α) (m : SMap α) (k : Nat) (h : m.any (fun e => e.1 == k) = false) :
    sget d m k = d := by
  induction m with
  | nil => rfl
  | cons e t ih =>
    obtain ⟨k', v⟩ := e
    simp only [List.any_cons, Bool.or_eq_false_iff, beq_eq_false_iff_ne] at h
    simp [sget, Ne.symm h.1, ih h.2]

variable [DecidableEq α]

theorem srun_any_lt (d : α) (k : Nat) (vs : List α) (k' : Nat) (h : k' < k) :
    (srun d k vs).any (fun e => e.1 == k') = false := by
  induction vs generalizing k with
  | nil => rfl
  | cons v t ih =>
    by_cases hv : v = d
    · simp [srun, hv, ih (k + 1) (by omega)]
    · have : k ≠ k' := by omega
      simp [srun, hv, this, ih (k + 1) (by omega)]

theorem sget_srun (d : α) (k : Nat) (vs : List α) (k' : Nat) :
    sget d (srun d k vs) k' = if k ≤ k' then vs.getD (k' - k) d else d := by
  induction vs generalizing k with
  | nil => simp [srun, sget]
  | cons v t ih =>
    by_cases hk : k' = k
    · subst hk
      by_cases hv : v = d
      · have : ¬ k' + 1 ≤ k' := by omega
        simp [srun, hv, ih, this]
      · simp [srun, hv, sget]
    · by_cases hle : k ≤ k'
      · have h1 : k + 1 ≤ k' := by omega
        have h2 : k' - k = (k' - (k + 1)) + 1 := by omega
        by_cases hv : v = d
        · simp [srun, hv, ih, h1, hle, h2]
        · simp [srun, hv, sget, hk, ih, h1, hle, h2]
      · have h1 : ¬ k + 1 ≤ k' := by omega
        by_cases hv : v = d
        · simp [srun, hv, ih, h1, hle]
        · simp [srun, hv, sget, hk, ih, h1, hle]

/-- What every key reads as after a run of values is written. -/
theorem sget_sputs (d : α) (m : SMap α) (k : Nat) (vs : List α) (k' : Nat) :
    sget d (sputs d m k vs) k' =
      if k ≤ k' ∧ k' < k + vs.length then vs.getD (k' - k) d else sget d m k' := by
  unfold sputs sbelow sfrom
  by_cases h1 : k' < k
  · have hn : ¬ (k ≤ k' ∧ k' < k + vs.length) := by omega
    rw [if_neg hn, sget_append]
    split
    · rw [sget_filter d (fun x => decide (x < k))]; simp [h1]
    · rename_i hany
      have hm : sget d m k' = d := by
        have := sget_of_not_any d _ k' ((Bool.not_eq_true _).mp hany)
        rw [sget_filter d (fun x => decide (x < k))] at this
        simpa [h1] using this
      rw [hm, sget_append, srun_any_lt d k vs k' h1]
      have : sget d (m.filter fun e => decide (k + vs.length ≤ e.1)) k' = d := by
        rw [sget_filter d (fun x => decide (k + vs.length ≤ x))]
        have : ¬ k + vs.length ≤ k' := by omega
        simp [this]
      simpa using this
  · rw [sget_append, any_filter_key (fun x => decide (x < k)) m k' (by simp; omega)]
    simp only [Bool.false_eq_true, if_false]
    by_cases h2 : k' < k + vs.length
    · have hy : k ≤ k' ∧ k' < k + vs.length := by omega
      rw [if_pos hy, sget_append]
      split
      · rw [sget_srun]; simp [hy.1]
      · rename_i hany
        have hs := sget_of_not_any d _ k' ((Bool.not_eq_true _).mp hany)
        rw [sget_srun] at hs
        simp only [hy.1, if_true] at hs
        rw [hs, sget_filter d (fun x => decide (k + vs.length ≤ x))]
        have : ¬ k + vs.length ≤ k' := by omega
        simp [this]
    · have hn : ¬ (k ≤ k' ∧ k' < k + vs.length) := by omega
      rw [if_neg hn, sget_append]
      have hr : (srun d k vs).any (fun e => e.1 == k') = false := by
        clear hn h1
        induction vs generalizing k with
        | nil => rfl
        | cons v t ih =>
          simp only [List.length_cons] at h2
          have : k ≠ k' := by omega
          by_cases hv : v = d
          · simp [srun, hv, ih (k + 1) (by omega)]
          · simp [srun, hv, this, ih (k + 1) (by omega)]
      rw [hr]
      simp only [Bool.false_eq_true, if_false]
      rw [sget_filter d (fun x => decide (k + vs.length ≤ x))]
      have : k + vs.length ≤ k' := by omega
      simp [this]

@[simp] theorem sget_sset_self (d : α) (m : SMap α) (k : Nat) (v : α) : sget d (sset d m k v) k = v := by
  simp [sset, sget_sputs]

theorem sget_sset_ne (d : α) (m : SMap α) (k k' : Nat) (v : α) (h : k' ≠ k) :
    sget d (sset d m k v) k' = sget d m k' := by
  have : ¬ (k ≤ k' ∧ k' < k + [v].length) := by rw [List.length_singleton]; omega
  rw [sset, sget_sputs, if_neg this]

theorem sget_sset (d : α) (m : SMap α) (k k' : Nat) (v : α) :
    sget d (sset d m k v) k' = if k' = k then v else sget d m k' := by
  by_cases h : k' = k
  · subst h; simp
  · simp [h, sget_sset_ne]

omit [DecidableEq α] in
@[simp] theorem sget_nil (d : α) (k : Nat) : sget d ([] : SMap α) k = d := rfl

/-! ### The canonical form -/

omit [DecidableEq α] in
theorem sabove_filter (b : Nat) (p : Nat → Bool) (m : SMap α) (h : sabove b m = true) :
    sabove b (m.filter fun e => p e.1) = true := by
  induction m with
  | nil => rfl
  | cons e t ih =>
    obtain ⟨k, v⟩ := e
    simp only [sabove, Bool.and_eq_true, decide_eq_true_eq] at h
    by_cases hp : p k = true
    · simp [hp, sabove, h.1, ih h.2]
    · simp [hp, ih h.2]

theorem swf_filter (d : α) (p : Nat → Bool) (m : SMap α) (h : swf d m = true) :
    swf d (m.filter fun e => p e.1) = true := by
  induction m with
  | nil => rfl
  | cons e t ih =>
    obtain ⟨k, v⟩ := e
    simp only [swf, Bool.and_eq_true, decide_eq_true_eq] at h
    by_cases hp : p k = true
    · simp only [List.filter_cons, hp, if_true, swf, Bool.and_eq_true, decide_eq_true_eq]
      exact ⟨⟨sabove_filter k p t h.1.1, h.1.2⟩, ih h.2⟩
    · simp [hp, ih h.2]

omit [DecidableEq α] in
theorem sabove_append (b : Nat) (l₁ l₂ : SMap α) :
    sabove b (l₁ ++ l₂) = (sabove b l₁ && sabove b l₂) := by
  induction l₁ with
  | nil => simp [sabove]
  | cons e t ih => obtain ⟨k, v⟩ := e; simp [sabove, ih, Bool.and_assoc]

omit [DecidableEq α] in
theorem sabove_iff (b : Nat) (m : SMap α) : sabove b m = true ↔ ∀ e ∈ m, b < e.1 := by
  induction m with
  | nil => simp [sabove]
  | cons e t ih => obtain ⟨k, v⟩ := e; simp [sabove, ih]

/-- Two canonical maps, every key of the first below every key of the second, join to a canonical map. -/
theorem swf_append (d : α) (l₁ l₂ : SMap α) (h₁ : swf d l₁ = true) (h₂ : swf d l₂ = true)
    (h : ∀ e ∈ l₁, ∀ f ∈ l₂, e.1 < f.1) : swf d (l₁ ++ l₂) = true := by
  induction l₁ with
  | nil => simpa using h₂
  | cons e t ih =>
    obtain ⟨k, v⟩ := e
    simp only [swf, Bool.and_eq_true, decide_eq_true_eq] at h₁
    simp only [List.cons_append, swf, Bool.and_eq_true, decide_eq_true_eq, sabove_append]
    refine ⟨⟨⟨h₁.1.1, ?_⟩, h₁.1.2⟩, ih h₁.2 fun e he => h e (by simp [he])⟩
    exact (sabove_iff k l₂).2 fun f hf => h (k, v) (by simp) f hf

theorem srun_mem (d : α) (k : Nat) (vs : List α) (e : Nat × α) (h : e ∈ srun d k vs) :
    k ≤ e.1 ∧ e.1 < k + vs.length := by
  induction vs generalizing k with
  | nil => simp [srun] at h
  | cons v t ih =>
    by_cases hv : v = d
    · simp only [srun, hv, if_true] at h
      have := ih (k + 1) h
      simp only [List.length_cons]; omega
    · simp only [srun, hv, if_false, List.mem_cons] at h
      rcases h with rfl | h
      · simp
      · have := ih (k + 1) h
        simp only [List.length_cons]; omega

theorem swf_srun (d : α) (k : Nat) (vs : List α) : swf d (srun d k vs) = true := by
  induction vs generalizing k with
  | nil => rfl
  | cons v t ih =>
    by_cases hv : v = d
    · simp [srun, hv, ih]
    · simp only [srun, hv, if_false, swf, Bool.and_eq_true, decide_eq_true_eq]
      exact ⟨⟨(sabove_iff k _).2 fun e he => by have := srun_mem d (k + 1) t e he; omega, hv⟩, ih (k + 1)⟩

/-- Writing a run keeps the canonical form. -/
theorem swf_sputs (d : α) (m : SMap α) (k : Nat) (vs : List α) (h : swf d m = true) :
    swf d (sputs d m k vs) = true := by
  unfold sputs sbelow sfrom
  refine swf_append d _ _ (swf_filter d (fun x => decide (x < k)) m h)
    (swf_append d _ _ (swf_srun d k vs) (swf_filter d (fun x => decide (k + vs.length ≤ x)) m h) ?_) ?_
  · intro e he f hf
    have := srun_mem d k vs e he
    simp only [List.mem_filter, decide_eq_true_eq] at hf
    omega
  · intro e he f hf
    simp only [List.mem_filter, decide_eq_true_eq] at he
    simp only [List.mem_append, List.mem_filter, decide_eq_true_eq] at hf
    rcases hf with hf | hf
    · have := srun_mem d k vs f hf; omega
    · omega

theorem swf_sset (d : α) (m : SMap α) (k : Nat) (v : α) (h : swf d m = true) :
    swf d (sset d m k v) = true := swf_sputs d m k [v] h

/-! ### Byte memories -/

theorem Mem.byte_setBytes (m : Mem) (a : Nat) (bs : List Byte) (x : Nat) :
    (m.setBytes a bs).byte x = if a ≤ x ∧ x < a + bs.length then bs.getD (x - a) unlisted else m.byte x :=
  sget_sputs unlisted m a bs x

theorem Mem.byte_setBytes_outside (m : Mem) (a : Nat) (bs : List Byte) (x : Nat)
    (h : x < a ∨ a + bs.length ≤ x) : (m.setBytes a bs).byte x = m.byte x := by
  rw [Mem.byte_setBytes, if_neg (by omega)]

theorem Mem.wf_setBytes (m : Mem) (a : Nat) (bs : List Byte) (h : m.wf = true) : (m.setBytes a bs).wf = true :=
  swf_sputs unlisted m a bs h

theorem leBytes_length (n v : Nat) : (leBytes n v).length = n := by
  induction n generalizing v with
  | zero => rfl
  | succ n ih => simp [leBytes, ih]

theorem Mem.wf_write (m : Mem) (a n v : Nat) (h : m.wf = true) : (m.write a n v).wf = true :=
  Mem.wf_setBytes m a _ h

theorem Mem.byte_write_outside (m : Mem) (a n v x : Nat) (h : x < a ∨ a + n ≤ x) :
    (m.write a n v).byte x = m.byte x :=
  Mem.byte_setBytes_outside m a _ x (by rw [leBytes_length]; exact h)

end Sys2Proof.Machine
end

