-- ==== Sys2Proof/Laws/State.lean ====
section
/-! SUPPORT. Laws/State.lean: what each update of State leaves as it was, one lemma for each field, and what the maps read after an update. -/

namespace Sys2Proof.Machine

/-! ### State.onStrand -/

@[simp] theorem State.onStrand_cur (s : State) (k : Nat) (f : Strand → Strand) : (s.onStrand k f).cur = s.cur := rfl
@[simp] theorem State.onStrand_agenda (s : State) (k : Nat) (f : Strand → Strand) : (s.onStrand k f).agenda = s.agenda := rfl
@[simp] theorem State.onStrand_lcores (s : State) (k : Nat) (f : Strand → Strand) : (s.onStrand k f).lcores = s.lcores := rfl
@[simp] theorem State.onStrand_tasks (s : State) (k : Nat) (f : Strand → Strand) : (s.onStrand k f).tasks = s.tasks := rfl
@[simp] theorem State.onStrand_cores (s : State) (k : Nat) (f : Strand → Strand) : (s.onStrand k f).cores = s.cores := rfl
@[simp] theorem State.onStrand_arrays (s : State) (k : Nat) (f : Strand → Strand) : (s.onStrand k f).arrays = s.arrays := rfl
@[simp] theorem State.onStrand_banks (s : State) (k : Nat) (f : Strand → Strand) : (s.onStrand k f).banks = s.banks := rfl
@[simp] theorem State.onStrand_ws (s : State) (k : Nat) (f : Strand → Strand) : (s.onStrand k f).ws = s.ws := rfl
@[simp] theorem State.onStrand_wsPhase (s : State) (k : Nat) (f : Strand → Strand) : (s.onStrand k f).wsPhase = s.wsPhase := rfl
@[simp] theorem State.onStrand_wsGated (s : State) (k : Nat) (f : Strand → Strand) : (s.onStrand k f).wsGated = s.wsGated := rfl
@[simp] theorem State.onStrand_wsWaking (s : State) (k : Nat) (f : Strand → Strand) : (s.onStrand k f).wsWaking = s.wsWaking := rfl
@[simp] theorem State.onStrand_mem (s : State) (k : Nat) (f : Strand → Strand) : (s.onStrand k f).mem = s.mem := rfl
@[simp] theorem State.onStrand_hostMem (s : State) (k : Nat) (f : Strand → Strand) : (s.onStrand k f).hostMem = s.hostMem := rfl
@[simp] theorem State.onStrand_vrs (s : State) (k : Nat) (f : Strand → Strand) : (s.onStrand k f).vrs = s.vrs := rfl
@[simp] theorem State.onStrand_fns (s : State) (k : Nat) (f : Strand → Strand) : (s.onStrand k f).fns = s.fns := rfl
@[simp] theorem State.onStrand_binds (s : State) (k : Nat) (f : Strand → Strand) : (s.onStrand k f).binds = s.binds := rfl
@[simp] theorem State.onStrand_binderr (s : State) (k : Nat) (f : Strand → Strand) : (s.onStrand k f).binderr = s.binderr := rfl
@[simp] theorem State.onStrand_detmode (s : State) (k : Nat) (f : Strand → Strand) : (s.onStrand k f).detmode = s.detmode := rfl
@[simp] theorem State.onStrand_period (s : State) (k : Nat) (f : Strand → Strand) : (s.onStrand k f).period = s.period := rfl
@[simp] theorem State.onStrand_periodAt (s : State) (k : Nat) (f : Strand → Strand) : (s.onStrand k f).periodAt = s.periodAt := rfl
@[simp] theorem State.onStrand_cycle (s : State) (k : Nat) (f : Strand → Strand) : (s.onStrand k f).cycle = s.cycle := rfl
@[simp] theorem State.onStrand_power (s : State) (k : Nat) (f : Strand → Strand) : (s.onStrand k f).power = s.power := rfl
@[simp] theorem State.onStrand_clockStep (s : State) (k : Nat) (f : Strand → Strand) : (s.onStrand k f).clockStep = s.clockStep := rfl
@[simp] theorem State.onStrand_bin (s : State) (k : Nat) (f : Strand → Strand) : (s.onStrand k f).bin = s.bin := rfl
@[simp] theorem State.onStrand_fuses (s : State) (k : Nat) (f : Strand → Strand) : (s.onStrand k f).fuses = s.fuses := rfl
@[simp] theorem State.onStrand_isPackage (s : State) (k : Nat) (f : Strand → Strand) : (s.onStrand k f).isPackage = s.isPackage := rfl
@[simp] theorem State.onStrand_supplied (s : State) (k : Nat) (f : Strand → Strand) : (s.onStrand k f).supplied = s.supplied := rfl
@[simp] theorem State.onStrand_endpoint (s : State) (k : Nat) (f : Strand → Strand) : (s.onStrand k f).endpoint = s.endpoint := rfl
@[simp] theorem State.onStrand_location (s : State) (k : Nat) (f : Strand → Strand) : (s.onStrand k f).location = s.location := rfl
@[simp] theorem State.onStrand_route (s : State) (k : Nat) (f : Strand → Strand) : (s.onStrand k f).route = s.route := rfl
@[simp] theorem State.onStrand_ports (s : State) (k : Nat) (f : Strand → Strand) : (s.onStrand k f).ports = s.ports := rfl
@[simp] theorem State.onStrand_lanethr (s : State) (k : Nat) (f : Strand → Strand) : (s.onStrand k f).lanethr = s.lanethr := rfl
@[simp] theorem State.onStrand_pairs (s : State) (k : Nat) (f : Strand → Strand) : (s.onStrand k f).pairs = s.pairs := rfl
@[simp] theorem State.onStrand_unacked (s : State) (k : Nat) (f : Strand → Strand) : (s.onStrand k f).unacked = s.unacked := rfl
@[simp] theorem State.onStrand_late (s : State) (k : Nat) (f : Strand → Strand) : (s.onStrand k f).late = s.late := rfl
@[simp] theorem State.onStrand_rops (s : State) (k : Nat) (f : Strand → Strand) : (s.onStrand k f).rops = s.rops := rfl
@[simp] theorem State.onStrand_hold (s : State) (k : Nat) (f : Strand → Strand) : (s.onStrand k f).hold = s.hold := rfl
@[simp] theorem State.onStrand_faults (s : State) (k : Nat) (f : Strand → Strand) : (s.onStrand k f).faults = s.faults := rfl
@[simp] theorem State.onStrand_denied (s : State) (k : Nat) (f : Strand → Strand) : (s.onStrand k f).denied = s.denied := rfl
@[simp] theorem State.onStrand_ftlb (s : State) (k : Nat) (f : Strand → Strand) : (s.onStrand k f).ftlb = s.ftlb := rfl
@[simp] theorem State.onStrand_portDrops (s : State) (k : Nat) (f : Strand → Strand) : (s.onStrand k f).portDrops = s.portDrops := rfl
@[simp] theorem State.onStrand_injPtr (s : State) (k : Nat) (f : Strand → Strand) : (s.onStrand k f).injPtr = s.injPtr := rfl
@[simp] theorem State.onStrand_memPtr (s : State) (k : Nat) (f : Strand → Strand) : (s.onStrand k f).memPtr = s.memPtr := rfl
@[simp] theorem State.onStrand_stackBytes (s : State) (k : Nat) (f : Strand → Strand) : (s.onStrand k f).stackBytes = s.stackBytes := rfl
@[simp] theorem State.onStrand_waits (s : State) (k : Nat) (f : Strand → Strand) : (s.onStrand k f).waits = s.waits := rfl
@[simp] theorem State.onStrand_rels (s : State) (k : Nat) (f : Strand → Strand) : (s.onStrand k f).rels = s.rels := rfl
@[simp] theorem State.onStrand_olds (s : State) (k : Nat) (f : Strand → Strand) : (s.onStrand k f).olds = s.olds := rfl
@[simp] theorem State.onStrand_sup (s : State) (k : Nat) (f : Strand → Strand) : (s.onStrand k f).sup = s.sup := rfl
@[simp] theorem State.onStrand_sent (s : State) (k : Nat) (f : Strand → Strand) : (s.onStrand k f).sent = s.sent := rfl
@[simp] theorem State.onStrand_uid (s : State) (k : Nat) (f : Strand → Strand) : (s.onStrand k f).uid = s.uid := rfl
@[simp] theorem State.onStrand_draw (s : State) (k : Nat) (f : Strand → Strand) : (s.onStrand k f).draw = s.draw := rfl

/-! ### State.onMe -/

@[simp] theorem State.onMe_cur (s : State) (f : Strand → Strand) : (s.onMe f).cur = s.cur := rfl
@[simp] theorem State.onMe_agenda (s : State) (f : Strand → Strand) : (s.onMe f).agenda = s.agenda := rfl
@[simp] theorem State.onMe_lcores (s : State) (f : Strand → Strand) : (s.onMe f).lcores = s.lcores := rfl
@[simp] theorem State.onMe_tasks (s : State) (f : Strand → Strand) : (s.onMe f).tasks = s.tasks := rfl
@[simp] theorem State.onMe_cores (s : State) (f : Strand → Strand) : (s.onMe f).cores = s.cores := rfl
@[simp] theorem State.onMe_arrays (s : State) (f : Strand → Strand) : (s.onMe f).arrays = s.arrays := rfl
@[simp] theorem State.onMe_banks (s : State) (f : Strand → Strand) : (s.onMe f).banks = s.banks := rfl
@[simp] theorem State.onMe_ws (s : State) (f : Strand → Strand) : (s.onMe f).ws = s.ws := rfl
@[simp] theorem State.onMe_wsPhase (s : State) (f : Strand → Strand) : (s.onMe f).wsPhase = s.wsPhase := rfl
@[simp] theorem State.onMe_wsGated (s : State) (f : Strand → Strand) : (s.onMe f).wsGated = s.wsGated := rfl
@[simp] theorem State.onMe_wsWaking (s : State) (f : Strand → Strand) : (s.onMe f).wsWaking = s.wsWaking := rfl
@[simp] theorem State.onMe_mem (s : State) (f : Strand → Strand) : (s.onMe f).mem = s.mem := rfl
@[simp] theorem State.onMe_hostMem (s : State) (f : Strand → Strand) : (s.onMe f).hostMem = s.hostMem := rfl
@[simp] theorem State.onMe_vrs (s : State) (f : Strand → Strand) : (s.onMe f).vrs = s.vrs := rfl
@[simp] theorem State.onMe_fns (s : State) (f : Strand → Strand) : (s.onMe f).fns = s.fns := rfl
@[simp] theorem State.onMe_binds (s : State) (f : Strand → Strand) : (s.onMe f).binds = s.binds := rfl
@[simp] theorem State.onMe_binderr (s : State) (f : Strand → Strand) : (s.onMe f).binderr = s.binderr := rfl
@[simp] theorem State.onMe_detmode (s : State) (f : Strand → Strand) : (s.onMe f).detmode = s.detmode := rfl
@[simp] theorem State.onMe_period (s : State) (f : Strand → Strand) : (s.onMe f).period = s.period := rfl
@[simp] theorem State.onMe_periodAt (s : State) (f : Strand → Strand) : (s.onMe f).periodAt = s.periodAt := rfl
@[simp] theorem State.onMe_cycle (s : State) (f : Strand → Strand) : (s.onMe f).cycle = s.cycle := rfl
@[simp] theorem State.onMe_power (s : State) (f : Strand → Strand) : (s.onMe f).power = s.power := rfl
@[simp] theorem State.onMe_clockStep (s : State) (f : Strand → Strand) : (s.onMe f).clockStep = s.clockStep := rfl
@[simp] theorem State.onMe_bin (s : State) (f : Strand → Strand) : (s.onMe f).bin = s.bin := rfl
@[simp] theorem State.onMe_fuses (s : State) (f : Strand → Strand) : (s.onMe f).fuses = s.fuses := rfl
@[simp] theorem State.onMe_isPackage (s : State) (f : Strand → Strand) : (s.onMe f).isPackage = s.isPackage := rfl
@[simp] theorem State.onMe_supplied (s : State) (f : Strand → Strand) : (s.onMe f).supplied = s.supplied := rfl
@[simp] theorem State.onMe_endpoint (s : State) (f : Strand → Strand) : (s.onMe f).endpoint = s.endpoint := rfl
@[simp] theorem State.onMe_location (s : State) (f : Strand → Strand) : (s.onMe f).location = s.location := rfl
@[simp] theorem State.onMe_route (s : State) (f : Strand → Strand) : (s.onMe f).route = s.route := rfl
@[simp] theorem State.onMe_ports (s : State) (f : Strand → Strand) : (s.onMe f).ports = s.ports := rfl
@[simp] theorem State.onMe_lanethr (s : State) (f : Strand → Strand) : (s.onMe f).lanethr = s.lanethr := rfl
@[simp] theorem State.onMe_pairs (s : State) (f : Strand → Strand) : (s.onMe f).pairs = s.pairs := rfl
@[simp] theorem State.onMe_unacked (s : State) (f : Strand → Strand) : (s.onMe f).unacked = s.unacked := rfl
@[simp] theorem State.onMe_late (s : State) (f : Strand → Strand) : (s.onMe f).late = s.late := rfl
@[simp] theorem State.onMe_rops (s : State) (f : Strand → Strand) : (s.onMe f).rops = s.rops := rfl
@[simp] theorem State.onMe_hold (s : State) (f : Strand → Strand) : (s.onMe f).hold = s.hold := rfl
@[simp] theorem State.onMe_faults (s : State) (f : Strand → Strand) : (s.onMe f).faults = s.faults := rfl
@[simp] theorem State.onMe_denied (s : State) (f : Strand → Strand) : (s.onMe f).denied = s.denied := rfl
@[simp] theorem State.onMe_ftlb (s : State) (f : Strand → Strand) : (s.onMe f).ftlb = s.ftlb := rfl
@[simp] theorem State.onMe_portDrops (s : State) (f : Strand → Strand) : (s.onMe f).portDrops = s.portDrops := rfl
@[simp] theorem State.onMe_injPtr (s : State) (f : Strand → Strand) : (s.onMe f).injPtr = s.injPtr := rfl
@[simp] theorem State.onMe_memPtr (s : State) (f : Strand → Strand) : (s.onMe f).memPtr = s.memPtr := rfl
@[simp] theorem State.onMe_stackBytes (s : State) (f : Strand → Strand) : (s.onMe f).stackBytes = s.stackBytes := rfl
@[simp] theorem State.onMe_waits (s : State) (f : Strand → Strand) : (s.onMe f).waits = s.waits := rfl
@[simp] theorem State.onMe_rels (s : State) (f : Strand → Strand) : (s.onMe f).rels = s.rels := rfl
@[simp] theorem State.onMe_olds (s : State) (f : Strand → Strand) : (s.onMe f).olds = s.olds := rfl
@[simp] theorem State.onMe_sup (s : State) (f : Strand → Strand) : (s.onMe f).sup = s.sup := rfl
@[simp] theorem State.onMe_sent (s : State) (f : Strand → Strand) : (s.onMe f).sent = s.sent := rfl
@[simp] theorem State.onMe_uid (s : State) (f : Strand → Strand) : (s.onMe f).uid = s.uid := rfl
@[simp] theorem State.onMe_draw (s : State) (f : Strand → Strand) : (s.onMe f).draw = s.draw := rfl

/-! ### State.onLcore -/

@[simp] theorem State.onLcore_cur (s : State) (k : Nat) (f : LCore → LCore) : (s.onLcore k f).cur = s.cur := rfl
@[simp] theorem State.onLcore_agenda (s : State) (k : Nat) (f : LCore → LCore) : (s.onLcore k f).agenda = s.agenda := rfl
@[simp] theorem State.onLcore_strands (s : State) (k : Nat) (f : LCore → LCore) : (s.onLcore k f).strands = s.strands := rfl
@[simp] theorem State.onLcore_tasks (s : State) (k : Nat) (f : LCore → LCore) : (s.onLcore k f).tasks = s.tasks := rfl
@[simp] theorem State.onLcore_cores (s : State) (k : Nat) (f : LCore → LCore) : (s.onLcore k f).cores = s.cores := rfl
@[simp] theorem State.onLcore_arrays (s : State) (k : Nat) (f : LCore → LCore) : (s.onLcore k f).arrays = s.arrays := rfl
@[simp] theorem State.onLcore_banks (s : State) (k : Nat) (f : LCore → LCore) : (s.onLcore k f).banks = s.banks := rfl
@[simp] theorem State.onLcore_ws (s : State) (k : Nat) (f : LCore → LCore) : (s.onLcore k f).ws = s.ws := rfl
@[simp] theorem State.onLcore_wsPhase (s : State) (k : Nat) (f : LCore → LCore) : (s.onLcore k f).wsPhase = s.wsPhase := rfl
@[simp] theorem State.onLcore_wsGated (s : State) (k : Nat) (f : LCore → LCore) : (s.onLcore k f).wsGated = s.wsGated := rfl
@[simp] theorem State.onLcore_wsWaking (s : State) (k : Nat) (f : LCore → LCore) : (s.onLcore k f).wsWaking = s.wsWaking := rfl
@[simp] theorem State.onLcore_mem (s : State) (k : Nat) (f : LCore → LCore) : (s.onLcore k f).mem = s.mem := rfl
@[simp] theorem State.onLcore_hostMem (s : State) (k : Nat) (f : LCore → LCore) : (s.onLcore k f).hostMem = s.hostMem := rfl
@[simp] theorem State.onLcore_vrs (s : State) (k : Nat) (f : LCore → LCore) : (s.onLcore k f).vrs = s.vrs := rfl
@[simp] theorem State.onLcore_fns (s : State) (k : Nat) (f : LCore → LCore) : (s.onLcore k f).fns = s.fns := rfl
@[simp] theorem State.onLcore_binds (s : State) (k : Nat) (f : LCore → LCore) : (s.onLcore k f).binds = s.binds := rfl
@[simp] theorem State.onLcore_binderr (s : State) (k : Nat) (f : LCore → LCore) : (s.onLcore k f).binderr = s.binderr := rfl
@[simp] theorem State.onLcore_detmode (s : State) (k : Nat) (f : LCore → LCore) : (s.onLcore k f).detmode = s.detmode := rfl
@[simp] theorem State.onLcore_period (s : State) (k : Nat) (f : LCore → LCore) : (s.onLcore k f).period = s.period := rfl
@[simp] theorem State.onLcore_periodAt (s : State) (k : Nat) (f : LCore → LCore) : (s.onLcore k f).periodAt = s.periodAt := rfl
@[simp] theorem State.onLcore_cycle (s : State) (k : Nat) (f : LCore → LCore) : (s.onLcore k f).cycle = s.cycle := rfl
@[simp] theorem State.onLcore_power (s : State) (k : Nat) (f : LCore → LCore) : (s.onLcore k f).power = s.power := rfl
@[simp] theorem State.onLcore_clockStep (s : State) (k : Nat) (f : LCore → LCore) : (s.onLcore k f).clockStep = s.clockStep := rfl
@[simp] theorem State.onLcore_bin (s : State) (k : Nat) (f : LCore → LCore) : (s.onLcore k f).bin = s.bin := rfl
@[simp] theorem State.onLcore_fuses (s : State) (k : Nat) (f : LCore → LCore) : (s.onLcore k f).fuses = s.fuses := rfl
@[simp] theorem State.onLcore_isPackage (s : State) (k : Nat) (f : LCore → LCore) : (s.onLcore k f).isPackage = s.isPackage := rfl
@[simp] theorem State.onLcore_supplied (s : State) (k : Nat) (f : LCore → LCore) : (s.onLcore k f).supplied = s.supplied := rfl
@[simp] theorem State.onLcore_endpoint (s : State) (k : Nat) (f : LCore → LCore) : (s.onLcore k f).endpoint = s.endpoint := rfl
@[simp] theorem State.onLcore_location (s : State) (k : Nat) (f : LCore → LCore) : (s.onLcore k f).location = s.location := rfl
@[simp] theorem State.onLcore_route (s : State) (k : Nat) (f : LCore → LCore) : (s.onLcore k f).route = s.route := rfl
@[simp] theorem State.onLcore_ports (s : State) (k : Nat) (f : LCore → LCore) : (s.onLcore k f).ports = s.ports := rfl
@[simp] theorem State.onLcore_lanethr (s : State) (k : Nat) (f : LCore → LCore) : (s.onLcore k f).lanethr = s.lanethr := rfl
@[simp] theorem State.onLcore_pairs (s : State) (k : Nat) (f : LCore → LCore) : (s.onLcore k f).pairs = s.pairs := rfl
@[simp] theorem State.onLcore_unacked (s : State) (k : Nat) (f : LCore → LCore) : (s.onLcore k f).unacked = s.unacked := rfl
@[simp] theorem State.onLcore_late (s : State) (k : Nat) (f : LCore → LCore) : (s.onLcore k f).late = s.late := rfl
@[simp] theorem State.onLcore_rops (s : State) (k : Nat) (f : LCore → LCore) : (s.onLcore k f).rops = s.rops := rfl
@[simp] theorem State.onLcore_hold (s : State) (k : Nat) (f : LCore → LCore) : (s.onLcore k f).hold = s.hold := rfl
@[simp] theorem State.onLcore_faults (s : State) (k : Nat) (f : LCore → LCore) : (s.onLcore k f).faults = s.faults := rfl
@[simp] theorem State.onLcore_denied (s : State) (k : Nat) (f : LCore → LCore) : (s.onLcore k f).denied = s.denied := rfl
@[simp] theorem State.onLcore_ftlb (s : State) (k : Nat) (f : LCore → LCore) : (s.onLcore k f).ftlb = s.ftlb := rfl
@[simp] theorem State.onLcore_portDrops (s : State) (k : Nat) (f : LCore → LCore) : (s.onLcore k f).portDrops = s.portDrops := rfl
@[simp] theorem State.onLcore_injPtr (s : State) (k : Nat) (f : LCore → LCore) : (s.onLcore k f).injPtr = s.injPtr := rfl
@[simp] theorem State.onLcore_memPtr (s : State) (k : Nat) (f : LCore → LCore) : (s.onLcore k f).memPtr = s.memPtr := rfl
@[simp] theorem State.onLcore_stackBytes (s : State) (k : Nat) (f : LCore → LCore) : (s.onLcore k f).stackBytes = s.stackBytes := rfl
@[simp] theorem State.onLcore_waits (s : State) (k : Nat) (f : LCore → LCore) : (s.onLcore k f).waits = s.waits := rfl
@[simp] theorem State.onLcore_rels (s : State) (k : Nat) (f : LCore → LCore) : (s.onLcore k f).rels = s.rels := rfl
@[simp] theorem State.onLcore_olds (s : State) (k : Nat) (f : LCore → LCore) : (s.onLcore k f).olds = s.olds := rfl
@[simp] theorem State.onLcore_sup (s : State) (k : Nat) (f : LCore → LCore) : (s.onLcore k f).sup = s.sup := rfl
@[simp] theorem State.onLcore_sent (s : State) (k : Nat) (f : LCore → LCore) : (s.onLcore k f).sent = s.sent := rfl
@[simp] theorem State.onLcore_uid (s : State) (k : Nat) (f : LCore → LCore) : (s.onLcore k f).uid = s.uid := rfl
@[simp] theorem State.onLcore_draw (s : State) (k : Nat) (f : LCore → LCore) : (s.onLcore k f).draw = s.draw := rfl

/-! ### State.onTask -/

@[simp] theorem State.onTask_cur (s : State) (k : Nat) (f : Task → Task) : (s.onTask k f).cur = s.cur := rfl
@[simp] theorem State.onTask_agenda (s : State) (k : Nat) (f : Task → Task) : (s.onTask k f).agenda = s.agenda := rfl
@[simp] theorem State.onTask_strands (s : State) (k : Nat) (f : Task → Task) : (s.onTask k f).strands = s.strands := rfl
@[simp] theorem State.onTask_lcores (s : State) (k : Nat) (f : Task → Task) : (s.onTask k f).lcores = s.lcores := rfl
@[simp] theorem State.onTask_cores (s : State) (k : Nat) (f : Task → Task) : (s.onTask k f).cores = s.cores := rfl
@[simp] theorem State.onTask_arrays (s : State) (k : Nat) (f : Task → Task) : (s.onTask k f).arrays = s.arrays := rfl
@[simp] theorem State.onTask_banks (s : State) (k : Nat) (f : Task → Task) : (s.onTask k f).banks = s.banks := rfl
@[simp] theorem State.onTask_ws (s : State) (k : Nat) (f : Task → Task) : (s.onTask k f).ws = s.ws := rfl
@[simp] theorem State.onTask_wsPhase (s : State) (k : Nat) (f : Task → Task) : (s.onTask k f).wsPhase = s.wsPhase := rfl
@[simp] theorem State.onTask_wsGated (s : State) (k : Nat) (f : Task → Task) : (s.onTask k f).wsGated = s.wsGated := rfl
@[simp] theorem State.onTask_wsWaking (s : State) (k : Nat) (f : Task → Task) : (s.onTask k f).wsWaking = s.wsWaking := rfl
@[simp] theorem State.onTask_mem (s : State) (k : Nat) (f : Task → Task) : (s.onTask k f).mem = s.mem := rfl
@[simp] theorem State.onTask_hostMem (s : State) (k : Nat) (f : Task → Task) : (s.onTask k f).hostMem = s.hostMem := rfl
@[simp] theorem State.onTask_vrs (s : State) (k : Nat) (f : Task → Task) : (s.onTask k f).vrs = s.vrs := rfl
@[simp] theorem State.onTask_fns (s : State) (k : Nat) (f : Task → Task) : (s.onTask k f).fns = s.fns := rfl
@[simp] theorem State.onTask_binds (s : State) (k : Nat) (f : Task → Task) : (s.onTask k f).binds = s.binds := rfl
@[simp] theorem State.onTask_binderr (s : State) (k : Nat) (f : Task → Task) : (s.onTask k f).binderr = s.binderr := rfl
@[simp] theorem State.onTask_detmode (s : State) (k : Nat) (f : Task → Task) : (s.onTask k f).detmode = s.detmode := rfl
@[simp] theorem State.onTask_period (s : State) (k : Nat) (f : Task → Task) : (s.onTask k f).period = s.period := rfl
@[simp] theorem State.onTask_periodAt (s : State) (k : Nat) (f : Task → Task) : (s.onTask k f).periodAt = s.periodAt := rfl
@[simp] theorem State.onTask_cycle (s : State) (k : Nat) (f : Task → Task) : (s.onTask k f).cycle = s.cycle := rfl
@[simp] theorem State.onTask_power (s : State) (k : Nat) (f : Task → Task) : (s.onTask k f).power = s.power := rfl
@[simp] theorem State.onTask_clockStep (s : State) (k : Nat) (f : Task → Task) : (s.onTask k f).clockStep = s.clockStep := rfl
@[simp] theorem State.onTask_bin (s : State) (k : Nat) (f : Task → Task) : (s.onTask k f).bin = s.bin := rfl
@[simp] theorem State.onTask_fuses (s : State) (k : Nat) (f : Task → Task) : (s.onTask k f).fuses = s.fuses := rfl
@[simp] theorem State.onTask_isPackage (s : State) (k : Nat) (f : Task → Task) : (s.onTask k f).isPackage = s.isPackage := rfl
@[simp] theorem State.onTask_supplied (s : State) (k : Nat) (f : Task → Task) : (s.onTask k f).supplied = s.supplied := rfl
@[simp] theorem State.onTask_endpoint (s : State) (k : Nat) (f : Task → Task) : (s.onTask k f).endpoint = s.endpoint := rfl
@[simp] theorem State.onTask_location (s : State) (k : Nat) (f : Task → Task) : (s.onTask k f).location = s.location := rfl
@[simp] theorem State.onTask_route (s : State) (k : Nat) (f : Task → Task) : (s.onTask k f).route = s.route := rfl
@[simp] theorem State.onTask_ports (s : State) (k : Nat) (f : Task → Task) : (s.onTask k f).ports = s.ports := rfl
@[simp] theorem State.onTask_lanethr (s : State) (k : Nat) (f : Task → Task) : (s.onTask k f).lanethr = s.lanethr := rfl
@[simp] theorem State.onTask_pairs (s : State) (k : Nat) (f : Task → Task) : (s.onTask k f).pairs = s.pairs := rfl
@[simp] theorem State.onTask_unacked (s : State) (k : Nat) (f : Task → Task) : (s.onTask k f).unacked = s.unacked := rfl
@[simp] theorem State.onTask_late (s : State) (k : Nat) (f : Task → Task) : (s.onTask k f).late = s.late := rfl
@[simp] theorem State.onTask_rops (s : State) (k : Nat) (f : Task → Task) : (s.onTask k f).rops = s.rops := rfl
@[simp] theorem State.onTask_hold (s : State) (k : Nat) (f : Task → Task) : (s.onTask k f).hold = s.hold := rfl
@[simp] theorem State.onTask_faults (s : State) (k : Nat) (f : Task → Task) : (s.onTask k f).faults = s.faults := rfl
@[simp] theorem State.onTask_denied (s : State) (k : Nat) (f : Task → Task) : (s.onTask k f).denied = s.denied := rfl
@[simp] theorem State.onTask_ftlb (s : State) (k : Nat) (f : Task → Task) : (s.onTask k f).ftlb = s.ftlb := rfl
@[simp] theorem State.onTask_portDrops (s : State) (k : Nat) (f : Task → Task) : (s.onTask k f).portDrops = s.portDrops := rfl
@[simp] theorem State.onTask_injPtr (s : State) (k : Nat) (f : Task → Task) : (s.onTask k f).injPtr = s.injPtr := rfl
@[simp] theorem State.onTask_memPtr (s : State) (k : Nat) (f : Task → Task) : (s.onTask k f).memPtr = s.memPtr := rfl
@[simp] theorem State.onTask_stackBytes (s : State) (k : Nat) (f : Task → Task) : (s.onTask k f).stackBytes = s.stackBytes := rfl
@[simp] theorem State.onTask_waits (s : State) (k : Nat) (f : Task → Task) : (s.onTask k f).waits = s.waits := rfl
@[simp] theorem State.onTask_rels (s : State) (k : Nat) (f : Task → Task) : (s.onTask k f).rels = s.rels := rfl
@[simp] theorem State.onTask_olds (s : State) (k : Nat) (f : Task → Task) : (s.onTask k f).olds = s.olds := rfl
@[simp] theorem State.onTask_sup (s : State) (k : Nat) (f : Task → Task) : (s.onTask k f).sup = s.sup := rfl
@[simp] theorem State.onTask_sent (s : State) (k : Nat) (f : Task → Task) : (s.onTask k f).sent = s.sent := rfl
@[simp] theorem State.onTask_uid (s : State) (k : Nat) (f : Task → Task) : (s.onTask k f).uid = s.uid := rfl
@[simp] theorem State.onTask_draw (s : State) (k : Nat) (f : Task → Task) : (s.onTask k f).draw = s.draw := rfl

/-! ### State.onCore -/

@[simp] theorem State.onCore_cur (s : State) (k : Nat) (f : Core → Core) : (s.onCore k f).cur = s.cur := rfl
@[simp] theorem State.onCore_agenda (s : State) (k : Nat) (f : Core → Core) : (s.onCore k f).agenda = s.agenda := rfl
@[simp] theorem State.onCore_strands (s : State) (k : Nat) (f : Core → Core) : (s.onCore k f).strands = s.strands := rfl
@[simp] theorem State.onCore_lcores (s : State) (k : Nat) (f : Core → Core) : (s.onCore k f).lcores = s.lcores := rfl
@[simp] theorem State.onCore_tasks (s : State) (k : Nat) (f : Core → Core) : (s.onCore k f).tasks = s.tasks := rfl
@[simp] theorem State.onCore_arrays (s : State) (k : Nat) (f : Core → Core) : (s.onCore k f).arrays = s.arrays := rfl
@[simp] theorem State.onCore_banks (s : State) (k : Nat) (f : Core → Core) : (s.onCore k f).banks = s.banks := rfl
@[simp] theorem State.onCore_ws (s : State) (k : Nat) (f : Core → Core) : (s.onCore k f).ws = s.ws := rfl
@[simp] theorem State.onCore_wsPhase (s : State) (k : Nat) (f : Core → Core) : (s.onCore k f).wsPhase = s.wsPhase := rfl
@[simp] theorem State.onCore_wsGated (s : State) (k : Nat) (f : Core → Core) : (s.onCore k f).wsGated = s.wsGated := rfl
@[simp] theorem State.onCore_wsWaking (s : State) (k : Nat) (f : Core → Core) : (s.onCore k f).wsWaking = s.wsWaking := rfl
@[simp] theorem State.onCore_mem (s : State) (k : Nat) (f : Core → Core) : (s.onCore k f).mem = s.mem := rfl
@[simp] theorem State.onCore_hostMem (s : State) (k : Nat) (f : Core → Core) : (s.onCore k f).hostMem = s.hostMem := rfl
@[simp] theorem State.onCore_vrs (s : State) (k : Nat) (f : Core → Core) : (s.onCore k f).vrs = s.vrs := rfl
@[simp] theorem State.onCore_fns (s : State) (k : Nat) (f : Core → Core) : (s.onCore k f).fns = s.fns := rfl
@[simp] theorem State.onCore_binds (s : State) (k : Nat) (f : Core → Core) : (s.onCore k f).binds = s.binds := rfl
@[simp] theorem State.onCore_binderr (s : State) (k : Nat) (f : Core → Core) : (s.onCore k f).binderr = s.binderr := rfl
@[simp] theorem State.onCore_detmode (s : State) (k : Nat) (f : Core → Core) : (s.onCore k f).detmode = s.detmode := rfl
@[simp] theorem State.onCore_period (s : State) (k : Nat) (f : Core → Core) : (s.onCore k f).period = s.period := rfl
@[simp] theorem State.onCore_periodAt (s : State) (k : Nat) (f : Core → Core) : (s.onCore k f).periodAt = s.periodAt := rfl
@[simp] theorem State.onCore_cycle (s : State) (k : Nat) (f : Core → Core) : (s.onCore k f).cycle = s.cycle := rfl
@[simp] theorem State.onCore_power (s : State) (k : Nat) (f : Core → Core) : (s.onCore k f).power = s.power := rfl
@[simp] theorem State.onCore_clockStep (s : State) (k : Nat) (f : Core → Core) : (s.onCore k f).clockStep = s.clockStep := rfl
@[simp] theorem State.onCore_bin (s : State) (k : Nat) (f : Core → Core) : (s.onCore k f).bin = s.bin := rfl
@[simp] theorem State.onCore_fuses (s : State) (k : Nat) (f : Core → Core) : (s.onCore k f).fuses = s.fuses := rfl
@[simp] theorem State.onCore_isPackage (s : State) (k : Nat) (f : Core → Core) : (s.onCore k f).isPackage = s.isPackage := rfl
@[simp] theorem State.onCore_supplied (s : State) (k : Nat) (f : Core → Core) : (s.onCore k f).supplied = s.supplied := rfl
@[simp] theorem State.onCore_endpoint (s : State) (k : Nat) (f : Core → Core) : (s.onCore k f).endpoint = s.endpoint := rfl
@[simp] theorem State.onCore_location (s : State) (k : Nat) (f : Core → Core) : (s.onCore k f).location = s.location := rfl
@[simp] theorem State.onCore_route (s : State) (k : Nat) (f : Core → Core) : (s.onCore k f).route = s.route := rfl
@[simp] theorem State.onCore_ports (s : State) (k : Nat) (f : Core → Core) : (s.onCore k f).ports = s.ports := rfl
@[simp] theorem State.onCore_lanethr (s : State) (k : Nat) (f : Core → Core) : (s.onCore k f).lanethr = s.lanethr := rfl
@[simp] theorem State.onCore_pairs (s : State) (k : Nat) (f : Core → Core) : (s.onCore k f).pairs = s.pairs := rfl
@[simp] theorem State.onCore_unacked (s : State) (k : Nat) (f : Core → Core) : (s.onCore k f).unacked = s.unacked := rfl
@[simp] theorem State.onCore_late (s : State) (k : Nat) (f : Core → Core) : (s.onCore k f).late = s.late := rfl
@[simp] theorem State.onCore_rops (s : State) (k : Nat) (f : Core → Core) : (s.onCore k f).rops = s.rops := rfl
@[simp] theorem State.onCore_hold (s : State) (k : Nat) (f : Core → Core) : (s.onCore k f).hold = s.hold := rfl
@[simp] theorem State.onCore_faults (s : State) (k : Nat) (f : Core → Core) : (s.onCore k f).faults = s.faults := rfl
@[simp] theorem State.onCore_denied (s : State) (k : Nat) (f : Core → Core) : (s.onCore k f).denied = s.denied := rfl
@[simp] theorem State.onCore_ftlb (s : State) (k : Nat) (f : Core → Core) : (s.onCore k f).ftlb = s.ftlb := rfl
@[simp] theorem State.onCore_portDrops (s : State) (k : Nat) (f : Core → Core) : (s.onCore k f).portDrops = s.portDrops := rfl
@[simp] theorem State.onCore_injPtr (s : State) (k : Nat) (f : Core → Core) : (s.onCore k f).injPtr = s.injPtr := rfl
@[simp] theorem State.onCore_memPtr (s : State) (k : Nat) (f : Core → Core) : (s.onCore k f).memPtr = s.memPtr := rfl
@[simp] theorem State.onCore_stackBytes (s : State) (k : Nat) (f : Core → Core) : (s.onCore k f).stackBytes = s.stackBytes := rfl
@[simp] theorem State.onCore_waits (s : State) (k : Nat) (f : Core → Core) : (s.onCore k f).waits = s.waits := rfl
@[simp] theorem State.onCore_rels (s : State) (k : Nat) (f : Core → Core) : (s.onCore k f).rels = s.rels := rfl
@[simp] theorem State.onCore_olds (s : State) (k : Nat) (f : Core → Core) : (s.onCore k f).olds = s.olds := rfl
@[simp] theorem State.onCore_sup (s : State) (k : Nat) (f : Core → Core) : (s.onCore k f).sup = s.sup := rfl
@[simp] theorem State.onCore_sent (s : State) (k : Nat) (f : Core → Core) : (s.onCore k f).sent = s.sent := rfl
@[simp] theorem State.onCore_uid (s : State) (k : Nat) (f : Core → Core) : (s.onCore k f).uid = s.uid := rfl
@[simp] theorem State.onCore_draw (s : State) (k : Nat) (f : Core → Core) : (s.onCore k f).draw = s.draw := rfl

/-! ### State.onArray -/

@[simp] theorem State.onArray_cur (s : State) (k : Nat) (f : MArray → MArray) : (s.onArray k f).cur = s.cur := rfl
@[simp] theorem State.onArray_agenda (s : State) (k : Nat) (f : MArray → MArray) : (s.onArray k f).agenda = s.agenda := rfl
@[simp] theorem State.onArray_strands (s : State) (k : Nat) (f : MArray → MArray) : (s.onArray k f).strands = s.strands := rfl
@[simp] theorem State.onArray_lcores (s : State) (k : Nat) (f : MArray → MArray) : (s.onArray k f).lcores = s.lcores := rfl
@[simp] theorem State.onArray_tasks (s : State) (k : Nat) (f : MArray → MArray) : (s.onArray k f).tasks = s.tasks := rfl
@[simp] theorem State.onArray_cores (s : State) (k : Nat) (f : MArray → MArray) : (s.onArray k f).cores = s.cores := rfl
@[simp] theorem State.onArray_banks (s : State) (k : Nat) (f : MArray → MArray) : (s.onArray k f).banks = s.banks := rfl
@[simp] theorem State.onArray_ws (s : State) (k : Nat) (f : MArray → MArray) : (s.onArray k f).ws = s.ws := rfl
@[simp] theorem State.onArray_wsPhase (s : State) (k : Nat) (f : MArray → MArray) : (s.onArray k f).wsPhase = s.wsPhase := rfl
@[simp] theorem State.onArray_wsGated (s : State) (k : Nat) (f : MArray → MArray) : (s.onArray k f).wsGated = s.wsGated := rfl
@[simp] theorem State.onArray_wsWaking (s : State) (k : Nat) (f : MArray → MArray) : (s.onArray k f).wsWaking = s.wsWaking := rfl
@[simp] theorem State.onArray_mem (s : State) (k : Nat) (f : MArray → MArray) : (s.onArray k f).mem = s.mem := rfl
@[simp] theorem State.onArray_hostMem (s : State) (k : Nat) (f : MArray → MArray) : (s.onArray k f).hostMem = s.hostMem := rfl
@[simp] theorem State.onArray_vrs (s : State) (k : Nat) (f : MArray → MArray) : (s.onArray k f).vrs = s.vrs := rfl
@[simp] theorem State.onArray_fns (s : State) (k : Nat) (f : MArray → MArray) : (s.onArray k f).fns = s.fns := rfl
@[simp] theorem State.onArray_binds (s : State) (k : Nat) (f : MArray → MArray) : (s.onArray k f).binds = s.binds := rfl
@[simp] theorem State.onArray_binderr (s : State) (k : Nat) (f : MArray → MArray) : (s.onArray k f).binderr = s.binderr := rfl
@[simp] theorem State.onArray_detmode (s : State) (k : Nat) (f : MArray → MArray) : (s.onArray k f).detmode = s.detmode := rfl
@[simp] theorem State.onArray_period (s : State) (k : Nat) (f : MArray → MArray) : (s.onArray k f).period = s.period := rfl
@[simp] theorem State.onArray_periodAt (s : State) (k : Nat) (f : MArray → MArray) : (s.onArray k f).periodAt = s.periodAt := rfl
@[simp] theorem State.onArray_cycle (s : State) (k : Nat) (f : MArray → MArray) : (s.onArray k f).cycle = s.cycle := rfl
@[simp] theorem State.onArray_power (s : State) (k : Nat) (f : MArray → MArray) : (s.onArray k f).power = s.power := rfl
@[simp] theorem State.onArray_clockStep (s : State) (k : Nat) (f : MArray → MArray) : (s.onArray k f).clockStep = s.clockStep := rfl
@[simp] theorem State.onArray_bin (s : State) (k : Nat) (f : MArray → MArray) : (s.onArray k f).bin = s.bin := rfl
@[simp] theorem State.onArray_fuses (s : State) (k : Nat) (f : MArray → MArray) : (s.onArray k f).fuses = s.fuses := rfl
@[simp] theorem State.onArray_isPackage (s : State) (k : Nat) (f : MArray → MArray) : (s.onArray k f).isPackage = s.isPackage := rfl
@[simp] theorem State.onArray_supplied (s : State) (k : Nat) (f : MArray → MArray) : (s.onArray k f).supplied = s.supplied := rfl
@[simp] theorem State.onArray_endpoint (s : State) (k : Nat) (f : MArray → MArray) : (s.onArray k f).endpoint = s.endpoint := rfl
@[simp] theorem State.onArray_location (s : State) (k : Nat) (f : MArray → MArray) : (s.onArray k f).location = s.location := rfl
@[simp] theorem State.onArray_route (s : State) (k : Nat) (f : MArray → MArray) : (s.onArray k f).route = s.route := rfl
@[simp] theorem State.onArray_ports (s : State) (k : Nat) (f : MArray → MArray) : (s.onArray k f).ports = s.ports := rfl
@[simp] theorem State.onArray_lanethr (s : State) (k : Nat) (f : MArray → MArray) : (s.onArray k f).lanethr = s.lanethr := rfl
@[simp] theorem State.onArray_pairs (s : State) (k : Nat) (f : MArray → MArray) : (s.onArray k f).pairs = s.pairs := rfl
@[simp] theorem State.onArray_unacked (s : State) (k : Nat) (f : MArray → MArray) : (s.onArray k f).unacked = s.unacked := rfl
@[simp] theorem State.onArray_late (s : State) (k : Nat) (f : MArray → MArray) : (s.onArray k f).late = s.late := rfl
@[simp] theorem State.onArray_rops (s : State) (k : Nat) (f : MArray → MArray) : (s.onArray k f).rops = s.rops := rfl
@[simp] theorem State.onArray_hold (s : State) (k : Nat) (f : MArray → MArray) : (s.onArray k f).hold = s.hold := rfl
@[simp] theorem State.onArray_faults (s : State) (k : Nat) (f : MArray → MArray) : (s.onArray k f).faults = s.faults := rfl
@[simp] theorem State.onArray_denied (s : State) (k : Nat) (f : MArray → MArray) : (s.onArray k f).denied = s.denied := rfl
@[simp] theorem State.onArray_ftlb (s : State) (k : Nat) (f : MArray → MArray) : (s.onArray k f).ftlb = s.ftlb := rfl
@[simp] theorem State.onArray_portDrops (s : State) (k : Nat) (f : MArray → MArray) : (s.onArray k f).portDrops = s.portDrops := rfl
@[simp] theorem State.onArray_injPtr (s : State) (k : Nat) (f : MArray → MArray) : (s.onArray k f).injPtr = s.injPtr := rfl
@[simp] theorem State.onArray_memPtr (s : State) (k : Nat) (f : MArray → MArray) : (s.onArray k f).memPtr = s.memPtr := rfl
@[simp] theorem State.onArray_stackBytes (s : State) (k : Nat) (f : MArray → MArray) : (s.onArray k f).stackBytes = s.stackBytes := rfl
@[simp] theorem State.onArray_waits (s : State) (k : Nat) (f : MArray → MArray) : (s.onArray k f).waits = s.waits := rfl
@[simp] theorem State.onArray_rels (s : State) (k : Nat) (f : MArray → MArray) : (s.onArray k f).rels = s.rels := rfl
@[simp] theorem State.onArray_olds (s : State) (k : Nat) (f : MArray → MArray) : (s.onArray k f).olds = s.olds := rfl
@[simp] theorem State.onArray_sup (s : State) (k : Nat) (f : MArray → MArray) : (s.onArray k f).sup = s.sup := rfl
@[simp] theorem State.onArray_sent (s : State) (k : Nat) (f : MArray → MArray) : (s.onArray k f).sent = s.sent := rfl
@[simp] theorem State.onArray_uid (s : State) (k : Nat) (f : MArray → MArray) : (s.onArray k f).uid = s.uid := rfl
@[simp] theorem State.onArray_draw (s : State) (k : Nat) (f : MArray → MArray) : (s.onArray k f).draw = s.draw := rfl

/-! ### State.onBank -/

@[simp] theorem State.onBank_cur (s : State) (k : Nat) (f : Bank → Bank) : (s.onBank k f).cur = s.cur := rfl
@[simp] theorem State.onBank_agenda (s : State) (k : Nat) (f : Bank → Bank) : (s.onBank k f).agenda = s.agenda := rfl
@[simp] theorem State.onBank_strands (s : State) (k : Nat) (f : Bank → Bank) : (s.onBank k f).strands = s.strands := rfl
@[simp] theorem State.onBank_lcores (s : State) (k : Nat) (f : Bank → Bank) : (s.onBank k f).lcores = s.lcores := rfl
@[simp] theorem State.onBank_tasks (s : State) (k : Nat) (f : Bank → Bank) : (s.onBank k f).tasks = s.tasks := rfl
@[simp] theorem State.onBank_cores (s : State) (k : Nat) (f : Bank → Bank) : (s.onBank k f).cores = s.cores := rfl
@[simp] theorem State.onBank_arrays (s : State) (k : Nat) (f : Bank → Bank) : (s.onBank k f).arrays = s.arrays := rfl
@[simp] theorem State.onBank_ws (s : State) (k : Nat) (f : Bank → Bank) : (s.onBank k f).ws = s.ws := rfl
@[simp] theorem State.onBank_wsPhase (s : State) (k : Nat) (f : Bank → Bank) : (s.onBank k f).wsPhase = s.wsPhase := rfl
@[simp] theorem State.onBank_wsGated (s : State) (k : Nat) (f : Bank → Bank) : (s.onBank k f).wsGated = s.wsGated := rfl
@[simp] theorem State.onBank_wsWaking (s : State) (k : Nat) (f : Bank → Bank) : (s.onBank k f).wsWaking = s.wsWaking := rfl
@[simp] theorem State.onBank_mem (s : State) (k : Nat) (f : Bank → Bank) : (s.onBank k f).mem = s.mem := rfl
@[simp] theorem State.onBank_hostMem (s : State) (k : Nat) (f : Bank → Bank) : (s.onBank k f).hostMem = s.hostMem := rfl
@[simp] theorem State.onBank_vrs (s : State) (k : Nat) (f : Bank → Bank) : (s.onBank k f).vrs = s.vrs := rfl
@[simp] theorem State.onBank_fns (s : State) (k : Nat) (f : Bank → Bank) : (s.onBank k f).fns = s.fns := rfl
@[simp] theorem State.onBank_binds (s : State) (k : Nat) (f : Bank → Bank) : (s.onBank k f).binds = s.binds := rfl
@[simp] theorem State.onBank_binderr (s : State) (k : Nat) (f : Bank → Bank) : (s.onBank k f).binderr = s.binderr := rfl
@[simp] theorem State.onBank_detmode (s : State) (k : Nat) (f : Bank → Bank) : (s.onBank k f).detmode = s.detmode := rfl
@[simp] theorem State.onBank_period (s : State) (k : Nat) (f : Bank → Bank) : (s.onBank k f).period = s.period := rfl
@[simp] theorem State.onBank_periodAt (s : State) (k : Nat) (f : Bank → Bank) : (s.onBank k f).periodAt = s.periodAt := rfl
@[simp] theorem State.onBank_cycle (s : State) (k : Nat) (f : Bank → Bank) : (s.onBank k f).cycle = s.cycle := rfl
@[simp] theorem State.onBank_power (s : State) (k : Nat) (f : Bank → Bank) : (s.onBank k f).power = s.power := rfl
@[simp] theorem State.onBank_clockStep (s : State) (k : Nat) (f : Bank → Bank) : (s.onBank k f).clockStep = s.clockStep := rfl
@[simp] theorem State.onBank_bin (s : State) (k : Nat) (f : Bank → Bank) : (s.onBank k f).bin = s.bin := rfl
@[simp] theorem State.onBank_fuses (s : State) (k : Nat) (f : Bank → Bank) : (s.onBank k f).fuses = s.fuses := rfl
@[simp] theorem State.onBank_isPackage (s : State) (k : Nat) (f : Bank → Bank) : (s.onBank k f).isPackage = s.isPackage := rfl
@[simp] theorem State.onBank_supplied (s : State) (k : Nat) (f : Bank → Bank) : (s.onBank k f).supplied = s.supplied := rfl
@[simp] theorem State.onBank_endpoint (s : State) (k : Nat) (f : Bank → Bank) : (s.onBank k f).endpoint = s.endpoint := rfl
@[simp] theorem State.onBank_location (s : State) (k : Nat) (f : Bank → Bank) : (s.onBank k f).location = s.location := rfl
@[simp] theorem State.onBank_route (s : State) (k : Nat) (f : Bank → Bank) : (s.onBank k f).route = s.route := rfl
@[simp] theorem State.onBank_ports (s : State) (k : Nat) (f : Bank → Bank) : (s.onBank k f).ports = s.ports := rfl
@[simp] theorem State.onBank_lanethr (s : State) (k : Nat) (f : Bank → Bank) : (s.onBank k f).lanethr = s.lanethr := rfl
@[simp] theorem State.onBank_pairs (s : State) (k : Nat) (f : Bank → Bank) : (s.onBank k f).pairs = s.pairs := rfl
@[simp] theorem State.onBank_unacked (s : State) (k : Nat) (f : Bank → Bank) : (s.onBank k f).unacked = s.unacked := rfl
@[simp] theorem State.onBank_late (s : State) (k : Nat) (f : Bank → Bank) : (s.onBank k f).late = s.late := rfl
@[simp] theorem State.onBank_rops (s : State) (k : Nat) (f : Bank → Bank) : (s.onBank k f).rops = s.rops := rfl
@[simp] theorem State.onBank_hold (s : State) (k : Nat) (f : Bank → Bank) : (s.onBank k f).hold = s.hold := rfl
@[simp] theorem State.onBank_faults (s : State) (k : Nat) (f : Bank → Bank) : (s.onBank k f).faults = s.faults := rfl
@[simp] theorem State.onBank_denied (s : State) (k : Nat) (f : Bank → Bank) : (s.onBank k f).denied = s.denied := rfl
@[simp] theorem State.onBank_ftlb (s : State) (k : Nat) (f : Bank → Bank) : (s.onBank k f).ftlb = s.ftlb := rfl
@[simp] theorem State.onBank_portDrops (s : State) (k : Nat) (f : Bank → Bank) : (s.onBank k f).portDrops = s.portDrops := rfl
@[simp] theorem State.onBank_injPtr (s : State) (k : Nat) (f : Bank → Bank) : (s.onBank k f).injPtr = s.injPtr := rfl
@[simp] theorem State.onBank_memPtr (s : State) (k : Nat) (f : Bank → Bank) : (s.onBank k f).memPtr = s.memPtr := rfl
@[simp] theorem State.onBank_stackBytes (s : State) (k : Nat) (f : Bank → Bank) : (s.onBank k f).stackBytes = s.stackBytes := rfl
@[simp] theorem State.onBank_waits (s : State) (k : Nat) (f : Bank → Bank) : (s.onBank k f).waits = s.waits := rfl
@[simp] theorem State.onBank_rels (s : State) (k : Nat) (f : Bank → Bank) : (s.onBank k f).rels = s.rels := rfl
@[simp] theorem State.onBank_olds (s : State) (k : Nat) (f : Bank → Bank) : (s.onBank k f).olds = s.olds := rfl
@[simp] theorem State.onBank_sup (s : State) (k : Nat) (f : Bank → Bank) : (s.onBank k f).sup = s.sup := rfl
@[simp] theorem State.onBank_sent (s : State) (k : Nat) (f : Bank → Bank) : (s.onBank k f).sent = s.sent := rfl
@[simp] theorem State.onBank_uid (s : State) (k : Nat) (f : Bank → Bank) : (s.onBank k f).uid = s.uid := rfl
@[simp] theorem State.onBank_draw (s : State) (k : Nat) (f : Bank → Bank) : (s.onBank k f).draw = s.draw := rfl

/-! ### State.onVr -/

@[simp] theorem State.onVr_cur (s : State) (k : Nat) (f : Vr → Vr) : (s.onVr k f).cur = s.cur := rfl
@[simp] theorem State.onVr_agenda (s : State) (k : Nat) (f : Vr → Vr) : (s.onVr k f).agenda = s.agenda := rfl
@[simp] theorem State.onVr_strands (s : State) (k : Nat) (f : Vr → Vr) : (s.onVr k f).strands = s.strands := rfl
@[simp] theorem State.onVr_lcores (s : State) (k : Nat) (f : Vr → Vr) : (s.onVr k f).lcores = s.lcores := rfl
@[simp] theorem State.onVr_tasks (s : State) (k : Nat) (f : Vr → Vr) : (s.onVr k f).tasks = s.tasks := rfl
@[simp] theorem State.onVr_cores (s : State) (k : Nat) (f : Vr → Vr) : (s.onVr k f).cores = s.cores := rfl
@[simp] theorem State.onVr_arrays (s : State) (k : Nat) (f : Vr → Vr) : (s.onVr k f).arrays = s.arrays := rfl
@[simp] theorem State.onVr_banks (s : State) (k : Nat) (f : Vr → Vr) : (s.onVr k f).banks = s.banks := rfl
@[simp] theorem State.onVr_ws (s : State) (k : Nat) (f : Vr → Vr) : (s.onVr k f).ws = s.ws := rfl
@[simp] theorem State.onVr_wsPhase (s : State) (k : Nat) (f : Vr → Vr) : (s.onVr k f).wsPhase = s.wsPhase := rfl
@[simp] theorem State.onVr_wsGated (s : State) (k : Nat) (f : Vr → Vr) : (s.onVr k f).wsGated = s.wsGated := rfl
@[simp] theorem State.onVr_wsWaking (s : State) (k : Nat) (f : Vr → Vr) : (s.onVr k f).wsWaking = s.wsWaking := rfl
@[simp] theorem State.onVr_mem (s : State) (k : Nat) (f : Vr → Vr) : (s.onVr k f).mem = s.mem := rfl
@[simp] theorem State.onVr_hostMem (s : State) (k : Nat) (f : Vr → Vr) : (s.onVr k f).hostMem = s.hostMem := rfl
@[simp] theorem State.onVr_fns (s : State) (k : Nat) (f : Vr → Vr) : (s.onVr k f).fns = s.fns := rfl
@[simp] theorem State.onVr_binds (s : State) (k : Nat) (f : Vr → Vr) : (s.onVr k f).binds = s.binds := rfl
@[simp] theorem State.onVr_binderr (s : State) (k : Nat) (f : Vr → Vr) : (s.onVr k f).binderr = s.binderr := rfl
@[simp] theorem State.onVr_detmode (s : State) (k : Nat) (f : Vr → Vr) : (s.onVr k f).detmode = s.detmode := rfl
@[simp] theorem State.onVr_period (s : State) (k : Nat) (f : Vr → Vr) : (s.onVr k f).period = s.period := rfl
@[simp] theorem State.onVr_periodAt (s : State) (k : Nat) (f : Vr → Vr) : (s.onVr k f).periodAt = s.periodAt := rfl
@[simp] theorem State.onVr_cycle (s : State) (k : Nat) (f : Vr → Vr) : (s.onVr k f).cycle = s.cycle := rfl
@[simp] theorem State.onVr_power (s : State) (k : Nat) (f : Vr → Vr) : (s.onVr k f).power = s.power := rfl
@[simp] theorem State.onVr_clockStep (s : State) (k : Nat) (f : Vr → Vr) : (s.onVr k f).clockStep = s.clockStep := rfl
@[simp] theorem State.onVr_bin (s : State) (k : Nat) (f : Vr → Vr) : (s.onVr k f).bin = s.bin := rfl
@[simp] theorem State.onVr_fuses (s : State) (k : Nat) (f : Vr → Vr) : (s.onVr k f).fuses = s.fuses := rfl
@[simp] theorem State.onVr_isPackage (s : State) (k : Nat) (f : Vr → Vr) : (s.onVr k f).isPackage = s.isPackage := rfl
@[simp] theorem State.onVr_supplied (s : State) (k : Nat) (f : Vr → Vr) : (s.onVr k f).supplied = s.supplied := rfl
@[simp] theorem State.onVr_endpoint (s : State) (k : Nat) (f : Vr → Vr) : (s.onVr k f).endpoint = s.endpoint := rfl
@[simp] theorem State.onVr_location (s : State) (k : Nat) (f : Vr → Vr) : (s.onVr k f).location = s.location := rfl
@[simp] theorem State.onVr_route (s : State) (k : Nat) (f : Vr → Vr) : (s.onVr k f).route = s.route := rfl
@[simp] theorem State.onVr_ports (s : State) (k : Nat) (f : Vr → Vr) : (s.onVr k f).ports = s.ports := rfl
@[simp] theorem State.onVr_lanethr (s : State) (k : Nat) (f : Vr → Vr) : (s.onVr k f).lanethr = s.lanethr := rfl
@[simp] theorem State.onVr_pairs (s : State) (k : Nat) (f : Vr → Vr) : (s.onVr k f).pairs = s.pairs := rfl
@[simp] theorem State.onVr_unacked (s : State) (k : Nat) (f : Vr → Vr) : (s.onVr k f).unacked = s.unacked := rfl
@[simp] theorem State.onVr_late (s : State) (k : Nat) (f : Vr → Vr) : (s.onVr k f).late = s.late := rfl
@[simp] theorem State.onVr_rops (s : State) (k : Nat) (f : Vr → Vr) : (s.onVr k f).rops = s.rops := rfl
@[simp] theorem State.onVr_hold (s : State) (k : Nat) (f : Vr → Vr) : (s.onVr k f).hold = s.hold := rfl
@[simp] theorem State.onVr_faults (s : State) (k : Nat) (f : Vr → Vr) : (s.onVr k f).faults = s.faults := rfl
@[simp] theorem State.onVr_denied (s : State) (k : Nat) (f : Vr → Vr) : (s.onVr k f).denied = s.denied := rfl
@[simp] theorem State.onVr_ftlb (s : State) (k : Nat) (f : Vr → Vr) : (s.onVr k f).ftlb = s.ftlb := rfl
@[simp] theorem State.onVr_portDrops (s : State) (k : Nat) (f : Vr → Vr) : (s.onVr k f).portDrops = s.portDrops := rfl
@[simp] theorem State.onVr_injPtr (s : State) (k : Nat) (f : Vr → Vr) : (s.onVr k f).injPtr = s.injPtr := rfl
@[simp] theorem State.onVr_memPtr (s : State) (k : Nat) (f : Vr → Vr) : (s.onVr k f).memPtr = s.memPtr := rfl
@[simp] theorem State.onVr_stackBytes (s : State) (k : Nat) (f : Vr → Vr) : (s.onVr k f).stackBytes = s.stackBytes := rfl
@[simp] theorem State.onVr_waits (s : State) (k : Nat) (f : Vr → Vr) : (s.onVr k f).waits = s.waits := rfl
@[simp] theorem State.onVr_rels (s : State) (k : Nat) (f : Vr → Vr) : (s.onVr k f).rels = s.rels := rfl
@[simp] theorem State.onVr_olds (s : State) (k : Nat) (f : Vr → Vr) : (s.onVr k f).olds = s.olds := rfl
@[simp] theorem State.onVr_sup (s : State) (k : Nat) (f : Vr → Vr) : (s.onVr k f).sup = s.sup := rfl
@[simp] theorem State.onVr_sent (s : State) (k : Nat) (f : Vr → Vr) : (s.onVr k f).sent = s.sent := rfl
@[simp] theorem State.onVr_uid (s : State) (k : Nat) (f : Vr → Vr) : (s.onVr k f).uid = s.uid := rfl
@[simp] theorem State.onVr_draw (s : State) (k : Nat) (f : Vr → Vr) : (s.onVr k f).draw = s.draw := rfl

/-! ### State.onFn -/

@[simp] theorem State.onFn_cur (s : State) (k : Nat) (f : Fn → Fn) : (s.onFn k f).cur = s.cur := rfl
@[simp] theorem State.onFn_agenda (s : State) (k : Nat) (f : Fn → Fn) : (s.onFn k f).agenda = s.agenda := rfl
@[simp] theorem State.onFn_strands (s : State) (k : Nat) (f : Fn → Fn) : (s.onFn k f).strands = s.strands := rfl
@[simp] theorem State.onFn_lcores (s : State) (k : Nat) (f : Fn → Fn) : (s.onFn k f).lcores = s.lcores := rfl
@[simp] theorem State.onFn_tasks (s : State) (k : Nat) (f : Fn → Fn) : (s.onFn k f).tasks = s.tasks := rfl
@[simp] theorem State.onFn_cores (s : State) (k : Nat) (f : Fn → Fn) : (s.onFn k f).cores = s.cores := rfl
@[simp] theorem State.onFn_arrays (s : State) (k : Nat) (f : Fn → Fn) : (s.onFn k f).arrays = s.arrays := rfl
@[simp] theorem State.onFn_banks (s : State) (k : Nat) (f : Fn → Fn) : (s.onFn k f).banks = s.banks := rfl
@[simp] theorem State.onFn_ws (s : State) (k : Nat) (f : Fn → Fn) : (s.onFn k f).ws = s.ws := rfl
@[simp] theorem State.onFn_wsPhase (s : State) (k : Nat) (f : Fn → Fn) : (s.onFn k f).wsPhase = s.wsPhase := rfl
@[simp] theorem State.onFn_wsGated (s : State) (k : Nat) (f : Fn → Fn) : (s.onFn k f).wsGated = s.wsGated := rfl
@[simp] theorem State.onFn_wsWaking (s : State) (k : Nat) (f : Fn → Fn) : (s.onFn k f).wsWaking = s.wsWaking := rfl
@[simp] theorem State.onFn_mem (s : State) (k : Nat) (f : Fn → Fn) : (s.onFn k f).mem = s.mem := rfl
@[simp] theorem State.onFn_hostMem (s : State) (k : Nat) (f : Fn → Fn) : (s.onFn k f).hostMem = s.hostMem := rfl
@[simp] theorem State.onFn_vrs (s : State) (k : Nat) (f : Fn → Fn) : (s.onFn k f).vrs = s.vrs := rfl
@[simp] theorem State.onFn_binds (s : State) (k : Nat) (f : Fn → Fn) : (s.onFn k f).binds = s.binds := rfl
@[simp] theorem State.onFn_binderr (s : State) (k : Nat) (f : Fn → Fn) : (s.onFn k f).binderr = s.binderr := rfl
@[simp] theorem State.onFn_detmode (s : State) (k : Nat) (f : Fn → Fn) : (s.onFn k f).detmode = s.detmode := rfl
@[simp] theorem State.onFn_period (s : State) (k : Nat) (f : Fn → Fn) : (s.onFn k f).period = s.period := rfl
@[simp] theorem State.onFn_periodAt (s : State) (k : Nat) (f : Fn → Fn) : (s.onFn k f).periodAt = s.periodAt := rfl
@[simp] theorem State.onFn_cycle (s : State) (k : Nat) (f : Fn → Fn) : (s.onFn k f).cycle = s.cycle := rfl
@[simp] theorem State.onFn_power (s : State) (k : Nat) (f : Fn → Fn) : (s.onFn k f).power = s.power := rfl
@[simp] theorem State.onFn_clockStep (s : State) (k : Nat) (f : Fn → Fn) : (s.onFn k f).clockStep = s.clockStep := rfl
@[simp] theorem State.onFn_bin (s : State) (k : Nat) (f : Fn → Fn) : (s.onFn k f).bin = s.bin := rfl
@[simp] theorem State.onFn_fuses (s : State) (k : Nat) (f : Fn → Fn) : (s.onFn k f).fuses = s.fuses := rfl
@[simp] theorem State.onFn_isPackage (s : State) (k : Nat) (f : Fn → Fn) : (s.onFn k f).isPackage = s.isPackage := rfl
@[simp] theorem State.onFn_supplied (s : State) (k : Nat) (f : Fn → Fn) : (s.onFn k f).supplied = s.supplied := rfl
@[simp] theorem State.onFn_endpoint (s : State) (k : Nat) (f : Fn → Fn) : (s.onFn k f).endpoint = s.endpoint := rfl
@[simp] theorem State.onFn_location (s : State) (k : Nat) (f : Fn → Fn) : (s.onFn k f).location = s.location := rfl
@[simp] theorem State.onFn_route (s : State) (k : Nat) (f : Fn → Fn) : (s.onFn k f).route = s.route := rfl
@[simp] theorem State.onFn_ports (s : State) (k : Nat) (f : Fn → Fn) : (s.onFn k f).ports = s.ports := rfl
@[simp] theorem State.onFn_lanethr (s : State) (k : Nat) (f : Fn → Fn) : (s.onFn k f).lanethr = s.lanethr := rfl
@[simp] theorem State.onFn_pairs (s : State) (k : Nat) (f : Fn → Fn) : (s.onFn k f).pairs = s.pairs := rfl
@[simp] theorem State.onFn_unacked (s : State) (k : Nat) (f : Fn → Fn) : (s.onFn k f).unacked = s.unacked := rfl
@[simp] theorem State.onFn_late (s : State) (k : Nat) (f : Fn → Fn) : (s.onFn k f).late = s.late := rfl
@[simp] theorem State.onFn_rops (s : State) (k : Nat) (f : Fn → Fn) : (s.onFn k f).rops = s.rops := rfl
@[simp] theorem State.onFn_hold (s : State) (k : Nat) (f : Fn → Fn) : (s.onFn k f).hold = s.hold := rfl
@[simp] theorem State.onFn_faults (s : State) (k : Nat) (f : Fn → Fn) : (s.onFn k f).faults = s.faults := rfl
@[simp] theorem State.onFn_denied (s : State) (k : Nat) (f : Fn → Fn) : (s.onFn k f).denied = s.denied := rfl
@[simp] theorem State.onFn_ftlb (s : State) (k : Nat) (f : Fn → Fn) : (s.onFn k f).ftlb = s.ftlb := rfl
@[simp] theorem State.onFn_portDrops (s : State) (k : Nat) (f : Fn → Fn) : (s.onFn k f).portDrops = s.portDrops := rfl
@[simp] theorem State.onFn_injPtr (s : State) (k : Nat) (f : Fn → Fn) : (s.onFn k f).injPtr = s.injPtr := rfl
@[simp] theorem State.onFn_memPtr (s : State) (k : Nat) (f : Fn → Fn) : (s.onFn k f).memPtr = s.memPtr := rfl
@[simp] theorem State.onFn_stackBytes (s : State) (k : Nat) (f : Fn → Fn) : (s.onFn k f).stackBytes = s.stackBytes := rfl
@[simp] theorem State.onFn_waits (s : State) (k : Nat) (f : Fn → Fn) : (s.onFn k f).waits = s.waits := rfl
@[simp] theorem State.onFn_rels (s : State) (k : Nat) (f : Fn → Fn) : (s.onFn k f).rels = s.rels := rfl
@[simp] theorem State.onFn_olds (s : State) (k : Nat) (f : Fn → Fn) : (s.onFn k f).olds = s.olds := rfl
@[simp] theorem State.onFn_sup (s : State) (k : Nat) (f : Fn → Fn) : (s.onFn k f).sup = s.sup := rfl
@[simp] theorem State.onFn_sent (s : State) (k : Nat) (f : Fn → Fn) : (s.onFn k f).sent = s.sent := rfl
@[simp] theorem State.onFn_uid (s : State) (k : Nat) (f : Fn → Fn) : (s.onFn k f).uid = s.uid := rfl
@[simp] theorem State.onFn_draw (s : State) (k : Nat) (f : Fn → Fn) : (s.onFn k f).draw = s.draw := rfl

/-! ### State.later -/

@[simp] theorem State.later_cur (s : State) (x : Turn) : (s.later x).cur = s.cur := rfl
@[simp] theorem State.later_strands (s : State) (x : Turn) : (s.later x).strands = s.strands := rfl
@[simp] theorem State.later_lcores (s : State) (x : Turn) : (s.later x).lcores = s.lcores := rfl
@[simp] theorem State.later_tasks (s : State) (x : Turn) : (s.later x).tasks = s.tasks := rfl
@[simp] theorem State.later_cores (s : State) (x : Turn) : (s.later x).cores = s.cores := rfl
@[simp] theorem State.later_arrays (s : State) (x : Turn) : (s.later x).arrays = s.arrays := rfl
@[simp] theorem State.later_banks (s : State) (x : Turn) : (s.later x).banks = s.banks := rfl
@[simp] theorem State.later_ws (s : State) (x : Turn) : (s.later x).ws = s.ws := rfl
@[simp] theorem State.later_wsPhase (s : State) (x : Turn) : (s.later x).wsPhase = s.wsPhase := rfl
@[simp] theorem State.later_wsGated (s : State) (x : Turn) : (s.later x).wsGated = s.wsGated := rfl
@[simp] theorem State.later_wsWaking (s : State) (x : Turn) : (s.later x).wsWaking = s.wsWaking := rfl
@[simp] theorem State.later_mem (s : State) (x : Turn) : (s.later x).mem = s.mem := rfl
@[simp] theorem State.later_hostMem (s : State) (x : Turn) : (s.later x).hostMem = s.hostMem := rfl
@[simp] theorem State.later_vrs (s : State) (x : Turn) : (s.later x).vrs = s.vrs := rfl
@[simp] theorem State.later_fns (s : State) (x : Turn) : (s.later x).fns = s.fns := rfl
@[simp] theorem State.later_binds (s : State) (x : Turn) : (s.later x).binds = s.binds := rfl
@[simp] theorem State.later_binderr (s : State) (x : Turn) : (s.later x).binderr = s.binderr := rfl
@[simp] theorem State.later_detmode (s : State) (x : Turn) : (s.later x).detmode = s.detmode := rfl
@[simp] theorem State.later_period (s : State) (x : Turn) : (s.later x).period = s.period := rfl
@[simp] theorem State.later_periodAt (s : State) (x : Turn) : (s.later x).periodAt = s.periodAt := rfl
@[simp] theorem State.later_cycle (s : State) (x : Turn) : (s.later x).cycle = s.cycle := rfl
@[simp] theorem State.later_power (s : State) (x : Turn) : (s.later x).power = s.power := rfl
@[simp] theorem State.later_clockStep (s : State) (x : Turn) : (s.later x).clockStep = s.clockStep := rfl
@[simp] theorem State.later_bin (s : State) (x : Turn) : (s.later x).bin = s.bin := rfl
@[simp] theorem State.later_fuses (s : State) (x : Turn) : (s.later x).fuses = s.fuses := rfl
@[simp] theorem State.later_isPackage (s : State) (x : Turn) : (s.later x).isPackage = s.isPackage := rfl
@[simp] theorem State.later_supplied (s : State) (x : Turn) : (s.later x).supplied = s.supplied := rfl
@[simp] theorem State.later_endpoint (s : State) (x : Turn) : (s.later x).endpoint = s.endpoint := rfl
@[simp] theorem State.later_location (s : State) (x : Turn) : (s.later x).location = s.location := rfl
@[simp] theorem State.later_route (s : State) (x : Turn) : (s.later x).route = s.route := rfl
@[simp] theorem State.later_ports (s : State) (x : Turn) : (s.later x).ports = s.ports := rfl
@[simp] theorem State.later_lanethr (s : State) (x : Turn) : (s.later x).lanethr = s.lanethr := rfl
@[simp] theorem State.later_pairs (s : State) (x : Turn) : (s.later x).pairs = s.pairs := rfl
@[simp] theorem State.later_unacked (s : State) (x : Turn) : (s.later x).unacked = s.unacked := rfl
@[simp] theorem State.later_late (s : State) (x : Turn) : (s.later x).late = s.late := rfl
@[simp] theorem State.later_rops (s : State) (x : Turn) : (s.later x).rops = s.rops := rfl
@[simp] theorem State.later_hold (s : State) (x : Turn) : (s.later x).hold = s.hold := rfl
@[simp] theorem State.later_faults (s : State) (x : Turn) : (s.later x).faults = s.faults := rfl
@[simp] theorem State.later_denied (s : State) (x : Turn) : (s.later x).denied = s.denied := rfl
@[simp] theorem State.later_ftlb (s : State) (x : Turn) : (s.later x).ftlb = s.ftlb := rfl
@[simp] theorem State.later_portDrops (s : State) (x : Turn) : (s.later x).portDrops = s.portDrops := rfl
@[simp] theorem State.later_injPtr (s : State) (x : Turn) : (s.later x).injPtr = s.injPtr := rfl
@[simp] theorem State.later_memPtr (s : State) (x : Turn) : (s.later x).memPtr = s.memPtr := rfl
@[simp] theorem State.later_stackBytes (s : State) (x : Turn) : (s.later x).stackBytes = s.stackBytes := rfl
@[simp] theorem State.later_waits (s : State) (x : Turn) : (s.later x).waits = s.waits := rfl
@[simp] theorem State.later_rels (s : State) (x : Turn) : (s.later x).rels = s.rels := rfl
@[simp] theorem State.later_olds (s : State) (x : Turn) : (s.later x).olds = s.olds := rfl
@[simp] theorem State.later_sup (s : State) (x : Turn) : (s.later x).sup = s.sup := rfl
@[simp] theorem State.later_sent (s : State) (x : Turn) : (s.later x).sent = s.sent := rfl
@[simp] theorem State.later_uid (s : State) (x : Turn) : (s.later x).uid = s.uid := rfl
@[simp] theorem State.later_draw (s : State) (x : Turn) : (s.later x).draw = s.draw := rfl

/-! ### State.tickUid -/

@[simp] theorem State.tickUid_cur (s : State) : (s.tickUid).cur = s.cur := rfl
@[simp] theorem State.tickUid_agenda (s : State) : (s.tickUid).agenda = s.agenda := rfl
@[simp] theorem State.tickUid_strands (s : State) : (s.tickUid).strands = s.strands := rfl
@[simp] theorem State.tickUid_lcores (s : State) : (s.tickUid).lcores = s.lcores := rfl
@[simp] theorem State.tickUid_tasks (s : State) : (s.tickUid).tasks = s.tasks := rfl
@[simp] theorem State.tickUid_cores (s : State) : (s.tickUid).cores = s.cores := rfl
@[simp] theorem State.tickUid_arrays (s : State) : (s.tickUid).arrays = s.arrays := rfl
@[simp] theorem State.tickUid_banks (s : State) : (s.tickUid).banks = s.banks := rfl
@[simp] theorem State.tickUid_ws (s : State) : (s.tickUid).ws = s.ws := rfl
@[simp] theorem State.tickUid_wsPhase (s : State) : (s.tickUid).wsPhase = s.wsPhase := rfl
@[simp] theorem State.tickUid_wsGated (s : State) : (s.tickUid).wsGated = s.wsGated := rfl
@[simp] theorem State.tickUid_wsWaking (s : State) : (s.tickUid).wsWaking = s.wsWaking := rfl
@[simp] theorem State.tickUid_mem (s : State) : (s.tickUid).mem = s.mem := rfl
@[simp] theorem State.tickUid_hostMem (s : State) : (s.tickUid).hostMem = s.hostMem := rfl
@[simp] theorem State.tickUid_vrs (s : State) : (s.tickUid).vrs = s.vrs := rfl
@[simp] theorem State.tickUid_fns (s : State) : (s.tickUid).fns = s.fns := rfl
@[simp] theorem State.tickUid_binds (s : State) : (s.tickUid).binds = s.binds := rfl
@[simp] theorem State.tickUid_binderr (s : State) : (s.tickUid).binderr = s.binderr := rfl
@[simp] theorem State.tickUid_detmode (s : State) : (s.tickUid).detmode = s.detmode := rfl
@[simp] theorem State.tickUid_period (s : State) : (s.tickUid).period = s.period := rfl
@[simp] theorem State.tickUid_periodAt (s : State) : (s.tickUid).periodAt = s.periodAt := rfl
@[simp] theorem State.tickUid_cycle (s : State) : (s.tickUid).cycle = s.cycle := rfl
@[simp] theorem State.tickUid_power (s : State) : (s.tickUid).power = s.power := rfl
@[simp] theorem State.tickUid_clockStep (s : State) : (s.tickUid).clockStep = s.clockStep := rfl
@[simp] theorem State.tickUid_bin (s : State) : (s.tickUid).bin = s.bin := rfl
@[simp] theorem State.tickUid_fuses (s : State) : (s.tickUid).fuses = s.fuses := rfl
@[simp] theorem State.tickUid_isPackage (s : State) : (s.tickUid).isPackage = s.isPackage := rfl
@[simp] theorem State.tickUid_supplied (s : State) : (s.tickUid).supplied = s.supplied := rfl
@[simp] theorem State.tickUid_endpoint (s : State) : (s.tickUid).endpoint = s.endpoint := rfl
@[simp] theorem State.tickUid_location (s : State) : (s.tickUid).location = s.location := rfl
@[simp] theorem State.tickUid_route (s : State) : (s.tickUid).route = s.route := rfl
@[simp] theorem State.tickUid_ports (s : State) : (s.tickUid).ports = s.ports := rfl
@[simp] theorem State.tickUid_lanethr (s : State) : (s.tickUid).lanethr = s.lanethr := rfl
@[simp] theorem State.tickUid_pairs (s : State) : (s.tickUid).pairs = s.pairs := rfl
@[simp] theorem State.tickUid_unacked (s : State) : (s.tickUid).unacked = s.unacked := rfl
@[simp] theorem State.tickUid_late (s : State) : (s.tickUid).late = s.late := rfl
@[simp] theorem State.tickUid_rops (s : State) : (s.tickUid).rops = s.rops := rfl
@[simp] theorem State.tickUid_hold (s : State) : (s.tickUid).hold = s.hold := rfl
@[simp] theorem State.tickUid_faults (s : State) : (s.tickUid).faults = s.faults := rfl
@[simp] theorem State.tickUid_denied (s : State) : (s.tickUid).denied = s.denied := rfl
@[simp] theorem State.tickUid_ftlb (s : State) : (s.tickUid).ftlb = s.ftlb := rfl
@[simp] theorem State.tickUid_portDrops (s : State) : (s.tickUid).portDrops = s.portDrops := rfl
@[simp] theorem State.tickUid_injPtr (s : State) : (s.tickUid).injPtr = s.injPtr := rfl
@[simp] theorem State.tickUid_memPtr (s : State) : (s.tickUid).memPtr = s.memPtr := rfl
@[simp] theorem State.tickUid_stackBytes (s : State) : (s.tickUid).stackBytes = s.stackBytes := rfl
@[simp] theorem State.tickUid_waits (s : State) : (s.tickUid).waits = s.waits := rfl
@[simp] theorem State.tickUid_rels (s : State) : (s.tickUid).rels = s.rels := rfl
@[simp] theorem State.tickUid_olds (s : State) : (s.tickUid).olds = s.olds := rfl
@[simp] theorem State.tickUid_sup (s : State) : (s.tickUid).sup = s.sup := rfl
@[simp] theorem State.tickUid_sent (s : State) : (s.tickUid).sent = s.sent := rfl
@[simp] theorem State.tickUid_draw (s : State) : (s.tickUid).draw = s.draw := rfl

/-! ### State.fin -/

@[simp] theorem State.fin_cur (s : State) (f : Strand → Strand) : (s.fin f).cur = s.cur := rfl
@[simp] theorem State.fin_agenda (s : State) (f : Strand → Strand) : (s.fin f).agenda = s.agenda := rfl
@[simp] theorem State.fin_lcores (s : State) (f : Strand → Strand) : (s.fin f).lcores = s.lcores := rfl
@[simp] theorem State.fin_tasks (s : State) (f : Strand → Strand) : (s.fin f).tasks = s.tasks := rfl
@[simp] theorem State.fin_cores (s : State) (f : Strand → Strand) : (s.fin f).cores = s.cores := rfl
@[simp] theorem State.fin_arrays (s : State) (f : Strand → Strand) : (s.fin f).arrays = s.arrays := rfl
@[simp] theorem State.fin_banks (s : State) (f : Strand → Strand) : (s.fin f).banks = s.banks := rfl
@[simp] theorem State.fin_ws (s : State) (f : Strand → Strand) : (s.fin f).ws = s.ws := rfl
@[simp] theorem State.fin_wsPhase (s : State) (f : Strand → Strand) : (s.fin f).wsPhase = s.wsPhase := rfl
@[simp] theorem State.fin_wsGated (s : State) (f : Strand → Strand) : (s.fin f).wsGated = s.wsGated := rfl
@[simp] theorem State.fin_wsWaking (s : State) (f : Strand → Strand) : (s.fin f).wsWaking = s.wsWaking := rfl
@[simp] theorem State.fin_mem (s : State) (f : Strand → Strand) : (s.fin f).mem = s.mem := rfl
@[simp] theorem State.fin_hostMem (s : State) (f : Strand → Strand) : (s.fin f).hostMem = s.hostMem := rfl
@[simp] theorem State.fin_vrs (s : State) (f : Strand → Strand) : (s.fin f).vrs = s.vrs := rfl
@[simp] theorem State.fin_fns (s : State) (f : Strand → Strand) : (s.fin f).fns = s.fns := rfl
@[simp] theorem State.fin_binds (s : State) (f : Strand → Strand) : (s.fin f).binds = s.binds := rfl
@[simp] theorem State.fin_binderr (s : State) (f : Strand → Strand) : (s.fin f).binderr = s.binderr := rfl
@[simp] theorem State.fin_detmode (s : State) (f : Strand → Strand) : (s.fin f).detmode = s.detmode := rfl
@[simp] theorem State.fin_period (s : State) (f : Strand → Strand) : (s.fin f).period = s.period := rfl
@[simp] theorem State.fin_periodAt (s : State) (f : Strand → Strand) : (s.fin f).periodAt = s.periodAt := rfl
@[simp] theorem State.fin_cycle (s : State) (f : Strand → Strand) : (s.fin f).cycle = s.cycle := rfl
@[simp] theorem State.fin_power (s : State) (f : Strand → Strand) : (s.fin f).power = s.power := rfl
@[simp] theorem State.fin_clockStep (s : State) (f : Strand → Strand) : (s.fin f).clockStep = s.clockStep := rfl
@[simp] theorem State.fin_bin (s : State) (f : Strand → Strand) : (s.fin f).bin = s.bin := rfl
@[simp] theorem State.fin_fuses (s : State) (f : Strand → Strand) : (s.fin f).fuses = s.fuses := rfl
@[simp] theorem State.fin_isPackage (s : State) (f : Strand → Strand) : (s.fin f).isPackage = s.isPackage := rfl
@[simp] theorem State.fin_supplied (s : State) (f : Strand → Strand) : (s.fin f).supplied = s.supplied := rfl
@[simp] theorem State.fin_endpoint (s : State) (f : Strand → Strand) : (s.fin f).endpoint = s.endpoint := rfl
@[simp] theorem State.fin_location (s : State) (f : Strand → Strand) : (s.fin f).location = s.location := rfl
@[simp] theorem State.fin_route (s : State) (f : Strand → Strand) : (s.fin f).route = s.route := rfl
@[simp] theorem State.fin_ports (s : State) (f : Strand → Strand) : (s.fin f).ports = s.ports := rfl
@[simp] theorem State.fin_lanethr (s : State) (f : Strand → Strand) : (s.fin f).lanethr = s.lanethr := rfl
@[simp] theorem State.fin_pairs (s : State) (f : Strand → Strand) : (s.fin f).pairs = s.pairs := rfl
@[simp] theorem State.fin_unacked (s : State) (f : Strand → Strand) : (s.fin f).unacked = s.unacked := rfl
@[simp] theorem State.fin_late (s : State) (f : Strand → Strand) : (s.fin f).late = s.late := rfl
@[simp] theorem State.fin_rops (s : State) (f : Strand → Strand) : (s.fin f).rops = s.rops := rfl
@[simp] theorem State.fin_hold (s : State) (f : Strand → Strand) : (s.fin f).hold = s.hold := rfl
@[simp] theorem State.fin_faults (s : State) (f : Strand → Strand) : (s.fin f).faults = s.faults := rfl
@[simp] theorem State.fin_denied (s : State) (f : Strand → Strand) : (s.fin f).denied = s.denied := rfl
@[simp] theorem State.fin_ftlb (s : State) (f : Strand → Strand) : (s.fin f).ftlb = s.ftlb := rfl
@[simp] theorem State.fin_portDrops (s : State) (f : Strand → Strand) : (s.fin f).portDrops = s.portDrops := rfl
@[simp] theorem State.fin_injPtr (s : State) (f : Strand → Strand) : (s.fin f).injPtr = s.injPtr := rfl
@[simp] theorem State.fin_memPtr (s : State) (f : Strand → Strand) : (s.fin f).memPtr = s.memPtr := rfl
@[simp] theorem State.fin_stackBytes (s : State) (f : Strand → Strand) : (s.fin f).stackBytes = s.stackBytes := rfl
@[simp] theorem State.fin_waits (s : State) (f : Strand → Strand) : (s.fin f).waits = s.waits := rfl
@[simp] theorem State.fin_rels (s : State) (f : Strand → Strand) : (s.fin f).rels = s.rels := rfl
@[simp] theorem State.fin_olds (s : State) (f : Strand → Strand) : (s.fin f).olds = s.olds := rfl
@[simp] theorem State.fin_sup (s : State) (f : Strand → Strand) : (s.fin f).sup = s.sup := rfl
@[simp] theorem State.fin_sent (s : State) (f : Strand → Strand) : (s.fin f).sent = s.sent := rfl
@[simp] theorem State.fin_uid (s : State) (f : Strand → Strand) : (s.fin f).uid = s.uid := rfl
@[simp] theorem State.fin_draw (s : State) (f : Strand → Strand) : (s.fin f).draw = s.draw := rfl

/-! ### State.block -/

@[simp] theorem State.block_cur (s : State) : (s.block).cur = s.cur := rfl
@[simp] theorem State.block_agenda (s : State) : (s.block).agenda = s.agenda := rfl
@[simp] theorem State.block_lcores (s : State) : (s.block).lcores = s.lcores := rfl
@[simp] theorem State.block_tasks (s : State) : (s.block).tasks = s.tasks := rfl
@[simp] theorem State.block_cores (s : State) : (s.block).cores = s.cores := rfl
@[simp] theorem State.block_arrays (s : State) : (s.block).arrays = s.arrays := rfl
@[simp] theorem State.block_banks (s : State) : (s.block).banks = s.banks := rfl
@[simp] theorem State.block_ws (s : State) : (s.block).ws = s.ws := rfl
@[simp] theorem State.block_wsPhase (s : State) : (s.block).wsPhase = s.wsPhase := rfl
@[simp] theorem State.block_wsGated (s : State) : (s.block).wsGated = s.wsGated := rfl
@[simp] theorem State.block_wsWaking (s : State) : (s.block).wsWaking = s.wsWaking := rfl
@[simp] theorem State.block_mem (s : State) : (s.block).mem = s.mem := rfl
@[simp] theorem State.block_hostMem (s : State) : (s.block).hostMem = s.hostMem := rfl
@[simp] theorem State.block_vrs (s : State) : (s.block).vrs = s.vrs := rfl
@[simp] theorem State.block_fns (s : State) : (s.block).fns = s.fns := rfl
@[simp] theorem State.block_binds (s : State) : (s.block).binds = s.binds := rfl
@[simp] theorem State.block_binderr (s : State) : (s.block).binderr = s.binderr := rfl
@[simp] theorem State.block_detmode (s : State) : (s.block).detmode = s.detmode := rfl
@[simp] theorem State.block_period (s : State) : (s.block).period = s.period := rfl
@[simp] theorem State.block_periodAt (s : State) : (s.block).periodAt = s.periodAt := rfl
@[simp] theorem State.block_cycle (s : State) : (s.block).cycle = s.cycle := rfl
@[simp] theorem State.block_power (s : State) : (s.block).power = s.power := rfl
@[simp] theorem State.block_clockStep (s : State) : (s.block).clockStep = s.clockStep := rfl
@[simp] theorem State.block_bin (s : State) : (s.block).bin = s.bin := rfl
@[simp] theorem State.block_fuses (s : State) : (s.block).fuses = s.fuses := rfl
@[simp] theorem State.block_isPackage (s : State) : (s.block).isPackage = s.isPackage := rfl
@[simp] theorem State.block_supplied (s : State) : (s.block).supplied = s.supplied := rfl
@[simp] theorem State.block_endpoint (s : State) : (s.block).endpoint = s.endpoint := rfl
@[simp] theorem State.block_location (s : State) : (s.block).location = s.location := rfl
@[simp] theorem State.block_route (s : State) : (s.block).route = s.route := rfl
@[simp] theorem State.block_ports (s : State) : (s.block).ports = s.ports := rfl
@[simp] theorem State.block_lanethr (s : State) : (s.block).lanethr = s.lanethr := rfl
@[simp] theorem State.block_pairs (s : State) : (s.block).pairs = s.pairs := rfl
@[simp] theorem State.block_unacked (s : State) : (s.block).unacked = s.unacked := rfl
@[simp] theorem State.block_late (s : State) : (s.block).late = s.late := rfl
@[simp] theorem State.block_rops (s : State) : (s.block).rops = s.rops := rfl
@[simp] theorem State.block_hold (s : State) : (s.block).hold = s.hold := rfl
@[simp] theorem State.block_faults (s : State) : (s.block).faults = s.faults := rfl
@[simp] theorem State.block_denied (s : State) : (s.block).denied = s.denied := rfl
@[simp] theorem State.block_ftlb (s : State) : (s.block).ftlb = s.ftlb := rfl
@[simp] theorem State.block_portDrops (s : State) : (s.block).portDrops = s.portDrops := rfl
@[simp] theorem State.block_injPtr (s : State) : (s.block).injPtr = s.injPtr := rfl
@[simp] theorem State.block_memPtr (s : State) : (s.block).memPtr = s.memPtr := rfl
@[simp] theorem State.block_stackBytes (s : State) : (s.block).stackBytes = s.stackBytes := rfl
@[simp] theorem State.block_waits (s : State) : (s.block).waits = s.waits := rfl
@[simp] theorem State.block_rels (s : State) : (s.block).rels = s.rels := rfl
@[simp] theorem State.block_olds (s : State) : (s.block).olds = s.olds := rfl
@[simp] theorem State.block_sup (s : State) : (s.block).sup = s.sup := rfl
@[simp] theorem State.block_sent (s : State) : (s.block).sent = s.sent := rfl
@[simp] theorem State.block_uid (s : State) : (s.block).uid = s.uid := rfl
@[simp] theorem State.block_draw (s : State) : (s.block).draw = s.draw := rfl

/-! ### Reading a map after an update -/

theorem State.strandAt_onStrand (s : State) (k j : Nat) (f : Strand → Strand) :
    (s.onStrand k f).strandAt j = if j = k then f (s.strandAt k) else s.strandAt j := by
  simp only [State.strandAt, State.onStrand, smod, sget_sset]
@[simp] theorem State.strandAt_onStrand_self (s : State) (k : Nat) (f : Strand → Strand) : (s.onStrand k f).strandAt k = f (s.strandAt k) := by
  simp [State.strandAt_onStrand]

theorem State.lcoreAt_onLcore (s : State) (k j : Nat) (f : LCore → LCore) :
    (s.onLcore k f).lcoreAt j = if j = k then f (s.lcoreAt k) else s.lcoreAt j := by
  simp only [State.lcoreAt, State.onLcore, smod, sget_sset]
@[simp] theorem State.lcoreAt_onLcore_self (s : State) (k : Nat) (f : LCore → LCore) : (s.onLcore k f).lcoreAt k = f (s.lcoreAt k) := by
  simp [State.lcoreAt_onLcore]

theorem State.taskAt_onTask (s : State) (k j : Nat) (f : Task → Task) :
    (s.onTask k f).taskAt j = if j = k then f (s.taskAt k) else s.taskAt j := by
  simp only [State.taskAt, State.onTask, smod, sget_sset]
@[simp] theorem State.taskAt_onTask_self (s : State) (k : Nat) (f : Task → Task) : (s.onTask k f).taskAt k = f (s.taskAt k) := by
  simp [State.taskAt_onTask]

theorem State.coreAt_onCore (s : State) (k j : Nat) (f : Core → Core) :
    (s.onCore k f).coreAt j = if j = k then f (s.coreAt k) else s.coreAt j := by
  simp only [State.coreAt, State.onCore, smod, sget_sset]
@[simp] theorem State.coreAt_onCore_self (s : State) (k : Nat) (f : Core → Core) : (s.onCore k f).coreAt k = f (s.coreAt k) := by
  simp [State.coreAt_onCore]

theorem State.arrayAt_onArray (s : State) (k j : Nat) (f : MArray → MArray) :
    (s.onArray k f).arrayAt j = if j = k then f (s.arrayAt k) else s.arrayAt j := by
  simp only [State.arrayAt, State.onArray, smod, sget_sset]
@[simp] theorem State.arrayAt_onArray_self (s : State) (k : Nat) (f : MArray → MArray) : (s.onArray k f).arrayAt k = f (s.arrayAt k) := by
  simp [State.arrayAt_onArray]

theorem State.bankAt_onBank (s : State) (k j : Nat) (f : Bank → Bank) :
    (s.onBank k f).bankAt j = if j = k then f (s.bankAt k) else s.bankAt j := by
  simp only [State.bankAt, State.onBank, smod, sget_sset]
@[simp] theorem State.bankAt_onBank_self (s : State) (k : Nat) (f : Bank → Bank) : (s.onBank k f).bankAt k = f (s.bankAt k) := by
  simp [State.bankAt_onBank]

theorem State.fnAt_onFn (s : State) (k j : Nat) (f : Fn → Fn) :
    (s.onFn k f).fnAt j = if j = k then f (s.fnAt k) else s.fnAt j := by
  simp only [State.fnAt, State.onFn, smod, sget_sset]
@[simp] theorem State.fnAt_onFn_self (s : State) (k : Nat) (f : Fn → Fn) : (s.onFn k f).fnAt k = f (s.fnAt k) := by
  simp [State.fnAt_onFn]

@[simp] theorem State.lcoreAt_onStrand (s : State) (k : Nat) (f : Strand → Strand) (j : Nat) : (s.onStrand k f).lcoreAt j = s.lcoreAt j := rfl
@[simp] theorem State.taskAt_onStrand (s : State) (k : Nat) (f : Strand → Strand) (j : Nat) : (s.onStrand k f).taskAt j = s.taskAt j := rfl
@[simp] theorem State.coreAt_onStrand (s : State) (k : Nat) (f : Strand → Strand) (j : Nat) : (s.onStrand k f).coreAt j = s.coreAt j := rfl
@[simp] theorem State.arrayAt_onStrand (s : State) (k : Nat) (f : Strand → Strand) (j : Nat) : (s.onStrand k f).arrayAt j = s.arrayAt j := rfl
@[simp] theorem State.bankAt_onStrand (s : State) (k : Nat) (f : Strand → Strand) (j : Nat) : (s.onStrand k f).bankAt j = s.bankAt j := rfl
@[simp] theorem State.vrAt_onStrand (s : State) (k : Nat) (f : Strand → Strand) (j : Nat) : (s.onStrand k f).vrAt j = s.vrAt j := rfl
@[simp] theorem State.fnAt_onStrand (s : State) (k : Nat) (f : Strand → Strand) (j : Nat) : (s.onStrand k f).fnAt j = s.fnAt j := rfl
@[simp] theorem State.lcoreAt_onMe (s : State) (f : Strand → Strand) (j : Nat) : (s.onMe f).lcoreAt j = s.lcoreAt j := rfl
@[simp] theorem State.taskAt_onMe (s : State) (f : Strand → Strand) (j : Nat) : (s.onMe f).taskAt j = s.taskAt j := rfl
@[simp] theorem State.coreAt_onMe (s : State) (f : Strand → Strand) (j : Nat) : (s.onMe f).coreAt j = s.coreAt j := rfl
@[simp] theorem State.arrayAt_onMe (s : State) (f : Strand → Strand) (j : Nat) : (s.onMe f).arrayAt j = s.arrayAt j := rfl
@[simp] theorem State.bankAt_onMe (s : State) (f : Strand → Strand) (j : Nat) : (s.onMe f).bankAt j = s.bankAt j := rfl
@[simp] theorem State.vrAt_onMe (s : State) (f : Strand → Strand) (j : Nat) : (s.onMe f).vrAt j = s.vrAt j := rfl
@[simp] theorem State.fnAt_onMe (s : State) (f : Strand → Strand) (j : Nat) : (s.onMe f).fnAt j = s.fnAt j := rfl
@[simp] theorem State.strandAt_onLcore (s : State) (k : Nat) (f : LCore → LCore) (j : Nat) : (s.onLcore k f).strandAt j = s.strandAt j := rfl
@[simp] theorem State.taskAt_onLcore (s : State) (k : Nat) (f : LCore → LCore) (j : Nat) : (s.onLcore k f).taskAt j = s.taskAt j := rfl
@[simp] theorem State.coreAt_onLcore (s : State) (k : Nat) (f : LCore → LCore) (j : Nat) : (s.onLcore k f).coreAt j = s.coreAt j := rfl
@[simp] theorem State.arrayAt_onLcore (s : State) (k : Nat) (f : LCore → LCore) (j : Nat) : (s.onLcore k f).arrayAt j = s.arrayAt j := rfl
@[simp] theorem State.bankAt_onLcore (s : State) (k : Nat) (f : LCore → LCore) (j : Nat) : (s.onLcore k f).bankAt j = s.bankAt j := rfl
@[simp] theorem State.vrAt_onLcore (s : State) (k : Nat) (f : LCore → LCore) (j : Nat) : (s.onLcore k f).vrAt j = s.vrAt j := rfl
@[simp] theorem State.fnAt_onLcore (s : State) (k : Nat) (f : LCore → LCore) (j : Nat) : (s.onLcore k f).fnAt j = s.fnAt j := rfl
@[simp] theorem State.strandAt_onTask (s : State) (k : Nat) (f : Task → Task) (j : Nat) : (s.onTask k f).strandAt j = s.strandAt j := rfl
@[simp] theorem State.lcoreAt_onTask (s : State) (k : Nat) (f : Task → Task) (j : Nat) : (s.onTask k f).lcoreAt j = s.lcoreAt j := rfl
@[simp] theorem State.coreAt_onTask (s : State) (k : Nat) (f : Task → Task) (j : Nat) : (s.onTask k f).coreAt j = s.coreAt j := rfl
@[simp] theorem State.arrayAt_onTask (s : State) (k : Nat) (f : Task → Task) (j : Nat) : (s.onTask k f).arrayAt j = s.arrayAt j := rfl
@[simp] theorem State.bankAt_onTask (s : State) (k : Nat) (f : Task → Task) (j : Nat) : (s.onTask k f).bankAt j = s.bankAt j := rfl
@[simp] theorem State.vrAt_onTask (s : State) (k : Nat) (f : Task → Task) (j : Nat) : (s.onTask k f).vrAt j = s.vrAt j := rfl
@[simp] theorem State.fnAt_onTask (s : State) (k : Nat) (f : Task → Task) (j : Nat) : (s.onTask k f).fnAt j = s.fnAt j := rfl
@[simp] theorem State.strandAt_onCore (s : State) (k : Nat) (f : Core → Core) (j : Nat) : (s.onCore k f).strandAt j = s.strandAt j := rfl
@[simp] theorem State.lcoreAt_onCore (s : State) (k : Nat) (f : Core → Core) (j : Nat) : (s.onCore k f).lcoreAt j = s.lcoreAt j := rfl
@[simp] theorem State.taskAt_onCore (s : State) (k : Nat) (f : Core → Core) (j : Nat) : (s.onCore k f).taskAt j = s.taskAt j := rfl
@[simp] theorem State.arrayAt_onCore (s : State) (k : Nat) (f : Core → Core) (j : Nat) : (s.onCore k f).arrayAt j = s.arrayAt j := rfl
@[simp] theorem State.bankAt_onCore (s : State) (k : Nat) (f : Core → Core) (j : Nat) : (s.onCore k f).bankAt j = s.bankAt j := rfl
@[simp] theorem State.vrAt_onCore (s : State) (k : Nat) (f : Core → Core) (j : Nat) : (s.onCore k f).vrAt j = s.vrAt j := rfl
@[simp] theorem State.fnAt_onCore (s : State) (k : Nat) (f : Core → Core) (j : Nat) : (s.onCore k f).fnAt j = s.fnAt j := rfl
@[simp] theorem State.strandAt_onArray (s : State) (k : Nat) (f : MArray → MArray) (j : Nat) : (s.onArray k f).strandAt j = s.strandAt j := rfl
@[simp] theorem State.lcoreAt_onArray (s : State) (k : Nat) (f : MArray → MArray) (j : Nat) : (s.onArray k f).lcoreAt j = s.lcoreAt j := rfl
@[simp] theorem State.taskAt_onArray (s : State) (k : Nat) (f : MArray → MArray) (j : Nat) : (s.onArray k f).taskAt j = s.taskAt j := rfl
@[simp] theorem State.coreAt_onArray (s : State) (k : Nat) (f : MArray → MArray) (j : Nat) : (s.onArray k f).coreAt j = s.coreAt j := rfl
@[simp] theorem State.bankAt_onArray (s : State) (k : Nat) (f : MArray → MArray) (j : Nat) : (s.onArray k f).bankAt j = s.bankAt j := rfl
@[simp] theorem State.vrAt_onArray (s : State) (k : Nat) (f : MArray → MArray) (j : Nat) : (s.onArray k f).vrAt j = s.vrAt j := rfl
@[simp] theorem State.fnAt_onArray (s : State) (k : Nat) (f : MArray → MArray) (j : Nat) : (s.onArray k f).fnAt j = s.fnAt j := rfl
@[simp] theorem State.strandAt_onBank (s : State) (k : Nat) (f : Bank → Bank) (j : Nat) : (s.onBank k f).strandAt j = s.strandAt j := rfl
@[simp] theorem State.lcoreAt_onBank (s : State) (k : Nat) (f : Bank → Bank) (j : Nat) : (s.onBank k f).lcoreAt j = s.lcoreAt j := rfl
@[simp] theorem State.taskAt_onBank (s : State) (k : Nat) (f : Bank → Bank) (j : Nat) : (s.onBank k f).taskAt j = s.taskAt j := rfl
@[simp] theorem State.coreAt_onBank (s : State) (k : Nat) (f : Bank → Bank) (j : Nat) : (s.onBank k f).coreAt j = s.coreAt j := rfl
@[simp] theorem State.arrayAt_onBank (s : State) (k : Nat) (f : Bank → Bank) (j : Nat) : (s.onBank k f).arrayAt j = s.arrayAt j := rfl
@[simp] theorem State.vrAt_onBank (s : State) (k : Nat) (f : Bank → Bank) (j : Nat) : (s.onBank k f).vrAt j = s.vrAt j := rfl
@[simp] theorem State.fnAt_onBank (s : State) (k : Nat) (f : Bank → Bank) (j : Nat) : (s.onBank k f).fnAt j = s.fnAt j := rfl
@[simp] theorem State.strandAt_onVr (s : State) (k : Nat) (f : Vr → Vr) (j : Nat) : (s.onVr k f).strandAt j = s.strandAt j := rfl
@[simp] theorem State.lcoreAt_onVr (s : State) (k : Nat) (f : Vr → Vr) (j : Nat) : (s.onVr k f).lcoreAt j = s.lcoreAt j := rfl
@[simp] theorem State.taskAt_onVr (s : State) (k : Nat) (f : Vr → Vr) (j : Nat) : (s.onVr k f).taskAt j = s.taskAt j := rfl
@[simp] theorem State.coreAt_onVr (s : State) (k : Nat) (f : Vr → Vr) (j : Nat) : (s.onVr k f).coreAt j = s.coreAt j := rfl
@[simp] theorem State.arrayAt_onVr (s : State) (k : Nat) (f : Vr → Vr) (j : Nat) : (s.onVr k f).arrayAt j = s.arrayAt j := rfl
@[simp] theorem State.bankAt_onVr (s : State) (k : Nat) (f : Vr → Vr) (j : Nat) : (s.onVr k f).bankAt j = s.bankAt j := rfl
@[simp] theorem State.fnAt_onVr (s : State) (k : Nat) (f : Vr → Vr) (j : Nat) : (s.onVr k f).fnAt j = s.fnAt j := rfl
@[simp] theorem State.strandAt_onFn (s : State) (k : Nat) (f : Fn → Fn) (j : Nat) : (s.onFn k f).strandAt j = s.strandAt j := rfl
@[simp] theorem State.lcoreAt_onFn (s : State) (k : Nat) (f : Fn → Fn) (j : Nat) : (s.onFn k f).lcoreAt j = s.lcoreAt j := rfl
@[simp] theorem State.taskAt_onFn (s : State) (k : Nat) (f : Fn → Fn) (j : Nat) : (s.onFn k f).taskAt j = s.taskAt j := rfl
@[simp] theorem State.coreAt_onFn (s : State) (k : Nat) (f : Fn → Fn) (j : Nat) : (s.onFn k f).coreAt j = s.coreAt j := rfl
@[simp] theorem State.arrayAt_onFn (s : State) (k : Nat) (f : Fn → Fn) (j : Nat) : (s.onFn k f).arrayAt j = s.arrayAt j := rfl
@[simp] theorem State.bankAt_onFn (s : State) (k : Nat) (f : Fn → Fn) (j : Nat) : (s.onFn k f).bankAt j = s.bankAt j := rfl
@[simp] theorem State.vrAt_onFn (s : State) (k : Nat) (f : Fn → Fn) (j : Nat) : (s.onFn k f).vrAt j = s.vrAt j := rfl
@[simp] theorem State.strandAt_later (s : State) (x : Turn) (j : Nat) : (s.later x).strandAt j = s.strandAt j := rfl
@[simp] theorem State.lcoreAt_later (s : State) (x : Turn) (j : Nat) : (s.later x).lcoreAt j = s.lcoreAt j := rfl
@[simp] theorem State.taskAt_later (s : State) (x : Turn) (j : Nat) : (s.later x).taskAt j = s.taskAt j := rfl
@[simp] theorem State.coreAt_later (s : State) (x : Turn) (j : Nat) : (s.later x).coreAt j = s.coreAt j := rfl
@[simp] theorem State.arrayAt_later (s : State) (x : Turn) (j : Nat) : (s.later x).arrayAt j = s.arrayAt j := rfl
@[simp] theorem State.bankAt_later (s : State) (x : Turn) (j : Nat) : (s.later x).bankAt j = s.bankAt j := rfl
@[simp] theorem State.vrAt_later (s : State) (x : Turn) (j : Nat) : (s.later x).vrAt j = s.vrAt j := rfl
@[simp] theorem State.fnAt_later (s : State) (x : Turn) (j : Nat) : (s.later x).fnAt j = s.fnAt j := rfl
@[simp] theorem State.strandAt_tickUid (s : State) (j : Nat) : (s.tickUid).strandAt j = s.strandAt j := rfl
@[simp] theorem State.lcoreAt_tickUid (s : State) (j : Nat) : (s.tickUid).lcoreAt j = s.lcoreAt j := rfl
@[simp] theorem State.taskAt_tickUid (s : State) (j : Nat) : (s.tickUid).taskAt j = s.taskAt j := rfl
@[simp] theorem State.coreAt_tickUid (s : State) (j : Nat) : (s.tickUid).coreAt j = s.coreAt j := rfl
@[simp] theorem State.arrayAt_tickUid (s : State) (j : Nat) : (s.tickUid).arrayAt j = s.arrayAt j := rfl
@[simp] theorem State.bankAt_tickUid (s : State) (j : Nat) : (s.tickUid).bankAt j = s.bankAt j := rfl
@[simp] theorem State.vrAt_tickUid (s : State) (j : Nat) : (s.tickUid).vrAt j = s.vrAt j := rfl
@[simp] theorem State.fnAt_tickUid (s : State) (j : Nat) : (s.tickUid).fnAt j = s.fnAt j := rfl
@[simp] theorem State.lcoreAt_fin (s : State) (f : Strand → Strand) (j : Nat) : (s.fin f).lcoreAt j = s.lcoreAt j := rfl
@[simp] theorem State.taskAt_fin (s : State) (f : Strand → Strand) (j : Nat) : (s.fin f).taskAt j = s.taskAt j := rfl
@[simp] theorem State.coreAt_fin (s : State) (f : Strand → Strand) (j : Nat) : (s.fin f).coreAt j = s.coreAt j := rfl
@[simp] theorem State.arrayAt_fin (s : State) (f : Strand → Strand) (j : Nat) : (s.fin f).arrayAt j = s.arrayAt j := rfl
@[simp] theorem State.bankAt_fin (s : State) (f : Strand → Strand) (j : Nat) : (s.fin f).bankAt j = s.bankAt j := rfl
@[simp] theorem State.vrAt_fin (s : State) (f : Strand → Strand) (j : Nat) : (s.fin f).vrAt j = s.vrAt j := rfl
@[simp] theorem State.fnAt_fin (s : State) (f : Strand → Strand) (j : Nat) : (s.fin f).fnAt j = s.fnAt j := rfl
@[simp] theorem State.lcoreAt_block (s : State) (j : Nat) : (s.block).lcoreAt j = s.lcoreAt j := rfl
@[simp] theorem State.taskAt_block (s : State) (j : Nat) : (s.block).taskAt j = s.taskAt j := rfl
@[simp] theorem State.coreAt_block (s : State) (j : Nat) : (s.block).coreAt j = s.coreAt j := rfl
@[simp] theorem State.arrayAt_block (s : State) (j : Nat) : (s.block).arrayAt j = s.arrayAt j := rfl
@[simp] theorem State.bankAt_block (s : State) (j : Nat) : (s.block).bankAt j = s.bankAt j := rfl
@[simp] theorem State.vrAt_block (s : State) (j : Nat) : (s.block).vrAt j = s.vrAt j := rfl
@[simp] theorem State.fnAt_block (s : State) (j : Nat) : (s.block).fnAt j = s.fnAt j := rfl

/-! ### The issuing strand -/

@[simp] theorem State.me_onMe (s : State) (f : Strand → Strand) : (s.onMe f).me = f s.me := by
  simp [State.me, State.onMe]

theorem State.strandAt_onMe (s : State) (f : Strand → Strand) (k : Nat) :
    (s.onMe f).strandAt k = if k = s.cur.key then f s.me else s.strandAt k := by
  simp [State.onMe, State.strandAt_onStrand, State.me]

@[simp] theorem State.me_fin (s : State) (f : Strand → Strand) : (s.fin f).me = (f s.me).retire 1 := by
  simp [State.fin]

@[simp] theorem State.me_block (s : State) : s.block.me = { s.me with status := .blocked } := by
  simp [State.block]

@[simp] theorem State.me_onLcore (s : State) (k : Nat) (f : LCore → LCore) : (s.onLcore k f).me = s.me := rfl
@[simp] theorem State.me_onTask (s : State) (k : Nat) (f : Task → Task) : (s.onTask k f).me = s.me := rfl
@[simp] theorem State.me_onCore (s : State) (k : Nat) (f : Core → Core) : (s.onCore k f).me = s.me := rfl
@[simp] theorem State.me_onBank (s : State) (k : Nat) (f : Bank → Bank) : (s.onBank k f).me = s.me := rfl
@[simp] theorem State.me_onVr (s : State) (k : Nat) (f : Vr → Vr) : (s.onVr k f).me = s.me := rfl
@[simp] theorem State.me_onFn (s : State) (k : Nat) (f : Fn → Fn) : (s.onFn k f).me = s.me := rfl
@[simp] theorem State.me_tickUid (s : State) : s.tickUid.me = s.me := rfl
@[simp] theorem State.me_later (s : State) (t : Turn) : (s.later t).me = s.me := rfl

theorem State.strandAt_fin (s : State) (f : Strand → Strand) (k : Nat) :
    (s.fin f).strandAt k = if k = s.cur.key then (f s.me).retire 1 else s.strandAt k := by
  simp [State.fin, State.strandAt_onMe]

/-- Changing the issuing strand changes nothing else of the state. -/
theorem State.onMe_eq (s : State) (f : Strand → Strand) : s.onMe f = { s with strands := (s.onMe f).strands } := rfl

/-- Retiring the issuing strand changes nothing else of the state. -/
theorem State.fin_eq (s : State) (f : Strand → Strand) : s.fin f = { s with strands := (s.fin f).strands } := rfl

end Sys2Proof.Machine
end

