-- ==== Sys2Proof/Laws/Ops.lean ====
section
/-! SUPPORT. Laws/Ops.lean: what the shared operations can do, once for each: traps, checks, maps changed at every key, scratchpad writes, charging, translation. -/

namespace Sys2Proof.Machine

variable {α : Type} [DecidableEq α]

/-! ### Traps and checks (R52, R254) -/

/-- At the expiry of the gang's deadline a trap is discarded: nothing changes (R47). -/
theorem State.takeTrap_expired (s : State) (cls : BitVec 4) (x : Trap) (he : s.expired (s.cur.key / 1152) = true) :
    s.takeTrap cls x = s := by simp [State.takeTrap, State.trapOn, he]

/-- With a handler set and none running, the strand enters it and nothing else changes. -/
theorem State.takeTrap_enters (s : State) (cls : BitVec 4) (x : Trap) (he : s.expired (s.cur.key / 1152) = false)
    (hv : s.me.trapvec ≠ 0) (hh : s.me.h = false) :
    s.takeTrap cls x = s.onMe fun t => t.enter x cls s.me.pc := by
  have h : ¬ ((s.strandAt s.cur.key).trapvec = 0 ∨ (s.strandAt s.cur.key).h = true) := by
    rintro (h | h)
    · exact hv h
    · exact absurd (show s.me.h = true from h) (by simp [hh])
  simp only [State.takeTrap, State.trapOn, he, h, if_false, State.onMe, Bool.false_eq_true]

/-- Without a handler, or in one, the step task stops with the cause. -/
theorem State.takeTrap_stops (s : State) (cls : BitVec 4) (x : Trap) (he : s.expired (s.cur.key / 1152) = false)
    (h : s.me.trapvec = 0 ∨ s.me.h = true) :
    s.takeTrap cls x = s.stopTask (s.cur.key / 1152) x.cause cls := by
  have h' : (s.strandAt s.cur.key).trapvec = 0 ∨ (s.strandAt s.cur.key).h = true := h
  simp only [State.takeTrap, State.trapOn, he, h', if_true, if_false, Bool.false_eq_true]

@[simp] theorem State.checked_none (s : State) (cls : BitVec 4) (k : State → State) : s.checked cls none k = k s := rfl

@[simp] theorem State.checked_some (s : State) (cls : BitVec 4) (x : Trap) (k : State → State) :
    s.checked cls (some x) k = s.takeTrap cls x := rfl

@[simp] theorem chk_true (c : BitVec 8) : chk true c = some { cause := c } := rfl
@[simp] theorem chk_false (c : BitVec 8) : chk false c = none := rfl

/-! ### Control transfer (R275, R277) -/

theorem State.branch_taken (s : State) (imm : BitVec 32) :
    s.branch true imm = s.onMe fun t => t.jump (branchTarget s.me.pc imm) := rfl

theorem State.branch_not_taken (s : State) (imm : BitVec 32) : s.branch false imm = s.fin id := rfl

/-! ### Entries of a map after a change -/

theorem mem_sset {d : α} {m : SMap α} {k : Nat} {v : α} {e : Nat × α} (h : e ∈ sset d m k v) : e ∈ m ∨ e = (k, v) := by
  simp only [sset, sputs, List.mem_append] at h
  rcases h with h | h | h
  · exact .inl (List.mem_of_mem_filter h)
  · simp only [srun] at h
    split at h
    · simp at h
    · simp only [List.mem_cons, List.not_mem_nil, or_false] at h
      exact .inr h
  · exact .inl (List.mem_of_mem_filter h)

/-- What holds of every entry's value, and of the value of an unlisted key, holds after one of them is changed by a function that keeps it. -/
theorem smod_forall {d : α} {m : SMap α} {k : Nat} {f : α → α} {P : α → Prop} (hm : ∀ e ∈ m, P e.2) (hd : P d)
    (hf : ∀ v, P v → P (f v)) : ∀ e ∈ smod d m k f, P e.2 := by
  have hget : P (sget d m k) := by
    clear hf
    induction m with
    | nil => exact hd
    | cons e t ih =>
      obtain ⟨k', v⟩ := e
      by_cases h : k = k'
      · simpa [sget, h] using hm (k', v) (by simp)
      · simpa [sget, h] using ih fun e he => hm e (by simp [he])
  intro e he
  rcases mem_sset he with h | rfl
  · exact hm e h
  · exact hf _ hget

theorem mem_smapAll {d : α} {f : Nat → α → α} {m : SMap α} {e : Nat × α} (h : e ∈ smapAll d f m) :
    ∃ v, (e.1, v) ∈ m ∧ e.2 = f e.1 v := by
  simp only [smapAll, List.mem_filter, List.mem_map] at h
  obtain ⟨⟨x, hx, rfl⟩, -⟩ := h
  exact ⟨x.2, hx, rfl⟩

theorem smapAll_forall {d : α} {m : SMap α} {f : Nat → α → α} {P : α → Prop} (hm : ∀ e ∈ m, P e.2)
    (hf : ∀ k v, P v → P (f k v)) : ∀ e ∈ smapAll d f m, P e.2 := by
  intro e he
  obtain ⟨v, hv, h⟩ := mem_smapAll he
  rw [h]
  exact hf _ _ (hm _ hv)

/-- A map in canonical form, changed at every key by a function that keeps the unlisted value, reads as the function of what it read. -/
theorem sget_smapAll (d : α) (f : Nat → α → α) (m : SMap α) (k : Nat) (hm : swf d m = true) (hf : ∀ k, f k d = d) :
    sget d (smapAll d f m) k = f k (sget d m k) := by
  induction m with
  | nil => simp [smapAll, sget, hf]
  | cons e t ih =>
    obtain ⟨k', v⟩ := e
    simp only [swf, Bool.and_eq_true, decide_eq_true_eq] at hm
    have ht : swf d t = true := by tauto
    have hs : sabove k' t = true := by tauto
    have ih := ih ht
    have hne : ∀ e ∈ t, k' < e.1 := (sabove_iff k' t).mp hs
    by_cases hk : k = k'
    · subst hk
      have hnone : sget d (smapAll d f t) k = d := by
        apply sget_of_not_any
        simp only [List.any_eq_false, beq_iff_eq]
        intro x hx hxk
        obtain ⟨v, hv, -⟩ := mem_smapAll hx
        have := hne _ hv
        simp at this
        omega
      by_cases hv : f k v = d
      · have : smapAll d f ((k, v) :: t) = smapAll d f t := by simp [smapAll, hv]
        rw [this, hnone]
        simp [sget, hv]
      · have : smapAll d f ((k, v) :: t) = (k, f k v) :: smapAll d f t := by simp [smapAll, hv]
        rw [this]
        simp [sget]
    · have hr : sget d ((k', v) :: t) k = sget d t k := by simp [sget, hk]
      rw [hr, ← ih]
      by_cases hv : f k' v = d
      · have : smapAll d f ((k', v) :: t) = smapAll d f t := by simp [smapAll, hv]
        rw [this]
      · have : smapAll d f ((k', v) :: t) = (k', f k' v) :: smapAll d f t := by simp [smapAll, hv]
        rw [this]
        simp [sget, hk]

/-! ### Scratchpad writes (R94) -/

theorem State.sp_spPut (s : State) (lc a : Nat) (bs : List Byte) (k : Nat) :
    ((s.spPut lc a bs).lcoreAt k).sp = if k = lc then (s.lcoreAt lc).sp.setBytes a bs else (s.lcoreAt k).sp := by
  have h : (s.spPut lc a bs).lcoreAt k = (s.onLcore lc fun l => l.spPut a bs).lcoreAt k := rfl
  rw [h, State.lcoreAt_onLcore]
  split <;> rfl

/-- A scratchpad write changes the bytes written and no other. -/
theorem State.byte_spPut_outside (s : State) (lc a : Nat) (bs : List Byte) (k x : Nat) (h : k ≠ lc ∨ x < a ∨ a + bs.length ≤ x) :
    ((s.spPut lc a bs).lcoreAt k).sp.byte x = (s.lcoreAt k).sp.byte x := by
  rw [State.sp_spPut]
  split
  · rename_i hk
    subst hk
    exact Mem.byte_setBytes_outside _ _ _ _ (h.resolve_left (by simp))
  · rfl

@[simp] theorem State.mem_spPut (s : State) (lc a : Nat) (bs : List Byte) : (s.spPut lc a bs).mem = s.mem := rfl
@[simp] theorem State.strands_spPut (s : State) (lc a : Nat) (bs : List Byte) : (s.spPut lc a bs).strands = s.strands := rfl

/-! ### Charging (R218, R223): budgets, energies and stack counters only -/

theorem State.charge_frame (s : State) (p : Payer) (n : Nat) :
    s.charge p n = { s with vrs := (s.charge p n).vrs, fns := (s.charge p n).fns, tasks := (s.charge p n).tasks } := by
  unfold State.charge
  split <;> rfl

theorem State.chargeMem_frame (s : State) (p : Payer) (pa n : Nat) (rd wr : Bool) :
    s.chargeMem p pa n rd wr =
      { s with vrs := (s.chargeMem p pa n rd wr).vrs, fns := (s.chargeMem p pa n rd wr).fns,
               tasks := (s.chargeMem p pa n rd wr).tasks, stackBytes := (s.chargeMem p pa n rd wr).stackBytes,
               memPtr := (s.chargeMem p pa n rd wr).memPtr } := by
  unfold State.chargeMem State.charge State.onFn State.onVr
  dsimp only
  repeat' split
  all_goals rfl

@[simp] theorem State.mem_charge (s : State) (p : Payer) (n : Nat) : (s.charge p n).mem = s.mem := by rw [State.charge_frame]
@[simp] theorem State.mem_chargeMem (s : State) (p : Payer) (pa n : Nat) (rd wr : Bool) : (s.chargeMem p pa n rd wr).mem = s.mem := by
  rw [State.chargeMem_frame]
@[simp] theorem State.strands_charge (s : State) (p : Payer) (n : Nat) : (s.charge p n).strands = s.strands := by rw [State.charge_frame]
@[simp] theorem State.strands_chargeMem (s : State) (p : Payer) (pa n : Nat) (rd wr : Bool) : (s.chargeMem p pa n rd wr).strands = s.strands := by
  rw [State.chargeMem_frame]
@[simp] theorem State.lcores_charge (s : State) (p : Payer) (n : Nat) : (s.charge p n).lcores = s.lcores := by rw [State.charge_frame]
@[simp] theorem State.lcores_chargeMem (s : State) (p : Payer) (pa n : Nat) (rd wr : Bool) : (s.chargeMem p pa n rd wr).lcores = s.lcores := by
  rw [State.chargeMem_frame]

/-! ### Translation (R105) -/

/-- Marking an entry as accessed keeps the memory's canonical form. -/
theorem wf_setAD (m : Mem) (d : Bool) (a : Nat) (h : m.wf = true) : (setAD m d a).wf = true := Mem.wf_write m a 8 _ h

theorem wf_marks (l : List Nat) (f : Nat → Bool) (m : Mem) (h : m.wf = true) : (l.foldl (fun m x => setAD m (f x) x) m).wf = true := by
  induction l generalizing m with
  | nil => exact h
  | cons a t ih => exact ih _ (wf_setAD m _ a h)

/-- A cached translation that hits, of rights and slices that allow the access, answers without touching memory. -/
theorem State.xlate_hit (s : State) (a : Acc) (va : Nat) (v : Vr) (t : Tlb) (hv : s.vrAt a.vr = some v) (hva : va < 2 ^ 56)
    (hd : s.denied.contains (a.who, a.vr, va / 65536) = false) (hw : s.waitsOn a (va / 65536) = false)
    (ht : (s.cache a).find? (fun t => t.hits a va) = some t)
    (hr : t.rights &&& a.need = a.need ∧ s.hasMem (t.pa + (va - t.page * 65536)) ∧ (s.fnAt t.fn).owns (t.pa + (va - t.page * 65536))) :
    s.xlate a va = (s, .ok (t.pa + (va - t.page * 65536))) := by
  have h : ¬ (2 ^ 56 ≤ va ∨ s.denied.contains (a.who, a.vr, va / 65536) = true) := by
    rintro (h | h)
    · omega
    · rw [hd] at h; cases h
  simp only [State.xlate, hv, h, if_false, hw, Bool.false_eq_true, ht, hr, and_self, if_true]

/-- An access refused once at its page is refused there again, whatever the tables hold by then (R351). -/
theorem State.xlate_denied (s : State) (a : Acc) (va : Nat) (v : Vr) (hv : s.vrAt a.vr = some v)
    (hd : s.denied.contains (a.who, a.vr, va / 65536) = true) : s.xlate a va = (s, .refused va) := by
  simp only [State.xlate, hv, hd, or_true, if_true]

/-! ### Messages (R392) -/

/-- A message handled in a mailbox that is not busy changes nothing. -/
theorem State.onMessage_idle (s : State) (fn n : Nat) (f : List Byte → State × Nat × List Byte) (h : (s.mbx fn n).st ≠ .busy) :
    s.onMessage fn n f = s := by simp [State.onMessage, h]

theorem State.onMessage_busy (s : State) (fn n : Nat) (f : List Byte → State × Nat × List Byte) (h : (s.mbx fn n).st = .busy) :
    s.onMessage fn n f = (f (s.mbx fn n).payload).1.mbxReply fn n (f (s.mbx fn n).payload).2.1 (f (s.mbx fn n).payload).2.2 := by
  simp [State.onMessage, h]

/-- A reply touches the function's mailboxes and the output log only. -/
theorem State.mbxReply_frame (s : State) (fn n status : Nat) (data : List Byte) :
    s.mbxReply fn n status data = { s with fns := (s.mbxReply fn n status data).fns, sent := (s.mbxReply fn n status data).sent } := rfl

end Sys2Proof.Machine
end

