-- ==== Sys2Proof/Laws/PerInstr.lean ====
section
/-! SUPPORT. Laws/PerInstr.lean: per instruction, decoding the words of a well-formed instruction gives it back. -/

namespace Sys2Proof.Laws.Roundtrip

/-- Decoding the words that encode a well-formed instruction gives it back. -/
def Statement (i : Instr) : Prop := ∀ ws : List Word, i.wf = true → encode i = some ws → decode ws = .ok (i, [])

/-- A one-word instruction. -/
theorem word {i : Instr} (s : SWord) (hr : recParts i = none) (he : encodeS i = some s)
    (hc : oneWord s.cls = true) (hd : i.wf = true → decodeS s = .ok i) : Statement i := by
  intro ws hw h
  simp only [encode, hr, he, Option.map_some, Option.some.injEq] at h
  subst h
  exact decode_word s i [] hc (hd hw)

/-- A record. -/
theorem record {i : Instr} (c : BitVec 4) (o : BitVec 8) (r : Rec) (hr : recParts i = some (c, o, r))
    (hc : c.toNat = 4 ∨ c.toNat = 5 ∨ c.toNat = 6 ∨ c.toNat = 8) (hi : recInstr c.toNat o.toNat r = some i) : Statement i := by
  intro ws hw h
  simp only [encode, hr, Option.some.injEq] at h
  subst h
  exact (List.append_nil (recWords (joinRec c o r))) ▸ decode_record c o r i [] hc hi hw

/-- An event of the table has no words. -/
theorem event {i : Instr} (h : encode i = none) : Statement i := by
  intro ws _ he
  rw [h] at he
  cases he

theorem add (d a b : Reg) : Statement (.add d a b) := by
  refine word _ rfl rfl rfl fun h => ?_
  exact accept_eq rfl h
theorem sub (d a b : Reg) : Statement (.sub d a b) := by
  refine word _ rfl rfl rfl fun h => ?_
  exact accept_eq rfl h
theorem mul (d a b : Reg) : Statement (.mul d a b) := by
  refine word _ rfl rfl rfl fun h => ?_
  exact accept_eq rfl h
theorem mulh (k : MulhMode) (d a b : Reg) : Statement (.mulh k d a b) := by
  refine word _ rfl rfl rfl fun h => ?_
  cases k <;> exact acceptOpt_eq rfl rfl h
theorem div (u : Bool) (d a b : Reg) : Statement (.div u d a b) := by
  refine word _ rfl rfl rfl fun h => ?_
  cases u <;> exact accept_eq rfl h
theorem rem (u : Bool) (d a b : Reg) : Statement (.rem u d a b) := by
  refine word _ rfl rfl rfl fun h => ?_
  cases u <;> exact accept_eq rfl h
theorem and (d a b : Reg) : Statement (.and d a b) := by
  refine word _ rfl rfl rfl fun h => ?_
  exact accept_eq rfl h
theorem or (d a b : Reg) : Statement (.or d a b) := by
  refine word _ rfl rfl rfl fun h => ?_
  exact accept_eq rfl h
theorem xor (d a b : Reg) : Statement (.xor d a b) := by
  refine word _ rfl rfl rfl fun h => ?_
  exact accept_eq rfl h
theorem shl (d a b : Reg) : Statement (.shl d a b) := by
  refine word _ rfl rfl rfl fun h => ?_
  exact accept_eq rfl h
theorem shr (d a b : Reg) : Statement (.shr d a b) := by
  refine word _ rfl rfl rfl fun h => ?_
  exact accept_eq rfl h
theorem sar (d a b : Reg) : Statement (.sar d a b) := by
  refine word _ rfl rfl rfl fun h => ?_
  exact accept_eq rfl h
theorem rot (d a b : Reg) : Statement (.rot d a b) := by
  refine word _ rfl rfl rfl fun h => ?_
  exact accept_eq rfl h
theorem clz (d a : Reg) : Statement (.clz d a) := by
  refine word _ rfl rfl rfl fun h => ?_
  exact accept_eq rfl h
theorem ctz (d a : Reg) : Statement (.ctz d a) := by
  refine word _ rfl rfl rfl fun h => ?_
  exact accept_eq rfl h
theorem popc (d a : Reg) : Statement (.popc d a) := by
  refine word _ rfl rfl rfl fun h => ?_
  exact accept_eq rfl h
theorem min (u : Bool) (d a b : Reg) : Statement (.min u d a b) := by
  refine word _ rfl rfl rfl fun h => ?_
  cases u <;> exact accept_eq rfl h
theorem max (u : Bool) (d a b : Reg) : Statement (.max u d a b) := by
  refine word _ rfl rfl rfl fun h => ?_
  cases u <;> exact accept_eq rfl h
theorem sel (d a b n : Reg) : Statement (.sel d a b n) := by
  refine word _ rfl rfl rfl fun h => ?_
  exact accept_eq rfl h
theorem cmp (k : Cond) (d a b : Reg) : Statement (.cmp k d a b) := by
  refine word _ rfl rfl rfl fun h => ?_
  cases k <;> exact acceptOpt_eq rfl rfl h
theorem addi (d a : Reg) (imm : BitVec 32) : Statement (.addi d a imm) := by
  refine word _ rfl rfl rfl fun h => ?_
  exact accept_eq rfl h
theorem andi (d a : Reg) (imm : BitVec 32) : Statement (.andi d a imm) := by
  refine word _ rfl rfl rfl fun h => ?_
  exact accept_eq rfl h
theorem ori (d a : Reg) (imm : BitVec 32) : Statement (.ori d a imm) := by
  refine word _ rfl rfl rfl fun h => ?_
  exact accept_eq rfl h
theorem xori (d a : Reg) (imm : BitVec 32) : Statement (.xori d a imm) := by
  refine word _ rfl rfl rfl fun h => ?_
  exact accept_eq rfl h
theorem shli (d a : Reg) (n : BitVec 6) : Statement (.shli d a n) := by
  refine word _ rfl rfl rfl fun h => ?_
  have e := extract_zeroExtend n 32 (by decide)
  have l := toNat_zeroExtend_lt n 32 (by decide)
  simp only [decodeS, decode0]
  simp_all [accept]
theorem li (d : Reg) (imm : BitVec 32) : Statement (.li d imm) := by
  refine word _ rfl rfl rfl fun h => ?_
  exact accept_eq rfl h
theorem lih (d : Reg) (imm : BitVec 32) : Statement (.lih d imm) := by
  refine word _ rfl rfl rfl fun h => ?_
  exact accept_eq rfl h
theorem lea (d a : Reg) (space : Space) (off : BitVec 20) : Statement (.lea d a space off) := by
  refine word _ rfl rfl rfl fun h => ?_
  simp only [decodeS, decode0, splitImm_joinImm, ofSpace_codeSpace]; exact acceptOpt_eq rfl rfl h
theorem bnd (d a b : Reg) : Statement (.bnd d a b) := by
  refine word _ rfl rfl rfl fun h => ?_
  exact accept_eq rfl h
theorem fadd (f : SFmt) (d a b : Reg) : Statement (.fadd f d a b) := by
  refine word _ rfl rfl rfl fun h => ?_
  simp only [decodeS, decode0]
  cases f <;> simp [codeSFmt, ofSFmt, acceptOpt, accept, h]
theorem fmul (f : SFmt) (d a b : Reg) : Statement (.fmul f d a b) := by
  refine word _ rfl rfl rfl fun h => ?_
  simp only [decodeS, decode0]
  cases f <;> simp [codeSFmt, ofSFmt, acceptOpt, accept, h]
theorem ffma (f : SFmt) (d a b : Reg) : Statement (.ffma f d a b) := by
  refine word _ rfl rfl rfl fun h => ?_
  simp only [decodeS, decode0]
  cases f <;> simp [codeSFmt, ofSFmt, acceptOpt, accept, h]
theorem fcvt (k : FcvtKind) (d a : Reg) : Statement (.fcvt k d a) := by
  refine word _ rfl rfl rfl fun h => ?_
  exact acceptOpt_eq rfl (by rw [ofFcvt_codeFcvt]; rfl) h
theorem fcmp (f : SFmt) (k : FRel) (d a b : Reg) : Statement (.fcmp f k d a b) := by
  refine word _ rfl rfl rfl fun h => ?_
  simp only [decodeS, decode0]
  cases f <;> cases k <;> simp [codeSFmt, codeFRel, ofSFmt, ofFRel, acceptOpt, accept, h]
theorem cntset (c : BitVec 3) (a : Reg) (w : BitVec 3) : Statement (.cntset c a w) := by
  refine word _ rfl rfl rfl fun h => ?_
  have e := extract_zeroExtend c 5 (by decide)
  have l := toNat_zeroExtend_lt c 5 (by decide)
  have e2 := extract_zeroExtend w 5 (by decide)
  have l2 := toNat_zeroExtend_lt w 5 (by decide)
  simp only [decodeS, decode0]
  simp_all [accept]
  omega
theorem cntmin (c : BitVec 3) (x : BitVec 3) (b : Reg) : Statement (.cntmin c x b) := by
  refine word _ rfl rfl rfl fun h => ?_
  have e := extract_zeroExtend c 5 (by decide)
  have l := toNat_zeroExtend_lt c 5 (by decide)
  have e2 := extract_zeroExtend x 5 (by decide)
  have l2 := toNat_zeroExtend_lt x 5 (by decide)
  simp only [decodeS, decode0]
  simp_all [accept]
  omega
theorem cntsub (c : BitVec 3) (x : BitVec 3) (b : Reg) : Statement (.cntsub c x b) := by
  refine word _ rfl rfl rfl fun h => ?_
  have e := extract_zeroExtend c 5 (by decide)
  have l := toNat_zeroExtend_lt c 5 (by decide)
  have e2 := extract_zeroExtend x 5 (by decide)
  have l2 := toNat_zeroExtend_lt x 5 (by decide)
  simp only [decodeS, decode0]
  simp_all [accept]
  omega
theorem ld (d a : Reg) (m : SMem) : Statement (.ld d a m) := by
  refine word _ rfl rfl rfl fun h => ?_
  have z := smZero_smWord 1 d a 0 m
  have f := ofSMem_smWord 1 d a 0 0 0 m
  rw [decodeS_smWord]
  unfold decode1; simp only [z, f]; exact acceptOpt_eq rfl rfl h
theorem st (b a : Reg) (m : SMem) : Statement (.st b a m) := by
  refine word _ rfl rfl rfl fun h => ?_
  have z := smZero_smWord 2 0 a b m
  have f := ofSMem_smWord 2 0 a b 0 0 m
  rw [decodeS_smWord]
  unfold decode1; simp only [z, f]; exact acceptOpt_eq rfl rfl h
theorem lda (d a : Reg) (m : SMem) : Statement (.lda d a m) := by
  refine word _ rfl rfl rfl fun h => ?_
  have z := smZero_smWord 3 d a 0 m
  have f := ofSMem_smWord 3 d a 0 0 0 m
  rw [decodeS_smWord]
  unfold decode1; simp only [z, f]; exact acceptOpt_eq rfl rfl h
theorem stl (b a : Reg) (m : SMem) : Statement (.stl b a m) := by
  refine word _ rfl rfl rfl fun h => ?_
  have z := smZero_smWord 4 0 a b m
  have f := ofSMem_smWord 4 0 a b 0 0 m
  rw [decodeS_smWord]
  unfold decode1; simp only [z, f]; exact acceptOpt_eq rfl rfl h
theorem atom (op : BitVec 3) (d a b : Reg) (m : SMem) : Statement (.atom op d a b m) := by
  refine word _ rfl rfl rfl fun h => ?_
  have o := atomOp_smWord 5 d a b op m
  have f := ofSMem_smWord 5 d a b (op.extractLsb' 2 1) (op.extractLsb' 0 2) m
  rw [decodeS_smWord]
  unfold decode1; simp only [o, f]; exact acceptOpt_eq rfl rfl h
theorem cas (d a b : Reg) (m : SMem) : Statement (.cas d a b m) := by
  refine word _ rfl rfl rfl fun h => ?_
  have z := smZero_smWord 6 d a b m
  have f := ofSMem_smWord 6 d a b 0 0 m
  rw [decodeS_smWord]
  unfold decode1; simp only [z, f]; exact acceptOpt_eq rfl rfl h
theorem kld (d a : Reg) (imm : BitVec 32) : Statement (.kld d a imm) := by
  refine word _ rfl rfl rfl fun h => ?_
  exact accept_eq rfl h
theorem sdld (n : BitVec 4) (a : Reg) (cls : BitVec 4) (space : Space) (off : BitVec 20) : Statement (.sdld n a cls space off) := by
  refine word _ rfl rfl rfl fun h => ?_
  have e := extract_zeroExtend n 5 (by decide)
  have l := toNat_zeroExtend_lt n 5 (by decide)
  have e2 := extract_zeroExtend cls 5 (by decide)
  have e3 := high_zeroExtend cls 5 4 1 (by decide)
  simp only [decodeS, decode1, smZero, splitImm_joinImm, ofSpace_codeSpace]
  exact acceptOpt_eq (by simp_all) (by rw [e, e2]; rfl) h
theorem sdst (n : BitVec 4) (a : Reg) (cls : BitVec 4) (space : Space) (off : BitVec 20) : Statement (.sdst n a cls space off) := by
  refine word _ rfl rfl rfl fun h => ?_
  have e := extract_zeroExtend n 5 (by decide)
  have l := toNat_zeroExtend_lt n 5 (by decide)
  have e2 := extract_zeroExtend cls 5 (by decide)
  have e3 := high_zeroExtend cls 5 4 1 (by decide)
  simp only [decodeS, decode1, smZero, splitImm_joinImm, ofSpace_codeSpace]
  exact acceptOpt_eq (by simp_all) (by rw [e, e2]; rfl) h
theorem fence (mask : BitVec 16) : Statement (.fence mask) := by
  refine word _ rfl rfl rfl fun h => ?_
  have e := extract_zeroExtend mask 32 (by decide)
  have l := toNat_zeroExtend_lt mask 32 (by decide)
  simp only [decodeS, decode1]
  simp_all [accept]
theorem xfence (p q : Path) : Statement (.xfence p q) := by
  refine word _ rfl rfl rfl fun h => ?_
  cases p <;> cases q <;> exact acceptOpt_eq rfl rfl h
theorem br (imm : BitVec 32) : Statement (.br imm) := by
  refine word _ rfl rfl rfl fun h => ?_
  exact accept_eq rfl h
theorem bc (k : Cond) (a b : Reg) (imm : BitVec 32) : Statement (.bc k a b imm) := by
  refine word _ rfl rfl rfl fun h => ?_
  cases k <;> exact acceptOpt_eq rfl rfl h
theorem jal (d : Reg) (imm : BitVec 32) : Statement (.jal d imm) := by
  refine word _ rfl rfl rfl fun h => ?_
  exact accept_eq rfl h
theorem jr (d a : Reg) : Statement (.jr d a) := by
  refine word _ rfl rfl rfl fun h => ?_
  exact accept_eq rfl h
theorem loop (n : BitVec 2) (a : Reg) (len cnt : BitVec 16) : Statement (.loop n a len cnt) := by
  refine word _ rfl rfl rfl fun h => ?_
  have e := extract_zeroExtend n 5 (by decide)
  have l := toNat_zeroExtend_lt n 5 (by decide)
  have hi := extract_append_high len cnt
  have lo := extract_append_low len cnt
  simp only [decodeS, decode2]
  simp_all [accept]
theorem bts (k : BtsKind) (a b : Reg) (imm : BitVec 32) : Statement (.bts k a b imm) := by
  refine word _ rfl rfl rfl fun h => ?_
  cases k <;> exact acceptOpt_eq rfl rfl h
theorem bpois (np : Bool) (a : Reg) (imm : BitVec 32) : Statement (.bpois np a imm) := by
  refine word _ rfl rfl rfl fun h => ?_
  cases np <;> exact accept_eq rfl h
theorem semwait (n : BitVec 6) (cnt : BitVec 16) : Statement (.semwait n cnt) := by
  refine word _ rfl rfl rfl fun h => ?_
  have e1 : (cnt ++ (0 : BitVec 10) ++ n).extractLsb' 0 6 = n := extract_append_low _ _
  have e2 : (cnt ++ (0 : BitVec 10) ++ n).extractLsb' 16 16 = cnt := by
    apply BitVec.eq_of_getLsbD_eq
    intro j hj
    simp (disch := omega) only [BitVec.getLsbD_extractLsb', getLsbD_append_high, hj, decide_true, Bool.true_and]
    congr 1; omega
  have e3 : (cnt ++ (0 : BitVec 10) ++ n).extractLsb' 6 10 = 0 := by
    apply BitVec.eq_of_getLsbD_eq
    intro j hj
    simp (disch := omega) only [BitVec.getLsbD_extractLsb', getLsbD_append_high, getLsbD_append_low, hj, decide_true, Bool.true_and]
    congr 1; omega
  simp only [decodeS, decode3]
  show accept _ (.semwait ((cnt ++ (0 : BitVec 10) ++ n).extractLsb' 0 6) ((cnt ++ (0 : BitVec 10) ++ n).extractLsb' 16 16)) = _
  rw [e1, e2]
  exact accept_eq (by simp only [e3]; rfl) h
theorem semsig (n : BitVec 6) (cnt : BitVec 16) (named : Bool) (a : Reg) : Statement (.semsig n cnt named a) := by
  refine word _ rfl rfl rfl fun h => ?_
  have e1 : (cnt ++ (0 : BitVec 9) ++ BitVec.ofBool named ++ n).extractLsb' 0 6 = n := extract_append_low _ _
  have e2 : (cnt ++ (0 : BitVec 9) ++ BitVec.ofBool named ++ n).extractLsb' 16 16 = cnt := by
    apply BitVec.eq_of_getLsbD_eq
    intro j hj
    simp (disch := omega) only [BitVec.getLsbD_extractLsb', getLsbD_append_high, hj, decide_true, Bool.true_and]
    congr 1; omega
  have e3 : (cnt ++ (0 : BitVec 9) ++ BitVec.ofBool named ++ n).extractLsb' 7 9 = 0 := by
    apply BitVec.eq_of_getLsbD_eq
    intro j hj
    simp (disch := omega) only [BitVec.getLsbD_extractLsb', getLsbD_append_high, getLsbD_append_low, hj, decide_true, Bool.true_and]
    congr 1; omega
  have e4 : (cnt ++ (0 : BitVec 9) ++ BitVec.ofBool named ++ n).getLsbD 6 = named := by
    simp (disch := omega) only [getLsbD_append_high, getLsbD_append_low]
    simp
  simp only [decodeS, decode3]
  show accept _ (.semsig ((cnt ++ (0 : BitVec 9) ++ BitVec.ofBool named ++ n).extractLsb' 0 6) ((cnt ++ (0 : BitVec 9) ++ BitVec.ofBool named ++ n).extractLsb' 16 16) ((cnt ++ (0 : BitVec 9) ++ BitVec.ofBool named ++ n).getLsbD 6) a) = _
  rw [e1, e2, e4]
  exact accept_eq (by simp only [e3]; rfl) h
theorem trap (code : BitVec 8) : Statement (.trap code) := by
  refine word _ rfl rfl rfl fun h => ?_
  have e := extract_zeroExtend code 32 (by decide)
  have l := toNat_zeroExtend_lt code 32 (by decide)
  simp only [decodeS, decode3]
  simp_all [accept]
theorem brk (tag : BitVec 16) : Statement (.brk tag) := by
  refine word _ rfl rfl rfl fun h => ?_
  have e := extract_zeroExtend tag 32 (by decide)
  have l := toNat_zeroExtend_lt tag 32 (by decide)
  simp only [decodeS, decode3]
  simp_all [accept]
theorem spawn (t : BitVec 12) (a : Reg) : Statement (.spawn t a) := by
  refine word _ rfl rfl rfl fun h => ?_
  have e := extract_zeroExtend t 32 (by decide)
  have l := toNat_zeroExtend_lt t 32 (by decide)
  simp only [decodeS, decode3]
  simp_all [accept]
theorem signal (n : BitVec 16) (a : Reg) : Statement (.signal n a) := by
  refine word _ rfl rfl rfl fun h => ?_
  have e := extract_zeroExtend n 32 (by decide)
  have l := toNat_zeroExtend_lt n 32 (by decide)
  simp only [decodeS, decode3]
  simp_all [accept]
theorem snap (trig : BitVec 16) : Statement (.snap trig) := by
  refine word _ rfl rfl rfl fun h => ?_
  have e := extract_zeroExtend trig 32 (by decide)
  have l := toNat_zeroExtend_lt trig 32 (by decide)
  simp only [decodeS, decode3]
  simp_all [accept]
theorem sysr (d : Reg) (num : BitVec 12) : Statement (.sysr d num) := by
  refine word _ rfl rfl rfl fun h => ?_
  have e := extract_zeroExtend num 32 (by decide)
  have l := toNat_zeroExtend_lt num 32 (by decide)
  simp only [decodeS, decode3]
  simp_all [accept]
theorem sysw (num : BitVec 12) (a : Reg) : Statement (.sysw num a) := by
  refine word _ rfl rfl rfl fun h => ?_
  have e := extract_zeroExtend num 32 (by decide)
  have l := toNat_zeroExtend_lt num 32 (by decide)
  simp only [decodeS, decode3]
  simp_all [accept]
theorem varm (d a b : Reg) : Statement (.varm d a b) := by
  refine word _ rfl rfl rfl fun h => ?_
  exact accept_eq rfl h
theorem vgo (d a : Reg) : Statement (.vgo d a) := by
  refine word _ rfl rfl rfl fun h => ?_
  exact accept_eq rfl h
theorem migr (d a b : Reg) : Statement (.migr d a b) := by
  refine word _ rfl rfl rfl fun h => ?_
  exact accept_eq rfl h
theorem recordLeavesQueue (core : Nat) (e : Engine) : Statement (.recordLeavesQueue core e) := event rfl
theorem recordCompletion (core : Nat) (e : Engine) : Statement (.recordCompletion core e) := event rfl
theorem vadd (r : Rec) : Statement (.vadd r) := record 4 0x01 r rfl (by decide) rfl
theorem vsub (r : Rec) : Statement (.vsub r) := record 4 0x02 r rfl (by decide) rfl
theorem vmul (r : Rec) : Statement (.vmul r) := record 4 0x03 r rfl (by decide) rfl
theorem vfma (r : Rec) : Statement (.vfma r) := record 4 0x04 r rfl (by decide) rfl
theorem vfms (r : Rec) : Statement (.vfms r) := record 4 0x05 r rfl (by decide) rfl
theorem vdiv (r : Rec) : Statement (.vdiv r) := record 4 0x06 r rfl (by decide) rfl
theorem vmin (r : Rec) : Statement (.vmin r) := record 4 0x07 r rfl (by decide) rfl
theorem vmax (r : Rec) : Statement (.vmax r) := record 4 0x08 r rfl (by decide) rfl
theorem vabs (r : Rec) : Statement (.vabs r) := record 4 0x09 r rfl (by decide) rfl
theorem vneg (r : Rec) : Statement (.vneg r) := record 4 0x0A r rfl (by decide) rfl
theorem vcopysign (r : Rec) : Statement (.vcopysign r) := record 4 0x0B r rfl (by decide) rfl
theorem vclamp (r : Rec) : Statement (.vclamp r) := record 4 0x0C r rfl (by decide) rfl
theorem vround (r : Rec) : Statement (.vround r) := record 4 0x0D r rfl (by decide) rfl
theorem vand (r : Rec) : Statement (.vand r) := record 4 0x0E r rfl (by decide) rfl
theorem vor (r : Rec) : Statement (.vor r) := record 4 0x0F r rfl (by decide) rfl
theorem vxor (r : Rec) : Statement (.vxor r) := record 4 0x10 r rfl (by decide) rfl
theorem vnot (r : Rec) : Statement (.vnot r) := record 4 0x11 r rfl (by decide) rfl
theorem vshl (r : Rec) : Statement (.vshl r) := record 4 0x12 r rfl (by decide) rfl
theorem vshr (r : Rec) : Statement (.vshr r) := record 4 0x13 r rfl (by decide) rfl
theorem vsar (r : Rec) : Statement (.vsar r) := record 4 0x14 r rfl (by decide) rfl
theorem vcmp (r : Rec) : Statement (.vcmp r) := record 4 0x15 r rfl (by decide) rfl
theorem vsel (r : Rec) : Statement (.vsel r) := record 4 0x16 r rfl (by decide) rfl
theorem vmov (r : Rec) : Statement (.vmov r) := record 4 0x17 r rfl (by decide) rfl
theorem vfill (r : Rec) : Statement (.vfill r) := record 4 0x18 r rfl (by decide) rfl
theorem vcvt (r : Rec) : Statement (.vcvt r) := record 4 0x19 r rfl (by decide) rfl
theorem vquant (r : Rec) : Statement (.vquant r) := record 4 0x1A r rfl (by decide) rfl
theorem vdeq (r : Rec) : Statement (.vdeq r) := record 4 0x1B r rfl (by decide) rfl
theorem vrcp (r : Rec) : Statement (.vrcp r) := record 4 0x1C r rfl (by decide) rfl
theorem vsqrt (r : Rec) : Statement (.vsqrt r) := record 4 0x1D r rfl (by decide) rfl
theorem vrsqrt (r : Rec) : Statement (.vrsqrt r) := record 4 0x1E r rfl (by decide) rfl
theorem vexp (r : Rec) : Statement (.vexp r) := record 4 0x1F r rfl (by decide) rfl
theorem vexp2 (r : Rec) : Statement (.vexp2 r) := record 4 0x20 r rfl (by decide) rfl
theorem vlog (r : Rec) : Statement (.vlog r) := record 4 0x21 r rfl (by decide) rfl
theorem vlog2 (r : Rec) : Statement (.vlog2 r) := record 4 0x22 r rfl (by decide) rfl
theorem vtanh (r : Rec) : Statement (.vtanh r) := record 4 0x23 r rfl (by decide) rfl
theorem verf (r : Rec) : Statement (.verf r) := record 4 0x24 r rfl (by decide) rfl
theorem vsum (r : Rec) : Statement (.vsum r) := record 4 0x25 r rfl (by decide) rfl
theorem vdot (r : Rec) : Statement (.vdot r) := record 4 0x26 r rfl (by decide) rfl
theorem vmaxr (r : Rec) : Statement (.vmaxr r) := record 4 0x27 r rfl (by decide) rfl
theorem vscan (r : Rec) : Statement (.vscan r) := record 4 0x28 r rfl (by decide) rfl
theorem vtopk (r : Rec) : Statement (.vtopk r) := record 4 0x29 r rfl (by decide) rfl
theorem vargmax (r : Rec) : Statement (.vargmax r) := record 4 0x2A r rfl (by decide) rfl
theorem vgath (r : Rec) : Statement (.vgath r) := record 4 0x2B r rfl (by decide) rfl
theorem vscat (r : Rec) : Statement (.vscat r) := record 4 0x2C r rfl (by decide) rfl
theorem vrng (r : Rec) : Statement (.vrng r) := record 4 0x2D r rfl (by decide) rfl
theorem vamax (r : Rec) : Statement (.vamax r) := record 4 0x2E r rfl (by decide) rfl
theorem vmode (rm : RMode) (ovf : Bool) (en : BitVec 7) : Statement (.vmode rm ovf en) := by
  refine word _ rfl rfl rfl fun h => ?_
  have e1 : ((0 : BitVec 21) ++ en ++ BitVec.ofBool ovf ++ codeRMode rm).extractLsb' 0 3 = codeRMode rm := extract_append_low _ _
  have e2 : ((0 : BitVec 21) ++ en ++ BitVec.ofBool ovf ++ codeRMode rm).extractLsb' 4 7 = en := by
    apply BitVec.eq_of_getLsbD_eq
    intro j hj
    simp (disch := omega) only [BitVec.getLsbD_extractLsb', getLsbD_append_high, getLsbD_append_low, hj, decide_true, Bool.true_and]
    congr 1; omega
  have e3 : ((0 : BitVec 21) ++ en ++ BitVec.ofBool ovf ++ codeRMode rm).getLsbD 3 = ovf := by
    simp (disch := omega) only [getLsbD_append_high, getLsbD_append_low]
    simp
  have e4 : ((0 : BitVec 21) ++ en ++ BitVec.ofBool ovf ++ codeRMode rm).toNat < 2 ^ 11 := by
    exact toNat_append_lt 8 _ _ (toNat_append_lt 7 _ _ (toNat_append_lt 0 _ _ (by decide)))
  simp only [decodeS, decode9]
  show acceptOpt _ ((ofRMode (((0 : BitVec 21) ++ en ++ BitVec.ofBool ovf ++ codeRMode rm).extractLsb' 0 3)).map fun m => .vmode m (((0 : BitVec 21) ++ en ++ BitVec.ofBool ovf ++ codeRMode rm).getLsbD 3) (((0 : BitVec 21) ++ en ++ BitVec.ofBool ovf ++ codeRMode rm).extractLsb' 4 7)) = _
  rw [e1, e2, e3, ofRMode_codeRMode]
  exact acceptOpt_eq (by simp only [e4]; rfl) rfl h
theorem mlease (r : Rec) : Statement (.mlease r) := record 5 0x01 r rfl (by decide) rfl
theorem mfree (r : Rec) : Statement (.mfree r) := record 5 0x02 r rfl (by decide) rfl
theorem mma (r : Rec) : Statement (.mma r) := record 5 0x03 r rfl (by decide) rfl
theorem mmas (r : Rec) : Statement (.mmas r) := record 5 0x04 r rfl (by decide) rfl
theorem mmag (r : Rec) : Statement (.mmag r) := record 5 0x05 r rfl (by decide) rfl
theorem mzero (r : Rec) : Statement (.mzero r) := record 5 0x06 r rfl (by decide) rfl
theorem mlda (r : Rec) : Statement (.mlda r) := record 5 0x07 r rfl (by decide) rfl
theorem mdrain (r : Rec) : Statement (.mdrain r) := record 5 0x08 r rfl (by decide) rfl
theorem mfold (r : Rec) : Statement (.mfold r) := record 5 0x09 r rfl (by decide) rfl
theorem mstat (r : Rec) : Statement (.mstat r) := record 5 0x0A r rfl (by decide) rfl
theorem mmode (rm : RMode) (ovf : Bool) (en : BitVec 5) : Statement (.mmode rm ovf en) := by
  refine word _ rfl rfl rfl fun h => ?_
  have e1 : ((0 : BitVec 23) ++ en ++ BitVec.ofBool ovf ++ codeRMode rm).extractLsb' 0 3 = codeRMode rm := extract_append_low _ _
  have e2 : ((0 : BitVec 23) ++ en ++ BitVec.ofBool ovf ++ codeRMode rm).extractLsb' 4 5 = en := by
    apply BitVec.eq_of_getLsbD_eq
    intro j hj
    simp (disch := omega) only [BitVec.getLsbD_extractLsb', getLsbD_append_high, getLsbD_append_low, hj, decide_true, Bool.true_and]
    congr 1; omega
  have e3 : ((0 : BitVec 23) ++ en ++ BitVec.ofBool ovf ++ codeRMode rm).getLsbD 3 = ovf := by
    simp (disch := omega) only [getLsbD_append_high, getLsbD_append_low]
    simp
  have e4 : ((0 : BitVec 23) ++ en ++ BitVec.ofBool ovf ++ codeRMode rm).toNat < 2 ^ 9 := by
    exact toNat_append_lt 6 _ _ (toNat_append_lt 5 _ _ (toNat_append_lt 0 _ _ (by decide)))
  simp only [decodeS, decode9]
  show acceptOpt _ ((ofRMode (((0 : BitVec 23) ++ en ++ BitVec.ofBool ovf ++ codeRMode rm).extractLsb' 0 3)).map fun m => .mmode m (((0 : BitVec 23) ++ en ++ BitVec.ofBool ovf ++ codeRMode rm).getLsbD 3) (((0 : BitVec 23) ++ en ++ BitVec.ofBool ovf ++ codeRMode rm).extractLsb' 4 5)) = _
  rw [e1, e2, e3, ofRMode_codeRMode]
  exact acceptOpt_eq (by simp only [e4]; rfl) rfl h
theorem tcopy (r : Rec) : Statement (.tcopy r) := record 6 0x01 r rfl (by decide) rfl
theorem tgather (r : Rec) : Statement (.tgather r) := record 6 0x02 r rfl (by decide) rfl
theorem tscatter (r : Rec) : Statement (.tscatter r) := record 6 0x03 r rfl (by decide) rfl
theorem tfill (r : Rec) : Statement (.tfill r) := record 6 0x04 r rfl (by decide) rfl
theorem tmap (r : Rec) : Statement (.tmap r) := record 6 0x05 r rfl (by decide) rfl
theorem tunmap (r : Rec) : Statement (.tunmap r) := record 6 0x06 r rfl (by decide) rfl
theorem tflush (r : Rec) : Statement (.tflush r) := record 6 0x07 r rfl (by decide) rfl
theorem tprefetch (r : Rec) : Statement (.tprefetch r) := record 6 0x08 r rfl (by decide) rfl
theorem twload (r : Rec) : Statement (.twload r) := record 6 0x09 r rfl (by decide) rfl
theorem tfetch (r : Rec) : Statement (.tfetch r) := record 6 0x0A r rfl (by decide) rfl
theorem tmode (tr : Bool) : Statement (.tmode tr) := by
  refine word _ rfl rfl rfl fun h => ?_
  cases tr <;> exact accept_eq rfl h
theorem qfence (e : Engine) (mask : BitVec 16) : Statement (.qfence e mask) := by
  refine word _ rfl rfl rfl fun h => ?_
  have e := extract_zeroExtend mask 32 (by decide)
  have l := toNat_zeroExtend_lt mask 32 (by decide)
  simp only [decodeS, decode9, ofEngine_codeEngine]
  simp_all [acceptOpt, accept]
theorem rld (blk : Bool) (d a v t : Reg) (m : FMem) : Statement (.rld blk d a v t m) := by
  refine word _ rfl rfl rfl fun h => ?_
  have z := smZero_fabWord 1 d a 0 ⟨t, v, 0, blkMode blk⟩ m
  have l := low_fabWord 1 d a 0 0 0 ⟨t, v, 0, blkMode blk⟩ m
  have f := ofFMem_fabWord 1 d a 0 0 0 ⟨t, v, 0, blkMode blk⟩ m
  rw [decodeS_fabWord]
  unfold decode7
  cases blk <;> (simp only [z, l, f]; exact acceptOpt_eq rfl rfl h)
theorem rst (blk : Bool) (b a v t : Reg) (m : FMem) : Statement (.rst blk b a v t m) := by
  refine word _ rfl rfl rfl fun h => ?_
  have z := smZero_fabWord 2 0 a b ⟨t, v, 0, blkMode blk⟩ m
  have l := low_fabWord 2 0 a b 0 0 ⟨t, v, 0, blkMode blk⟩ m
  have f := ofFMem_fabWord 2 0 a b 0 0 ⟨t, v, 0, blkMode blk⟩ m
  rw [decodeS_fabWord]
  unfold decode7
  cases blk <;> (simp only [z, l, f]; exact acceptOpt_eq rfl rfl h)
theorem rsth (blk : Bool) (b a v t h : Reg) (m : FMem) : Statement (.rsth blk b a v t h m) := by
  refine word _ rfl rfl rfl fun hw => ?_
  have z := smZero_fabWord 3 0 a b ⟨t, v, h, blkMode blk⟩ m
  have l := low_fabWord 3 0 a b 0 0 ⟨t, v, h, blkMode blk⟩ m
  have f := ofFMem_fabWord 3 0 a b 0 0 ⟨t, v, h, blkMode blk⟩ m
  rw [decodeS_fabWord]
  unfold decode7
  cases blk <;> (simp only [z, l, f]; exact acceptOpt_eq rfl rfl hw)
theorem ratom (op : BitVec 3) (d a b v t : Reg) (m : FMem) : Statement (.ratom op d a b v t m) := by
  refine word _ rfl rfl rfl fun h => ?_
  have o := atomOp_fabWord 4 d a b op ⟨t, v, 0, 0⟩ m
  have l := low_fabWord 4 d a b (op.extractLsb' 2 1) (op.extractLsb' 0 2) ⟨t, v, 0, 0⟩ m
  have f := ofFMem_fabWord 4 d a b (op.extractLsb' 2 1) (op.extractLsb' 0 2) ⟨t, v, 0, 0⟩ m
  rw [decodeS_fabWord]
  unfold decode7
  simp only [o, l, f]; exact acceptOpt_eq rfl rfl h
theorem rcas (d a b v t : Reg) (m : FMem) : Statement (.rcas d a b v t m) := by
  refine word _ rfl rfl rfl fun h => ?_
  have z := smZero_fabWord 5 d a b ⟨t, v, 0, 0⟩ m
  have l := low_fabWord 5 d a b 0 0 ⟨t, v, 0, 0⟩ m
  have f := ofFMem_fabWord 5 d a b 0 0 ⟨t, v, 0, 0⟩ m
  rw [decodeS_fabWord]
  unfold decode7
  (simp only [z, l, f]; exact acceptOpt_eq rfl rfl h)
theorem rprobe (d a v t : Reg) : Statement (.rprobe d a v t) := by
  refine word _ rfl rfl rfl fun h => ?_
  have l := low_fabWord 7 d a 0 0 0 ⟨t, v, 0, 0⟩ ⟨0, .i64, .strand, .plain⟩
  rw [decodeS_fabWord]
  unfold decode7
  simp only [l]
  simp only [fabWord, splitImm_joinImm]; exact accept_eq rfl h
theorem rfeat (d v t : Reg) : Statement (.rfeat d v t) := by
  refine word _ rfl rfl rfl fun h => ?_
  simp only [decodeS, decode7, splitImm_joinImm, splitLow_joinLow]; exact accept_eq rfl h
theorem grant (d a b c : Reg) : Statement (.grant d a b c) := by
  refine word _ rfl rfl rfl fun h => ?_
  simp only [decodeS, decode7, splitImm_joinImm, splitLow_joinLow]; exact accept_eq rfl h
theorem revoke (d a : Reg) : Statement (.revoke d a) := by
  refine word _ rfl rfl rfl fun h => ?_
  exact accept_eq rfl h
theorem rmcast (d a b : Reg) (m : FMem) : Statement (.rmcast d a b m) := by
  refine word _ rfl rfl rfl fun h => ?_
  have z := smZero_fabWord 0xB d a b ⟨0, 0, 0, 0⟩ m
  have l := low_fabWord 0xB d a b 0 0 ⟨0, 0, 0, 0⟩ m
  have f := ofFMem_fabWord 0xB d a b 0 0 ⟨0, 0, 0, 0⟩ m
  rw [decodeS_fabWord]
  unfold decode7
  (simp only [z, l, f]; exact acceptOpt_eq rfl rfl h)
theorem rred (op : BitVec 3) (b a v t : Reg) (m : FMem) : Statement (.rred op b a v t m) := by
  refine word _ rfl rfl rfl fun h => ?_
  have o := atomOp_fabWord 0xC 0 a b op ⟨t, v, 0, 0⟩ m
  have l := low_fabWord 0xC 0 a b (op.extractLsb' 2 1) (op.extractLsb' 0 2) ⟨t, v, 0, 0⟩ m
  have f := ofFMem_fabWord 0xC 0 a b (op.extractLsb' 2 1) (op.extractLsb' 0 2) ⟨t, v, 0, 0⟩ m
  rw [decodeS_fabWord]
  unfold decode7
  simp only [o, l, f]; exact acceptOpt_eq rfl rfl h
theorem rcopy (put : Bool) (d a v t : Reg) (cls : BitVec 4) (width : Width) : Statement (.rcopy put d a v t cls width) := by
  refine word _ rfl rfl rfl fun h => ?_
  have z := smZero_fabWord 0xD d a 0 ⟨t, v, 0, blkMode put⟩ ⟨cls, width, .strand, .plain⟩
  have l := low_fabWord 0xD d a 0 0 0 ⟨t, v, 0, blkMode put⟩ ⟨cls, width, .strand, .plain⟩
  have f := ofFMem_fabWord 0xD d a 0 0 0 ⟨t, v, 0, blkMode put⟩ ⟨cls, width, .strand, .plain⟩
  rw [decodeS_fabWord]
  unfold decode7
  cases put <;> (simp only [z, l, f]; exact acceptOpt_eq (by simp only [fabWord, splitImm_joinImm]; rfl) rfl h)
theorem cjoin (r : Rec) : Statement (.cjoin r) := record 8 0x01 r rfl (by decide) rfl
theorem callred (r : Rec) : Statement (.callred r) := record 8 0x02 r rfl (by decide) rfl
theorem credsc (r : Rec) : Statement (.credsc r) := record 8 0x03 r rfl (by decide) rfl
theorem callgath (r : Rec) : Statement (.callgath r) := record 8 0x04 r rfl (by decide) rfl
theorem cbcast (r : Rec) : Statement (.cbcast r) := record 8 0x05 r rfl (by decide) rfl
theorem ctopk (r : Rec) : Statement (.ctopk r) := record 8 0x06 r rfl (by decide) rfl
theorem cbar (r : Rec) : Statement (.cbar r) := record 8 0x07 r rfl (by decide) rfl
theorem regionFill (task lcore idx : Nat) : Statement (.regionFill task lcore idx) := event rfl
theorem faultResolution (id : Nat) : Statement (.faultResolution id) := event rfl
theorem tierPromotion (id : Nat) : Statement (.tierPromotion id) := event rfl
theorem responseRecord (fn : Nat) : Statement (.responseRecord fn) := event rfl
theorem endTaskWriteback (task : Nat) : Statement (.endTaskWriteback task) := event rfl
theorem completionSignalWrite (task : Nat) : Statement (.completionSignalWrite task) := event rfl
theorem twloadApply (task : Nat) : Statement (.twloadApply task) := event rfl
theorem rotation (core : Nat) : Statement (.rotation core) := event rfl
theorem preemptRequest (task : Nat) (deadline : BitVec 32) : Statement (.preemptRequest task deadline) := event rfl
theorem deadlineExpiry (task core : Nat) : Statement (.deadlineExpiry task core) := event rfl
theorem gangRelease (task : Nat) : Statement (.gangRelease task) := event rfl
theorem gangResume (task : Nat) (binds : List (Nat × Word)) : Statement (.gangResume task binds) := event rfl
theorem watchdogExpiry (task : Nat) : Statement (.watchdogExpiry task) := event rfl
theorem powerWindowEnd (watts : Nat) : Statement (.powerWindowEnd watts) := event rfl
theorem admitStepTask (task : Nat) (binds : List (Nat × Word)) : Statement (.admitStepTask task binds) := event rfl
theorem spawnAdmit (vr task : Nat) (binds : List (Nat × Word)) : Statement (.spawnAdmit vr task binds) := event rfl
theorem invalidation (scope : InvScope) : Statement (.invalidation scope) := event rfl
theorem bankGate (bank : BankId) (gate : Bool) : Statement (.bankGate bank gate) := event rfl
theorem wsRefreshWindow (die : Nat) : Statement (.wsRefreshWindow die) := event rfl
theorem ackTimeout (port : Nat) : Statement (.ackTimeout port) := event rfl
theorem loadRequest (p : Packet) : Statement (.loadRequest p) := event rfl
theorem storeRequest (p : Packet) : Statement (.storeRequest p) := event rfl
theorem storeWithHandler (p : Packet) : Statement (.storeWithHandler p) := event rfl
theorem atomicRequest (p : Packet) : Statement (.atomicRequest p) := event rfl
theorem casRequest (p : Packet) : Statement (.casRequest p) := event rfl
theorem probeRequest (p : Packet) : Statement (.probeRequest p) := event rfl
theorem featureQuery (p : Packet) : Statement (.featureQuery p) := event rfl
theorem multicastStore (p : Packet) : Statement (.multicastStore p) := event rfl
theorem reducingStore (p : Packet) : Statement (.reducingStore p) := event rfl
theorem replyWithData (p : Packet) : Statement (.replyWithData p) := event rfl
theorem acknowledgement (p : Packet) : Statement (.acknowledgement p) := event rfl
theorem retransmitTimeout (src dst : Nat) (pseq : BitVec 32) : Statement (.retransmitTimeout src dst pseq) := event rfl
theorem busyRetransmit (src dst : Nat) (pseq : BitVec 32) : Statement (.busyRetransmit src dst pseq) := event rfl
theorem holdStoreAbandon (src dst : Nat) (pseq : BitVec 32) : Statement (.holdStoreAbandon src dst pseq) := event rfl
theorem arm (p : Packet) : Statement (.arm p) := event rfl
theorem armReply (p : Packet) : Statement (.armReply p) := event rfl
theorem armTimeout (launch : BitVec 32) : Statement (.armTimeout launch) := event rfl
theorem go (p : Packet) : Statement (.go p) := event rfl
theorem launchAbort (p : Packet) : Statement (.launchAbort p) := event rfl
theorem armExpiry (launch : BitVec 32) : Statement (.armExpiry launch) := event rfl
theorem lost (p : Packet) : Statement (.lost p) := event rfl
theorem peerFailure (launch : BitVec 32) : Statement (.peerFailure launch) := event rfl
theorem migrationContext (part : MovePart) : Statement (.migrationContext part) := event rfl
theorem migrationDrainEnd (vr : Nat) : Statement (.migrationDrainEnd vr) := event rfl
theorem pullRequest (p : Packet) : Statement (.pullRequest p) := event rfl
theorem pullData (p : Packet) (arrived : Bool) : Statement (.pullData p arrived) := event rfl
theorem pullAcknowledgement (p : Packet) : Statement (.pullAcknowledgement p) := event rfl
theorem snapshotTrigger (p : Packet) : Statement (.snapshotTrigger p) := event rfl
theorem createVr (fn n : Nat) : Statement (.createVr fn n) := event rfl
theorem launch (fn n : Nat) : Statement (.launch fn n) := event rfl
theorem cancel (fn n : Nat) : Statement (.cancel fn n) := event rfl
theorem migrate (fn n : Nat) : Statement (.migrate fn n) := event rfl
theorem peerTokens (fn n : Nat) : Statement (.peerTokens fn n) := event rfl
theorem vrStatus (fn n : Nat) : Statement (.vrStatus fn n) := event rfl
theorem quote (fn n : Nat) : Statement (.quote fn n) := event rfl
theorem identity (fn n : Nat) : Statement (.identity fn n) := event rfl
theorem image (fn n : Nat) : Statement (.image fn n) := event rfl
theorem window (fn n : Nat) : Statement (.window fn n) := event rfl
theorem partition (fn n : Nat) : Statement (.partition fn n) := event rfl
theorem locations (fn n : Nat) : Statement (.locations fn n) := event rfl
theorem bankWakeEnd (bank : BankId) : Statement (.bankWakeEnd bank) := event rfl
theorem freePageRingRefill (fn : Nat) (pages : List Word) : Statement (.freePageRingRefill fn pages) := event rfl
theorem slotTableWrite (index : Nat) (value : BitVec 192) : Statement (.slotTableWrite index value) := event rfl
theorem partitionWrite (fn : Nat) (reg : PartReg) (value : Word) : Statement (.partitionWrite fn reg value) := event rfl
theorem detmodeWrite (value : Word) : Statement (.detmodeWrite value) := event rfl
theorem schedSnapWrite (value : Word) : Statement (.schedSnapWrite value) := event rfl
theorem fabPortstatWrite (port : Nat) (value : Word) : Statement (.fabPortstatWrite port value) := event rfl
theorem registerWrite (reg : SupReg) (value : Word) : Statement (.registerWrite reg value) := event rfl
theorem flitReceive (port wave : Nat) (bytes : List Byte) : Statement (.flitReceive port wave bytes) := event rfl
theorem linkReplay (port : Nat) (lseq : BitVec 16) : Statement (.linkReplay port lseq) := event rfl
theorem fecWindowEnd (port wave corrected : Nat) : Statement (.fecWindowEnd port wave corrected) := event rfl
theorem retrainEnd (port wave : Nat) (ok : Bool) : Statement (.retrainEnd port wave ok) := event rfl
theorem mailboxPost (fn n : Nat) : Statement (.mailboxPost fn n) := event rfl
theorem mailboxRelease (fn n : Nat) : Statement (.mailboxRelease fn n) := event rfl
theorem qBaseWrite (fn ring : Nat) (value : Word) : Statement (.qBaseWrite fn ring value) := event rfl
theorem qTailWrite (fn ring : Nat) (value : Word) : Statement (.qTailWrite fn ring value) := event rfl
theorem qHeadWrite (fn ring : Nat) (value : Word) : Statement (.qHeadWrite fn ring value) := event rfl
theorem bar2Write (off : Nat) (bytes : List Byte) : Statement (.bar2Write off bytes) := event rfl
theorem functionLevelReset (fn : Nat) : Statement (.functionLevelReset fn) := event rfl
theorem linkTraining (link rate width : Nat) : Statement (.linkTraining link rate width) := event rfl
theorem ret : Statement (.ret) := by
  refine word _ rfl rfl rfl fun h => ?_
  exact accept_eq rfl h
theorem barc : Statement (.barc) := by
  refine word _ rfl rfl rfl fun h => ?_
  exact accept_eq rfl h
theorem barg : Statement (.barg) := by
  refine word _ rfl rfl rfl fun h => ?_
  exact accept_eq rfl h
theorem esync : Statement (.esync) := by
  refine word _ rfl rfl rfl fun h => ?_
  exact accept_eq rfl h
theorem tret : Statement (.tret) := by
  refine word _ rfl rfl rfl fun h => ?_
  exact accept_eq rfl h
theorem yield : Statement (.yield) := by
  refine word _ rfl rfl rfl fun h => ?_
  exact accept_eq rfl h
theorem region : Statement (.region) := by
  refine word _ rfl rfl rfl fun h => ?_
  exact accept_eq rfl h
theorem tail : Statement (.tail) := by
  refine word _ rfl rfl rfl fun h => ?_
  exact accept_eq rfl h
theorem halt : Statement (.halt) := by
  refine word _ rfl rfl rfl fun h => ?_
  exact accept_eq rfl h
theorem nop : Statement (.nop) := by
  refine word _ rfl rfl rfl fun h => ?_
  exact accept_eq rfl h
theorem rfence : Statement (.rfence) := by
  refine word _ rfl rfl rfl fun h => ?_
  exact accept_eq rfl h
theorem budgetPeriodBoundary : Statement (.budgetPeriodBoundary) := event rfl
theorem signalRelay : Statement (.signalRelay) := event rfl
theorem snapshotLatch : Statement (.snapshotLatch) := event rfl
theorem mailboxTake : Statement (.mailboxTake) := event rfl
theorem boot : Statement (.boot) := event rfl
theorem powerLoss : Statement (.powerLoss) := event rfl

end Sys2Proof.Laws.Roundtrip
end

