-- ==== Sys2Proof/Laws/Strand.lean ====
section
/-! SUPPORT. Laws/Strand.lean: what the operations on a strand change and what they leave: registers with poison, loops, retiring and jumping. -/

namespace Sys2Proof.Machine

/-! ### Registers (R57, R238) -/

@[simp] theorem Strand.reg_zero (t : Strand) : t.reg 0 = 0 := by simp [Strand.reg]
@[simp] theorem Strand.pois_zero (t : Strand) : t.pois 0 = none := by simp [Strand.pois]

theorem Strand.toNat_ne (r d : Reg) (h : r ≠ d) : r.toNat ≠ d.toNat := fun e => h (BitVec.eq_of_toNat_eq e)

/-- What a register reads as after a write: s0 stays zero, the written register has the value, the others are as they were. -/
theorem Strand.reg_setReg (t : Strand) (d r : Reg) (v : Word) :
    (t.setReg d v).reg r = if r = 0 then 0 else if r = d then v else t.reg r := by
  unfold Strand.setReg Strand.reg
  by_cases h0 : r = 0
  · simp only [h0, if_true]
  · by_cases hd : d = 0
    · have : r ≠ d := by rw [hd]; exact h0
      simp only [h0, hd, if_true, if_false]
    · by_cases h : r = d
      · subst h; simp only [h0, if_true, if_false, sget_sset_self]
      · simp only [h0, hd, h, if_false, sget_sset_ne _ _ _ _ _ (Strand.toNat_ne r d h)]

theorem Strand.pois_setReg (t : Strand) (d r : Reg) (v : Word) :
    (t.setReg d v).pois r = if r = d then none else t.pois r := by
  unfold Strand.setReg Strand.pois
  by_cases h0 : r = 0
  · simp only [h0, if_true, ite_self]
  · by_cases hd : d = 0
    · have : r ≠ d := by rw [hd]; exact h0
      simp only [h0, hd, if_true, if_false]
    · by_cases h : r = d
      · subst h; simp only [h0, if_true, if_false, sget_sset_self]
      · simp only [h0, hd, h, if_false, sget_sset_ne _ _ _ _ _ (Strand.toNat_ne r d h)]

@[simp] theorem Strand.reg_setPois (t : Strand) (d r : Reg) (p : Poison) : (t.setPois d p).reg r = t.reg r := by
  by_cases hd : d = 0 <;> simp only [Strand.setPois, Strand.reg, hd, if_true, if_false]

theorem Strand.pois_setPois (t : Strand) (d r : Reg) (p : Poison) :
    (t.setPois d p).pois r = if r = 0 then none else if r = d then some p else t.pois r := by
  unfold Strand.setPois Strand.pois
  by_cases h0 : r = 0
  · simp only [h0, if_true]
  · by_cases hd : d = 0
    · have : r ≠ d := by rw [hd]; exact h0
      simp only [h0, hd, if_true, if_false]
    · by_cases h : r = d
      · subst h; simp only [h0, if_true, if_false, sget_sset_self]
      · simp only [h0, hd, h, if_false, sget_sset_ne _ _ _ _ _ (Strand.toNat_ne r d h)]

/-- A register write changes nothing but the general registers and their poison. -/
theorem Strand.setReg_eq (t : Strand) (d : Reg) (v : Word) :
    t.setReg d v = { t with regs := { t.regs with s := (t.setReg d v).regs.s, poison := (t.setReg d v).regs.poison } } := by
  unfold Strand.setReg; split <;> rfl

theorem Strand.setPois_eq (t : Strand) (d : Reg) (p : Poison) :
    t.setPois d p = { t with regs := { t.regs with s := (t.setPois d p).regs.s, poison := (t.setPois d p).regs.poison } } := by
  unfold Strand.setPois; split <;> rfl

theorem Strand.put_eq (t : Strand) (d : Reg) (srcs : List Reg) (v : Word) :
    t.put d srcs v = { t with regs := { t.regs with s := (t.put d srcs v).regs.s, poison := (t.put d srcs v).regs.poison } } := by
  unfold Strand.put; split
  · exact Strand.setPois_eq t d _
  · exact Strand.setReg_eq t d v

/-- Nothing is poisoned among sources that carry no poison. -/
theorem Strand.firstPois_none (t : Strand) (rs : List Reg) (h : ∀ r ∈ rs, t.pois r = none) : t.firstPois rs = none :=
  List.findSome?_eq_none_iff.2 h

theorem Strand.lowPois_none (t : Strand) (rs : List Reg) (h : ∀ r ∈ rs, t.pois r = none) : t.lowPois rs = none := by
  unfold Strand.lowPois
  refine List.findSome?_eq_none_iff.2 fun n _ => ?_
  dsimp only
  split
  · rename_i hc; simp [h _ (List.contains_iff_mem.1 hc)]
  · rfl

@[simp] theorem Strand.chkPois_none (t : Strand) (rs : List Reg) (h : ∀ r ∈ rs, t.pois r = none) : t.chkPois rs = none := by
  simp [Strand.chkPois, Strand.lowPois_none t rs h]

/-! ### Loops, retiring, jumping (R275, R277) -/

@[simp] theorem Strand.reg_setLoop (t : Strand) (n : Nat) (l : Loop) (r : Reg) : (t.setLoop n l).reg r = t.reg r := rfl
@[simp] theorem Strand.pois_setLoop (t : Strand) (n : Nat) (l : Loop) (r : Reg) : (t.setLoop n l).pois r = t.pois r := rfl
@[simp] theorem Strand.reg_setCnt (t : Strand) (n : Nat) (c : Cnt) (r : Reg) : (t.setCnt n c).reg r = t.reg r := rfl
@[simp] theorem Strand.pois_setCnt (t : Strand) (n : Nat) (c : Cnt) (r : Reg) : (t.setCnt n c).pois r = t.pois r := rfl
@[simp] theorem Strand.reg_setSdesc (t : Strand) (n : Nat) (v : BitVec 128) (r : Reg) : (t.setSdesc n v).reg r = t.reg r := rfl
@[simp] theorem Strand.pois_setSdesc (t : Strand) (n : Nat) (v : BitVec 128) (r : Reg) : (t.setSdesc n v).pois r = t.pois r := rfl

theorem Strand.cnt_setCnt (t : Strand) (n m : Nat) (c : Cnt) : (t.setCnt n c).cnt m = if m = n then c else t.cnt m := by
  simp [Strand.setCnt, Strand.cnt, sget_sset]

theorem Strand.sdesc_setSdesc (t : Strand) (n m : Nat) (v : BitVec 128) :
    (t.setSdesc n v).sdesc m = if m = n then v else t.sdesc m := by
  simp [Strand.setSdesc, Strand.sdesc, sget_sset]

theorem Strand.loop_setLoop (t : Strand) (n m : Nat) (l : Loop) : (t.setLoop n l).loop m = if m = n then l else t.loop m := by
  simp [Strand.setLoop, Strand.loop, sget_sset]

/-- Stepping the loops changes nothing but pc and loop registers. -/
theorem Strand.loopStep_eq (pc next : BitVec 53) (n : Nat) (t : Strand) :
    Strand.loopStep pc next n t = { t with
      pc := (Strand.loopStep pc next n t).pc, regs := { t.regs with lc := (Strand.loopStep pc next n t).regs.lc } } := by
  induction n generalizing t with
  | zero => rfl
  | succ n ih =>
    unfold Strand.loopStep
    cases hi : t.innermost pc next with
    | none => rfl
    | some m =>
      dsimp only
      by_cases hl : (t.loop m).count - 1 ≠ 0
      · simp only [if_pos hl]; rfl
      · simp only [if_neg hl]; rw [ih]; rfl

/-- Retiring changes nothing but pc, loop registers, status, the count of retired instructions and the captured instruction. -/
theorem Strand.retire_eq (t : Strand) (len : BitVec 53) :
    t.retire len = { t with
      pc := (t.retire len).pc, regs := { t.regs with lc := (t.retire len).regs.lc }, status := .ready, icount := t.icount + 1, ir := none } := by
  have h := Strand.loopStep_eq t.pc (t.pc + len) 3 t
  unfold Strand.retire
  rw [h]

theorem Strand.leaveLoops_eq (t : Strand) (target : BitVec 53) :
    t.leaveLoops target = { t with regs := { t.regs with lc := (t.leaveLoops target).regs.lc } } := by
  unfold Strand.leaveLoops
  have key : ∀ (l : List Nat) (u : Strand),
      (l.foldl (fun u n => let l := u.loop n
        if l.holds u.pc && !decide (l.start.toNat ≤ target.toNat ∧ target.toNat < l.stop.toNat)
        then u.setLoop n { l with active := false } else u) u) =
      { u with regs := { u.regs with lc := (l.foldl (fun u n => let l := u.loop n
        if l.holds u.pc && !decide (l.start.toNat ≤ target.toNat ∧ target.toNat < l.stop.toNat)
        then u.setLoop n { l with active := false } else u) u).regs.lc } } := by
    intro l
    induction l with
    | nil => intro u; rfl
    | cons n t ih =>
      intro u
      rw [List.foldl_cons, ih]
      dsimp only
      split <;> rfl
  exact key _ _

/-- A taken transfer changes nothing but pc, loop registers, status and the count of retired instructions. -/
theorem Strand.jump_eq (t : Strand) (target : BitVec 53) :
    t.jump target = { t with
      pc := target, regs := { t.regs with lc := (t.jump target).regs.lc }, status := .ready, icount := t.icount + 1 } := by
  have h := Strand.leaveLoops_eq t target
  unfold Strand.jump
  rw [h]


@[simp] theorem Strand.retire_restart (t : Strand) (len : BitVec 53) : (t.retire len).restart = t.restart := by rw [Strand.retire_eq]
@[simp] theorem Strand.retire_ckpt (t : Strand) (len : BitVec 53) : (t.retire len).ckpt = t.ckpt := by rw [Strand.retire_eq]
@[simp] theorem Strand.retire_region (t : Strand) (len : BitVec 53) : (t.retire len).region = t.region := by rw [Strand.retire_eq]
@[simp] theorem Strand.retire_opened (t : Strand) (len : BitVec 53) : (t.retire len).opened = t.opened := by rw [Strand.retire_eq]
@[simp] theorem Strand.retire_rsb (t : Strand) (len : BitVec 53) : (t.retire len).rsb = t.rsb := by rw [Strand.retire_eq]
@[simp] theorem Strand.retire_cause (t : Strand) (len : BitVec 53) : (t.retire len).cause = t.cause := by rw [Strand.retire_eq]
@[simp] theorem Strand.retire_causeCls (t : Strand) (len : BitVec 53) : (t.retire len).causeCls = t.causeCls := by rw [Strand.retire_eq]
@[simp] theorem Strand.retire_h (t : Strand) (len : BitVec 53) : (t.retire len).h = t.h := by rw [Strand.retire_eq]
@[simp] theorem Strand.retire_trappc (t : Strand) (len : BitVec 53) : (t.retire len).trappc = t.trappc := by rw [Strand.retire_eq]
@[simp] theorem Strand.retire_faultva (t : Strand) (len : BitVec 53) : (t.retire len).faultva = t.faultva := by rw [Strand.retire_eq]
@[simp] theorem Strand.retire_poisoninfo (t : Strand) (len : BitVec 53) : (t.retire len).poisoninfo = t.poisoninfo := by rw [Strand.retire_eq]
@[simp] theorem Strand.retire_trapvec (t : Strand) (len : BitVec 53) : (t.retire len).trapvec = t.trapvec := by rw [Strand.retire_eq]
@[simp] theorem Strand.retire_smode (t : Strand) (len : BitVec 53) : (t.retire len).smode = t.smode := by rw [Strand.retire_eq]
@[simp] theorem Strand.retire_srsalt (t : Strand) (len : BitVec 53) : (t.retire len).srsalt = t.srsalt := by rw [Strand.retire_eq]
@[simp] theorem Strand.retire_nbv (t : Strand) (len : BitVec 53) : (t.retire len).nbv = t.nbv := by rw [Strand.retire_eq]
@[simp] theorem Strand.retire_amax (t : Strand) (len : BitVec 53) : (t.retire len).amax = t.amax := by rw [Strand.retire_eq]
@[simp] theorem Strand.retire_nanseen (t : Strand) (len : BitVec 53) : (t.retire len).nanseen = t.nanseen := by rw [Strand.retire_eq]
@[simp] theorem Strand.retire_scopestat (t : Strand) (len : BitVec 53) : (t.retire len).scopestat = t.scopestat := by rw [Strand.retire_eq]
@[simp] theorem Strand.retire_vm (t : Strand) (len : BitVec 53) : (t.retire len).vm = t.vm := by rw [Strand.retire_eq]
@[simp] theorem Strand.retire_mm (t : Strand) (len : BitVec 53) : (t.retire len).mm = t.mm := by rw [Strand.retire_eq]
@[simp] theorem Strand.retire_etr (t : Strand) (len : BitVec 53) : (t.retire len).etr = t.etr := by rw [Strand.retire_eq]
@[simp] theorem Strand.retire_claim (t : Strand) (len : BitVec 53) : (t.retire len).claim = t.claim := by rw [Strand.retire_eq]
@[simp] theorem Strand.retire_handler (t : Strand) (len : BitVec 53) : (t.retire len).handler = t.handler := by rw [Strand.retire_eq]
@[simp] theorem Strand.retire_entry (t : Strand) (len : BitVec 53) : (t.retire len).entry = t.entry := by rw [Strand.retire_eq]
@[simp] theorem Strand.retire_errs (t : Strand) (len : BitVec 53) : (t.retire len).errs = t.errs := by rw [Strand.retire_eq]
@[simp] theorem Strand.retire_rfails (t : Strand) (len : BitVec 53) : (t.retire len).rfails = t.rfails := by rw [Strand.retire_eq]
@[simp] theorem Strand.retire_pending (t : Strand) (len : BitVec 53) : (t.retire len).pending = t.pending := by rw [Strand.retire_eq]
@[simp] theorem Strand.retire_sid (t : Strand) (len : BitVec 53) : (t.retire len).sid = t.sid := by rw [Strand.retire_eq]
@[simp] theorem Strand.retire_park (t : Strand) (len : BitVec 53) : (t.retire len).park = t.park := by rw [Strand.retire_eq]
@[simp] theorem Strand.retire_arrived (t : Strand) (len : BitVec 53) : (t.retire len).arrived = t.arrived := by rw [Strand.retire_eq]
@[simp] theorem Strand.retire_tailed (t : Strand) (len : BitVec 53) : (t.retire len).tailed = t.tailed := by rw [Strand.retire_eq]
@[simp] theorem Strand.retire_haltAt (t : Strand) (len : BitVec 53) : (t.retire len).haltAt = t.haltAt := by rw [Strand.retire_eq]
@[simp] theorem Strand.retire_atYield (t : Strand) (len : BitVec 53) : (t.retire len).atYield = t.atYield := by rw [Strand.retire_eq]
@[simp] theorem Strand.retire_reg (t : Strand) (len : BitVec 53) (r : Reg) : (t.retire len).reg r = t.reg r := by
  rw [Strand.retire_eq]; rfl
@[simp] theorem Strand.retire_pois (t : Strand) (len : BitVec 53) (r : Reg) : (t.retire len).pois r = t.pois r := by
  rw [Strand.retire_eq]; rfl
@[simp] theorem Strand.retire_cnt (t : Strand) (len : BitVec 53) (n : Nat) : (t.retire len).cnt n = t.cnt n := by
  rw [Strand.retire_eq]; rfl
@[simp] theorem Strand.retire_sdesc (t : Strand) (len : BitVec 53) (n : Nat) : (t.retire len).sdesc n = t.sdesc n := by
  rw [Strand.retire_eq]; rfl
@[simp] theorem Strand.retire_status (t : Strand) (len : BitVec 53) : (t.retire len).status = .ready := by rw [Strand.retire_eq]
@[simp] theorem Strand.retire_icount (t : Strand) (len : BitVec 53) : (t.retire len).icount = t.icount + 1 := by rw [Strand.retire_eq]
@[simp] theorem Strand.retire_ir (t : Strand) (len : BitVec 53) : (t.retire len).ir = none := by rw [Strand.retire_eq]

@[simp] theorem Strand.jump_restart (t : Strand) (len : BitVec 53) : (t.jump len).restart = t.restart := by rw [Strand.jump_eq]
@[simp] theorem Strand.jump_ckpt (t : Strand) (len : BitVec 53) : (t.jump len).ckpt = t.ckpt := by rw [Strand.jump_eq]
@[simp] theorem Strand.jump_region (t : Strand) (len : BitVec 53) : (t.jump len).region = t.region := by rw [Strand.jump_eq]
@[simp] theorem Strand.jump_opened (t : Strand) (len : BitVec 53) : (t.jump len).opened = t.opened := by rw [Strand.jump_eq]
@[simp] theorem Strand.jump_rsb (t : Strand) (len : BitVec 53) : (t.jump len).rsb = t.rsb := by rw [Strand.jump_eq]
@[simp] theorem Strand.jump_cause (t : Strand) (len : BitVec 53) : (t.jump len).cause = t.cause := by rw [Strand.jump_eq]
@[simp] theorem Strand.jump_causeCls (t : Strand) (len : BitVec 53) : (t.jump len).causeCls = t.causeCls := by rw [Strand.jump_eq]
@[simp] theorem Strand.jump_h (t : Strand) (len : BitVec 53) : (t.jump len).h = t.h := by rw [Strand.jump_eq]
@[simp] theorem Strand.jump_trappc (t : Strand) (len : BitVec 53) : (t.jump len).trappc = t.trappc := by rw [Strand.jump_eq]
@[simp] theorem Strand.jump_faultva (t : Strand) (len : BitVec 53) : (t.jump len).faultva = t.faultva := by rw [Strand.jump_eq]
@[simp] theorem Strand.jump_poisoninfo (t : Strand) (len : BitVec 53) : (t.jump len).poisoninfo = t.poisoninfo := by rw [Strand.jump_eq]
@[simp] theorem Strand.jump_trapvec (t : Strand) (len : BitVec 53) : (t.jump len).trapvec = t.trapvec := by rw [Strand.jump_eq]
@[simp] theorem Strand.jump_smode (t : Strand) (len : BitVec 53) : (t.jump len).smode = t.smode := by rw [Strand.jump_eq]
@[simp] theorem Strand.jump_srsalt (t : Strand) (len : BitVec 53) : (t.jump len).srsalt = t.srsalt := by rw [Strand.jump_eq]
@[simp] theorem Strand.jump_nbv (t : Strand) (len : BitVec 53) : (t.jump len).nbv = t.nbv := by rw [Strand.jump_eq]
@[simp] theorem Strand.jump_amax (t : Strand) (len : BitVec 53) : (t.jump len).amax = t.amax := by rw [Strand.jump_eq]
@[simp] theorem Strand.jump_nanseen (t : Strand) (len : BitVec 53) : (t.jump len).nanseen = t.nanseen := by rw [Strand.jump_eq]
@[simp] theorem Strand.jump_scopestat (t : Strand) (len : BitVec 53) : (t.jump len).scopestat = t.scopestat := by rw [Strand.jump_eq]
@[simp] theorem Strand.jump_vm (t : Strand) (len : BitVec 53) : (t.jump len).vm = t.vm := by rw [Strand.jump_eq]
@[simp] theorem Strand.jump_mm (t : Strand) (len : BitVec 53) : (t.jump len).mm = t.mm := by rw [Strand.jump_eq]
@[simp] theorem Strand.jump_etr (t : Strand) (len : BitVec 53) : (t.jump len).etr = t.etr := by rw [Strand.jump_eq]
@[simp] theorem Strand.jump_claim (t : Strand) (len : BitVec 53) : (t.jump len).claim = t.claim := by rw [Strand.jump_eq]
@[simp] theorem Strand.jump_handler (t : Strand) (len : BitVec 53) : (t.jump len).handler = t.handler := by rw [Strand.jump_eq]
@[simp] theorem Strand.jump_entry (t : Strand) (len : BitVec 53) : (t.jump len).entry = t.entry := by rw [Strand.jump_eq]
@[simp] theorem Strand.jump_errs (t : Strand) (len : BitVec 53) : (t.jump len).errs = t.errs := by rw [Strand.jump_eq]
@[simp] theorem Strand.jump_rfails (t : Strand) (len : BitVec 53) : (t.jump len).rfails = t.rfails := by rw [Strand.jump_eq]
@[simp] theorem Strand.jump_pending (t : Strand) (len : BitVec 53) : (t.jump len).pending = t.pending := by rw [Strand.jump_eq]
@[simp] theorem Strand.jump_sid (t : Strand) (len : BitVec 53) : (t.jump len).sid = t.sid := by rw [Strand.jump_eq]
@[simp] theorem Strand.jump_park (t : Strand) (len : BitVec 53) : (t.jump len).park = t.park := by rw [Strand.jump_eq]
@[simp] theorem Strand.jump_arrived (t : Strand) (len : BitVec 53) : (t.jump len).arrived = t.arrived := by rw [Strand.jump_eq]
@[simp] theorem Strand.jump_tailed (t : Strand) (len : BitVec 53) : (t.jump len).tailed = t.tailed := by rw [Strand.jump_eq]
@[simp] theorem Strand.jump_haltAt (t : Strand) (len : BitVec 53) : (t.jump len).haltAt = t.haltAt := by rw [Strand.jump_eq]
@[simp] theorem Strand.jump_atYield (t : Strand) (len : BitVec 53) : (t.jump len).atYield = t.atYield := by rw [Strand.jump_eq]
@[simp] theorem Strand.jump_reg (t : Strand) (len : BitVec 53) (r : Reg) : (t.jump len).reg r = t.reg r := by
  rw [Strand.jump_eq]; rfl
@[simp] theorem Strand.jump_pois (t : Strand) (len : BitVec 53) (r : Reg) : (t.jump len).pois r = t.pois r := by
  rw [Strand.jump_eq]; rfl
@[simp] theorem Strand.jump_cnt (t : Strand) (len : BitVec 53) (n : Nat) : (t.jump len).cnt n = t.cnt n := by
  rw [Strand.jump_eq]; rfl
@[simp] theorem Strand.jump_sdesc (t : Strand) (len : BitVec 53) (n : Nat) : (t.jump len).sdesc n = t.sdesc n := by
  rw [Strand.jump_eq]; rfl
@[simp] theorem Strand.jump_status (t : Strand) (len : BitVec 53) : (t.jump len).status = .ready := by rw [Strand.jump_eq]
@[simp] theorem Strand.jump_icount (t : Strand) (len : BitVec 53) : (t.jump len).icount = t.icount + 1 := by rw [Strand.jump_eq]

@[simp] theorem Strand.jump_pc (t : Strand) (x : BitVec 53) : (t.jump x).pc = x := by rw [Strand.jump_eq]
@[simp] theorem Strand.setReg_status (t : Strand) (d : Reg) (v : Word) : (t.setReg d v).status = t.status := by rw [Strand.setReg_eq]
@[simp] theorem Strand.setReg_pc (t : Strand) (d : Reg) (v : Word) : (t.setReg d v).pc = t.pc := by rw [Strand.setReg_eq]
@[simp] theorem Strand.setReg_icount (t : Strand) (d : Reg) (v : Word) : (t.setReg d v).icount = t.icount := by rw [Strand.setReg_eq]
@[simp] theorem Strand.setReg_restart (t : Strand) (d : Reg) (v : Word) : (t.setReg d v).restart = t.restart := by rw [Strand.setReg_eq]
@[simp] theorem Strand.setReg_ckpt (t : Strand) (d : Reg) (v : Word) : (t.setReg d v).ckpt = t.ckpt := by rw [Strand.setReg_eq]
@[simp] theorem Strand.setReg_region (t : Strand) (d : Reg) (v : Word) : (t.setReg d v).region = t.region := by rw [Strand.setReg_eq]
@[simp] theorem Strand.setReg_opened (t : Strand) (d : Reg) (v : Word) : (t.setReg d v).opened = t.opened := by rw [Strand.setReg_eq]
@[simp] theorem Strand.setReg_rsb (t : Strand) (d : Reg) (v : Word) : (t.setReg d v).rsb = t.rsb := by rw [Strand.setReg_eq]
@[simp] theorem Strand.setReg_cause (t : Strand) (d : Reg) (v : Word) : (t.setReg d v).cause = t.cause := by rw [Strand.setReg_eq]
@[simp] theorem Strand.setReg_causeCls (t : Strand) (d : Reg) (v : Word) : (t.setReg d v).causeCls = t.causeCls := by rw [Strand.setReg_eq]
@[simp] theorem Strand.setReg_h (t : Strand) (d : Reg) (v : Word) : (t.setReg d v).h = t.h := by rw [Strand.setReg_eq]
@[simp] theorem Strand.setReg_trappc (t : Strand) (d : Reg) (v : Word) : (t.setReg d v).trappc = t.trappc := by rw [Strand.setReg_eq]
@[simp] theorem Strand.setReg_faultva (t : Strand) (d : Reg) (v : Word) : (t.setReg d v).faultva = t.faultva := by rw [Strand.setReg_eq]
@[simp] theorem Strand.setReg_poisoninfo (t : Strand) (d : Reg) (v : Word) : (t.setReg d v).poisoninfo = t.poisoninfo := by rw [Strand.setReg_eq]
@[simp] theorem Strand.setReg_trapvec (t : Strand) (d : Reg) (v : Word) : (t.setReg d v).trapvec = t.trapvec := by rw [Strand.setReg_eq]
@[simp] theorem Strand.setReg_smode (t : Strand) (d : Reg) (v : Word) : (t.setReg d v).smode = t.smode := by rw [Strand.setReg_eq]
@[simp] theorem Strand.setReg_srsalt (t : Strand) (d : Reg) (v : Word) : (t.setReg d v).srsalt = t.srsalt := by rw [Strand.setReg_eq]
@[simp] theorem Strand.setReg_nbv (t : Strand) (d : Reg) (v : Word) : (t.setReg d v).nbv = t.nbv := by rw [Strand.setReg_eq]
@[simp] theorem Strand.setReg_amax (t : Strand) (d : Reg) (v : Word) : (t.setReg d v).amax = t.amax := by rw [Strand.setReg_eq]
@[simp] theorem Strand.setReg_nanseen (t : Strand) (d : Reg) (v : Word) : (t.setReg d v).nanseen = t.nanseen := by rw [Strand.setReg_eq]
@[simp] theorem Strand.setReg_scopestat (t : Strand) (d : Reg) (v : Word) : (t.setReg d v).scopestat = t.scopestat := by rw [Strand.setReg_eq]
@[simp] theorem Strand.setReg_vm (t : Strand) (d : Reg) (v : Word) : (t.setReg d v).vm = t.vm := by rw [Strand.setReg_eq]
@[simp] theorem Strand.setReg_mm (t : Strand) (d : Reg) (v : Word) : (t.setReg d v).mm = t.mm := by rw [Strand.setReg_eq]
@[simp] theorem Strand.setReg_etr (t : Strand) (d : Reg) (v : Word) : (t.setReg d v).etr = t.etr := by rw [Strand.setReg_eq]
@[simp] theorem Strand.setReg_claim (t : Strand) (d : Reg) (v : Word) : (t.setReg d v).claim = t.claim := by rw [Strand.setReg_eq]
@[simp] theorem Strand.setReg_handler (t : Strand) (d : Reg) (v : Word) : (t.setReg d v).handler = t.handler := by rw [Strand.setReg_eq]
@[simp] theorem Strand.setReg_entry (t : Strand) (d : Reg) (v : Word) : (t.setReg d v).entry = t.entry := by rw [Strand.setReg_eq]
@[simp] theorem Strand.setReg_errs (t : Strand) (d : Reg) (v : Word) : (t.setReg d v).errs = t.errs := by rw [Strand.setReg_eq]
@[simp] theorem Strand.setReg_rfails (t : Strand) (d : Reg) (v : Word) : (t.setReg d v).rfails = t.rfails := by rw [Strand.setReg_eq]
@[simp] theorem Strand.setReg_pending (t : Strand) (d : Reg) (v : Word) : (t.setReg d v).pending = t.pending := by rw [Strand.setReg_eq]
@[simp] theorem Strand.setReg_sid (t : Strand) (d : Reg) (v : Word) : (t.setReg d v).sid = t.sid := by rw [Strand.setReg_eq]
@[simp] theorem Strand.setReg_park (t : Strand) (d : Reg) (v : Word) : (t.setReg d v).park = t.park := by rw [Strand.setReg_eq]
@[simp] theorem Strand.setReg_arrived (t : Strand) (d : Reg) (v : Word) : (t.setReg d v).arrived = t.arrived := by rw [Strand.setReg_eq]
@[simp] theorem Strand.setReg_tailed (t : Strand) (d : Reg) (v : Word) : (t.setReg d v).tailed = t.tailed := by rw [Strand.setReg_eq]
@[simp] theorem Strand.setReg_haltAt (t : Strand) (d : Reg) (v : Word) : (t.setReg d v).haltAt = t.haltAt := by rw [Strand.setReg_eq]
@[simp] theorem Strand.setReg_atYield (t : Strand) (d : Reg) (v : Word) : (t.setReg d v).atYield = t.atYield := by rw [Strand.setReg_eq]
@[simp] theorem Strand.setReg_cnt (t : Strand) (d : Reg) (v : Word) (n : Nat) : (t.setReg d v).cnt n = t.cnt n := by
  rw [Strand.setReg_eq]; rfl
@[simp] theorem Strand.setReg_sdesc (t : Strand) (d : Reg) (v : Word) (n : Nat) : (t.setReg d v).sdesc n = t.sdesc n := by
  rw [Strand.setReg_eq]; rfl
@[simp] theorem Strand.setReg_loop (t : Strand) (d : Reg) (v : Word) (n : Nat) : (t.setReg d v).loop n = t.loop n := by
  rw [Strand.setReg_eq]; rfl

@[simp] theorem Strand.setPois_status (t : Strand) (d : Reg) (p : Poison) : (t.setPois d p).status = t.status := by rw [Strand.setPois_eq]
@[simp] theorem Strand.setPois_pc (t : Strand) (d : Reg) (p : Poison) : (t.setPois d p).pc = t.pc := by rw [Strand.setPois_eq]
@[simp] theorem Strand.setPois_icount (t : Strand) (d : Reg) (p : Poison) : (t.setPois d p).icount = t.icount := by rw [Strand.setPois_eq]
@[simp] theorem Strand.setPois_restart (t : Strand) (d : Reg) (p : Poison) : (t.setPois d p).restart = t.restart := by rw [Strand.setPois_eq]
@[simp] theorem Strand.setPois_ckpt (t : Strand) (d : Reg) (p : Poison) : (t.setPois d p).ckpt = t.ckpt := by rw [Strand.setPois_eq]
@[simp] theorem Strand.setPois_region (t : Strand) (d : Reg) (p : Poison) : (t.setPois d p).region = t.region := by rw [Strand.setPois_eq]
@[simp] theorem Strand.setPois_opened (t : Strand) (d : Reg) (p : Poison) : (t.setPois d p).opened = t.opened := by rw [Strand.setPois_eq]
@[simp] theorem Strand.setPois_rsb (t : Strand) (d : Reg) (p : Poison) : (t.setPois d p).rsb = t.rsb := by rw [Strand.setPois_eq]
@[simp] theorem Strand.setPois_cause (t : Strand) (d : Reg) (p : Poison) : (t.setPois d p).cause = t.cause := by rw [Strand.setPois_eq]
@[simp] theorem Strand.setPois_causeCls (t : Strand) (d : Reg) (p : Poison) : (t.setPois d p).causeCls = t.causeCls := by rw [Strand.setPois_eq]
@[simp] theorem Strand.setPois_h (t : Strand) (d : Reg) (p : Poison) : (t.setPois d p).h = t.h := by rw [Strand.setPois_eq]
@[simp] theorem Strand.setPois_trappc (t : Strand) (d : Reg) (p : Poison) : (t.setPois d p).trappc = t.trappc := by rw [Strand.setPois_eq]
@[simp] theorem Strand.setPois_faultva (t : Strand) (d : Reg) (p : Poison) : (t.setPois d p).faultva = t.faultva := by rw [Strand.setPois_eq]
@[simp] theorem Strand.setPois_poisoninfo (t : Strand) (d : Reg) (p : Poison) : (t.setPois d p).poisoninfo = t.poisoninfo := by rw [Strand.setPois_eq]
@[simp] theorem Strand.setPois_trapvec (t : Strand) (d : Reg) (p : Poison) : (t.setPois d p).trapvec = t.trapvec := by rw [Strand.setPois_eq]
@[simp] theorem Strand.setPois_smode (t : Strand) (d : Reg) (p : Poison) : (t.setPois d p).smode = t.smode := by rw [Strand.setPois_eq]
@[simp] theorem Strand.setPois_srsalt (t : Strand) (d : Reg) (p : Poison) : (t.setPois d p).srsalt = t.srsalt := by rw [Strand.setPois_eq]
@[simp] theorem Strand.setPois_nbv (t : Strand) (d : Reg) (p : Poison) : (t.setPois d p).nbv = t.nbv := by rw [Strand.setPois_eq]
@[simp] theorem Strand.setPois_amax (t : Strand) (d : Reg) (p : Poison) : (t.setPois d p).amax = t.amax := by rw [Strand.setPois_eq]
@[simp] theorem Strand.setPois_nanseen (t : Strand) (d : Reg) (p : Poison) : (t.setPois d p).nanseen = t.nanseen := by rw [Strand.setPois_eq]
@[simp] theorem Strand.setPois_scopestat (t : Strand) (d : Reg) (p : Poison) : (t.setPois d p).scopestat = t.scopestat := by rw [Strand.setPois_eq]
@[simp] theorem Strand.setPois_vm (t : Strand) (d : Reg) (p : Poison) : (t.setPois d p).vm = t.vm := by rw [Strand.setPois_eq]
@[simp] theorem Strand.setPois_mm (t : Strand) (d : Reg) (p : Poison) : (t.setPois d p).mm = t.mm := by rw [Strand.setPois_eq]
@[simp] theorem Strand.setPois_etr (t : Strand) (d : Reg) (p : Poison) : (t.setPois d p).etr = t.etr := by rw [Strand.setPois_eq]
@[simp] theorem Strand.setPois_claim (t : Strand) (d : Reg) (p : Poison) : (t.setPois d p).claim = t.claim := by rw [Strand.setPois_eq]
@[simp] theorem Strand.setPois_handler (t : Strand) (d : Reg) (p : Poison) : (t.setPois d p).handler = t.handler := by rw [Strand.setPois_eq]
@[simp] theorem Strand.setPois_entry (t : Strand) (d : Reg) (p : Poison) : (t.setPois d p).entry = t.entry := by rw [Strand.setPois_eq]
@[simp] theorem Strand.setPois_errs (t : Strand) (d : Reg) (p : Poison) : (t.setPois d p).errs = t.errs := by rw [Strand.setPois_eq]
@[simp] theorem Strand.setPois_rfails (t : Strand) (d : Reg) (p : Poison) : (t.setPois d p).rfails = t.rfails := by rw [Strand.setPois_eq]
@[simp] theorem Strand.setPois_pending (t : Strand) (d : Reg) (p : Poison) : (t.setPois d p).pending = t.pending := by rw [Strand.setPois_eq]
@[simp] theorem Strand.setPois_sid (t : Strand) (d : Reg) (p : Poison) : (t.setPois d p).sid = t.sid := by rw [Strand.setPois_eq]
@[simp] theorem Strand.setPois_park (t : Strand) (d : Reg) (p : Poison) : (t.setPois d p).park = t.park := by rw [Strand.setPois_eq]
@[simp] theorem Strand.setPois_arrived (t : Strand) (d : Reg) (p : Poison) : (t.setPois d p).arrived = t.arrived := by rw [Strand.setPois_eq]
@[simp] theorem Strand.setPois_tailed (t : Strand) (d : Reg) (p : Poison) : (t.setPois d p).tailed = t.tailed := by rw [Strand.setPois_eq]
@[simp] theorem Strand.setPois_haltAt (t : Strand) (d : Reg) (p : Poison) : (t.setPois d p).haltAt = t.haltAt := by rw [Strand.setPois_eq]
@[simp] theorem Strand.setPois_atYield (t : Strand) (d : Reg) (p : Poison) : (t.setPois d p).atYield = t.atYield := by rw [Strand.setPois_eq]
@[simp] theorem Strand.setPois_cnt (t : Strand) (d : Reg) (p : Poison) (n : Nat) : (t.setPois d p).cnt n = t.cnt n := by
  rw [Strand.setPois_eq]; rfl
@[simp] theorem Strand.setPois_sdesc (t : Strand) (d : Reg) (p : Poison) (n : Nat) : (t.setPois d p).sdesc n = t.sdesc n := by
  rw [Strand.setPois_eq]; rfl
@[simp] theorem Strand.setPois_loop (t : Strand) (d : Reg) (p : Poison) (n : Nat) : (t.setPois d p).loop n = t.loop n := by
  rw [Strand.setPois_eq]; rfl

@[simp] theorem Strand.put_status (t : Strand) (d : Reg) (srcs : List Reg) (v : Word) : (t.put d srcs v).status = t.status := by rw [Strand.put_eq]
@[simp] theorem Strand.put_pc (t : Strand) (d : Reg) (srcs : List Reg) (v : Word) : (t.put d srcs v).pc = t.pc := by rw [Strand.put_eq]
@[simp] theorem Strand.put_icount (t : Strand) (d : Reg) (srcs : List Reg) (v : Word) : (t.put d srcs v).icount = t.icount := by rw [Strand.put_eq]
@[simp] theorem Strand.put_restart (t : Strand) (d : Reg) (srcs : List Reg) (v : Word) : (t.put d srcs v).restart = t.restart := by rw [Strand.put_eq]
@[simp] theorem Strand.put_ckpt (t : Strand) (d : Reg) (srcs : List Reg) (v : Word) : (t.put d srcs v).ckpt = t.ckpt := by rw [Strand.put_eq]
@[simp] theorem Strand.put_region (t : Strand) (d : Reg) (srcs : List Reg) (v : Word) : (t.put d srcs v).region = t.region := by rw [Strand.put_eq]
@[simp] theorem Strand.put_opened (t : Strand) (d : Reg) (srcs : List Reg) (v : Word) : (t.put d srcs v).opened = t.opened := by rw [Strand.put_eq]
@[simp] theorem Strand.put_rsb (t : Strand) (d : Reg) (srcs : List Reg) (v : Word) : (t.put d srcs v).rsb = t.rsb := by rw [Strand.put_eq]
@[simp] theorem Strand.put_cause (t : Strand) (d : Reg) (srcs : List Reg) (v : Word) : (t.put d srcs v).cause = t.cause := by rw [Strand.put_eq]
@[simp] theorem Strand.put_causeCls (t : Strand) (d : Reg) (srcs : List Reg) (v : Word) : (t.put d srcs v).causeCls = t.causeCls := by rw [Strand.put_eq]
@[simp] theorem Strand.put_h (t : Strand) (d : Reg) (srcs : List Reg) (v : Word) : (t.put d srcs v).h = t.h := by rw [Strand.put_eq]
@[simp] theorem Strand.put_trappc (t : Strand) (d : Reg) (srcs : List Reg) (v : Word) : (t.put d srcs v).trappc = t.trappc := by rw [Strand.put_eq]
@[simp] theorem Strand.put_faultva (t : Strand) (d : Reg) (srcs : List Reg) (v : Word) : (t.put d srcs v).faultva = t.faultva := by rw [Strand.put_eq]
@[simp] theorem Strand.put_poisoninfo (t : Strand) (d : Reg) (srcs : List Reg) (v : Word) : (t.put d srcs v).poisoninfo = t.poisoninfo := by rw [Strand.put_eq]
@[simp] theorem Strand.put_trapvec (t : Strand) (d : Reg) (srcs : List Reg) (v : Word) : (t.put d srcs v).trapvec = t.trapvec := by rw [Strand.put_eq]
@[simp] theorem Strand.put_smode (t : Strand) (d : Reg) (srcs : List Reg) (v : Word) : (t.put d srcs v).smode = t.smode := by rw [Strand.put_eq]
@[simp] theorem Strand.put_srsalt (t : Strand) (d : Reg) (srcs : List Reg) (v : Word) : (t.put d srcs v).srsalt = t.srsalt := by rw [Strand.put_eq]
@[simp] theorem Strand.put_nbv (t : Strand) (d : Reg) (srcs : List Reg) (v : Word) : (t.put d srcs v).nbv = t.nbv := by rw [Strand.put_eq]
@[simp] theorem Strand.put_amax (t : Strand) (d : Reg) (srcs : List Reg) (v : Word) : (t.put d srcs v).amax = t.amax := by rw [Strand.put_eq]
@[simp] theorem Strand.put_nanseen (t : Strand) (d : Reg) (srcs : List Reg) (v : Word) : (t.put d srcs v).nanseen = t.nanseen := by rw [Strand.put_eq]
@[simp] theorem Strand.put_scopestat (t : Strand) (d : Reg) (srcs : List Reg) (v : Word) : (t.put d srcs v).scopestat = t.scopestat := by rw [Strand.put_eq]
@[simp] theorem Strand.put_vm (t : Strand) (d : Reg) (srcs : List Reg) (v : Word) : (t.put d srcs v).vm = t.vm := by rw [Strand.put_eq]
@[simp] theorem Strand.put_mm (t : Strand) (d : Reg) (srcs : List Reg) (v : Word) : (t.put d srcs v).mm = t.mm := by rw [Strand.put_eq]
@[simp] theorem Strand.put_etr (t : Strand) (d : Reg) (srcs : List Reg) (v : Word) : (t.put d srcs v).etr = t.etr := by rw [Strand.put_eq]
@[simp] theorem Strand.put_claim (t : Strand) (d : Reg) (srcs : List Reg) (v : Word) : (t.put d srcs v).claim = t.claim := by rw [Strand.put_eq]
@[simp] theorem Strand.put_handler (t : Strand) (d : Reg) (srcs : List Reg) (v : Word) : (t.put d srcs v).handler = t.handler := by rw [Strand.put_eq]
@[simp] theorem Strand.put_entry (t : Strand) (d : Reg) (srcs : List Reg) (v : Word) : (t.put d srcs v).entry = t.entry := by rw [Strand.put_eq]
@[simp] theorem Strand.put_errs (t : Strand) (d : Reg) (srcs : List Reg) (v : Word) : (t.put d srcs v).errs = t.errs := by rw [Strand.put_eq]
@[simp] theorem Strand.put_rfails (t : Strand) (d : Reg) (srcs : List Reg) (v : Word) : (t.put d srcs v).rfails = t.rfails := by rw [Strand.put_eq]
@[simp] theorem Strand.put_pending (t : Strand) (d : Reg) (srcs : List Reg) (v : Word) : (t.put d srcs v).pending = t.pending := by rw [Strand.put_eq]
@[simp] theorem Strand.put_sid (t : Strand) (d : Reg) (srcs : List Reg) (v : Word) : (t.put d srcs v).sid = t.sid := by rw [Strand.put_eq]
@[simp] theorem Strand.put_park (t : Strand) (d : Reg) (srcs : List Reg) (v : Word) : (t.put d srcs v).park = t.park := by rw [Strand.put_eq]
@[simp] theorem Strand.put_arrived (t : Strand) (d : Reg) (srcs : List Reg) (v : Word) : (t.put d srcs v).arrived = t.arrived := by rw [Strand.put_eq]
@[simp] theorem Strand.put_tailed (t : Strand) (d : Reg) (srcs : List Reg) (v : Word) : (t.put d srcs v).tailed = t.tailed := by rw [Strand.put_eq]
@[simp] theorem Strand.put_haltAt (t : Strand) (d : Reg) (srcs : List Reg) (v : Word) : (t.put d srcs v).haltAt = t.haltAt := by rw [Strand.put_eq]
@[simp] theorem Strand.put_atYield (t : Strand) (d : Reg) (srcs : List Reg) (v : Word) : (t.put d srcs v).atYield = t.atYield := by rw [Strand.put_eq]
@[simp] theorem Strand.put_cnt (t : Strand) (d : Reg) (srcs : List Reg) (v : Word) (n : Nat) : (t.put d srcs v).cnt n = t.cnt n := by
  rw [Strand.put_eq]; rfl
@[simp] theorem Strand.put_sdesc (t : Strand) (d : Reg) (srcs : List Reg) (v : Word) (n : Nat) : (t.put d srcs v).sdesc n = t.sdesc n := by
  rw [Strand.put_eq]; rfl
@[simp] theorem Strand.put_loop (t : Strand) (d : Reg) (srcs : List Reg) (v : Word) (n : Nat) : (t.put d srcs v).loop n = t.loop n := by
  rw [Strand.put_eq]; rfl

/-- With no active loop whose body holds the pc, an instruction falls through (R277). -/
theorem Strand.retire_plain (t : Strand) (len : BitVec 53) (h : ∀ n ∈ [0, 1, 2], (t.loop n).holds t.pc = false) :
    t.retire len = { t with pc := t.pc + len, status := .ready, icount := t.icount + 1, ir := none } := by
  have : t.innermost t.pc (t.pc + len) = none := by
    unfold Strand.innermost
    have : ([0, 1, 2].filter fun n => (t.loop n).holds t.pc && decide ((t.loop n).stop.toNat ≤ (t.pc + len).toNat)) = [] :=
      List.filter_eq_nil_iff.2 fun n hn => by simp [h n hn]
    rw [this]; rfl
  simp [Strand.retire, Strand.loopStep, this]

theorem Strand.innermost_congr (t u : Strand) (pc next : BitVec 53) (h : u.regs.lc = t.regs.lc) :
    u.innermost pc next = t.innermost pc next := by
  unfold Strand.innermost Strand.loop; rw [h]

/-- Where the loops step to depends on the loop registers alone. -/
theorem Strand.loopStep_congr (pc next : BitVec 53) (n : Nat) (t u : Strand) (h : u.regs.lc = t.regs.lc) :
    (Strand.loopStep pc next n u).pc = (Strand.loopStep pc next n t).pc ∧
    (Strand.loopStep pc next n u).regs.lc = (Strand.loopStep pc next n t).regs.lc := by
  induction n generalizing t u with
  | zero => exact ⟨rfl, h⟩
  | succ n ih =>
    unfold Strand.loopStep
    rw [Strand.innermost_congr t u pc next h]
    cases hi : t.innermost pc next with
    | none => exact ⟨rfl, h⟩
    | some m =>
      have hl : u.loop m = t.loop m := by unfold Strand.loop; rw [h]
      dsimp only
      rw [hl]
      by_cases hc : (t.loop m).count - 1 ≠ 0
      · simp only [if_pos hc]; refine ⟨trivial, ?_⟩; simp [Strand.setLoop, h]
      · simp only [if_neg hc]; exact ih _ _ (by simp [Strand.setLoop, h])

/-- Where retiring goes depends on pc and the loop registers alone. -/
theorem Strand.retire_congr (len : BitVec 53) (t u : Strand) (hp : u.pc = t.pc) (h : u.regs.lc = t.regs.lc) :
    (u.retire len).pc = (t.retire len).pc ∧ ∀ n, (u.retire len).loop n = (t.retire len).loop n := by
  have := Strand.loopStep_congr t.pc (t.pc + len) 3 t u h
  unfold Strand.retire Strand.loop
  rw [hp]
  exact ⟨this.1, fun n => by dsimp only; rw [this.2]⟩

end Sys2Proof.Machine
end

