-- ==== Sys2Proof/Machine/Expand.lean ====
section
/-! DEFINITION. Machine/Expand.lean: the accesses that instructions and the map unit make (R119 to R122): their agents and classes, the expansion of a record into element accesses, and the parts of a wide access. -/

namespace Sys2Proof.Machine.Order

/-! ## Agents and classes (R121) -/

/-- Whose access it is: a strand's, by its key; the map unit's of a logical core; the map unit's of this chip, to which a pull comes (R121). -/
inductive Doer
  | strand (k : Nat) | lcoreUnit (lc : Nat) | chipUnit
  deriving DecidableEq, Repr

/-- Who makes an access, with the strand's key where one issued it. -/
inductive Maker
  /-- An instruction of class 0 to 3. -/
  | scalar (k : Nat) (i : Instr)
  /-- A record or word of class 4 to 8 in the engine that runs it. -/
  | record (k : Nat) (e : Engine) (i : Instr)
  /-- A region's fill, for the strand, the path and the class of the access that triggers it. -/
  | fill (k : Nat) (p : APath) (cls : BitVec 4)
  /-- A write-back by tflush, tmap or tunmap. -/
  | writeBack (k : Nat) (i : Instr)
  /-- A write-back at the end of the step task, by the map unit of logical core `lc`. -/
  | endWriteBack (lc : Nat)
  /-- The write of a remote store of strand `k` at its destination. -/
  | remoteWrite (k : Nat) (p : Packet)
  /-- A pull, a promotion, or the update of a page-table entry. -/
  | mapUnit
  deriving DecidableEq, Repr

/-- The ordering class of a scalar instruction; 0 where it has none (R121). -/
def scalarClass : Instr → BitVec 4
  | .ld _ _ m | .st _ _ m | .lda _ _ m | .stl _ _ m | .atom _ _ _ _ m | .cas _ _ _ m => m.cls
  | .sdld _ _ c _ _ | .sdst _ _ c _ _ => c
  | _ => 0

/-- The path of an engine. -/
def pathOf : Engine → APath
  | .v => .v | .m => .m | .t => .t | .f => .f | .c => .c

/-- The strand, the path and the ordering class of an access, by who makes it (R121). -/
def Maker.agent : Maker → Doer × APath × Option (BitVec 4)
  | .scalar k i => (.strand k, .s, some (scalarClass i))
  | .record k e i => (.strand k, pathOf e, ordClass i)
  | .fill k p c => (.strand k, p, some c)
  | .writeBack k i => (.strand k, .t, ordClass i)
  | .endWriteBack lc => (.lcoreUnit lc, .t, some 0)
  | .remoteWrite k p => (.strand k, .f, some (p.cls.setWidth 4))
  | .mapUnit => (.chipUnit, .none, none)

/-- The number that stands for an access's strand in a case: a strand's own key, which lies below 2^32, and past it the map units. -/
def Doer.name : Doer → Nat
  | .strand k => k
  | .lcoreUnit lc => 2 ^ 32 + lc
  | .chipUnit => 2 ^ 33

/-- What the accesses of one maker share: strand, path and class, with their place in program order. -/
def Maker.access (m : Maker) (at_ : Nat) : Access :=
  let (w, p, c) := m.agent
  { Access.blank with strand := w.name, at_ := at_, path := p, cls := (c.getD 0).toNat }

/-! ## Parts of a wide access (R120) -/

/-- The single-copy atomic parts of the bytes `a` to `a + n - 1`: a naturally aligned access of up to 8 bytes is one, a wider one has a part for each aligned 8 bytes. -/
def partsFrom : Nat → Nat → Nat → List (Nat × Nat)
  | 0, _, _ => []
  | k + 1, a, n =>
    if n = 0 then []
    else
      let m := Nat.min n (8 - a % 8)
      (a, m) :: partsFrom k (a + m) (n - m)

/-- The parts of an access: each first byte with its length. -/
def parts (a n : Nat) : List (Nat × Nat) := partsFrom (n / 8 + 2) a n

/-- An access of `n` bytes at a place, in its parts, which are unordered among themselves. -/
def Access.wide (x : Access) (a n : Nat) : List Access := (parts a n).map fun p => { x with loc := p.1 }

/-! ## Records (R120, R122) -/

/-- The accesses of some bytes of the scratchpad of logical core `lc`. -/
def spadAccesses (b : Access) (lc : Nat) (d : Dir) (l : List (Nat × Nat)) : List Access :=
  l.flatMap fun s => { b with dir := d }.wide (spRelKey lc s.1) (s.2 - s.1)

/-- The accesses of an operand at some points: its bytes in the scratchpad of logical core `lc`. -/
def operandAccesses (b : Access) (lc : Nat) (d : Dir) (o : Operand) (ps : List Point) : List Access :=
  spadAccesses b lc d (o.spans ps)

/-- The reads of A, B and C at one point, then the write of D, with their place in the expansion. -/
def pointAccesses (b : Access) (lc : Nat) (c : Cap) (p : Point) (n : Nat) : List Access :=
  let b := { b with sub := n }
  operandAccesses b lc .read c.a [p] ++ operandAccesses b lc .read c.b [p] ++ operandAccesses b lc .read c.c [p] ++
    operandAccesses { b with sub := n + 1 } lc .write c.d [p]

/-- Lists with the place of each in the whole. -/
def placed {α : Type} (l : List α) : List (α × Nat) := l.zip ((List.range l.length).map (2 * ·))

/-- A row reduction: the reads of its elements in order, then what it writes. -/
def rowAccesses (b : Access) (lc : Nat) (c : Cap) (outs : List Operand) (row writes : List Point) (n : Nat) : List Access :=
  ((placed row).flatMap fun p => let b := { b with sub := n + p.2 }
    operandAccesses b lc .read c.a [p.1] ++ operandAccesses b lc .read c.b [p.1]) ++
    outs.flatMap fun o => operandAccesses { b with sub := n + 2 * row.length } lc .write o writes

/-- Every row of a reduction in order. -/
def rowsAccesses (b : Access) (lc : Nat) (c : Cap) (outs : List Operand) (k : Nat) : List Access :=
  let n := 2 * activeT0 c + 1
  (placed (rowPoints c.trips)).flatMap fun p => rowAccesses b lc c outs (rowOf (activeT0 c) p.1) (rowOf k p.1) (n * p.2)

/-- The bytes of an indexed table element; none where the index is out of range (R317, R318). -/
def tableSpan (o : Operand) (f : Fmt) (idx : Nat) : List (Nat × Nat) :=
  match tableAt o f idx with
  | some (_, a) => [(a, a + fmtBits f / 8)]
  | none => []

/-- The accesses of vgath or vscat at a point: the index, then the table element read, or with the value written, and read before that by .add (R317, R318). -/
def tableAccesses (s : State) (b : Access) (lc : Nat) (x : Entry) (r : Rec) (p : Point) (n : Nat) : List Access :=
  let c := x.cap
  let b := { b with sub := n }
  let out := { b with sub := n + 1 }
  match x.instr with
  | .vgath _ => operandAccesses b lc .read c.b [p] ++ spadAccesses b lc .read (tableSpan c.a r.type (s.nearBits lc r.type c.b p)) ++
      operandAccesses out lc .write c.d [p]
  | _ =>
    let t := tableSpan c.d r.type (s.nearBits lc r.type c.a p)
    operandAccesses b lc .read c.a [p] ++ operandAccesses b lc .read c.b [p] ++
      (if r.ctl.getLsbD 0 then spadAccesses b lc .read t else []) ++ spadAccesses out lc .write t

/-- Where a byte of a VR's global space lies (R119). -/
def gvKey (s : State) (vr va : Nat) : Nat := s.pageAt vr (va / 65536) * 65536 + va % 65536

/-- The accesses of `n` bytes of a VR's global space, page by page. -/
def gvAccesses (s : State) (b : Access) (d : Dir) (vr va n : Nat) : List Access :=
  (pagesOf va n).flatMap fun p => let (lo, hi) := pageCut va n p
    { b with dir := d }.wide (gvKey s vr (p * 65536 + lo)) (hi - lo)

/-- The far bytes of a transfer record at a point, where they lie (R119). -/
def farAccesses (s : State) (b : Access) (x : Entry) (d : Dir) (a : Int) (w : Nat) : List Access :=
  gvAccesses s b d (s.taskAt x.ref.task).vr a.toNat w

/-- The accesses of a tcopy, tfill, tgather or tscatter at a point. -/
def copyAccesses (s : State) (b : Access) (lc : Nat) (x : Entry) (r : Rec) (p : Point) (n : Nat) : List Access :=
  let c := x.cap
  let w := copyBytes r
  let b := { b with sub := n }
  let out := { b with sub := n + 1 }
  match x.instr with
  | .tgather _ => operandAccesses b lc .read c.b [p] ++ farAccesses s b x .read (c.a.val.toNat + s.nearBits lc r.type c.b p * w) w ++
      operandAccesses out lc .write c.d [p]
  | .tscatter _ => operandAccesses b lc .read c.a [p] ++ operandAccesses b lc .read c.b [p] ++
      farAccesses s out x .write (c.d.val.toNat + s.nearBits lc r.type c.a p * w) w
  | _ =>
    (if c.a.isStream then operandAccesses b lc .read c.a [p]
     else if c.d.isStream then (match x.instr with | .tfill _ => [] | _ => farAccesses s b x .read (farAddr c.a c.b c.c w p) w) else []) ++
    if c.d.isStream then operandAccesses out lc .write c.d [p] else farAccesses s out x .write (farAddr c.d c.b c.c w p) w

/-- The bytes of a cell's value word and carry plane in bank `k` (R97, R119). -/
def cellPlaces (k n : Nat) : List (Nat × Nat) :=
  [(acRelKey k (k % 4 * 0x10000 + 4 * n), 4), (acRelKey k (0x40000 + k % 4 * 0x8000 + 2 * n), 2)]

/-- The accesses of some cells of a bank. -/
def cellAccesses (b : Access) (d : Dir) (k : Nat) (cells : List Nat) : List Access :=
  cells.flatMap fun n => (cellPlaces k n).flatMap fun p => { b with dir := d }.wide p.1 p.2

/-- The bytes of element (k, v) of a matrix stream. -/
def matAccesses (b : Access) (lc : Nat) (d : Dir) (o : Operand) (k v : Nat) : List Access :=
  match o with
  | .stream ds _ =>
    let e := matIndex o.slot k v
    let (x, y) := elemSpan (descFmt ds) e
    spadAccesses b lc d ((descBase ds + x, descBase ds + y) ::
      if isMx (descFmt ds) then [(scaleAddr ds e, scaleAddr ds e + 1)] else [])
  | _ => []

/-- The cells of a bank. -/
def everyCell : List Nat := List.range 16384

/-- The accesses of a multiplying record for one array: its rows of A, or the window of bank `src` that stands for them, and columns of B by K index, then each cell of bank `k` read and written (R327 to R330). -/
def mulExpand (b : Access) (lc : Nat) (c : Cap) (r : Rec) (sparse : Bool) (t : Tile) (k src : Nat) : List Access :=
  let sh := mshape r c sparse
  let nc := matCols r.type
  (if c.a.isStream then [] else (List.range 128).flatMap fun i =>
    cellAccesses b .read src ((List.range (Nat.min sh.act (matK r.type))).map fun q => cellNo i (low8 c.a + q))) ++
  ((List.range sh.act).flatMap fun q =>
    ((List.range 128).flatMap fun i => match sh.stored (128 * t.u + i) q with
      | some n => matAccesses { b with sub := q } lc .read c.a n (128 * t.u + i)
      | none => []) ++
    (List.range nc).flatMap fun j => matAccesses { b with sub := q } lc .read c.b q (nc * t.v + j)) ++
  cellAccesses { b with sub := sh.act } .read k everyCell ++ cellAccesses { b with sub := sh.act + 1 } .write k everyCell

/-- The accesses of a matrix record on the bank with key `k`, whose columns are `cols`: what it reads and writes of it, and the rows that it loads or drains. -/
def matExpand (b : Access) (lc cols : Nat) (x : Entry) (k : Nat) : List Access :=
  let c := x.cap
  let every := everyCell
  match x.instr with
  | .mzero _ => cellAccesses b .write k every
  | .mfold _ | .mstat _ => cellAccesses b .read k every ++ cellAccesses { b with sub := 1 } .write k every
  | .mlda r => (List.range (tripN c.trips 0)).flatMap fun i => (List.range (matCols r.type)).flatMap fun j =>
      (if j < colsOf c (matCols r.type) then matAccesses { b with sub := 2 * i } lc .read c.a j i else []) ++
        cellAccesses { b with sub := 2 * i + 1 } .write k (if r.type = fF64 then [cellNo (ctlRow r + i) (2 * j), cellNo (ctlRow r + i) (2 * j + 1)]
          else [cellNo (ctlRow r + i) j])
  | .mdrain r => (List.range (tripN c.trips 0)).flatMap fun i => (List.range (colsOf c cols)).flatMap fun j =>
      cellAccesses { b with sub := 2 * i } .read k (if cols = 64 then [cellNo (ctlRow r + i) (2 * j), cellNo (ctlRow r + i) (2 * j + 1)]
        else [cellNo (ctlRow r + i) j]) ++ matAccesses { b with sub := 2 * i + 1 } lc .write c.d j i
  | _ => []

/-- A class 8 record's ranks and its own rank: those of its communicator, or the T0 of the cjoin that is still to run (R373, R374). -/
def collRanks (l : LCore) (i : Instr) (c : Cap) : Nat × Nat :=
  match sget none l.comms (commOf i c) with
  | some m => (m.n, m.rank)
  | none => ((sget none l.joined (commOf i c)).getD 1, 0)

/-- The accesses of a class 8 record: its input in the loop order, then its outputs, each in linear order (R373, R375, R377 to R381). -/
def collAccesses (s : State) (b : Access) (lc : Nat) (x : Entry) (r : Rec) : List Access :=
  let c := x.cap
  let (N, rank) := collRanks (s.lcoreAt lc) x.instr c
  let n := inputCount c
  let reads (ps : List Point) : List Access := (placed ps).flatMap fun p => operandAccesses { b with sub := p.2 } lc .read c.a [p.1]
  let writes (o : Operand) (ps : List Point) : List Access :=
    (placed ps).flatMap fun p => operandAccesses { b with sub := 2 * n + p.2 } lc .write o [p.1]
  let k := linPoints (Nat.min r.ctl.toNat (N * n))
  match x.instr with
  | .cjoin _ => reads (linPoints (tripN c.trips 0))
  | .callred _ => reads (activePoints c) ++ writes c.d (activePoints c)
  | .cbcast _ => (if rank = rootOf x then reads (activePoints c) else []) ++ writes c.d (activePoints c)
  | .credsc _ => reads (activePoints c) ++ writes c.d (linPoints (n / N))
  | .callgath _ => reads (activePoints c) ++ writes c.d (linPoints (N * n))
  | .ctopk _ => reads (activePoints c) ++ writes c.d k ++ writes c.c k
  | _ => []

/-- The lines of a region that a write-back copies: read in the scratchpad, written to the global space in ascending order (R95). -/
def evictAccesses (s : State) (b : Access) (lc : Nat) (o : Region) : List Access :=
  if o.st ≠ .dirty then []
  else (placed o.marked).flatMap fun p => let (off, n) := o.line p.1
    spadAccesses { b with sub := p.2 } lc .read [(o.base + off, o.base + off + n)] ++
      gvAccesses s { b with sub := p.2 + 1 } .write (s.taskAt (lc / 288)).vr (o.va.toNat + off) n

/-- The bytes of a region that a fill copies (R93). -/
def fillAccesses (s : State) (m : Maker) (at_ lc : Nat) (o : Region) : List Access :=
  let b := m.access at_
  gvAccesses s b .read (s.taskAt (lc / 288)).vr o.va.toNat o.len ++
    spadAccesses { b with sub := 1 } lc .write [(o.base, o.base + o.len)]

/-- The accesses of the write-backs at the end of a step task: by the map unit of the logical core (R95, R121). -/
def endAccesses (s : State) (at_ lc : Nat) : List Access :=
  (s.lcoreAt lc).regions.flatMap fun e => evictAccesses s ((Maker.endWriteBack lc).access at_) lc e.2

/-! ## Words of class 7 (R120, R123, R134) -/

/-- Where a byte of a VR lies for a remote access: its place on this chip where the VR is here; elsewhere the byte of that VR's space stands for it, since no translation of another chip is at hand (R119; log 125, DEDUCED). -/
def destKey (s : State) (vr va : Nat) : Nat :=
  if (s.vrAt vr).isSome then gvKey s vr va else 2 ^ 90 + vr * 2 ^ 56 + va % 2 ^ 56

/-- A class 7 word's release and acquire scopes (R127, R134). -/
def wordScopes : Instr → Option (BitVec 3) × Option (BitVec 3)
  | .rld _ _ _ _ _ m | .rst _ _ _ _ _ m | .rsth _ _ _ _ _ _ m | .ratom _ _ _ _ _ _ m | .rcas _ _ _ _ _ m | .rmcast _ _ _ m
  | .rred _ _ _ _ _ m =>
    (if m.sem = .rel ∨ m.sem = .ar then some (codeScope m.scope) else none,
      if m.sem = .acq ∨ m.sem = .ar then some (codeScope m.scope) else none)
  | _ => (none, none)

/-- The accesses of one request at its destination: a read, a write, an RMW, or for a reducing store an RMW of each element (R120, R131, R202); a probe and a feature query make none (R366, R367). -/
def pieceAccesses (s : State) (b : Access) (rel acq : Option (BitVec 3)) (p : Packet) : List Access :=
  let n := reqLen p
  let a := p.va.toNat
  let b := { b with dest := p.dstvr.toNat }
  let part (b : Access) (d : Dir) (x m : Nat) : List Access :=
    ({ b with dir := d, rel := if d = Dir.write then rel else none, acq := if d = Dir.read then acq else none }).wide (destKey s p.dstvr.toNat x) m
  let paged (d : Dir) : List Access := (pagesOf a n).flatMap fun g => let (lo, hi) := pageCut a n g
    part b d (g * 65536 + lo) (hi - lo)
  let rmw (b : Access) (x m : Nat) : List Access := part b Dir.read x m ++ part { b with sub := b.sub + 1 } Dir.write x m
  match p.op.toNat with
  | 1 => paged .read
  | 2 | 3 | 8 => paged .write
  | 4 | 5 => rmw b a n
  | 9 => let w := fmtBits p.fmt / 8
    (List.range (n / w)).flatMap fun i => rmw { b with sub := b.sub + 2 * i } (a + w * i) w
  | _ => []

/-- The accesses of a class 7 word: its payload or list read in the scratchpad, its requests in order at their destinations, then the bytes or masks it writes in the scratchpad (R358, R361 to R372). -/
def wordAccesses (s : State) (b : Access) (lc : Nat) (x : Entry) : List Access :=
  let v (i : Nat) : Word := x.cap.vals.getD i 0
  let block (w : Word) : List (Nat × Nat) := [((blockOperand w).2, (blockOperand w).2 + (blockOperand w).1)]
  let (rel, acq) := wordScopes x.instr
  let b := { b with parks := parksWord x.instr }
  let ps := fabPieces (s.taskAt x.ref.task).vr (s.lcoreAt lc).sp x.instr x.cap.vals
  let out (p : RPiece) (i : Nat) : List Access := pieceAccesses s { b with sub := 1 + 1024 * i } rel acq p.p
  let outs : List Access := (ps.zip (List.range ps.length)).flatMap fun p => out p.1 p.2
  let last := 1 + 1024 * ps.length
  match x.instr with
  | .rld blk .. => outs ++ if blk then spadAccesses { b with sub := last } lc .write (block (v 1)) else []
  | .rst blk .. | .rsth blk .. => (if blk then spadAccesses b lc .read (block (v 1)) else []) ++ outs
  | .rred .. => spadAccesses b lc .read (block (v 1)) ++ outs
  | .rmcast .. => let (n, la) := listOperand (v 1)
    spadAccesses b lc .read (block (v 2) ++ [(la, la + 16 * n)]) ++ outs ++
      spadAccesses { b with sub := last } lc .write [(la + 16 * n, la + 16 * n + 16)]
  | .rcopy put .. => (ps.zip (List.range ps.length)).flatMap fun (p, i) =>
      let k := if put then p.p.data.length else reqLen p.p
      let near (d : Dir) (n : Nat) : List Access := spadAccesses { b with sub := 1 + 1024 * i + n } lc d [(p.spad, p.spad + k)]
      if put then near .read 0 ++ pieceAccesses s { b with sub := 2 + 1024 * i } rel acq p.p else out p i ++ near .write 1
  | _ => outs

/-! ## Every record and word -/

/-- The accesses of a record's elements and operands in the loop order of the trip space (R120, R122). -/
def bodyAccesses (s : State) (b : Access) (x : Entry) : List Access :=
  let lc := lckey x.ref.task x.ref.lcore
  let c := x.cap
  match recPlan x.instr, matBankOf x.instr with
  | _, some (r, bank) =>
    let key (j : Nat) := bankKey x.ref.task j bank
    match x.instr with
    | .mma _ | .mmas _ | .mmag _ => (s.tilesOf x).flatMap fun t =>
        mulExpand b lc c r (match x.instr with | .mmas _ => true | .mmag _ => r.ctl.getLsbD 6 | _ => false) t (key t.j)
          (bankKey x.ref.task t.j (ctlSbank r))
    | _ => (s.matTargets x).flatMap fun j => matExpand b lc (s.bankAt (key j)).kind.cols x (key j)
  | some (r, _, _), none =>
    match x.instr with
    | .tcopy _ | .tgather _ | .tscatter _ | .tfill _ => (placed (activePoints c)).flatMap fun p => copyAccesses s b lc x r p.1 p.2
    | .tmap _ | .tunmap _ | .tflush _ => evictAccesses s b lc ((s.lcoreAt lc).reg c.d.val.toNat)
    | .tprefetch _ | .twload _ => []
    | .vgath _ | .vscat _ => (placed (activePoints c)).flatMap fun p => tableAccesses s b lc x r p.1 p.2
    | .vsum _ | .vdot _ | .vmaxr _ | .vamax _ | .vargmax _ => rowsAccesses b lc c [c.d] 1
    | .vtopk _ => rowsAccesses b lc { c with b := .none } [c.d, c.b] (Nat.min r.ctl.toNat (activeT0 c))
    | .cjoin _ | .callred _ | .credsc _ | .callgath _ | .cbcast _ | .ctopk _ | .cbar _ => collAccesses s b lc x r
    | _ => (placed (activePoints c)).flatMap fun p => pointAccesses b lc c p.1 p.2
  | none, none => wordAccesses s b lc x

/-- The accesses that a record or word expands into: those of its body, then its status word's (R120, R122, R247). -/
def expand (s : State) (at_ : Nat) (e : Engine) (x : Entry) : List Access :=
  let b := (Maker.record x.ref.key e x.instr).access at_
  let l := bodyAccesses s b x
  l ++ match recPlan x.instr with
    | some (r, _, _) => spadAccesses { b with sub := 1 + (l.map Access.sub).foldl Nat.max 0 } (lckey x.ref.task x.ref.lcore) .write
        ((statFoot r).map fun f => (f.lo, f.hi))
    | none => []

end Sys2Proof.Machine.Order
end

