-- ==== Sys2Proof/Tests/Slice0.lean ====
section
/-! SUPPORT. Tests/Slice0.lean: words of the spec that the decoder reads, ill-formed terms it refuses, single steps on small states, and for each obligation states and operands that meet its hypotheses. -/

namespace Sys2Proof.Tests

open Sys2Proof.Machine Sys2Proof.Claims

-- One theorem after another: each one's kernel evaluation waits for those before it, and would hold a thread meanwhile.
set_option Elab.async false

/-! ## Decoding: words written out from the encodings (R238 to R252, R355) -/

/-- The words are exactly the instruction. -/
def reads (e : List Word × Instr) : Bool :=
  match decode e.1 with
  | .ok (i, []) => decide (i = e.2)
  | _ => false

/-- A record of zero fields with trips 1. -/
def rec0 : Rec :=
  { type := 0, type2 := 0, psel := 0, pe := false, cls := 0, tflag := 0, stat := 0, se := false, ctl := 0, t0 := 1, t1 := 1, t2 := 1,
    t3 := 1, d := ⟨0, 0, 0, 0⟩, a := ⟨0, 0, 0, 0⟩, b := ⟨0, 0, 0, 0⟩, c := ⟨0, 0, 0, 0⟩ }

theorem test_decode_class_0_part_1 : [([0x001F844000000000], Instr.add 31 1 2), ([0x002F844000000000], .sub 31 1 2), ([0x003F844000000000], .mul 31 1 2),
    ([0x007F844000000000], .and 31 1 2), ([0x008F844000000000], .or 31 1 2), ([0x009F844000000000], .xor 31 1 2),
    ([0x00AF844000000000], .shl 31 1 2), ([0x00BF844000000000], .shr 31 1 2), ([0x00CF844000000000], .sar 31 1 2),
    ([0x00DF844000000000], .rot 31 1 2), ([0x01DF844000000000], .bnd 31 1 2), ([0x0041844200000000], .mulh .su 3 1 2),
    ([0x005190A000000000], .div false 3 4 5), ([0x006190A100000000], .rem true 3 4 5), ([0x00EF740000000000], .clz 30 29),
    ([0x00FF740000000000], .ctz 30 29), ([0x010F740000000000], .popc 30 29), ([0x011190A100000000], .min true 3 4 5),
    ([0x012190A100000000], .max true 3 4 5), ([0x013190A600000000], .sel 3 4 5 6), ([0x01430C8200000000], .cmp .lt 6 3 4),
    ([0x01519000FFFFFFFE], .addi 3 4 0xFFFFFFFE), ([0x01619000FFFFFFFE], .andi 3 4 0xFFFFFFFE), ([0x01719000FFFFFFFE], .ori 3 4 0xFFFFFFFE),
    ([0x01819000FFFFFFFE], .xori 3 4 0xFFFFFFFE), ([0x019190000000003F], .shli 3 4 63), ([0x01A2800000020000], .li 5 0x20000),
    ([0x01B2800000000100], .lih 5 0x100), ([0x01C19000800FFFFF], .lea 3 4 .ws 0xFFFFF), ([0x01E4214000000000], .fadd .f32 8 8 10)].all reads = true := by decide +kernel

theorem test_decode_class_0_part_2 : [([0x01F4254100000000], Instr.fmul .f64 8 9 10), ([0x0204254300000000], .ffma .bf16 8 9 10), ([0x0212241000000000], .fcvt (.toI64 .f32) 4 9),
    ([0x0224254A00000000], .fcmp .f16 .le 8 9 10), ([0x0230880500000000], .cntset 1 2 5), ([0x0240886000000000], .cntmin 1 2 3),
    ([0x02539BE000000000], .cntsub 7 6 31)].all reads = true := by decide +kernel

theorem test_decode_class_1 : [([0x101518026B4FFFFC], Instr.ld 10 6 ⟨2, .gv, .n32, .gang, .acq, 0xffffc⟩), ([0x10201C616B800000], .st 3 7 ⟨1, .gv, .n32, .gang, .rel, 0⟩),
    ([0x1035180030000008], .lda 10 6 ⟨0, .sp, .i64, .strand, .plain, 0x8⟩), ([0x1040194FD8000002], .stl 10 6 ⟨15, .ac, .n16, .strand, .plain, 0x2⟩),
    ([0x105514206B000000], .atom 0 10 5 1 ⟨0, .gv, .n32, .gang, .plain, 0⟩), ([0x106190A174C00008], .cas 3 4 5 ⟨1, .gv, .i64, .chip, .ar, 0x8⟩),
    ([0x1071000000000001], .kld 2 0 1), ([0x10879003B0000010], .sdld 15 4 3 .ws 16), ([0x109011E330000010], .sdst 15 4 3 .sp 16),
    ([0x10A0000000000006], .fence 6), ([0x10B0000000000001], .xfence .v .s)].all reads = true := by decide +kernel

theorem test_decode_class_2 : [([0x20100000FFFFFFFF], Instr.br 0xFFFFFFFF), ([0x2020040100000007], .bc .ne 1 0 7), ([0x203F800000000010], .jal 31 16),
    ([0x20407C0000000000], .jr 0 31), ([0x2050000000000000], .ret), ([0x2060000000030004], .loop 0 0 3 4), ([0x2070044100000009], .bts .none 1 2 9),
    ([0x20800C0100000009], .bpois true 3 9)].all reads = true := by decide +kernel

theorem test_decode_class_3 : [([0x3010000000020003], Instr.semwait 3 2), ([0x3020100000010043], .semsig 3 1 true 4), ([0x3030000000000000], .barc),
    ([0x3040000000000000], .barg), ([0x3050000000000000], .esync), ([0x3070000000000000], .tret), ([0x3080000000000000], .yield),
    ([0x3090000000000000], .region), ([0x30A0000000000000], .tail), ([0x30B0000000000000], .halt), ([0x3110000000000000], .nop),
    ([0x3060000000000013], .trap 0x13), ([0x30C0140000000007], .spawn 7 5), ([0x30D014000000FFFF], .signal 0xFFFF 5),
    ([0x30E0800000000021], .sysr 1 0x21), ([0x30F0080000000010], .sysw 0x10 2), ([0x310000000000BEEF], .brk 0xBEEF), ([0x3120000000000009], .snap 9),
    ([0x3130886000000000], .varm 1 2 3), ([0x3140880000000000], .vgo 1 2), ([0x3150886000000000], .migr 1 2 3)].all reads = true := by decide +kernel

theorem test_decode_class_4_part_1 : [([0x401480B32FFFFC00, 0x00090007001FFFFF, 0xFFFF000200030004, 0x000000001FFFFFFF, 0x7E00000000000000, 0, 0x00000000800003FF, 0], Instr.vadd { rec0 with type := 0x12, psel := 5, pe := true, cls := 3, tflag := 2, stat := 131071, se := true, t0 := 65535, t1 := 31, t2 := 7, t3 := 9, d := ⟨0, 15, 33554431, 0xffff000200030004⟩, a := ⟨1, 31, 0, 0⟩, b := ⟨2, 0, 1023, 0⟩ }),
    ([0x4024800000000000, 0x0001000100020010, 0x0001000000000000, 0x0000000002000000, 0x0400000500010000, 0x000000003F800000, 0x00000000C0000000, 0], .vsub { rec0 with type := 0x12, t0 := 16, t1 := 2, d := ⟨0, 1, 0, 0x1000000000000⟩, a := ⟨0, 2, 5, 0x1000000000000⟩, b := ⟨3, 0, 0, 0x3f800000⟩ }),
    ([0x4034800000000000, 0x0001000100020010, 0x0001000000000000, 0x0000000002000000, 0x0400000500010000, 0x000000003F800000, 0x00000000C0000000, 0], .vmul { rec0 with type := 0x12, t0 := 16, t1 := 2, d := ⟨0, 1, 0, 0x1000000000000⟩, a := ⟨0, 2, 5, 0x1000000000000⟩, b := ⟨3, 0, 0, 0x3f800000⟩ }),
    ([0x4064800000000000, 0x0001000100020010, 0x0001000000000000, 0x0000000002000000, 0x0400000500010000, 0x000000003F800000, 0x00000000C0000000, 0], .vdiv { rec0 with type := 0x12, t0 := 16, t1 := 2, d := ⟨0, 1, 0, 0x1000000000000⟩, a := ⟨0, 2, 5, 0x1000000000000⟩, b := ⟨3, 0, 0, 0x3f800000⟩ }),
    ([0x4074800000000000, 0x0001000100020010, 0x0001000000000000, 0x0000000002000000, 0x0400000500010000, 0x000000003F800000, 0x00000000C0000000, 0], .vmin { rec0 with type := 0x12, t0 := 16, t1 := 2, d := ⟨0, 1, 0, 0x1000000000000⟩, a := ⟨0, 2, 5, 0x1000000000000⟩, b := ⟨3, 0, 0, 0x3f800000⟩ }),
    ([0x4084800000000000, 0x0001000100020010, 0x0001000000000000, 0x0000000002000000, 0x0400000500010000, 0x000000003F800000, 0x00000000C0000000, 0], .vmax { rec0 with type := 0x12, t0 := 16, t1 := 2, d := ⟨0, 1, 0, 0x1000000000000⟩, a := ⟨0, 2, 5, 0x1000000000000⟩, b := ⟨3, 0, 0, 0x3f800000⟩ }),
    ([0x40B4800000000000, 0x0001000100020010, 0x0001000000000000, 0x0000000002000000, 0x0400000500010000, 0x000000003F800000, 0x00000000C0000000, 0], .vcopysign { rec0 with type := 0x12, t0 := 16, t1 := 2, d := ⟨0, 1, 0, 0x1000000000000⟩, a := ⟨0, 2, 5, 0x1000000000000⟩, b := ⟨3, 0, 0, 0x3f800000⟩ }),
    ([0x4044800000000000, 0x0001000100020010, 0x0001000000000000, 0x0000000002000000, 0x0400000500010000, 0x000000003F800000, 0x00000000C0000000, 0x4E00000000000000], .vfma { rec0 with type := 0x12, t0 := 16, t1 := 2, d := ⟨0, 1, 0, 0x1000000000000⟩, a := ⟨0, 2, 5, 0x1000000000000⟩, b := ⟨3, 0, 0, 0x3f800000⟩, c := ⟨1, 7, 0, 0⟩ }),
    ([0x4054800000000000, 0x0001000100020010, 0x0001000000000000, 0x0000000002000000, 0x0400000500010000, 0x000000003F800000, 0x00000000C0000000, 0x4E00000000000000], .vfms { rec0 with type := 0x12, t0 := 16, t1 := 2, d := ⟨0, 1, 0, 0x1000000000000⟩, a := ⟨0, 2, 5, 0x1000000000000⟩, b := ⟨3, 0, 0, 0x3f800000⟩, c := ⟨1, 7, 0, 0⟩ }),
    ([0x40C4800000000000, 0x0001000100020010, 0x0001000000000000, 0x0000000002000000, 0x0400000500010000, 0x000000003F800000, 0x00000000C0000000, 0x4E00000000000000], .vclamp { rec0 with type := 0x12, t0 := 16, t1 := 2, d := ⟨0, 1, 0, 0x1000000000000⟩, a := ⟨0, 2, 5, 0x1000000000000⟩, b := ⟨3, 0, 0, 0x3f800000⟩, c := ⟨1, 7, 0, 0⟩ }),
    ([0x4094800000000000, 0x0001000100020010, 0x0001000000000000, 0x0000000002000000, 0x0400000500010000, 0, 0, 0], .vabs { rec0 with type := 0x12, t0 := 16, t1 := 2, d := ⟨0, 1, 0, 0x1000000000000⟩, a := ⟨0, 2, 5, 0x1000000000000⟩ }),
    ([0x40A4800000000000, 0x0001000100020010, 0x0001000000000000, 0x0000000002000000, 0x0400000500010000, 0, 0, 0], .vneg { rec0 with type := 0x12, t0 := 16, t1 := 2, d := ⟨0, 1, 0, 0x1000000000000⟩, a := ⟨0, 2, 5, 0x1000000000000⟩ }),
    ([0x4174800000000000, 0x0001000100020010, 0x0001000000000000, 0x0000000002000000, 0x0400000500010000, 0, 0, 0], .vmov { rec0 with type := 0x12, t0 := 16, t1 := 2, d := ⟨0, 1, 0, 0x1000000000000⟩, a := ⟨0, 2, 5, 0x1000000000000⟩ }),
    ([0x41C4800000000000, 0x0001000100020010, 0x0001000000000000, 0x0000000002000000, 0x0400000500010000, 0, 0, 0], .vrcp { rec0 with type := 0x12, t0 := 16, t1 := 2, d := ⟨0, 1, 0, 0x1000000000000⟩, a := ⟨0, 2, 5, 0x1000000000000⟩ }),
    ([0x41D4800000000000, 0x0001000100020010, 0x0001000000000000, 0x0000000002000000, 0x0400000500010000, 0, 0, 0], .vsqrt { rec0 with type := 0x12, t0 := 16, t1 := 2, d := ⟨0, 1, 0, 0x1000000000000⟩, a := ⟨0, 2, 5, 0x1000000000000⟩ }),
    ([0x41E4800000000000, 0x0001000100020010, 0x0001000000000000, 0x0000000002000000, 0x0400000500010000, 0, 0, 0], .vrsqrt { rec0 with type := 0x12, t0 := 16, t1 := 2, d := ⟨0, 1, 0, 0x1000000000000⟩, a := ⟨0, 2, 5, 0x1000000000000⟩ }),
    ([0x41F4800000000000, 0x0001000100020010, 0x0001000000000000, 0x0000000002000000, 0x0400000500010000, 0, 0, 0], .vexp { rec0 with type := 0x12, t0 := 16, t1 := 2, d := ⟨0, 1, 0, 0x1000000000000⟩, a := ⟨0, 2, 5, 0x1000000000000⟩ }),
    ([0x4204800000000000, 0x0001000100020010, 0x0001000000000000, 0x0000000002000000, 0x0400000500010000, 0, 0, 0], .vexp2 { rec0 with type := 0x12, t0 := 16, t1 := 2, d := ⟨0, 1, 0, 0x1000000000000⟩, a := ⟨0, 2, 5, 0x1000000000000⟩ }),
    ([0x4214800000000000, 0x0001000100020010, 0x0001000000000000, 0x0000000002000000, 0x0400000500010000, 0, 0, 0], .vlog { rec0 with type := 0x12, t0 := 16, t1 := 2, d := ⟨0, 1, 0, 0x1000000000000⟩, a := ⟨0, 2, 5, 0x1000000000000⟩ }),
    ([0x4224800000000000, 0x0001000100020010, 0x0001000000000000, 0x0000000002000000, 0x0400000500010000, 0, 0, 0], .vlog2 { rec0 with type := 0x12, t0 := 16, t1 := 2, d := ⟨0, 1, 0, 0x1000000000000⟩, a := ⟨0, 2, 5, 0x1000000000000⟩ }),
    ([0x4234800000000000, 0x0001000100020010, 0x0001000000000000, 0x0000000002000000, 0x0400000500010000, 0, 0, 0], .vtanh { rec0 with type := 0x12, t0 := 16, t1 := 2, d := ⟨0, 1, 0, 0x1000000000000⟩, a := ⟨0, 2, 5, 0x1000000000000⟩ }),
    ([0x4244800000000000, 0x0001000100020010, 0x0001000000000000, 0x0000000002000000, 0x0400000500010000, 0, 0, 0], .verf { rec0 with type := 0x12, t0 := 16, t1 := 2, d := ⟨0, 1, 0, 0x1000000000000⟩, a := ⟨0, 2, 5, 0x1000000000000⟩ }),
    ([0x40D480000000000C, 0x0001000100020010, 0x0001000000000000, 0x0000000002000000, 0x0400000500010000, 0, 0, 0], .vround { rec0 with type := 0x12, ctl := 0xc, t0 := 16, t1 := 2, d := ⟨0, 1, 0, 0x1000000000000⟩, a := ⟨0, 2, 5, 0x1000000000000⟩ }),
    ([0x40E1400000000000, 0x0001000100010001, 0x0001000000000000, 0x0000000002000000, 0x0400000000010000, 0x0001000000000000, 0x0000000006000000, 0], .vand { rec0 with type := 0x5, d := ⟨0, 1, 0, 0x1000000000000⟩, a := ⟨0, 2, 0, 0x1000000000000⟩, b := ⟨0, 3, 0, 0x1000000000000⟩ }),
    ([0x40F1400000000000, 0x0001000100010001, 0x0001000000000000, 0x0000000002000000, 0x0400000000010000, 0x0001000000000000, 0x0000000006000000, 0], .vor { rec0 with type := 0x5, d := ⟨0, 1, 0, 0x1000000000000⟩, a := ⟨0, 2, 0, 0x1000000000000⟩, b := ⟨0, 3, 0, 0x1000000000000⟩ }),
    ([0x4101400000000000, 0x0001000100010001, 0x0001000000000000, 0x0000000002000000, 0x0400000000010000, 0x0001000000000000, 0x0000000006000000, 0], .vxor { rec0 with type := 0x5, d := ⟨0, 1, 0, 0x1000000000000⟩, a := ⟨0, 2, 0, 0x1000000000000⟩, b := ⟨0, 3, 0, 0x1000000000000⟩ }),
    ([0x4121400000000000, 0x0001000100010001, 0x0001000000000000, 0x0000000002000000, 0x0400000000010000, 0x0001000000000000, 0x0000000006000000, 0], .vshl { rec0 with type := 0x5, d := ⟨0, 1, 0, 0x1000000000000⟩, a := ⟨0, 2, 0, 0x1000000000000⟩, b := ⟨0, 3, 0, 0x1000000000000⟩ }),
    ([0x4131400000000000, 0x0001000100010001, 0x0001000000000000, 0x0000000002000000, 0x0400000000010000, 0x0001000000000000, 0x0000000006000000, 0], .vshr { rec0 with type := 0x5, d := ⟨0, 1, 0, 0x1000000000000⟩, a := ⟨0, 2, 0, 0x1000000000000⟩, b := ⟨0, 3, 0, 0x1000000000000⟩ }),
    ([0x4141400000000000, 0x0001000100010001, 0x0001000000000000, 0x0000000002000000, 0x0400000000010000, 0x0001000000000000, 0x0000000006000000, 0], .vsar { rec0 with type := 0x5, d := ⟨0, 1, 0, 0x1000000000000⟩, a := ⟨0, 2, 0, 0x1000000000000⟩, b := ⟨0, 3, 0, 0x1000000000000⟩ }),
    ([0x4111400000000000, 0x0001000100010001, 0x0001000000000000, 0x0000000002000000, 0x0400000000010000, 0, 0, 0], .vnot { rec0 with type := 0x5, d := ⟨0, 1, 0, 0x1000000000000⟩, a := ⟨0, 2, 0, 0x1000000000000⟩ })].all reads = true := by decide +kernel

theorem test_decode_class_4_part_2 : [([0x4154800000000005, 0x0001000100020010, 0x0001000000000000, 0x0000000002000000, 0x0400000500010000, 0x000000003F800000, 0x00000000C0000000, 0], Instr.vcmp { rec0 with type := 0x12, ctl := 0x5, t0 := 16, t1 := 2, d := ⟨0, 1, 0, 0x1000000000000⟩, a := ⟨0, 2, 5, 0x1000000000000⟩, b := ⟨3, 0, 0, 0x3f800000⟩ }),
    ([0x4164800000000000, 0x0001000100020010, 0x0001000000000000, 0x0000000002000000, 0x0400000500010000, 0x000000003F800000, 0x00000000C0000000, 0x0800000000010000], .vsel { rec0 with type := 0x12, t0 := 16, t1 := 2, d := ⟨0, 1, 0, 0x1000000000000⟩, a := ⟨0, 2, 5, 0x1000000000000⟩, b := ⟨3, 0, 0, 0x3f800000⟩, c := ⟨0, 4, 0, 0x1000000000000⟩ }),
    ([0x4184800000000000, 0x0001000100010001, 0x0001000000000000, 0x0000000002000000, 0x8000000200000000, 0x0000000000000003, 0x00000000C0000000, 0], .vfill { rec0 with type := 0x12, d := ⟨0, 1, 0, 0x1000000000000⟩, a := ⟨2, 0, 2, 0⟩, b := ⟨3, 0, 0, 0x3⟩ }),
    ([0x4194520000000000, 0x0001000100010001, 0x0001000000000000, 0x0000000002000000, 0x0400000000010000, 0, 0, 0], .vcvt { rec0 with type := 0x11, type2 := 0x12, d := ⟨0, 1, 0, 0x1000000000000⟩, a := ⟨0, 2, 0, 0x1000000000000⟩ }),
    ([0x41A0520000000000, 0x0001000100010001, 0x0001000000000000, 0x0000000002000000, 0x0400000000010000, 0x0001000000000000, 0x0000000006000000, 0], .vquant { rec0 with type := 0x1, type2 := 0x12, d := ⟨0, 1, 0, 0x1000000000000⟩, a := ⟨0, 2, 0, 0x1000000000000⟩, b := ⟨0, 3, 0, 0x1000000000000⟩ }),
    ([0x41B4810000000000, 0x0001000100010001, 0x0001000000000000, 0x0000000002000000, 0x0400000000010000, 0x0001000000000000, 0x0000000006000000, 0], .vdeq { rec0 with type := 0x12, type2 := 0x1, d := ⟨0, 1, 0, 0x1000000000000⟩, a := ⟨0, 2, 0, 0x1000000000000⟩, b := ⟨0, 3, 0, 0x1000000000000⟩ }),
    ([0x4254800000000000, 0x0001000100010010, 0x0000000100000000, 0x0000000002000000, 0x0400000000010000, 0, 0, 0], .vsum { rec0 with type := 0x12, t0 := 16, d := ⟨0, 1, 0, 0x100000000⟩, a := ⟨0, 2, 0, 0x1000000000000⟩ }),
    ([0x4264800000000000, 0x0001000100010010, 0x0000000100000000, 0x0000000002000000, 0x0400000000010000, 0x0001000000000000, 0x0000000006000000, 0], .vdot { rec0 with type := 0x12, t0 := 16, d := ⟨0, 1, 0, 0x100000000⟩, a := ⟨0, 2, 0, 0x1000000000000⟩, b := ⟨0, 3, 0, 0x1000000000000⟩ }),
    ([0x4274800000000001, 0x0001000100010010, 0x0000000100000000, 0x0000000002000000, 0x0400000000010000, 0, 0, 0], .vmaxr { rec0 with type := 0x12, ctl := 0x1, t0 := 16, d := ⟨0, 1, 0, 0x100000000⟩, a := ⟨0, 2, 0, 0x1000000000000⟩ }),
    ([0x4284800000000006, 0x0001000100010001, 0x0001000000000000, 0x0000000002000000, 0x0400000000010000, 0, 0, 0], .vscan { rec0 with type := 0x12, ctl := 0x6, d := ⟨0, 1, 0, 0x1000000000000⟩, a := ⟨0, 2, 0, 0x1000000000000⟩ }),
    ([0x4294800000000008, 0x0001000100010001, 0x0001000000000000, 0x0000000002000000, 0x0400000000010000, 0x0001000000000000, 0x0000000006000000, 0xC000000000000000], .vtopk { rec0 with type := 0x12, ctl := 0x8, d := ⟨0, 1, 0, 0x1000000000000⟩, a := ⟨0, 2, 0, 0x1000000000000⟩, b := ⟨0, 3, 0, 0x1000000000000⟩, c := ⟨3, 0, 0, 0⟩ }),
    ([0x42A1800000000000, 0x0001000100010010, 0x0000000100000000, 0x0000000002000000, 0x0400000000010000, 0x0000000000000005, 0x00000000C0000000, 0], .vargmax { rec0 with type := 0x6, t0 := 16, d := ⟨0, 1, 0, 0x100000000⟩, a := ⟨0, 2, 0, 0x1000000000000⟩, b := ⟨3, 0, 0, 0x5⟩ }),
    ([0x42B4800000000000, 0x0001000100010001, 0x0001000000000000, 0x0000000002000000, 0x0400000000000000, 0x0001000000000000, 0x0000000006000000, 0], .vgath { rec0 with type := 0x12, d := ⟨0, 1, 0, 0x1000000000000⟩, a := ⟨0, 2, 0, 0⟩, b := ⟨0, 3, 0, 0x1000000000000⟩ }),
    ([0x42C4800000000001, 0x0001000100010001, 0, 0x0000000002000000, 0x0400000000010000, 0x0001000000000000, 0x0000000006000000, 0], .vscat { rec0 with type := 0x12, ctl := 0x1, d := ⟨0, 1, 0, 0⟩, a := ⟨0, 2, 0, 0x1000000000000⟩, b := ⟨0, 3, 0, 0x1000000000000⟩ }),
    ([0x42D1800000000000, 0x0001000100010001, 0x0001000000000000, 0x0000000002000000, 0, 0, 0, 0], .vrng { rec0 with type := 0x6, d := ⟨0, 1, 0, 0x1000000000000⟩ }),
    ([0x42E4800000000000, 0x0001000100010010, 0x0000000100000000, 0x0000000002000000, 0x0400000000010000, 0, 0, 0], .vamax { rec0 with type := 0x12, t0 := 16, d := ⟨0, 1, 0, 0x100000000⟩, a := ⟨0, 2, 0, 0x1000000000000⟩ })].all reads = true := by decide +kernel

theorem test_decode_class_5 : [([0x50100000000000A2, 0x0001000100010001, 0, 0, 0xC000000000000000, 0, 0, 0], Instr.mlease { rec0 with ctl := 0xa2, a := ⟨3, 0, 0, 0⟩ }),
    ([0x5020000000000000, 0x0001000100010001, 0, 0, 0, 0, 0, 0], .mfree rec0),
    ([0x5034510000002401, 0x0001000100010080, 0, 0x0000000080000003, 0x0200000000010000, 0x0001000000000000, 0x0000000004000000, 0], .mma { rec0 with type := 0x11, type2 := 0x11, stat := 4, se := true, ctl := 0x1, t0 := 128, d := ⟨2, 0, 3, 0⟩, a := ⟨0, 1, 0, 0x1000000000000⟩, b := ⟨0, 2, 0, 0x1000000000000⟩ }),
    ([0x5044510000002401, 0x0001000100010080, 0, 0, 0x0200000000010000, 0x0001000000000000, 0x0000000004000000, 0x4600000000000000], .mmas { rec0 with type := 0x11, type2 := 0x11, stat := 4, se := true, ctl := 0x1, t0 := 128, a := ⟨0, 1, 0, 0x1000000000000⟩, b := ⟨0, 2, 0, 0x1000000000000⟩, c := ⟨1, 3, 0, 0⟩ }),
    ([0x5054510000002441, 0x0001000100010080, 0, 0, 0x0200000000010000, 0x0001000000000000, 0x0000000004000000, 0x4600000000000000], .mmag { rec0 with type := 0x11, type2 := 0x11, stat := 4, se := true, ctl := 0x41, t0 := 128, a := ⟨0, 1, 0, 0x1000000000000⟩, b := ⟨0, 2, 0, 0x1000000000000⟩, c := ⟨1, 3, 0, 0⟩ }),
    ([0x5061400000002402, 0x0001000100010001, 0, 0, 0, 0, 0, 0], .mzero { rec0 with type := 0x5, stat := 4, se := true, ctl := 0x2 }),
    ([0x507140000000241A, 0x0001000100010008, 0, 0, 0x0200000000010000, 0, 0, 0], .mlda { rec0 with type := 0x5, stat := 4, se := true, ctl := 0x1a, t0 := 8, a := ⟨0, 1, 0, 0x1000000000000⟩ }),
    ([0x508480000000241A, 0x0001000100010008, 0x0001000000000000, 0x0000000002000000, 0, 0, 0, 0], .mdrain { rec0 with type := 0x12, stat := 4, se := true, ctl := 0x1a, t0 := 8, d := ⟨0, 1, 0, 0x1000000000000⟩ }),
    ([0x5090000000002404, 0x0001000100010001, 0, 0, 0, 0, 0, 0], .mfold { rec0 with stat := 4, se := true, ctl := 0x4 }),
    ([0x50A0000000002404, 0x0001000100010001, 0, 0, 0, 0, 0x0000000200000000, 0xC000000000000000], .mstat { rec0 with stat := 4, se := true, ctl := 0x4, c := ⟨3, 0, 0, 0x2⟩ })].all reads = true := by decide +kernel

theorem test_decode_class_6 : [([0x6014800000000000, 0x0001000100040010, 0x0001000000000000, 0x0000000002000000, 0x4A00000000000000, 0x0000000000000040, 0x00000000C0000000, 0], Instr.tcopy { rec0 with type := 0x12, t0 := 16, t1 := 4, d := ⟨0, 1, 0, 0x1000000000000⟩, a := ⟨1, 5, 0, 0⟩, b := ⟨3, 0, 0, 0x40⟩ }),
    ([0x6024800000000000, 0x0001000100010010, 0x0001000000000000, 0x0000000002000000, 0x4A00000000000000, 0x0001000000000000, 0x0000000004000000, 0], .tgather { rec0 with type := 0x12, t0 := 16, d := ⟨0, 1, 0, 0x1000000000000⟩, a := ⟨1, 5, 0, 0⟩, b := ⟨0, 2, 0, 0x1000000000000⟩ }),
    ([0x6034800000000000, 0x0001000100010010, 0, 0x000000004A000000, 0x0200000000010000, 0x0001000000000000, 0x0000000004000000, 0], .tscatter { rec0 with type := 0x12, t0 := 16, d := ⟨1, 5, 0, 0⟩, a := ⟨0, 1, 0, 0x1000000000000⟩, b := ⟨0, 2, 0, 0x1000000000000⟩ }),
    ([0x6044800000000000, 0x0001000100010010, 0x0001000000000000, 0x0000000702000000, 0xC000000000000000, 0, 0, 0], .tfill { rec0 with type := 0x12, t0 := 16, d := ⟨0, 1, 0, 0x1000000000000⟩, a := ⟨3, 0, 0, 0x7⟩ }),
    ([0x6050000000000003, 0x0001000100010001, 0x0000000000000001, 0x00000000C0000000, 0x4400000000000000, 0x0000000000001000, 0x00000040C0000000, 0xC000000000000000], .tmap { rec0 with ctl := 0x3, d := ⟨3, 0, 0, 0x1⟩, a := ⟨1, 2, 0, 0⟩, b := ⟨3, 0, 0, 0x1000⟩, c := ⟨3, 0, 0, 0x40⟩ }),
    ([0x6060000000000000, 0x0001000100010001, 0x0000000000000001, 0x00000000C0000000, 0, 0, 0, 0], .tunmap { rec0 with d := ⟨3, 0, 0, 0x1⟩ }),
    ([0x6070000000000000, 0x0001000100010001, 0x0000000000000002, 0x00000000C0000000, 0, 0, 0, 0], .tflush { rec0 with type := 0, type2 := 0, ctl := 0, d := ⟨3, 0, 0, 2⟩ }),
    ([0x6080000000000001, 0x0001000100010001, 0, 0, 0x4400000000000000, 0x0000000000000004, 0x00000000C0000000, 0], .tprefetch { rec0 with ctl := 0x1, a := ⟨1, 2, 0, 0⟩, b := ⟨3, 0, 0, 0x4⟩ }),
    ([0x6090000000000000, 0x0001000100010001, 0, 0x00000000C0000000, 0x4400000000000000, 0x0000000000000040, 0x00000000C0000000, 0], .twload { rec0 with d := ⟨3, 0, 0, 0⟩, a := ⟨1, 2, 0, 0⟩, b := ⟨3, 0, 0, 0x40⟩ }),
    ([0x60A4800000000000, 0x0001000100010010, 0x0001000000000000, 0x0000010002000000, 0xC000000000000000, 0, 0, 0], .tfetch { rec0 with type := 0x12, t0 := 16, d := ⟨0, 1, 0, 0x1000000000000⟩, a := ⟨3, 0, 0, 0x100⟩ })].all reads = true := by decide +kernel

theorem test_decode_class_7 : [([0x7013980070028C01], Instr.rld true 7 6 3 5 ⟨0, .i64, .strand, .plain⟩), ([0x7020182168028C00], .rst false 1 6 3 5 ⟨1, .n32, .strand, .plain⟩),
    ([0x703024607683A900], .rsth false 3 9 10 7 8 ⟨0, .i64, .peer, .rel⟩), ([0x7046AD8070028C00], .ratom 0 13 11 12 3 5 ⟨0, .i64, .strand, .plain⟩),
    ([0x7050886476C29800], .rcas 1 2 3 6 5 ⟨4, .i64, .peer, .ar⟩), ([0x7060000000000000], .rfence), ([0x7070880070029800], .rprobe 1 2 6 5),
    ([0x7080800000029800], .rfeat 1 6 5), ([0x709190A000030000], .grant 3 4 5 6), ([0x70A0880000000000], .revoke 1 2),
    ([0x70B0886468000000], .rmcast 1 2 3 ⟨4, .n32, .strand, .plain⟩), ([0x70C008746E929800], .rred 5 3 2 6 5 ⟨4, .n32, .peer, .rel⟩),
    ([0x70D0880468029801], .rcopy true 1 2 6 5 4 .n32)].all reads = true := by decide +kernel

theorem test_decode_class_8 : [([0x8010000000000000, 0x0001000100010008, 0x0000000000000003, 0x00000000C0000000, 0x0200000000010000, 0, 0, 0], Instr.cjoin { rec0 with t0 := 8, d := ⟨3, 0, 0, 0x3⟩, a := ⟨0, 1, 0, 0x1000000000000⟩ }),
    ([0x8024800000000000, 0x0001000100010004, 0x0001000000000000, 0x0000000002000000, 0x0400000000010000, 0x0000000000000003, 0x00000000C0000000, 0], .callred { rec0 with type := 0x12, t0 := 4, d := ⟨0, 1, 0, 0x1000000000000⟩, a := ⟨0, 2, 0, 0x1000000000000⟩, b := ⟨3, 0, 0, 0x3⟩ }),
    ([0x8031400000000005, 0x0001000100010004, 0x0001000000000000, 0x0000000002000000, 0x0400000000010000, 0x0000000000000003, 0x00000000C0000000, 0], .credsc { rec0 with type := 0x5, ctl := 0x5, t0 := 4, d := ⟨0, 1, 0, 0x1000000000000⟩, a := ⟨0, 2, 0, 0x1000000000000⟩, b := ⟨3, 0, 0, 0x3⟩ }),
    ([0x8044800000000000, 0x0001000100010004, 0x0001000000000000, 0x0000000002000000, 0x0400000000010000, 0x0000000000000003, 0x00000000C0000000, 0], .callgath { rec0 with type := 0x12, t0 := 4, d := ⟨0, 1, 0, 0x1000000000000⟩, a := ⟨0, 2, 0, 0x1000000000000⟩, b := ⟨3, 0, 0, 0x3⟩ }),
    ([0x8054800000000000, 0x0001000100010004, 0x0001000000000000, 0x0000000002000000, 0x0400000000010000, 0x0000000000000003, 0x00000000C0000000, 0xC000000000000000], .cbcast { rec0 with type := 0x12, t0 := 4, d := ⟨0, 1, 0, 0x1000000000000⟩, a := ⟨0, 2, 0, 0x1000000000000⟩, b := ⟨3, 0, 0, 0x3⟩, c := ⟨3, 0, 0, 0⟩ }),
    ([0x8064800000000002, 0x0001000100010004, 0x0001000000000000, 0x0000000002000000, 0x0400000000010000, 0x0000000000000003, 0x00000000C0000000, 0x0800000000010000], .ctopk { rec0 with type := 0x12, ctl := 0x2, t0 := 4, d := ⟨0, 1, 0, 0x1000000000000⟩, a := ⟨0, 2, 0, 0x1000000000000⟩, b := ⟨3, 0, 0, 0x3⟩, c := ⟨0, 4, 0, 0x1000000000000⟩ }),
    ([0x8070000000000000, 0x0001000100010001, 0, 0, 0, 0x0000000000000003, 0x00000000C0000000, 0], .cbar { rec0 with b := ⟨3, 0, 0, 0x3⟩ })].all reads = true := by decide +kernel

theorem test_decode_class_9 : [([0x901000000000001C], Instr.vmode .sr true 1), ([0x9020000000000120], .mmode .rne false 0x12), ([0x9030000000000001], .tmode true),
    ([0x9040000200000006], .qfence .t 6)].all reads = true := by decide +kernel
/-! ## Ill-formed terms that each check of WellFormed refuses (R239 to R246 and the entries' limits) -/

/-- A plain f32 record over streams 1 and 2, trips 1. -/
def rec1 : Rec :=
  { type := 0x12, type2 := 0, psel := 0, pe := false, cls := 0, tflag := 0, stat := 0, se := false, ctl := 0, t0 := 1, t1 := 1, t2 := 1,
    t3 := 1, d := ⟨0, 1, 0, 0⟩, a := ⟨0, 2, 0, 0⟩, b := ⟨0, 0, 0, 0⟩, c := ⟨0, 0, 0, 0⟩ }

/-- A slot with an immediate. -/
def imm (v : Word) : Slot := ⟨3, 0, 0, v⟩

/-- An all-zero slot. -/
def none_ : Slot := ⟨0, 0, 0, 0⟩

/-- A scalar access of 64 bits to the scratchpad. -/
def sm64 (x : Space) (se : Sem) : SMem := ⟨0, x, .i64, .strand, se, 0⟩

theorem test_wf_semantics : (Instr.ld 1 2 (sm64 .sp .rel)).wf = false ∧ (Instr.ld 1 2 (sm64 .sp .ar)).wf = false ∧
    (Instr.st 1 2 (sm64 .sp .acq)).wf = false ∧ (Instr.lda 1 2 (sm64 .sp .rel)).wf = false ∧ (Instr.stl 1 2 (sm64 .sp .acq)).wf = false ∧
    (Instr.rld false 1 2 3 4 ⟨0, .i64, .strand, .rel⟩).wf = false ∧ (Instr.rst false 1 2 3 4 ⟨0, .i64, .strand, .acq⟩).wf = false ∧
    (Instr.rmcast 1 2 3 ⟨0, .i64, .strand, .acq⟩).wf = false := by decide

theorem test_wf_advance : (Instr.lda 1 0 (sm64 .sp .plain)).wf = false ∧ (Instr.lda 2 2 (sm64 .sp .plain)).wf = false ∧
    (Instr.stl 1 0 (sm64 .sp .plain)).wf = false ∧ (Instr.lda 1 2 (sm64 .sp .plain)).wf = true := by decide

theorem test_wf_fadd_width : (Instr.atom 7 1 2 3 ⟨0, .gv, .i8, .strand, .plain, 0⟩).wf = false ∧
    (Instr.ratom 7 1 2 3 4 5 ⟨0, .n8, .strand, .plain⟩).wf = false ∧ (Instr.rred 7 1 2 3 4 ⟨0, .i8, .strand, .plain⟩).wf = false ∧
    (Instr.rred 6 1 2 3 4 ⟨0, .i64, .strand, .plain⟩).wf = false ∧ (Instr.atom 7 1 2 3 ⟨0, .gv, .i16, .strand, .plain, 0⟩).wf = true := by
  decide

theorem test_wf_descriptor_space : (Instr.sdld 1 2 0 .gv 0).wf = false ∧ (Instr.sdst 1 2 0 .ac 0).wf = false ∧
    (Instr.sdld 1 2 0 .ws 0).wf = true := by decide

theorem test_wf_loop : (Instr.loop 3 0 1 1).wf = false ∧ (Instr.loop 0 0 0 1).wf = false ∧ (Instr.loop 0 0 257 1).wf = false ∧
    (Instr.loop 0 1 1 1).wf = false ∧ (Instr.loop 2 1 256 0).wf = true := by decide

theorem test_wf_control : (Instr.bts .ended 1 2 0).wf = false ∧ (Instr.semwait 0 0).wf = false ∧ (Instr.semsig 0 0 false 0).wf = false ∧
    (Instr.semsig 0 1 false 1).wf = false ∧ (Instr.trap 0).wf = false ∧ (Instr.trap 0x11).wf = false ∧ (Instr.trap 0x14).wf = false ∧
    (Instr.sysr 1 5).wf = false ∧ (Instr.sysw 0x3B 1).wf = false ∧ (Instr.sysr 1 0x3A).wf = true := by decide

theorem test_wf_record_fields : (Instr.vabs { rec1 with psel := 1 }).wf = false ∧ (Instr.vabs { rec1 with type2 := 1 }).wf = false ∧
    (Instr.vabs { rec1 with ctl := 2 }).wf = false ∧ (Instr.vabs { rec1 with t0 := 0 }).wf = false ∧
    (Instr.vabs { rec1 with tflag := 1, t0 := 32 }).wf = false ∧ (Instr.cbar { rec1 with type := 0, pe := true, d := none_, a := none_, b := imm 1 }).wf = false ∧
    (Instr.mfree { rec1 with type := 0, se := true, d := none_, a := none_ }).wf = false ∧
    (Instr.mfree { rec1 with type := 1, d := none_, a := none_ }).wf = false ∧ (Instr.vabs rec1).wf = true := by decide

theorem test_wf_slots : (Instr.vabs { rec1 with d := imm 1 }).wf = false ∧ (Instr.vabs { rec1 with b := imm 0 }).wf = false ∧
    (Instr.vabs { rec1 with a := ⟨0, 16, 0, 0⟩ }).wf = false ∧ (Instr.vabs { rec1 with a := ⟨1, 3, 1, 0⟩ }).wf = false ∧
    (Instr.vabs { rec1 with a := ⟨2, 0, 1024, 0⟩ }).wf = false ∧ (Instr.vabs { rec1 with a := imm (2 ^ 32) }).wf = false ∧
    (Instr.vfill { rec1 with b := imm 0 }).wf = false ∧ (Instr.tgather { rec1 with a := imm 0 }).wf = false := by decide

theorem test_wf_entry_rules : (Instr.vadd { rec1 with ctl := 1 }).wf = false ∧ (Instr.vround { rec1 with ctl := 1 }).wf = false ∧
    (Instr.vround { rec1 with ctl := 13 }).wf = false ∧ (Instr.vcmp { rec1 with ctl := 7 }).wf = false ∧
    (Instr.vcmp { rec1 with type := 5, ctl := 6 }).wf = false ∧ (Instr.vcvt { rec1 with type2 := 5, ctl := 1 }).wf = false ∧
    (Instr.vquant { rec1 with type := 0x20, type2 := 0x12 }).wf = false ∧ (Instr.vsum { rec1 with d := ⟨0, 1, 0, 2 ^ 48⟩ }).wf = false ∧
    (Instr.vscan { rec1 with ctl := 3 }).wf = false ∧ (Instr.vtopk { rec1 with c := imm 0 }).wf = false ∧
    (Instr.vgath { rec1 with a := ⟨0, 2, 0, 1⟩ }).wf = false ∧ (Instr.vscat { rec1 with d := ⟨0, 2, 0, 1⟩ }).wf = false := by decide

theorem test_wf_matrix_rules : (Instr.mlease { rec1 with type := 0, ctl := 0, d := none_, a := none_ }).wf = false ∧
    (Instr.mlease { rec1 with type := 0, ctl := 2 + 128, d := none_, a := none_ }).wf = false ∧
    (Instr.mfold { rec1 with type := 0, ctl := 2, se := true, d := none_, a := none_, t1 := 2 }).wf = false ∧
    (Instr.mma { rec1 with type := 0x11, type2 := 0x11, se := true, d := none_, a := ⟨0, 1, 0, 1⟩ }).wf = false ∧
    (Instr.mdrain { rec1 with ctl := 127 * 8, se := true, t0 := 2, a := none_ }).wf = false := by decide

theorem test_wf_transfer_rules : (Instr.tcopy { rec1 with d := ⟨1, 1, 0, 0⟩, a := ⟨1, 2, 0, 0⟩ }).wf = false ∧
    (Instr.tcopy { rec1 with b := imm 1 }).wf = false ∧ (Instr.tcopy { rec1 with ctl := 3, t0 := 16, t1 := 16 }).wf = false ∧
    (Instr.tcopy { rec1 with ctl := 1 }).wf = false ∧ (Instr.tcopy { rec1 with a := ⟨1, 2, 0, 0⟩, t3 := 2 }).wf = false ∧
    (Instr.tmap { rec1 with type := 0, ctl := 2, d := imm 1, a := ⟨1, 2, 0, 0⟩, b := imm 0, c := imm 0 }).wf = false ∧
    (Instr.tfetch { rec1 with a := imm 0, t3 := 2 }).wf = false := by decide

theorem test_wf_collective_rules : (Instr.callred { rec1 with ctl := 3, b := imm 1 }).wf = false ∧
    (Instr.callred { rec1 with type := 5, ctl := 6, b := imm 1 }).wf = false ∧
    (Instr.credsc { rec1 with d := ⟨0, 1, 0, 1⟩, b := imm 1 }).wf = false ∧
    (Instr.ctopk { rec1 with b := imm 1 }).wf = false ∧ (Instr.callred { rec1 with b := imm 1 }).wf = true := by decide

theorem test_refused_words : decode [0x10201C716B800000] = .error .illegalField ∧ decode [0x10201C616F800000] = .error .illegalField ∧
    decode [0x10201C617B800000] = .error .illegalField ∧ decode [0x0013948000000001] = .error .illegalField ∧
    decode [0x0260000000000000] = .error .illegalOp ∧ decode [0x9050000000000000] = .error .illegalOp := by
  refine ⟨rfl, rfl, rfl, rfl, rfl, rfl⟩

theorem test_refused_classes : ∀ n ∈ [10, 11, 12, 13, 14, 15], decode [BitVec.ofNat 64 (n * 2 ^ 60)] = .error .illegalClass := by
  intro n h
  simp only [List.mem_cons, List.not_mem_nil, or_false] at h
  rcases h with rfl | rfl | rfl | rfl | rfl | rfl <;> rfl

theorem test_short_record : decode [0x4010000000000000, 0, 0, 0, 0, 0, 0] = .error .short := by rfl

/-! ## States for single steps -/

/-- The strand of task 0, logical core 0, slot 0 of VR 1 runs (log 7). -/
def start : State := State.reset.placed []

/-- Registers of the issuing strand set. -/
def regs (l : List (Reg × Word)) (s : State) : State := s.onMe fun t => l.foldl (fun t e => t.setReg e.1 e.2) t

/-- A data page of VR 1 with rights R, W, A and F, at physical 0x30000. -/
def dataVa : Word := 0x0007F00000010000

/-- The data page mapped, holding 1, 2, 3, ... -/
def data : State := { start with mem := (start.mem.write 0x16008 8 (pageEntry 0x30000 0x1B)).setBytes 0x30000 [1, 2, 3, 4, 5, 6, 7, 8] }

/-- s1 = 5, s2 = -7, s3 = 0xF0, s6 the data page, s7 = 0x1000 with scratchpad bytes from there, s8 a weight-store address, s9 an accumulator address inside a claim. -/
def st0 : State :=
  ((regs [(1, 5), (2, -7), (3, 0xF0), (4, 2), (6, dataVa), (7, 0x1000), (8, 0x1000000), (9, 0x10)] data).onMe fun t =>
    { t with claim := some ⟨1, 1, 1, 0⟩ }).onLcore 0 fun l => { l with sp := l.sp.setBytes 0x1000 [0xFE, 0xFF, 3, 4, 5, 6, 7, 0x88] }

/-- s5 poisoned. -/
def poisoned : State := st0.onMe fun t => t.setPois 5 ⟨0x1234, 6, 2⟩

/-- A handler is set. -/
def armed (s : State) : State := s.onMe fun t => { t with trapvec := 0x77 }

/-- The next state of an outcome. -/
def out (o : Host.Outcome State Fault Refusal) : State := match o with | .next t => t | _ => State.reset

/-- The instruction leaves the value in the register. -/
def gives (s : State) (e : Instr × Reg × Word) : Bool :=
  match exec e.1 s with
  | .next t => decide (t.me.reg e.2.1 = e.2.2 ∧ t.me.pc = s.me.pc + 1)
  | _ => false

/-! ## Class 0 -/

theorem test_scalar_values : [(Instr.add 10 1 2, (10 : Reg), (-2 : Word)), (.sub 10 1 2, 10, 12), (.mul 10 1 2, 10, -35), (.mulh .ss 10 1 2, 10, -1),
    (.mulh .uu 10 1 2, 10, 4), (.mulh .su 10 2 1, 10, -1), (.div false 10 2 4, 10, -3), (.div true 10 1 4, 10, 2), (.div false 10 1 0, 10, -1),
    (.rem false 10 2 4, 10, -1), (.rem true 10 1 0, 10, 5), (.and 10 1 3, 10, 0), (.or 10 1 3, 10, 0xF5), (.xor 10 2 2, 10, 0),
    (.shl 10 3 4, 10, 0x3C0), (.shr 10 2 4, 10, 0x3FFFFFFFFFFFFFFE), (.sar 10 2 4, 10, -2), (.rot 10 3 2, 10, 0xE000000000000001),
    (.clz 10 3, 10, 56), (.ctz 10 3, 10, 4), (.popc 10 3, 10, 4), (.clz 10 0, 10, 64)].all (gives st0) = true := by decide +kernel

theorem test_scalar_more_values : [(Instr.min false 10 1 2, (10 : Reg), (-7 : Word)), (.min true 10 1 2, 10, 5), (.max false 10 1 2, 10, 5),
    (.max true 10 1 2, 10, -7), (.sel 10 1 2 0, 10, -7), (.sel 10 1 2 3, 10, 5), (.cmp .lt 10 2 1, 10, 1), (.cmp .ltu 10 2 1, 10, 0),
    (.cmp .eq 10 1 1, 10, 1), (.cmp .ne 10 1 1, 10, 0), (.cmp .ge 10 1 1, 10, 1), (.cmp .geu 10 1 2, 10, 0), (.addi 10 1 0xFFFFFFFF, 10, 4),
    (.andi 10 2 0xFF, 10, 0xF9), (.ori 10 0 0x80000000, 10, 0xFFFFFFFF80000000), (.xori 10 1 1, 10, 4), (.shli 10 3 60, 10, 0),
    (.li 10 0x80000000, 10, 0xFFFFFFFF80000000), (.lih 1 7, 1, 0x700000005), (.lea 10 1 .sp 0xFFFFF, 10, 4), (.bnd 10 3 1, 10, 4),
    (.bnd 10 1 0, 10, 0), (.add 0 1 2, 0, 0)].all (gives st0) = true := by decide +kernel

/-- 1.5 + 2.25 = 3.75, 1.5 × 2.25 = 3.375, 1.5 × 2.25 + 1.5 = 4.875 in f32. -/
theorem test_scalar_float_values : [(Instr.fadd .f32 10 1 2, (10 : Reg), (0x40700000 : Word)), (.fmul .f32 10 1 2, 10, 0x40580000),
    (.ffma .f32 1 1 2, 1, 0x409C0000), (.fcmp .f32 .lt 10 1 2, 10, 1), (.fcmp .f32 .un 10 1 2, 10, 0), (.fcvt (.toI64 .f32) 10 2, 10, 2),
    (.fcvt (.ff .f64 .f32) 10 1, 10, 0x3FF8000000000000), (.fcvt (.ofI64 .f32) 10 3, 10, 0xC0400000),
    (.fcvt (.toN64 .f32) 10 2, 10, 2), (.fcvt (.ofN64 .f16) 10 4, 10, 0x4400)].all
    (gives (regs [(1, 0x3FC00000), (2, 0x40100000), (3, -3), (4, 4)] start)) = true := by decide +kernel

theorem test_ScalarResultsAndPoison : scalarForm st0 (.add 10 1 2) = some (10, [1, 2], -2) ∧ scalarForm st0 (.add 0 1 2) = some (0, [1, 2], -2) ∧
    (∀ r ∈ ([1, 2] : List Reg), st0.me.pois r = none) ∧ scalarForm st0 (.div false 10 1 0) = some (10, [1, 0], -1) ∧
    scalarForm st0 (.shl 10 3 2) = some (10, [3, 2], 0xE000000000000000) := by decide +kernel

theorem test_ScalarResultsAndPoison_poisoned : (scalarForm poisoned (.add 10 1 5)).isSome ∧ ([1, 5] : List Reg).findSome? poisoned.me.pois = some ⟨0x1234, 6, 2⟩ ∧
    (out (exec (.add 10 1 5) poisoned)).me.pois 10 = some ⟨0x1234, 6, 2⟩ := by decide +kernel

theorem test_CountPredicatesSet : st0.me.pois 2 = none ∧ ((out (exec (.cntset 1 2 5) st0)).me.cnt 1).count = 0x1FFFF ∧
    ((out (exec (.cntset 1 1 5) st0)).me.cnt 1) = ⟨5, 5⟩ ∧ ((out (exec (.cntsub 2 1 2) (out (exec (.cntset 1 1 5) st0)))).me.cnt 2) = ⟨0, 5⟩ := by
  decide +kernel

/-! ## Class 1 -/

/-- An access of a width to a space with no ordering, class 0, offset 0. -/
def acc (x : Space) (w : Width) : SMem := ⟨0, x, w, .strand, .plain, 0⟩

theorem test_LoadsReadMemory_sp : st0.me.pois 7 = none ∧ eaOf st0 false 7 0 = 0x1000 ∧ eaOf st0 true 7 0 = 0x1000 ∧ 0x1000 % 2 = 0 ∧
    0x1000 + 2 ≤ st0.myQuota ∧ st0.me.pending = [] ∧ st0.spWaking st0.myLc 0x1000 0x1002 = false ∧
    (st0.lcoreAt st0.myLc).unfilled 0x1000 0x1002 = [] ∧ gives st0 (.ld 10 7 (acc .sp .i16), 10, -2) = true ∧
    gives st0 (.lda 10 7 { acc .sp .n16 with off := 4 }, 7, 0x1004) = true := by decide +kernel

theorem test_LoadsReadMemory_ws : st0.me.pois 8 = none ∧ eaOf st0 false 8 0 = 0x1000000 ∧ 0x1000000 + 8 ≤ 0x10000000 ∧
    st0.wsHeld (dieOf st0.myCore) (0x1000000 / 0x1000000) = false ∧ gives st0 (.ld 10 8 (acc .ws .i64), 10, 0) = true := by decide +kernel

theorem test_LoadsReadMemory_ac : AccessGood st0 .ac 0x10 4 ∧ st0.me.pois 9 = none ∧ eaOf st0 false 9 0 = 0x10 ∧
    gives st0 (.ld 10 9 (acc .ac .n32), 10, 0) = true := by
  refine ⟨⟨by decide, by decide, by decide, ⟨1, 1, 1, 0⟩, ?_, ?_⟩, ?_⟩ <;> decide +kernel

theorem test_LoadsReadMemory_gv : st0.me.pois 6 = none ∧ eaOf st0 false 6 0 = dataVa.toNat ∧ dataVa.toNat % 4 = 0 ∧ st0.me.pending = [] ∧
    st0.budgetHeld st0.myVrId 0 = false ∧ heldByte st0.myPlaces st0.me.rsb dataVa.toNat = none ∧
    (st0.xlate (st0.myAcc rR 1 st0.me.h) dataVa.toNat).2 = .ok 0x30000 ∧ gives st0 (.ld 10 6 (acc .gv .n32), 10, 0x04030201) = true := by
  decide +kernel

/-- A region of the strand holds the first four bytes of the data page. -/
def holding : State := out (exec (.st 1 6 (acc .gv .n32)) (out (exec .region st0)))

theorem test_LoadsReadMemory_gv_held : (∀ i < 4, (heldByte holding.myPlaces holding.me.rsb (dataVa.toNat + i)).isSome) ∧ eaOf holding false 6 0 = dataVa.toNat ∧
    holding.me.pending = [] ∧ holding.budgetHeld holding.myVrId 0 = false ∧ holding.me.pois 6 = none ∧
    gives holding (.ld 10 6 (acc .gv .n32), 10, 5) = true ∧ holding.mem.byte 0x30000 = 1 := by decide +kernel

/-- The code page has no right W: a load of an address without a mapping is refused. -/
theorem test_LoadsReadMemory_gv_refused : (st0.xlate (st0.myAcc rR 1 false) (2 ^ 60)).2 = .refused (2 ^ 60) ∧
    (regs [(6, 2 ^ 60)] st0).me.pois 6 = none ∧
    (out (exec (.ld 10 6 (acc .gv .n32)) (regs [(6, 2 ^ 60)] st0))).me.pois 10 = some ⟨2 ^ 60, 5, 0⟩ := by decide +kernel

theorem test_StoresWriteMemory_sp : st0.me.pois 7 = none ∧ st0.me.pois 1 = none ∧ eaOf st0 false 7 0 = 0x1000 ∧ 0x1000 + 8 ≤ st0.myQuota ∧
    st0.spWaking st0.myLc 0x1000 0x1008 = false ∧ (st0.lcoreAt st0.myLc).unfilled 0x1000 0x1008 = [] ∧
    ((out (exec (.st 2 7 (acc .sp .i16)) st0)).lcoreAt 0).sp.bytes 0x1000 4 = [0xF9, 0xFF, 3, 4] ∧
    (out (exec (.stl 2 7 { acc .sp .i16 with off := 0xFFFFE }) st0)).me.reg 7 = 0xFFE := by decide +kernel

theorem test_StoresWriteMemory_ac : AccessGood st0 .ac 0x10 4 ∧ st0.me.pois 9 = none ∧ st0.me.pois 1 = none ∧
    sget 0 ((out (exec (.st 1 9 (acc .ac .n32)) st0)).bankAt 0).cells 4 = 5 := by
  refine ⟨⟨by decide, by decide, by decide, ⟨1, 1, 1, 0⟩, ?_, ?_⟩, ?_⟩ <;> decide +kernel

theorem test_StoresWriteMemory_gv : st0.me.pois 6 = none ∧ st0.me.pois 1 = none ∧ dataVa.toNat % 4 = 0 ∧ st0.me.region = false ∧
    st0.me.pending = [] ∧ st0.budgetHeld st0.myVrId 0 = false ∧
    (st0.xlate { st0.myAcc rW 1 true with who := .store st0.uid } dataVa.toNat).2 = .ok 0x30000 ∧
    (out (exec (.st 2 6 (acc .gv .n32)) st0)).mem.bytes 0x30000 5 = [0xF9, 0xFF, 0xFF, 0xFF, 5] := by decide +kernel

theorem test_StoresWriteMemory_gv_region : (out (exec .region st0)).me.region = true ∧
    overCapacity (out (exec .region st0)).me.rsb (blocksOf 0 dataVa.toNat 4) = false ∧ (out (exec .region st0)).me.pois 6 = none := by decide +kernel

theorem test_AtomicsReadModifyWrite : (rmwForm st0 (.atom 0 10 7 1 (acc .sp .i16))).isSome ∧ (∀ r ∈ ([7, 1] : List Reg), st0.me.pois r = none) ∧
    st0.spWaking st0.myLc 0x1000 0x1002 = false ∧ (st0.lcoreAt st0.myLc).unfilled 0x1000 0x1002 = [] ∧ st0.detmode = false ∧
    gives st0 (.atom 0 10 7 1 (acc .sp .i16), 10, -2) = true ∧
    ((out (exec (.atom 0 10 7 1 (acc .sp .i16)) st0)).lcoreAt 0).sp.bytes 0x1000 2 = [3, 0] ∧
    ((out (exec (.atom 4 10 7 1 (acc .sp .i16)) st0)).lcoreAt 0).sp.bytes 0x1000 2 = [0xFE, 0xFF] ∧
    ((out (exec (.atom 4 10 7 1 (acc .sp .n16)) st0)).lcoreAt 0).sp.bytes 0x1000 2 = [5, 0] := by decide +kernel

theorem test_AtomicsReadModifyWrite_gv : st0.me.region = false ∧ (st0.xlate (st0.myAcc (rW ||| rA) 1 true) dataVa.toNat).2 = .ok 0x30000 ∧
    gives st0 (.atom 6 10 6 1 (acc .gv .n32), 10, 0x04030201) = true ∧
    (out (exec (.atom 6 10 6 1 (acc .gv .n32)) st0)).mem.bytes 0x30000 4 = [5, 0, 0, 0] := by decide +kernel

/-- cas with a d that matches, and one that does not. -/
theorem test_AtomicsReadModifyWrite_cas : (rmwForm st0 (.cas 10 6 1 (acc .gv .n32))).isSome ∧
    (out (exec (.cas 10 6 1 (acc .gv .n32)) (regs [(10, 0x04030201)] st0))).mem.bytes 0x30000 4 = [5, 0, 0, 0] ∧
    (out (exec (.cas 10 6 1 (acc .gv .n32)) st0)).mem.bytes 0x30000 4 = [1, 2, 3, 4] ∧
    gives st0 (.atom 0 10 9 1 (acc .ac .n32), 10, 0) = true ∧ gives st0 (.cas 10 9 1 (acc .ac .n32), 10, 0) = true := by decide +kernel

theorem test_ConstantsAndDescriptorsMove : (st0.me.reg 0 + (1023 : BitVec 32).signExtend 64).toNat ≤ 1023 ∧ st0.me.pois 0 = none ∧
    gives st0 (.kld 10 0 1023, 10, 0) = true ∧ eaOf st0 false 7 0 % 16 = 0 ∧ 0x1000 + 16 ≤ st0.myQuota ∧
    st0.spWaking st0.myLc 0x1000 0x1010 = false ∧ (st0.lcoreAt st0.myLc).unfilled 0x1000 0x1010 = [] ∧
    (out (exec (.sdld 15 7 0 .sp 0) st0)).me.sdesc 15 = 0x8807060504_03FFFE ∧
    st0.wsHeld (dieOf st0.myCore) (eaOf st0 false 8 0 / 0x1000000) = false ∧
    ((out (exec (.sdst 15 7 0 .sp 0x10) (out (exec (.sdld 15 7 0 .sp 0) st0)))).lcoreAt 0).sp.bytes 0x1010 2 = [0xFE, 0xFF] := by decide +kernel

/-- A store of class 3 waits. -/
def waiting : State := st0.onMe fun t => { t with pending := [.bytes ⟨1, 9, 0, 1, [(.s, 3)], some 0, [], [(0, some 1)]⟩] }

/-- A fence of class 3 has retired behind that store. -/
def fencing : State := out (exec (.fence 8) waiting)

theorem test_FencesWaitForEarlierAccesses : (out (exec (.fence 6) waiting)).me.pending = waiting.me.pending ∧
    fencing.me.status = .ready ∧ fencing.me.pending.length = 2 ∧ .fence waiting.uid .s .s 8 ∈ fencing.me.pending ∧ waiting.pathBusy .s = true ∧
    st0.pathBusy .s = false ∧ (out (exec (.xfence .s .v) waiting)).me.status = .blocked ∧ (out (exec (.xfence .s .v) st0)).me.status = .ready ∧
    (8 : BitVec 16).getLsbD 3 = true ∧ fencing.me.pois 7 = none ∧ 0x1000 + 8 ≤ fencing.myQuota ∧
    (out (exec (.ld 10 7 { acc .sp .i64 with cls := 3 }) fencing)).me.status = .blocked ∧
    (out (exec (.ld 10 7 { acc .sp .i64 with cls := 2 }) fencing)).me.status = .ready := by decide +kernel

/-! ## Class 2 -/

/-- The pc of the issuing strand. -/
def pc0 : Nat := codeBase.toNat

/-- The instruction is answered by a next state with this pc. -/
def goes (s : State) (i : Instr) (pc : Nat) : Bool :=
  match exec i s with
  | .next t => decide (t.me.pc = BitVec.ofNat 53 pc)
  | _ => false

theorem test_TransfersAndBranches : transferForm st0 (.br 0xFFFFFFFF) = some ([], [], true, codeBase - 1) ∧
    transferForm st0 (.jr 31 1) = some ([1], [31], true, 5) ∧ transferForm st0 (.bc .lt 1 2 9) = some ([1, 2], [], false, codeBase + 9) ∧
    transferForm st0 (.jal 0 4) = some ([], [0], true, codeBase + 4) ∧ transferForm st0 .ret = some ([31], [], true, 0) ∧
    transferForm poisoned (.bpois false 5 3) = some ([], [], true, codeBase + 3) ∧ (∀ r ∈ ([1, 2, 31] : List Reg), st0.me.pois r = none) := by
  refine ⟨?_, ?_, ?_, ?_, ?_, ?_, ?_⟩ <;> decide +kernel

theorem test_transfers : goes st0 (.br 0xFFFFFFFF) (pc0 - 1) = true ∧ goes st0 (.jr 31 1) 5 = true ∧ goes st0 (.bc .lt 1 2 9) (pc0 + 1) = true ∧
    goes st0 (.bc .geu 2 1 9) (pc0 + 9) = true ∧ goes st0 (.jal 31 4) (pc0 + 4) = true ∧ goes poisoned (.bpois true 5 3) (pc0 + 1) = true ∧
    gives (regs [(31, BitVec.ofNat 64 (pc0 + 1))] st0) (.ret, 31, BitVec.ofNat 64 (pc0 + 1)) = true ∧
    (out (exec (.jal 31 4) st0)).me.reg 31 = BitVec.ofNat 64 (pc0 + 1) := by decide +kernel

/-- s7 holds a status word whose bits 31:24 are 4; its neighbours are misaligned or beyond the quota. -/
theorem test_TransfersAndBranches_bts : (regs [(7, 0x1001)] st0).me.reg 7 = 0x1001 ∧ 0x1001 % 8 ≠ 0 ∧ st0.me.pois 7 = none ∧ st0.me.pois 0 = none ∧
    st0.myQuota = 0x100000 ∧ (0x100000 - 0) % 8 = 0 ∧ st0.myQuota < 0x100000 + 8 ∧ (0x1000 : Nat) % 8 = 0 ∧ 0x1000 + 8 ≤ st0.myQuota ∧
    st0.me.pending = [] ∧ st0.spWaking st0.myLc 0x1000 0x1008 = false ∧ (st0.lcoreAt st0.myLc).unfilled 0x1000 0x1008 = [] ∧
    goes st0 (.bts .ended 7 0 9) (pc0 + 9) = true ∧ goes st0 (.bts .any 7 4 9) (pc0 + 9) = true ∧ goes st0 (.bts .none 7 4 9) (pc0 + 1) = true ∧
    (out (exec (.bts .any 7 4 9) (armed (regs [(7, 0x1001)] st0)))).me.cause = 0x06 ∧
    (out (exec (.bts .any 7 4 9) (armed (regs [(7, 0x100000)] st0)))).me.cause = 0x05 := by decide +kernel

/-- A loop register 1 over the words from the pc to pc + 2. -/
def looping : State := st0.onMe fun t => t.setLoop 1 ⟨2, codeBase, codeBase + 2, true⟩

theorem test_LoopsStartAndStep : (out (exec (.loop 0 0 3 4) st0)).me.loop 0 = ⟨4, codeBase + 1, codeBase + 4, true⟩ ∧
    goes (regs [(1, 0)] st0) (.loop 0 1 3 0) (pc0 + 4) = true ∧ (regs [(1, 65536)] st0).me.reg 1 = 65536 ∧
    (out (exec (.loop 0 1 3 0) (armed (regs [(1, 65536)] st0)))).me.cause = 0x03 ∧ (looping.me.loop 1).active = true ∧
    (out (exec (.loop 1 0 1 1) (armed looping))).me.cause = 0x03 ∧ (out (exec (.loop 0 0 2 1) (armed looping))).me.cause = 0x03 ∧
    (out (exec (.loop 0 0 1 1) (armed looping))).me.cause = 0 := by decide +kernel

/-- A last pass and one that is not the last, of one loop and of two that end together. -/
theorem test_LoopsStartAndStep_retire : ((looping.me.retire 2).pc = codeBase ∧ ((looping.me.retire 2).loop 1).count = 1) ∧
    (looping.me.retire 1).pc = codeBase + 1 ∧
    ((looping.me.setLoop 1 ⟨1, codeBase, codeBase + 2, true⟩).retire 2).pc = codeBase + 2 ∧
    ((((looping.me.setLoop 1 ⟨1, codeBase, codeBase + 1, true⟩).setLoop 0 ⟨3, codeBase - 4, codeBase + 1, true⟩).retire 1).pc = codeBase - 4) := by
  decide +kernel

/-! ## Class 3 -/

/-- Slots 0 and 1 of logical core 0 run. -/
def two : State := { st0 with strands := sset Strand.init st0.strands 1 (Strand.start 77 codeBase true [] []) }

/-- Slot 1 waits on semaphore 3 for a count of 2. -/
def semWait : State := { two with strands := smod Strand.init two.strands 1 fun t => { t with status := .waiting (.sem 3 2), arrived := 1 } }

theorem test_SemaphoresCountAndWait : semWait.me.status = .ready ∧ (semWait.strandAt 1).status = .waiting (.sem 3 2) ∧ semWait.me.region = false ∧
    semWait.pathBusy .s = false ∧ servedOf 3 [(1, 2)] = ([1], 1) ∧ semOf (out (exec (.semsig 3 3 false 0) semWait)) 0 3 = 1 ∧
    ((out (exec (.semsig 3 3 false 0) semWait)).strandAt 1).status = .ready ∧
    semOf (out (exec (.semsig 3 1 false 0) semWait)) 0 3 = 1 ∧ ((out (exec (.semsig 3 1 false 0) semWait)).strandAt 1).status = .waiting (.sem 3 2) := by
  decide +kernel

theorem test_SemaphoresCountAndWait_waiters : WaitersAre semWait 0 3 [(1, 2)] := by
  refine ⟨fun k c => ?_, by simp⟩
  have hs : ∀ k, semWait.strandAt k = sget Strand.init semWait.strands k := fun _ => rfl
  constructor
  · intro h
    simp only [List.mem_singleton, Prod.mk.injEq] at h
    obtain ⟨rfl, rfl⟩ := h
    exact ⟨⟨1, by decide, by decide⟩, by decide +kernel⟩
  · rintro ⟨⟨i, hi, rfl⟩, h⟩
    have : i = 0 ∨ i = 1 ∨ i = 2 ∨ i = 3 := by omega
    rcases this with rfl | rfl | rfl | rfl
    · exact absurd (show (semWait.strandAt 0).status = .waiting (.sem 3 c) from h) (by
        rw [show (semWait.strandAt 0).status = .ready by decide +kernel]; simp)
    · rw [show (0 * 4 + 1 : Nat) = 1 from rfl, show (semWait.strandAt 1).status = .waiting (.sem 3 2) by decide +kernel] at h
      simp at h; simp [h]
    · exact absurd (show (semWait.strandAt 2).status = .waiting (.sem 3 c) from h) (by
        rw [show (semWait.strandAt 2).status = .dormant by decide +kernel]; simp)
    · exact absurd (show (semWait.strandAt 3).status = .waiting (.sem 3 c) from h) (by
        rw [show (semWait.strandAt 3).status = .dormant by decide +kernel]; simp)

/-- semwait takes a count that is there, and waits for one that is not. -/
theorem test_semwait : let s := st0.onLcore 0 fun l => { l with hs := sset 0 l.hs 3 5 }
    semOf s 0 3 = 5 ∧ semOf (out (exec (.semwait 3 5) s)) 0 3 = 0 ∧ (out (exec (.semwait 3 6) s)).me.status = .waiting (.sem 3 6) := by decide +kernel

/-- Slot 1 waits at a barrier. -/
def barWait (w : Wait) : State := { two with strands := smod Strand.init two.strands 1 fun t => { t with status := .waiting w, arrived := 1 } }

theorem test_BarriersComplete : swf Strand.init (barWait .barc).strands = true ∧ (barWait .barc).cur.key = 0 ∧ ((barWait .barc).strandAt 0).entry = true ∧
    ((barWait .barc).strandAt 0).status = .ready ∧ (barWait .barc).me.handler = false ∧ (barWait .barc).me.region = false ∧
    (barWait .barc).pathBusy .s = false ∧ ((barWait .barc).strandAt 1).entry = true ∧
    (out (exec .barc (barWait .barc))).me.status = .ready ∧ ((out (exec .barc (barWait .barc))).strandAt 1).status = .ready ∧
    (out (exec .barg (barWait .barc))).me.status = .waiting .barg ∧ ((out (exec .barg (barWait .barg))).strandAt 1).pc = codeBase + 1 ∧
    (out (exec .barc two)).me.status = .waiting .barc := by decide +kernel

theorem test_RegionsAndYieldsSetRestartPoint : st0.me.rsb = [] ∧ st0.me.pending = [] ∧ (out (exec .region st0)).me.region = true ∧
    (out (exec .region st0)).me.restart = codeBase + 1 ∧ (out (exec .yield st0)).me.status = .ready ∧
    (out (exec .yield (st0.onTask 0 fun k => { k with preq := true }))).me.status = .yielded := by decide +kernel

/-- One byte held, of the first of the data page. -/
def oneByte : HeldBlk := ⟨dataVa.toNat / 256, 9, 0, 1, [(.s, 0)], none, [], [(0, some 0xAB)]⟩

/-- It is held in an open region. -/
def oneHeld : State := st0.onMe fun t => { t with region := true, rsb := [.bytes oneByte] }

theorem test_CommitPerformsHeldStore : oneHeld.cur.lcore < 288 ∧ oneHeld.cur.slot < 4 ∧ oneHeld.me.region = true ∧ oneHeld.me.pending = [] ∧
    oneHeld.me.rsb = [.bytes oneByte] ∧ oneHeld.budgetHeld (oneHeld.taskAt oneHeld.cur.task).vr 0 = false ∧
    (let s0 := (oneHeld.onMe fun t => { t with rsb := [], region := false }).tickUid.onMe fun t => { t with pending := [] };
      (s0.xlate (s0.storeAcc oneHeld.myLc oneByte.uid oneByte.src) (dataVa.toNat / 256 * 256 + 0)).2 = .ok 0x30000) ∧
    (out (exec .yield oneHeld)).mem.bytes 0x30000 2 = [0xAB, 2] ∧ (out (exec .region oneHeld)).me.rsb = [] := by decide +kernel

theorem test_TrapsEnterAndReturn : (armed st0).me.trapvec ≠ 0 ∧ (armed st0).me.h = false ∧ st0.me.trapvec = 0 ∧ st0.cur.lcore < 288 ∧
    st0.cur.slot < 4 ∧ swf LCore.init st0.lcores = true ∧ (st0.taskAt 0).phase = .running ∧
    (out (exec (.trap 0x0A) (armed st0))).me.pc = 0x77 ∧ (out (exec (.trap 0x0A) (armed st0))).me.cause = 0x0A ∧
    (out (exec (.trap 0x0A) (armed st0))).me.trappc = codeBase + 1 ∧ (out (exec (.brk 1) (armed st0))).me.cause = 0x13 ∧
    ((out (exec (.trap 0x0A) st0)).taskAt 0).phase = .stopping ∧ ((out (exec (.trap 0x0A) st0)).taskAt 0).status = 0x0A := by decide +kernel

theorem test_TrapsEnterAndReturn_tret : (out (exec (.trap 1) (armed st0))).me.h = true ∧ st0.me.h = false ∧
    (out (exec .tret (out (exec (.trap 1) (armed st0))))).me.pc = codeBase + 1 ∧ (out (exec .tret (out (exec (.trap 1) (armed st0))))).me.h = false ∧
    (out (exec .tret (armed st0))).me.cause = 0x08 := by decide +kernel

theorem test_ConsumedPoisonTraps : consumed (.bc .eq 5 1 0) = some ([5, 1], 2) ∧ poisoned.me.pois 5 = some ⟨0x1234, 6, 2⟩ ∧
    (∀ q ∈ ([5, 1] : List Reg), q.toNat < 5 → poisoned.me.pois q = none) ∧ (armed poisoned).me.trapvec ≠ 0 ∧ (armed poisoned).me.h = false ∧
    (out (exec (.bc .eq 5 1 0) (armed poisoned))).me.cause = 0x07 ∧ (out (exec (.bc .eq 5 1 0) (armed poisoned))).me.faultva = 0x1234 ∧
    (out (exec (.bc .eq 5 1 0) (armed poisoned))).me.poisoninfo = 6 * 2 ^ 9 + 2 * 2 ^ 5 + 5 := by decide +kernel

/-- An engine error and a remote failure are pending. -/
def failing : State := armed (st0.onMe fun t => { t with errs := [⟨7, 0x0D, 4, 0x99⟩], rfails := [⟨9, 0x09, 7, 0x88⟩] })

/-- Only the remote failure. -/
def failingR : State := armed (st0.onMe fun t => { t with rfails := [⟨9, 0x09, 7, 0x88⟩] })

/-- A record of the strand is queued. -/
def queued : State := st0.onCore 0 fun c => { c with v := { c.v with q := [⟨⟨0, 0, 0⟩, st0.me.sid, 0, 0, .vabs rec1, st0.capWord [], []⟩] } }

theorem test_FailuresRaisedAtEsync : failing.recordsBusy = false ∧ failing.remoteBusy failing.me.sid = false ∧
    failing.me.errs ++ (failing.lcoreAt failing.myLc).errs ++ (failing.me.rfails ++ (failing.lcoreAt failing.myLc).rfails) =
      [⟨7, 0x0D, 4, 0x99⟩, ⟨9, 0x09, 7, 0x88⟩] ∧ failing.me.trapvec ≠ 0 ∧ failing.me.h = false ∧ queued.recordsBusy = true ∧
    (out (exec .esync failing)).me.cause = 0x0D ∧ (out (exec .esync failing)).me.faultva = 0x99 ∧ (out (exec .esync failing)).me.causeCls = 4 ∧
    (out (exec .esync failingR)).me.cause = 0x09 ∧ (out (exec .esync failingR)).me.rfails = [] ∧
    (out (exec .esync st0)).me.pc = codeBase + 1 ∧ (out (exec .esync queued)).me.status = .blocked := by decide +kernel

theorem test_StrandsEndAtTailAndHalt : queued.me.region = false ∧ queued.workLeft = true ∧ queued.trackerUsed queued.myCore < 16 ∧
    (queued.lcoreAt queued.myLc).arrivals = [] ∧ st0.workLeft = false ∧ st0.me.haltAt = none ∧ (st0.coreAt st0.myCore).busyBefore st0.uid = false ∧
    st0.coreHolds st0.myCore = false ∧ st0.remoteBusy st0.me.sid = false ∧
    st0.me.errs ++ (st0.lcoreAt st0.myLc).errs ++ (st0.me.rfails ++ (st0.lcoreAt st0.myLc).rfails) = [] ∧
    (queued.coreAt queued.myCore).busyBefore queued.uid = true ∧ (out (exec .tail queued)).me.status = .retired ∧
    ((out (exec .tail queued)).lcoreAt 0).tracked.length = 1 ∧ (out (exec .halt st0)).me.status = .retired ∧
    (out (exec .halt queued)).me.haltAt = some queued.uid := by decide +kernel

/-- Sixteen tracker entries of other strands are in use. -/
def fullTracker : State :=
  let x (n : Nat) : Entry := ⟨⟨0, 0, 1⟩, 100 + n, 0, 0, .vabs rec1, st0.capWord [], []⟩
  (queued.onCore 0 fun c => { c with v := { c.v with q := c.v.q ++ (List.range 16).map x } }).onLcore 0 fun l =>
    { l with tracked := (List.range 16).map fun n => ⟨100 + n, Mode.zero, Mode.zero, false⟩ }

theorem test_StrandsEndAtTailAndHalt_full : fullTracker.workLeft = true ∧ 16 ≤ fullTracker.trackerUsed fullTracker.myCore ∧
    fullTracker.me.region = false ∧ (out (exec .tail fullTracker)).me.status = .blocked := by decide +kernel

/-- VR 1 with one template and `n` requests in its spawn queue, `m` signals waiting. -/
def spawning (n m : Nat) : State :=
  let r : SpawnReq := ⟨0, 0, 0, 0, 0, 0⟩
  { (st0.onVr 1 fun v => { v with image := { v.image with entries := [⟨true, 0, none, 0, 0⟩] }, spawnq := List.replicate n r }) with
    sup := { st0.sup with signals := List.replicate m ([], 0) } }

theorem test_SpawnSignalSnap : ((spawning 63 63).vrAt ((spawning 63 63).taskAt 0).vr).isSome ∧ (spawning 63 63).me.region = false ∧
    (spawning 63 63).me.pois 1 = none ∧ (((spawning 63 63).vrAt 1).map fun v => (v.image.entries.filter EntryDecl.template).length) = some 1 ∧
    (spawning 63 63).pathBusy .s = false ∧ ((spawning 63 63).taskAt 0).seen = [] ∧ waiting.pathBusy .s = true ∧
    (((out (exec (.spawn 0 1) (spawning 63 63))).vrAt 1).map fun v => v.spawnq.length) = some 64 ∧
    (out (exec (.spawn 0 1) (spawning 64 64))).me.status = .blocked ∧ (out (exec (.signal 7 1) (spawning 64 64))).me.status = .blocked ∧
    (out (exec (.signal 7 1) waiting)).me.status = .blocked ∧ (out (exec (.spawn 1 1) (armed (spawning 0 0)))).me.cause = 0x03 ∧
    (out (exec (.signal 7 1) st0)).sup.signals = [([0x0007000000000001, 5, BitVec.ofNat 64 pc0, 0], 0)] ∧
    (out (exec (.snap 9) st0)).sup.latching = [(9, 16)] ∧ (out (exec .nop st0)).me.pc = codeBase + 1 := by decide +kernel

theorem test_SystemRegisters : gives st0 (.sysr 10 0x020, 10, 1) = true ∧ gives st0 (.sysr 10 0x02B, 10, 0x14800) = true ∧
    gives st0 (.sysr 10 0x012, 10, 1) = true ∧ sysSpec st0 0x02B = 0x14800 ∧ st0.me.pois 1 = none ∧ (regs [(1, 4)] st0).me.reg 1 = 4 ∧
    (out (exec (.sysw 0x010 1) (armed (regs [(1, 4)] st0)))).me.cause = 0x03 ∧ (out (exec (.sysw 0x010 4) st0)).me.smode = 2 ∧
    (out (exec (.sysw 0x012 0) (armed st0))).me.cause = 0x03 ∧ (out (exec (.sysw 0x004 1) st0)).me.trapvec = 5 ∧
    (((out (exec (.sysw 0x016 1) (regs [(1, 0x70A)] st0))).vrAt 1).map fun v => (v.pfthr, v.pfblk)) = some (7, 10) ∧
    (out (exec (.sysw 0x016 1) (armed (regs [(1, 0x70B)] st0)))).me.cause = 0x03 := by decide +kernel

/-- The supervisor's strand issues: s1 names a launch of two members, s2 their list at 0x40000, s3 endpoint 5, to which port 0 leads. -/
def sup0 : State :=
  let s : State := { st0 with cur := supRef, route := [(5, BitVec.ofNat 64 (2 ^ 63 + 1))], mem := st0.mem.write 0x40000 8 0, tasks := [] }
  regs [(1, BitVec.ofNat 64 (0x01000007 + 2 ^ 48)), (2, 0x40000), (3, 5), (4, 1)] s

/-- With an arming of launch 0x01000007 that has come to `r`, told or not. -/
def arming (r : Option Nat) (told : Bool) : State :=
  { sup0 with sup := { sup0.sup with arming := [⟨0x01000007, [(0, 0)], [], 100, r, told, false⟩] } }

theorem test_SupervisorInstructions : st0.cur ≠ supRef ∧ sup0.cur = supRef ∧ sup0.me.pois 1 = none ∧ sup0.me.pois 2 = none ∧
    (sup0.sup.arming.find? fun r => decide (r.launch = 0x01000007) && !r.told) = none ∧
    (sup0.me.reg 1).toNat / 2 ^ 48 = 1 ∧ (sup0.me.reg 2).toNat % 8 = 0 ∧ (sup0.me.reg 1).toNat / 2 ^ 42 % 2 ^ 6 = 0 ∧
    memberList sup0.mem 0x40000 1 = some [(0, 0)] ∧ (out (exec (.varm 10 1 2) sup0)).me.status = .blocked ∧
    (out (exec (.varm 10 1 2) sup0)).sup.arming.length = 1 ∧ (out (exec (.varm 10 1 4) sup0)).me.reg 10 = 3 ∧
    (out (exec (.vgo 10 1) sup0)).me.reg 10 = 3 ∧ (out (exec (.varm 10 1 2) (armed st0))).me.cause = 0x08 := by decide +kernel

theorem test_SupervisorInstructions_more : ((arming (some 2) false).sup.arming.find? fun r => decide (r.launch = 0x01000007) && !r.told).isSome ∧
    (out (exec (.varm 10 1 2) (arming (some 2) false))).me.reg 10 = 2 ∧ (out (exec (.varm 10 1 2) (arming none false))).me.status = .blocked ∧
    ((arming (some 0) true).sup.arming.find? fun r => decide (r.launch = 0x01000007) && decide (r.result = some 0) && r.told && !r.gone).isSome ∧
    (out (exec (.vgo 10 1) (arming (some 0) true))).me.reg 10 = 0 ∧ (sup0.canMove 1 5).isSome ∧ sup0.canMove 2 5 = none ∧
    (out (exec (.migr 10 4 3) sup0)).me.reg 10 = 0 ∧ (out (exec (.migr 10 4 3) sup0)).sent.length = 1 ∧
    (out (exec (.migr 10 3 3) sup0)).me.reg 10 = 1 := by decide +kernel

/-! ## Checks of scalar instructions -/

theorem test_ScalarChecksTrap : (armed st0).me.trapvec ≠ 0 ∧ (armed st0).me.h = false ∧ writesWs (.st 1 8 (acc .ws .i64)) = true ∧
    writesWs (.sdst 0 8 0 .ws 0) = true ∧ (out (exec (.st 1 8 (acc .ws .i64)) (armed st0))).me.cause = 0x08 ∧
    (out (exec (.cas 1 8 1 (acc .ws .i64)) (armed st0))).me.cause = 0x08 ∧ (out (exec (.sdst 0 8 0 .ws 0) (armed st0))).me.cause = 0x08 ∧
    (out (exec .barc (armed (st0.onMe fun t => { t with handler := true })))).me.cause = 0x08 ∧
    (out (exec (.atom 7 1 7 2 (acc .sp .i32)) (armed { st0 with detmode := true }))).me.cause = 0x10 ∧
    accessForm st0 (.ld 10 7 (acc .sp .i64)) = some (0x1000, acc .sp .i64) ∧ accessRegs (.ld 10 7 (acc .sp .i64)) = [7] ∧
    (out (exec (.ld 10 7 { acc .sp .i64 with off := 1 }) (armed st0))).me.cause = 0x06 ∧
    (out (exec (.ld 10 7 { acc .sp .i64 with off := 1 }) (armed st0))).me.faultva = 0x1001 ∧
    (out (exec (.ld 10 7 (acc .sp .i64)) (armed (regs [(7, 0x100000)] st0)))).me.cause = 0x05 ∧
    (out (exec (.ld 10 8 (acc .ws .i64)) (armed (regs [(8, 0x10000000)] st0)))).me.cause = 0x05 := by decide +kernel

/-- An open region. -/
def inRegion : State := armed (st0.onMe fun t => { t with region := true })

theorem test_ScalarChecksTrap_region : inRegion.me.region = true ∧ inRegion.me.handler = false ∧ (inRegion.vrAt inRegion.myVrId).isSome ∧
    [Instr.cas 1 6 1 (acc .gv .i64), .ratom 0 1 2 3 4 5 ⟨0, .i64, .strand, .plain⟩, .grant 1 2 3 4, .revoke 1 2, .semsig 0 1 false 0, .barc, .barg,
      .spawn 0 1, .signal 0 1, .callred { rec1 with b := imm 1 }, .cbar { rec1 with type := 0, d := none_, a := none_, b := imm 1 }].all
      (fun i => (regionForm i).isSome && decide ((out (exec i inRegion)).me.cause = 0x0F)) = true := by decide +kernel

/-- The strand's function holds all of C-die 0. -/
def ownsDie : State := inRegion.onFn 0 fun f => { f with clus0 := 0x3FFFF }

theorem test_ScalarChecksTrap_twload : ownsDie.me.region = true ∧ ownsDie.me.handler = false ∧ (ownsDie.vrAt ownsDie.myVrId).isSome ∧
    ownsDie.holdsDie 0 (dieOf ownsDie.myCore) = true ∧
    (out (exec (.twload { rec1 with type := 0, d := imm 0, a := ⟨1, 6, 0, 0⟩, b := imm 64 }) ownsDie)).me.cause = 0x0F ∧
    (out (exec (.twload { rec1 with type := 0, d := imm 0, a := ⟨1, 6, 0, 0⟩, b := imm 64 }) inRegion)).me.cause = 0x08 := by decide +kernel

/-! ## Records -/

/-- A descriptor of 65,536 bytes from `0x10000 * k` in a format, with its geometry and scales. -/
def desc (k : Nat) (f : Fmt) : BitVec 128 :=
  BitVec.ofNat 128 (0x10000 * k + 2 ^ 40 + f.toNat * 2 ^ 48 + (if isMx f then 2 * 2 ^ 54 + 2 ^ 58 + 0x1F00 * 2 ^ 64 else if isPb f then 2 ^ 54 + 2 ^ 59 else 0))

/-- Streams 1, 2, ... in the formats given. -/
def streams (l : List Fmt) (s : State) : State :=
  s.onMe fun t => (l.zipIdx 1).foldl (fun t e => t.setSdesc e.2 (desc e.2 e.1)) t

/-- A slot that names a stream, with stride 1 along t0. -/
def str (k : BitVec 5) : Slot := ⟨0, k, 0, 2 ^ 48⟩

/-- A record over streams 1 (D) and 2 (A), of 16 elements. -/
def rec2 : Rec := { rec1 with t0 := 16, d := str 1, a := str 2 }

/-- The conditions of RecordPasses but for its list. -/
def passes (s : State) (r : Rec) (c : Cap) (w : Wants) (k : Checks) (foots : Option (List Foot)) : Bool :=
  (recRegs r).all (fun q => decide (s.me.pois q = none)) && c.trips.all (fun n => decide (1 ≤ n ∧ n ≤ 65535)) &&
  !c.anyDesc descFieldBad && !c.formatsBad w && (!r.pe || decide (r.type = 0) || decide ((s.me.cnt r.psel.toNat).width = widthCode (fmtBits r.type))) &&
  (match foots with | some l0 => (l0 ++ statFoot r).all fun f => decide (f.hi ≤ s.myQuota) | none => false) && !s.rsbOver k.held k.extra &&
  !k.priv && (!k.region || !s.me.region) && !k.det && !k.fields && !k.types && decide (k.align = none) && !k.late

theorem recordPasses_of_passes {s : State} {r : Rec} {c : Cap} {w : Wants} {k : Checks} {foots : Option (List Foot)}
    (h : passes s r c w k foots = true) : ∃ l, RecordPasses s r c w k foots l := by
  simp only [passes, Bool.and_eq_true, List.all_eq_true, decide_eq_true_eq, Bool.not_eq_true', Bool.or_eq_true] at h
  obtain ⟨⟨⟨⟨⟨⟨⟨⟨⟨⟨⟨⟨⟨h1, h2⟩, h3⟩, h4⟩, h5⟩, h6⟩, h7⟩, h8⟩, h9⟩, h10⟩, h11⟩, h12⟩, h13⟩, h14⟩ := h
  cases foots with
  | none => simp at h6
  | some l0 =>
    refine ⟨l0 ++ statFoot r, h1, h2, ?_, h4, ?_, ⟨l0, rfl, rfl, by simpa only [List.all_eq_true, decide_eq_true_eq] using h6⟩, h7, h8, ?_, h10, h11, h12, h13, h14⟩
    · intro o ho d sl he
      simp only [Cap.anyDesc, List.any_eq_false] at h3
      have := h3 o ho
      rw [he] at this
      simpa using this
    · intro hp ht
      rcases h5 with (h5 | h5) | h5
      · simp [hp] at h5
      · exact absurd h5 ht
      · exact h5
    · intro hk
      rcases h9 with h9 | h9
      · simp [hk] at h9
      · exact h9

/-- A class 4 instruction meets the hypotheses of VectorRecordsDispatch. -/
def vecPasses (s : State) (i : Instr) : Bool :=
  i.wf && match vecForm i with
  | some (r, ok, w, bad, fs) => ok && !bad (capOf s i r) && passes s r (capOf s i r) w {} (fs (capOf s i r))
  | none => false

theorem vec_of_vecPasses {s : State} {i : Instr} (h : vecPasses s i = true) :
    ∃ r ok w bad fs l, vecForm i = some (r, ok, w, bad, fs) ∧ ok = true ∧ bad (capOf s i r) = false ∧
      RecordPasses s r (capOf s i r) w {} (fs (capOf s i r)) l := by
  simp only [vecPasses, Bool.and_eq_true] at h
  obtain ⟨-, h⟩ := h
  split at h
  · rename_i r ok w bad fs he
    simp only [Bool.and_eq_true, Bool.not_eq_true'] at h
    obtain ⟨l, hl⟩ := recordPasses_of_passes h.2
    exact ⟨r, ok, w, bad, fs, l, he, h.1.1, h.1.2, hl⟩
  · simp at h

/-- A vector state: streams of one format. -/
def allOf (f : Fmt) : State := streams [f, f, f, f] st0

theorem test_VectorRecordsDispatch : [Instr.vadd { rec2 with b := str 3 }, .vsub { rec2 with b := imm 1, se := true, stat := 0x1FFFF }, .vmul { rec2 with b := str 3 },
    .vfma { rec2 with b := str 3, c := str 4 }, .vfms { rec2 with b := str 3, c := str 4 }, .vdiv { rec2 with b := str 3 }, .vmin { rec2 with b := str 3 },
    .vmax { rec2 with b := str 3 }, .vabs { rec2 with t0 := 1024 }, .vneg rec2, .vclamp { rec2 with b := str 3, c := str 4 }, .vcmp { rec2 with b := str 3, ctl := 6 },
    .vfill { rec2 with a := imm 1, b := imm 0x10 }, .vscan { rec2 with ctl := 6 }, .vrng { rec2 with a := none_ },
    .vcopysign { rec2 with b := str 3 }, .vround { rec2 with ctl := 12 }, .vrcp rec2, .vsqrt rec2, .vrsqrt rec2, .vexp rec2, .vexp2 rec2, .vlog rec2,
    .vlog2 rec2, .vtanh rec2, .verf rec2, .vsel { rec2 with b := str 3, c := imm 1 }, .vmov rec2, .vsum { rec2 with d := ⟨0, 1, 0, 0⟩ },
    .vdot { rec2 with d := ⟨0, 1, 0, 0⟩, b := str 3 }, .vmaxr { rec2 with d := ⟨0, 1, 0, 0⟩ }, .vamax { rec2 with d := ⟨0, 1, 0, 0⟩ }].all
      (vecPasses (allOf fF32)) = true := by decide +kernel

theorem test_VectorRecordsDispatch_integer : [Instr.vand { rec2 with type := fI32, b := str 3 }, .vor { rec2 with type := fI32, b := str 3 },
    .vxor { rec2 with type := fI32, b := str 3 }, .vnot { rec2 with type := fI32 }, .vshl { rec2 with type := fI32, b := str 3 },
    .vshr { rec2 with type := fI32, b := str 3 }, .vsar { rec2 with type := fI32, b := str 3 }].all (vecPasses (allOf fI32)) = true ∧
    vecPasses (allOf fMask1) (.vnot { rec2 with type := fMask1 }) = true ∧ vecPasses (allOf fI4) (.vand { rec2 with type := fI4, b := str 3 }) = true := by
  decide +kernel

theorem test_VectorRecordsDispatch_mixed : vecPasses (streams [fF16, fF32] st0) (.vcvt { rec2 with type := fF16, type2 := fF32 }) = true ∧
    vecPasses (streams [0x20, fF32] st0) (.vquant { rec2 with type := 0x20, type2 := fF32, t0 := 32 }) = true ∧
    vecPasses (streams [fF32, 0x20, fF32] st0) (.vdeq { rec2 with type := fF32, type2 := 0x20, t0 := 32, b := str 3 }) = true := by
  decide +kernel

theorem test_VectorRecordsDispatch_tables : [Instr.vargmax { rec2 with type := fI16, d := ⟨0, 1, 0, 0⟩, b := imm 0 },
    .vtopk { rec2 with type := fI16, b := str 3, c := imm 0, ctl := 3 }, .vgath { rec2 with type := fI16, a := ⟨0, 2, 0, 0⟩, b := str 3 },
    .vscat { rec2 with type := fI16, d := ⟨0, 1, 0, 0⟩, b := str 3, ctl := 1 }].all (vecPasses (allOf fI16)) = true := by
  decide +kernel

/-- A class 5 instruction meets the hypotheses of MatrixRecordsDispatch. -/
def matPasses (s : State) (i : Instr) : Bool :=
  i.wf && match matForm s i, s.heldClaim with
  | some (r, banks, gang, w, bad, ok, fs), some k => (banks.all fun b => k.mask.getLsbD b) &&
      (match gang with | some g => decide (g = true ↔ 1 < k.rows * k.cols) | none => true) && !bad (capOf s i r) && ok (capOf s i r) &&
      passes s r (capOf s i r) w {} (fs (capOf s i r))
  | _, _ => false

theorem mat_of_matPasses {s : State} {i : Instr} (h : matPasses s i = true) :
    ∃ r banks gang w bad ok fs l k, matForm s i = some (r, banks, gang, w, bad, ok, fs) ∧ s.heldClaim = some k ∧
      (∀ b ∈ banks, k.mask.getLsbD b = true) ∧ (∀ g, gang = some g → (g = true ↔ 1 < k.rows * k.cols)) ∧ bad (capOf s i r) = false ∧
      ok (capOf s i r) = true ∧ RecordPasses s r (capOf s i r) w {} (fs (capOf s i r)) l := by
  simp only [matPasses, Bool.and_eq_true] at h
  obtain ⟨-, h⟩ := h
  split at h
  · rename_i r banks gang w bad ok fs k he hk
    simp only [Bool.and_eq_true, Bool.not_eq_true', List.all_eq_true] at h
    obtain ⟨l, hl⟩ := recordPasses_of_passes h.2
    refine ⟨r, banks, gang, w, bad, ok, fs, l, k, he, hk, h.1.1.1.1, ?_, h.1.1.2, h.1.2, hl⟩
    intro g hg
    subst hg
    have := h.1.1.1.2
    simp only [decide_eq_true_eq] at this
    exact this
  · simp at h

/-- A task of 24 clusters whose strand claims banks of one cluster or of 2 × 3. -/
def leased (k : Claim) (s : State) : State := (s.onTask 0 fun t => { t with entry := t.entry ||| 0x18#192 <<< 56 }).onMe fun t => { t with claim := some k }

/-- A record of class 5: a bf16 A and B of one reduction step, D and C absent. -/
def mrec : Rec := { rec1 with type := fBf16, type2 := fBf16, se := true, stat := 0x100, d := none_, a := str 2, b := str 3 }

/-- Bank 0 of one cluster. -/
def oneBank : State := leased ⟨1, 1, 1, 0⟩ (allOf fBf16)

theorem test_MatrixRecordsDispatch : [Instr.mma mrec, .mma { mrec with ctl := 0, d := imm 0x82 }, .mmas { mrec with c := imm 0x8000 },
    .mzero { mrec with type := fF32, type2 := 0, a := none_, b := none_ }, .mzero { mrec with type := fI32, type2 := 0, a := none_, b := none_, c := imm 0 },
    .mdrain { mrec with type2 := 0, ctl := 0x3F8, d := ⟨0, 1, 0, 0⟩, a := none_, b := none_ },
    .mfold { mrec with type := 0, type2 := 0, a := none_, b := none_ },
    .mstat { mrec with type := 0, type2 := 0, a := none_, b := none_ },
    .mfree { mrec with type := 0, type2 := 0, se := false, stat := 0, a := none_, b := none_ }].all (matPasses oneBank) = true := by decide +kernel

/-- Banks 1 and 3 of a gang of six. -/
def gangBanks : State := leased ⟨0xA, 2, 3, 18⟩ (allOf fBf16)

theorem test_MatrixRecordsDispatch_gang : [Instr.mmag { mrec with ctl := 2 }, .mmag { mrec with ctl := 0x46, c := imm 0x8000 }].all (matPasses gangBanks) = true ∧
    matPasses (leased ⟨0xA, 2, 3, 18⟩ (allOf fF32)) (.mlda { mrec with type := fF32, type2 := 0, ctl := 6, a := str 2, b := none_, c := imm 5 }) = true := by
  decide +kernel

/-- mlease of banks 0 and 1 of the strand's own cluster, and of a gang of 2 × 3. -/
def leaseRec (ctl : BitVec 10) (a : Slot) : Rec := { rec1 with type := 0, ctl := ctl, d := none_, a := a }

theorem test_MatrixLeaseGranted : let s := (st0.onMe fun t => { t with claim := none })
    let g := leased ⟨3, 2, 3, 18⟩ st0
    (∀ n ∈ (capOf s (.mlease (leaseRec 6 none_)) (leaseRec 6 none_)).trips, n = 1) ∧
    s.leaseOf (leaseRec 6 none_) (capOf s (.mlease (leaseRec 6 none_)) (leaseRec 6 none_)) = ⟨3, 1, 1, 0⟩ ∧
    s.predBad (leaseRec 6 none_) = false ∧ 0 + 1 * 1 ≤ (s.taskAt s.cur.task).m ∧ s.heldClaim = none ∧ s.me.claim = none ∧
    s.claimFree s.cur.task s.cur.key ⟨3, 1, 1, 0⟩ = true ∧ s.rivals s.cur.key = [] ∧ s.cur.slot < 4 ∧
    g.leaseOf (leaseRec 0x126 (imm 18)) (capOf g (.mlease (leaseRec 0x126 (imm 18))) (leaseRec 0x126 (imm 18))) = ⟨3, 2, 3, 18⟩ ∧
    18 + 2 * 3 ≤ (g.taskAt g.cur.task).m ∧ g.heldClaim = some ⟨3, 2, 3, 18⟩ ∧ st0.heldClaim = some ⟨1, 1, 1, 0⟩ ∧
    (out (exec (.mlease (leaseRec 6 none_)) s)).me.claim = some ⟨3, 1, 1, 0⟩ ∧
    (out (exec (.mlease (leaseRec 6 none_)) (armed st0))).me.cause = 0x08 ∧
    (out (exec (.mlease (leaseRec 0x126 (imm 18))) g)).me.pc = codeBase + 8 := by decide +kernel

/-- A class 6 instruction meets the hypotheses of TransferRecordsDispatch. -/
def trPasses (s : State) (i : Instr) : Bool :=
  i.wf && match transferRec s i with
  | some (r, c, k, fs) => passes s r c ⟨r.type, r.type, r.type, r.type⟩ k fs
  | none => false

theorem tr_of_trPasses {s : State} {i : Instr} (h : trPasses s i = true) :
    ∃ r c k fs l, transferRec s i = some (r, c, k, fs) ∧ RecordPasses s r c ⟨r.type, r.type, r.type, r.type⟩ k fs l := by
  simp only [trPasses, Bool.and_eq_true] at h
  obtain ⟨-, h⟩ := h
  split at h
  · rename_i r c k fs he
    obtain ⟨l, hl⟩ := recordPasses_of_passes h
    exact ⟨r, c, k, fs, l, he, hl⟩
  · simp at h

/-- The value of a register. -/
def rg (k : BitVec 5) : Slot := ⟨1, k, 0, 0⟩

/-- An untyped record without streams. -/
def urec : Rec := { rec1 with type := 0, d := none_, a := none_ }

/-- Logical core 0 has entry 5 of its map. -/
def mapped (s : State) : State := s.onLcore 0 fun l => { l with regions := sset Region.zero l.regions 5 ⟨dataVa, 0x8000, 0x100, true, true, .filled, [], 0, false⟩ }

theorem test_TransferRecordsDispatch : [Instr.tcopy rec2, .tcopy { rec2 with d := rg 6, t1 := 4, b := imm 0x100, se := true },
    .tcopy { rec2 with a := rg 6, t1 := 16, ctl := 2 }, .tfill { rec2 with a := imm 7 }, .tfill { rec2 with d := rg 6, a := imm 7 },
    .tfetch { rec2 with a := imm 0x1000 }, .tgather { rec2 with a := rg 6, b := str 3 },
    .tscatter { rec2 with d := rg 6, b := str 3 }].all (trPasses (allOf fF32)) = true ∧
    [Instr.tmap { urec with d := imm 63, a := rg 6, b := imm 0xFF000, c := imm 0x1000, ctl := 1 },
      .tprefetch { urec with d := imm 63 }, .tprefetch { urec with a := rg 6, b := imm (2 ^ 30), ctl := 1 }].all (trPasses st0) = true ∧
    [Instr.tunmap { urec with d := imm 5 }, .tflush { urec with d := imm 5 }].all (trPasses (mapped st0)) = true ∧
    trPasses { ownsDie with strands := st0.strands } (.twload { urec with d := imm 0, a := rg 6, b := imm 64 }) = true := by decide +kernel

/-- A tcopy to memory of 4 entries of the region store buffer, in an open region. -/
theorem test_TransferRecordsDispatch_region : trPasses ((allOf fF32).onMe fun t => { t with region := true })
    (.tcopy { rec2 with d := rg 6, t1 := 4, b := imm 0x100 }) = true := by decide +kernel

/-- Communicator 3 of two ranks. -/
def inComm (s : State) : State :=
  s.onLcore 0 fun l => { l with comms := sset none l.comms 3 (some ⟨2, [1, 1], 0, true, 0, none⟩), joined := sset none l.joined 3 (some 2) }

/-- A class 8 instruction meets the hypotheses of CollectiveRecordsDispatch. -/
def collPasses (s : State) (i : Instr) : Bool :=
  i.wf && match collRec i with
  | some r => let c := capOf s i r
    passes s r c ⟨r.type, r.type, r.type, r.type⟩ { region := true, fields := s.collBad i r c, types := !collTypeOk i r }
      (collFoots i r c ((s.commN (commOf i c)).getD 1))
  | none => false

theorem coll_of_collPasses {s : State} {i : Instr} (h : collPasses s i = true) :
    ∃ r l, collRec i = some r ∧ RecordPasses s r (capOf s i r) ⟨r.type, r.type, r.type, r.type⟩
      { region := true, fields := s.collBad i r (capOf s i r), types := !collTypeOk i r }
      (collFoots i r (capOf s i r) ((s.commN (commOf i (capOf s i r))).getD 1)) l := by
  simp only [collPasses, Bool.and_eq_true] at h
  obtain ⟨-, h⟩ := h
  split at h
  · rename_i r he
    obtain ⟨l, hl⟩ := recordPasses_of_passes h
    exact ⟨r, l, he, hl⟩
  · simp at h

theorem test_CollectiveRecordsDispatch : collPasses (streams [fN32, fN32] st0) (.cjoin { rec2 with type := fN32, t0 := 4, d := imm 15 }) = true ∧
    [Instr.callred { rec2 with b := imm 3 }, .credsc { rec2 with b := imm 3, ctl := 2 }, .callgath { rec2 with b := imm 3 },
      .cbcast { rec2 with b := imm 3, c := imm 1 }, .ctopk { rec2 with b := imm 3, c := str 3, ctl := 8 }, .cbar { urec with b := imm 3 }].all
        (collPasses (inComm (allOf fF32))) = true ∧ ((inComm st0).lcoreAt (inComm st0).myLc).lost = false ∧
    (((inComm st0).onLcore 0 fun l => { l with lost := true }).lcoreAt st0.myLc).lost = true ∧
    (out (exec (.cbar { urec with b := imm 3 }) (armed ((inComm st0).onLcore 0 fun l => { l with lost := true })))).me.cause = 0x12 ∧
    collPasses ((inComm st0).onLcore 0 fun l => { l with lost := true }) (.cbar { urec with b := imm 3 }) = true := by decide +kernel

/-- s5 poisoned, s4 = 0 or 65,536. -/
theorem test_VectorRecordsRefused : let p := armed (streams [fF32, fF32] poisoned)
    let q := armed (allOf fF32)
    vecForm (.vabs rec2) ≠ none ∧ (5 : Reg) ∈ recRegs { rec2 with a := rg 5 } ∧ p.me.pois 5 = some ⟨0x1234, 6, 2⟩ ∧
    (out (exec (.vabs { rec2 with a := rg 5 }) p)).me.cause = 0x07 ∧
    (out (exec (.vabs { rec2 with tflag := 1, t0 := 4 }) (regs [(4, 0)] q))).me.cause = 0x03 ∧
    (out (exec (.vabs { rec2 with tflag := 1, t0 := 4 }) (regs [(4, 65536)] q))).me.cause = 0x03 ∧
    (out (exec (.vabs { rec2 with tflag := 1, t0 := 4 }) (regs [(4, 16384)] q))).me.pc = codeBase + 8 ∧
    (out (exec (.vabs { rec2 with tflag := 1, t0 := 4 }) (regs [(4, 16385)] q))).me.cause = 0x05 ∧
    (out (exec (.vabs { rec2 with type := fMask1 }) q)).me.cause = 0x04 ∧ (out (exec (.vabs { rec2 with type := fF16 }) q)).me.cause = 0x04 ∧
    (out (exec (.vabs { rec2 with pe := true, psel := 1 }) (q.onMe fun t => t.setCnt 1 ⟨3, 7⟩))).me.cause = 0x04 := by decide +kernel

/-- The queue that an instruction's entry goes to, at a length one short of its depth and at its depth. -/
def fullTo (e : Engine) (n : Nat) (s : State) : State :=
  s.onCore 0 fun c => c.setEngine e { c.engine e with q := List.replicate n ⟨⟨0, 0, 0⟩, st0.me.sid, 0, 0, .nop, st0.capWord [], []⟩ }

theorem test_QueueEntriesDispatch : [(Instr.vmode .rup true 5, Engine.v), (.mmode .sr false 1, .m), (.tmode true, .t), (.qfence .c 4, .c), (.qfence .f 0, .f)].all
    (fun e => decide (entryForm e.1 = some e.2 ∧ (out (exec e.1 (fullTo e.2 (queueDepth e.2 - 1) st0))).me.pc = codeBase + 1 ∧
      (out (exec e.1 (fullTo e.2 (queueDepth e.2) st0))).me.status = .blocked)) = true := by decide +kernel

/-- A class 7 word meets the hypotheses of FabricWordsDispatch. -/
def wordPasses (s : State) (i : Instr) : Bool :=
  i.wf && match fabForm s i with
  | some (_, _, k) => (!k.region || !s.me.region) && (!k.det || !s.detmode) && (k.regs.all fun r => decide (s.me.pois r = none)) && !k.fields &&
      decide (k.align = none) && (k.foots.all fun f => decide (f.hi ≤ s.myQuota)) && !s.rsbOver k.held k.extra
  | none => false

theorem word_of_wordPasses {s : State} {i : Instr} (h : wordPasses s i = true) :
    ∃ parks vals k, fabForm s i = some (parks, vals, k) ∧ WordPasses s k := by
  simp only [wordPasses, Bool.and_eq_true] at h
  obtain ⟨-, h⟩ := h
  split at h
  · rename_i parks vals k he
    simp only [Bool.and_eq_true, List.all_eq_true, decide_eq_true_eq, Bool.not_eq_true', Bool.or_eq_true] at h
    obtain ⟨⟨⟨⟨⟨⟨h1, h2⟩, h3⟩, h4⟩, h5⟩, h6⟩, h7⟩ := h
    refine ⟨parks, vals, k, he, ?_, ?_, h3, h4, h5, h6, h7⟩
    · intro hk
      rcases h1 with h1 | h1
      · simp [hk] at h1
      · exact h1
    · intro hk
      rcases h2 with h2 | h2
      · simp [hk] at h2
      · exact h2
  · simp at h

/-- s10 the remote address, s11 a block of 256 bytes at the end of the scratchpad, s12 VR 2, s13 a token, s14 a handler, s15 a list of 64 at 0x4000, s16 a copy of 2^20 bytes. -/
def remote : State :=
  regs [(10, dataVa), (11, 2 ^ 28 + 0xFFF00), (12, 2), (13, 0x123456789), (14, 2 ^ 56 + 7), (15, 64 * 2 ^ 20 + 0x4000), (16, 2 ^ 40)] st0

/-- The access fields of a class 7 word. -/
def fm (w : Width) (se : Sem) : FMem := ⟨0, w, .strand, se⟩

theorem test_FabricWordsDispatch : [Instr.rld false 1 10 12 13 (fm .i64 .acq), .rld true 11 10 12 13 (fm .i64 .plain), .rst false 1 10 12 13 (fm .n8 .rel),
    .rst true 11 10 12 13 (fm .i8 .plain), .rsth false 1 10 12 13 14 (fm .i32 .plain), .rsth true 11 10 12 13 14 (fm .i8 .plain),
    .ratom 7 1 10 2 12 13 (fm .i32 .ar), .ratom 0 0 10 2 12 13 (fm .i8 .plain), .rcas 1 10 2 12 13 (fm .i64 .ar), .rprobe 1 10 12 13, .rfeat 1 12 13,
    .rmcast 15 10 11 (fm .i8 .rel), .rred 5 11 10 12 13 (fm .i64 .plain), .rred 7 11 10 12 13 (fm .i16 .plain), .rcopy false 16 10 12 13 0 .i8,
    .rcopy true 16 10 12 13 0 .i64].all (wordPasses remote) = true ∧
    wordPasses (remote.onMe fun t => { t with region := true }) (.rst true 11 10 12 13 (fm .i8 .plain)) = true ∧
    wordPasses (remote.onMe fun t => { t with region := true }) (.rred 0 11 10 12 13 (fm .i8 .plain)) = true ∧
    (out (exec (.rfeat 1 12 13) remote)).me.status = .parked ∧
    (out (exec (.rfeat 1 12 13) (fullTo .f 64 remote))).me.status = .blocked ∧ (out (exec (.rfeat 1 12 13) (fullTo .f 63 remote))).me.status = .parked := by
  decide +kernel

/-- s17 to s19: a window over the data page, number 4094, all rights, of VR 2. -/
def granting : State := regs [(17, dataVa), (18, dataVa + 0xFFFF), (19, 4094 + 7 * 2 ^ 12 + 2 * 2 ^ 32 + 7 * 2 ^ 52)] st0

/-- Window 4094 is open with generation 255. -/
def lastGen : State := (regs [(17, 4094)] st0).onVr 1 fun v => { v with windows := sset 0 v.windows 4094 (mkWin 5 255 1 false true 7) }

theorem test_GrantRevokeFence : (granting.vrAt granting.myVrId).isSome ∧ granting.me.region = false ∧
    granting.me.pois 17 = none ∧ granting.me.pois 18 = none ∧ granting.me.pois 19 = none ∧
    grantBad dataVa (dataVa + 0xFFFF) (4094 + 7 * 2 ^ 12 + 2 * 2 ^ 32 + 7 * 2 ^ 52) = false ∧ granting.fabricAhead = false ∧
    ((granting.vrAt 1).map fun v => (winSealed (v.win 4094), winOpen (v.win 4094))) = some (false, false) ∧
    ((out (exec (.grant 1 17 18 19) granting)).vrAt 1).map (fun v => winOpen (v.win 4094)) = some true ∧
    (lastGen.vrAt 1).map (fun v => winGen (v.win 4094)) = some 255 ∧ (out (exec (.revoke 1 17) lastGen)).me.reg 1 = 0x100 ∧
    ((out (exec (.revoke 1 17) lastGen)).vrAt 1).map (fun v => winSealed (v.win 4094)) = some true ∧
    (st0.coreAt st0.myCore).f.busyFor st0.me.sid = false ∧ st0.remoteBusy st0.me.sid = false ∧
    st0.me.rfails ++ (st0.lcoreAt st0.myLc).rfails = [] ∧ (out (exec .rfence st0)).me.pc = codeBase + 1 ∧
    ((fullTo .f 1 st0).coreAt 0).f.busyFor st0.me.sid = true ∧ (out (exec .rfence (fullTo .f 1 st0))).me.status = .blocked := by decide +kernel

/-- A queue that holds an entry of strand 0, with the footprints given, and perhaps an older one in the transfer engine. -/
def heading (e : Engine) (i : Instr) (l : List Foot) (older : Bool) : State :=
  let s := allOf fF32
  s.onCore 0 fun c =>
    let c := c.setEngine e { c.engine e with q := [⟨⟨0, 0, 0⟩, s.me.sid, 7, 0, i, capOf s i rec2, l⟩] }
    if older then { c with m := { c.m with q := [⟨⟨0, 0, 0⟩, s.me.sid, 3, 0, .nop, s.capWord [], [⟨0, 0x20000, true⟩]⟩] } } else c

/-- The head of the queue, whether its owner lives and whether it conflicts. -/
def headed (s : State) (e : Engine) : Option (Bool × Bool × Bool) :=
  match ((s.coreAt 0).engine e).q with
  | x :: _ => some (s.ownerAlive x, s.conflicting 0 e x, x.isFence)
  | [] => none

theorem test_RecordsLeaveQueueInOrder : swf Strand.init (heading .v (.vabs rec2) [⟨0x10000, 0x10040, true⟩] false).strands = true ∧
    headed (heading .v (.vabs rec2) [⟨0x10000, 0x10040, true⟩] false) .v = some (true, false, false) ∧
    headed (heading .v (.vabs rec2) [⟨0x10000, 0x10040, true⟩] true) .v = some (true, true, false) ∧
    headed (heading .t (.tcopy rec2) [⟨0x10000, 0x10040, true⟩] false) .t = some (true, false, false) ∧
    ((heading .v (.vabs rec2) [] false).coreAt 0).v.run = none ∧ (heading .v (.vabs rec2) [] false).budgetHeld 1 0 = false ∧
    (((out (exec (.recordLeavesQueue 0 .v) (heading .v (.vabs rec2) [⟨0x10000, 0x10040, true⟩] false))).coreAt 0).v.run).isSome ∧
    (((out (exec (.recordLeavesQueue 0 .v) (heading .v (.vabs rec2) [⟨0x10000, 0x10040, true⟩] true))).coreAt 0).v.run).isNone ∧
    (((out (exec (.recordLeavesQueue 0 .t) (heading .t (.tcopy rec2) [⟨0x10000, 0x10040, true⟩] false))).coreAt 0).t.run).isSome ∧
    (((out (exec (.recordLeavesQueue 0 .v) (heading .v (.vmode .rup true 5) [] false))).strandAt 0).vm = ⟨.rup, true, 5⟩) ∧
    ((out (exec (.recordLeavesQueue 0 .t) (heading .t (.tmode true) [] false))).strandAt 0).etr = true := by
  decide +kernel

/-! ## Task end, regions, faults, tiers -/

theorem sget_cases {α : Type} (d : α) (m : SMap α) (k : Nat) : sget d m k = d ∨ ∃ e ∈ m, e.2 = sget d m k := by
  induction m with
  | nil => exact .inl rfl
  | cons e t ih =>
    unfold sget
    split
    · exact .inr ⟨e, by simp, rfl⟩
    · rcases ih with ih | ⟨x, hx, h⟩
      · exact .inl ih
      · exact .inr ⟨x, by simp [hx], h⟩

/-- Nothing is held: over the lists that State keeps. -/
def quiet (s : State) : Bool :=
  s.hold.isEmpty && (s.strands.all fun e => e.2.pending.isEmpty) && s.lcores.all fun e => e.2.pending.isEmpty

theorem quiet_of {s : State} (h : quiet s = true) : Quiet s := by
  simp only [quiet, Bool.and_eq_true, List.all_eq_true, List.isEmpty_iff] at h
  refine ⟨h.1.1, fun k => ?_, fun lc => ?_⟩
  · rcases sget_cases Strand.init s.strands k with hk | ⟨e, he, hk⟩
    · exact (congrArg Strand.pending hk).trans rfl
    · exact (congrArg Strand.pending hk).symm.trans (h.1.2 e he)
  · rcases sget_cases LCore.init s.lcores lc with hk | ⟨e, he, hk⟩
    · exact (congrArg LCore.pending hk).trans rfl
    · exact (congrArg LCore.pending hk).symm.trans (h.2 e he)

/-- Task 0 with all its strands retired, a failure left over or a lost peer. -/
def ended (errs : List Failure) (lost : Bool) : State :=
  ({ st0 with strands := [] }.onLcore 0 fun l => { l with errs := errs }).onTask 0 fun t => { t with lost := lost }

/-- Task 0 stopping, its work done. -/
def stopping : State := { st0 with strands := [] }.onTask 0 fun t => { t with phase := .stopping, status := 0x0D, cls := 6, energy := 25000000 }

theorem test_TaskEnds : (st0.taskAt 0).phase = .running ∧ 0 ∈ st0.lcsOf 0 ∧ st0.haltLine 0 = false ∧
    ((ended [] false).lcsOf 0).all (ended [] false).haltLine = true ∧ (ended [] false).dirty ((ended [] false).lcsOf 0) = [] ∧
    (ended [] false).leftover 0 = none ∧ (ended [⟨9, 0x0D, 4, 0⟩, ⟨5, 0x0C, 7, 0⟩] true).leftover 0 = some ⟨5, 0x0C, 7, 0⟩ ∧
    (out (exec (.endTaskWriteback 0) (ended [] true))).taskAt 0 = { (ended [] true).taskAt 0 with phase := .stopping, status := 0x12, cls := 8 } ∧
    ((out (exec (.endTaskWriteback 0) (ended [⟨9, 0x0D, 4, 0⟩, ⟨5, 0x0C, 7, 0⟩] true))).taskAt 0).status = 0x0C ∧
    (stopping.taskAt 0).phase = .stopping ∧ stopping.taskDone 0 = true ∧ (stopping.taskAt 0).spawn = none ∧
    stopping.hasMem (16 * (stopping.taskAt 0).cpa.toNat) = true ∧ (out (exec (.completionSignalWrite 0) stopping)).mem.read 0 8 = 0x0D600001 ∧
    (out (exec (.completionSignalWrite 0) stopping)).mem.read 8 8 = 2 ∧ (out (exec (.completionSignalWrite 0) stopping)).binds = [] := by
  decide +kernel

/-- Region 5 over the data page, unfilled or not, from an address. -/
def regionAt (va : Word) (st : RState) : State :=
  st0.onLcore 0 fun l => { l with regions := sset Region.zero l.regions 5 ⟨va, 0x8000, 64, true, true, st, [], 0, false⟩ }

/-- The supervisor has refused the fill of region 5. -/
def refusing : State := { regionAt (2 ^ 50) .unfilled with denied := [(.region 0 5, 1, 2 ^ 34)] }

/-- Task 0 stopping with one recorded twload of 64 bytes. -/
def listed : State := stopping.onLcore 0 fun l => { l with twloads := [⟨dataVa.toNat, 0x80, 64, codeBase⟩] }

theorem test_RegionFillsAndStoreCopies : swf Strand.init (regionAt dataVa .filled).strands = true ∧ lckey 0 0 = 0 ∧
    (((regionAt dataVa .unfilled).lcoreAt 0).reg 5).st = .unfilled ∧ (regionAt dataVa .unfilled).budgetHeld ((regionAt dataVa .unfilled).taskAt 0).vr 0 = false ∧
    (match (regionAt dataVa .unfilled).gvRead ((regionAt dataVa .unfilled).mapAcc 0 5 rR) dataVa.toNat 64 with
      | (_, .ok bs) => decide (bs.take 2 = [1, 2]) | _ => false) = true ∧
    ((out (exec (.regionFill 0 0 5) (regionAt dataVa .unfilled))).lcoreAt 0).sp.bytes 0x8000 3 = [1, 2, 3] ∧
    (match refusing.gvRead (refusing.mapAcc 0 5 rR) (2 ^ 50) 64 with
      | (_, .refused x) => decide (x = 2 ^ 50) | _ => false) = true ∧ ((refusing.lcoreAt 0).reg 5).st = .unfilled ∧
    (listed.taskAt 0).phase = .stopping ∧ listed.dieInUse (listed.diesOf 0) = false ∧
    ((listed.lcsOf 0).flatMap fun lc => (listed.lcoreAt lc).twloads.map fun w => (lc, w)) = [(0, ⟨dataVa.toNat, 0x80, 64, codeBase⟩)] ∧
    dataVa.toNat % 65536 + 64 ≤ 65536 ∧ (match listed.gvRead (listed.applyAcc 0) dataVa.toNat 64 with
      | (_, .ok bs) => decide (bs.take 2 = [1, 2]) | _ => false) = true ∧
    Mem.bytes (sget [] (out (exec (.twloadApply 0) listed)).ws 0) 0x80 3 = [1, 2, 3] ∧ st0.hasLists 0 = false := by
  decide +kernel

/-- A fault on the page after the data page, which no range declares or one does, with room in HBM4E. -/
def faulted (gvs : List GvRange) : State :=
  { (st0.onVr 1 fun v => { v with image := { v.image with gvs := gvs } }).onFn 0 (fun f => { f with hbm0 := 3, nextHbm := 0x40000 }) with
    faults := [⟨4, 1, dataVa.toNat / 65536 + 1, 0, .supervisor, [.strand 0]⟩] }

/-- The page after the data page as a declared range. -/
def nextPage : GvRange := ⟨dataVa.toNat + 65536, 65536, 7, [9, 8]⟩

theorem test_FaultsResolved : (faulted []).faultAt 5 = none ∧ ((faulted []).faultAt 4).isSome ∧ ((faulted []).vrAt 1).isSome ∧
    (((faulted []).vrAt 1).map fun v => decide (rangeAt v.image (dataVa.toNat + 65536) = none) &&
      match (faulted []).walkVr v (dataVa.toNat + 65536) with | .error .invalid => true | _ => false) = some true ∧
    quiet (faulted []) = true ∧ swf Strand.init (faulted []).strands = true ∧
    (((faulted [nextPage]).vrAt 1).map fun v => decide (v.fn = 0 ∧ rangeAt v.image (dataVa.toNat + 65536) = some nextPage) &&
      match (faulted [nextPage]).placePage v 1 (dataVa.toNat + 65536) (gvBits nextPage) [9, 8] with | (s, .ok _) => quiet s | _ => false) = some true ∧
    (out (exec (.faultResolution 4) (faulted []))).denied.length = 1 ∧ (out (exec (.faultResolution 4) (faulted [nextPage]))).denied = [] ∧
    (out (exec (.faultResolution 4) (faulted [nextPage]))).faults = [] := by decide +kernel

/-- Function 2 with one request of tag 3 outstanding, a ring of 64 responses whose last is new, and the accesses that wait. -/
def responding (w0 : Nat) : State :=
  { st0.onFn 2 (fun f => { f with
      rings := sset Ring.zero f.rings 1 ⟨0x1000006, 63, 0, true, 0⟩
      tags := sset none f.tags 3 (some ⟨77, 1, 0, 0, 0, 1⟩) }) with
    hostMem := st0.hostMem.write (0x1000000 + 16 * 63) 8 w0, faults := [⟨4, 1, 5, 77, .host (some 2), [.strand 0]⟩] }

theorem test_FaultsResolved_responses : let s := responding (3 * 2 ^ 48 + 77 * 65536 + 1)
    (st0.fnAt 2).ring 1 = Ring.zero ∧ Ring.zero.size = 0 ∧ ((s.fnAt 2).ring 1).size = 64 ∧ goodResponse (s.fnAt 2) (3 * 2 ^ 48 + 77 * 65536 + 1) 0 = some (3, ⟨77, 1, 0, 0, 0, 1⟩) ∧
    (s.fnAt 2).waiting = [] ∧ quiet s = true ∧ s.waits = [] ∧ s.waitingFor 2 77 = [⟨4, 1, 5, 77, .host (some 2), [.strand 0]⟩] ∧
    goodResponse (s.fnAt 2) (3 * 2 ^ 48 + 77 * 65536 + 2) 0 = none ∧ goodResponse (s.fnAt 2) (3 * 2 ^ 48 + 76 * 65536) 0 = none ∧
    (out (exec (.responseRecord 2) s)).denied = [(.strand 0, 1, 5)] ∧ (out (exec (.responseRecord 2) (responding (3 * 2 ^ 48 + 77 * 65536)))).denied = [] ∧
    ((out (exec (.responseRecord 2) (responding (3 * 2 ^ 48 + 76 * 65536)))).fnAt 2).ring 1 = ⟨0x1000006, 0, 0, true, 1⟩ := by decide +kernel

/-- The data page in LPDDR6 with hint 11, or in HBM4E with hint 10, and a promotion fault on it. -/
def tiered (pa tier : Nat) (free : List Word) : State :=
  { (st0.onFn 0 fun f => { f with free := free, hbm0 := 7, lp0 := 3 }) with
    mem := (st0.mem.write 0x16008 8 (pageEntry pa 0x1B + tier * 1024)).setBytes pa [6, 5, 4]
    faults := [⟨4, 1, dataVa.toNat / 65536, 0, .promote, [.strand 0]⟩] }

theorem test_PagesPromotedAndDemoted : let s := tiered lpBase 3 [0x50000]
    ((s.faultAt 4).map fun f => (s.promotable f).map fun w => (w.pa, w.last.at_)) = some (some (lpBase, 0x16008)) ∧
    (s.fnAt 0).goodFree 0x50000 = true ∧ quiet s = true ∧ ((tiered lpBase 3 []).fnAt 0).free = [] ∧
    (((tiered lpBase 3 []).faultAt 4).bind fun f => (tiered lpBase 3 []).promotable f).isSome ∧ s.fnOf 1 = 0 ∧ s.pullPages = [] := by
  decide +kernel

theorem range_single {β : Type} (f : Nat → List β) (n i : Nat) (hi : i < n) (h : ∀ j, j < n → j ≠ i → f j = []) : (List.range n).flatMap f = f i := by
  induction n with
  | zero => omega
  | succ n ih =>
    rw [List.range_succ, List.flatMap_append]
    by_cases hn : i = n
    · subst hn
      have : (List.range i).flatMap f = [] := List.flatMap_eq_nil_iff.mpr fun j hj => by
        have := List.mem_range.mp hj
        exact h j (by omega) (by omega)
      simp [this]
    · rw [ih (by omega) fun j hj hne => h j (by omega) hne]
      simp [h n (by omega) (by omega)]

theorem filterMap_single {β : Type} (f : Nat → Option β) (n i : Nat) (hi : i < n) (h : ∀ j, j < n → j ≠ i → f j = none) :
    (List.range n).filterMap f = (f i).toList := by
  rw [List.filterMap_eq_flatMap_toList]
  exact range_single _ n i hi fun j hj hne => by simp [h j hj hne]

theorem read_zero (m : Mem) (a n : Nat) (h : ∀ e ∈ m, e.1 < a ∨ a + n ≤ e.1) : Mem.read m a n = 0 := by
  induction n generalizing a with
  | zero => rfl
  | succ n ih =>
    have hb : m.byte a = 0 := by
      have hn : m.any (fun e => e.1 == a) = false := by
        simp only [List.any_eq_false, beq_iff_eq]
        intro e he hx
        have := h e he
        omega
      exact sget_of_not_any unlisted m a hn
    have := ih (a + 1) (fun e he => by have := h e he; omega)
    simp only [Mem.read, Mem.bytes, ofLeBytes, hb] at this ⊢
    simp [this]

/-- Entry `i` of a node is all that the node's function's memory lists of it. -/
def onlyEntry (s : State) (f : Fn) (node i : Nat) : Bool :=
  decide (i < 1024) && (s.mem.all fun e => decide (e.1 < node ∨ node + 8192 ≤ e.1 ∨ (e.1 - node) / 8 = i)) && decide (node % 8192 = 0) &&
  decide (node < 0x6000000000) && decide (node / 0xC0000000 = 0) && f.hbm0.getLsbD 0

theorem pte_other {s : State} {f : Fn} {node i j : Nat} (h : onlyEntry s f node i = true) (hj : j < 1024) (hne : j ≠ i) :
    s.pte f (node + 8 * j) = .ok (0, node + 8 * j, []) := by
  simp only [onlyEntry, Bool.and_eq_true, decide_eq_true_eq, List.all_eq_true] at h
  obtain ⟨⟨⟨⟨⟨-, h2⟩, h3⟩, h4⟩, h5⟩, h6⟩ := h
  have hr : s.mem.read (node + 8 * j) 8 = 0 := read_zero _ _ _ fun e he => by have := h2 e he; omega
  have hm : s.hasMem (node + 8 * j) = true := by simp [State.hasMem]; left; omega
  have ho : f.owns (node + 8 * j) = true := by
    rw [Fn.owns, if_pos (by omega)]
    have : (node + 8 * j) / 0xC0000000 = 0 := by omega
    simp [this, h6]
  simp [State.pte, hr, hm, ho]

/-- The entry `i` of a node points to the next node. -/
def points (s : State) (f : Fn) (node i next : Nat) : Bool :=
  match s.pte f (node + 8 * i) with
  | .ok (e, _, _) => e.getLsbD 0 && decide (pteType e = 1 ∧ e.toNat % 2 ^ 48 / 2 ^ 13 * 2 ^ 13 = next)
  | .error _ => false

theorem leaves_step {s : State} {f : Fn} {k node i next page : Nat} (h : onlyEntry s f node i = true) (hp : points s f node i next = true) :
    leavesUnder (s.pte f) (k + 1) node page = leavesUnder (s.pte f) k next (page + i * 1024 ^ (k + 1)) := by
  have hi : i < 1024 := by simp only [onlyEntry, Bool.and_eq_true, decide_eq_true_eq] at h; exact h.1.1.1.1.1
  rw [leavesUnder, range_single _ 1024 i hi fun j hj hne => by simp [pte_other h hj hne]]
  unfold points at hp
  split at hp
  · rename_i e x y he
    simp only [Bool.and_eq_true, decide_eq_true_eq] at hp
    obtain ⟨h1, h2, rfl⟩ := hp
    simp only [he, h1, h2, Bool.not_true, Bool.false_eq_true, if_false, if_true]
  · simp at hp

/-- The entry `i` of a node is a page. -/
def pageAt (s : State) (f : Fn) (node i : Nat) (e : Word) : Bool :=
  match s.pte f (node + 8 * i) with
  | .ok (x, _, _) => decide (x = e ∧ e.getLsbD 0 = true ∧ pteType e ≠ 1 ∧ pteType e ≠ 3)
  | .error _ => false

theorem leaves_last {s : State} {f : Fn} {node i page : Nat} {e : Word} (h : onlyEntry s f node i = true) (hp : pageAt s f node i e = true) :
    leavesUnder (s.pte f) 0 node page = [(page + i, 0, e)] := by
  have hi : i < 1024 := by simp only [onlyEntry, Bool.and_eq_true, decide_eq_true_eq] at h; exact h.1.1.1.1.1
  rw [leavesUnder, filterMap_single _ 1024 i hi fun j hj hne => by simp [pte_other h hj hne]]
  unfold pageAt at hp
  split at hp
  · rename_i x _ _ he
    simp only [decide_eq_true_eq] at hp
    simp [he, hp.1, hp.2]
  · simp at hp

/-- Only the data page, in HBM4E with hint 10, is mapped, by an own chain of nodes from the root. -/
def demoting : State :=
  let s := tiered 0x30000 2 []
  let m := Mem.write [] (0x10000 + 8 * (codeVa / 2 ^ 46 % 1024)) 8 (ptrEntry 0x12000)
  let m := m.write (0x12000 + 8 * (codeVa / 2 ^ 36 % 1024)) 8 (ptrEntry 0x14000)
  let m := m.write (0x14000 + 8 * (codeVa / 2 ^ 26 % 1024)) 8 (ptrEntry 0x16000)
  { s with mem := (m.write 0x16008 8 (pageEntry 0x30000 0x1B + 2 * 1024)).setBytes 0x30000 [6, 5, 4] }

theorem demoting_leaves : ∀ v, demoting.vrAt 1 = some v → v.fn = 0 → v.root = 0x10000 →
    demoting.leavesOf v = [(dataVa.toNat / 65536, 0, BitVec.ofNat 64 (pageEntry 0x30000 0x1B + 2 * 1024))] := by
  intro v _ hf hr
  have f0 : demoting.fnAt v.fn = demoting.fnAt 0 := by rw [hf]
  rw [State.leavesOf, if_pos hf, hr, f0]
  rw [leaves_step (k := 2) (i := codeVa / 2 ^ 46 % 1024) (next := 0x12000) (by decide +kernel) (by decide +kernel),
    leaves_step (k := 1) (i := codeVa / 2 ^ 36 % 1024) (next := 0x14000) (by decide +kernel) (by decide +kernel),
    leaves_step (k := 0) (i := codeVa / 2 ^ 26 % 1024) (next := 0x16000) (by decide +kernel) (by decide +kernel),
    leaves_last (i := 1) (e := BitVec.ofNat 64 (pageEntry 0x30000 0x1B + 2 * 1024)) (by decide +kernel) (by decide +kernel)]
  decide +kernel

/-- The page that hbmPages gives of a leaf of VR 1. -/
def candOf (s : State) (v : Vr) (l : LeafAt) : Option (Nat × Nat × Leaf × Nat) :=
  match s.walkVr v (l.1 * 65536) with
  | .ok w => if pteType w.s1.e = 0 ∧ w.last.lvl = 0 ∧ w.pa < 0x6000000000 then some (1, l.1, w.last, w.pa) else none
  | .error _ => none

theorem test_PagesPromotedAndDemoted_demotion : (demoting.fnAt 0).free = [] ∧ demoting.pullPages = [] ∧
    nextIn (demoting.fnAt 0).lpSlice lpBase 0x200000000 128 (Nat.max (demoting.fnAt 0).nextLp lpBase) = some lpBase ∧ demoting.hasMem lpBase = true ∧
    lpBase % 65536 = 0 ∧ 0x16008 + 8 ≤ lpBase ∧
    ((demoting.onFn 0 fun f => { f with free := List.replicate 256 0 }).fnAt 0).free.length = 256 := by decide +kernel

theorem test_PagesPromotedAndDemoted_candidate : ∃ l, l.at_ = 0x16008 ∧ demoting.candidates 0 = [(1, dataVa.toNat / 65536, l, 0x30000)] := by
  have hv : demoting.vrs = [(1, some (blankVr 0x10000 blankImage))] := by decide +kernel
  have hl := demoting_leaves (blankVr 0x10000 blankImage) (by decide +kernel) rfl rfl
  have hc : (candOf demoting (blankVr 0x10000 blankImage) (dataVa.toNat / 65536, 0, 0)).map
      (fun c => (c.1, c.2.1, c.2.2.1.at_, c.2.2.2, c.2.2.1.e.extractLsb' 10 2)) =
    some (1, dataVa.toNat / 65536, 0x16008, 0x30000, 2) := by decide +kernel
  obtain ⟨c, hc1, hc2⟩ := Option.map_eq_some_iff.mp hc
  obtain ⟨c1, c2, l, c4⟩ := c
  simp only [Prod.mk.injEq] at hc2
  obtain ⟨rfl, rfl, h3, rfl, h5⟩ := hc2
  have hp : demoting.hbmPages 1 (blankVr 0x10000 blankImage) = [(1, dataVa.toNat / 65536, l, 0x30000)] := by
    unfold State.hbmPages
    rw [hl]
    unfold candOf at hc1
    simp only [List.filterMap_cons, List.filterMap_nil]
    split at hc1
    · rename_i w hw
      split at hc1
      · rename_i hcond
        simp only [hw, if_pos hcond]
        simp only [Option.some.injEq] at hc1
        rw [hc1]
      · simp at hc1
    · simp at hc1
  have hfn : (blankVr 0x10000 blankImage).fn = 0 := rfl
  refine ⟨l, h3, ?_⟩
  unfold State.candidates
  rw [hv]
  simp [hfn, hp, h5]

/-! ## Gangs, power, banks -/

/-- Two tasks of one cluster each that share cluster 0 in time, task 0 present; task 0's strand at a yield and a rotation due, or not. -/
def sharedBy (y : Bool) : State :=
  { (st0.onMe fun t => { t with atYield := y }).onCore 0 fun c => { c with rotate := y } with binds := [(0, placeBind + 2 ^ 61), (1, placeBind + 2 ^ 61 + 2 ^ 53)] }

/-- A pre-emption request with a deadline of 100 cycles, made at cycle 0. -/
def preempting (st : Status) (c : Word) : State :=
  { (st0.onTask 0 fun t => { t with preq := true, deadline := 100 }).onMe fun t => { t with status := st, restart := 9 } with cycle := c }

/-- Task 0 pre-empted, unbound. -/
def preempted : State := { ((st0.onFn 0 fun f => { f with clus0 := 1 }).onTask 0 fun t => { t with phase := .preempted, preq := true }).onMe (fun t => { t with status := .yielded }) with binds := [] }

/-- A watchdog limit of 3 (times 65,536 cycles) and the cycles so far. -/
def watched (n : Nat) : State := st0.onTask 0 fun t => { t with entry := t.entry ||| (3#192 <<< 160), eligible := n }

theorem test_GangsShareTime : (sharedBy true).sharers 0 = [0, 1] ∧ ((sharedBy true).coreAt 0).present = 0 ∧ (sharedBy true).coResident 0 0 = false ∧
    (sharedBy true).mayRotate 0 ((sharedBy true).lcOn 0 0) = true ∧ IsNext [0, 1] 0 1 ∧ IsNext [0, 1] 1 0 ∧ ((sharedBy true).coreAt 0).replies = [] ∧
    (sharedBy false).mayRotate 0 ((sharedBy false).lcOn 0 0) = false ∧ st0.coResident 0 0 = true ∧ 0 ∈ st0.sharers 0 ∧
    swf Strand.init (sharedBy true).strands = true ∧
    ((out (exec (.rotation 0) (sharedBy true))).coreAt 0).present = 1 ∧ ((out (exec (.rotation 0) (sharedBy true))).coreAt 0).rotate = false ∧ ((out (exec (.rotation 0) (sharedBy false))).coreAt 0).present = 0 := by
  refine ⟨?_, ?_, ?_, ?_, ⟨by decide, .inl ⟨by decide, by decide⟩⟩, ⟨by decide, .inr ⟨by decide, by decide⟩⟩, ?_⟩ <;> decide +kernel

theorem test_GangsShareTime_preemption : (st0.taskAt 0).phase = .running ∧ (st0.taskAt 0).preq = false ∧
    ((preempting .ready 99).taskAt 0).preq = true ∧ ((preempting .ready 99).taskAt 0).reqAt + ((preempting .ready 99).taskAt 0).deadline.toNat = 100 ∧
    (preempting .ready 100).expiring 0 0 = [0] ∧ swf Strand.init (preempting .ready 100).strands = true ∧ (preempting .ready 100).clean 0 = false ∧
    (preempting .yielded 5).clean 0 = true ∧ ((preempting .yielded 5).cores.all fun e => decide (e.2.replies = [])) = true ∧
    (out (exec (.deadlineExpiry 0 0) (preempting .ready 100))).me.pc = 9 ∧ (out (exec (.deadlineExpiry 0 0) (preempting .ready 99))).me.pc = codeBase ∧
    ((out (exec (.gangRelease 0) (preempting .yielded 5))).taskAt 0).phase = .preempted ∧ (out (exec (.gangRelease 0) (preempting .yielded 5))).binds = [] ∧
    ((out (exec (.preemptRequest 0 7) st0)).taskAt 0).deadline = 7 := by decide +kernel

theorem test_GangsShareTime_resume : (preempted.taskAt 0).phase = .preempted ∧ (preempted.bindAll [(0, placeBind)]).2 = true ∧
    (preempted.bindAll [(0, placeBind)]).1.allBound 0 = true ∧ swf Strand.init preempted.strands = true ∧
    (out (exec (.gangResume 0 [(0, placeBind)]) preempted)).me.status = .ready ∧ ((watched 0).taskAt 0).wdog = 3 ∧
    ((out (exec (.watchdogExpiry 0) (watched 196607))).taskAt 0).phase = .running ∧ ((out (exec (.watchdogExpiry 0) (watched 196608))).taskAt 0).phase = .stopping ∧
    ((out (exec (.watchdogExpiry 0) (watched 196608))).taskAt 0).status = 0x40 := by decide +kernel

theorem test_PowerBudgetsAndBanks : st0.detmode = false ∧ st0.clockStep = 16 ∧ (out (exec (.powerWindowEnd 2801) st0)).clockStep = 15 ∧
    (out (exec (.powerWindowEnd 2800) st0)).clockStep = 16 ∧ (out (exec (.powerWindowEnd 2699) { st0 with clockStep := 8 })).clockStep = 9 ∧
    (out (exec (.powerWindowEnd 2801) { st0 with clockStep := 8 })).clockStep = 8 ∧
    ((out (exec (.powerWindowEnd 2801) { st0 with detmode := true })).taskAt 0).status = 0x11 ∧ st0.isPackage = false ∧
    ({ st0 with isPackage := true } : State).isPackage = true ∧ (out (exec (.powerWindowEnd 2801) { st0 with isPackage := true })).clockStep = 16 := by decide +kernel

/-- Allotments and balances of function 3: 1,000 limited, at the start of a period, with 2,500 left. -/
def budgeted (c : Word) : State :=
  { (st0.onFn 3 fun f => { f with allot := sset 0xFFFFFFFF f.allot 0 1000, bal := sset 0 f.bal 0 2500 }) with cycle := c }

/-- Bank 5 of core 7 or of weight store 2 is gated. -/
def gatedAt (b : BankId) : State := out (exec (.bankGate b true) st0)

/-- Two cached translations of VR 1, for pages 16 to 31 and page 40. -/
def cached : State :=
  { st0 with cores := sset Core.init st0.cores 3 { Core.init with tlb := [⟨1, 0, 16, 16, 0, 0, false⟩] }, ftlb := [(0, [⟨1, 0, 40, 1, 0, 0, false⟩])] }

/-- A trigger due at cycle 16. -/
def triggered (c : Word) : State := { out (exec (.snap 9) st0) with cycle := c }

theorem test_PowerBudgetsAndBanks_budgets : (budgeted 1048575).cycle.toNat < (budgeted 1048575).periodAt ∧ (budgeted 1048576).periodAt = 1048576 ∧
    quiet (budgeted 1048576) = true ∧ swf Fn.init (budgeted 1048576).fns = true ∧ ((budgeted 1048576).fnAt 3).allotOf 0 = 1000 ∧
    ((budgeted 1048576).fnAt 3).allotOf 1 = 0xFFFFFFFF ∧ ((out (exec .budgetPeriodBoundary (budgeted 1048576))).fnAt 3).balOf 0 = 3000 := by
  decide +kernel

theorem test_PowerBudgetsAndBanks_banks : st0.coreInUse 3 = true ∧ st0.coreInUse 4 = false ∧ st0.fusedAt 1 = false ∧ ({ st0 with bin := .s272 } : State).fusedAt 0 = true ∧
    ({ st0 with bin := .s272 } : State).fusedAt 1 = false ∧ sget false (st0.coreAt 7).gated 5 = false ∧
    sget false ((gatedAt (.spad 7 5)).coreAt 7).gated 5 = true ∧ st0.dieInUse [0] = true ∧ st0.dieInUse [2] = false ∧ st0.dieInUse [3] = false ∧
    sget false (gatedAt (.ws 2 5)).wsGated 37 = true ∧ sget false (gatedAt (.ws 3 15)).wsGated 63 = true ∧ sget false (gatedAt (.ws 0 0)).wsGated 0 = false ∧
    sget false ((out (exec (.bankGate (.spad 7 5) false) (gatedAt (.spad 7 5)))).coreAt 7).waking 5 = true ∧ swf Strand.init st0.strands = true := by
  decide +kernel

theorem test_PowerBudgetsAndBanks_invalidation : swf Core.init cached.cores = true ∧ swf [] cached.ftlb = true ∧ invNames (.range 1 31 40) ⟨1, 0, 16, 16, 0, 0, false⟩ = true ∧
    invNames (.range 1 31 40) ⟨1, 0, 40, 1, 0, 0, false⟩ = false ∧ (sget [] (out (exec (.invalidation (.range 1 31 40)) cached)).ftlb 0).length = 1 ∧
    ((out (exec (.invalidation (.range 1 31 40)) cached)).coreAt 3).tlb = [] := by decide +kernel

/-- Every block of the chip still writes an earlier record. -/
def snapBusy : State :=
  { triggered 16 with sup := { (triggered 16).sup with snapBusy := (triggered 16).blocks.foldl (fun m b => sset 0 m (4096 * b.1 + b.2.1) 17) [] } }

theorem test_PowerBudgetsAndBanks_snapshot : (triggered 16).sup.latching = [(9, 16)] ∧ (triggered 15).cycle.toNat < 16 ∧ (triggered 16).sup.dropped = [] ∧
    (triggered 16).sup.snapBusy = [] ∧ (triggered 16).sup.ring.length + (triggered 16).blocks.length ≤ 4096 ∧
    (snapBusy.blocks.all fun b => decide (16 < sget 0 snapBusy.sup.snapBusy (4096 * b.1 + b.2.1))) = true := by decide +kernel

/-! ## Admission, requests at their destination -/

/-- A launch of VR 1 for task entry 3, of a priority and with one phase of a length and an energy. -/
def launchOf (prio dur energy : Nat) : Launch := ⟨0x01000007, 0, 1, 5, prio, 9, 0x40, [(dur, energy)], [], 3, none, [], 0⟩

/-- Function 0 holds 18 clusters; a launch waits. -/
def launching (l : Launch) : State :=
  { st0.onFn 0 (fun f => { f with clus0 := 0x3FFFF }) with sup := { st0.sup with launches := [l] } }

/-- A bind of cluster 1 to task 3's cluster 0. -/
def bind3 : List (Nat × Word) := [(4, placeBind + 3 * 2 ^ 53)]

theorem test_TasksAdmitted : let s := launching (launchOf 1 1000 2000)
    st0.nextLaunch = none ∧ s.nextLaunch = some (launchOf 1 1000 2000) ∧ ((s.vrAt 1).map fun v => (v.m, v.fn)) = some (1, 0) ∧
    s.indexFree 3 = true ∧ s.indexFree 0 = false ∧ s.bindsFree 0 bind3 = true ∧ s.powerOk (peakOf (launchOf 1 1000 2000).phases) = true ∧
    s.bindsFree 0 [(0, placeBind)] = false ∧ s.powerOk (peakOf (launchOf 1 1000 2264).phases) = false ∧
    s.powerOk (peakOf (launchOf 1 1000 2263).phases) = true ∧
    s.victim 0 = none ∧ s.victim 1 = some 0 ∧ s.entryCode 3 (mkEntry 1 1 0 5 1 0x40 9) = none ∧
    s.vrs.all (fun e => e.2.all fun v => !v.cold) = true ∧ (s.warm 1).isSome ∧
    ((out (exec (.admitStepTask 3 bind3) s)).taskAt 3).step = 5 ∧ ((out (exec (.admitStepTask 3 bind3) s)).taskAt 3).prio = 1 ∧
    ((out (exec (.admitStepTask 3 bind3) s)).taskAt 3).wdog = 9 ∧ ((out (exec (.admitStepTask 3 bind3) s)).taskAt 3).cpa = 0x40 ∧
    ((out (exec (.admitStepTask 3 bind3) s)).sup.launches.map fun l => (l.task, l.binds)) = [(some 3, bind3)] := by decide +kernel

/-- A spawned request of VR 1's template 0. -/
def spawn1 : Spawned := ⟨1, ⟨0, 77, 0, codeBase, 0, 8⟩, 2, 0⟩

/-- It waits for admission; the template enters at word 6. -/
def spawned : State :=
  let s := launching (launchOf 1 1 1)
  { s.onVr 1 (fun v => { v with image := { v.image with entries := [⟨true, 2, none, 6, 40⟩] } }) with
    sup := { s.sup with launches := [], spawned := [spawn1] } }

/-- The spawned task's entry is written, its clusters bound. -/
def spawnBound : Option (Option Nat × Bool × Bool) :=
  (({ spawned with sup := { spawned.sup with spawned := [] } } : State).warm 1).map fun s2 =>
    let w := s2.slotWrite (288 + 3) (mkEntry 1 2 0 9 1 0 40)
    let b := (w.1.onTask 3 fun t => { t with sparg := 77, spawn := some ⟨0, 77, 0⟩, launch := 0 }).bindAll bind3
    (w.2, b.2, b.1.allBound 3)

theorem test_TasksAdmitted_spawn : let s := spawned
    st0.nextSpawned = none ∧ s.nextSpawned = some spawn1 ∧
    ((s.vrAt 1).map fun v => (templates v.image)[0]?) = some (some ⟨true, 2, none, 6, 40⟩) ∧ s.indexFree 3 = true ∧ s.bindsFree 0 bind3 = true ∧
    s.powerOk (0, 1) = true ∧ s.victim 2 = some 0 ∧ s.bindsFree 0 [(0, placeBind)] = false ∧ s.indexFree 0 = false ∧
    spawnBound = some (none, true, true) ∧
    ((out (exec (.spawnAdmit 1 3 bind3) s)).taskAt 3).phase = .running ∧
    ((out (exec (.spawnAdmit 1 3 bind3) s)).strandAt (lckey 3 3 * 4)).pc = codeBase + 6 := by decide +kernel

/-- Function 0's event ring of 64 records at its last place, with an event or a signal. -/
def eventing (events : List (List Word)) (signals : List (List Word × Nat)) : State :=
  { st0.onFn 0 (fun f => { f with rings := sset Ring.zero f.rings 2 ⟨0x1000006, 1, 63, true, 0⟩, events := events }) with
    sup := { st0.sup with signals := signals } }

theorem test_TasksAdmitted_relay : let s := eventing [[1, 2, 3, 4]] [([5, 6, 7, 8], 0)]
    let t := eventing [] [([5, 6, 7, 8], 0)]
    swf Fn.init s.fns = true ∧ (s.fns.find? (fun e => !e.2.events.isEmpty && (e.2.ring 2).room)).map (fun e => (e.1, e.2.events)) = some (0, [[1, 2, 3, 4]]) ∧
    t.fns.find? (fun e => !e.2.events.isEmpty && (e.2.ring 2).room) = none ∧
    t.sup.signals.find? (fun g => ((t.fnAt g.2).ring 2).room) = some ([5, 6, 7, 8], 0) ∧
    (out (exec .signalRelay s)).hostMem.bytes (0x1000000 + 32 * 63) 9 = [1, 0, 0, 0, 0, 0, 0, 0, 2] ∧
    ((out (exec .signalRelay s)).fnAt 0).ring 2 = ⟨0x1000006, 1, 0, false, 0⟩ ∧ (out (exec .signalRelay t)).sup.signals = [] ∧
    (st0.sup.signals.find? (fun g => ((st0.fnAt g.2).ring 2).room)) = none := by decide +kernel

/-- VR 1 lets VR 2 act on the data page through window 7 of generation 3. -/
def windowed : State := st0.onVr 1 fun v => { v with windows := sset 0 v.windows 7 (mkWin (dataVa.toNat + 65535) 3 dataVa.toNat false true 7) }

/-- The token that VR 1's key of zeros gives for that window with all rights, generation 3 and holder 0x0102. -/
def tok7 : Word := 1422497581246120194

theorem tok7_good : tokenMac 0 (tok7.toNat % 2 ^ 40) 1 2 = tok7.extractLsb' 40 24 := by decide +kernel

/-- A first request of VR 2 to VR 1. -/
def pkt (op : BitVec 8) (fmt : Fmt) (sub : BitVec 7) (va : Nat) (data : List Byte) : Packet :=
  { srcEp := st0.endpoint, dstEp := st0.endpoint, hop := 0, vc := 0, token := tok7, op := op, cls := 0, sem := 0, scope := 0, sub := sub,
    dstvr := 1, srcvr := 2, fmt := fmt, va := BitVec.ofNat 56 va, pseq := 1, cseq := 1, data := data }

/-- The request meets InOrder, its VR is Here, its window allows it and its operation is supported. -/
def inOrder (s : State) (p : Packet) : Bool :=
  match s.vrAt p.dstvr.toNat with
  | some v => reqFormed p && !(s.srcAt p.dstvr.toNat p.srcvr.toNat).quar && decide (v.key = 0 ∧ p.token = tok7 ∧ p.dstvr = 1 ∧ p.srcvr = 2) && seqAbove (s.srcAt p.dstvr.toNat p.srcvr.toNat).high p.pseq &&
      decide ((s.srcAt p.dstvr.toNat p.srcvr.toNat).place p.cls.toNat p.cseq = 0) && s.hold.isEmpty && decide (v.moving = .no) &&
      winAllows v p (reqLen p) && reqSupported p && (arrivalStep p).isSome && !isCollective p
  | none => false

theorem inOrder_of {s : State} {p : Packet} (h : inOrder s p = true) : ∃ v i, arrivalStep p = some i ∧ InOrder s p v ∧ Here v ∧
    winAllows v p (reqLen p) = true ∧ reqSupported p = true ∧ isCollective p = false := by
  unfold inOrder at h
  split at h
  · rename_i v hv
    simp only [Bool.and_eq_true, Bool.not_eq_true', decide_eq_true_eq, List.isEmpty_iff, Option.isSome_iff_exists] at h
    obtain ⟨⟨⟨⟨⟨⟨⟨⟨⟨⟨h1, h2⟩, h3⟩, h4⟩, h5⟩, h6⟩, h7⟩, h8⟩, h9⟩, ⟨i, h10⟩⟩, h11⟩ := h
    obtain ⟨k1, k2, k3, k4⟩ := h3
    refine ⟨v, i, h10, ⟨h1, hv, h2, ?_, h4, h5, h6⟩, h7, h8, h9, h11⟩
    simp only [tokenGood, k1, k2, k3, k4, decide_eq_true_eq]
    exact tok7_good
  · simp at h

/-- A read of 8, a store of 3, a store with handler, two atomics, a compare and swap, a probe, a query, a multicast store, a reducing store. -/
def someRequests : List Packet :=
  [pkt 1 0 0 (dataVa.toNat + 65528) (leBytes 8 8), pkt 2 0 0 (dataVa.toNat + 65533) [7, 8, 9], pkt 3 0 0 dataVa.toNat (leBytes 8 0x55 ++ [1, 2]),
    pkt 4 5 0 dataVa.toNat (leBytes 8 3), pkt 4 0x12 7 dataVa.toNat (leBytes 8 3), pkt 5 7 0 dataVa.toNat (leBytes 8 0x0807060504030201 ++ leBytes 8 9),
    pkt 6 0 0 dataVa.toNat [], pkt 7 0 0 dataVa.toNat [], pkt 8 0 0 dataVa.toNat [1], pkt 9 5 3 dataVa.toNat [1, 0, 0, 0]]

theorem test_RequestsAtDestination : someRequests.all (inOrder windowed) = true ∧ windowed.budgetHeld 1 0 = false ∧
    (someRequests.all fun p => decide (p.op ≤ 9 ∧ p.va.toNat % 65536 + reqLen p ≤ 65536)) = true := by decide +kernel

/-- What a request does with memory at an address, and the status recorded. -/
def doing (p : Packet) (pa n : Nat) : Nat × Option (Option Dedup) :=
  match arrivalStep p with
  | some i => let t := out (exec i windowed); (t.mem.read pa n, (t.vrAt 1).map fun v => sget none (sget SrcWin.init v.srcs 2).recs 1)
  | none => (0, none)


theorem test_requests : doing (pkt 5 7 0 dataVa.toNat (leBytes 8 0x0807060504030201 ++ leBytes 8 9)) 0x30000 8 =
    (9, some (some ⟨true, 0, leBytes 8 0x0807060504030201 ++ leBytes 8 0⟩)) := by decide +kernel

/-- The window of VR 2 on VR 1 with what VR 1 knows of VR 2. -/
def knowing (f : SrcWin → SrcWin) : State := windowed.onSrc 1 2 f

/-- Not formed; to no VR; to a VR elsewhere; from a quarantined source; a bad token the 16th time; to a VR that leaves; a duplicate; out of order. -/
theorem test_RequestsAtDestination_turned_away : reqFormed (pkt 2 0 0 0 []) = false ∧ reqFormed (pkt 1 0 0 0 (leBytes 8 257)) = false ∧
    windowed.vrAt 9 = none ∧ windowed.locOf 9 = none ∧ ({ windowed with location := [(9, some 77)] } : State).locOf 9 = some 77 ∧
    windowed.endpoint.toNat ≠ 77 ∧ windowed.hold = [] ∧ ((knowing fun w => { w with quar := true }).srcAt 1 2).quar = true ∧
    tokenGood 0 { pkt 2 0 0 0 [1] with token := tok7 + 1 } = false ∧ ((knowing fun w => { w with fails := 15 }).srcAt 1 2).fails = 15 ∧
    ((windowed.onVr 1 fun v => { v with moving := .leaving 5 }).vrAt 1).map (fun v => v.moving) = some (.leaving 5) ∧
    sget none ((knowing fun w => { (w.accept 1) with recs := [(1, some ⟨true, 3, []⟩)] }).srcAt 1 2).recs 1 = some ⟨true, 3, []⟩ ∧
    seqAbove ((knowing fun w => w.accept 1).srcAt 1 2).high 1 = false ∧ seqIn ((knowing fun w => w.accept 1).srcAt 1 2).high 1 = true ∧
    (windowed.srcAt 1 2).place 0 2 = 1 ∧ (windowed.srcAt 1 2).place 0 8192 = 2 ∧ (windowed.srcAt 1 2).place 0 8191 = 1 := by decide +kernel

/-- Outside the window; no right; a format that no atomic has; a page that the supervisor refused. -/
theorem test_RequestsAtDestination_refused : (windowed.vrAt 1).map (fun v => (winAllows v (pkt 2 0 0 (dataVa.toNat + 65535) [1]) 1,
      winAllows v (pkt 2 0 0 (dataVa.toNat + 65535) [1, 2]) 2, winAllows v { pkt 2 0 0 dataVa.toNat [1] with token := 10712937626761363456 } 1)) =
      some (true, false, false) ∧
    reqSupported (pkt 4 0x14 0 dataVa.toNat (leBytes 8 3)) = false := by
  decide +kernel

/-- The page is refused to this packet. -/
def refusedPkt : State := { windowed with
  mem := windowed.mem.write 0x16008 8 0, denied := [(.packet 2 1 1, 1, dataVa.toNat / 65536)] }

theorem test_RequestsAtDestination_page : inOrder refusedPkt (pkt 2 0 0 dataVa.toNat [1]) = true ∧ refusedPkt.budgetHeld 1 0 = false ∧
    (match ((accepted refusedPkt (pkt 2 0 0 dataVa.toNat [1])).xlate (pktAcc (pkt 2 0 0 dataVa.toNat [1])) dataVa.toNat).2 with
      | .refused _ => true | _ => false) = true ∧
    ((accepted windowed (pkt 2 0 0 dataVa.toNat [1])).xlate (pktAcc (pkt 2 0 0 dataVa.toNat [1])) dataVa.toNat).2 = .ok 0x30000 := by decide +kernel

/-- A handler for logical core 0 starts in a free slot, one for core 4 of a VR of 4 is refused, one waits behind an arrival. -/
theorem test_RequestsAtDestination_handler : (windowed.vrAt 1).map (fun v =>
      match windowed.handlerPlace (pkt 3 0 0 dataVa.toNat (leBytes 8 0x55 ++ [1, 2])) v with | .ok lc => (lc, 0) | .error e => (99, e.toNat)) = some (0, 0) ∧
    (windowed.vrAt 1).map (fun v =>
      match windowed.handlerPlace (pkt 3 0 0 dataVa.toNat (leBytes 8 (4 * 2 ^ 48) ++ [1, 2])) v with | .ok lc => (lc, 0) | .error e => (99, e.toNat)) = some (99, 1) ∧
    windowed.freeSlot 0 = some 1 ∧ (windowed.lcoreAt 0).arrivals = [] ∧
    (({ windowed with strands := [0, 1, 2, 3].map fun k => (k, windowed.me) } : State).freeSlot 0) = none := by decide +kernel

/-! ## Answers and timers -/

/-- A request of VR 1 to VR 2 that is awaited since cycle 0, sent `n` times, for operation `uid`. -/
def asking (n uid : Nat) (busy : Bool) : Unacked :=
  ⟨{ pkt 1 0 0 0x1000 (leBytes 8 4) with dstvr := 2, srcvr := 1 }, n, [], [], 32, 0, uid, busy, false, false, 0x4000, 0, none⟩

/-- The answer to it: a status, an address, data. -/
def answerPkt (status : BitVec 7) (va : BitVec 56) (data : List Byte) : Packet :=
  { pkt 0x10 0 status 0 data with dstvr := 1, srcvr := 2, va := va }

/-- The operation of a parked strand, or of one that went on. -/
def ropOf (i : Instr) (parked : Bool) : ROp := ⟨7, ⟨0, 0, 0⟩, st0.me.sid, codeBase, i, 0x1000, [], 1, [], [], none, parked, false, none, false, []⟩

/-- Strand 0 with its operation outstanding. -/
def awaiting (i : Instr) (parked : Bool) (u : Unacked) (c : Word) : State :=
  { (armed st0).onMe (fun t => if parked then { t with status := .parked, park := some 7 } else t) with rops := [ropOf i parked], unacked := [u], cycle := c }

/-- rld, a 4-byte signed load into register 10. -/
def rld10 : Instr := .rld false 10 11 12 13 ⟨0, .i32, .strand, .plain⟩

theorem test_AnswersAndTimers : let s := awaiting rld10 true (asking 1 7 false) 0
    let a := answerPkt 0 0 [0xFE, 0xFF, 0xFF, 0xFF, 1]
    st0.answered a = none ∧ s.answered a = some (asking 1 7 false) ∧ (awaiting rld10 true (asking 1 0 false) 0).answered a = some (asking 1 0 false) ∧
    s.rops.find? (fun o => decide (o.uid = 7)) = some (ropOf rld10 true) ∧ s.alive ⟨0, 0, 0⟩ st0.me.sid = true ∧ (s.strandAt 0).status = .parked ∧
    replyForm a rld10 = some (10, -2) ∧ replyForm a (.rprobe 0 1 2 3) = some (0, 0x1FFFFFFFE) ∧ swf Strand.init s.strands = true ∧
    (out (exec (.replyWithData a) s)).me.reg 10 = -2 ∧ (out (exec (.replyWithData a) s)).me.pc = codeBase + 1 ∧
    (out (exec (.replyWithData a) s)).me.status = .ready ∧ (out (exec (.replyWithData a) s)).unacked = [] ∧
    statusCause 1 = some 0x09 ∧ statusCause 4 = none ∧
    (out (exec (.acknowledgement (answerPkt 2 0 [])) s)).me.pc = 0x77 ∧ (out (exec (.acknowledgement (answerPkt 2 0 [])) s)).me.faultva = 0x1000 ∧
    (out (exec (.acknowledgement (answerPkt 4 0 [])) s)).unacked = [asking 1 7 true] := by decide +kernel

theorem test_AnswersAndTimers_copy : let s := awaiting (.rcopy false 16 10 12 13 0 .i8) false (asking 1 7 false) 0
    s.presentOn 0 0 = true ∧ s.rops.find? (fun o => decide (o.uid = 7)) = some (ropOf (.rcopy false 16 10 12 13 0 .i8) false) ∧
    ((out (exec (.replyWithData (answerPkt 0 0 [6, 5])) s)).lcoreAt 0).sp.bytes 0x4000 3 = [6, 5, 0] := by decide +kernel

/-- Endpoint 77 has two ports. -/
def twoPorts (u : Unacked) (c : Word) : State := { awaiting rld10 true u c with route := [(77, BitVec.ofNat 64 (2 ^ 63 + 3))] }

/-- A request to endpoint 77 that has gone out on the first of its two paths, `n` times so far. -/
def asking77 (n : Nat) (b : Bool) : Unacked :=
  let u := { asking n 7 b with p := { (asking n 7 b).p with dstEp := 77 } }
  let ps := (twoPorts u 0).pathsOf u.p
  { u with tried := ps.take 1, rest := ps.drop 1 }

/-- What is kept of a packet: counted transmissions, paths taken, paths left, time, busy. -/
def keptOf (s : State) : List (Nat × Nat × Nat × Nat × Bool) := s.unacked.map fun x => (x.sends, x.tried.length, x.rest.length, x.at_, x.busy)

/-- VR 2 has moved here, or the packet's port is dead. -/
theorem test_AnswersAndTimers_paths : let u := asking77 1 false
    let s := twoPorts (asking 1 7 false) 0
    (arrivalStep (asking 1 7 false).p).isSome ∧ (out (exec (.acknowledgement (answerPkt 5 (st0.endpoint.setWidth 56) [])) s)).location = [(2, some st0.endpoint.toNat)] ∧
    (s.pathsOf u.p).length = 2 ∧ u.p.dstEp ≠ st0.endpoint ∧ (s.sendFirst u.inst u.p (leftPaths (s.pathsOf u.p) u.rest u.tried)).isSome ∧
    keptOf (out (exec (.acknowledgement (answerPkt 7 0 [])) (twoPorts u 0))) = [(2, 2, 0, 0, false)] := by decide +kernel

theorem test_AnswersAndTimers_timers : let s := twoPorts
    let u := asking77
    (s (u 1 false) 0).awaited 1 2 1 = some (u 1 false) ∧ (s (u 1 false) 0).awaited 1 3 1 = none ∧ (u 1 false).got = false ∧
    (u 7 true).expired.sends = 7 ∧ ({ u 7 false with extra := true } : Unacked).expired.sends = 8 ∧
    ((s (u 1 true) 4096).sendFirst (u 1 true).inst (u 1 true).p (((u 1 true).tried.getLast?.bind fun a => ((s (u 1 true) 0).pathsOf (u 1 true).p).find? (FabPath.same a)).toList)).isSome ∧
    keptOf (out (exec (.retransmitTimeout 1 2 1) (s (u 1 false) 65536))) = [(2, 2, 0, 65536, false)] ∧
    (out (exec (.retransmitTimeout 1 2 1) (s (u 1 false) 65535))).unacked = [u 1 false] ∧
    (out (exec (.retransmitTimeout 1 2 1) (s (u 8 false) 65536))).unacked = [] ∧
    keptOf (out (exec (.busyRetransmit 1 2 1) (s (u 1 true) 4096))) = [(1, 1, 1, 4096, false)] ∧
    (out (exec (.busyRetransmit 1 2 1) (s (u 1 true) 4095))).unacked = [u 1 true] := by decide +kernel

/-- The reply buffer of the core holds 16 replies for an absent sharer, and VR 1's task 0 is not present. -/
def fullReplies : State :=
  ({ awaiting (.rcopy false 16 10 12 13 0 .i8) false (asking 1 7 false) 0 with binds := [(0, placeBind + 2 ^ 61), (1, placeBind + 2 ^ 61 + 2 ^ 53)] }.onCore 0
    fun c => { c with present := 1, replies := List.replicate 16 ⟨0, 0, [1]⟩ })

theorem test_AnswersAndTimers_full : let p := answerPkt 0 0 [6, 5]
    fullReplies.replyWaits (asking 1 7 false) p = true ∧ (out (exec (.replyWithData p) fullReplies)).late = [p] ∧
    (out (exec (.replyWithData p) fullReplies)).unacked.map (·.got) = [true] := by decide +kernel

/-- A store that waits in the hold store since cycle 0 for the request before it. -/
def holdingPkt (c : Word) : State :=
  { windowed with hold := [⟨{ pkt 2 0 0 dataVa.toNat [0x77] with pseq := 2, cseq := 2 }, 0, false⟩], cycle := c }

theorem test_AnswersAndTimers_hold : let q := { pkt 2 0 0 dataVa.toNat [0x77] with pseq := 2, cseq := 2 }
    let s := holdingPkt 1048576
    let cut := s.onSrc 1 2 fun w => w.abandoned 0 (s.missingBefore (s.srcAt 1 2) q)
    (1 : Nat) ≠ s.supId ∧ (s.srcAt 1 2).place 0 2 = 1 ∧ (s.srcAt 1 2).place 0 1 = 0 ∧ (s.vrAt 1).map (fun v => winAllows v q 1) = some true ∧ isCollective q = false ∧ s.budgetHeld 1 0 = false ∧
    (({ cut with hold := [] } : State).xlate (pktAcc q) dataVa.toNat).2 = .ok 0x30000 ∧
    (out (exec (.holdStoreAbandon 2 1 2) s)).mem.byte 0x30000 = 0x77 ∧ (out (exec (.holdStoreAbandon 2 1 2) s)).hold = [] ∧
    (out (exec (.holdStoreAbandon 2 1 2) (holdingPkt 1048575))).mem.byte 0x30000 = 1 := by decide +kernel

/-! ## Launches and moves -/

/-- A packet between supervisors: from this chip's own, first of its pair. -/
def supPkt (op : BitVec 8) (va : Nat) (sub : BitVec 7) (data : List Byte) : Packet :=
  { pkt op 0 sub va data with token := 0, dstvr := BitVec.ofNat 20 st0.supId, srcvr := BitVec.ofNat 20 st0.supId }

/-- The conditions of SupNext. -/
def supNext (s : State) (p : Packet) : Bool :=
  s.supFormed p && decide (sget none (s.supWin p.srcvr.toNat).recs p.pseq.toNat = none) && seqAbove (s.supWin p.srcvr.toNat).high p.pseq &&
  decide ((s.supWin p.srcvr.toNat).place p.cls.toNat p.cseq = 0) && s.hold.isEmpty

theorem supNext_of {s : State} {p : Packet} (h : supNext s p = true) : SupNext s p := by
  simp only [supNext, Bool.and_eq_true, decide_eq_true_eq, List.isEmpty_iff] at h
  obtain ⟨⟨⟨⟨h1, h2⟩, h3⟩, h4⟩, h5⟩ := h
  exact ⟨h1, h2, h3, h4, h5⟩

/-- The launch 0x01000007 of task entry 3, admitted, in a phase. -/
def admitted (ph : TPhase) : State :=
  let s := out (exec (.admitStepTask 3 bind3) (launching (launchOf 1 1000 2000)))
  { s.onTask 3 (fun t => { t with phase := ph, launch := 0x01000007 }) with
    vrs := smod none s.vrs 1 fun o => o.map fun v => { v with image := { v.image with entries := [⟨false, 2, some 3, 6, 0⟩] } } }

/-- The arm for entry 3. -/
def armPkt : Packet := supPkt 0x20 0x01000007 0 (leBytes 8 (3 * 65536))

theorem test_LaunchProtocol_arm : supNext (admitted .idle) armPkt = true ∧ ((admitted .idle).launchAt (launchId armPkt) (armIdx armPkt)).map (·.task) = some (some 3) ∧
    ((admitted .idle).tasks.all fun e => decide (e.2.phase ≠ .armed)) = true ∧ ((admitted .idle).taskAt 3).valid = true ∧
    ((admitted .idle).vrAt 1).map (fun v => v.moving) = some .no ∧ ((admitted .idle).bindAll bind3).2 = true ∧
    ((admitted .idle).bindAll bind3).1.allBound 3 = true ∧ armPkt.srcvr.toNat = st0.supId ∧
    ((out (exec (.arm armPkt) (admitted .idle))).taskAt 3).phase = .armed ∧
    st0.launchAt 0x01000007 3 = none ∧ supNext st0 armPkt = true ∧ (out (exec (.arm armPkt) st0)).sup.waitArm = [(armPkt, 0)] ∧
    supNext { st0 with sup := { st0.sup with ended := [(0x01000007, 3)] } } armPkt = true ∧ st0.sup.ended = [] ∧
    st0.supFormed (supPkt 0x22 7 0 [1]) = false ∧ st0.supFormed { armPkt with data := leBytes 8 1 } = false ∧
    (out (exec (.go (supPkt 0x22 7 0 [1])) st0)).portDrops = 1 ∧ (st0.supWin st0.supId).recs = [] := by decide +kernel

/-- The supervisor waits for one member's reply. -/
def armed1 (c : Word) : State :=
  { st0 with sup := { st0.sup with arming := [⟨0x01000007, [(st0.endpoint.toNat, 3)], [], 100, none, false, false⟩] }, cycle := c }

theorem test_LaunchProtocol_reply : supNext (armed1 0) (supPkt 0x21 0x01000007 2 []) = true ∧ supEp (supPkt 0x21 0x01000007 2 []) = st0.endpoint.toNat ∧
    (out (exec (.armReply (supPkt 0x21 0x01000007 2 [])) (armed1 0))).sup.arming.map (·.result) = [some 2] ∧
    (out (exec (.armReply (supPkt 0x21 0x01000007 0 [])) (armed1 0))).sup.arming.map (·.result) = [some 0] ∧
    (out (exec (.armTimeout 0x01000007) (armed1 100))).sup.arming.map (·.result) = [some 1] ∧
    (out (exec (.armTimeout 0x01000007) (armed1 99))).sup.arming.map (·.result) = [none] ∧
    ((armed1 99).sup.arming.find? fun a => decide (a.launch = 0x01000007)).isSome := by decide +kernel

theorem test_LaunchProtocol_go : supNext (admitted .armed) (supPkt 0x22 0x01000007 0 []) = true ∧
    (admitted .armed).taskFor 0x01000007 (fun x => decide (x = .armed)) = some 3 ∧ ((admitted .armed).vrAt ((admitted .armed).taskAt 3).vr).isSome ∧
    ((out (exec (.go (supPkt 0x22 0x01000007 0 [])) (admitted .armed))).taskAt 3).phase = .running ∧
    ((out (exec (.go (supPkt 0x22 0x01000007 0 [])) (admitted .armed))).strandAt (lckey 3 3 * 4 + 2)).pc = codeBase + 6 ∧
    st0.taskFor 0x01000007 (fun x => decide (x = .armed)) = none ∧ supNext st0 (supPkt 0x22 0x01000007 0 []) = true ∧
    (out (exec (.go (supPkt 0x22 0x01000007 0 [])) st0)).agenda.length = st0.agenda.length + 2 := by decide +kernel

theorem test_LaunchProtocol_abort : ((admitted .armed).sup.launches.filter fun l => decide (l.id = 0x01000007)).map (fun l => (l.task, l.idx)) = [(some 3, 3)] ∧
    ((admitted .armed).taskAt 3).launch = 0x01000007 ∧ supNext (admitted .armed) (supPkt 0x23 0x01000007 0 []) = true ∧
    (out (exec (.launchAbort (supPkt 0x23 0x01000007 0 [])) (admitted .armed))).taskAt 3 = Task.init ∧
    supNext (admitted .running) (supPkt 0x24 0x01000007 0 []) = true ∧ ((admitted .running).taskAt 3).spawn = none ∧
    ((out (exec (.lost (supPkt 0x24 0x01000007 0 [])) (admitted .running))).lcoreAt (lckey 3 3)).lost = true ∧
    supNext st0 (supPkt 0x30 9 0 []) = true ∧ (out (exec (.snapshotTrigger (supPkt 0x30 9 0 [])) st0)).sup.latching = [(9, 16)] ∧
    (out (exec (.armExpiry 0x01000007) { admitted .armed with cycle := 2 ^ 26 })).taskAt 3 = Task.init ∧
    ((out (exec (.armExpiry 0x01000007) { admitted .armed with cycle := 2 ^ 26 - 1 })).taskAt 3).phase = .armed := by decide +kernel

/-- Go has been sent to this one member. -/
def gone : State :=
  { st0 with sup := { st0.sup with arming := [⟨0x01000007, [(st0.endpoint.toNat, 3)], [], 100, some 0, true, true⟩] } }

theorem test_LaunchProtocol_peer : (gone.sup.arming.find? fun a => decide (a.launch = 0x01000007) && a.gone).isSome ∧ gone.sup.lostSent = [] ∧
    gone.membersOf 0x01000007 = [(gone.endpoint.toNat, 3)] ∧ (out (exec (.peerFailure 0x01000007) gone)).sup.lostSent = [0x01000007] ∧
    (out (exec (.peerFailure 0x01000007) gone)).agenda.length = gone.agenda.length + 1 := by decide +kernel

/-- A context for VR 6 of function 0 from endpoint 9, with one leaf. -/
def context6 : MoveContext :=
  { vr := 6, fn := 0, from_ := 9, image := blankImage, consts := [(3, 8)], windows := [(7, 5)], key := 1, seed := 2, peers := [],
    leaves := [(dataVa.toNat / 65536, 0x99)], token := 4, ipa := 0, ipaEnd := 0, energy := 77 }

/-- Function 0 with pages to give. -/
def roomy : State := st0.onFn 0 fun f => { f with hbm0 := 3, nextHbm := 0x40000 }

/-- The tables of the context's VR, built. -/
def built : State × XR Vr :=
  context6.leaves.foldl (fun (r : State × XR Vr) l => match r with
    | (s, .ok v) => State.mapFrom 6 (l.1 * 65536) (pullEntry 9 6 l.2) 3 s v v.root
    | _ => r) (roomy.newRoot (newVr 0 0 blankImage 2 1 0 0) 6)

/-- The answer is there. -/
def mapsAll : XR Vr → Bool
  | .ok _ => true
  | _ => false

/-- VR 1 in a state of moving, with pages left. -/
def moving1 (m : Moving) (n : Nat) : State := windowed.onVr 1 fun v => { v with moving := m, remain := n, windows := sset 0 v.windows 7 (mkWin (2 ^ 56 - 1) 3 0 false true 8) }

/-- A packet for VR 1, which leaves, waits. -/
def heldFor1 : State := { moving1 (.leaving 5) 2 with hold := [⟨pkt 2 0 0 0 [1], 0, false⟩] }

theorem test_MovingVr_context : (roomy.vrAt 1).isSome ∧ roomy.vrAt 6 = none ∧ mapsAll built.2 = true ∧
    ((out (exec (.migrationContext (.context context6)) roomy)).vrAt 6).map (fun v => (v.moving, v.remain, v.migtok)) = some (.landing 9, 1, 4) := by decide +kernel

theorem test_MovingVr_sequences :
    ((moving1 (.landing 9) 0).vrAt 1).map (·.moving) = some (.landing 9) ∧
    ((out (exec (.migrationContext (.last 1 [] [] [] 5)) (moving1 (.landing 9) 0))).vrAt 1).map (·.moving) = some .no ∧
    ((moving1 (.leaving 5) 0).hold.all fun h => decide (h.p.dstvr.toNat ≠ 1)) = true ∧
    (out (exec (.migrationDrainEnd 1) (moving1 (.leaving 5) 0))).vrAt 1 = none ∧
    ((out (exec (.migrationDrainEnd 1) (moving1 (.leaving 5) 2))).vrAt 1).map (·.moving) = some (.sent 5) ∧
    (heldFor1.hold.any fun h => decide (h.p.dstvr.toNat = 1)) = true := by decide +kernel

/-- A token of window 7 for pulls. -/
def tok8 : Word := 4037893795877421314

theorem tok8_good : tokenMac 0 (tok8.toNat % 2 ^ 40) 1 2 = tok8.extractLsb' 40 24 := by decide +kernel

/-- A pull request for the data page, and the packets of the answer. -/
def pullPkt (op : BitVec 8) (off : Nat) (data : List Byte) : Packet :=
  { pkt op 0 0 (dataVa.toNat + off) data with token := tok8 }

/-- The conditions of InOrder and of its window. -/
def pullOk (s : State) (p : Packet) : Bool :=
  match s.vrAt p.dstvr.toNat with
  | some v => reqFormed p && !(s.srcAt p.dstvr.toNat p.srcvr.toNat).quar && decide (v.key = 0 ∧ p.token = tok8 ∧ p.dstvr = 1 ∧ p.srcvr = 2) && seqAbove (s.srcAt p.dstvr.toNat p.srcvr.toNat).high p.pseq &&
      decide ((s.srcAt p.dstvr.toNat p.srcvr.toNat).place p.cls.toNat p.cseq = 0) && s.hold.isEmpty && winAllows v p (reqLen p)
  | none => false

theorem pullOk_of {s : State} {p : Packet} (h : pullOk s p = true) : ∃ v, InOrder s p v ∧ winAllows v p (reqLen p) = true := by
  unfold pullOk at h
  split at h
  · rename_i v hv
    simp only [Bool.and_eq_true, Bool.not_eq_true', decide_eq_true_eq, List.isEmpty_iff] at h
    obtain ⟨⟨⟨⟨⟨⟨h1, h2⟩, h3⟩, h4⟩, h5⟩, h6⟩, h7⟩ := h
    obtain ⟨k1, k2, k3, k4⟩ := h3
    refine ⟨v, ⟨h1, hv, h2, ?_, h4, h5, h6⟩, h7⟩
    simp only [tokenGood, k1, k2, k3, k4, decide_eq_true_eq]
    exact tok8_good
  · simp at h

theorem test_MovingVr_pull : pullOk (moving1 (.leaving 5) 2) (pullPkt 0x28 0 []) = true ∧ pullOk (moving1 (.sent 5) 2) (pullPkt 0x28 0 []) = true ∧
    pullOk (moving1 (.sent 5) 2) (pullPkt 0x2A 0 []) = true ∧ pullOk (moving1 (.sent 5) 1) (pullPkt 0x2A 0 []) = true ∧
    ((moving1 (.leaving 5) 2).vrAt 1).map (fun v => match (moving1 (.leaving 5) 2).walkVr v dataVa.toNat with | .ok f => f.pa | _ => 0) = some 0x30000 := by decide +kernel

/-- A page of 4,096 bytes. -/
def part (b : Byte) : List Byte := List.replicate 4096 b

/-- VR 1 arriving: the data page's entry is migrate-pull, its first 15 packets are there, a page is in the ring. -/
def arriving (n : Nat) : State :=
  let s := (moving1 (.arriving 9) 1).onVr 1 fun v => { v with pulls := (List.range n).map fun i => (dataVa.toNat + 4096 * i, part (BitVec.ofNat 8 i)) }
  { (s.onFn 0 fun f => { f with free := [0x50000, 0x60000], hbm0 := 3 }) with mem := s.mem.write 0x16008 8 (pullEntry 9 1 0x9D) }

/-- The last packet of the page. -/
def lastPart : Packet := pullPkt 0x29 0xF000 (part 15)

theorem test_MovingVr_data : pullOk (arriving 15) lastPart = true ∧ pullOk (arriving 0) lastPart = true ∧ (arriving 0).pullPages = [] ∧
    (arriving 15).pullPages = [(1, dataVa.toNat / 65536)] ∧
    ((arriving 15).vrAt 1).map (fun v => match (arriving 15).walkVr v dataVa.toNat with | .ok f => (f.s1.at_, pteType f.s1.e) | _ => (0, 0)) = some (0x16008, 2) ∧
    (arriving 15).pullOf 1 (dataVa.toNat / 65536) = none ∧ ((arriving 15).fnAt 0).goodFree 0x50000 = true ∧ lastPart.va.toNat / 65536 = dataVa.toNat / 65536 ∧
    quiet (arriving 15) = true ∧ ((out (exec (.pullData (pullPkt 0x29 0xF000 (part 15)) false) (arriving 15))).vrAt 2).isNone := by decide +kernel

/-- The 16 packets of the page, one after another. -/
def wholePage : List Byte := (List.range 16).foldl (fun bs i => bs ++ part (BitVec.ofNat 8 i)) []

theorem wholePage_length : wholePage.length = 65536 := by
  simp only [wholePage, part, List.range, List.range.loop, List.foldl, List.length_append, List.length_replicate, List.length_nil]

theorem pulled_of (v : Vr) (f : Nat → List Byte) :
    ({ v with pulls := (List.range 16).map fun i => (0x7F0000001 * 65536 + 4096 * i, f i) } : Vr).pulled 0x7F0000001 =
      some ((List.range 16).foldl (fun bs i => bs ++ f i) []) := by rfl

/-- VR 1 arriving with its first 15 packets, and the last. -/
theorem test_MovingVr_page (v : Vr) (h : v.pulls = (List.range 15).map fun i => (dataVa.toNat + 4096 * i, part (BitVec.ofNat 8 i))) :
    ({ v with pulls := v.pulls ++ [(lastPart.va.toNat, part 15)] } : Vr).pulled (dataVa.toNat / 65536) = some wholePage := by
  have hl : lastPart.va.toNat = 0x7F0000001 * 65536 + 4096 * 15 := by decide +kernel
  have hp : v.pulls ++ [(lastPart.va.toNat, part 15)] =
      (List.range 16).map fun i => (0x7F0000001 * 65536 + 4096 * i, part (BitVec.ofNat 8 i)) := by rw [h, hl]; rfl
  rw [hp]
  exact pulled_of v fun i => part (BitVec.ofNat 8 i)

/-! ## Mailboxes and messages -/

/-- 8-byte words as bytes. -/
def words (l : List Nat) : List Byte := l.flatMap (leBytes 8)

/-- A mailbox of a function holds a message of a kind in a state. -/
def mail (s : State) (fn n kind : Nat) (p : List Byte) (st : MbxSt) : State :=
  s.onFn fn fun f => { f with mbx := sset Mbx.zero f.mbx n ⟨(Mem.write [] 0 8 (kind * 2 ^ 56 + 7 * 2 ^ 32 + p.length)).setBytes 16 p, st, false⟩ }

/-- The answer in a mailbox: state, status, data. -/
def answer (s : State) (fn n : Nat) : MbxSt × Nat × List Byte :=
  ((s.mbx fn n).st, (s.mbx fn n).head / 2 ^ 48 % 256, (s.mbx fn n).payload)

theorem test_MailboxesAndVrMessages_states : st0.mbxThere 31 7 = true ∧ st0.mbxThere 32 0 = false ∧ (st0.mbx 31 7).st = .idle ∧
    (mail st0 3 7 6 (words [1]) .replied).mbxThere 3 7 = true ∧ ((mail st0 3 7 6 (words [1]) .replied).mbx 3 7).st = .replied ∧
    ((out (exec (.mailboxPost 3 7) (mail st0 3 7 6 (words [1]) .busy))).mbx 3 7).lost = true ∧
    ((out (exec (.mailboxRelease 3 7) (mail st0 3 7 6 (words [1]) .replied))).mbx 3 7).st = .idle ∧ st0.nextPosted = none := by decide +kernel

theorem test_MailboxesAndVrMessages_take : let s (k : Nat) := mail st0 3 7 k (words [1]) .posted
    let good (s : State) : Bool := decide ((s.mbx 3 7).head / 2 ^ 12 % 2 ^ 20 = 0 ∧ (s.mbx 3 7).head / 2 ^ 48 % 256 = 0 ∧
      (s.mbx 3 7).bytes.read 8 8 = 0 ∧ (s.mbx 3 7).head % 4096 ≤ 4080)
    (s 6).nextPosted = some (3, 7) ∧ good (s 6) = true ∧ (s 6).sup.recovery = false ∧ kindStep 13 3 7 = none ∧ kindPhysical 12 = true ∧ kindPhysical 6 = false ∧
    (out (exec .mailboxTake (s 6))).agenda = .event (.vrStatus 3 7) :: (s 6).agenda ∧ answer (out (exec .mailboxTake (s 13))) 3 7 = (.replied, 1, []) ∧
    answer (out (exec .mailboxTake (s 12))) 3 7 = (.replied, 2, []) ∧
    ({ mail st0 0 0 6 (words [1]) .posted with sup := { st0.sup with recovery := true } } : State).nextPosted = some (0, 0) ∧
    answer (out (exec .mailboxTake { mail st0 0 0 6 (words [1]) .posted with sup := { st0.sup with recovery := true } })) 0 0 = (.replied, 2, []) := by
  decide +kernel

/-- An image of one code word for one cluster with a quota of 1 MiB, in the host's memory at 0x5000. -/
def imaged : State :=
  { (st0.onFn 0 fun f => { f with hbm0 := 3, nextHbm := 0x40000 }) with
    hostMem := st0.hostMem.setBytes 0x5000 (words [0x00000001_3156444E, 72, 0x00000001_0000_02_01, 0, 0, 0, 0, 0, 0x30A0000000000000]) }

/-- A create message for n VRs. -/
def creating (n : Nat) : State := mail imaged 0 0 1 (words [0x5000, 72, n]) .busy

theorem test_MailboxesAndVrMessages_create : ((creating 1).mbx 0 0).st = .busy ∧ ((creating 1).mbx 0 0).payload = words [0x5000, 72, 1] ∧ (words [0x5000, 72, 510]).length = 24 ∧
    pword (words [0x5000, 72, 510]) 2 = 510 ∧ pword (words [0x5000, 72, 510]) 3 % 65536 = 0 ∧ pword (words [0x5000, 72, 510]) 4 % 65536 = 0 ∧
    (parseImage (fun off k => (creating 1).hostMem.read (0x5000 + off) k) 72).map (fun im => (im.m, im.quota, im.code)) = some (1, 2, [0x30A0000000000000]) ∧
    parseImage (fun off k => (creating 1).hostMem.read (0x5000 + off) k) 64 = none := by decide +kernel

/-- Whether the VRs were created, or how not. -/
def made : Except (Nat × Bool) (List Nat) → Option (Nat ⊕ Bool)
  | .ok ids => some (.inl ids.length)
  | .error (_, w) => some (.inr w)

theorem test_MailboxesAndVrMessages_created : (parseImage (fun off k => (creating 1).hostMem.read (0x5000 + off) k) 72).map
      (fun im => made (State.createVrs 0 im 0 1 (creating 1) 0 []).2) = some (some (.inl 1)) ∧
    (parseImage (fun off k => (creating 1).hostMem.read (0x5000 + off) k) 72).map
      (fun im => made (State.createVrs 0 im 0 1 ((creating 1).onFn 0 fun f => { f with hbm0 := 0 }) 0 []).2) = some (some (.inr false)) := by
  decide +kernel

/-- Launch 0x01000007 of VR 1 at this endpoint and entry 3, step 5, priority 1, watchdog 9, address 0x40, one phase. -/
def launchWords (vr energy : Nat) : List Byte := words [0x01000007, 5, 1, 9, 0x40, vr, 1, 1, 1000, energy, st0.endpoint.toNat + 3 * 65536]

/-- A message of physical function 0 in mailbox 0. -/
def asked (k : Nat) (p : List Byte) : State := mail sup0 0 0 k p .busy

theorem test_MailboxesAndVrMessages_launch :
    (parseLaunch 0 st0.endpoint.toNat (asked 2 []).launchCount (launchWords 1 2000)).map (fun l => { l with fn := 0 }) =
      some { launchOf 1 1000 2000 with members := [(st0.endpoint.toNat, 3)] } ∧
    (parseLaunch 0 st0.endpoint.toNat (asked 2 []).launchCount (launchWords 9 2000)).isSome ∧ (st0.mayName 0 9).isNone ∧ (st0.mayName 0 1).isSome ∧
    (st0.mayName 5 1).isNone ∧ parseLaunch 0 st0.endpoint.toNat (asked 2 []).launchCount (words [1]) = none ∧
    powerFits [peakOf [(1000, 2000)]] = true ∧ powerFits [peakOf [(1000, 2264)]] = false ∧ powerFits [peakOf [(1000, 2263)]] = true ∧
    answer (out (exec (.launch 0 0) (asked 2 (launchWords 1 2000)))) 0 0 = (.replied, 0, []) ∧
    (out (exec (.launch 0 0) (asked 2 (launchWords 1 2000)))).sup.launches.length = 1 ∧
    answer (out (exec (.launch 0 0) (asked 2 (launchWords 9 2000)))) 0 0 = (.replied, 6, []) ∧
    answer (out (exec (.launch 0 0) (asked 2 (launchWords 1 2264)))) 0 0 = (.replied, 4, []) ∧
    answer (out (exec (.launch 0 0) (asked 2 (words [1])))) 0 0 = (.replied, 1, []) := by decide +kernel

theorem test_MailboxesAndVrMessages_others : (sup0.mayName 0 1).isSome ∧ (sup0.canMove 1 5).isSome ∧ sup0.canMove 1 6 = none ∧
    ((out (exec (.cancel 0 0) (mail st0 0 0 3 (words [1]) .busy))).taskAt 0).status = 0x41 ∧
    ((out (exec (.cancel 0 0) (mail st0 0 0 3 (words [1]) .busy))).taskAt 0).phase = .stopping ∧
    answer (out (exec (.migrate 0 0) (asked 4 (words [1, 5])))) 0 0 = (.replied, 0, []) ∧
    ((out (exec (.migrate 0 0) (asked 4 (words [1, 5])))).vrAt 1).map (·.moving) = some (.leaving 5) ∧
    answer (out (exec (.migrate 0 0) (asked 4 (words [1, 6])))) 0 0 = (.replied, 1, []) ∧
    answer (out (exec (.migrate 0 0) (asked 4 (words [9, 5])))) 0 0 = (.replied, 6, []) ∧
    ((out (exec (.peerTokens 0 0) (asked 5 (words [1, 2 ^ 20 - 1, 77])))).vrAt 1).map (fun v => sget none v.peers (2 ^ 20 - 1)) = some (some 77) ∧
    answer (out (exec (.vrStatus 0 0) (asked 6 (words [1])))) 0 0 = (.replied, 0, words [0, 0, 0, 0]) ∧
    answer (out (exec (.vrStatus 0 0) (mail st0 0 0 6 (words [1]) .busy))) 0 0 = (.replied, 0, words [2, 0, 0, 0]) ∧
    answer (out (exec (.vrStatus 0 0) (asked 6 (words [1, 2])))) 0 0 = (.replied, 1, []) := by decide +kernel

theorem test_PlatformMessages : let s (k : Nat) (p : List Byte) := mail st0 0 0 k p .busy
    (words [1, 2, 3, 4]).length = 32 ∧ ((s 7 (words [1, 2, 3, 4])).mbx 0 0).payload = words [1, 2, 3, 4] ∧ ((s 8 []).mbx 0 0).payload = [] ∧
    answer (out (exec (.quote 0 0) (s 7 (words [1])))) 0 0 = (.replied, 1, []) ∧ answer (out (exec (.identity 0 0) (s 8 [1]))) 0 0 = (.replied, 1, []) ∧
    answer (out (exec (.window 0 0) (s 10 []))) 0 0 = (.replied, 1, []) ∧ answer (out (exec (.image 0 0) (s 9 (words [0])))) 0 0 = (.replied, 1, []) ∧
    8 < (words [0, 9]).length ∧ (words [0, 9]).length - 8 < 16 ∧ answer (out (exec (.image 0 0) (s 9 (words [0, 9])))) 0 0 = (.replied, 0, []) ∧
    (out (exec (.image 0 0) (s 9 (words [0, 9])))).sup.stagedLen = 8 ∧ 16 ≤ (words [0, 2 ^ 36, 9]).length - 8 ∧
    flashLength (words [2 ^ 36, 9]) = 16 ∧ flashGood (words [2 ^ 36, 9]) 0 = false ∧ answer (out (exec (.image 0 0) (s 9 (words [0, 2 ^ 36, 9])))) 0 0 = (.replied, 5, []) ∧
    (out (exec (.window 0 0) (s 10 (words [65535])))).sup.fnwBase = 65535 := by decide +kernel

/-- A flash image of `n` body bytes, version 3, whose signatures are bytes of 0 (the signatures' verdicts are free: log 49). -/
def flashImage : List Byte := leBytes 4 0x47535A31 ++ (leBytes 4 3453 ++ (leBytes 4 3 ++ (leBytes 4 16 ++ (List.replicate 48 0 ++ List.replicate 3389 0))))

/-- Whatever the vendor's key accepts: where it accepts the image's signatures, the image is good for a counter up to its version. -/
theorem test_PlatformMessages_good (h : Config.vendorEd (flashImage.take 80) ((flashImage.drop 80).take 64) = true)
    (h' : Config.vendorMl (flashImage.take 80) (flashImage.drop 144) = true) : flashGood flashImage 3 = true ∧ flashGood flashImage 4 = false := by
  have hb : ofLeBytes ((flashImage.drop 12).take 4) = 16 := by decide +kernel
  have h3 : ofLeBytes (flashImage.take 4) = 0x47535A31 ∧ flashImage.length = 64 + 16 + 64 + 3309 ∧ flashLength flashImage = flashImage.length ∧
      ofLeBytes ((flashImage.drop 16).take 48) = 0 ∧ flashVersion flashImage = 3 := by decide +kernel
  obtain ⟨a, b, c, d, e⟩ := h3
  constructor <;> simp only [flashGood, hb, e] <;> simp [a, b, c, d, h, h']

theorem test_PlatformMessages_more : partReg 6 = some .s2root ∧ partReg 7 = none ∧
    (st0.partWrite 3 .clus0 (2 ^ 20)).2 = none ∧ ((st0.onFn 0 fun f => { f with clus0 := 2 ^ 20 }).partWrite 3 .clus0 (2 ^ 20)).2 = some 7 ∧
    answer (out (exec (.partition 0 0) (mail st0 0 0 11 (words [3, 0, 2 ^ 20]) .busy))) 0 0 = (.replied, 0, []) ∧
    answer (out (exec (.partition 0 0) (mail (st0.onFn 0 fun f => { f with clus0 := 2 ^ 20 }) 0 0 11 (words [3, 0, 2 ^ 20]) .busy))) 0 0 = (.replied, 3, [7]) ∧
    (out (exec (.locations 0 0) (mail st0 0 0 12 (words [0xFEFFF, 4094]) .busy))).location = [(0xFEFFF, some 4094)] ∧
    (out (exec (.locations 0 0) (mail { st0 with location := [(7, some 5)] } 0 0 12 (words [7, 4095]) .busy))).location = [] := by decide +kernel

/-! ## Registers -/

/-- Nothing runs: task entries are idle. -/
def quietTasks : State := { st0 with tasks := [], binds := [] }

theorem test_RegisterWrites_slots : quietTasks.bindCode 0 (2 ^ 63 + 3 * 2 ^ 61) = some 1 ∧ ({ quietTasks with bin := .s272 } : State).bindCode 0 (2 ^ 63) = some 2 ∧
    quietTasks.bindCode 287 0 = none ∧ (out (exec (.slotTableWrite 287 (2 ^ 63 + 3 * 2 ^ 61)) quietTasks)).binderr = 0x1111F ∧
    (out (exec (.slotTableWrite 287 5) quietTasks)).binderr = 0x1811F ∧
    (out (exec (.slotTableWrite 287 (3 * 2 ^ 53)) quietTasks)).binds = [(287, 3 * 2 ^ 53)] ∧ st0.entryCode 0 0 = some 3 ∧ quietTasks.entryCode 63 (2 ^ 63) = some 10 ∧
    quietTasks.entryCode 63 (2 ^ 63 + 2 ^ 56) = none ∧ (out (exec (.slotTableWrite 288 0) st0)).binderr = 0x13120 ∧
    (out (exec (.slotTableWrite 351 (2 ^ 63 + 5 * 2 ^ 48)) quietTasks)).binderr = 0x1A005 ∧
    ((out (exec (.slotTableWrite 351 (2 ^ 63 + 2 ^ 56)) quietTasks)).taskAt 63).m = 1 := by decide +kernel

theorem test_RegisterWrites_partition : ({ st0 with bin := .s272, fuses := [(3, (9, 0))] } : State).grantsFused .clus0 (2 ^ 63) = true ∧ st0.grantsFused .clus0 (2 ^ 63) = false ∧
    st0.sharesPart 31 .hbm1 (2 ^ 63) = true ∧ st0.fnLive 0 = true ∧ st0.fnLive 31 = false ∧ st0.sharesPart 31 .hbm1 (2 ^ 62) = false ∧ st0.anyLive = true ∧
    quietTasks.anyLive = false ∧ (out (exec (.detmodeWrite 1) quietTasks)).detmode = true ∧ (out (exec (.detmodeWrite 1) st0)).binderr = 0x19000 ∧
    ((out (exec (.partitionWrite 31 .clus1 0x1FF) st0)).fnAt 31).clus1 = 0xFF ∧ (out (exec (.partitionWrite 31 .hbm1 (2 ^ 63)) st0)).binderr = 0x1701F := by
  decide +kernel

/-- Ring 1 of function 4, of 64 entries, with head 60 and tail 62, and a request of the function that waits or none. -/
def ringed (w : List PReq) : State := st0.onFn 4 fun f => { f with rings := sset Ring.zero f.rings 1 ⟨0x1000006, 60, 62, true, 0⟩, waiting := w }

theorem test_RegisterWrites : (st0.portAt 3).lane 2 = 1 ∧ ((st0.onPort 3 fun p => p.setLane 2 3).portAt 3).lane 2 = 3 ∧
    ((out (exec (.fabPortstatWrite 3 (2 ^ 4)) (st0.onPort 3 fun p => p.setLane 2 3))).portAt 3).lane 2 = 1 ∧ idleReg (.bar4 0) = true ∧
    (1023 : Nat) < 1024 ∧ (out (exec (.registerWrite .period 1023) st0)).binderr = 0x1A000 ∧ (out (exec (.registerWrite .period 1024) st0)).period = 1024 ∧
    (out (exec (.registerWrite .period 0x1000000) st0)).period = 2 ^ 24 ∧ (out (exec (.registerWrite .period 0x1000001) st0)).period = 1048576 ∧
    (out (exec (.registerWrite (.route 5) 0xFFFFFFFFFFFFFFFF) st0)).routeOf 5 = 0xEFFFFFF0FFFFFFFF ∧ st0.unacked = [] ∧
    circuit (BitVec.ofNat 64 (2 ^ 63 + 1)) 0 = true ∧ circuit 1 0 = false ∧ circuit (BitVec.ofNat 64 (2 ^ 63 + 1)) 31 = false ∧
    ((out (exec (.registerWrite (.route 5) 0) { sup0 with ports := [(0, { Port.init with replay := [⟨1, ⟨0, none⟩, [1]⟩], tx := 9 })] })).portAt 0).replay = [] ∧
    ((st0.portAt 3).replay.length < 512) ∧ ((out (exec (.fabPortstatWrite 3 (2 ^ 4)) (st0.onPort 3 fun p => p.setLane 2 3))).portAt 3).mode = 8 ∧
    ((st0.onPort 3 fun p => p.setLane 2 3).portAt 3).mode = 7 ∧ st0.mbxThere 0 7 = true ∧ st0.hostRead 0 0 (0x9008 + 16 * 7) = 0 ∧
    (mail st0 0 7 1 [] .busy).hostRead 0 0 (0x9008 + 16 * 7) = 2 ∧ (ringed []).hostRead 4 0 0x8050 = 62 ∧
    st0.hostRead 0 4 0x8078 = (st0.portAt 31).stat ∧
    (st0.vrAt 1).map (fun v => swf SrcWin.init v.srcs) = some true ∧ ((ringed []).fnAt 4).waiting = [] ∧
    ((ringed []).fnAt 4 |>.ring 1).size = 64 ∧ (out (exec (.qTailWrite 4 1 1) (ringed []))).agenda.length = st0.agenda.length + 3 ∧
    ((out (exec (.qTailWrite 4 1 1) (ringed []))).fnAt 4 |>.ring 1).tail = 1 ∧
    ((62 + 64 - 60) % 64 + 61 : Nat) = 63 ∧ (out (exec (.qTailWrite 4 1 59) (ringed []))).agenda.length = st0.agenda.length + 61 ∧
    (out (exec (.qTailWrite 4 1 60) (ringed []))).agenda = st0.agenda ∧
    ((out (exec (.qBaseWrite 4 1 0x2007) (ringed []))).fnAt 4 |>.ring 1) = ⟨0x2007, 0, 0, true, 0⟩ ∧
    ((out (exec (.qHeadWrite 4 2 0x1005) (ringed []))).fnAt 4 |>.ring 2).head = 5 := by decide +kernel

theorem test_RegisterWrites_bar2 : let s := { st0 with sup := { st0.sup with fnwBase := 0 } }
    s.hasMem 0x30000 = true ∧ s.hasMem (0x30000 + 2 - 1) = true ∧ 0x30000 + ([7, 8] : List Byte).length ≤ 2 ^ 32 ∧
    (out (exec (.bar2Write 0x30000 [7, 8]) s)).mem.bytes 0x30000 3 = [7, 8, 3] ∧
    ({ st0 with sup := { st0.sup with fnwBase := 0x60 } } : State).hasMem (0x60 * 2 ^ 32) = false ∧ 2 ^ 32 < (2 ^ 32 - 1) + ([7, 8] : List Byte).length ∧
    (out (exec (.bar2Write (2 ^ 32 - 1) [7, 8]) s)).mem.byte (2 ^ 32 - 1) = 0 := by decide +kernel

/-! ## Links -/

/-- A number of `n` bytes is what its bytes stand for. -/
theorem ofLeBytes_leBytes (n v : Nat) (h : v < 256 ^ n) : ofLeBytes (leBytes n v) = v := by
  induction n generalizing v with
  | zero => simp at h; simp [h, leBytes, ofLeBytes]
  | succ n ih =>
    rw [Nat.pow_succ] at h
    simp only [leBytes, ofLeBytes, ih (v / 256) (by omega), BitVec.toNat_ofNat]
    omega

/-- The first 208 bytes of a flit: kind 1 with the whole packet of an 8-byte store request from endpoint 5, link sequence 1. -/
def pktBody : List Byte := [1, 0, 0, 0, 5, 0, 0, 1, 0, 0, 0, 0, 0, 0, 0, 0, 0, 0, 0, 0, 0, 0, 0, 0, 0, 0, 16, 0, 0, 0, 0, 2, 0, 16, 0, 0, 0, 0, 0, 0, 8, 0, 0, 0, 1, 0, 0, 0, 9] ++ List.replicate 159 0

/-- The first 208 bytes of an idle flit of link sequence 1 that acknowledges 1 and returns two credits of VC 1. -/
def idlBody : List Byte := [1, 0, 0, 0, 0, 0, 0, 0, 0, 0, 0, 0, 0x20, 0, 1] ++ List.replicate 193 0

/-- The first 208 bytes of a link control flit of link sequence 1, mode 8. -/
def ctlBody : List Byte := [1, 0, 0, 0, 0, 0, 0, 3] ++ List.replicate 8 0 ++ leBytes 192 (Config.linkControl 8).toNat

/-- A flit: its check over the first 208 bytes, and eight zero bytes. -/
def flitOf (body : List Byte) : List Byte := body ++ leBytes 8 (crc64 body).toNat ++ List.replicate 8 0

theorem checks_of (b : List Byte) (hl : b.length = 208) : flitChecks (flitOf b) = true := by
  have h8 : (leBytes 8 (crc64 b).toNat).length = 8 := rfl
  have hv : ofLeBytes (leBytes 8 (crc64 b).toNat) = (crc64 b).toNat := ofLeBytes_leBytes 8 _ (by have := (crc64 b).isLt; omega)
  simp [flitChecks, flitOf, hl, List.drop_append, h8, hv, List.append_assoc, List.drop_eq_nil_of_le (show b.length ≤ 216 by omega)]

theorem test_Links_checks : flitChecks (flitOf pktBody) = true ∧ flitChecks (flitOf idlBody) = true ∧ flitChecks (flitOf ctlBody) = true :=
  ⟨checks_of _ (by decide +kernel), checks_of _ (by decide +kernel), checks_of _ (by simp [ctlBody, leBytes_length])⟩

/-- The link control flit names a mode. -/
theorem test_Links_control : modeOf (((flitOf ctlBody).drop 16).take 192) = some 8 ∧ bitsOf (ofLeBytes ((flitOf ctlBody).take 8)) 56 8 = 3 ∧
    BitVec.ofNat 16 (ofLeBytes ((flitOf ctlBody).take 8)) = 1 := by
  have h : (((flitOf ctlBody).drop 16).take 192) = leBytes 192 (Config.linkControl 8).toNat := by
    have hl := leBytes_length 192 (Config.linkControl 8).toNat
    rw [flitOf, ctlBody, List.append_assoc, List.append_assoc, List.append_assoc, ← List.append_assoc]
    rw [List.drop_left' (by rfl), List.take_left' hl]
  have h0 : (flitOf ctlBody).take 8 = [1, 0, 0, 0, 0, 0, 0, 3] := rfl
  refine ⟨?_, ?_, ?_⟩
  · rw [h]; simp [modeOf]
  · rw [h0]; decide
  · rw [h0]; decide

/-- The two flits whose every byte before the check is written out. -/
def pktFlit : List Byte := flitOf pktBody

def idlFlit : List Byte := flitOf idlBody

/-- Port 3 of this chip with a change. -/
def linked (f : Port → Port) : State := st0.onPort 3 f

/-- Two flits wait for their acknowledgement. -/
def twoFlits : List Flit := [⟨1, ⟨0, none⟩, [1]⟩, ⟨2, ⟨0, none⟩, [2]⟩]

theorem test_Links_flits : let h0 (bs : List Byte) := ofLeBytes (bs.take 8)
    let h1 (bs : List Byte) := ofLeBytes ((bs.drop 8).take 8)
    let s := linked fun p => { p with replay := twoFlits, tx := 3 }
    ((linked fun p => { p with dead := true }).portAt 3).isDead = true ∧ (s.portAt 3).isDead = false ∧ flitChecks [] = false ∧ sget 0 (s.portAt 3).fails 0 < 7 ∧
    7 ≤ sget 0 ((linked fun p => { p with fails := [(0, 7)] }).portAt 3).fails 0 ∧ bitsOf (h1 idlFlit) (32 + 4 * 1) 4 = 2 ∧
    ((out (exec (.flitReceive 3 0 []) (linked fun p => { p with fails := [(0, 7)] }))).portAt 3).isDead = true ∧
    flitFormed (h0 idlFlit) (h1 idlFlit) = true ∧ flitFormed (h0 pktFlit) (h1 pktFlit) = true ∧
    BitVec.ofNat 16 (h0 idlFlit) = (s.portAt 3).rx + 1 ∧ bitsOf (h0 idlFlit) 56 8 = 0 ∧ (s.portAt 3).replay.length ≤ 512 ∧
    (BitVec.ofNat 16 (h1 idlFlit / 2 ^ 48) - (s.portAt 3).acked).toNat = 1 ∧
    1 < (BitVec.ofNat 16 (h0 idlFlit) - ((linked fun p => { p with rx := 0xFFFF }).portAt 3).rx).toNat ∧
    (BitVec.ofNat 16 (h0 idlFlit) - ((linked fun p => { p with rx := 0x8002 }).portAt 3).rx).toNat < 2 ^ 15 ∧
    2 ^ 15 ≤ (BitVec.ofNat 16 (h0 idlFlit) - ((linked fun p => { p with rx := 0x8001 }).portAt 3).rx).toNat ∧
    BitVec.ofNat 16 (h0 pktFlit) = (s.portAt 3).rx + 1 ∧ bitsOf (h0 pktFlit) 56 8 = 1 ∧ bitsOf (h0 pktFlit) 16 8 = 0 ∧
    sget [] (s.portAt 3).parts (bitsOf (h0 pktFlit) 28 2) = [] ∧ (BitVec.ofNat 16 (h1 pktFlit / 2 ^ 48) - (s.portAt 3).acked).toNat = 0 ∧
    pktFlit.length = 224 ∧ h0 pktFlit < 2 ^ 64 := by decide +kernel

theorem test_Links_packet : ∃ pk i, parsePacket (ofLeBytes (pktFlit.take 8)) ((pktFlit.drop 16).take 192) 0 = some pk ∧ pk.dstEp = st0.endpoint ∧
    arrivalStep pk = some i ∧ pk.op = 2 ∧ pk.va = 0x1000 ∧ pk.data = [9, 0, 0, 0, 0, 0, 0, 0] :=
  ⟨{ blankPacket 0 1 0 0x02 0x1000 with srcEp := 5, pseq := 1, data := leBytes 8 9 }, _, by decide +kernel, by decide +kernel, rfl, rfl, rfl, by decide⟩

theorem test_Links_replay : let s := linked fun p => { p with replay := twoFlits, tx := 3 }
    (s.portAt 3).isDead = false ∧ (out (exec (.linkReplay 3 2) s)).sent = st0.sent ++ [.flit 3 [2]] ∧
    ((linked fun p => { p with dead := true }).portAt 3).isDead = true ∧
    (s.portAt 3).replay ≠ [] ∧ s.cycle.toNat < (s.portAt 3).since + 2 ^ 20 ∧
    (s.portAt 3).since + 2 ^ 20 ≤ ({ s with cycle := 2 ^ 20 } : State).cycle.toNat ∧
    ((out (exec (.ackTimeout 3) { s with cycle := 2 ^ 20 })).portAt 3).isDead = true := by decide +kernel

theorem test_Links_wavelengths : let s (l : Nat) := linked fun p => p.setLane 7 l
    (sget 1024 st0.lanethr (3 / 16)).toNat = 1024 ∧ ((s 3).portAt 3).lane 7 ≠ 1 ∧ (st0.portAt 3).lane 7 = 1 ∧
    ((out (exec (.fecWindowEnd 3 7 1024) st0)).portAt 3).lane 7 = 1 ∧ ((out (exec (.fecWindowEnd 3 7 1025) st0)).portAt 3).lane 7 = 2 ∧
    ((out (exec (.fecWindowEnd 3 7 9000) { st0 with lanethr := [(0, 0)] })).portAt 3).lane 7 = 1 ∧
    ((s 2).portAt 3).lane 7 = 2 ∧ ((out (exec (.retrainEnd 3 7 true) (s 2))).portAt 3).lane 7 = 1 ∧
    ((out (exec (.retrainEnd 3 7 false) (s 2))).portAt 3).lane 7 = 2 ∧
    ((out (exec (.retrainEnd 3 7 false) (linked fun p => (p.setLane 7 2).onWave 7 fun w => { w with attempts := 2 }))).portAt 3).lane 7 = 3 := by
  decide +kernel

/-! ## A running vector record -/

/-- A vector record of 4 elements in the queue of its engine. -/
def vrec : Rec := { rec2 with type := fI32, t0 := 4, b := str 3 }

def vqueued : State := out (exec (.vadd vrec) (streams [fI32, fI32, fI32] (st0.onLcore 0 fun l => { l with sp := (l.sp.setBytes 0x20000 [1, 0, 0, 0x80]).setBytes 0x30000 [0xFF, 0xFF, 0xFF, 0x80] })))

/-- The engine runs the first record of its queue. -/
def vrunning : State := match ((vqueued.coreAt 0).engine .v).q with
  | x :: _ => vqueued.onCore 0 fun c => c.setEngine .v { q := [], run := some ⟨x, Mode.zero, Mode.zero, false, [], 0, 0, none, false, none, []⟩ }
  | [] => vqueued

theorem test_VectorElementValues : ((vrunning.coreAt 0).engine .v).run.map (fun u => decide (
      let c := u.e.cap
      let D := desc 1 fI32
      u.e.instr = .vadd vrec ∧ (vecIntForm u.e.instr).isSome = true ∧ isI fI32 = true ∧ vrec.ctl = 0 ∧ vrec.se = false ∧
      c.d = .stream D (str 1) ∧ descFmt D = fI32 ∧ (activePoints c).length = 4 ∧ (∀ p ∈ activePoints c, 0 ≤ slotIndex (str 1) p) ∧
      (∀ p ∈ activePoints c, ∀ q ∈ activePoints c, slotIndex (str 1) p = slotIndex (str 1) q → p = q) ∧
      (vecSpans u.e.instr c vrec).any (fun p => vrunning.spWaking 0 p.1 p.2) = false ∧
      (vrunning.lcoreAt 0).unfilledIn (vecSpans u.e.instr c vrec) = [])) = some true := by decide +kernel

/-- With no bank that wakes and no region unfilled, the record's fills change nothing. -/
theorem touchSpans_ready (s : State) (lc : Nat) (l : List (Nat × Nat)) (hw : l.any (fun p => s.spWaking lc p.1 p.2) = false)
    (hu : (s.lcoreAt lc).unfilledIn l = []) : s.touchSpans lc l = (s, .ok ()) := by
  simp [State.touchSpans, hw, hu, State.fillAll]

theorem test_VectorElementValues_sum : (((out (exec (.recordCompletion 0 .v) vrunning)).lcoreAt 0).sp.bytes 0x10000 8) = [0, 0, 0, 1, 0, 0, 0, 0] := by
  decide +kernel

/-! ## Resets, boot, power, steps -/

theorem test_ResetsBootAndPower : st0.faults = [] ∧ (2 : Nat) ≤ 2 ∧ (1 : Nat) < 2 ∧ (out (exec (.linkTraining 1 6 16) st0)).sup.links = [(1, (6, 16))] ∧
    (st0.vrAt (st0.taskAt 0).vr).map (·.fn) = some 0 ∧ (st0.taskAt 0).phase = .running ∧
    ((out (exec (.functionLevelReset 0) st0)).taskAt 0).phase = .stopping ∧ ((out (exec (.functionLevelReset 0) st0)).taskAt 0).status = 0x41 ∧
    ((out (exec (.functionLevelReset 1) st0)).taskAt 0).phase = .running := by decide +kernel

theorem test_ResetsBootAndPower_off : let s := { st0 with power := false, agenda := [.event .powerLoss] }
    s.power = false ∧ s.agenda.head? = some (.event .powerLoss) ∧ (Turn.event .powerLoss).isBoot = false ∧ (match step s with | .fault .noPower => true | _ => false) = true ∧
    flashGood st0.sup.flash st0.sup.rollback = false ∧ (Turn.event .boot).isBoot = true ∧
    (out (step { s with agenda := [.event .boot] })).power = true ∧ (out (step { s with agenda := [.event .boot] })).sup.recovery = true := by
  decide +kernel

/-- Where the vendor's signatures verify, boot runs the image of flash and the rollback counter takes its version. -/
theorem test_ResetsBootAndPower_flash (h : Config.vendorEd (flashImage.take 80) ((flashImage.drop 80).take 64) = true)
    (h' : Config.vendorMl (flashImage.take 80) (flashImage.drop 144) = true) :
    let s := { st0 with sup := { st0.sup with flash := flashImage, rollback := 3 } }
    flashGood s.sup.flash s.sup.rollback = true := (test_PlatformMessages_good h h').1

/-- One word at the program counter of the strand that runs next. -/
def fetching (w : Nat) : State := State.reset.withFetchWord 64 w

/-- The turn after the state's next filling. -/
def turned (s : State) : State := ({ s.filled with agenda := s.filled.agenda.tail } : State)

/-- The step's turn is the strand's, its word is fetched, and it decodes to `i`. -/
def fetches (w : Nat) (i : Instr) : Bool :=
  let s := fetching w
  let u := (turned s).toIssue ⟨0, 0, 0⟩
  match u.fetchWords u.me.pc 1 with
  | (_, .ok [v]) => decide (s.power = true ∧ s.filled.agenda = [.strand ⟨0, 0, 0⟩] ∧ (turned s).canIssue ⟨0, 0, 0⟩ = true ∧ u.me.ir = none ∧
      v.toNat = w ∧ isRecordWord v = false) && reads ([v], i)
  | _ => false

-- Class 0, op 0x01, d = 31, a = 1, b = 2 is add s31, s1, s2 (R238).
theorem test_StepRunsDecoded : fetches 0x001F844000000000 (.add 31 1 2) = true := by decide +kernel

/-- A strand blocked at an instruction, one at an address without a page, one that has ended; and core 0's turn. -/
def at_ (t : Turn) (f : Strand → Strand) : State := { st0.onMe f with agenda := [t] }

theorem test_StepRunsDecoded_more : let b := at_ (.strand ⟨0, 0, 0⟩) fun t => { t with status := .blocked, ir := some .nop, atYield := true }
    let n := at_ (.strand ⟨0, 0, 0⟩) fun t => { t with pc := 0x0000FE0000004000 }
    let e := at_ (.strand ⟨0, 0, 0⟩) fun t => { t with status := .retired }
    let d := at_ (.dispatch 0) id
    (turned b).canIssue ⟨0, 0, 0⟩ = true ∧ ((turned b).toIssue ⟨0, 0, 0⟩).me.ir = some .nop ∧ (out (step b)).me.pc = codeBase + 1 ∧ (out (step b)).me.ir = none ∧
    (turned n).canIssue ⟨0, 0, 0⟩ = true ∧ (out (step n)).me.status = .blocked ∧
    (let u := (turned n).toIssue ⟨0, 0, 0⟩; match u.fetchWords u.me.pc 1 with | (_, .wait) => true | _ => false) = true ∧
    (turned e).canIssue ⟨0, 0, 0⟩ = false ∧ d.filled.agenda = [.dispatch 0] ∧ ((turned d).judgeCore 0).pick 0 = some (0, ⟨0, 0, 0⟩) ∧
    ((turned d).judgeCore 9).pick 9 = none := by decide +kernel

theorem test_StepRunsDecoded_illegal : (match decode [0xFFFFFFFFFFFFFFFF] with | .error .illegalClass => true | _ => false) = true ∧
    (match decode [0] with | .error .illegalOp => true | _ => false) = true ∧ isRecordWord 0 = false := by decide +kernel

/-- A code word that the host writes while its task runs keeps the value it had, for the fetches of that task (R236). -/
theorem test_fetch_of_changed_code : let s := { st0 with sup := { st0.sup with fnwBase := 0 }, mem := st0.mem.write 0x20000 8 7 }
    (s.codeWord 0x20000).2 = 7 ∧ (out (exec (.bar2Write 0x20000 [9]) s)).olds = [(0, 0x20000, 7)] := by decide +kernel

/-! ## Encoding and memories -/

theorem test_DecodeInvertsEncode : (Instr.add 31 1 2).wf = true ∧ encode (.add 31 1 2) = some [0x001F844000000000] ∧ encode (.vadd rec1) ≠ none := by decide +kernel

theorem test_MemoriesStayCanonical : ∃ t, Canonical State.reset ∧ step State.reset = .next t ∧ Canonical t :=
  ⟨_, ⟨by decide +kernel, by decide +kernel, by decide +kernel, by decide +kernel⟩, rfl, ⟨by decide +kernel, by decide +kernel, by decide +kernel, by decide +kernel⟩⟩

theorem test_ConstantsAndDescriptorsMove_refused : 1023 < (st0.me.reg 7 + (0 : BitVec 32).signExtend 64).toNat ∧ st0.me.pois 7 = none ∧
    poisoned.me.pois 5 ≠ none := by decide +kernel

/-! ## Running records of every class -/

/-- An engine of core 0 runs a record with what it captured, its queue empty. -/
def running (e : Engine) (i : Instr) (c : Cap) (k : Option Coll) (s : State) : State :=
  s.onCore 0 fun x => x.setEngine e
    { q := [], run := some ⟨⟨⟨0, 0, 0⟩, s.me.sid, 7, codeBase, i, c, []⟩, Mode.zero, Mode.zero, false, [], 0, 0, k, false, none, []⟩ }

/-- The record that an engine of core 0 runs. -/
def runOf (s : State) (e : Engine) : Run := (((s.coreAt 0).engine e).run).getD ⟨⟨⟨0, 0, 0⟩, 0, 0, 0, .nop, s.capWord [], []⟩, Mode.zero, Mode.zero, false, [], 0, 0, none, false, none, []⟩

/-- The state after the record's completion. -/
def completed (s : State) (e : Engine) : State := out (exec (.recordCompletion 0 e) s)

/-- Scratchpad bytes of streams 1 to 4. -/
def tile (bs : List (Nat × List Byte)) (s : State) : State := s.onLcore 0 fun l => { l with sp := bs.foldl (fun m b => m.setBytes b.1 b.2) l.sp }

/-- A float record with a status word, of 1.5 and a signalling NaN against 2.25 and 1. -/
def frec : Rec := { rec2 with t0 := 2, b := str 3, se := true, stat := 0x8000 }

def frunning : State :=
  let s := tile [(0x20000, [0, 0, 0xC0, 0x3F, 1, 0, 0x80, 0x7F]), (0x30000, [0, 0, 0x10, 0x40, 0, 0, 0x80, 0x3F])] (allOf fF32)
  running .v (.vadd frec) (capOf s (.vadd frec) frec) none s

/-- No bank wakes under spans of logical core 0 and no region is unfilled: with that a record's fills change nothing. -/
def settledAt (s : State) (l : List (Nat × Nat)) : Bool := !(l.any fun p => s.spWaking 0 p.1 p.2) && decide ((s.lcoreAt 0).unfilledIn l = [])

theorem touchSpans_of_settledAt {s : State} {l : List (Nat × Nat)} (h : settledAt s l = true) : s.touchSpans 0 l = (s, .ok ()) := by
  simp only [settledAt, Bool.and_eq_true, Bool.not_eq_true', decide_eq_true_eq] at h
  exact touchSpans_ready s 0 l h.1 h.2

/-- 1.5 + 2.25 is 3.75, a signalling NaN gives the canonical NaN with NV. -/
theorem test_VectorElementValues_float : let u := runOf frunning .v
    ((frunning.coreAt 0).engine .v).run = some u ∧ elemRec u.e.instr = some (frec, false) ∧ (elemRec (.vexp frec)).map (·.2) = some true ∧
    isF frec.type = true ∧ settledAt frunning (vecSpans u.e.instr u.e.cap frec) = true ∧
    ((completed frunning .v).lcoreAt 0).sp.bytes 0x10000 8 = [0, 0, 0x70, 0x40, 0, 0, 0xC0, 0x7F] ∧
    ((completed frunning .v).lcoreAt 0).sp.read 0x40000 8 = 1 := by decide +kernel

/-- A row of 1.5 and 2.25. -/
def rowRec : Rec := { rec2 with t0 := 2, d := ⟨0, 1, 0, 0⟩ }

def rowRunning (i : Instr) (r : Rec) : State :=
  let s := tile [(0x20000, [0, 0, 0xC0, 0x3F, 0, 0, 0x10, 0x40])] (allOf fF32)
  running .v i (capOf s i r) none s

theorem test_VectorRowValues : let s := rowRunning (.vsum rowRec) rowRec
    let u := runOf s .v
    ((s.coreAt 0).engine .v).run = some u ∧ (rowPuts (s.lcoreAt 0).sp u).map (·.1) = some rowRec ∧
    settledAt s (vecSpans u.e.instr u.e.cap rowRec) = true ∧ ((completed s .v).lcoreAt 0).sp.bytes 0x10000 4 = [0, 0, 0x70, 0x40] := by decide +kernel

/-- vamax of 1.5 and 2.25: the greatest magnitude in D and, as f64, in sys.amax. -/
theorem test_VectorRowValues_amax : let s := rowRunning (.vamax rowRec) rowRec
    let u := runOf s .v
    isF rowRec.type = true ∧ s.ownerAlive u.e = true ∧ settledAt s (vecSpans u.e.instr u.e.cap rowRec) = true ∧
    ((completed s .v).lcoreAt 0).sp.bytes 0x10000 4 = [0, 0, 0x10, 0x40] ∧ (completed s .v).me.amax.toNat = 0x4002000000000000 ∧
    (completed s .v).me.nanseen = false := by decide +kernel

/-- vgath of the i16 elements 1 and, beyond the table, 0xFFFF. -/
def gathRec : Rec := { rec2 with type := fI16, t0 := 2, a := ⟨0, 2, 0, 0⟩, b := str 3 }

def gathRunning : State :=
  let s := tile [(0x20000, [1, 2, 3, 4]), (0x30000, [1, 0, 0xFF, 0xFF])] (allOf fI16)
  running .v (.vgath gathRec) (capOf s (.vgath gathRec) gathRec) none s

theorem test_VectorRowValues_table : let u := runOf gathRunning .v
    ((gathRunning.coreAt 0).engine .v).run = some u ∧ u.done = [] ∧ u.srcs = none ∧ isI fI16 = true ∧
    (tablePuts (gathRunning.lcoreAt 0).sp u).map (fun x => (x.1, x.2.map fun w => (w.base, w.bit, w.n, w.v))) =
      some (gathRec, [(0x10000, 0, 16, 0x0403), (0x10000, 16, 16, 0)]) ∧ tableBytes u = [(0x20000, 0x30000)] ∧
    settledAt gathRunning (vecSpans u.e.instr u.e.cap gathRec) = true ∧ settledAt gathRunning (tableBytes u) = true ∧
    ((completed gathRunning .v).lcoreAt 0).sp.bytes 0x10000 4 = [3, 4, 0, 0] := by decide +kernel

/-- A product of i8, or of bf16 in FP mode, whose count is 0: every product is zero. -/
def prodRec (f : Fmt) : Rec := { mrec with type := f, type2 := f }

/-- The bank of the product in a kind, its record running. -/
def prodRunning (f : Fmt) (k : BKind) : State :=
  let s := leased ⟨1, 1, 1, 0⟩ (allOf f)
  let s := { s with banks := sset Bank.zero s.banks 0 { Bank.zero with kind := k } }
  running .m (.mma (prodRec f)) { capOf s (.mma (prodRec f)) (prodRec f) with count := some 0 } none s

theorem test_MatrixProductsAccumulate : let s := prodRunning fI8 .int
    let u := runOf s .m
    ((s.coreAt 0).engine .m).run = some u ∧ mulForm u.e.instr = some (prodRec fI8, false, false) ∧ matRow fI8 ≠ 0 ∧ s.tilesOf u.e = [⟨0, 0, 0⟩] ∧
    s.clusterOf 0 0 = 0 ∧ settledAt s (s.matSpans u.e) = true ∧ (s.bankAt 0).kind = mulKind (prodRec fI8) u.e.cap.d ∧ (prodRec fI8).ctl.getLsbD 0 = false ∧
    (s.arrayAt 0).briar = [] ∧ (s.arrayAt 0).bbank = none ∧ s.bankAt 0 = { Bank.zero with kind := .int } ∧
    (mshape (prodRec fI8) u.e.cap false).act = 0 ∧ mulKind (prodRec fI8) u.e.cap.d = .int ∧
    (prodRunning fI8 .none).bankAt 0 = Bank.zero := by decide +kernel

/-- FP mode: both kinds of bank. -/
theorem test_MatrixProductsAccumulate_fp : ((prodRunning fBf16 .f32).bankAt 0).kind = mulKind (prodRec fBf16) (runOf (prodRunning fBf16 .f32) .m).e.cap.d ∧
    ((prodRunning fF64 .f64).bankAt 0).kind = mulKind (prodRec fF64) (runOf (prodRunning fF64 .f64) .m).e.cap.d ∧
    matRow fF64 ≠ 0 ∧ matRow fBf16 ≠ 0 ∧ settledAt (prodRunning fBf16 .f32) ((prodRunning fBf16 .f32).matSpans (runOf (prodRunning fBf16 .f32) .m).e) = true ∧
    settledAt (prodRunning fF64 .f64) ((prodRunning fF64 .f64).matSpans (runOf (prodRunning fF64 .f64) .m).e) = true := by decide +kernel

/-- A bank of zeros without entries is good. -/
theorem goodBank_of {s : State} {p k : Nat} {b : BKind} (hb : s.bankAt k = { Bank.zero with kind := b }) (hn : (s.arrayAt p).bbank = none) : GoodBank s p k := by
  intro c
  have hv : cellV s p k c = 0 := by simp [cellV, hb, hn, Bank.value, Bank.zero]
  rw [hv, hb]
  exact ⟨by simp [Bank.zero], by simp [Bank.zero], by decide⟩

/-- Every V and every sum stays in range where the count is zero. -/
theorem mulProduct_zero {m : Mem} {c : Cap} {r : Rec} {sh : MShape} (hk : mulKind r c.d = .int) (ha : sh.act = 0) (src : ASrc) (i j k : Nat) :
    mulProduct m c r sh src i j k = (0, none) := by
  simp [mulProduct, hk, wholeA, ha]

theorem mulSum_zero {m : Mem} {c : Cap} {r : Rec} {sh : MShape} (hk : mulKind r c.d = .int) (ha : sh.act = 0) (src : ASrc) (i j n : Nat) :
    mulSum m c r sh src i j n = 0 := by
  have h : ∀ l : List Nat, (l.map fun _ => (0 : Int)).foldl (· + ·) 0 = 0 := by
    intro l
    induction l with
    | nil => rfl
    | cons _ _ ih => simpa using ih
  simp only [mulSum, mulProduct_zero hk ha, h]

theorem test_MatrixProductsAccumulate_ranges : let s := prodRunning fI8 .int
    let c := (runOf s .m).e.cap
    let sh := mshape (prodRec fI8) c false
    GoodBank s 0 0 ∧ ∀ i j g, vInRange (cellV s 0 0 (128 * i + j) + mulSum (s.lcoreAt 0).sp c (prodRec fI8) sh .stream i j (min (16 * g) sh.n)) = true ∧
      ∀ l, (mulProduct (s.lcoreAt 0).sp c (prodRec fI8) sh .stream i j l).2 = none := by
  have h := test_MatrixProductsAccumulate
  simp only at h
  obtain ⟨-, -, -, -, -, -, -, -, -, hn, hb, ha, hk, -⟩ := h
  refine ⟨goodBank_of hb hn, fun i j g => ⟨?_, fun l => by rw [mulProduct_zero hk ha]⟩⟩
  have hv : cellV (prodRunning fI8 .int) 0 0 (128 * i + j) = 0 := by simp [cellV, hb, hn, Bank.value, Bank.zero]
  rw [mulSum_zero hk ha, hv]
  decide

/-- A class 5 record on bank 0: one row of two columns. -/
def bankRec (f : Fmt) : Rec := { mrec with type := f, type2 := 0, a := none_, b := none_, t0 := 1 }

/-- Two elements of stream 2, the bank of a kind, the record running on what is claimed. -/
def bankRunning (i : Rec → Instr) (r : Rec) (k : BKind) (n : Option Nat) : State :=
  let s := leased ⟨1, 1, 1, 0⟩ (tile [(0x20000, [5, 0, 0, 0, 0xFF, 0xFF, 0xFF, 0xFF, 0, 0, 0, 0, 0, 0, 0, 0x40])] (streams [r.type, r.type] st0))
  let s := { s with banks := sset Bank.zero s.banks 0 { Bank.zero with kind := k } }
  running .m (i r) { capOf s (i r) r with count := n } none s

/-- The hypotheses of MatrixBanksLoadDrainFold for bank 0 without entries. -/
def bankReady (s : State) (i : Instr) : Bool :=
  let u := runOf s .m
  decide (((s.coreAt 0).engine .m).run = some u ∧ s.claimOf u.e = some ⟨1, 1, 1, 0⟩ ∧ u.e.instr = i ∧ s.clusterOf 0 0 = 0 ∧ (s.arrayAt 0).bbank = none) &&
    settledAt s (s.matSpans u.e)

def ldaRec (f : Fmt) : Rec := { bankRec f with a := str 2 }

def drainRec (f : Fmt) : Rec := { bankRec f with d := str 1 }

theorem test_MatrixBanksLoadDrainFold : [Instr.mzero, .mfold, .mstat].all (fun i =>
      bankReady (bankRunning i (bankRec fI32) .int none) (i (bankRec fI32))) = true ∧
    bankReady (bankRunning .mdrain (drainRec fI32) .int (some 2)) (.mdrain (drainRec fI32)) = true ∧
    bankReady (bankRunning .mlda (ldaRec fI32) .int (some 2)) (.mlda (ldaRec fI32)) = true ∧ ctlRow (ldaRec fI32) + 1 ≤ 128 ∧
    bankReady (bankRunning .mlda (ldaRec fI64) .int (some 2)) (.mlda (ldaRec fI64)) = true ∧
    vInRange (intOf fI64 (elemBits ((bankRunning .mlda (ldaRec fI64) .int (some 2)).lcoreAt 0).sp 0x20000 fI64 1)) = false ∧
    drainVal Bank.zero 0 0 fI32 false .rne 0 = none ∧ drainVal { Bank.zero with kind := .int } 0 0 fI32 false .rne 0 ≠ none := by decide +kernel

/-- mlda of the i32 row 5, −1 and of the i64 row whose second element is beyond V; mdrain of a zero row. -/
theorem test_MatrixBanksLoadDrainFold_values : let s := completed (bankRunning .mlda (ldaRec fI32) .int (some 2)) .m
    let t := completed (bankRunning .mlda (ldaRec fI64) .int (some 2)) .m
    (s.bankAt 0).value 0 = 5 ∧ (s.bankAt 0).value 1 = -1 ∧ (s.bankAt 0).value 2 = 0 ∧ (t.bankAt 0).value 0 = 0 ∧ (t.lcoreAt 0).sp.read 0x800 8 = 0x02000000 := by
  decide +kernel

/-- mma with A from bank 1 through the down-converter. -/
def windowRec : Rec := { prodRec fI8 with ctl := 40, a := imm 0 }

theorem test_MatrixProductsAccumulate_window : let s := leased ⟨3, 1, 1, 0⟩ (allOf fI8)
    let s := { s with banks := sset Bank.zero (sset Bank.zero s.banks 0 { Bank.zero with kind := .int }) 1 { Bank.zero with kind := .int } }
    let s := running .m (.mma windowRec) { capOf s (.mma windowRec) windowRec with count := some 0 } none s
    let u := runOf s .m
    mulForm u.e.instr = some (windowRec, false, true) ∧ s.tilesOf u.e = [⟨0, 0, 0⟩] ∧ (s.windowOf u.e windowRec u 0).isSome ∧
    settledAt s (s.matSpans u.e) = true ∧ (s.bankAt 0).kind = mulKind windowRec u.e.cap.d := by decide +kernel

/-! ### Class 6 -/

/-- Two i16 elements of stream 2 for stream 1. -/
def nearCopy : Rec := { rec2 with type := fI16, t0 := 2, se := true, stat := 0x8000 }

/-- A transfer of two i16 elements in stream 2, at most one far. -/
def transferring (i : Instr) (r : Rec) (s : State) : State :=
  let s := tile [(0x20000, [5, 0, 0xFF, 0xFF])] (streams [fI16, fI16, fI16] s)
  running .t i (capOf s i r) none s

/-- The record runs, no fill bars it, and what it touches is settled. -/
def copyReady (s : State) (i : Instr) (r : Rec) : Bool :=
  let u := runOf s .t
  decide (((s.coreAt 0).engine .t).run = some u ∧ u.e.instr = i ∧ u.void = false ∧ s.fillsBarred u.e (copySpans u.e.cap r) = false) &&
    settledAt s (copySpans u.e.cap r)

/-- A fill of stream 1 with 7, a fetch of the weight store. -/
def nearFill : Rec := { nearCopy with a := imm 7 }

def fetchRec : Rec := { nearCopy with a := imm 0x1000000 }

theorem test_TransferRecordValues_near : let s := transferring (.tcopy nearCopy) nearCopy st0
    let f := transferring (.tfetch fetchRec) fetchRec { st0 with ws := [(0, [(0x1000000, 9)])] }
    nearRec (runOf s .t).e.cap (.tcopy nearCopy) = some nearCopy ∧ copyReady s (.tcopy nearCopy) nearCopy = true ∧
    nearRec (runOf (transferring (.tfill nearFill) nearFill st0) .t).e.cap (.tfill nearFill) = some nearFill ∧
    copyReady (transferring (.tfill nearFill) nearFill st0) (.tfill nearFill) nearFill = true ∧
    copyReady f (.tfetch fetchRec) fetchRec = true ∧
    (pointsLeft (runOf f .t)).all (fun p => !f.wsHeld 0 ((farOf (runOf f .t).e.cap.a (runOf f .t).e.cap 2 p).toNat / 0x1000000)) = true ∧
    ((completed s .t).lcoreAt 0).sp.bytes 0x10000 4 = [5, 0, 0xFF, 0xFF] ∧ ((completed f .t).lcoreAt 0).sp.bytes 0x10000 4 = [9, 0, 0, 0] := by
  decide +kernel

/-- One far element: read from s6's data page, from an unmapped address, from below 0; gathered. -/
def farRead (r : Nat) : Rec := { nearCopy with t0 := 1, a := rg (BitVec.ofNat 5 r), b := imm 0, c := imm 0 }

def gatherRec : Rec := { nearCopy with t0 := 1, a := rg 6, b := str 2 }

theorem test_TransferRecordValues_read : let s := transferring (.tcopy (farRead 6)) (farRead 6) (regs [(6, dataVa)] data)
    let u := runOf s .t
    let g := transferring (.tgather gatherRec) gatherRec (regs [(6, dataVa - 10)] data)
    pointsLeft u = [⟨0, 0, 0, 0⟩] ∧ readForm u.e.cap ⟨0, 0, 0, 0⟩ (s.lcoreAt 0).sp (.tcopy (farRead 6)) = some (farRead 6, (dataVa.toNat : Int)) ∧
    copyReady s (.tcopy (farRead 6)) (farRead 6) = true ∧ copyFmt fI16 = true ∧ s.farBarred u.e dataVa.toNat 2 = false ∧
    (s.xlate (s.recAcc 0 u.e rR) dataVa.toNat).2 = .ok 0x30000 ∧ ((completed s .t).lcoreAt 0).sp.bytes 0x10000 3 = [1, 2, 0] ∧
    readForm (runOf g .t).e.cap ⟨0, 0, 0, 0⟩ (g.lcoreAt 0).sp (.tgather gatherRec) = some (gatherRec, (dataVa.toNat : Int)) ∧
    copyReady g (.tgather gatherRec) gatherRec = true ∧ ((completed g .t).lcoreAt 0).sp.bytes 0x10000 3 = [1, 2, 0] := by decide +kernel

/-- The supervisor has refused the page; the second of two rows lies below address 0, the first being done. -/
def belowRec : Rec := { farRead 6 with t1 := 2, b := imm 0xFFFFFFF0 }

def firstDone (s : State) : State := s.onCore 0 fun x => { x with t := { x.t with run := x.t.run.map fun u => { u with done := [(0, true)] } } }

theorem test_TransferRecordValues_refused : let s := transferring (.tcopy (farRead 6)) (farRead 6) (regs [(6, 2 ^ 50)] { data with denied := [(.record 7, 1, 2 ^ 34)] })
    let g := firstDone (transferring (.tcopy belowRec) belowRec (regs [(6, 4)] data))
    (match (s.xlate (s.recAcc 0 (runOf s .t).e rR) (2 ^ 50)).2 with | .refused _ => true | _ => false) = true ∧ copyReady s (.tcopy (farRead 6)) (farRead 6) = true ∧
    s.farBarred (runOf s .t).e (2 ^ 50) 2 = false ∧ ((completed s .t).lcoreAt 0).sp.read 0x40000 8 = 2 ^ 32 + 128 ∧ copyReady g (.tcopy belowRec) belowRec = true ∧
    pointsLeft (runOf g .t) = [⟨0, 1, 0, 0⟩] ∧
    readForm (runOf g .t).e.cap ⟨0, 1, 0, 0⟩ (g.lcoreAt 0).sp (.tcopy belowRec) = some (belowRec, -12) := by decide +kernel

/-- One element written far: of stream 2, a fill, scattered by the index 5; in no region, in an open one, below 0. -/
def farWrites : List (Instr × Rec × Word) :=
  let r : Rec := { nearCopy with t0 := 1, d := rg 6, b := imm 0, c := imm 0 }
  [(.tcopy r, r, dataVa), (.tfill { r with a := imm 9 }, { r with a := imm 9 }, dataVa), (.tscatter { r with b := str 3 }, { r with b := str 3 }, dataVa - 10)]

theorem test_TransferRecordValues_write : farWrites.all (fun x =>
      let s := transferring x.1 x.2.1 (regs [(6, x.2.2)] data)
      let u := runOf s .t
      copyReady s x.1 x.2.1 && decide (pointsLeft u = [⟨0, 0, 0, 0⟩] ∧
        (writeForm u.e.cap ⟨0, 0, 0, 0⟩ (s.lcoreAt 0).sp x.1).map (fun y => (y.1, y.2.1)) = some (x.2.1, (dataVa.toNat : Int)) ∧ s.holdsFar u.e = false ∧
        s.farBarred u.e dataVa.toNat 2 = false ∧ (s.xlate (s.recAcc 0 u.e rW) dataVa.toNat).2 = .ok 0x30000)) = true ∧
    farWrites.map (fun x => (completed (transferring x.1 x.2.1 (regs [(6, x.2.2)] data)) .t).mem.bytes 0x30000 3) = [[5, 0, 3], [9, 0, 3], [0, 0, 3]] := by
  decide +kernel

theorem test_TransferRecordValues_held : farWrites.all (fun x =>
      let s := transferring x.1 x.2.1 ((regs [(6, x.2.2)] data).onMe fun t => { t with region := true })
      let t := completed s .t
      copyReady s x.1 x.2.1 && s.holdsFar (runOf s .t).e && decide (t.mem = s.mem) &&
        (heldByte (t.places 0) (t.strandAt 0).rsb dataVa.toNat).isSome && (heldByte (t.places 0) (t.strandAt 0).rsb (dataVa.toNat + 2)).isNone) = true := by
  decide +kernel

def belowWrite : Rec := { nearCopy with t0 := 1, t1 := 2, d := rg 6, b := imm 0xFFFFFFF0, c := imm 0 }

theorem test_TransferRecordValues_below : let g := firstDone (transferring (.tcopy belowWrite) belowWrite (regs [(6, 4)] data))
    copyReady g (.tcopy belowWrite) belowWrite = true ∧ pointsLeft (runOf g .t) = [⟨0, 1, 0, 0⟩] ∧
    (writeForm (runOf g .t).e.cap ⟨0, 1, 0, 0⟩ (g.lcoreAt 0).sp (.tcopy belowWrite)).map (·.2.1) = some (-12) ∧
    (completed g .t).mem = g.mem := by decide +kernel

/-- A record that maps, unmaps or flushes entry 5, running. -/
def mapping (i : Instr) (r : Rec) (s : State) : State := running .t i (capOf s i r) none s

def tmap5 : Rec := { urec with d := imm 5, a := rg 6, b := imm 0x9000, c := imm 0x100, ctl := 1, se := true, stat := 0x8000 }

def tunmap5 : Rec := { urec with d := imm 5, se := true, stat := 0x8000 }

/-- Entry 5 over the data page, its first line written and not yet written back. -/
def dirtied : State := (regionAt dataVa .dirty).onLcore 0 fun l =>
  { l with regions := smod Region.zero l.regions 5 fun g => { g with lines := [(0, true)] }, sp := l.sp.setBytes 0x8000 [7, 6] }

theorem test_TransferRecordValues_map : [mapping (.tmap tmap5) tmap5 st0, mapping (.tunmap tunmap5) tunmap5 (mapped st0), mapping (.tflush tunmap5) tunmap5 (mapped st0)].all (fun s =>
      let u := runOf s .t
      decide (((s.coreAt 0).engine .t).run = some u ∧ u.void = false ∧ ((s.lcoreAt 0).reg 5).st ≠ .dirty ∧ u.e.cap.d.val.toNat = 5 ∧
        ((s.lcoreAt 0).reg 5).meets 0x40000 0x40008 = false) && (mapForm u.e.cap ((s.lcoreAt 0).reg 5) u.e.instr).isSome && settledAt s [(0x40000, 0x40008)]) = true ∧
    ((completed (mapping (.tmap tmap5) tmap5 st0) .t).lcoreAt 0).reg 5 = ⟨dataVa, 0x9000, 0x100, true, false, .unfilled, [], 0, false⟩ ∧
    ((completed (mapping (.tunmap tunmap5) tunmap5 (mapped st0)) .t).lcoreAt 0).reg 5 = Region.zero := by decide +kernel

theorem test_TransferRecordValues_writeBack : let s := mapping (.tflush tunmap5) tunmap5 dirtied
    let u := runOf s .t
    ((s.lcoreAt 0).reg 5).st = .dirty ∧ ((s.lcoreAt 0).reg 5).marked = [0] ∧ s.holdsFar u.e = false ∧ s.farBarred u.e dataVa.toNat 64 = false ∧
    (match (s.writeBack 0 5).2 with | .ok () => true | _ => false) = true ∧ (completed s .t).mem.bytes 0x30000 2 = [7, 6] ∧
    ((completed s .t).lcoreAt 0).reg 5 = { (dirtied.lcoreAt 0).reg 5 with st := .filled, lines := [] } := by decide +kernel

/-- tprefetch of region 5, of the pages from the data page (whose next is not mapped); twload. -/
def pre5 : Rec := { urec with d := imm 5 }

def preVa : Rec := { urec with a := rg 6, b := imm 0x20000, ctl := 1 }

def wload : Rec := { urec with d := imm 0x100, a := rg 6, b := imm 64, se := true, stat := 0x8000 }

theorem test_TransferRecordValues_prefetch : let s := mapping (.tprefetch pre5) pre5 (regionAt dataVa .unfilled)
    let w := mapping (.twload wload) wload st0
    (runOf s .t).e.instr = .tprefetch pre5 ∧ pre5.ctl.getLsbD 0 = false ∧ (completed s .t).agenda = s.agenda ++ [.event (.regionFill 0 0 5)] ∧
    settledAt w [(0x40000, 0x40008)] = true ∧ (w.lcoreAt 0).twloads = [] ∧ ((completed w .t).lcoreAt 0).twloads = [⟨dataVa.toNat, 0x100, 64, codeBase⟩] := by
  decide +kernel

theorem test_TransferRecordValues_pages : let s := mapping (.tprefetch preVa) preVa st0
    let u := runOf s .t
    preVa.ctl.getLsbD 0 = true ∧ (s.vrAt (s.taskAt 0).vr).isSome ∧ pagesOf u.e.cap.a.val.toNat u.e.cap.b.val.toNat = [dataVa.toNat / 65536, dataVa.toNat / 65536 + 1] ∧
    (s.vrAt 1).map (fun v => [faultKind (s.walkVr v dataVa.toNat), faultKind (s.walkVr v (dataVa.toNat + 65536))].map (·.map (·.1))) = some [none, some .supervisor] ∧
    (completed s .t).faults.map (fun f => (f.vr, f.page)) = [(1, dataVa.toNat / 65536 + 1)] := by decide +kernel

/-! ### Class 8 -/

/-- A collective record on communicator 3 with its progress, running on two i16 elements of stream 2; messages of VR 9 have come. -/
def collecting (i : Instr) (r : Rec) (c : Comm) (k : Coll) (l : List Staged) : State :=
  let s := tile [(0x20000, [5, 0, 0xFF, 0xFF])] (streams [fI16, fI16, fI16] st0)
  let s := (s.onLcore 0 fun l => { l with comms := sset none l.comms 3 (some c), joined := sset none l.joined 3 (some c.n) }).onVr 1 fun v => { v with staged := l }
  running .c i (capOf s i r) (some k) s

/-- The record runs and what it touches is settled. -/
def collReady (s : State) (i : Instr) (r : Rec) (c : Comm) : Bool :=
  let u := runOf s .c
  decide (((s.coreAt 0).engine .c).run = some u ∧ u.e.instr = i ∧ (recPlan i).map (·.1) = some r ∧ commOf i u.e.cap = 3 ∧ sget none (s.lcoreAt 0).comms 3 = some c) &&
    settledAt s (CCtx.spans ⟨0, u.e, r, 0, 3, c, 1⟩)

def collRec2 : Rec := { rec2 with type := fI16, t0 := 2, b := imm 3, se := true, stat := 0x8000 }

/-- One rank. -/
def alone : Comm := ⟨1, [1], 0, true, 4, none⟩

/-- Rank 0 of two. -/
def pairUp : Comm := ⟨2, [1, 9], 0, true, 4, none⟩

/-- The records of class 8 but cbar and cjoin. -/
def collAll : List (Instr × Rec) :=
  let r := collRec2
  [(.callred r, r), (.credsc r, r), (.callgath r, r), (.cbcast { r with c := imm 0 }, { r with c := imm 0 }), (.ctopk { r with c := str 3, ctl := 1 }, { r with c := str 3, ctl := 1 })]

theorem test_CollectiveRecordValues_alone : collAll.all (fun x => collReady (collecting x.1 x.2 alone Coll.init []) x.1 x.2 alone &&
      decide (rootOf (runOf (collecting x.1 x.2 alone Coll.init []) .c).e = 0 ∧ collCode x.1 ≠ 7)) = true ∧
    collAll.map (fun x => ((completed (collecting x.1 x.2 alone Coll.init []) .c).lcoreAt 0).sp.bytes 0x10000 4) =
      [[5, 0, 0xFF, 0xFF], [5, 0, 0xFF, 0xFF], [5, 0, 0xFF, 0xFF], [5, 0, 0xFF, 0xFF], [5, 0, 0, 0]] := by decide +kernel

/-- The messages of rank 1 for instance 4: its position 7, −2 with no flags; its contribution. -/
def ups : List Staged := [⟨9, msgVa 3 2 4 0 0, leBytes 4 (7 + 0xFFFE * 2 ^ 16)⟩, ⟨9, msgVa 3 5 4 0 0, leBytes 8 0⟩]

/-- Rank 0 has sent its contribution and waits for rank 1's position. -/
def waitUp : Coll := { Coll.init with phase := 2, inst := 4, vals := [5, 0xFFFF] }

theorem test_CollectiveRecordValues_up : let x := (Instr.callred collRec2, collRec2)
    let s := collecting x.1 x.2 pairUp waitUp ups
    collReady s x.1 x.2 pairUp = true ∧ 2 ^ 0 < pairUp.n ∧ pairUp.n ≤ 2 ^ (0 + 1) ∧
    CCtx.take ⟨0, (runOf s .c).e, x.2, 0, 3, pairUp, 1⟩ s 4 1 2 0 1 (CCtx.posCount ⟨0, (runOf s .c).e, x.2, 0, 3, pairUp, 1⟩ 1 0) = some ([7, 0xFFFE], [], 0) ∧
    ((completed s .c).lcoreAt 0).sp.bytes 0x10000 4 = [12, 0, 0xFD, 0xFF] := by decide +kernel

/-- Rank 1 of two waits for the whole; rank 0 for the root's. -/
def waitDown : Coll := { Coll.init with phase := 3, inst := 4 }

def rank1 : Comm := ⟨2, [9, 1], 1, true, 4, none⟩

def downs : List Staged := [⟨9, msgVa 3 3 4 0 0, leBytes 4 0x20001⟩, ⟨9, msgVa 3 5 4 0 0, leBytes 8 0⟩]

theorem test_CollectiveRecordValues_down : let x := (Instr.callred collRec2, collRec2)
    let s := collecting x.1 x.2 rank1 waitDown downs
    let y := (Instr.cbcast { collRec2 with c := imm 1 }, { collRec2 with c := imm 1 })
    let t := collecting y.1 y.2 pairUp waitDown [⟨9, msgVa 3 4 4 0 0, leBytes 4 0x20001⟩]
    collReady s x.1 x.2 rank1 = true ∧ collReady t y.1 y.2 pairUp = true ∧ rank1.rank - 2 ^ upLevel rank1.rank 16 0 = 0 ∧
    CCtx.take ⟨0, (runOf s .c).e, x.2, 0, 3, rank1, 1⟩ s 4 0 3 0 0 2 = some ([1, 2], [], 0) ∧
    CCtx.take ⟨0, (runOf t .c).e, y.2, 0, 3, pairUp, 1⟩ t 4 1 4 0 0 2 = some ([1, 2], [], 0) ∧
    ((completed s .c).lcoreAt 0).sp.bytes 0x10000 4 = [1, 0, 2, 0] ∧ ((completed t .c).lcoreAt 0).sp.bytes 0x10000 4 = [1, 0, 2, 0] := by decide +kernel

/-- cbar of two ranks whose other contribution agrees; callred whose other names another format. -/
def cbarRec : Rec := { urec with b := imm 3, se := true, stat := 0x8000 }

def contributing : Coll := { Coll.init with phase := 1, inst := 4 }

theorem test_CollectiveRecordValues_contributed : let agree : List Staged := [⟨9, msgVa 3 1 4 0 16, [4, 0, 0, 0, 7, 0, 0, 0, 1, 0, 0, 0, 0, 0, 0, 0]⟩]
    let s := collecting (.cbar cbarRec) cbarRec pairUp contributing agree
    let t := collecting (.callred collRec2) collRec2 pairUp contributing agree
    collReady s (.cbar cbarRec) cbarRec pairUp = true ∧ collReady t (.callred collRec2) collRec2 pairUp = true ∧
    CCtx.contributed ⟨0, (runOf s .c).e, cbarRec, 0, 3, pairUp, 1⟩ s 4 = some true ∧
    CCtx.contributed ⟨0, (runOf t .c).e, collRec2, 0, 3, pairUp, 1⟩ t 4 = some false ∧
    ((completed s .c).lcoreAt 0).sp.read 0x40000 8 = 0 ∧ ((completed t .c).lcoreAt 0).sp.read 0x40000 8 = 1 := by decide +kernel

/-- cjoin of VR 1 alone and of VRs 1 and 9, whose join agrees or comes from another list. -/
def joinRec (n : BitVec 16) : Rec := { rec2 with type := fN32, t0 := n, d := imm 3, a := str 2, se := true, stat := 0x8000 }

def joining (n : BitVec 16) (k : Coll) (l : List Staged) : State :=
  let s := tile [(0x20000, [1, 0, 0, 0, 9, 0, 0, 0])] (streams [fN32, fN32] st0)
  let s := (s.onLcore 0 fun l => if k = Coll.init then l else { l with comms := sset none l.comms 3 (some ⟨2, [1, 9], 0, true, 0, none⟩) }).onVr 1 fun v => { v with staged := l }
  running .c (.cjoin (joinRec n)) (capOf s (.cjoin (joinRec n)) (joinRec n)) (some k) s

theorem test_CollectiveRecordValues_join : let s := joining 1 Coll.init []
    let u := runOf s .c
    tripN u.e.cap.trips 0 = 1 ∧ u.e.cap.a.bits (s.lcoreAt 0).sp fN32 ⟨0, 0, 0, 0⟩ = 1 ∧ (s.taskAt 0).vr = 1 ∧ (s.vrAt 1).isSome ∧ s.heldElsewhere 0 0 3 = false ∧
    settledAt s (u.e.cap.a.spans [⟨0, 0, 0, 0⟩] ++ [(0x40000, 0x40008)]) = true ∧ recPlan u.e.instr ≠ none ∧
    sget none ((completed s .c).lcoreAt 0).comms 3 = some ⟨1, [1], 0, true, 0, none⟩ := by decide +kernel

theorem test_CollectiveRecordValues_joined : [true, false].all (fun good =>
      let d := if good then joinBytes [1, 9] (st0.taskAt 0).launch 1 else joinBytes [9, 1] (st0.taskAt 0).launch 1
      let s := joining 2 { Coll.init with phase := 1 } [⟨9, msgVa 3 0 0 0 16, d⟩]
      let q : CCtx := ⟨0, (runOf s .c).e, joinRec 2, 0, 3, ⟨2, [1, 9], 0, true, 0, none⟩, 1⟩
      decide (q.joinsAgree (s.taskAt 0).launch s = some good ∧
        (sget none ((completed s .c).lcoreAt 0).comms 3).map (·.good) = some good ∧ ((completed s .c).lcoreAt 0).sp.read 0x40000 8 = if good then 0 else 1)) = true := by
  decide +kernel

/-! ### Esync, launches, larger pages, fills that wait, packages -/

theorem test_EsyncCompletes : st0.recordsBusy = false ∧ st0.remoteBusy st0.me.sid = false ∧ st0.me.errs = [] ∧ (st0.lcoreAt st0.myLc).errs = [] ∧
    st0.me.rfails = [] ∧ (st0.lcoreAt st0.myLc).rfails = [] ∧ (out (exec .esync st0)).me.pc = codeBase + 1 := by decide +kernel

/-- The supervisor has performed the arm already. -/
theorem test_LaunchProtocol_again : let s := (admitted .idle).onSupWin armPkt.srcvr.toNat fun w => { w with high := armPkt.pseq, recs := sset none w.recs armPkt.pseq.toNat (some ⟨true, 0, []⟩) }
    s.supFormed armPkt = true ∧ seqAbove (s.supWin armPkt.srcvr.toNat).high armPkt.pseq = false ∧ seqIn (s.supWin armPkt.srcvr.toNat).high armPkt.pseq = true ∧
    (sget none (s.supWin armPkt.srcvr.toNat).recs armPkt.pseq.toNat).map (·.done) = some true ∧
    ((out (exec (.arm armPkt) s)).taskAt 3).phase = .idle := by decide +kernel

/-- The launch has lost a member, its step task running or none. -/
theorem test_LaunchProtocol_lost : let s := (admitted .running).onTask 3 fun t => { t with lost := true }
    let d : State := { st0 with sup := { st0.sup with lostSent := [0x01000007] } }
    (s.taskAt 3).phase = .running ∧ (s.taskAt 3).launch = 0x01000007 ∧ ((out (exec (.peerFailure 0x01000007) s)).taskAt 3).phase = .stopping ∧
    ((out (exec (.peerFailure 0x01000007) s)).taskAt 3).status = 0x12 ∧ (d.tasks.all fun e => !e.2.lost) = true ∧
    (out (exec (.peerFailure 0x01000007) d)).sup.lostSent = [0x01000007] := by decide +kernel

/-- The 64 MiB of the data page are one LPDDR6 page with hint 11. -/
def tieredLarge : State :=
  let s := tiered lpBase 3 []
  { s with mem := s.mem.write (0x14000 + 8 * (codeVa / 2 ^ 26 % 1024)) 8 (pageEntry lpBase 0x1B + 3 * 1024) }

theorem test_PagesPromotedAndDemoted_larger : ((tieredLarge.faultAt 4).map fun f => (f.kind, (tieredLarge.promotable f).map fun w => (w.last.lvl, w.last.at_))) =
      some (.promote, some (1, 0x14000 + 8 * (codeVa / 2 ^ 26 % 1024))) ∧ quiet tieredLarge = true ∧
    (out (exec (.tierPromotion 4) tieredLarge)).mem.read (0x14000 + 8 * (codeVa / 2 ^ 26 % 1024)) 8 / 1024 % 4 = 0 ∧
    (out (exec (.tierPromotion 4) tieredLarge)).faults = [] := by decide +kernel

/-- The function has spent its HBM4E balance; the data page is not mapped. -/
theorem test_RegionFillsAndStoreCopies_waits : let h := (st0.onLcore 0 fun l => { l with regions := sset Region.zero l.regions 5 ⟨dataVa, 0x8000, 64, true, true, .unfilled, [], 0, false⟩ })
    let h := h.onFn 0 fun f => { f with allot := sset 0xFFFFFFFF f.allot 0 1000, bal := sset 0 f.bal 0 (-1) }
    let w := regionAt (dataVa + 65536) .unfilled
    h.budgetHeld (h.taskAt 0).vr 0 = true ∧ ((h.lcoreAt 0).reg 5).st = .unfilled ∧ ((out (exec (.regionFill 0 0 5) h)).lcoreAt 0).sp = (h.lcoreAt 0).sp ∧
    w.budgetHeld (w.taskAt 0).vr 0 = false ∧ (dataVa.toNat + 65536) % 65536 + 64 ≤ 65536 ∧
    (match w.gvRead (w.mapAcc 0 5 rR) (dataVa.toNat + 65536) 64 with | (_, .wait) => true | _ => false) = true ∧
    ((out (exec (.regionFill 0 0 5) w)).lcoreAt 0).reg 5 = { (w.lcoreAt 0).reg 5 with filling := true } := by decide +kernel

/-- A part in a package refuses an image; one of 34 clusters a pair of C-dies lists what is fused. -/
theorem test_PlatformMessages_package : answer (out (exec (.image 0 0) { mail st0 0 0 9 (words [0]) .busy with isPackage := true })) 0 0 = (.replied, 2, []) ∧
    st0.isPackage = false ∧ st0.identity.active = 72 ∧ ({ st0 with bin := .s272 } : State).identity.active = 68 ∧
    ({ st0 with bin := .s272 } : State).identity.fused = [0, 18, 36, 54] := by decide +kernel

theorem test_ResetsBootAndPower_package : let s : State := { st0 with isPackage := true }
    (out (exec .boot s)).sup.recovery = false ∧ (out (exec .boot s)).sup.running = [] ∧ (out (exec .boot st0)).sup.recovery = true := by decide +kernel

/-! ### Expired deadlines, stores held together, windows that are open -/

/-- The deadline of the gang's pre-emption has expired. -/
def lateFor (s : State) : State := s.onTask 0 fun t => { t with preq := true, reqAt := 0, deadline := 0 }

theorem test_TrapsEnterAndReturn_expired : (lateFor (armed st0)).expired (st0.cur.key / 1152) = true ∧ st0.expired (st0.cur.key / 1152) = false ∧
    (lateFor (armed poisoned)).expired (st0.cur.key / 1152) = true ∧ (out (exec (.trap 1) (lateFor (armed st0)))).me.pc = codeBase ∧
    ((out (exec (.brk 1) (lateFor st0))).taskAt 0).phase = .running ∧
    (out (exec (.bc .eq 5 1 0) (lateFor (armed poisoned)))).me.pc = codeBase := by decide +kernel

/-- A trap enters its handler in each of these states. -/
theorem test_Enters : ∀ s ∈ [armed st0, armed poisoned, failing, failingR, inRegion], Enters s := by
  unfold Enters
  decide +kernel

/-- Two stores held of the first byte of the data page, in an open region. -/
def twoHeld : State := st0.onMe fun t => { t with region := true, rsb := [.bytes oneByte, .bytes { oneByte with uid := 10, data := [(0, some 0xCD)] }] }

/-- With the HBM4E balance of the function spent. -/
def spent (s : State) : State := s.onFn 0 fun f => { f with allot := sset 0xFFFFFFFF f.allot 0 1000, bal := sset 0 f.bal 0 (-1) }

/-- A held block as the commit of a state releases it, in the state that the commit performs it in. -/
def releasedIn (s : State) (b : HeldBlk) : State × Held :=
  ((s.onMe fun t => { t with rsb := [], region := false }).tickUid.onMe fun t => { t with pending := [] }, .bytes { b with com := some s.uid })

theorem test_CommitPerformsHeldStore_more : let x := releasedIn twoHeld oneByte
    let y := releasedIn twoHeld { oneByte with uid := 10, data := [(0, some 0xCD)] }
    let w := releasedIn (spent twoHeld) oneByte
    let s1 := (x.1.perform (twoHeld.ownerOf twoHeld.cur.key) x.2).1
    twoHeld.me.pending = [] ∧ (x.1.perform (twoHeld.ownerOf twoHeld.cur.key) x.2).2 = (none, none) ∧
    ((s1.heldEnds x.2 [y.2]).perform (twoHeld.ownerOf twoHeld.cur.key) y.2).2 = (none, none) ∧
    (out (exec .yield twoHeld)).mem.byte 0x30000 = 0xCD ∧ (w.1.perform ((spent twoHeld).ownerOf (spent twoHeld).cur.key) w.2).2 = (some w.2, none) ∧
    (out (exec .region (spent twoHeld))).me.pending = [x.2, y.2] ∧ (out (exec .region (spent twoHeld))).mem = st0.mem := by decide +kernel

theorem test_SupervisorInstructions_region : let s := armed (sup0.onMe fun t => { t with region := true })
    s.cur = supRef ∧ s.me.region = true ∧ sup0.me.region = false ∧
    [Instr.varm 10 1 2, .vgo 10 1, .migr 10 4 3].all (fun i => decide ((out (exec i s)).me.cause = 0x0F)) = true := by decide +kernel

/-- Window 4094 as it stands, and what a grant of the data page makes of it and of d. -/
def regrant (w : BitVec 128) : List (BitVec 128) × Bool :=
  let t := out (exec (.grant 1 17 18 19) (granting.onVr 1 fun v => { v with windows := sset 0 v.windows 4094 w }))
  ((t.vrAt 1).toList.map fun v => v.win 4094, decide (t.me.reg 1 = 0))

/-- The window of the data page, of a generation. -/
def dataWin (g : BitVec 8) : BitVec 128 := mkWin (dataVa + 0xFFFF).toNat g dataVa.toNat false true 7

/-- Open with the same contents, with others at generation 5 and 255, and sealed; revoke below 255. -/
theorem test_GrantRevokeFence_open : winSealed (dataWin 5) = false ∧ winOpen (dataWin 5) = true ∧ winBase (dataWin 5) = dataVa.toNat ∧
    winLimit (dataWin 5) = (dataVa + 0xFFFF).toNat ∧ winRmax (dataWin 5) = 7 ∧ winGen (dataWin 5) = 5 ∧ regrant (dataWin 5) = ([dataWin 5], false) ∧
    regrant (mkWin 5 5 1 false true 7) = ([dataWin 6], false) ∧ regrant (mkWin 5 255 1 false true 7) = ([mkWin 5 255 1 true false 7], true) ∧
    regrant (mkWin 5 255 1 true false 7) = ([mkWin 5 255 1 true false 7], true) ∧
    (let s := (regs [(17, 4094)] st0).onVr 1 fun v => { v with windows := sset 0 v.windows 4094 (dataWin 5) };
      (out (exec (.revoke 1 17) s)).me.reg 1 = 6 ∧ ((out (exec (.revoke 1 17) s)).vrAt 1).map (fun v => (winGen (v.win 4094), winOpen (v.win 4094))) = some (6, true)) := by
  decide +kernel

/-! ### Records of the other engines that leave their queues -/

/-- An entry of strand 0 at the head of a queue of core 0, another behind it or not. -/
def atHead (e : Engine) (i : Instr) (s : State) (r : Rec := rec2) : State :=
  s.onCore 0 fun c => c.setEngine e { c.engine e with q := [⟨⟨0, 0, 0⟩, s.me.sid, 7, 0, i, capOf s i r, []⟩] }

/-- What is there after the head left: the length of the queue, and whether a record runs. -/
def leftOf (e : Engine) (s : State) : Nat × Bool :=
  let q := ((out (exec (.recordLeavesQueue 0 e) s)).coreAt 0).engine e
  (q.q.length, q.run.isSome)

/-- A command of another core runs on array 0. -/
def arrayTaken (s : State) : State :=
  s.onCore 1 fun c => c.setEngine .m
    { q := [], run := some ⟨⟨⟨0, 0, 0⟩, s.me.sid, 8, 0, .mzero (bankRec fI32), capOf s (.mzero (bankRec fI32)) (bankRec fI32), []⟩, Mode.zero, Mode.zero, false, [], 0, 0, none, false, none, []⟩ }

/-- An earlier remote operation of strand 0 has been sent. -/
def sentBefore (s : State) : State := { s with rops := [{ ropOf rld10 false with uid := 5 }] }

theorem test_RecordsLeaveQueueInOrder_engines : let m := atHead .m (.mzero (bankRec fI32)) (leased ⟨1, 1, 1, 0⟩ st0)
    let f := atHead .f (.rst false 1 10 12 13 (fm .n8 .rel)) st0
    let c := atHead .c (.cbar cbarRec) (inComm st0) cbarRec
    (matBankOf (.mzero (bankRec fI32))).isSome ∧ headed m .m = some (true, false, false) ∧ leftOf .m m = (0, true) ∧
    ((m.coreAt 0).m.q.map fun x => (m.mayEnter x, (arrayTaken m).mayEnter x)) = [(true, false)] ∧ leftOf .m (arrayTaken m) = (1, false) ∧
    ((f.coreAt 0).f.q.map fun x => ((fabForm f x.instr).isSome, f.relWaits x.sid x.uid x.instr, (sentBefore f).relWaits x.sid x.uid x.instr)) = [(true, false, true)] ∧
    headed f .f = some (true, false, false) ∧ leftOf .f (sentBefore f) = (1, false) ∧ headed c .c = some (true, false, false) ∧ leftOf .c c = (0, true) := by
  decide +kernel

theorem test_RecordsLeaveQueueInOrder_effects : [(Engine.v, Instr.vmode .rup true 5), (.m, .mmode .sr false 1), (.t, .tmode true), (.m, .mfree urec)].all (fun x =>
      let s := atHead x.1 x.2 st0
      decide (headed s x.1 = some (true, false, false) ∧ leftOf x.1 s = (0, false)) &&
        (((s.coreAt 0).engine x.1).q.all fun y => decide (takesEffect y (s.strandAt 0) = some ((out (exec (.recordLeavesQueue 0 x.1) s)).strandAt 0)))) = true := by
  decide +kernel

theorem test_RecordsLeaveQueueInOrder_fences : let s := atHead .f (.qfence .f 1) st0
    (sentBefore s).unanswered st0.me.sid 7 1 = true ∧ s.unanswered st0.me.sid 7 1 = false ∧ headed s .f = some (true, false, true) ∧
    leftOf .f (sentBefore s) = (1, false) ∧ leftOf .f s = (0, false) ∧ leftOf .v (atHead .v (.qfence .v 1) st0) = (0, false) := by decide +kernel

/-- A word that runs in the fabric engine: 8 bytes for VR 9, which is on this chip. -/
def injecting : State :=
  let s : State := { remote with location := [(9, some remote.endpoint.toNat)] }
  s.onCore 0 fun x => x.setEngine .f
    { q := [], run := some ⟨⟨⟨0, 0, 0⟩, s.me.sid, 7, codeBase, .rst false 1 10 12 13 (fm .i64 .plain), s.capWord [0x1000, 5, 9, 0], []⟩, Mode.zero, Mode.zero, false, [], 0, 0, none, false, none, []⟩ }

/-- The function has spent its fabric balance. -/
def spentFlits (s : State) : State := s.onFn 0 fun f => { f with allot := sset 0xFFFFFFFF f.allot 1 1000, bal := sset 0 f.bal 1 (-1) }

/-- The packets of the word. -/
def injected (s : State) : List RPiece :=
  let u := runOf s .f
  fabPieces (s.taskAt 0).vr (s.lcoreAt 0).sp u.e.instr u.e.cap.vals

theorem test_RecordsLeaveQueueInOrder_injection : let s := injecting
    let u := runOf s .f
    ((s.coreAt 0).engine .f).run = some u ∧ u.void = false ∧ s.rops = [] ∧ settledAt s (u.e.foots.map fun f => (f.lo, f.hi)) = true ∧
    settledAt (spentFlits s) (u.e.foots.map fun f => (f.lo, f.hi)) = true ∧ s.holdsFar u.e = false ∧ (injected s).length = 1 ∧
    injected (spentFlits s) = injected s ∧ s.locWaits u.e.sid u.e.uid (injected s) = false ∧
    (injected s).map (fun p => (s.locOf p.p.dstvr.toNat, s.pairRoom p, (spentFlits s).pairRoom p)) = [(some s.endpoint.toNat, true, false)] ∧
    (completed s .f).unacked.map (fun v => (v.uid, v.p.va, v.p.dstEp)) = [(7, 0x1000, s.endpoint)] ∧ (completed s .f).rops.length = 1 ∧
    ((completed s .f).coreAt 0).f.run = none ∧ (((completed (spentFlits s) .f).coreAt 0).f.run).isSome ∧ (completed (spentFlits s) .f).unacked = [] := by
  decide +kernel

/-! ### Ends of tasks, moves, values -/

/-- Task 0 has ended with entry 5 dirty over the data page, over a page that is refused, or over one that is not mapped. -/
def endedDirty (va : Word) : State :=
  { dirtied with strands := [], denied := [(.region 0 5, 1, 2 ^ 34)] }.onLcore 0 fun l =>
    { l with regions := smod Region.zero l.regions 5 fun g => { g with va := va } }

/-- What the write-back of its first line gives. -/
def lineWritten (va : Word) : Nat :=
  let s := endedDirty va
  match (s.gvWrite (s.mapAcc 0 5 rW) va.toNat ((s.lcoreAt 0).sp.bytes 0x8000 64)).2 with
  | .ok () => 0
  | .refused _ => 1
  | .wait => 2

/-- The hypotheses about the task that ends. -/
def endsDirty (va : Word) : Bool :=
  let s := endedDirty va
  decide ((s.taskAt 0).phase = .running ∧ s.dirty (s.lcsOf 0) = [(0, 5)] ∧ (s.taskAt 0).lost = false ∧
    s.budgetHeld (s.taskAt 0).vr 0 = false ∧ ((s.lcoreAt 0).reg 5).marked = [0]) && (s.leftover 0).isNone && (s.lcsOf 0).all s.haltLine

theorem test_TaskEnds_dirty : endsDirty 0x0007F00000010000 = true ∧ lineWritten 0x0007F00000010000 = 0 ∧
    (out (exec (.endTaskWriteback 0) (endedDirty 0x0007F00000010000))).mem.bytes 0x30000 2 = [7, 6] := by decide +kernel

theorem test_TaskEnds_refused : let t := out (exec (.endTaskWriteback 0) (endedDirty 0x4000000000000))
    endsDirty 0x4000000000000 = true ∧ lineWritten 0x4000000000000 = 1 ∧ (t.taskAt 0).status = 0x0D ∧ (t.taskAt 0).cls = 6 := by decide +kernel

theorem test_TaskEnds_waits : endsDirty 0x0007F00000020000 = true ∧ lineWritten 0x0007F00000020000 = 2 ∧
    ((out (exec (.endTaskWriteback 0) (endedDirty 0x0007F00000020000))).taskAt 0).phase = .running := by decide +kernel

theorem test_budgets_and_forms : listed.budgetHeld (listed.taskAt 0).vr 0 = false ∧ st0.bare = false ∧ ({ st0 with isPackage := true } : State).bare = true ∧
    ({ st0 with isPackage := true, supplied := true } : State).bare = false ∧ (awaiting rld10 true (asking 1 7 false) 0).expired 0 = false ∧
    st0.identity.code = "GZ-S288-M" ∧ ({ st0 with bin := .s272, isPackage := true } : State).identity.code = "GZ-S272-P" ∧
    (moving1 (.leaving 5) 2).budgetHeld 1 0 = false ∧ (moving1 (.leaving 5) 2).budgetHeld 1 1 = false ∧ roomy.ipaFrom context6 = 0 ∧
    ((out (exec (.migrationContext (.charged 1 40)) st0)).vrAt 1).map (·.energy) = (st0.vrAt 1).map (fun v => v.energy + 40) ∧ (st0.vrAt 1).isSome ∧
    ((out (exec (.registerWrite (.route 5) 0) { sup0 with ports := [(0, { Port.init with tx := 9 })] })).portAt 0).acked = 8 := by decide +kernel

/-- The record of vrunning on core 1 of a part with fused clusters, at another time, in deterministic mode. -/
def vrunningElsewhere : State :=
  { vrunning.onCore 1 fun c => c.setEngine .v { q := [], run := some (runOf vrunning .v) } with cycle := 12345, bin := .s272, detmode := true }

theorem test_VectorElementValues_elsewhere : let s := vrunning
    let t := vrunningElsewhere
    let u := runOf s .v
    ((s.coreAt 0).engine .v).run = some u ∧ ((t.coreAt 1).engine .v).run = some u ∧ elemRec u.e.instr = some (vrec, false) ∧ t.drawsOf u.e = s.drawsOf u.e ∧
    (t.lcoreAt 0).sp = (s.lcoreAt 0).sp ∧ settledAt s (vecSpans u.e.instr u.e.cap vrec) = true ∧ settledAt t (vecSpans u.e.instr u.e.cap vrec) = true ∧
    ((out (exec (.recordCompletion 1 .v) t)).lcoreAt 0).sp.bytes 0x10000 8 = [0, 0, 0, 1, 0, 0, 0, 0] := by decide +kernel

/-- Two elements for one near destination, the second of them written before. -/
def oneDest : Rec := { gatherRec with t0 := 2, d := ⟨0, 1, 0, 0⟩ }

theorem test_TransferRecordValues_repeated : let g := transferring (.tgather oneDest) oneDest (regs [(6, dataVa - 10)] data)
    let s := g.onCore 0 fun x => { x with t := { x.t with run := x.t.run.map fun u => { u with done := [(1, true)] } } }
    let u := runOf s .t
    pointsLeft u = [⟨0, 0, 0, 0⟩] ∧ writtenSince u ⟨0, 0, 0, 0⟩ = true ∧ s.farHeld u.e = false ∧ copyReady s (.tgather oneDest) oneDest = true ∧
    (spent s).farHeld u.e = true ∧ (s.xlate (s.recAcc 0 u.e rR) dataVa.toNat).2 = .ok 0x30000 ∧ ((completed s .t).lcoreAt 0).sp.bytes 0x10000 2 = [0, 0] ∧
    writtenSince (runOf (transferring (.tgather gatherRec) gatherRec (regs [(6, dataVa - 10)] data)) .t) ⟨0, 0, 0, 0⟩ = false := by decide +kernel

/-- A cjoin whose joins have all gone may start again. -/
theorem test_CollectiveRecordValues_owed : let s := (joining 1 Coll.init []).onLcore 0 fun l => { l with comms := sset none l.comms 3 (some ⟨2, [1, 9], 0, true, 0, some []⟩) }
    sget none (s.lcoreAt 0).comms 3 = some ⟨2, [1, 9], 0, true, 0, some []⟩ ∧ sget none ((completed s .c).lcoreAt 0).comms 3 = some ⟨1, [1], 0, true, 0, none⟩ := by
  decide +kernel

end Sys2Proof.Tests
end

section
/-! Bytes of numbers, strings and memories: lengths, and what a write reads back as. -/

namespace Sys2Proof.Machine

theorem ofLeBytes_leBytes_mod (n v : Nat) : ofLeBytes (leBytes n v) = v % 256 ^ n := by
  induction n generalizing v with
  | zero => simp [leBytes, ofLeBytes, Nat.mod_one]
  | succ n ih =>
    have hb : (BitVec.ofNat 8 v).toNat = v % 256 := BitVec.toNat_ofNat v 8
    rw [leBytes, ofLeBytes, ih, hb, Nat.pow_succ', Nat.mod_mul]

theorem ofLeBytes_lt (bs : List Byte) : ofLeBytes bs < 256 ^ bs.length := by
  induction bs with
  | nil => simp [ofLeBytes]
  | cons b t ih =>
    have hb : b.toNat < 256 := b.isLt
    rw [ofLeBytes, List.length_cons, Nat.pow_succ']
    omega

/-- Bytes read inside a string that was just written are the string's. -/
theorem Mem.bytes_setBytes (m : Mem) (a : Nat) (bs : List Byte) (i n : Nat) (h : i + n ≤ bs.length) :
    (m.setBytes a bs).bytes (a + i) n = (bs.drop i).take n := by
  induction n generalizing i with
  | zero => simp [Mem.bytes]
  | succ n ih =>
    have hlt : i < bs.length := by omega
    have hbyte : (m.setBytes a bs).byte (a + i) = bs[i] := by
      rw [Mem.byte_setBytes, if_pos (by omega), Nat.add_sub_cancel_left, List.getD_eq_getElem _ _ hlt]
    rw [Mem.bytes, hbyte, Nat.add_assoc, ih (i + 1) (by omega), List.drop_eq_getElem_cons hlt, List.take_succ_cons]

/-- Item `i` of equally long strings joined together. -/
theorem take_drop_flatMap {α β : Type} (f : α → List β) (k : Nat) (hf : ∀ x, (f x).length = k) (l : List α) (i : Nat) (x : α)
    (h : l[i]? = some x) (rest : List β) : ((l.flatMap f ++ rest).drop (k * i)).take k = f x := by
  induction l generalizing i with
  | nil => simp at h
  | cons y t ih =>
    cases i with
    | zero =>
      obtain rfl : y = x := by simpa using h
      simp [hf]
    | succ i =>
      have hk : k * (i + 1) = (f y).length + k * i := by rw [hf, Nat.mul_succ, Nat.add_comm]
      rw [List.flatMap_cons, List.append_assoc, hk, ← List.drop_drop, List.drop_left, ih i (by simpa using h)]

/-! ### The sponge gives as many bytes as it is asked for (R399) -/

theorem keccakRound_length (st : List Word) (rc : Word) : (keccakRound st rc).length = 25 := by
  simp only [keccakRound]
  split
  · next h => simpa using congrArg List.length h
  · next h => simpa using (congrArg List.length h).symm

theorem keccakF_length (st : List Word) : (keccakF st).length = 25 := by
  have hsplit : iotaConsts = iotaConsts.dropLast ++ [0x8000000080008008] := by decide
  rw [keccakF, hsplit, List.foldl_append]
  exact keccakRound_length _ _

theorem absorbAll_length (rate n : Nat) (st : List Word) (bs : List Byte) (h : st.length = 25) :
    (absorbAll rate n st bs).length = 25 := by
  induction n generalizing st bs with
  | zero => exact h
  | succ n ih => exact ih _ _ (keccakF_length _)

theorem sponge_length (rate : Nat) (dom : Byte) (bs : List Byte) (out : Nat) (h : out ≤ 200) :
    (sponge rate dom bs out).length = out := by
  simp only [sponge, List.length_take, List.length_flatMap, leBytes_length, List.map_const', List.sum_replicate, smul_eq_mul,
    absorbAll_length _ _ (List.replicate 25 0) _ List.length_replicate]
  omega

end Sys2Proof.Machine
end

section
/-! Replies to mailbox messages (R392, R393): what a reply leaves in the mailbox, in the function and in the output log. -/

namespace Sys2Proof.Machine

open Sys2Proof.Claims

/-- The header word of a reply (R393). -/
def replyHead (head status len : Nat) : Nat :=
  (head / 2 ^ 56 + 0x80) % 256 * 2 ^ 56 + status * 2 ^ 48 + head / 2 ^ 32 % 2 ^ 16 * 2 ^ 32 + len

theorem replyHead_lt (head status len : Nat) (hs : status < 256) (hl : len < 2 ^ 32) : replyHead head status len < 256 ^ 8 := by
  unfold replyHead
  omega

theorem State.onMbx_congr (s : State) (fn n : Nat) (f g : Mbx → Mbx) (h : f (s.mbx fn n) = g (s.mbx fn n)) :
    s.onMbx fn n f = s.onMbx fn n g := by
  have hm : ∀ e : Mbx → Mbx, s.onMbx fn n e =
      { s with fns := sset Fn.init s.fns fn { s.fnAt fn with mbx := sset Mbx.zero (s.fnAt fn).mbx n (e (s.mbx fn n)) } } := fun _ => rfl
  rw [hm, hm, h]

/-- A mailbox with a reply in it (R392). -/
def Mbx.reply (m : Mbx) (status : Nat) (data : List Byte) : Mbx :=
  { m with bytes := m.bytes.setBytes 0 (leBytes 8 (replyHead m.head status data.length) ++ leBytes 8 0 ++ data), st := .replied }

theorem State.mbxReply_eq (s : State) (fn n status : Nat) (data : List Byte) :
    s.mbxReply fn n status data = (s.onMbx fn n fun m => m.reply status data).vector fn 0 :=
  congrArg (fun t : State => t.vector fn 0) (s.onMbx_congr fn n _ _ rfl)

theorem State.fnAt_mbxReply (s : State) (fn n status : Nat) (data : List Byte) (g : Nat) :
    (s.mbxReply fn n status data).fnAt g =
      if g = fn then { s.fnAt fn with mbx := smod Mbx.zero (s.fnAt fn).mbx n fun m => m.reply status data } else s.fnAt g := by
  rw [State.mbxReply_eq]
  exact s.fnAt_onFn fn g fun x => { x with mbx := smod Mbx.zero x.mbx n fun m => m.reply status data }

theorem State.mbx_mbxReply (s : State) (fn n status : Nat) (data : List Byte) :
    (s.mbxReply fn n status data).mbx fn n = (s.mbx fn n).reply status data := by
  rw [State.mbx, State.fnAt_mbxReply, if_pos rfl]
  exact sget_sset_self _ _ _ _

theorem State.sent_mbxReply (s : State) (fn n status : Nat) (data : List Byte) :
    (s.mbxReply fn n status data).sent = s.sent ++ [.vector (s.fnAt fn).home fn 0] := by
  change s.sent ++ [.vector ((s.mbxReply fn n status data).fnAt fn).home fn 0] = _
  rw [State.fnAt_mbxReply, if_pos rfl]

/-- A reply leaves the partition registers as they were. -/
theorem State.part_mbxReply (s : State) (fn n status : Nat) (data : List Byte) (g : Nat) (r : PartReg) :
    ((s.mbxReply fn n status data).fnAt g).part r = (s.fnAt g).part r := by
  rw [State.fnAt_mbxReply]
  split
  · next hg =>
    subst hg
    cases r <;> rfl
  · rfl

/-- A reply that a message's meaning gives, where it leaves the functions alone, is what the host is told. -/
theorem told_mbxReply (s t : State) (fn n status : Nat) (data : List Byte) (ht : t.fns = s.fns) (hs : status < 256)
    (hd : data.length < 2 ^ 32) : Told s (t.mbxReply fn n status data) fn n status data := by
  have hfn : t.fnAt fn = s.fnAt fn := congrArg (fun m => sget Fn.init m fn) ht
  have hmbx : t.mbx fn n = s.mbx fn n := congrArg (fun f : Fn => sget Mbx.zero f.mbx n) hfn
  have hread : ∀ i k, i + k ≤ 16 + data.length →
      ((t.mbxReply fn n status data).mbx fn n).bytes.bytes i k =
        ((leBytes 8 (replyHead (s.mbx fn n).head status data.length) ++ leBytes 8 0 ++ data).drop i).take k := by
    intro i k hik
    rw [State.mbx_mbxReply, hmbx, Mbx.reply]
    simpa using Mem.bytes_setBytes (s.mbx fn n).bytes 0 _ i k (by simp only [List.length_append, leBytes_length]; omega)
  refine ⟨by rw [State.mbx_mbxReply]; rfl, ?_, ?_, ?_, by simp [State.sent_mbxReply, hfn]⟩
  · rw [Mem.read, hread 0 8 (by omega), List.drop_zero, List.append_assoc, List.take_left' (leBytes_length 8 _), ofLeBytes_leBytes_mod]
    exact Nat.mod_eq_of_lt (replyHead_lt _ _ _ hs hd)
  · rw [Mem.read, hread 8 8 (by omega), List.append_assoc, List.drop_left' (leBytes_length 8 _), List.take_left' (leBytes_length 8 _)]
    rfl
  · rw [hread 16 data.length le_rfl, List.drop_left' (by simp [leBytes_length]), List.take_length]

/-- A message whose meaning leaves the functions alone: the host is told its status and data, and the rest is what the meaning gives. -/
theorem exec_answers {s t : State} {fn n status : Nat} {p data : List Byte} {i : Instr} {f : List Byte → State × Nat × List Byte}
    (hi : exec i s = .next (s.onMessage fn n f)) (h : Asks s fn n p) (hf : f p = (t, status, data)) (ht : t.fns = s.fns)
    (hs : status < 256) (hd : data.length < 2 ^ 32) :
    ∃ u, exec i s = .next u ∧ Told s u fn n status data ∧ u = { t with fns := u.fns, sent := u.sent } := by
  obtain ⟨hbusy, hpay⟩ := h
  refine ⟨t.mbxReply fn n status data, ?_, told_mbxReply s t fn n status data ht hs hd, State.mbxReply_frame _ _ _ _ _⟩
  rw [hi, State.onMessage_busy _ _ _ _ hbusy, hpay, hf]

/-- A message that is refused with a status: nothing else changes but the mailbox and the output log. -/
theorem exec_declines {s : State} {fn n status : Nat} {p : List Byte} {i : Instr} {f : List Byte → State × Nat × List Byte}
    (hi : exec i s = .next (s.onMessage fn n f)) (h : Asks s fn n p) (hf : f p = (s, status, [])) (hs : status < 256) :
    ∃ t, exec i s = .next t ∧ Told s t fn n status [] ∧ t = { s with fns := t.fns, sent := t.sent } :=
  exec_answers hi h hf rfl hs (by simp)

end Sys2Proof.Machine
end

section
/-! QUOTE and IDENTITY (R1, R393, R398, R399). -/

namespace Sys2Proof.Machine

open Sys2Proof.Claims

/-- The partition registers that a quote holds, in its order (R399). -/
def quotedRegs : List PartReg := [.clus0, .clus1, .hbm0, .hbm1, .lp0, .lp1]

/-- The fields of a quote, as strings of bytes one after another (R399). -/
theorem State.quoteFields_eq (s : State) (fn : Nat) (nonce : List Byte) :
    s.quoteFields fn nonce = nonce ++ (sponge 72 0x06 s.sup.running 64 ++ (leBytes 4 (flashVersion s.sup.running) ++
      (leBytes 8 (if s.detmode then 1 else 0) ++ (leBytes 4 fn ++
        ((quotedRegs.flatMap fun r => leBytes 8 ((s.fnAt fn).part r).toNat) ++ leBytes 8 s.cycle.toNat))))) := by
  simp only [State.quoteFields, List.append_assoc, flashVersion, quotedRegs]

theorem quotedRegs_bytes_length (f : PartReg → Nat) : (quotedRegs.flatMap fun r => leBytes 8 (f r)).length = 48 := by
  simp [quotedRegs, leBytes_length]

theorem flashVersion_lt (b : List Byte) : flashVersion b < 2 ^ 32 := by
  have h := ofLeBytes_lt ((b.drop 8).take 4)
  have hlen : ((b.drop 8).take 4).length ≤ 4 := List.length_take_le 4 _
  calc flashVersion b < 256 ^ ((b.drop 8).take 4).length := h
    _ ≤ 256 ^ 4 := Nat.pow_le_pow_right (by decide) hlen

section
variable (s : State) (fn : Nat) {p : List Byte} (hp : p.length = 32)
include hp

theorem State.quoteFields_length : (s.quoteFields fn p).length = 168 := by
  simp only [State.quoteFields_eq, List.length_append, hp, leBytes_length, sponge_length 72 0x06 s.sup.running 64 (by decide),
    quotedRegs_bytes_length]

theorem State.quoteFields_nonce : (s.quoteFields fn p).take 32 = p := by
  simp [State.quoteFields_eq, hp]

theorem State.quoteFields_measurement : ((s.quoteFields fn p).drop 32).take 64 = sponge 72 0x06 s.sup.running 64 := by
  simp [State.quoteFields_eq, hp, sponge_length]

theorem State.quoteFields_version : ofLeBytes (((s.quoteFields fn p).drop 96).take 4) = flashVersion s.sup.running := by
  have hb : ((s.quoteFields fn p).drop 96).take 4 = leBytes 4 (flashVersion s.sup.running) := by
    simp [State.quoteFields_eq, List.drop_append, List.drop_eq_nil_of_le, hp, sponge_length, leBytes_length]
  rw [hb, ofLeBytes_leBytes_mod]
  exact Nat.mod_eq_of_lt (flashVersion_lt _)

theorem State.quoteFields_detmode :
    ofLeBytes (((s.quoteFields fn p).drop 100).take 8) = if s.detmode then 1 else 0 := by
  have hb : ((s.quoteFields fn p).drop 100).take 8 = leBytes 8 (if s.detmode then 1 else 0) := by
    simp [State.quoteFields_eq, List.drop_append, List.drop_eq_nil_of_le, hp, sponge_length, leBytes_length]
  rw [hb, ofLeBytes_leBytes_mod]
  cases s.detmode <;> rfl

theorem State.quoteFields_function : ofLeBytes (((s.quoteFields fn p).drop 108).take 4) = fn % 2 ^ 32 := by
  have hb : ((s.quoteFields fn p).drop 108).take 4 = leBytes 4 fn := by
    simp [State.quoteFields_eq, List.drop_append, List.drop_eq_nil_of_le, hp, sponge_length, leBytes_length]
  rw [hb, ofLeBytes_leBytes_mod, show 256 ^ 4 = 2 ^ 32 by decide]

/-- The partition registers and the cycle count end the fields. -/
theorem State.quoteFields_drop_112 : (s.quoteFields fn p).drop 112 =
    (quotedRegs.flatMap fun r => leBytes 8 ((s.fnAt fn).part r).toNat) ++ leBytes 8 s.cycle.toNat := by
  simp [State.quoteFields_eq, List.drop_append, List.drop_eq_nil_of_le, hp, sponge_length, leBytes_length]

theorem State.quoteFields_partition (i : Nat) (r : PartReg) (h : quotedRegs[i]? = some r) :
    ofLeBytes (((s.quoteFields fn p).drop (112 + 8 * i)).take 8) = ((s.fnAt fn).part r).toNat := by
  rw [← List.drop_drop, s.quoteFields_drop_112 fn hp, take_drop_flatMap _ 8 (fun _ => leBytes_length 8 _) quotedRegs i r h,
    ofLeBytes_leBytes_mod]
  exact Nat.mod_eq_of_lt ((s.fnAt fn).part r).isLt

theorem State.quoteFields_cycle : ofLeBytes ((s.quoteFields fn p).drop 160) = s.cycle.toNat := by
  have hdrop : (s.quoteFields fn p).drop 160 = ((s.quoteFields fn p).drop 112).drop 48 := (List.drop_drop (i := 48) (j := 112)).symm
  rw [hdrop, s.quoteFields_drop_112 fn hp, List.drop_left' (quotedRegs_bytes_length _), ofLeBytes_leBytes_mod]
  exact Nat.mod_eq_of_lt s.cycle.isLt

end

/-- The two signatures of a quote over its fields (R399). -/
def State.quoteSigs (s : State) (b : List Byte) : List Byte :=
  leBytes 64 (Config.signEd (Config.deriveEd Config.deviceSecret).1 s.draw b).toNat ++
    leBytes 3309 (Config.signMl (Config.deriveMl Config.deviceSecret).1 s.draw b).toNat

theorem State.quoteSigs_length (s : State) (b : List Byte) : (s.quoteSigs b).length = 64 + 3309 := by
  rw [State.quoteSigs, List.length_append, leBytes_length, leBytes_length]

/-- QUOTE answers its fields with the signatures behind them, and takes one draw of the signer (R399). -/
theorem quote_answers {s : State} {fn n : Nat} {p : List Byte} (h : Asks s fn n p) (hp : p.length = 32) :
    ∃ t, exec (.quote fn n) s = .next t ∧ Told s t fn n 0 (s.quoteFields fn p ++ s.quoteSigs (s.quoteFields fn p)) ∧
      t = { s with fns := t.fns, draw := s.draw + 1, sent := t.sent } := by
  have hlen : (s.quoteFields fn p ++ s.quoteSigs (s.quoteFields fn p)).length < 2 ^ 32 := by
    rw [List.length_append, State.quoteSigs_length, s.quoteFields_length fn hp]
    decide
  exact exec_answers (t := { s with draw := s.draw + 1 }) rfl h (by simp [hp, State.quoteSigs]) rfl (by decide) hlen

theorem State.mem_fusedList (s : State) (k : Nat) : k ∈ s.fusedList ↔ k < 72 ∧ s.fusedAt k = true := by
  simp [State.fusedList]

/-- Every one of the 72 clusters is active or fused (R3, R10). -/
theorem State.activeClusters_add_fused (s : State) : s.activeClusters + s.fusedList.length = 72 := by
  have hle : s.fusedList.length ≤ 72 := by simpa [State.fusedList] using List.length_filter_le s.fusedAt (List.range 72)
  exact Nat.sub_add_cancel hle

/-- An ordering code names the bin and the form (R1). -/
theorem orderingCode_eq (b : Bin) (package : Bool) : orderingCode b package =
    (match b with | .s288 => "GZ-S288" | .s272 => "GZ-S272" | .s256 => "GZ-S256") ++ (if package then "-P" else "-M") := by
  cases b <;> cases package <;> decide

theorem Identity.bytes_length_le (i : Identity) : i.bytes.length ≤ 4080 := List.length_take_le _ _

/-- IDENTITY answers the identity statement and changes nothing else (R398). -/
theorem identity_answers {s : State} {fn n : Nat} (h : Asks s fn n []) :
    ∃ t, exec (.identity fn n) s = .next t ∧ Told s t fn n 0 s.identity.bytes ∧ t = { s with fns := t.fns, sent := t.sent } :=
  exec_answers rfl h rfl rfl (by decide) (lt_of_le_of_lt s.identity.bytes_length_le (by decide))

end Sys2Proof.Machine
end

section
/-! IMAGE, WINDOW, PARTITION and LOCATIONS (R185, R216, R393, R397). -/

namespace Sys2Proof.Machine

open Sys2Proof.Claims

/-- A message of a wrong length is malformed (R393). -/
theorem platformMessage_malformed {s : State} {fn n : Nat} {p : List Byte} {i : Instr} (h : Asks s fn n p)
    (hi : i = .quote fn n ∧ p.length ≠ 32 ∨ i = .identity fn n ∧ p ≠ [] ∨ i = .window fn n ∧ p.length ≠ 8 ∨
      i = .image fn n ∧ p.length ≤ 8 ∧ s.bare = false) :
    ∃ t, exec i s = .next t ∧ Told s t fn n 1 [] ∧ t = { s with fns := t.fns, sent := t.sent } := by
  obtain ⟨rfl, hp⟩ | ⟨rfl, hp⟩ | ⟨rfl, hp⟩ | ⟨rfl, hp, hb⟩ := hi
  · exact exec_declines rfl h (by simp [hp]) (by decide)
  · exact exec_declines rfl h (by simp [hp]) (by decide)
  · exact exec_declines rfl h (by simp [hp]) (by decide)
  · exact exec_declines rfl h (by simp [hp, hb]) (by decide)

/-- A package without the supplied items does not allow an image message (R4). -/
theorem image_of_bare {s : State} {fn n : Nat} {p : List Byte} (h : Asks s fn n p) (hb : s.bare = true) :
    ∃ t, exec (.image fn n) s = .next t ∧ Told s t fn n 2 [] ∧ t = { s with fns := t.fns, sent := t.sent } :=
  exec_declines rfl h (by simp [hb]) (by decide)

/-- A chunk read back from the empty staging memory that it was written into. -/
theorem Mem.bytes_staged (p : List Byte) : (Mem.setBytes [] 0 (p.drop 8)).bytes 0 (p.length - 8) = p.drop 8 := by
  have hread := Mem.bytes_setBytes [] 0 (p.drop 8) 0 (p.length - 8) (by simp)
  rw [hread, List.drop_zero, ← List.length_drop, List.take_length]

section
variable {s : State} {fn n : Nat} {p : List Byte} (h : Asks s fn n p) (hb : s.bare = false) (hp : 8 < p.length) (h0 : pword p 0 = 0)
include h hb hp h0

/-- A first chunk that ends before the header's length does is staged (R397). -/
theorem image_staged (hlen : p.length - 8 < 16) :
    ∃ t, exec (.image fn n) s = .next t ∧ Told s t fn n 0 [] ∧ t.sup.stagedLen = p.length - 8 ∧
      t.sup.staged.bytes 0 (p.length - 8) = p.drop 8 ∧ t.sup.flash = s.sup.flash ∧ t.sup.running = s.sup.running := by
  obtain ⟨t, hexec, htold, hframe⟩ := exec_answers (i := .image fn n)
    (t := { s with sup := { s.sup with staged := Mem.setBytes [] 0 (p.drop 8), stagedLen := p.length - 8 } }) (status := 0) (data := [])
    rfl h (by simp [hb, hp.not_ge, h0, hlen]) rfl (by decide) (by decide)
  exact ⟨t, hexec, htold, by rw [hframe], by rw [hframe]; exact Mem.bytes_staged p, by rw [hframe], by rw [hframe]⟩

/-- A chunk that completes a good image puts it into flash; it does not run yet (R397). -/
theorem image_good (hlen : 16 ≤ p.length - 8) (hall : flashLength (p.drop 8) ≤ p.length - 8)
    (hgood : flashGood (p.drop 8) s.sup.rollback = true) :
    ∃ t, exec (.image fn n) s = .next t ∧ Told s t fn n 0 [] ∧ t.sup.flash = p.drop 8 ∧ t.sup.running = s.sup.running := by
  obtain ⟨t, hexec, htold, hframe⟩ := exec_answers (i := .image fn n)
    (t := { s with sup := { s.sup with staged := [], stagedLen := 0, flash := p.drop 8 } }) (status := 0) (data := [])
    rfl h (by simp [hb, hp.not_ge, h0, hlen.not_gt, hall.not_gt, Mem.bytes_staged, hgood]) rfl (by decide) (by decide)
  exact ⟨t, hexec, htold, by rw [hframe], by rw [hframe]⟩

/-- A chunk that completes an image which is not good leaves flash as it was (R397). -/
theorem image_bad (hlen : 16 ≤ p.length - 8) (hall : flashLength (p.drop 8) ≤ p.length - 8)
    (hbad : flashGood (p.drop 8) s.sup.rollback = false) :
    ∃ t, exec (.image fn n) s = .next t ∧ Told s t fn n 5 [] ∧ t.sup.flash = s.sup.flash := by
  obtain ⟨t, hexec, htold, hframe⟩ := exec_answers (i := .image fn n)
    (t := { s with sup := { s.sup with staged := [], stagedLen := 0 } }) (status := 5) (data := [])
    rfl h (by simp [hb, hp.not_ge, h0, hlen.not_gt, hall.not_gt, Mem.bytes_staged, hbad]) rfl (by decide) (by decide)
  exact ⟨t, hexec, htold, by rw [hframe]⟩

end

theorem window_answers {s : State} {fn n : Nat} {p : List Byte} (h : Asks s fn n p) (hp : p.length = 8) (h0 : pword p 0 < 65536) :
    ∃ t, exec (.window fn n) s = .next t ∧ Told s t fn n 0 [] ∧ t.sup.fnwBase = BitVec.ofNat 64 (pword p 0) ∧ t.mem = s.mem := by
  obtain ⟨t, hexec, htold, hframe⟩ := exec_answers (i := .window fn n)
    (t := { s with sup := { s.sup with fnwBase := BitVec.ofNat 64 (pword p 0) } }) (status := 0) (data := [])
    rfl h (by simp [hp, h0.not_ge]) rfl (by decide) (by decide)
  exact ⟨t, hexec, htold, by rw [hframe], by rw [hframe]⟩

/-! ### Partitions (R211, R216) -/

/-- A refused partition write changes sched.binderr alone (R211). -/
theorem State.partWrite_refused {s s1 : State} {f : Nat} {r : PartReg} {v : Word} {c : Nat} (h : s.partWrite f r v = (s1, some c)) :
    s1 = s.refuse c f := by
  simp only [State.partWrite] at h
  split at h
  · cases h
  · split at h
    · cases h
      rfl
    · cases h

/-- A partition write touches the functions and sched.binderr only. -/
theorem State.partWrite_frame (s : State) (f : Nat) (r : PartReg) (v : Word) :
    (s.partWrite f r v).1 = { s with fns := (s.partWrite f r v).1.fns, binderr := (s.partWrite f r v).1.binderr } := by
  simp only [State.partWrite]
  split
  · rfl
  · split <;> rfl

/-- PARTITION with a payload that is in form is the write, answered with 0x03 and the code where it is refused. -/
theorem exec_partition {s s1 : State} {fn n : Nat} {p : List Byte} {r : PartReg} {o : Option Nat} (h : Asks s fn n p) (hp : p.length = 24)
    (hf : pword p 0 < 32) (hr : partReg (pword p 1) = some r) (hw : s.partWrite (pword p 0) r (BitVec.ofNat 64 (pword p 2)) = (s1, o)) :
    exec (.partition fn n) s = .next (s1.mbxReply fn n (if o.isSome then 3 else 0) (o.toList.map (BitVec.ofNat 8))) := by
  obtain ⟨hbusy, hpay⟩ := h
  change Host.Outcome.next (s.onMessage fn n _) = _
  rw [State.onMessage_busy _ _ _ _ hbusy, hpay]
  cases o <;> simp [hr, hp, hf.not_ge, hw]

theorem partition_refused {s s1 : State} {fn n : Nat} {p : List Byte} {r : PartReg} {c : Nat} (h : Asks s fn n p) (hp : p.length = 24)
    (hf : pword p 0 < 32) (hr : partReg (pword p 1) = some r)
    (hw : s.partWrite (pword p 0) r (BitVec.ofNat 64 (pword p 2)) = (s1, some c)) :
    ∃ t, exec (.partition fn n) s = .next t ∧ Told s t fn n 3 [BitVec.ofNat 8 c] ∧ t.binderr = s1.binderr ∧
      ∀ g q, (t.fnAt g).part q = (s.fnAt g).part q := by
  have hs1 : s1.fns = s.fns := by rw [State.partWrite_refused hw]; rfl
  refine ⟨_, exec_partition h hp hf hr hw, told_mbxReply s s1 fn n 3 _ hs1 (by decide) (by simp), rfl, fun g q => ?_⟩
  rw [State.part_mbxReply, State.fnAt, hs1, State.fnAt]

theorem partition_written {s s1 : State} {fn n : Nat} {p : List Byte} {r : PartReg} (h : Asks s fn n p) (hp : p.length = 24)
    (hf : pword p 0 < 32) (hr : partReg (pword p 1) = some r)
    (hw : s.partWrite (pword p 0) r (BitVec.ofNat 64 (pword p 2)) = (s1, none)) :
    ∃ t, exec (.partition fn n) s = .next t ∧ (t.mbx fn n).st = .replied ∧ t.mem = s.mem ∧
      ∀ g q, (t.fnAt g).part q = (s1.fnAt g).part q := by
  have hmem : s1.mem = s.mem := by simpa [hw] using congrArg State.mem (s.partWrite_frame (pword p 0) r (BitVec.ofNat 64 (pword p 2)))
  exact ⟨_, exec_partition h hp hf hr hw, by rw [State.mbx_mbxReply]; rfl, hmem, fun g q => State.part_mbxReply _ _ _ _ _ g q⟩

/-! ### Locations (R185) -/

/-- LOCATIONS with one entry sets it, or removes it for endpoint 0xFFF (R185, R393). -/
theorem locations_one {s : State} {fn n : Nat} {p : List Byte} (h : Asks s fn n p) (hp : p.length = 16) (hvr : pword p 0 < 0xFF000)
    (hep : pword p 1 < 4096) :
    ∃ t, exec (.locations fn n) s = .next t ∧ Told s t fn n 0 [] ∧
      ∀ k, sget none t.location k =
        if k = pword p 0 then (if pword p 1 = 0xFFF then none else some (pword p 1)) else sget none s.location k := by
  obtain ⟨t, hexec, htold, hframe⟩ := exec_answers (i := .locations fn n)
    (t := { s with location := sset none s.location (pword p 0) (if pword p 1 = 0xFFF then none else some (pword p 1)) })
    (status := 0) (data := []) rfl h (by simp [hp, hvr.not_ge, hep.not_ge]) rfl (by decide) (by decide)
  refine ⟨t, hexec, htold, fun k => ?_⟩
  rw [hframe]
  exact sget_sset _ _ _ _ _

end Sys2Proof.Machine
end

section
/-! Messages about the platform: the statement. -/

namespace Sys2Proof.Proofs

open Sys2Proof.Machine Sys2Proof.Claims

/-- Settles O44: one lemma for each message and outcome, all of them through what a reply leaves in the mailbox. -/
theorem platformMessages : Obligations.PlatformMessages := by
  intro s fn n p h
  refine ⟨fun hp => ?_, ?_, fun i hi => platformMessage_malformed h hi, image_of_bare h, image_staged h,
    fun hb hp h0 hlen hall => ⟨image_good h hb hp h0 hlen hall, image_bad h hb hp h0 hlen hall⟩, window_answers h,
    fun r s1 hp hf hr => ⟨fun c => partition_refused h hp hf hr, partition_written h hp hf hr⟩, ?_⟩
  · obtain ⟨t, hexec, htold, hframe⟩ := quote_answers h hp
    exact ⟨t, _, hexec, htold, s.quoteSigs_length _, s.quoteFields_length fn hp, s.quoteFields_nonce fn hp, s.quoteFields_cycle fn hp,
      s.quoteFields_function fn hp, s.quoteFields_measurement fn hp, s.quoteFields_version fn hp, s.quoteFields_detmode fn hp,
      s.quoteFields_partition fn hp, hframe⟩
  · rintro rfl
    obtain ⟨t, hexec, htold, hframe⟩ := identity_answers h
    exact ⟨t, hexec, htold, s.identity.bytes_length_le, hframe, s.activeClusters_add_fused, orderingCode_eq s.bin s.isPackage, s.mem_fusedList⟩
  · rintro vr ep hp rfl rfl hvr hep
    exact locations_one h hp hvr hep

end Sys2Proof.Proofs
end

section
/-! Dispatch of class 4 records: what each instruction hands to the shared dispatch, and which check of R254 a record fails first. -/

namespace Sys2Proof.Machine

open Sys2Proof.Claims

/-! ### The lowest poisoned register (R58) -/

/-- The first answer over the numbers below `n` is the one at `k`, where no lower number answers. -/
theorem findSome?_range_eq {α : Type} (f : Nat → Option α) {n k : Nat} {b : α} (hk : k < n) (hb : f k = some b)
    (hlt : ∀ j < k, f j = none) : (List.range n).findSome? f = some b := by
  induction n with
  | zero => omega
  | succ n ih =>
    rw [List.range_succ, List.findSome?_append]
    by_cases h : k < n
    · rw [ih h, Option.some_or]
    · obtain rfl : k = n := by omega
      have hnone : (List.range k).findSome? f = none := List.findSome?_eq_none_iff.2 fun j hj => hlt j (List.mem_range.1 hj)
      rw [hnone, Option.none_or, List.findSome?_singleton, hb]

/-- The lowest-numbered poisoned register of a list is found with its record. -/
theorem Strand.lowPois_eq (t : Strand) {rs : List Reg} {q : Reg} {p : Poison} (hq : q ∈ rs) (hp : t.pois q = some p)
    (hlow : ∀ x ∈ rs, x.toNat < q.toNat → t.pois x = none) : t.lowPois rs = some (q, p) := by
  refine findSome?_range_eq _ (k := q.toNat) (by simpa using q.isLt) ?_ fun j hj => ?_
  · simp [hq, hp]
  · have hlt : j < 2 ^ 5 := lt_trans hj q.isLt
    have hnat : (BitVec.ofNat 5 j).toNat = j := Nat.mod_eq_of_lt hlt
    by_cases hmem : BitVec.ofNat 5 j ∈ rs
    · simp [hmem, hlow _ hmem (by rw [hnat]; exact hj)]
    · simp [hmem]

/-! ### The shared dispatch -/

/-- Every class 4 record is dispatched with the operands, formats, value checks and footprints of its form. -/
theorem exec_vecForm {i : Instr} {r : Rec} {ok : Bool} {w : Wants} {bad : Cap → Bool} {fs : Cap → Option (List Foot)}
    (h : vecForm i = some (r, ok, w, bad, fs)) (s : State) :
    exec i s = .next (s.dispatchRec .v 4 i r (capOf s i r) w { fields := bad (capOf s i r), types := !ok } (fs (capOf s i r))) := by
  cases i <;> simp only [vecForm, Option.some.injEq, Prod.mk.injEq, reduceCtorEq] at h <;> obtain ⟨rfl, rfl, rfl, rfl, rfl⟩ := h <;> rfl

theorem tripsBad_eq_false_iff (ts : List Nat) : tripsBad ts = false ↔ ∀ n ∈ ts, 1 ≤ n ∧ n ≤ 65535 := by
  simp only [tripsBad, List.any_eq_false, decide_eq_true_eq]
  exact forall₂_congr fun n _ => by omega

theorem Cap.anyDesc_eq_false_iff (c : Cap) (f : BitVec 128 → Bool) :
    c.anyDesc f = false ↔ ∀ o ∈ [c.d, c.a, c.b, c.c], ∀ d sl, o = .stream d sl → f d = false := by
  simp only [Cap.anyDesc, List.any_eq_false, Bool.not_eq_true]
  refine forall₂_congr fun o _ => ?_
  cases o <;> simp

/-- The predicate's width is that of the record's type, where the record has both (R267). -/
theorem State.predBad_eq_false_iff (s : State) (r : Rec) :
    s.predBad r = false ↔ (r.pe = true → r.type ≠ 0 → (s.me.cnt r.psel.toNat).width = widthCode (fmtBits r.type)) := by
  simp [State.predBad]

theorem footsPast_iff (q : Nat) (l : List Foot) : footsPast q l = true ↔ ∃ f ∈ l, q < f.hi := by
  simp only [footsPast, List.any_eq_true, decide_eq_true_eq]

theorem State.quotaFoots_some_iff (s : State) (r : Rec) (fs : Option (List Foot)) (l : List Foot) :
    s.quotaFoots r fs = some l ↔ ∃ l0, fs = some l0 ∧ l = l0 ++ statFoot r ∧ ∀ f ∈ l, f.hi ≤ s.myQuota := by
  have hpast : ∀ l, ¬ footsPast s.myQuota l = true ↔ ∀ f ∈ l, f.hi ≤ s.myQuota := fun l => by
    simp only [footsPast_iff, not_exists, not_and, not_lt]
  cases fs with
  | none => simp [State.quotaFoots]
  | some l0 =>
    simp only [State.quotaFoots, Option.some.injEq, exists_eq_left']
    split
    · next h =>
      refine iff_of_false (by simp) ?_
      rintro ⟨rfl, hle⟩
      exact (hpast _).2 hle h
    · next h => exact ⟨fun e => by cases e; exact ⟨rfl, (hpast _).1 h⟩, fun e => by rw [e.1]⟩

theorem State.quotaFoots_none_iff (s : State) (r : Rec) (fs : Option (List Foot)) :
    s.quotaFoots r fs = none ↔ fs = none ∨ ∃ l, fs = some l ∧ ∃ f ∈ l ++ statFoot r, s.myQuota < f.hi := by
  cases fs with
  | none => simp [State.quotaFoots]
  | some l => simp only [State.quotaFoots, ← footsPast_iff]; simp

/-- The room that a queue and the range checker have, as the statements put it (R35, R39). -/
theorem State.noRoom_eq_false_iff (s : State) (e : Engine) (l : List Foot) : s.noRoom e l = false ↔ Room s e l := by
  have htaken : ((s.coreAt s.myCore).engine e).taken e = takenOf s e := by
    simp only [EngineQ.taken, takenOf]
    split <;> rfl
  have hdepth : depth e = queueDepth e := by cases e <;> rfl
  simp only [State.noRoom, Room, htaken, hdepth, Bool.or_eq_false_iff, Bool.and_eq_false_iff, decide_eq_false_iff_not, not_le,
    Bool.not_eq_false', List.isEmpty_iff]
  tauto

theorem State.coreAt_push (s : State) (e : Engine) (x : Entry) (k : Nat) : (s.push e x).coreAt k =
    if k = s.myCore then (s.coreAt s.myCore).setEngine e { (s.coreAt s.myCore).engine e with q := ((s.coreAt s.myCore).engine e).q ++ [x] }
    else s.coreAt k :=
  s.coreAt_onCore s.myCore k _

/-- A record that finds room enters its queue, and its strand retires it; nothing else changes (R35). -/
theorem State.enqueue_room (s : State) (e : Engine) (i : Instr) (c : Cap) (l : List Foot) (n : BitVec 53) (h : Room s e l) :
    Enqueued e i c l s (s.enqueue e i c l n) ∧ (s.enqueue e i c l n).me = s.me.retire n := by
  have hroom : s.enqueue e i c l n = ((s.push e ⟨s.cur, s.me.sid, s.uid, s.me.pc, i, c, l⟩).tickUid).onMe fun t => t.retire n := by
    simp only [State.enqueue, (s.noRoom_eq_false_iff e l).2 h, Bool.false_eq_true, if_false]
  rw [hroom]
  refine ⟨⟨rfl, ⟨fun _ => rfl, fun _ => rfl, fun _ _ => rfl, fun _ _ => rfl, fun _ => rfl⟩, fun k hk => ?_, fun k hk => ?_, ?_⟩, ?_⟩
  · exact (State.strandAt_onStrand _ _ _ _).trans (if_neg hk)
  · exact (s.coreAt_push e _ k).trans (if_neg hk)
  · exact (s.coreAt_push e _ s.myCore).trans (if_pos rfl)
  · exact State.me_onMe _ _

theorem State.enqueue_noRoom (s : State) (e : Engine) (i : Instr) (c : Cap) (l : List Foot) (n : BitVec 53) (h : ¬ Room s e l) :
    s.enqueue e i c l n = s.onMe fun t => { t with status := .blocked } := by
  have hno : s.noRoom e l = true := by
    rw [← s.noRoom_eq_false_iff e l] at h
    simpa using h
  rw [State.enqueue, if_pos hno]
  rfl

/-- A record with no check failing is dispatched or blocks (R35, R254). -/
theorem dispatches_of_enqueue {s : State} {e : Engine} {i : Instr} {c : Cap} {l : List Foot}
    (h : exec i s = .next (s.enqueue e i c l 8)) : Dispatches e i c l s := by
  refine ⟨fun hroom => ⟨_, h, s.enqueue_room e i c l 8 hroom⟩, fun hno => ?_⟩
  rw [h, s.enqueue_noRoom e i c l 8 hno]

/-- Every check of a record that passes is met, so its dispatch comes down to its queue (R254). -/
theorem State.dispatchRec_passes {s : State} {r : Rec} {c : Cap} {w : Wants} {k : Checks} {foots : Option (List Foot)} {l : List Foot}
    (h : RecordPasses s r c w k foots l) (e : Engine) (cls : BitVec 4) (i : Instr) :
    s.dispatchRec e cls i r c w k foots = s.enqueue e i c l 8 := by
  obtain ⟨hpois, htrips, hdesc, hfmt, hpred, hfoots, hcap, hpriv, hregion, hdet, hfields, htypes, halign, hlate⟩ := h
  have hreg : (k.region && s.me.region) = false := by
    cases hk : k.region with
    | false => rfl
    | true => simpa using hregion hk
  have hquota := (s.quotaFoots_some_iff r foots l).2 hfoots
  have hchk : s.recChk r c w k (some l) = none := by
    simp [State.recChk, hpriv, hreg, hdet, Strand.chkPois_none _ _ hpois, (tripsBad_eq_false_iff _).2 htrips,
      (c.anyDesc_eq_false_iff _).2 hdesc, hfields, htypes, (s.predBad_eq_false_iff r).2 hpred, hfmt, halign, hlate, hcap]
  simp [State.dispatchRec, hquota, hchk]

/-! ### The first check that fails (R254) -/

/-- The checks of class 4, of which a record with no poisoned register passes the first. -/
theorem State.recChk_vec {s : State} {r : Rec} (hpois : ∀ q ∈ recRegs r, s.me.pois q = none) (c : Cap) (w : Wants) (bad ok : Bool)
    (foots : Option (List Foot)) : s.recChk r c w { fields := bad, types := !ok } foots =
      (chk (tripsBad c.trips || c.anyDesc descFieldBad || bad) cIllegalField).or
        ((chk (!ok || s.predBad r || c.formatsBad w) cFormat).or ((chk foots.isNone cSpad).or (chk (s.rsbOver [] 0) cCapacity))) := by
  simp [State.recChk, Strand.chkPois_none _ _ hpois]

/-- A record whose lowest poisoned register is `q` traps with its poison record (R57, R58). -/
theorem State.recChk_vec_poisoned {s : State} {r : Rec} {q : Reg} {p : Poison} (hq : q ∈ recRegs r) (hp : s.me.pois q = some p)
    (hlow : ∀ x ∈ recRegs r, x.toNat < q.toNat → s.me.pois x = none) (c : Cap) (w : Wants) (bad ok : Bool) (foots : Option (List Foot)) :
    s.recChk r c w { fields := bad, types := !ok } foots = some { cause := cPoison, va := p.va, info := some (p.width ++ p.cls ++ q) } := by
  simp [State.recChk, Strand.chkPois, s.me.lowPois_eq hq hp hlow]

theorem State.dispatchRec_fails {s : State} {r : Rec} {c : Cap} {w : Wants} {k : Checks} {foots : Option (List Foot)} {x : Trap}
    (h : s.recChk r c w k (s.quotaFoots r foots) = some x) (e : Engine) (cls : BitVec 4) (i : Instr) :
    s.dispatchRec e cls i r c w k foots = s.takeTrap cls x := by
  simp [State.dispatchRec, h]

end Sys2Proof.Machine
end

section
/-! Dispatch of class 4 records: the statements. -/

namespace Sys2Proof.Proofs

open Sys2Proof.Machine Sys2Proof.Claims

/-- Settles O22: every check passes, so the shared dispatch comes down to the queue. -/
theorem vectorRecordsDispatch : Obligations.VectorRecordsDispatch := by
  rintro s i r ok w bad fs l hform rfl hbad hpass
  have hpass' : RecordPasses s r (capOf s i r) w { fields := bad (capOf s i r), types := !true } (fs (capOf s i r)) l := by
    rw [hbad]
    exact hpass
  exact dispatches_of_enqueue (by rw [exec_vecForm hform, State.dispatchRec_passes hpass'])

/-- Settles O27: of the checks in their order, each case names the first that fails. -/
theorem vectorRecordsRefused : Obligations.VectorRecordsRefused := by
  intro s i r ok w bad fs hform
  dsimp only
  have hvalues : ((∀ n ∈ (capOf s i r).trips, 1 ≤ n ∧ n ≤ 65535) ∧ (capOf s i r).anyDesc descFieldBad = false ∧ bad (capOf s i r) = false) ↔
      (tripsBad (capOf s i r).trips || (capOf s i r).anyDesc descFieldBad || bad (capOf s i r)) = false := by
    simp only [← tripsBad_eq_false_iff, Bool.or_eq_false_iff, and_assoc]
  have traps : ∀ x, s.recChk r (capOf s i r) w { fields := bad (capOf s i r), types := !ok } (s.quotaFoots r (fs (capOf s i r))) = some x →
      exec i s = .next (s.takeTrap 4 x) := fun x hx => by rw [exec_vecForm hform, State.dispatchRec_fails hx]
  simp only [hvalues]
  refine ⟨fun q p hq hp hlow => traps _ (State.recChk_vec_poisoned hq hp hlow _ _ _ _ _), fun hpois => ?_⟩
  simp only [State.recChk_vec hpois] at traps
  refine ⟨fun hv => traps _ ?_, fun hv htype => traps _ ?_, fun hv hok hpred hfmt hfoots => traps _ ?_⟩
  · rw [Bool.not_eq_false] at hv
    simp [hv, cIllegalField]
  · have hbad : (!ok || s.predBad r || (capOf s i r).formatsBad w) = true := by
      simpa [or_assoc] using htype
    simp [hv, hbad, cFormat]
  · simp [hv, hok, hpred, hfmt, (s.quotaFoots_none_iff r _).2 hfoots, cSpad]

end Sys2Proof.Proofs
end

section
/-! What a list of puts leaves in a scratchpad, bit by bit, with the status word behind it (R60, R247). -/

namespace Sys2Proof.Machine

open Sys2Proof.Claims

/-! ### Bits of bytes, strings and memories -/

/-- Bit `8 i + j` of a little-endian string is bit `j` of its byte `i`. -/
theorem testBit_ofLeBytes (bs : List Byte) (i j : Nat) (hj : j < 8) :
    (ofLeBytes bs).testBit (8 * i + j) = (bs.getD i 0).getLsbD j := by
  induction bs generalizing i with
  | nil => simp [ofLeBytes]
  | cons b t ih =>
    have hsplit : ofLeBytes (b :: t) = 2 ^ 8 * ofLeBytes t + b.toNat := by rw [ofLeBytes]; omega
    rw [hsplit, Nat.testBit_two_pow_mul_add _ b.isLt]
    cases i with
    | zero => simp [hj, BitVec.getLsbD]
    | succ i =>
      have hlt : ¬ 8 * (i + 1) + j < 8 := by omega
      have hsub : 8 * (i + 1) + j - 8 = 8 * i + j := by omega
      rw [if_neg hlt, hsub, ih, List.getD_cons_succ]

theorem getD_leBytes (n v i : Nat) (hi : i < n) : (leBytes n v).getD i 0 = byteOf v i := by
  induction n generalizing v i with
  | zero => omega
  | succ n ih =>
    cases i with
    | zero => simp [leBytes, byteOf]
    | succ i => rw [leBytes, List.getD_cons_succ, ih _ _ (by omega), byteOf, byteOf, Nat.div_div_eq_div_mul, Nat.pow_succ']

theorem getLsbD_byteOf (v i j : Nat) (hj : j < 8) : (byteOf v i).getLsbD j = v.testBit (8 * i + j) := by
  have hpow : 256 ^ i = 2 ^ (8 * i) := by rw [Nat.pow_mul]
  rw [byteOf, BitVec.getLsbD_ofNat, hpow, Nat.testBit_div_two_pow, Nat.add_comm j]
  simp [hj]

theorem Mem.bytes_getD (m : Mem) (a n i : Nat) (hi : i < n) : (m.bytes a n).getD i 0 = m.byte (a + i) := by
  induction n generalizing a i with
  | zero => omega
  | succ n ih =>
    cases i with
    | zero => simp [Mem.bytes]
    | succ i => rw [Mem.bytes, List.getD_cons_succ, ih _ _ (by omega), Nat.add_assoc, Nat.add_comm 1 i]

@[simp] theorem Mem.bytes_length (m : Mem) (a n : Nat) : (m.bytes a n).length = n := by
  induction n generalizing a with
  | zero => rfl
  | succ n ih => rw [Mem.bytes, List.length_cons, ih]

/-- Bit `y` of the number at `a` is bit `8 a + y` of the memory. -/
theorem Mem.testBit_read (m : Mem) (a n y : Nat) (hy : y < 8 * n) : (m.read a n).testBit y = bitAt m (8 * a + y) := by
  have hsplit : y = 8 * (y / 8) + y % 8 := by omega
  have hbyte : (8 * a + y) / 8 = a + y / 8 := by omega
  have hbit : (8 * a + y) % 8 = y % 8 := by omega
  rw [bitAt, hbyte, hbit, ← Mem.bytes_getD m a n (y / 8) (by omega), ← testBit_ofLeBytes _ _ _ (Nat.mod_lt _ (by decide)), ← hsplit, Mem.read]

/-- A number written at `a` shows its bits, and leaves the bits around it. -/
theorem bitAt_setBytes (m : Mem) (a n v x : Nat) :
    bitAt (m.setBytes a (leBytes n v)) x = if 8 * a ≤ x ∧ x < 8 * (a + n) then v.testBit (x - 8 * a) else bitAt m x := by
  simp only [bitAt, Mem.byte_setBytes, leBytes_length]
  by_cases h : a ≤ x / 8 ∧ x / 8 < a + n
  · have hbits : 8 * a ≤ x ∧ x < 8 * (a + n) := by omega
    have hplace : 8 * (x / 8 - a) + x % 8 = x - 8 * a := by omega
    rw [if_pos h, if_pos hbits, show unlisted = 0 from rfl, getD_leBytes _ _ _ (by omega), getLsbD_byteOf _ _ _ (Nat.mod_lt _ (by decide)), hplace]
  · have hbits : ¬ (8 * a ≤ x ∧ x < 8 * (a + n)) := by omega
    rw [if_neg h, if_neg hbits]

theorem byte_eq_of_bitAt {m m' : Mem} {a : Nat} (h : ∀ x, x / 8 = a → bitAt m x = bitAt m' x) : m.byte a = m'.byte a := by
  refine BitVec.eq_of_getLsbD_eq fun j hj => ?_
  have hx := h (8 * a + j) (by omega)
  rwa [bitAt, bitAt, show (8 * a + j) / 8 = a by omega, show (8 * a + j) % 8 = j by omega] at hx

/-! ### Puts -/

/-- Replacing `n` bits from bit `lo` of a number (R60). -/
theorem testBit_replace (old v lo n y : Nat) : (old / 2 ^ (lo + n) * 2 ^ (lo + n) + v % 2 ^ n * 2 ^ lo + old % 2 ^ lo).testBit y =
    if lo ≤ y ∧ y < lo + n then v.testBit (y - lo) else old.testBit y := by
  have hsplit : old / 2 ^ (lo + n) * 2 ^ (lo + n) + v % 2 ^ n * 2 ^ lo + old % 2 ^ lo =
      2 ^ lo * (2 ^ n * (old / 2 ^ (lo + n)) + v % 2 ^ n) + old % 2 ^ lo := by rw [Nat.pow_add]; ring
  rw [hsplit, Nat.testBit_two_pow_mul_add _ (Nat.mod_lt _ (Nat.two_pow_pos lo)), Nat.testBit_two_pow_mul_add _ (Nat.mod_lt _ (Nat.two_pow_pos n))]
  by_cases h1 : y < lo
  · rw [if_pos h1, if_neg (by omega), Nat.testBit_mod_two_pow]
    simp [h1]
  · by_cases h2 : y < lo + n
    · rw [if_neg h1, if_pos (by omega), if_pos (by omega), Nat.testBit_mod_two_pow, decide_eq_true (by omega : y - lo < n), Bool.true_and]
    · rw [if_neg h1, if_neg (by omega), if_neg (by omega), Nat.testBit_div_two_pow]
      congr 1
      omega

/-- What one put leaves in each bit of a memory. -/
theorem bitAt_setBits (m : Mem) (p : Put) (x : Nat) : bitAt (setBits m p) x =
    if 8 * p.base + p.bit ≤ x ∧ x < 8 * p.base + p.bit + p.n then p.v.testBit (x - (8 * p.base + p.bit)) else bitAt m x := by
  simp only [setBits, putBits, bitAt_setBytes, testBit_replace]
  by_cases hin : 8 * (p.base + p.bit / 8) ≤ x ∧ x < 8 * (p.base + p.bit / 8 + (p.bit % 8 + p.n + 7) / 8)
  · have hread := Mem.testBit_read m (p.base + p.bit / 8) ((p.bit % 8 + p.n + 7) / 8) (x - 8 * (p.base + p.bit / 8)) (by omega)
    rw [if_pos hin, hread]
    by_cases hc : 8 * p.base + p.bit ≤ x ∧ x < 8 * p.base + p.bit + p.n
    · rw [if_pos (by omega), if_pos hc]
      congr 1
      omega
    · rw [if_neg (by omega), if_neg hc]
      congr 1
      omega
  · rw [if_neg hin, if_neg (by omega)]

theorem bitAt_setBits_covered {m : Mem} {p : Put} {x : Nat} (h : Covers p x) :
    bitAt (setBits m p) x = p.v.testBit (x - (8 * p.base + p.bit)) := by
  rw [bitAt_setBits]
  exact if_pos h

theorem bitAt_setBits_outside {m : Mem} {p : Put} {x : Nat} (h : ¬ Covers p x) : bitAt (setBits m p) x = bitAt m x := by
  rw [bitAt_setBits]
  exact if_neg h

/-- A memory after puts in order. -/
def putMem (m : Mem) (ps : List Put) : Mem := ps.foldl setBits m

theorem bitAt_putMem_outside (ps : List Put) (m : Mem) (x : Nat) (h : ∀ p ∈ ps, ¬ Covers p x) : bitAt (putMem m ps) x = bitAt m x := by
  induction ps generalizing m with
  | nil => rfl
  | cons p t ih =>
    rw [putMem, List.foldl_cons, ← putMem, ih _ fun q hq => h q (List.mem_cons_of_mem p hq),
      bitAt_setBits_outside (h p List.mem_cons_self)]

/-- A bit holds what the last put over it gave. -/
theorem bitAt_putMem_last (m : Mem) (l1 l2 : List Put) (p : Put) (x : Nat) (hp : Covers p x) (h : ∀ q ∈ l2, ¬ Covers q x) :
    bitAt (putMem m (l1 ++ p :: l2)) x = p.v.testBit (x - (8 * p.base + p.bit)) := by
  rw [putMem, List.foldl_append, List.foldl_cons, ← putMem, bitAt_putMem_outside l2 _ x h, bitAt_setBits_covered hp]

/-! ### The status word -/

/-- A scratchpad with the status word of a record written, where it has one (R247). -/
def statMem (r : Rec) (w : Word) (m : Mem) : Mem := if r.se then m.setBytes (r.stat.toNat * 8) (leBytes 8 w.toNat) else m

theorem bitAt_statMem {r : Rec} {x : Nat} (h : ¬ InStat r x) (w : Word) (m : Mem) : bitAt (statMem r w m) x = bitAt m x := by
  by_cases hse : r.se = true
  · rw [statMem, if_pos hse, bitAt_setBytes, if_neg]
    exact fun hin => h ⟨hse, by omega, by omega⟩
  · rw [statMem, if_neg hse]

theorem byte_statMem {r : Rec} {a : Nat} (h : ¬ InStat r (8 * a)) (w : Word) (m : Mem) : (statMem r w m).byte a = m.byte a := by
  refine byte_eq_of_bitAt fun x hx => bitAt_statMem (fun hin => h ?_) w m
  obtain ⟨hse, hlo, hhi⟩ := hin
  exact ⟨hse, by omega, by omega⟩

/-- A word written as eight bytes reads back. -/
theorem Mem.read_setBytes_leBytes (m : Mem) (a n v : Nat) (h : v < 256 ^ n) : (m.setBytes a (leBytes n v)).read a n = v := by
  have hbytes := Mem.bytes_setBytes m a (leBytes n v) 0 n (by rw [leBytes_length]; omega)
  rw [Nat.add_zero, List.drop_zero, List.take_of_length_le (by rw [leBytes_length])] at hbytes
  rw [Mem.read, hbytes, ofLeBytes_leBytes_mod, Nat.mod_eq_of_lt h]

theorem read_statMem {r : Rec} (h : r.se = true) (w : Word) (m : Mem) : (statMem r w m).read (r.stat.toNat * 8) 8 = w.toNat := by
  rw [statMem, if_pos h]
  exact Mem.read_setBytes_leBytes _ _ _ _ w.isLt

/-- A record whose scratchpad holds its puts and then its status word has written them. -/
theorem wroteAll_of_sp {lc : Nat} {r : Rec} {ws : List Put} {s t : State} (w : Word)
    (hsp : (t.lcoreAt lc).sp = statMem r w (putMem (s.lcoreAt lc).sp ws)) (hother : ∀ k, k ≠ lc → (t.lcoreAt k).sp = (s.lcoreAt k).sp) :
    WroteAll lc r ws s t := by
  refine ⟨?_, fun x hws hstat => ?_, fun k hk a => by rw [hother k hk]⟩
  · rintro l1 p l2 rfl x hp hstat hl2
    rw [hsp, bitAt_statMem hstat, bitAt_putMem_last _ _ _ _ _ hp hl2]
  · rw [hsp, bitAt_statMem hstat, bitAt_putMem_outside _ _ _ hws]

/-! ### Puts and status words on the machine -/

theorem State.sp_putOne (s : State) (lc : Nat) (p : Put) (k : Nat) :
    ((s.putOne lc p).lcoreAt k).sp = if k = lc then setBits (s.lcoreAt lc).sp p else (s.lcoreAt k).sp :=
  s.sp_spPut lc _ _ k

theorem State.sp_putAll (lc : Nat) (ps : List Put) (s : State) (k : Nat) :
    ((s.putAll lc ps).lcoreAt k).sp = if k = lc then putMem (s.lcoreAt lc).sp ps else (s.lcoreAt k).sp := by
  induction ps generalizing s with
  | nil =>
    split
    · next h => rw [h]; rfl
    · rfl
  | cons p t ih =>
    have hcons : s.putAll lc (p :: t) = (s.putOne lc p).putAll lc t := rfl
    rw [hcons, ih, State.sp_putOne, State.sp_putOne]
    split
    · next h => simp only [if_true]; rfl
    · rfl

/-- Puts touch the logical cores and the release writes they cover, and nothing else. -/
theorem State.putAll_frame (lc : Nat) (ps : List Put) (s : State) :
    s.putAll lc ps = { s with lcores := (s.putAll lc ps).lcores, rels := (s.putAll lc ps).rels } := by
  induction ps generalizing s with
  | nil => rfl
  | cons p t ih =>
    have hcons : s.putAll lc (p :: t) = (s.putOne lc p).putAll lc t := rfl
    rw [hcons, ih]
    rfl

theorem State.lcoreAt_putAll_other (lc : Nat) (ps : List Put) (s : State) (k : Nat) (hk : k ≠ lc) :
    (s.putAll lc ps).lcoreAt k = s.lcoreAt k := by
  induction ps generalizing s with
  | nil => rfl
  | cons p t ih =>
    have hcons : s.putAll lc (p :: t) = (s.putOne lc p).putAll lc t := rfl
    rw [hcons, ih]
    exact (s.lcoreAt_onLcore lc k fun l => l.spPut _ _).trans (if_neg hk)

theorem State.putStatus_frame (s : State) (x : Entry) (r : Rec) (w : Word) :
    s.putStatus x r w = { s with lcores := (s.putStatus x r w).lcores, rels := (s.putStatus x r w).rels } := by
  simp only [State.putStatus]
  split <;> rfl

theorem State.sp_putStatus (s : State) (x : Entry) (r : Rec) (w : Word) (k : Nat) :
    ((s.putStatus x r w).lcoreAt k).sp =
      if k = lckey x.ref.task x.ref.lcore then statMem r w (s.lcoreAt k).sp else (s.lcoreAt k).sp := by
  simp only [State.putStatus, statMem]
  split
  · rw [State.sp_spPut]
    split
    · next h => rw [h]
    · rfl
  · exact (ite_self _).symm

/-- Leaving an error behind touches the errors of a strand or of its logical core only. -/
theorem State.engineError_frame (s : State) (x : Entry) (cls : BitVec 4) :
    s.engineError x cls = { s with strands := (s.engineError x cls).strands, lcores := (s.engineError x cls).lcores } := by
  simp only [State.engineError, State.addErr]
  split <;> rfl

/-- The logical core as it was but for the errors it holds. -/
theorem State.lcoreAt_engineError (s : State) (x : Entry) (cls : BitVec 4) (k : Nat) :
    (s.engineError x cls).lcoreAt k = { s.lcoreAt k with errs := ((s.engineError x cls).lcoreAt k).errs } := by
  simp only [State.engineError, State.addErr]
  split
  · rfl
  · rw [State.lcoreAt_onLcore]
    split
    · next h => rw [h]
    · rfl

/-- The strand as it was but for the errors it holds. -/
theorem State.strandAt_engineError (s : State) (x : Entry) (cls : BitVec 4) (k : Nat) :
    (s.engineError x cls).strandAt k = { s.strandAt k with errs := ((s.engineError x cls).strandAt k).errs } := by
  simp only [State.engineError, State.addErr]
  split
  · rw [State.strandAt_onStrand]
    split
    · next h => rw [h]
    · rfl
  · rfl

theorem State.sp_engineError (s : State) (x : Entry) (cls : BitVec 4) (k : Nat) : ((s.engineError x cls).lcoreAt k).sp = (s.lcoreAt k).sp := by
  rw [State.lcoreAt_engineError]

theorem State.run_endRun (s : State) (core : Nat) (e : Engine) : (((s.endRun core e).coreAt core).engine e).run = none := by
  rw [State.endRun, State.coreAt_onCore_self]
  cases e <;> rfl

/-! ### The end of a vector record (R295, R299) -/

section
variable (s : State) (core : Nat) (u : Run) (r : Rec) (fl : Flags) (n : Nat) (code : BitVec 8)

/-- The end of a vector record touches the status word, errors, release writes and the engine. -/
theorem State.endVec_frame : s.endVec core u r fl n code = { s with
    strands := (s.endVec core u r fl n code).strands, lcores := (s.endVec core u r fl n code).lcores
    rels := (s.endVec core u r fl n code).rels, cores := (s.endVec core u r fl n code).cores } := by
  simp only [State.endVec]
  split
  · rw [State.endRun, State.engineError_frame, State.putStatus_frame]
    rfl
  · rw [State.endRun, State.putStatus_frame]
    rfl

theorem State.run_endVec : (((s.endVec core u r fl n code).coreAt core).engine .v).run = none := State.run_endRun _ core .v

theorem State.sp_endVec (k : Nat) : ((s.endVec core u r fl n code).lcoreAt k).sp =
    if k = lckey u.e.ref.task u.e.ref.lcore then statMem r (statusWord n code 0 fl) (s.lcoreAt k).sp else (s.lcoreAt k).sp := by
  rw [← State.sp_putStatus]
  simp only [State.endVec, State.endRun, State.lcoreAt_onCore]
  split
  · rw [State.sp_engineError]
  · rfl

/-- A record that raises no flag and has no status word ends with its engine idle, and nothing else. -/
theorem State.endVec_quiet (hse : r.se = false) : s.endVec core u r 0 n code = s.endRun core .v := by
  have hno : enabledFlags u.vm.en 0 = false := by simp [enabledFlags]
  simp only [State.endVec, State.putStatus, hse, hno, Bool.false_eq_true, if_false]

end

/-- A completion step runs the record of the engine. -/
theorem exec_recordCompletion {s : State} {core : Nat} {e : Engine} {u : Run} (h : ((s.coreAt core).engine e).run = some u) :
    exec (.recordCompletion core e) s = .next (s.complete core e u) := by
  show execRecordCompletion core e s = _
  simp only [execRecordCompletion, h]

end Sys2Proof.Machine
end

section
/-! Element-wise records of class 4: each one's effect is the write of its rule's value at every active point (R300 to R309, R319). -/

namespace Sys2Proof.Machine

open Sys2Proof.Claims

/-! ### Values of elements -/

theorem fieldBits_le_fmtBits (f : Fmt) : fieldBits f ≤ fmtBits f := by
  revert f
  decide

theorem elemBits_lt (m : Mem) (base : Nat) (f : Fmt) (e : Nat) : elemBits m base f e < 2 ^ fmtBits f := by
  have hlt : elemBits m base f e < 2 ^ fieldBits f := Nat.mod_lt _ (Nat.two_pow_pos _)
  exact hlt.trans_le (Nat.pow_le_pow_right (by decide) (fieldBits_le_fmtBits f))

/-- An operand gives no more bits than its format has. -/
theorem Operand.bits_lt (m : Mem) (f : Fmt) (p : Point) (o : Operand) : o.bits m f p < 2 ^ fmtBits f := by
  cases o with
  | none => exact Nat.two_pow_pos _
  | stream d sl => exact elemBits_lt m _ f _
  | scalar v => exact Nat.mod_lt _ (Nat.two_pow_pos _)

/-- The formats of group F. -/
theorem eq_of_isF {f : Fmt} (h : isF f = true) : f = fF16 ∨ f = fBf16 ∨ f = fF32 ∨ f = fF64 := by
  revert f
  decide

theorem isX_of_isF {f : Fmt} (h : isF f = true) : isMx f = false ∧ isPb f = false ∧ isX f = false := by
  obtain rfl | rfl | rfl | rfl := eq_of_isF h <;> decide

/-- In a format of group F, an operand's value is that of its bits. -/
theorem Operand.fval_of_isF {f : Fmt} (h : isF f = true) (m : Mem) (p : Point) (o : Operand) (ho : o ≠ .none) :
    o.fval m f p = decodeVal f (o.bits m f p) := by
  obtain ⟨hmx, hpb, hx⟩ := isX_of_isF h
  cases o with
  | none => exact absurd rfl ho
  | stream d sl => simp [Operand.fval, streamVal, Operand.bits, hmx, hpb]
  | scalar v => simp [Operand.fval, Operand.bits, hx]

/-- A NaN is told from the bits of an operand, an absent one included. -/
theorem Operand.isNan_of_isF {f : Fmt} (h : isF f = true) (m : Mem) (p : Point) (o : Operand) :
    (o.fval m f p).isNan = (decodeVal f (o.bits m f p)).isNan := by
  by_cases ho : o = .none
  · have hzero : (decodeVal f 0).isNan = false := by obtain rfl | rfl | rfl | rfl := eq_of_isF h <;> decide
    rw [ho, Operand.bits, hzero]
    rfl
  · rw [o.fval_of_isF h m p ho]

/-! ### The model's value functions as the rules state them -/

theorem intBits_eq (f : Fmt) (x : Int) : intBits f x = (x % 2 ^ fmtBits f).toNat := rfl

theorem intMin_eq (a b : Int) : intMin a b = min a b := by
  unfold intMin
  split <;> omega

theorem intMax_eq (a b : Int) : intMax a b = max a b := by
  unfold intMax
  split <;> omega

theorem clampInt_eq (lo hi x : Int) : clampInt (lo, hi) x = if x < lo ∨ hi < x then (if x < lo then lo else hi, true) else (x, false) := by
  by_cases h1 : x < lo
  · simp [clampInt, h1]
  · by_cases h2 : hi < x <;> simp [clampInt, h1, h2]

theorem intRange_eq (f : Fmt) : intRange f = (if isSigned f then -(2 ^ (fmtBits f - 1)) else (0 : Int),
    if isSigned f then 2 ^ (fmtBits f - 1) - 1 else (2 ^ fmtBits f - 1 : Int)) := by
  unfold intRange
  split <;> rfl

/-- Wrapping, or clamping under .sat, is what R301 gives. -/
theorem narrowed_eq (f : Fmt) (sat : Bool) (x : Int) : (if sat then
      (intBits f (clampInt (intRange f) x).1, flagIf (clampInt (intRange f) x).2 fSAT)
    else (intBits f x, 0)) = narrowed f sat x := by
  cases sat with
  | false => rfl
  | true =>
    simp only [narrowed, intRange_eq, clampInt_eq, intBits_eq, if_true, true_and]
    by_cases h : (x < if isSigned f then -(2 ^ (fmtBits f - 1)) else (0 : Int)) ∨
      (if isSigned f then 2 ^ (fmtBits f - 1) - 1 else (2 ^ fmtBits f - 1 : Int)) < x
    · simp only [if_pos h]
      rfl
    · simp only [if_neg h]
      rfl

theorem VCtx.narrow_eq (v : VCtx) (x : Int) : v.narrow x = narrowed v.ty (v.r.ctl.getLsbD 0) x := narrowed_eq _ _ x

theorem fPick_eq (f : Fmt) (mx : Bool) (a b : Nat) : fPick f mx a b = pickSpec f mx a b := by
  simp only [fPick, pickSpec]
  cases vCmp (decodeVal f a) (decodeVal f b) with
  | none => rfl
  | some o => cases o <;> rfl

theorem canon_eq (f : Fmt) (b : Nat) : canon f b = canonSpec f b := rfl

theorem cmpHolds_eq (n : Nat) (hn : n < 8) (o : Option Ordering) : cmpHolds n o = relSpec n o := by
  interval_cases n <;> cases o with
  | none => rfl
  | some o => cases o <;> rfl

/-- One is a power of two that the format holds: its bits are the bias in the exponent field. -/
theorem roundFin_one (c : Fmt) (p : FParam) (hbias : 1 ≤ p.bias) (hexp : -(p.f : Int) ≤ maxExp p) (hmant : 2 ^ p.f ≤ maxMant p) :
    (roundFin c p .ieee .rne 0 false 1 0 false).1 = signBit c false + p.bias * 2 ^ p.f := by
  have htop : topBit 1 = 0 := by decide
  have hround : ∀ qe : Int, qe = -(p.f : Int) → roundQ .rne false 0 1 0 qe false = (2 ^ p.f, false) := by
    rintro qe rfl
    simp [roundQ]
  have hmin : ¬ (0 : Int) < 1 - (p.bias : Int) := by omega
  have hfits : above (2 ^ p.f) (-(p.f : Int)) (maxMant p) (maxExp p) = false := by
    simp only [above, if_pos hexp, decide_eq_false_iff_not, not_lt]
    exact hmant.trans (Nat.le_mul_of_pos_right _ (Nat.two_pow_pos _))
  have hlt : ¬ 2 ^ p.f = 2 ^ (p.f + 1) := by
    rw [Nat.pow_succ]
    have := Nat.two_pow_pos p.f
    omega
  have hcode : encodeMag p (2 ^ p.f) (-(p.f : Int)) = p.bias * 2 ^ p.f := by
    simp [encodeMag, hlt]
  simp only [roundFin, htop, Nat.cast_zero, add_zero, if_neg hmin, zero_sub, hround _ rfl, hfits, Bool.false_eq_true, if_false, hcode]

theorem oneBits_eq {f : Fmt} (h : isF f = true) : oneBits f = oneSpec f := by
  have hbits : ∀ p, fparam f = some p → 1 ≤ p.bias → -(p.f : Int) ≤ maxExp p → 2 ^ p.f ≤ maxMant p →
      oneBits f = signBit f false + p.bias * 2 ^ p.f := fun p hp hbias hexp hmant => by
    simp [oneBits, h, deliver, hp, FVal.exact, roundFin_one f p hbias hexp hmant]
  obtain rfl | rfl | rfl | rfl := eq_of_isF h
  · exact hbits ⟨5, 10, 15, .ieee⟩ rfl (by decide) (by decide) (by decide)
  · exact hbits ⟨8, 7, 127, .ieee⟩ rfl (by decide) (by decide) (by decide)
  · exact hbits ⟨8, 23, 127, .ieee⟩ rfl (by decide) (by decide) (by decide)
  · exact hbits ⟨11, 52, 1023, .ieee⟩ rfl (by decide) (by decide) (by decide)

theorem signBit_of_isF {f : Fmt} (h : isF f = true) (neg : Bool) : signBit f neg = if neg then 2 ^ (fmtBits f - 1) else 0 := by
  obtain rfl | rfl | rfl | rfl := eq_of_isF h <;> rfl

theorem fmtBits_pos_of_isF {f : Fmt} (h : isF f = true) : 0 < fmtBits f := by
  obtain rfl | rfl | rfl | rfl := eq_of_isF h <;> decide

/-- The top bit of an element of `w + 1` bits is its quotient by 2^w. -/
theorem div_pow_eq_topBit {w b : Nat} (h : b < 2 ^ (w + 1)) : b / 2 ^ w = if b / 2 ^ w % 2 = 1 then 1 else 0 := by
  have hlt : b / 2 ^ w < 2 := (Nat.div_lt_iff_lt_mul (Nat.two_pow_pos w)).2 (by rwa [Nat.mul_comm, ← Nat.pow_succ])
  generalize b / 2 ^ w = q at hlt
  split <;> omega

/-- Turning the top bit of an element of `w + 1` bits is adding it modulo 2^(w+1). -/
theorem add_topBit_mod {w a : Nat} (ha : a < 2 ^ (w + 1)) :
    a % 2 ^ w + (if a / 2 ^ w % 2 = 1 then 0 else 2 ^ w) = (a + 2 ^ w) % 2 ^ (w + 1) := by
  have hsplit := Nat.div_add_mod a (2 ^ w)
  have hdiv := div_pow_eq_topBit ha
  have hmod : a % 2 ^ w < 2 ^ w := Nat.mod_lt _ (Nat.two_pow_pos w)
  generalize a % 2 ^ w = r at *
  rw [Nat.pow_succ]
  by_cases ht : a / 2 ^ w % 2 = 1
  · rw [if_pos ht] at hdiv
    rw [hdiv] at hsplit
    have hwrap : a + 2 ^ w = r + 2 ^ w * 2 := by omega
    rw [if_pos ht, hwrap, Nat.add_mod_right, Nat.mod_eq_of_lt (a := r) (by omega), Nat.add_zero]
  · rw [if_neg ht] at hdiv
    rw [hdiv] at hsplit
    rw [if_neg ht, Nat.mod_eq_of_lt (a := a + 2 ^ w) (by omega)]
    omega

section
variable {f : Fmt} (h : isF f = true)
include h

/-- The sign of `b` in front of the magnitude of `a` (R302). -/
theorem fSign_topBit (a b : Nat) (hb : b < 2 ^ fmtBits f) : fSign f a (topBitSet f b) =
    if (decodeVal f a).isNan then nanBits f else a % 2 ^ (fmtBits f - 1) + b / 2 ^ (fmtBits f - 1) * 2 ^ (fmtBits f - 1) := by
  have hb' : b < 2 ^ (fmtBits f - 1 + 1) := by rwa [Nat.sub_add_cancel (fmtBits_pos_of_isF h)]
  rw [fSign, signBit_of_isF h, div_pow_eq_topBit hb', topBitSet]
  by_cases ht : b / 2 ^ (fmtBits f - 1) % 2 = 1 <;> simp [ht]

theorem fSign_false (a : Nat) : fSign f a false = if (decodeVal f a).isNan then nanBits f else a % 2 ^ (fmtBits f - 1) := by
  rw [fSign, signBit_of_isF h]
  simp

/-- Turning the sign is adding the sign bit modulo 2^w (R302). -/
theorem fSign_not_topBit (a : Nat) (ha : a < 2 ^ fmtBits f) : fSign f a (!topBitSet f a) =
    if (decodeVal f a).isNan then nanBits f else (a + 2 ^ (fmtBits f - 1)) % 2 ^ fmtBits f := by
  obtain ⟨w, hw⟩ : ∃ w, fmtBits f = w + 1 := ⟨fmtBits f - 1, (Nat.sub_add_cancel (fmtBits_pos_of_isF h)).symm⟩
  rw [hw] at ha
  rw [fSign, signBit_of_isF h, topBitSet, hw, Nat.add_sub_cancel, ← add_topBit_mod ha]
  by_cases ht : a / 2 ^ w % 2 = 1 <;> simp [ht]

end

/-! ### The effect of an element-wise record -/

/-- The effect of an element-wise record of class 4. -/
def elemEff : Instr → VCtx → VOut
  | .vadd _ => effVadd | .vsub _ => effVsub | .vmul _ => effVmul | .vfma _ => effVfma | .vfms _ => effVfms | .vdiv _ => effVdiv
  | .vmin _ => effVmin | .vmax _ => effVmax | .vabs _ => effVabs | .vneg _ => effVneg | .vclamp _ => effVclamp
  | .vand _ => effVand | .vor _ => effVor | .vxor _ => effVxor | .vnot _ => effVnot | .vshl _ => effVshl | .vshr _ => effVshr
  | .vsar _ => effVsar | .vcmp _ => effVcmp | .vsel _ => effVsel | .vmov _ => effVmov | .vfill _ => effVfill | .vcvt _ => effVcvt
  | .vrng _ => effVrng | .vcopysign _ => effVcopysign | .vround _ => effVround | .vdeq _ => effVdeq | .vrcp _ => effVrcp
  | .vsqrt _ => effVsqrt | .vrsqrt _ => effVrsqrt | .vexp _ => effVexp | .vexp2 _ => effVexp2 | .vlog _ => effVlog | .vlog2 _ => effVlog2
  | .vtanh _ => effVtanh | .verf _ => effVerf | .vquant _ => effVquant
  | _ => fun _ => ⟨[], 0⟩

theorem VCtx.each_congr (v : VCtx) {f g : Point → Nat → Nat × Flags} (h : ∀ p, f p (v.c.d.index p) = g p (v.c.d.index p)) :
    v.each f = v.each g := by
  simp only [VCtx.each, h]

/-- What an element-wise record writes and raises. -/
theorem VCtx.each_eq (v : VCtx) (g : Point → Nat × Flags) : (v.each fun p _ => g p) =
    ⟨(activePoints v.c).map fun p => pointPut v.c.d p (g p).1, orFlags ((activePoints v.c).map fun p => (g p).2)⟩ := by
  simp only [VCtx.each, List.map_map]
  rfl

/-! ### Effects that the rules state in other words -/

section
variable (v : VCtx)

theorem effVmin_eq : effVmin v = v.each fun p _ =>
    if isF v.ty then pickSpec v.ty false (v.bits v.c.a v.ty p) (v.bits v.c.b v.ty p) else (intBits v.ty (min (v.int v.c.a p) (v.int v.c.b p)), 0) := by
  simp only [effVmin, VCtx.minMax, fPick_eq, Bool.false_eq_true, if_false, intMin_eq]

theorem effVmax_eq : effVmax v = v.each fun p _ =>
    if isF v.ty then pickSpec v.ty true (v.bits v.c.a v.ty p) (v.bits v.c.b v.ty p) else (intBits v.ty (max (v.int v.c.a p) (v.int v.c.b p)), 0) := by
  simp only [effVmax, VCtx.minMax, fPick_eq, if_true, intMax_eq]

theorem VCtx.bits_lt (o : Operand) (f : Fmt) (p : Point) : v.bits o f p < 2 ^ fmtBits f := o.bits_lt v.m f p

/-- A record over bits whose function stays within the type's width. -/
theorem VCtx.pattern_eq {f : Nat → Nat → Nat} (h : ∀ a b, a < 2 ^ fmtBits v.ty → b < 2 ^ fmtBits v.ty → f a b < 2 ^ fmtBits v.ty) :
    v.pattern f = v.each fun p _ => (f (v.bits v.c.a v.ty p) (v.bits v.c.b v.ty p), 0) := by
  rw [VCtx.pattern]
  refine VCtx.each_congr _ fun p => ?_
  simp only [Nat.mod_eq_of_lt (h _ _ (v.bits_lt _ _ p) (v.bits_lt _ _ p))]

theorem effVand_eq : effVand v = v.each fun p _ => (v.bits v.c.a v.ty p &&& v.bits v.c.b v.ty p, 0) :=
  v.pattern_eq fun a _ _ hb => Nat.and_lt_two_pow a hb

theorem effVor_eq : effVor v = v.each fun p _ => (v.bits v.c.a v.ty p ||| v.bits v.c.b v.ty p, 0) :=
  v.pattern_eq fun _ _ ha hb => Nat.or_lt_two_pow ha hb

theorem effVxor_eq : effVxor v = v.each fun p _ => (v.bits v.c.a v.ty p ^^^ v.bits v.c.b v.ty p, 0) :=
  v.pattern_eq fun _ _ ha hb => Nat.xor_lt_two_pow ha hb

theorem effVnot_eq : effVnot v = v.each fun p _ => (2 ^ fmtBits v.ty - 1 - v.bits v.c.a v.ty p, 0) :=
  v.pattern_eq (f := fun a _ => 2 ^ fmtBits v.ty - 1 - a) fun _ _ ha _ => by omega

theorem effVshr_eq : effVshr v = v.each fun p _ => (v.bits v.c.a v.ty p / 2 ^ (v.bits v.c.b v.ty p % fmtBits v.ty), 0) :=
  v.pattern_eq (f := fun a b => a / 2 ^ (b % fmtBits v.ty)) fun _ _ ha _ => (Nat.div_le_self _ _).trans_lt ha

theorem intBits_lt (f : Fmt) (x : Int) : intBits f x < 2 ^ fmtBits f := by
  have hpos : (0 : Int) < 2 ^ fmtBits f := by positivity
  have hlt := Int.emod_lt_of_pos x hpos
  have hnn := Int.emod_nonneg x hpos.ne'
  rw [intBits_eq]
  zify
  rwa [Int.toNat_of_nonneg hnn]

theorem effVsar_eq : effVsar v = v.each fun p _ =>
    (intBits v.ty (signedOf (fmtBits v.ty) (v.bits v.c.a v.ty p) / 2 ^ (v.bits v.c.b v.ty p % fmtBits v.ty)), 0) :=
  v.pattern_eq (f := fun a b => intBits v.ty (signedOf (fmtBits v.ty) a / 2 ^ (b % fmtBits v.ty))) fun _ _ _ _ => intBits_lt _ _

theorem effVabs_eq : effVabs v = v.each fun p _ =>
    if isF v.ty then (if (v.val v.c.a v.ty p).isNan then nanBits v.ty else v.bits v.c.a v.ty p % 2 ^ (fmtBits v.ty - 1), 0)
    else narrowed v.ty (v.r.ctl.getLsbD 0) (if v.int v.c.a p < 0 then -v.int v.c.a p else v.int v.c.a p) := by
  rw [effVabs]
  refine VCtx.each_congr _ fun p => ?_
  by_cases h : isF v.ty = true
  · simp only [if_pos h, fSign_false h, VCtx.val, VCtx.bits, Operand.isNan_of_isF h]
  · have habs : ((v.int v.c.a p).natAbs : Int) = if v.int v.c.a p < 0 then -v.int v.c.a p else v.int v.c.a p := by split <;> omega
    simp only [if_neg h, v.narrow_eq, habs]

theorem effVneg_eq : effVneg v = v.each fun p _ =>
    if isF v.ty then (if (v.val v.c.a v.ty p).isNan then nanBits v.ty else (v.bits v.c.a v.ty p + 2 ^ (fmtBits v.ty - 1)) % 2 ^ fmtBits v.ty, 0)
    else narrowed v.ty (v.r.ctl.getLsbD 0) (-v.int v.c.a p) := by
  rw [effVneg]
  refine VCtx.each_congr _ fun p => ?_
  by_cases h : isF v.ty = true
  · simp only [if_pos h, fSign_not_topBit h _ (Operand.bits_lt _ _ _ _), VCtx.val, VCtx.bits, Operand.isNan_of_isF h]
  · simp only [if_neg h, v.narrow_eq]

theorem effVcopysign_eq (h : isF v.ty = true) : effVcopysign v = v.each fun p _ =>
    (if (v.val v.c.a v.ty p).isNan then nanBits v.ty
      else v.bits v.c.a v.ty p % 2 ^ (fmtBits v.ty - 1) + v.bits v.c.b v.ty p / 2 ^ (fmtBits v.ty - 1) * 2 ^ (fmtBits v.ty - 1), 0) := by
  rw [effVcopysign]
  refine VCtx.each_congr _ fun p => ?_
  simp only [fSign_topBit h _ _ (Operand.bits_lt _ _ _ _), VCtx.val, VCtx.bits, Operand.isNan_of_isF h]

theorem effVcmp_eq : effVcmp v = v.each fun p _ =>
    if isF v.ty then (if relSpec (v.r.ctl.toNat % 8) (vCmp (v.val v.c.a v.ty p) (v.val v.c.b v.ty p)) then oneSpec v.ty else 0,
      sigFlag [v.val v.c.a v.ty p, v.val v.c.b v.ty p])
    else (if relSpec (v.r.ctl.toNat % 8) (some (compare (v.int v.c.a p) (v.int v.c.b p))) then 1 else 0, 0) := by
  rw [effVcmp]
  refine VCtx.each_congr _ fun p => ?_
  simp only [cmpHolds_eq _ (Nat.mod_lt _ (by decide : 0 < 8))]
  by_cases h : isF v.ty = true
  · simp only [if_pos h, oneBits_eq h]
  · simp only [if_neg h]

theorem effVcvt_eq : effVcvt v = v.each fun p e =>
    if v.ty = v.ty2 then (canon v.ty (v.bits v.c.a v.ty2 p), 0)
    else if (fparam v.ty).isSome then convFloat v.ty (ovfOf v.ty v.ovf) v.rm (v.y0 e) (decodeVal v.ty2 (v.bits v.c.a v.ty2 p))
    else if (fparam v.ty2).isSome then convInt v.ty v.rm (v.y0 e) (decodeVal v.ty2 (v.bits v.c.a v.ty2 p))
    else narrowed v.ty (v.r.ctl.getLsbD 0) (intOf v.ty2 (v.bits v.c.a v.ty2 p)) := by
  rw [effVcvt]
  refine VCtx.each_congr _ fun p => ?_
  simp only [← narrowed_eq]

theorem effVquant_eq (h : isX v.ty = false) : effVquant v = v.each fun p e =>
    let x := vMul (v.val v.c.a v.ty2 p) (v.val v.c.b v.ty2 p)
    let d := if (fparam v.ty).isSome then convFloat v.ty (ovfOf v.ty v.ovf) v.rm (v.y0 e) x.1 else convInt v.ty v.rm (v.y0 e) x.1
    (d.1, x.2 ||| d.2) := by
  simp only [effVquant, h, Bool.false_eq_true, if_false]

end

/-- The effect of an element-wise record is its rule's value at every active point. -/
theorem elemEff_eq {s : State} {u : Run} {r : Rec} {float : Bool} (h : elemRec u.e.instr = some (r, float))
    (hfloat : float = true → isF r.type = true) : elemEff u.e.instr (s.vctx u r) =
      (s.vctx u r).each fun p _ => elemSpec s (s.lcoreAt (lckey u.e.ref.task u.e.ref.lcore)).sp u r p := by
  cases hi : u.e.instr <;> rw [hi] at h <;> simp only [elemRec, Option.some.injEq, Prod.mk.injEq, reduceCtorEq] at h
  case vquant y =>
    by_cases hx : isX y.type = true
    · simp [hx] at h
    · simp only [hx, Bool.false_eq_true, if_false, Option.some.injEq, Prod.mk.injEq] at h
      obtain ⟨rfl, -⟩ := h
      rw [elemEff, effVquant_eq (s.vctx u y) (eq_false_of_ne_true hx)]
      refine VCtx.each_congr _ fun p => ?_
      simp only [elemSpec, hi]
      rfl
  case vcopysign y =>
    obtain ⟨rfl, rfl⟩ := h
    rw [elemEff, effVcopysign_eq (s.vctx u y) (hfloat rfl)]
    refine VCtx.each_congr _ fun p => ?_
    simp only [elemSpec, hi]
    rfl
  all_goals
    obtain ⟨rfl, rfl⟩ := h
    simp only [elemEff, effVadd, effVsub, effVmul, effVfma, effVfms, effVdiv, effVmin_eq, effVmax_eq, effVabs_eq, effVneg_eq, effVclamp,
      effVand_eq, effVor_eq, effVxor_eq, effVnot_eq, effVshl, effVshr_eq, effVsar_eq, effVcmp_eq, effVsel, effVmov, effVfill, effVcvt_eq, effVrng,
      effVround, effVdeq, effVrcp, effVsqrt, effVrsqrt, effVexp, effVexp2, effVlog, effVlog2, effVtanh, effVerf,
      VCtx.arith2, VCtx.arith3, VCtx.pattern, VCtx.fn]
    refine VCtx.each_congr _ fun p => ?_
    simp only [elemSpec, hi, realForm, wholeForm, VCtx.narrow_eq, fPick_eq, intMin_eq, intMax_eq, canon_eq, selTrue]
    rfl

end Sys2Proof.Machine
end

section
/-! The completion of an element-wise record of class 4 (R292, R296, R300 to R309, R319). -/

namespace Sys2Proof.Machine

open Sys2Proof.Claims

/-! ### What completion runs -/

/-- An integer record computes its elements at once. -/
theorem State.runVec_int (s : State) (core : Nat) {u : Run} {r : Rec} {f : Int → Int → Int} (h : vecIntForm u.e.instr = some (r, f)) :
    s.runVec core u = some (r, s.runPlain u r (elemEff u.e.instr)) := by
  cases hi : u.e.instr <;> rw [hi] at h <;> simp only [vecIntForm, Option.some.injEq, Prod.mk.injEq, reduceCtorEq] at h
  all_goals
    obtain ⟨rfl, -⟩ := h
    rw [State.runVec, hi]
    rfl

/-- An element-wise record computes its elements at once; vquant folds into sys.amax besides. -/
theorem State.runVec_elem (s : State) (core : Nat) {u : Run} {r : Rec} {float : Bool} (h : elemRec u.e.instr = some (r, float)) :
    s.runVec core u = some (r, s.runPlain u r (elemEff u.e.instr)) ∨ s.runVec core u = some (r, s.runAmax u r (elemEff u.e.instr) r.type2) := by
  cases hi : u.e.instr <;> rw [hi] at h <;> simp only [elemRec, Option.some.injEq, Prod.mk.injEq, reduceCtorEq] at h
  case vquant y =>
    obtain rfl : y = r := by
      split at h
      · exact absurd h nofun
      · exact (Prod.mk.inj (Option.some.inj h)).1
    right
    rw [State.runVec, hi]
    rfl
  all_goals
    obtain ⟨rfl, -⟩ := h
    left
    rw [State.runVec, hi]
    rfl

section
variable {s : State} {u : Run} {r : Rec} (ht : s.touchSpans (lckey u.e.ref.task u.e.ref.lcore) (vecSpans u.e.instr u.e.cap r) = (s, .ok ()))
include ht

theorem State.runPlain_ready (eff : VCtx → VOut) : s.runPlain u r eff =
    .ended (s.putAll (lckey u.e.ref.task u.e.ref.lcore) (eff (s.vctx u r)).puts) (eff (s.vctx u r)).flags 0 0 := by
  simp only [State.runPlain, ht]

theorem State.runAmax_ready (eff : VCtx → VOut) (f : Fmt) :
    let t := s.putAll (lckey u.e.ref.task u.e.ref.lcore) (eff (s.vctx u r)).puts
    s.runAmax u r eff f = .ended (if t.ownerAlive u.e then t.onStrand u.e.ref.key (foldAmax ((s.vctx u r).aVals f)) else t)
      (eff (s.vctx u r)).flags 0 0 := by
  simp only [State.runAmax, ht]

/-- A record that computes its elements at once leaves their puts; only vquant and vamax touch a strand. -/
theorem State.runVec_puts {core : Nat} {eff : VCtx → VOut} {f : Fmt}
    (hrun : s.runVec core u = some (r, s.runPlain u r eff) ∨ s.runVec core u = some (r, s.runAmax u r eff f)) :
    ∃ s1 : State, s.completeVec core u = s1.endVec core u r (eff (s.vctx u r)).flags 0 0 ∧
      s1 = { s.putAll (lckey u.e.ref.task u.e.ref.lcore) (eff (s.vctx u r)).puts with strands := s1.strands } := by
  obtain hrun | hrun := hrun
  · exact ⟨_, by simp only [State.completeVec, hrun, State.runPlain_ready ht]; rfl, rfl⟩
  · refine ⟨_, by simp only [State.completeVec, hrun, State.runAmax_ready ht]; rfl, ?_⟩
    split <;> rfl

/-- Such a record writes its puts in order and its status word, and leaves the engine idle and the memories beyond the tile. -/
theorem exec_recordCompletion_puts {core : Nat} {eff : VCtx → VOut} {f : Fmt} (hu : ((s.coreAt core).engine .v).run = some u)
    (hrun : s.runVec core u = some (r, s.runPlain u r eff) ∨ s.runVec core u = some (r, s.runAmax u r eff f)) :
    let lc := lckey u.e.ref.task u.e.ref.lcore
    let o := eff (s.vctx u r)
    ∃ t, exec (.recordCompletion core .v) s = .next t ∧ ((t.coreAt core).engine .v).run = none ∧ OnlyTile s t ∧
      (t.lcoreAt lc).sp = statMem r (statusWord 0 0 0 o.flags) (putMem (s.lcoreAt lc).sp o.puts) ∧
      ∀ k, k ≠ lc → (t.lcoreAt k).sp = (s.lcoreAt k).sp := by
  intro lc o
  obtain ⟨s1, hcomplete, hs1⟩ := State.runVec_puts ht hrun
  have hsp (k : Nat) : (s1.lcoreAt k).sp = if k = lc then putMem (s.lcoreAt lc).sp o.puts else (s.lcoreAt k).sp := by
    rw [hs1, ← State.sp_putAll]
    rfl
  refine ⟨_, exec_recordCompletion hu, ?_, ?_, ?_, fun k hk => ?_⟩
  · rw [State.complete, hcomplete, State.run_endVec]
  · rw [State.complete, hcomplete, State.endVec_frame, hs1, State.putAll_frame]
    exact ⟨rfl, rfl, rfl, rfl⟩
  · rw [State.complete, hcomplete, State.sp_endVec, if_pos rfl, hsp, if_pos rfl]
  · rw [State.complete, hcomplete, State.sp_endVec, if_neg hk, hsp, if_neg hk]

end

/-! ### Integer records read back -/

/-- Bits that every put over them gives alike hold it. -/
theorem bitAt_putMem_agree (ps : List Put) (m : Mem) (x : Nat) (b : Bool) (hex : ∃ p ∈ ps, Covers p x)
    (hall : ∀ p ∈ ps, Covers p x → p.v.testBit (x - (8 * p.base + p.bit)) = b) : bitAt (putMem m ps) x = b := by
  induction ps generalizing m with
  | nil => simp at hex
  | cons p t ih =>
    have hcons : putMem m (p :: t) = putMem (setBits m p) t := rfl
    rw [hcons]
    by_cases ht : ∃ q ∈ t, Covers q x
    · exact ih _ ht fun q hq => hall q (List.mem_cons_of_mem p hq)
    · have hp : Covers p x := by
        obtain ⟨q, hq, hx⟩ := hex
        obtain rfl | hq := List.mem_cons.1 hq
        · exact hx
        · exact absurd ⟨q, hq, hx⟩ ht
      rw [bitAt_putMem_outside t _ x fun q hq hx => ht ⟨q, hq, hx⟩, bitAt_setBits_covered hp, hall p List.mem_cons_self hp]

theorem Mem.read_lt (m : Mem) (a n : Nat) : m.read a n < 2 ^ (8 * n) := by
  have h := ofLeBytes_lt (m.bytes a n)
  rwa [Mem.bytes_length, show 256 = 2 ^ 8 from rfl, ← Nat.pow_mul] at h

/-- The integer formats of group I are whole bytes wide, and no other group's. -/
theorem width_of_isI {f : Fmt} (h : isI f = true) : fmtBits f = 8 * (fmtBits f / 8) ∧ 0 < fmtBits f / 8 ∧ isPb f = false ∧ isF f = false := by
  revert f
  decide

theorem elemBits_of_isI {f : Fmt} (h : isI f = true) (m : Mem) (base e : Nat) :
    elemBits m base f e = m.read (base + e * (fmtBits f / 8)) (fmtBits f / 8) := by
  obtain ⟨hw, -, hpb, -⟩ := width_of_isI h
  have hbit : elemBit f e = 8 * (e * (fmtBits f / 8)) := by
    simp only [elemBit, hpb, Bool.false_eq_true, if_false]
    rw [hw, Nat.mul_div_cancel_left _ (by decide)]
    ring
  have hfield : fieldBits f = 8 * (fmtBits f / 8) := by
    simp only [fieldBits, hpb, Bool.false_eq_true, if_false]
    exact hw
  have hlen : (8 * (fmtBits f / 8) + 7) / 8 = fmtBits f / 8 := by omega
  rw [elemBits, readBits, hbit, hfield, Nat.mul_div_cancel_left _ (by decide), Nat.mul_mod_right, Nat.zero_add, hlen, Nat.pow_zero, Nat.div_one,
    Nat.mod_eq_of_lt (Mem.read_lt _ _ _)]

/-- Two's complement by the top bit, or by the value: one integer (R63). -/
theorem intOf_eq_sgn {f : Fmt} (h : isI f = true) {b : Nat} (hb : b < 2 ^ fmtBits f) : intOf f b = intOperand.sgn f b := by
  obtain ⟨hw, hpos, -, -⟩ := width_of_isI h
  obtain ⟨n, hn⟩ : ∃ n, fmtBits f = n + 1 := ⟨fmtBits f - 1, by omega⟩
  have hmod : ((b : Int) % 2 ^ fmtBits f) = b := by
    have := Nat.mod_eq_of_lt hb
    exact_mod_cast this
  rw [hn] at hmod
  rw [intOf, intOperand.sgn, hn, hmod]
  by_cases hs : isSigned f = true
  · have htop : b / 2 ^ n % 2 = 1 ↔ 2 ^ n ≤ b := by
      rw [hn] at hb
      have hdiv := div_pow_eq_topBit hb
      have hpos := Nat.div_pos_iff (a := b) (b := 2 ^ n)
      have := Nat.two_pow_pos n
      split at hdiv <;> omega
    simp only [hs, if_true, signedOf, true_and, Nat.add_sub_cancel, hmod, htop]
  · simp [hs]

theorem intOf_bits_eq {f : Fmt} (h : isI f = true) (m : Mem) (p : Point) (o : Operand) : intOf f (o.bits m f p) = intOperand m f p o := by
  rw [intOf_eq_sgn h (o.bits_lt m f p)]
  cases o with
  | none =>
    have := Nat.two_pow_pos (fmtBits f - 1)
    simp [Operand.bits, intOperand, intOperand.sgn, show ¬ 2 ^ (fmtBits f - 1) ≤ 0 by omega]
  | stream d sl => rw [Operand.bits, elemBits_of_isI h, intOperand]
  | scalar v => rw [Operand.bits, intOperand]

/-- An integer record without .sat gives the exact result modulo 2^w and no flag (R301). -/
theorem elemSpec_int {s : State} {m : Mem} {u : Run} {r : Rec} {f : Int → Int → Int} (h : vecIntForm u.e.instr = some (r, f))
    (hI : isI r.type = true) (hctl : r.ctl = 0) (p : Point) : elemSpec s m u r p =
      ((f (intOperand m r.type p u.e.cap.a) (intOperand m r.type p u.e.cap.b) % 2 ^ fmtBits r.type).toNat, 0) := by
  have hF := (width_of_isI hI).2.2.2
  have hwrap (x : Int) : narrowed r.type (r.ctl.getLsbD 0) x = ((x % 2 ^ fmtBits r.type).toNat, 0) := by
    simp [narrowed, hctl]
  cases hi : u.e.instr <;> rw [hi] at h <;> simp only [vecIntForm, Option.some.injEq, Prod.mk.injEq, reduceCtorEq] at h
  all_goals
    obtain ⟨rfl, rfl⟩ := h
    simp only [elemSpec, hi, hF, Bool.false_eq_true, if_false, wholeForm, hwrap, intOf_bits_eq hI]

theorem elemRec_of_vecIntForm {i : Instr} {r : Rec} {f : Int → Int → Int} (h : vecIntForm i = some (r, f)) : elemRec i = some (r, false) := by
  cases i <;> simp only [vecIntForm, Option.some.injEq, Prod.mk.injEq, reduceCtorEq] at h
  all_goals
    obtain ⟨rfl, -⟩ := h
    rfl

theorem orFlags_zero {α : Type} (l : List α) : orFlags (l.map fun _ => (0 : Flags)) = 0 := by
  induction l with
  | nil => rfl
  | cons a t ih =>
    rw [orFlags, List.map_cons, List.foldl_cons]
    exact ih

section
variable {f : Fmt} (hf : isI f = true) {d : BitVec 128} (hd : descFmt d = f) {sl : Slot} {ps : List Point}
  (hpos : ∀ p ∈ ps, 0 ≤ slotIndex sl p) (hinj : ∀ p ∈ ps, ∀ q ∈ ps, slotIndex sl p = slotIndex sl q → p = q) (m : Mem) (g : Point → Nat)
include hf hd

/-- The put of an integer element is that of its bytes. -/
theorem covers_pointPut_iff (p : Point) (v x : Nat) : Covers (pointPut (.stream d sl) p v) x ↔
    within (descBase d + (slotIndex sl p).toNat * (fmtBits f / 8)) (fmtBits f / 8) (x / 8) := by
  obtain ⟨hw, -, hpb, -⟩ := width_of_isI hf
  simp only [Covers, pointPut, elemPut, Operand.desc, Operand.index, hd, fieldBits, elemBit, hpb, Bool.false_eq_true, if_false, within]
  generalize fmtBits f / 8 = n at *
  have hmul : (slotIndex sl p).toNat * (8 * n) = 8 * ((slotIndex sl p).toNat * n) := by ring
  rw [hw, hmul]
  omega

/-- Bytes off every element keep their value. -/
theorem byte_putMem_pointPuts (a : Nat) (h : ∀ p ∈ ps, ¬ within (descBase d + (slotIndex sl p).toNat * (fmtBits f / 8)) (fmtBits f / 8) a) :
    (putMem m (ps.map fun p => pointPut (.stream d sl) p (g p))).byte a = m.byte a := by
  refine byte_eq_of_bitAt fun x hx => bitAt_putMem_outside _ _ _ fun q hq hcov => ?_
  obtain ⟨p, hp, rfl⟩ := List.mem_map.1 hq
  rw [covers_pointPut_iff hf hd, hx] at hcov
  exact h p hp hcov

include hpos hinj

/-- Puts at distinct element indices read back. -/
theorem read_putMem_pointPuts (p : Point) (hp : p ∈ ps) (hg : g p < 2 ^ fmtBits f) :
    (putMem m (ps.map fun p => pointPut (.stream d sl) p (g p))).read (descBase d + (slotIndex sl p).toNat * (fmtBits f / 8)) (fmtBits f / 8) = g p := by
  obtain ⟨hw, hn, hpb, -⟩ := width_of_isI hf
  refine Nat.eq_of_testBit_eq fun y => ?_
  by_cases hy : y < 8 * (fmtBits f / 8)
  · rw [Mem.testBit_read _ _ _ _ hy]
    have hin : within (descBase d + (slotIndex sl p).toNat * (fmtBits f / 8)) (fmtBits f / 8)
        ((8 * (descBase d + (slotIndex sl p).toNat * (fmtBits f / 8)) + y) / 8) := by
      constructor <;> omega
    refine bitAt_putMem_agree _ _ _ _ ⟨_, List.mem_map_of_mem hp, (covers_pointPut_iff hf hd _ _ _).2 hin⟩ fun q hq hcov => ?_
    obtain ⟨p', hp', rfl⟩ := List.mem_map.1 hq
    obtain ⟨hlo', hhi'⟩ := (covers_pointPut_iff hf hd _ _ _).1 hcov
    obtain ⟨hlo, hhi⟩ := hin
    have hindex : (slotIndex sl p').toNat = (slotIndex sl p).toNat := by
      refine le_antisymm (Nat.lt_succ_iff.1 ?_) (Nat.lt_succ_iff.1 ?_) <;>
        exact lt_of_mul_lt_mul_right (by rw [Nat.succ_mul]; omega) (Nat.zero_le (fmtBits f / 8))
    obtain rfl : p' = p := hinj p' hp' p hp (by have := hpos p hp; have := hpos p' hp'; omega)
    have hbit : (slotIndex sl p').toNat * fmtBits f = 8 * ((slotIndex sl p').toNat * (fmtBits f / 8)) := by
      rw [hw, Nat.mul_div_cancel_left _ (by decide)]
      ring
    simp only [pointPut, elemPut, Operand.desc, Operand.index, hd, elemBit, hpb, Bool.false_eq_true, if_false, hbit]
    congr 1
    omega
  · have hpow : 2 ^ (8 * (fmtBits f / 8)) ≤ 2 ^ y := Nat.pow_le_pow_right (by decide) (by omega)
    rw [Nat.testBit_lt_two_pow ((Mem.read_lt _ _ _).trans_le hpow), Nat.testBit_lt_two_pow (hg.trans_le (by rwa [hw]))]

end

/-! ### The clauses of the obligation -/

section
variable {s : State} {core : Nat} {u : Run} {r : Rec} {float : Bool} (hu : ((s.coreAt core).engine .v).run = some u)
  (ht : s.touchSpans (lckey u.e.ref.task u.e.ref.lcore) (vecSpans u.e.instr u.e.cap r) = (s, .ok ()))
include hu ht

/-- What an element-wise record leaves in the scratchpads. -/
theorem exec_recordCompletion_elem (h : elemRec u.e.instr = some (r, float)) (hfloat : float = true → isF r.type = true) :
    let lc := lckey u.e.ref.task u.e.ref.lcore
    let value (p : Point) := elemSpec s (s.lcoreAt lc).sp u r p
    let puts := (activePoints u.e.cap).map fun p => pointPut u.e.cap.d p (value p).1
    let word := statusWord 0 0 0 (orFlags ((activePoints u.e.cap).map fun p => (value p).2))
    ∃ t, exec (.recordCompletion core .v) s = .next t ∧ ((t.coreAt core).engine .v).run = none ∧ OnlyTile s t ∧
      (t.lcoreAt lc).sp = statMem r word (putMem (s.lcoreAt lc).sp puts) ∧ ∀ k, k ≠ lc → (t.lcoreAt k).sp = (s.lcoreAt k).sp := by
  have heff := (elemEff_eq h hfloat).trans (VCtx.each_eq (s.vctx u r) _)
  have hdone := exec_recordCompletion_puts ht hu (s.runVec_elem core h)
  rw [heff] at hdone
  exact hdone

/-- The first clause: exact integer results modulo 2^w. -/
theorem exec_recordCompletion_int {f : Int → Int → Int} {d : BitVec 128} {sl : Slot} (h : vecIntForm u.e.instr = some (r, f))
    (hI : isI r.type = true) (hctl : r.ctl = 0) (hse : r.se = false) (hd : u.e.cap.d = .stream d sl) (hfmt : descFmt d = r.type)
    (hpos : ∀ p ∈ activePoints u.e.cap, 0 ≤ slotIndex sl p)
    (hinj : ∀ p ∈ activePoints u.e.cap, ∀ q ∈ activePoints u.e.cap, slotIndex sl p = slotIndex sl q → p = q) :
    let lc := lckey u.e.ref.task u.e.ref.lcore
    let ps := activePoints u.e.cap
    let n := fmtBits r.type / 8
    let at_ (p : Point) : Nat := descBase d + (slotIndex sl p).toNat * n
    ∃ t, exec (.recordCompletion core .v) s = .next t ∧ ((t.coreAt core).engine .v).run = none ∧
      (∀ p ∈ ps, ((t.lcoreAt lc).sp.read (at_ p) n : Int) =
        f (intOperand (s.lcoreAt lc).sp r.type p u.e.cap.a) (intOperand (s.lcoreAt lc).sp r.type p u.e.cap.b) % 2 ^ fmtBits r.type) ∧
      (∀ a, (∀ p ∈ ps, ¬ within (at_ p) n a) → (t.lcoreAt lc).sp.byte a = (s.lcoreAt lc).sp.byte a) ∧
      (∀ k, k ≠ lc → t.lcoreAt k = s.lcoreAt k) ∧ t.mem = s.mem ∧ t.hostMem = s.hostMem ∧ t.ws = s.ws ∧ t.banks = s.banks ∧ t.strands = s.strands := by
  intro lc ps n at_
  let value (p : Point) : Int := f (intOperand (s.lcoreAt lc).sp r.type p u.e.cap.a) (intOperand (s.lcoreAt lc).sp r.type p u.e.cap.b) % 2 ^ fmtBits r.type
  let puts := ps.map fun p => pointPut (.stream d sl) p (value p).toNat
  have hmod : (0 : Int) < 2 ^ fmtBits r.type := by positivity
  have hvalue (p : Point) : ((value p).toNat : Int) = value p := Int.toNat_of_nonneg (Int.emod_nonneg _ hmod.ne')
  have hlt (p : Point) : (value p).toNat < 2 ^ fmtBits r.type := by
    zify
    rw [hvalue]
    exact Int.emod_lt_of_pos _ hmod
  have heff : elemEff u.e.instr (s.vctx u r) = ⟨puts, 0⟩ := by
    rw [elemEff_eq (elemRec_of_vecIntForm h) nofun, VCtx.each_eq]
    simp only [elemSpec_int h hI hctl, orFlags_zero]
    rw [show (s.vctx u r).c = u.e.cap from rfl, hd]
  have hcomplete : s.complete core .v u = (s.putAll lc puts).endRun core .v := by
    have hrun := s.runVec_int core h
    rw [State.runPlain_ready ht, heff] at hrun
    simp only [State.complete, State.completeVec, hrun]
    rw [State.endVec_quiet _ _ _ _ _ _ hse]
  have hsp : ((s.complete core .v u).lcoreAt lc).sp = putMem (s.lcoreAt lc).sp puts := by
    rw [hcomplete, State.endRun, State.lcoreAt_onCore, State.sp_putAll, if_pos rfl]
  refine ⟨_, exec_recordCompletion hu, ?_, fun p hp => ?_, fun a ha => ?_, fun k hk => ?_, ?_⟩
  · rw [hcomplete, State.run_endRun]
  · rw [hsp, read_putMem_pointPuts hI hfmt hpos hinj _ _ p hp (hlt p), hvalue]
  · rw [hsp, byte_putMem_pointPuts hI hfmt _ _ a ha]
  · rw [hcomplete, State.endRun, State.lcoreAt_onCore, State.lcoreAt_putAll_other _ _ _ _ hk]
  · rw [hcomplete, State.endRun, State.putAll_frame]
    exact ⟨rfl, rfl, rfl, rfl, rfl⟩

end

/-- An element's value is a function of the record, its modes, its draws and the scratchpad. -/
theorem elemSpec_congr {s s' : State} {u u' : Run} (hinstr : u'.e.instr = u.e.instr) (hcap : u'.e.cap = u.e.cap) (hvm : u'.vm = u.vm)
    (hdraws : s'.drawsOf u'.e = s.drawsOf u.e) (m : Mem) (r : Rec) (p : Point) : elemSpec s' m u' r p = elemSpec s m u r p := by
  simp only [elemSpec, hinstr, hcap, hvm, State.y0, State.randomOf, hdraws]

end Sys2Proof.Machine

namespace Sys2Proof.Proofs

open Sys2Proof.Machine Sys2Proof.Claims

/-- Settles O48: every element-wise record writes its rule's value at each active point in order, then its status word; the values depend on the record, its modes, its draws and the scratchpad alone. -/
theorem vectorElementValues : Obligations.VectorElementValues := by
  refine ⟨?_, ?_, ?_⟩
  · intro s core u r f d sl lc ps n at_ hu h hI hctl hse hd hfmt hpos hinj ht
    exact exec_recordCompletion_int hu ht h hI hctl hse hd hfmt hpos hinj
  · intro s s' core core' u u' r float lc lc' hu hu' h hfloat hinstr hcap hvm hdraws hsame ht ht'
    obtain ⟨t, hexec, -, -, hsp, -⟩ := exec_recordCompletion_elem hu ht h hfloat
    obtain ⟨t', hexec', -, -, hsp', -⟩ := exec_recordCompletion_elem (r := r) (float := float) hu' (by rwa [hinstr, hcap]) (by rwa [hinstr]) hfloat
    refine ⟨t, t', hexec, hexec', fun a => ?_⟩
    simp only [elemSpec_congr hinstr hcap hvm hdraws, hcap] at hsp'
    rw [hsp, hsp', hsame]
  · intro s core u r float lc ps value hu h hfloat ht
    obtain ⟨t, hexec, hidle, htile, hsp, hother⟩ := exec_recordCompletion_elem hu ht h hfloat
    refine ⟨t, hexec, hidle, htile, wroteAll_of_sp _ hsp hother, fun hse => ?_⟩
    rw [hsp, read_statMem hse]

end Sys2Proof.Proofs
end

section
/-! A table whose descriptor names another format than the record's type: vscat writes the descriptor's elements and reads back the type's (R318). -/

namespace Sys2Proof.Machine

open Sys2Proof.Claims

/-- vscat with .add on n8. -/
def scatAddRec : Rec :=
  { type := fN8, type2 := 0, psel := 0, pe := false, cls := 0, tflag := 0, stat := 0, se := false, ctl := 1, t0 := 2, t1 := 1, t2 := 1, t3 := 1
    d := ⟨0, 1, 0, 0⟩, a := ⟨3, 0, 0, 1⟩, b := ⟨3, 0, 0, 1⟩, c := ⟨0, 0, 0, 0⟩ }

/-- A table of n16 at byte 0, 16 bytes long. -/
def scatTable : BitVec 128 := BitVec.ofNat 128 (16 * 2 ^ 24 + fN16.toNat * 2 ^ 48)

/-- Two elements, both of which add one to element 1 of the table. -/
def scatCap : Cap :=
  { trips := [2, 1, 1, 1], d := .stream scatTable ⟨0, 1, 0, 0⟩, a := .scalar 1, b := .scalar 1, c := .none, count := none, salt := 0, nbv := 0
    region := false, vals := [] }

def scatRun : Run :=
  { e := { ref := ⟨0, 0, 0⟩, sid := 0, uid := 0, pc := 0, instr := .vscat scatAddRec, cap := scatCap, foots := [] }
    vm := Mode.zero, mm := Mode.zero, etr := false, done := [], refused := 0, flags := 0, coll := none, void := false, srcs := none }

/-- The machine at reset, its core 0 running the record. -/
def scatState : State := State.reset.onCore 0 fun x => x.setEngine .v { q := [], run := some scatRun }

/-- The rule has element 1 counted up twice. -/
theorem tablePuts_scatRun : tablePuts (scatState.lcoreAt 0).sp scatRun = some (scatAddRec, [elemPut scatTable 1 1, elemPut scatTable 1 2]) := by
  decide +kernel

/-- The record's fills change nothing. -/
theorem touchSpans_scatState : scatState.touchSpans 0 (vecSpans scatRun.e.instr scatRun.e.cap scatAddRec) = (scatState, .ok ()) := rfl

/-- The model reads the second element's old value as n8, a byte that the first did not write, and leaves 1. -/
theorem bitAt_complete_scatState : bitAt ((scatState.complete 0 .v scatRun).lcoreAt 0).sp 16 = true := by
  decide +kernel

end Sys2Proof.Machine

namespace Sys2Proof.Proofs

open Sys2Proof.Machine Sys2Proof.Claims

/-- Refutes O49: the clause on tables does not ask that D's descriptor name the record's type. In a table of n16, vscat.add of n8 writes element 1 in bytes 2 and 3 and reads element 1's old value from byte 1, so its second addition starts from 0 where the statement has it start from 1. -/
theorem not_vectorRowValues : ¬ Obligations.VectorRowValues := by
  intro h
  obtain ⟨-, htable, -⟩ := h scatState 0 scatRun rfl
  obtain ⟨t, hexec, -, -, hwrote, -⟩ := htable scatAddRec _ tablePuts_scatRun (.inr rfl) rfl rfl touchSpans_scatState rfl rfl nofun
  have ht : t = scatState.complete 0 .v scatRun := by
    rw [exec_recordCompletion rfl] at hexec
    exact (Host.Outcome.next.inj hexec).symm
  have hbit := hwrote [elemPut scatTable 1 1] (elemPut scatTable 1 2) [] rfl 16 ⟨by decide, by decide⟩ (fun hin => absurd hin.1 (by decide)) nofun
  rw [ht] at hbit
  exact absurd (bitAt_complete_scatState.symm.trans hbit) (by decide)

end Sys2Proof.Proofs
end

section
/-! The pass over the elements of a copying record, and the end of a transfer record (R292, R337, R347). -/

namespace Sys2Proof.Machine

open Sys2Proof.Claims

/-! ### The order of the active points -/

theorem add_mul_lt_add_mul {n x y a b : Nat} (hx : x < n) (h : a < b) : x + n * a < y + n * b := by
  have hmul : n * (a + 1) ≤ n * b := Nat.mul_le_mul_left n h
  rw [Nat.mul_succ] at hmul
  omega

/-- The place of a point's row. -/
def rowIndex (ts : List Nat) (p : Point) : Nat := p.t1 + tripN ts 1 * (p.t2 + tripN ts 2 * p.t3)

theorem rowPoints_pairwise (ts : List Nat) : (rowPoints ts).Pairwise fun p q => rowIndex ts p < rowIndex ts q := by
  have hrange (n : Nat) : (List.range n).Pairwise (· < ·) := List.pairwise_lt_range
  have hin {n a : Nat} (h : a ∈ List.range n) : a < n := List.mem_range.1 h
  simp only [rowPoints, List.pairwise_flatMap, List.pairwise_map, List.forall_mem_flatMap, List.forall_mem_map]
  refine ⟨fun t3 _ => ⟨fun t2 _ => ?_, ?_⟩, ?_⟩
  · exact (hrange _).imp fun h => by simpa [rowIndex] using h
  · refine (hrange _).imp fun h x hx y _ => add_mul_lt_add_mul (hin hx) ?_
    exact Nat.add_lt_add_right h _
  · refine (hrange _).imp fun h x hx y hy z _ w _ => add_mul_lt_add_mul (hin hy) ?_
    exact add_mul_lt_add_mul (hin hx) h

theorem activeT0_le (c : Cap) : activeT0 c ≤ tripN c.trips 0 := by
  rw [activeT0]
  split
  · exact Nat.min_le_right _ _
  · exact le_refl _

/-- The active points stand in ascending linear index (R292). -/
theorem activePoints_pairwise (c : Cap) : (activePoints c).Pairwise fun p q => linIndex c.trips p < linIndex c.trips q := by
  simp only [activePoints, List.pairwise_flatMap, rowOf, List.pairwise_map, List.forall_mem_map]
  refine ⟨fun p _ => ?_, ?_⟩
  · exact List.pairwise_lt_range.imp fun h => by simpa [linIndex] using h
  · refine (rowPoints_pairwise c.trips).imp fun h x hx y _ => add_mul_lt_add_mul ?_ h
    exact (List.mem_range.1 hx).trans_le (activeT0_le c)

/-! ### What an element sees of those done before -/

theorem exists_entry_of_sget {m : SMap Bool} {k : Nat} (h : sget false m k = true) : ∃ e ∈ m, e.1 = k := by
  by_contra hno
  have hany : (m.any fun e => e.1 == k) = false := by
    rw [List.any_eq_false]
    exact fun e he hk => hno ⟨e, he, by simpa using hk⟩
  rw [sget_of_not_any _ _ _ hany] at h
  cases h

/-- An element is overwritten when a later one of its destination is done (R292). -/
theorem overwritten_eq (c : Cap) (done : SMap Bool) (p : Point) : overwritten c done p = (activePoints c).any fun q =>
    decide (linIndex c.trips p < linIndex c.trips q ∧ c.d.index q = c.d.index p) && sget false done (linIndex c.trips q) := by
  rw [overwritten, Bool.and_eq_right_iff_imp]
  intro h
  obtain ⟨q, -, hq⟩ := List.any_eq_true.1 h
  simp only [Bool.and_eq_true, decide_eq_true_eq] at hq
  obtain ⟨⟨hlt, -⟩, hdone⟩ := hq
  obtain ⟨e, he, hkey⟩ := exists_entry_of_sget hdone
  exact List.any_eq_true.2 ⟨e, he, by simpa [hkey] using hlt⟩

theorem overwritten_eq_writtenSince (u : Run) (p : Point) : overwritten u.e.cap u.done p = writtenSince u p := overwritten_eq _ _ _

/-- What is done of the elements behind `p` tells whether `p` is overwritten. -/
theorem overwritten_congr {c : Cap} {done done' : SMap Bool} {p : Point}
    (h : ∀ k, linIndex c.trips p < k → sget false done k = sget false done' k) : overwritten c done p = overwritten c done' p := by
  rw [overwritten_eq, overwritten_eq]
  congr 1
  funext q
  by_cases hlt : linIndex c.trips p < linIndex c.trips q
  · rw [h _ hlt]
  · simp [hlt]

/-! ### Passes over elements -/

theorem flags_or_zero (fl : Flags) : fl ||| (0 : Flags) = fl := BitVec.or_zero

section
variable (f : Bool → Point → State → ElemAns) (c : Cap)

theorem elemPass_cons_done {p : Point} {t : List Point} {s : State} {done : SMap Bool} {n : Nat} {fl : Flags} {w : Bool}
    (h : sget false done (linIndex c.trips p) = true) : elemPass f c (p :: t) s done n fl w = elemPass f c t s done n fl w := by
  rw [elemPass, if_pos h]

theorem elemPass_cons_ok {p : Point} {t : List Point} {s s' : State} {done : SMap Bool} {n : Nat} {fl g : Flags} {w : Bool}
    (h : sget false done (linIndex c.trips p) = false) (hf : f (overwritten c done p) p s = .ok s' g) :
    elemPass f c (p :: t) s done n fl w = elemPass f c t s' (sset false done (linIndex c.trips p) true) n (fl ||| g) w := by
  rw [elemPass, if_neg (by simp [h]), hf]

theorem elemPass_cons_refused {p : Point} {t : List Point} {s s' : State} {done : SMap Bool} {n : Nat} {fl : Flags} {w : Bool}
    (h : sget false done (linIndex c.trips p) = false) (hf : f (overwritten c done p) p s = .refused s') :
    elemPass f c (p :: t) s done n fl w = elemPass f c t s' (sset false done (linIndex c.trips p) true) (n + 1) (fl ||| fTR) w := by
  rw [elemPass, if_neg (by simp [h]), hf]

/-- A pass over elements that are done does nothing. -/
theorem elemPass_done (l : List Point) (s : State) (done : SMap Bool) (n : Nat) (fl : Flags) (w : Bool)
    (h : ∀ p ∈ l, sget false done (linIndex c.trips p) = true) : elemPass f c l s done n fl w = (s, done, n, fl, w) := by
  induction l with
  | nil => rfl
  | cons p t ih => rw [elemPass_cons_done f c (h p List.mem_cons_self), ih fun q hq => h q (List.mem_cons_of_mem p hq)]

/-- What a pass that processes one element leaves: the state, the refusals and the flags; nothing while it waits. -/
def ElemAns.leaves (n : Nat) (fl : Flags) : ElemAns → Option (State × Nat × Flags)
  | .ok s g => some (s, n, fl ||| g)
  | .refused s => some (s, n + 1, fl ||| fTR)
  | .wait _ => none

/-- A pass in which one element is left, however often it is named, processes that element once. -/
theorem elemPass_single (l : List Point) {s s' : State} {done : SMap Bool} {n n' : Nat} {fl fl' : Flags} {p : Point} (hp : p ∈ l)
    (hleft : ∀ q ∈ l, sget false done (linIndex c.trips q) = false → q = p) (hnot : sget false done (linIndex c.trips p) = false)
    (hf : (f (overwritten c done p) p s).leaves n fl = some (s', n', fl')) :
    ∃ done', elemPass f c l s done n fl false = (s', done', n', fl', false) := by
  induction l with
  | nil => simp at hp
  | cons q t ih =>
    by_cases hq : sget false done (linIndex c.trips q) = true
    · have hpt : p ∈ t := (List.mem_cons.1 hp).resolve_left fun hpq => by simp [hpq, hq] at hnot
      rw [elemPass_cons_done f c hq]
      exact ih hpt fun x hx => hleft x (List.mem_cons_of_mem q hx)
    · obtain rfl := hleft q List.mem_cons_self (by simpa using hq)
      refine ⟨sset false done (linIndex c.trips q) true, ?_⟩
      have hrest : ∀ x ∈ t, sget false (sset false done (linIndex c.trips q) true) (linIndex c.trips x) = true := fun x hx => by
        rw [sget_sset]
        split
        · rfl
        · by_contra hx'
          obtain rfl := hleft x (List.mem_cons_of_mem q hx) (by simpa using hx')
          contradiction
      cases hans : f (overwritten c done q) q s with
      | wait s1 => simp [hans, ElemAns.leaves] at hf
      | ok s1 g =>
        simp only [hans, ElemAns.leaves, Option.some.injEq, Prod.mk.injEq] at hf
        obtain ⟨rfl, rfl, rfl⟩ := hf
        rw [elemPass_cons_ok f c hnot hans, elemPass_done f c t _ _ _ _ _ hrest]
      | refused s1 =>
        simp only [hans, ElemAns.leaves, Option.some.injEq, Prod.mk.injEq] at hf
        obtain ⟨rfl, rfl, rfl⟩ := hf
        rw [elemPass_cons_refused f c hnot hans, elemPass_done f c t _ _ _ _ _ hrest]

/-- A pass over rising elements of which each one left is written without a wait or a flag: `step` on every element left, in order. -/
theorem elemPass_foldl {done0 : SMap Bool} {step : State → Point → State} (P : State → Prop) (hP : ∀ s p, P s → P (step s p)) (l : List Point)
    (hf : ∀ p ∈ l, sget false done0 (linIndex c.trips p) = false → ∀ s, P s → f (overwritten c done0 p) p s = .ok (step s p) 0)
    (hl : l.Pairwise fun p q => linIndex c.trips p < linIndex c.trips q) {s : State} (hs : P s) {done : SMap Bool}
    (hdone : ∀ p ∈ l, ∀ k, linIndex c.trips p ≤ k → sget false done k = sget false done0 k) (n : Nat) (fl : Flags) :
    ∃ done', elemPass f c l s done n fl false =
      ((l.filter fun p => !sget false done0 (linIndex c.trips p)).foldl step s, done', n, fl, false) := by
  induction l generalizing s done with
  | nil => exact ⟨done, rfl⟩
  | cons p t ih =>
    obtain ⟨hlt, ht⟩ := List.pairwise_cons.1 hl
    have hft := fun q hq => hf q (List.mem_cons_of_mem p hq)
    have hp := hdone p List.mem_cons_self _ (le_refl _)
    by_cases hleft : sget false done0 (linIndex c.trips p) = true
    · obtain ⟨done', h⟩ := ih hft ht hs fun q hq => hdone q (List.mem_cons_of_mem p hq)
      rw [elemPass_cons_done f c (hp.trans hleft), h]
      exact ⟨done', by simp [hleft]⟩
    · have hans := hf p List.mem_cons_self (by simpa using hleft) s hs
      rw [overwritten_congr fun k hk => (hdone p List.mem_cons_self k hk.le).symm] at hans
      obtain ⟨done', h⟩ := ih hft ht (hP s p hs) (done := sset false done (linIndex c.trips p) true) fun q hq k hk => by
        rw [sget_sset_ne _ _ _ _ _ (by have := hlt q hq; omega)]
        exact hdone q (List.mem_cons_of_mem p hq) k hk
      rw [elemPass_cons_ok f c (by simpa [hp] using hleft) hans, flags_or_zero, h]
      exact ⟨done', by simp [hleft]⟩

end

theorem mem_pointsLeft {u : Run} {p : Point} : p ∈ pointsLeft u ↔ p ∈ activePoints u.e.cap ∧ sget false u.done (linIndex u.e.cap.trips p) = false := by
  simp [pointsLeft]

/-! ### The end of a transfer record (R347) -/

theorem State.rsb_engineError (s : State) (x : Entry) (cls : BitVec 4) (k : Nat) :
    ((s.engineError x cls).strandAt k).rsb = (s.strandAt k).rsb := by
  rw [State.strandAt_engineError]

section
variable (s : State) (core : Nat) (u : Run) (r : Rec) (fl : Flags) (n : Nat) (code : BitVec 8)

/-- The end of a transfer record touches the status word, errors, release writes, what the fault path remembers of it and the engine. -/
theorem State.endTransfer_frame : s.endTransfer core u r fl n code = { s with
    strands := (s.endTransfer core u r fl n code).strands, lcores := (s.endTransfer core u r fl n code).lcores
    rels := (s.endTransfer core u r fl n code).rels, cores := (s.endTransfer core u r fl n code).cores
    denied := (s.endTransfer core u r fl n code).denied, faults := (s.endTransfer core u r fl n code).faults } := by
  simp only [State.endTransfer]
  split
  · rw [State.endRun, State.settle, State.engineError_frame, State.putStatus_frame]
    rfl
  · rw [State.endRun, State.settle, State.putStatus_frame]
    rfl

theorem State.run_endTransfer : (((s.endTransfer core u r fl n code).coreAt core).engine .t).run = none := State.run_endRun _ core .t

/-- The logical core after the end: as after the status word, but for the errors it holds. -/
theorem State.lcoreAt_endTransfer (k : Nat) : (s.endTransfer core u r fl n code).lcoreAt k =
    { (s.putStatus u.e r (statusWord n code 0 fl)).lcoreAt k with errs := ((s.endTransfer core u r fl n code).lcoreAt k).errs } := by
  simp only [State.endTransfer, State.endRun, State.lcoreAt_onCore]
  split
  · exact State.lcoreAt_engineError _ _ _ _
  · rfl

theorem State.sp_endTransfer (k : Nat) : ((s.endTransfer core u r fl n code).lcoreAt k).sp =
    if k = lckey u.e.ref.task u.e.ref.lcore then statMem r (statusWord n code 0 fl) (s.lcoreAt k).sp else (s.lcoreAt k).sp := by
  rw [State.lcoreAt_endTransfer, ← State.sp_putStatus]

/-- The end of a record leaves what a strand's region holds. -/
theorem State.rsb_endTransfer (k : Nat) : ((s.endTransfer core u r fl n code).strandAt k).rsb = (s.strandAt k).rsb := by
  have hput : (s.putStatus u.e r (statusWord n code 0 fl)).strandAt k = s.strandAt k := by
    rw [State.putStatus_frame]
    rfl
  simp only [State.endTransfer]
  split
  · exact (State.rsb_engineError _ u.e 6 k).trans (congrArg Strand.rsb hput)
  · exact congrArg Strand.rsb hput

end

/-- The completion of a transfer record that ends. -/
theorem exec_recordCompletion_transfer {s s1 : State} {core : Nat} {u : Run} {r : Rec} {fl : Flags} {n : Nat} {code : BitVec 8}
    (hu : ((s.coreAt core).engine .t).run = some u) (h : s.runTransfer core u = some (r, .ended s1 fl n code)) :
    exec (.recordCompletion core .t) s = .next (s1.endTransfer core u r fl n code) := by
  rw [exec_recordCompletion hu]
  simp only [State.complete, State.completeTransfer, h]

end Sys2Proof.Machine
end

section
/-! Far elements: what an access that does not wait leaves, and what one element of a transfer record does (R108, R112, R337 to R342). -/

namespace Sys2Proof.Machine

open Sys2Proof.Claims

/-! ### Accesses that do not wait leave the logical cores -/

theorem State.lcoreAt_congr {s t : State} (h : t.lcores = s.lcores) (k : Nat) : t.lcoreAt k = s.lcoreAt k := by
  rw [State.lcoreAt, State.lcoreAt, h]

theorem lcores_foldl {α : Type} {g : State → α → State} (hg : ∀ s x, (g s x).lcores = s.lcores) (l : List α) (s : State) :
    (l.foldl g s).lcores = s.lcores := by
  induction l generalizing s with
  | nil => rfl
  | cons x t ih => exact (ih _).trans (hg s x)

theorem State.lcores_chargeWalk (s : State) (p : Payer) (v : Vr) (va : Nat) : (s.chargeWalk p v va).lcores = s.lcores :=
  lcores_foldl (fun s _ => s.lcores_chargeMem _ _ _ _ _) _ s

theorem State.lcores_markAD (s : State) (p : Payer) (d : Nat → Bool) (marks : List Nat) : (s.markAD p d marks).lcores = s.lcores := by
  refine lcores_foldl (fun s x => ?_) _ s
  dsimp only
  split
  · rfl
  · exact s.lcores_chargeMem _ _ _ _ _

theorem State.lcores_refuse351 (s : State) (a : Acc) (page : Nat) : (s.refuse351 a page).lcores = s.lcores := by
  rw [State.refuse351]
  split <;> rfl

theorem State.lcores_cachePut (s : State) (a : Acc) (t : Tlb) : (s.cachePut a t).lcores = s.lcores := by
  rw [State.cachePut]
  split <;> rfl

theorem State.lcores_xwalk {s s1 : State} {a : Acc} {v : Vr} {va : Nat} {x : XR Nat} (h : s.xwalk a v va = (s1, x)) (hx : x ≠ .wait) :
    s1.lcores = s.lcores := by
  simp only [State.xwalk] at h
  split at h
  · obtain ⟨rfl, -⟩ := Prod.mk.inj h
    rw [State.lcores_refuse351, State.lcores_chargeWalk]
  · split at h
    · exact absurd (Prod.mk.inj h).2.symm hx
    · split at h
      · obtain ⟨rfl, -⟩ := Prod.mk.inj h
        rw [State.lcores_refuse351, State.lcores_chargeWalk]
      · obtain ⟨rfl, -⟩ := Prod.mk.inj h
        rw [State.lcores_cachePut, State.lcores_markAD, State.lcores_chargeWalk]

/-- A translation that does not wait leaves the logical cores. -/
theorem State.lcores_xlate {s s1 : State} {a : Acc} {va : Nat} {x : XR Nat} (h : s.xlate a va = (s1, x)) (hx : x ≠ .wait) :
    s1.lcores = s.lcores := by
  simp only [State.xlate] at h
  split at h
  · rw [← (Prod.mk.inj h).1]
  · split at h
    · rw [← (Prod.mk.inj h).1]
    · split at h
      · rw [← (Prod.mk.inj h).1]
      · split at h
        · split at h
          · rw [← (Prod.mk.inj h).1]
          · rw [← (Prod.mk.inj h).1, State.lcores_refuse351]
        · exact State.lcores_xwalk h hx

theorem State.lcores_chargeRuns (s : State) (p : Payer) (rs : List (Nat × Nat)) (rd : Bool) : (s.chargeRuns p rs rd).lcores = s.lcores :=
  lcores_foldl (fun s _ => s.lcores_chargeMem _ _ _ _ _) _ s

theorem State.mem_chargeRuns (s : State) (p : Payer) (rs : List (Nat × Nat)) (rd : Bool) : (s.chargeRuns p rs rd).mem = s.mem := by
  induction rs generalizing s with
  | nil => rfl
  | cons r t ih => exact (ih _).trans (s.mem_chargeMem _ _ _ _ _)

theorem State.lcores_gvRuns {a : Acc} {k : Nat} {s s1 : State} {va n : Nat} {x : XR (List (Nat × Nat))}
    (h : State.gvRuns a k s va n = (s1, x)) (hx : x ≠ .wait) : s1.lcores = s.lcores := by
  induction k generalizing s s1 va n x with
  | zero => rw [← (Prod.mk.inj h).1]
  | succ k ih =>
    simp only [State.gvRuns] at h
    split at h
    · rw [← (Prod.mk.inj h).1]
    · split at h
      · next hxl =>
        obtain ⟨rfl, -⟩ := Prod.mk.inj h
        exact State.lcores_xlate hxl nofun
      · exact absurd (Prod.mk.inj h).2.symm hx
      · next hxl =>
        split at h
        · next hrest =>
          obtain ⟨rfl, -⟩ := Prod.mk.inj h
          exact (ih hrest nofun).trans (State.lcores_xlate hxl nofun)
        · next hrest =>
          obtain ⟨rfl, -⟩ := Prod.mk.inj h
          exact (ih hrest nofun).trans (State.lcores_xlate hxl nofun)
        · exact absurd (Prod.mk.inj h).2.symm hx

/-- A write of global memory that does not wait leaves the logical cores. -/
theorem State.lcores_gvWrite {s s1 : State} {a : Acc} {va : Nat} {bs : List Byte} (h : s.gvWrite a va bs = (s1, .ok ())) :
    s1.lcores = s.lcores := by
  simp only [State.gvWrite] at h
  split at h
  · next hruns =>
    obtain ⟨rfl, -⟩ := Prod.mk.inj h
    exact (State.lcores_chargeRuns _ _ _ _).trans (State.lcores_gvRuns hruns nofun)
  · exact absurd (Prod.mk.inj h).2 nofun
  · exact absurd (Prod.mk.inj h).2 nofun

/-! ### Elements that lie on one page -/

/-- The formats that a copy takes are 1, 2, 4 or 8 bytes wide (R337). -/
theorem width_of_copyFmt {f : Fmt} (h : copyFmt f = true) : fmtBits f / 8 = 1 ∨ fmtBits f / 8 = 2 ∨ fmtBits f / 8 = 4 ∨ fmtBits f / 8 = 8 := by
  revert f
  decide

/-- An aligned element lies on one page. -/
theorem element_on_page {f : Fmt} (h : copyFmt f = true) {x : Int} (_hx : 0 ≤ x) (hal : x % (fmtBits f / 8 : Nat) = 0) :
    0 < fmtBits f / 8 ∧ fmtBits f / 8 ≤ 65536 - x.toNat % 65536 := by
  obtain hw | hw | hw | hw := width_of_copyFmt h <;> rw [hw] at hal ⊢ <;> omega

section
variable {s s1 : State} {a : Acc} {va n : Nat}

theorem State.runs_ok {pa : Nat} (hn : 0 < n) (hpage : n ≤ 65536 - va % 65536) (h : s.xlate a va = (s1, .ok pa)) :
    s.runs a va n = (s1, .ok [(pa, n)]) := by
  have hmin : Nat.min n (65536 - va % 65536) = n := Nat.min_eq_left hpage
  simp only [State.runs, State.gvRuns, if_neg hn.ne', hmin, h, Nat.sub_self, if_true]

theorem State.runs_refused {y : Nat} (hn : 0 < n) (h : s.xlate a va = (s1, .refused y)) : s.runs a va n = (s1, .refused y) := by
  simp only [State.runs, State.gvRuns, if_neg hn.ne', h]

theorem State.gvRead_ok {pa : Nat} (hn : 0 < n) (hpage : n ≤ 65536 - va % 65536) (h : s.xlate a va = (s1, .ok pa)) :
    s.gvRead a va n = (s1.chargeRuns a.payer [(pa, n)] true, .ok (s1.mem.bytes pa n)) := by
  simp only [State.gvRead, State.runs_ok hn hpage h, readRuns, List.append_nil]

theorem State.gvRead_refused {y : Nat} (hn : 0 < n) (h : s.xlate a va = (s1, .refused y)) : s.gvRead a va n = (s1, .refused y) := by
  simp only [State.gvRead, State.runs_refused hn h]

end

section
variable {s s1 : State} {core : Nat} {x : Entry} {a : Int}

/-- A far read before address zero is refused (R338). -/
theorem State.farRead_negative (ha : a < 0) (w : Nat) (k : State → List Byte → State) : s.farRead core x a w k = .refused s := by
  rw [State.farRead, if_pos ha]

section
variable {f : Fmt} (hf : copyFmt f = true) (ha : 0 ≤ a) (hal : a % (fmtBits f / 8 : Nat) = 0)
  (hbar : s.farBarred x a.toNat (fmtBits f / 8) = false) (hheld : s.farHeld x = false)
include hf ha hal hbar hheld

/-- A far read gives `k` the bytes at the translated address. -/
theorem State.farRead_ok {pa : Nat} (h : s.xlate (s.recAcc core x rR) a.toNat = (s1, .ok pa)) (k : State → List Byte → State) :
    ∃ s2 : State, s2.lcores = s.lcores ∧ s2.mem = s1.mem ∧
      s.farRead core x a (fmtBits f / 8) k = .ok (k s2 (s1.mem.bytes pa (fmtBits f / 8))) 0 := by
  obtain ⟨hw, hpage⟩ := element_on_page hf ha hal
  refine ⟨s1.chargeRuns (s.recAcc core x rR).payer [(pa, fmtBits f / 8)] true, (s1.lcores_chargeRuns _ _ _).trans (State.lcores_xlate h nofun),
    s1.mem_chargeRuns _ _ _, ?_⟩
  simp only [State.farRead, if_neg ha.not_gt, hbar, hheld, Bool.or_self, Bool.false_eq_true, if_false, State.gvRead_ok hw hpage h]

theorem State.farRead_refused {y : Nat} (h : s.xlate (s.recAcc core x rR) a.toNat = (s1, .refused y)) (k : State → List Byte → State) :
    s.farRead core x a (fmtBits f / 8) k = .refused s1 := by
  obtain ⟨hw, -⟩ := element_on_page hf ha hal
  simp only [State.farRead, if_neg ha.not_gt, hbar, hheld, Bool.or_self, Bool.false_eq_true, if_false, State.gvRead_refused hw h]

/-- A far write leaves the element's bytes at the translated address. -/
theorem State.farWrite_ok {pa : Nat} (hvoid : s.voided core x = false) (hholds : s.holdsFar x = false)
    (h : s.xlate (s.recAcc core x rW) a.toNat = (s1, .ok pa)) (r : Rec) (v : Nat) :
    ∃ s2 : State, s2.lcores = s.lcores ∧ s2.mem = s1.mem.setBytes pa (leBytes (fmtBits f / 8) v) ∧
      s.farWrite core x r a (leBytes (fmtBits f / 8) v) = .ok s2 0 := by
  obtain ⟨hw, hpage⟩ := element_on_page hf ha hal
  have hruns := State.runs_ok hw hpage h
  refine ⟨{ s1.chargeRuns (s.recAcc core x rW).payer [(pa, fmtBits f / 8)] false with
      mem := s1.mem.setBytes pa (leBytes (fmtBits f / 8) v), rels := clearRel s1.rels pa (fmtBits f / 8) },
    (s1.lcores_chargeRuns _ _ _).trans (State.lcores_xlate h nofun), rfl, ?_⟩
  simp only [State.farWrite, hvoid, hholds, Bool.false_eq_true, false_and, if_false, if_neg ha.not_gt, leBytes_length, hbar, hheld, Bool.or_self,
    State.gvWrite, hruns, writeRuns, List.foldl_cons, List.foldl_nil, List.take_of_length_le (leBytes_length _ _).le]

end

/-- Inside its region a record's far write is held (R42, R337). -/
theorem State.farWrite_held (hvoid : s.voided core x = false) (hholds : s.holdsFar x = true) (ha : 0 ≤ a) (r : Rec) (bs : List Byte) :
    s.farWrite core x r a bs = .ok (s.onStrand x.ref.key fun t =>
      { t with rsb := holdBytes (s.places (lckey x.ref.task x.ref.lcore)) x.uid x.pc 6 (.t, r.cls) none 2 t.rsb a.toNat bs }) 0 := by
  simp only [State.farWrite, hvoid, Bool.false_eq_true, if_false, hholds, ha, and_self, if_true]

/-- A far write before address zero is refused (R338). -/
theorem State.farWrite_negative (hvoid : s.voided core x = false) (ha : a < 0) (r : Rec) (bs : List Byte) : s.farWrite core x r a bs = .refused s := by
  simp only [State.farWrite, hvoid, Bool.false_eq_true, if_false, if_neg fun h : s.holdsFar x = true ∧ 0 ≤ a => absurd h.2 ha.not_ge, if_pos ha]

end

/-! ### What a record's elements do -/

theorem isStream_eq_isNear (o : Operand) : o.isStream = isNear o := by cases o <;> rfl

section
variable {s : State} {core : Nat} {u : Run} {r : Rec} {p : Point} {m : Mem}

/-- The element function of a far-reading record at a point. -/
theorem State.runTransfer_read {x : Int} (h : readForm u.e.cap p (s.lcoreAt (lckey u.e.ref.task u.e.ref.lcore)).sp u.e.instr = some (r, x)) :
    ∃ f, s.runTransfer core u = some (r, s.runCopy core u r f) ∧ ∀ later, f (lckey u.e.ref.task u.e.ref.lcore) later p s =
      s.farRead core u.e x (fmtBits r.type / 8) fun s bs =>
        if later then s else s.nearPut (lckey u.e.ref.task u.e.ref.lcore) r.type u.e.cap.d p (ofLeBytes bs) := by
  cases hi : u.e.instr <;> rw [hi] at h <;> simp only [readForm, reduceCtorEq] at h
  case tcopy y =>
    split at h
    · next hnear =>
      obtain ⟨rfl, rfl⟩ := Prod.mk.inj (Option.some.inj h)
      simp only [Bool.and_eq_true, Bool.not_eq_true', ← isStream_eq_isNear] at hnear
      refine ⟨copyElem core u.e y, by rw [State.runTransfer, hi], fun later => ?_⟩
      simp only [copyElem, hnear.1, hnear.2, if_true, Bool.false_eq_true, if_false]
      rfl
    · exact absurd h nofun
  case tgather y =>
    obtain ⟨rfl, rfl⟩ := Prod.mk.inj (Option.some.inj h)
    exact ⟨tgatherElem core u.e y, by rw [State.runTransfer, hi], fun later => rfl⟩

/-- The element function of a far-writing record at a point. -/
theorem State.runTransfer_write {x : Int} {v : Nat}
    (h : writeForm u.e.cap p (s.lcoreAt (lckey u.e.ref.task u.e.ref.lcore)).sp u.e.instr = some (r, x, v)) :
    ∃ f, s.runTransfer core u = some (r, s.runCopy core u r f) ∧ ∀ later, f (lckey u.e.ref.task u.e.ref.lcore) later p s =
      s.farWrite core u.e r x (leBytes (fmtBits r.type / 8) v) := by
  cases hi : u.e.instr <;> rw [hi] at h <;> simp only [writeForm, reduceCtorEq] at h
  case tcopy y =>
    split at h
    · exact absurd h nofun
    · next hnear =>
      obtain ⟨rfl, rfl, rfl⟩ := h
      rw [← isStream_eq_isNear] at hnear
      refine ⟨copyElem core u.e r, by rw [State.runTransfer, hi], fun later => ?_⟩
      simp only [copyElem, if_neg hnear]
      rfl
  case tfill y =>
    split at h
    · exact absurd h nofun
    · next hnear =>
      obtain ⟨rfl, rfl, rfl⟩ := h
      rw [← isStream_eq_isNear] at hnear
      refine ⟨fillElem core u.e r, by rw [State.runTransfer, hi], fun later => ?_⟩
      simp only [fillElem, if_neg hnear]
      rfl
  case tscatter y =>
    obtain ⟨rfl, rfl, rfl⟩ := h
    exact ⟨tscatterElem core u.e r, by rw [State.runTransfer, hi], fun later => rfl⟩

end

end Sys2Proof.Machine
end

section
/-! Completion of copying records: near records whole, far records at the element left (R26, R42, R337 to R342). -/

namespace Sys2Proof.Machine

open Sys2Proof.Claims

/-! ### Near elements -/

theorem State.sp_nearPut (s : State) (lc : Nat) (f : Fmt) (o : Operand) (p : Point) (v k : Nat) :
    ((s.nearPut lc f o p v).lcoreAt k).sp = if k = lc then setBits (s.lcoreAt lc).sp (nearWrite f o p v) else (s.lcoreAt k).sp :=
  s.sp_spPut lc _ _ k

/-- A near write touches the logical cores and the release writes it covers. -/
theorem State.nearPut_frame (s : State) (lc : Nat) (f : Fmt) (o : Operand) (p : Point) (v : Nat) :
    s.nearPut lc f o p v = { s with lcores := (s.nearPut lc f o p v).lcores, rels := (s.nearPut lc f o p v).rels } := rfl

/-! ### The end of a copying record -/

section
variable {s s' : State} {u : Run} {r : Rec} {ws : List Put} (core : Nat) (fl : Flags) (n : Nat)

/-- A record that has left its writes in the scratchpad ends with them and its status word. -/
theorem endTransfer_wrote (hsp : ∀ k, (s'.lcoreAt k).sp =
    if k = lckey u.e.ref.task u.e.ref.lcore then putMem (s.lcoreAt (lckey u.e.ref.task u.e.ref.lcore)).sp ws else (s.lcoreAt k).sp) :
    WroteAll (lckey u.e.ref.task u.e.ref.lcore) r ws s (s'.endTransfer core u r fl n 0) := by
  refine wroteAll_of_sp (statusWord n 0 0 fl) ?_ fun k hk => ?_
  · rw [State.sp_endTransfer, if_pos rfl, hsp, if_pos rfl]
  · rw [State.sp_endTransfer, if_neg hk, hsp, if_neg hk]

/-- One that has written nothing near ends with its status word alone. -/
theorem endTransfer_wrote_nil (h : ∀ k, (s'.lcoreAt k).sp = (s.lcoreAt k).sp) : WroteAll (lckey u.e.ref.task u.e.ref.lcore) r [] s (s'.endTransfer core u r fl n 0) := by
  refine endTransfer_wrote core fl n fun k => ?_
  rw [h]
  split
  · next hk => rw [hk]; rfl
  · rfl

theorem endTransfer_status (s' : State) (hse : r.se = true) : ((s'.endTransfer core u r fl n 0).lcoreAt (lckey u.e.ref.task u.e.ref.lcore)).sp.read (r.stat.toNat * 8) 8 =
    (statusWord n 0 0 fl).toNat := by
  rw [State.sp_endTransfer, if_pos rfl, read_statMem hse]

theorem State.mem_endTransfer (s' : State) : (s'.endTransfer core u r fl n 0).mem = s'.mem := by rw [State.endTransfer_frame]

end

/-! ### One element left -/

section
variable {s : State} {core : Nat} {u : Run} {r : Rec} (hbar : s.fillsBarred u.e (copySpans u.e.cap r) = false)
  (ht : s.touchSpans (lckey u.e.ref.task u.e.ref.lcore) (copySpans u.e.cap r) = (s, .ok ()))
include hbar ht

/-- A copying record with one element left ends as that element leaves it. -/
theorem State.runCopy_single {f : Nat → Bool → Point → State → ElemAns} {p : Point} {s' : State} {n : Nat} {fl : Flags} (hleft : pointsLeft u = [p])
    (hf : (f (lckey u.e.ref.task u.e.ref.lcore) (writtenSince u p) p s).leaves u.refused u.flags = some (s', n, fl)) :
    s.runCopy core u r f = .ended s' fl n 0 := by
  obtain ⟨hp, hnot⟩ := mem_pointsLeft.1 (hleft ▸ List.mem_singleton_self p)
  let onPage (g : Nat) : List Point := (activePoints u.e.cap).filter fun p =>
    decide ((farAt u.e r (s.lcoreAt (lckey u.e.ref.task u.e.ref.lcore)).sp p).map (fun a => a / 65536) = some (g : Int))
  have hactive : ∀ q ∈ u.retry.flatMap onPage ++ activePoints u.e.cap, q ∈ activePoints u.e.cap := fun q hq => by
    obtain hq | hq := List.mem_append.1 hq
    · obtain ⟨g, -, hg⟩ := List.mem_flatMap.1 hq
      exact List.mem_of_mem_filter hg
    · exact hq
  have honly : ∀ q ∈ u.retry.flatMap onPage ++ activePoints u.e.cap, sget false u.done (linIndex u.e.cap.trips q) = false → q = p := fun q hq hd =>
    List.mem_singleton.1 (hleft ▸ mem_pointsLeft.2 ⟨hactive q hq, hd⟩)
  rw [← overwritten_eq_writtenSince] at hf
  obtain ⟨done', hpass⟩ := elemPass_single (f (lckey u.e.ref.task u.e.ref.lcore)) u.e.cap _ (List.mem_append_right _ hp) honly hnot hf
  simp only [State.runCopy, hbar, Bool.false_eq_true, if_false, ht, onPage] at hpass ⊢
  simp only [hpass, Bool.false_eq_true, if_false]

section
variable (hu : ((s.coreAt core).engine .t).run = some u) {p : Point} (hleft : pointsLeft u = [p])
include hu hleft

/-- A far-reading record with one element left. -/
theorem exec_recordCompletion_farRead {x : Int} {s' : State} {fl : Flags} {n : Nat}
    (h : readForm u.e.cap p (s.lcoreAt (lckey u.e.ref.task u.e.ref.lcore)).sp u.e.instr = some (r, x))
    (hans : (s.farRead core u.e x (fmtBits r.type / 8) fun s bs =>
      if writtenSince u p then s else s.nearPut (lckey u.e.ref.task u.e.ref.lcore) r.type u.e.cap.d p (ofLeBytes bs)).leaves u.refused u.flags = some (s', n, fl)) :
    exec (.recordCompletion core .t) s = .next (s'.endTransfer core u r fl n 0) := by
  obtain ⟨f, hrun, hf⟩ := State.runTransfer_read (core := core) h
  rw [State.runCopy_single hbar ht hleft (by rw [hf]; exact hans)] at hrun
  exact exec_recordCompletion_transfer hu hrun

/-- A far-writing record with one element left. -/
theorem exec_recordCompletion_farWrite {x : Int} {v : Nat} {s' : State} {fl : Flags} {n : Nat}
    (h : writeForm u.e.cap p (s.lcoreAt (lckey u.e.ref.task u.e.ref.lcore)).sp u.e.instr = some (r, x, v))
    (hans : (s.farWrite core u.e r x (leBytes (fmtBits r.type / 8) v)).leaves u.refused u.flags = some (s', n, fl)) :
    exec (.recordCompletion core .t) s = .next (s'.endTransfer core u r fl n 0) := by
  obtain ⟨f, hrun, hf⟩ := State.runTransfer_write (core := core) h
  rw [State.runCopy_single hbar ht hleft (by rw [hf]; exact hans)] at hrun
  exact exec_recordCompletion_transfer hu hrun

end

end

/-! ### Near records -/

/-- The write of a near record at a point: tfetch leaves an element that a later one has overwritten. -/
def nearStep (s0 : State) (core : Nat) (u : Run) (r : Rec) (s : State) (p : Point) : State :=
  let lc := lckey u.e.ref.task u.e.ref.lcore
  if u.e.instr = .tfetch r ∧ writtenSince u p = true then s
  else s.nearPut lc r.type u.e.cap.d p (nearValue s0 core u.e.cap r p (s.lcoreAt lc).sp u.e.instr)

/-- Nothing but logical cores and release writes differ. -/
def NearOnly (s t : State) : Prop := t = { s with lcores := t.lcores, rels := t.rels }

theorem nearOnly_refl (s : State) : NearOnly s s := rfl

section
variable {s0 : State} {core : Nat} {u : Run} {r : Rec}

theorem nearOnly_nearStep {s : State} {p : Point} (h : NearOnly s0 s) : NearOnly s0 (nearStep s0 core u r s p) := by
  simp only [nearStep]
  split
  · exact h
  · rw [NearOnly, State.nearPut_frame]
    rw [NearOnly] at h
    rw [h]

theorem sp_foldl_nearStep (l : List Point) (s : State) (k : Nat) : ((l.foldl (nearStep s0 core u r) s).lcoreAt k).sp =
    if k = lckey u.e.ref.task u.e.ref.lcore then l.foldl (fun m p => if u.e.instr = .tfetch r ∧ writtenSince u p = true then m
      else setBits m (nearWrite r.type u.e.cap.d p (nearValue s0 core u.e.cap r p m u.e.instr))) (s.lcoreAt (lckey u.e.ref.task u.e.ref.lcore)).sp
    else (s.lcoreAt k).sp := by
  induction l generalizing s with
  | nil =>
    split
    · next hk => rw [hk]; rfl
    · rfl
  | cons p t ih =>
    rw [List.foldl_cons, ih]
    simp only [nearStep, List.foldl_cons]
    by_cases hskip : u.e.instr = .tfetch r ∧ writtenSince u p = true
    · simp only [if_pos hskip]
    · simp only [if_neg hskip, State.sp_nearPut, if_true]
      split <;> rfl

/-- The element function of a near record. -/
theorem State.runTransfer_near (h : nearRec u.e.cap u.e.instr = some r)
    (hws : ∀ y, u.e.instr = .tfetch y → ∀ p ∈ pointsLeft u, s0.wsHeld (core / 72) ((farOf u.e.cap.a u.e.cap (fmtBits r.type / 8) p).toNat / 0x1000000) = false) :
    ∃ f, s0.runTransfer core u = some (r, s0.runCopy core u r f) ∧ (∀ m p, farAt u.e r m p = none) ∧
      ∀ p ∈ pointsLeft u, ∀ s, NearOnly s0 s → f (lckey u.e.ref.task u.e.ref.lcore) (writtenSince u p) p s = .ok (nearStep s0 core u r s p) 0 := by
  cases hi : u.e.instr <;> rw [hi] at h <;> simp only [nearRec, reduceCtorEq] at h
  case tcopy y =>
    split at h
    · next hnear =>
      obtain rfl := Option.some.inj h
      simp only [Bool.and_eq_true, ← isStream_eq_isNear] at hnear
      refine ⟨copyElem core u.e y, by rw [State.runTransfer, hi], fun m p => ?_, fun p _ s _ => ?_⟩
      · simp [farAt, hi, hnear]
      · simp only [copyElem, hnear, if_true, nearStep, hi, reduceCtorEq, false_and, if_false, nearValue]
        rfl
    · exact absurd h nofun
  case tfill y =>
    split at h
    · next hnear =>
      obtain rfl := Option.some.inj h
      rw [← isStream_eq_isNear] at hnear
      refine ⟨fillElem core u.e y, by rw [State.runTransfer, hi], fun m p => ?_, fun p _ s _ => ?_⟩
      · simp [farAt, hi, hnear]
      · simp only [fillElem, hnear, if_true, nearStep, hi, reduceCtorEq, false_and, if_false, nearValue]
    · exact absurd h nofun
  case tfetch y =>
    obtain rfl := Option.some.inj h
    refine ⟨fetchElem core u.e y, by rw [State.runTransfer, hi], fun m p => by simp [farAt, hi], fun p hp s hs => ?_⟩
    have hheld : s.wsHeld (core / 72) ((farOf u.e.cap.a u.e.cap (fmtBits y.type / 8) p).toNat / 0x1000000) = false := by
      rw [hs]
      exact hws y hi p hp
    have hstore : s.ws = s0.ws := by rw [hs]
    have hfar : farAddr u.e.cap.a u.e.cap.b u.e.cap.c (copyBytes y) p = farOf u.e.cap.a u.e.cap (fmtBits y.type / 8) p := rfl
    simp only [fetchElem, hfar, dieOf, hheld, Bool.false_eq_true, if_false, nearStep, hi, true_and, nearValue, hstore]
    rfl

end

/-- A near record writes every element left and its status word (R339 to R341). -/
theorem exec_recordCompletion_near {s : State} {core : Nat} {u : Run} {r : Rec} (hbar : s.fillsBarred u.e (copySpans u.e.cap r) = false)
    (ht : s.touchSpans (lckey u.e.ref.task u.e.ref.lcore) (copySpans u.e.cap r) = (s, .ok ())) (hu : ((s.coreAt core).engine .t).run = some u)
    (h : nearRec u.e.cap u.e.instr = some r)
    (hws : ∀ y, u.e.instr = .tfetch y → ∀ p ∈ pointsLeft u, s.wsHeld (core / 72) ((farOf u.e.cap.a u.e.cap (fmtBits r.type / 8) p).toNat / 0x1000000) = false) :
    exec (.recordCompletion core .t) s = .next (((pointsLeft u).foldl (nearStep s core u r) s).endTransfer core u r u.flags u.refused 0) := by
  obtain ⟨f, hrun, hfar, hf⟩ := State.runTransfer_near h hws
  have hstep : ∀ p ∈ activePoints u.e.cap, sget false u.done (linIndex u.e.cap.trips p) = false → ∀ s', NearOnly s s' →
      f (lckey u.e.ref.task u.e.ref.lcore) (overwritten u.e.cap u.done p) p s' = .ok (nearStep s core u r s' p) 0 := fun p hp hd s' hs' => by
    rw [overwritten_eq_writtenSince]
    exact hf p (mem_pointsLeft.2 ⟨hp, hd⟩) s' hs'
  obtain ⟨done', hpass⟩ := elemPass_foldl (f (lckey u.e.ref.task u.e.ref.lcore)) u.e.cap (NearOnly s) (fun _ _ => nearOnly_nearStep) _ hstep
    (activePoints_pairwise u.e.cap) (nearOnly_refl s) (fun _ _ _ _ => rfl) u.refused u.flags
  have hend : s.runCopy core u r f = .ended ((pointsLeft u).foldl (nearStep s core u r) s) u.flags u.refused 0 := by
    have hno : (u.retry.flatMap fun _ => ([] : List Point)) = [] := List.flatMap_eq_nil_iff.2 fun _ _ => rfl
    simp only [State.runCopy, hbar, Bool.false_eq_true, if_false, ht, hfar, Option.map_none, reduceCtorEq, decide_false, List.filter_false, hno,
      List.nil_append, hpass, pointsLeft]
  rw [hend] at hrun
  exact exec_recordCompletion_transfer hu hrun

theorem nearOnly_foldl_nearStep {s0 : State} {core : Nat} {u : Run} {r : Rec} (l : List Point) {s : State} (h : NearOnly s0 s) :
    NearOnly s0 (l.foldl (nearStep s0 core u r) s) := by
  induction l generalizing s with
  | nil => exact h
  | cons p t ih => exact ih (nearOnly_nearStep h)

theorem onlyTile_endTransfer_near {s t : State} (h : NearOnly s t) (core : Nat) (u : Run) (r : Rec) (fl : Flags) (n : Nat) :
    OnlyTile s (t.endTransfer core u r fl n 0) := by
  rw [State.endTransfer_frame, h]
  exact ⟨rfl, rfl, rfl, rfl⟩

end Sys2Proof.Machine
end

section
/-! The region store buffer: what it holds of a location after a later store (R43, R119). -/

namespace Sys2Proof.Machine

open Sys2Proof.Claims

/-! ### One location under two addresses -/

/-- Two addresses of a VR name one location: the same byte of the same physical page (R119). -/
abbrev SameLoc (pl : Nat → Nat) (x y : Nat) : Prop := x % 65536 = y % 65536 ∧ pl (x / 65536) = pl (y / 65536)

theorem samePage_iff {pl : Nat → Nat} {p q : Nat} : samePage pl p q = true ↔ pl p = pl q := by
  simp only [samePage, Bool.or_eq_true, decide_eq_true_eq]
  exact ⟨fun h => h.elim (congrArg pl) id, .inr⟩

theorem placeIn_eq_some_iff {pl : Nat → Nat} {a n x j : Nat} : placeIn pl a n x = some j ↔ j < n ∧ j < 65536 ∧ SameLoc pl (a + j) x := by
  simp only [placeIn, Bool.and_eq_true, decide_eq_true_eq, samePage_iff, SameLoc]
  generalize hk : (x % 65536 + 65536 - a % 65536) % 65536 = k
  split
  · next h =>
    simp only [Option.some.injEq]
    exact ⟨by rintro rfl; exact ⟨h.1, by omega, by omega, h.2⟩, fun ⟨_, _, _, _⟩ => by omega⟩
  · next h =>
    refine ⟨nofun, fun ⟨hn, hj, hmod, hpl⟩ => absurd ?_ h⟩
    obtain rfl : j = k := by omega
    exact ⟨hn, hpl⟩

/-- One location has one place. -/
theorem placeIn_congr {pl : Nat → Nat} {a n x y : Nat} (h : SameLoc pl x y) : placeIn pl a n x = placeIn pl a n y := by
  obtain ⟨hmod, hpl⟩ := h
  refine Option.ext fun j => ?_
  simp only [placeIn_eq_some_iff, SameLoc, hmod, hpl]

theorem sameLoc_of_placeIn {pl : Nat → Nat} {a n x y j : Nat} (hx : placeIn pl a n x = some j) (hy : placeIn pl a n y = some j) : SameLoc pl x y := by
  obtain ⟨-, -, hmx, hpx⟩ := placeIn_eq_some_iff.1 hx
  obtain ⟨-, -, hmy, hpy⟩ := placeIn_eq_some_iff.1 hy
  exact ⟨hmx.symm.trans hmy, hpx.symm.trans hpy⟩

/-! ### A later byte over what an item holds -/

section
variable {α β : Type} {f : α → Option β} {g : α → α}

/-- A change of the elements that changes what is found changes the first found. -/
theorem findSome?_map_of_map {k : β → β} (h : ∀ a, f (g a) = (f a).map k) (l : List α) : (l.map g).findSome? f = (l.findSome? f).map k := by
  induction l with
  | nil => rfl
  | cons a t ih =>
    rw [List.map_cons, List.findSome?_cons, List.findSome?_cons, h, ih]
    cases f a <;> rfl

theorem findSome?_map_of_eq (h : ∀ a, f (g a) = f a) (l : List α) : (l.map g).findSome? f = l.findSome? f := by
  rw [List.findSome?_map]
  exact congrArg (l.findSome? ·) (funext h)

end

/-- A line of a held write-back with a later byte over it. -/
def patchLine (pl : Nat → Nat) (x : Nat) (v : Byte) (old : Region) (e : Nat × List Byte) : Nat × List Byte :=
  match placeIn pl (lineVa old e.1) e.2.length x with
  | some j => (e.1, e.2.set j v)
  | none => e

section
variable (pl : Nat → Nat) (x : Nat) (v : Byte) (old : Region) (e : Nat × List Byte)

theorem patchLine_fst : (patchLine pl x v old e).1 = e.1 := by
  rw [patchLine]
  split <;> rfl

theorem length_patchLine : (patchLine pl x v old e).2.length = e.2.length := by
  rw [patchLine]
  split
  · exact List.length_set
  · rfl

/-- The byte that a line of a write-back holds for a location. -/
def lineByte (y : Nat) : Option Byte := (placeIn pl (lineVa old e.1) e.2.length y).bind fun j => e.2[j]?

theorem lineByte_patchLine_of_sameLoc {y : Nat} (h : SameLoc pl x y) :
    lineByte pl old (patchLine pl x v old e) y = (lineByte pl old e y).map fun _ => v := by
  rw [lineByte, patchLine_fst, length_patchLine, lineByte, patchLine, placeIn_congr h]
  cases hp : placeIn pl (lineVa old e.1) e.2.length y with
  | none => rfl
  | some j =>
    have hj := (placeIn_eq_some_iff.1 hp).1
    simp [hj]

theorem lineByte_patchLine_of_not_sameLoc {y : Nat} (h : ¬ SameLoc pl x y) : lineByte pl old (patchLine pl x v old e) y = lineByte pl old e y := by
  rw [lineByte, patchLine_fst, length_patchLine, lineByte, patchLine]
  cases hx : placeIn pl (lineVa old e.1) e.2.length x with
  | none => rfl
  | some j =>
    cases hy : placeIn pl (lineVa old e.1) e.2.length y with
    | none => rfl
    | some j' =>
      have hne : j ≠ j' := fun hj => h (sameLoc_of_placeIn hx (hj ▸ hy))
      exact List.getElem?_set_ne hne

end

section
variable (pl : Nat → Nat) (rel : Option (BitVec 3)) (x : Nat) (v : Byte)

theorem patch_wback (u idx : Nat) (bs : List (Nat × Nat)) (old : Region) (ls : List (Nat × List Byte)) (pc : BitVec 53) (cls : BitVec 4) (ev : Bool)
    (com : Option Nat) : (Held.wback u idx bs old ls pc cls ev com).patch pl rel x v =
      .wback u idx bs old (ls.map (patchLine pl x v old)) pc cls ev com := rfl

theorem byteAt_wback (u idx : Nat) (bs : List (Nat × Nat)) (old : Region) (ls : List (Nat × List Byte)) (pc : BitVec 53) (cls : BitVec 4) (ev : Bool)
    (com : Option Nat) (y : Nat) : (Held.wback u idx bs old ls pc cls ev com).byteAt pl y =
      if bs.isEmpty then none else ls.findSome? fun e => lineByte pl old e y := rfl

theorem byteAt_bytes (b : HeldBlk) (y : Nat) :
    (Held.bytes b).byteAt pl y = (placeIn pl (b.blk * 256) 256 y).bind fun j => sget none b.data j := rfl

section
variable {pl x} {b : HeldBlk}

theorem patch_bytes_none (h : placeIn pl (b.blk * 256) 256 x = none) : (Held.bytes b).patch pl rel x v = .bytes b := by
  rw [Held.patch, h]

theorem patch_bytes_some {j : Nat} (h : placeIn pl (b.blk * 256) 256 x = some j) : (Held.bytes b).patch pl rel x v =
    .bytes (if (sget none b.data j).isSome then { b with data := sset none b.data j (some v), rel := sset none b.rel j rel } else b) := by
  rw [Held.patch, h]
  dsimp only
  split <;> rfl

end

theorem byteAt_patch_of_sameLoc {y : Nat} (h : SameLoc pl x y) (i : Held) : (i.patch pl rel x v).byteAt pl y = (i.byteAt pl y).map fun _ => v := by
  cases i with
  | bytes b =>
    cases hp : placeIn pl (b.blk * 256) 256 y with
    | none => rw [patch_bytes_none rel v ((placeIn_congr h).trans hp), byteAt_bytes, hp, Option.bind_none, Option.map_none]
    | some j =>
      rw [patch_bytes_some rel v ((placeIn_congr h).trans hp)]
      cases hd : sget none b.data j <;> simp [byteAt_bytes, hp, hd]
  | wback u idx bs old ls pc cls ev com =>
    rw [patch_wback, byteAt_wback, byteAt_wback, findSome?_map_of_map fun e => lineByte_patchLine_of_sameLoc pl x v old e h]
    cases bs.isEmpty <;> rfl
  | remote => rfl
  | fence => rfl

theorem byteAt_patch_of_not_sameLoc {y : Nat} (h : ¬ SameLoc pl x y) (i : Held) : (i.patch pl rel x v).byteAt pl y = i.byteAt pl y := by
  cases i with
  | bytes b =>
    cases hx : placeIn pl (b.blk * 256) 256 x with
    | none => rw [patch_bytes_none rel v hx]
    | some j =>
      rw [patch_bytes_some rel v hx]
      split
      · cases hy : placeIn pl (b.blk * 256) 256 y with
        | none => simp [byteAt_bytes, hy]
        | some j' =>
          have hne : j' ≠ j := fun hj => h (sameLoc_of_placeIn hx (hj ▸ hy))
          simp [byteAt_bytes, hy, sget_sset_ne _ _ _ _ _ hne]
      · rfl
  | wback u idx bs old ls pc cls ev com =>
    rw [patch_wback, byteAt_wback, byteAt_wback, findSome?_map_of_eq fun e => lineByte_patchLine_of_not_sameLoc pl x v old e h]
  | remote => rfl
  | fence => rfl

end

/-! ### A later store over what an item holds -/

/-- The byte that a store of `bs` at `x` gives the location of `y`. -/
def storedAt (pl : Nat → Nat) : Nat → List Byte → Nat → Option Byte
  | _, [], _ => none
  | x, v :: t, y => (storedAt pl (x + 1) t y).or (if SameLoc pl x y then some v else none)

/-- An item with a store's bytes over what it holds. -/
def Held.patchRun (pl : Nat → Nat) (rel : Option (BitVec 3)) : Nat → List Byte → Held → Held
  | _, [], i => i
  | x, v :: t, i => Held.patchRun pl rel (x + 1) t (i.patch pl rel x v)

theorem patchAll_eq_map (pl : Nat → Nat) (rel : Option (BitVec 3)) (x : Nat) (bs : List Byte) (l : List Held) :
    patchAll pl rel x bs l = l.map (Held.patchRun pl rel x bs) := by
  induction bs generalizing x l with
  | nil => exact (List.map_id l).symm
  | cons v t ih => rw [patchAll, ih, List.map_map]; rfl

/-- What an item holds after a store over it: the store's byte where it held one. -/
theorem byteAt_patchRun (pl : Nat → Nat) (rel : Option (BitVec 3)) (x : Nat) (bs : List Byte) (i : Held) (y : Nat) :
    (i.patchRun pl rel x bs).byteAt pl y = (i.byteAt pl y).map fun b => (storedAt pl x bs y).getD b := by
  induction bs generalizing x i with
  | nil => simp [Held.patchRun, storedAt]
  | cons v t ih =>
    rw [Held.patchRun, ih]
    by_cases h : SameLoc pl x y
    · rw [byteAt_patch_of_sameLoc pl rel x v h, Option.map_map, storedAt, if_pos h]
      congr 1
      funext b
      cases storedAt pl (x + 1) t y <;> rfl
    · rw [byteAt_patch_of_not_sameLoc pl rel x v h, storedAt, if_neg h, Option.or_none]

theorem isBlock_patch (pl : Nat → Nat) (rel : Option (BitVec 3)) (x : Nat) (v : Byte) (k : Nat) (i : Held) : (i.patch pl rel x v).isBlock k = i.isBlock k := by
  cases i with
  | bytes b =>
    cases hx : placeIn pl (b.blk * 256) 256 x with
    | none => rw [patch_bytes_none rel v hx]
    | some j =>
      rw [patch_bytes_some rel v hx]
      split <;> rfl
  | wback => rfl
  | remote => rfl
  | fence => rfl

theorem isBlock_patchRun (pl : Nat → Nat) (rel : Option (BitVec 3)) (x : Nat) (bs : List Byte) (k : Nat) (i : Held) :
    (i.patchRun pl rel x bs).isBlock k = i.isBlock k := by
  induction bs generalizing x i with
  | nil => rfl
  | cons v t ih => rw [Held.patchRun, ih, isBlock_patch]

/-! ### The places of a store's bytes -/

theorem storedAt_none {pl : Nat → Nat} {x y : Nat} {bs : List Byte} (h : ∀ i < bs.length, ¬ SameLoc pl (x + i) y) : storedAt pl x bs y = none := by
  induction bs generalizing x with
  | nil => rfl
  | cons v t ih =>
    have h0 : ¬ SameLoc pl x y := h 0 (by simp)
    rw [storedAt, if_neg h0, Option.or_none]
    refine ih fun i hi => ?_
    rw [Nat.add_assoc, Nat.add_comm 1]
    exact h (i + 1) (by simpa using hi)

/-- In a store of a page or less, a location has one byte. -/
theorem storedAt_some {pl : Nat → Nat} {x y i : Nat} {bs : List Byte} (hlen : bs.length ≤ 65536) (hi : i < bs.length) (h : SameLoc pl (x + i) y) :
    storedAt pl x bs y = bs[i]? := by
  induction bs generalizing x i with
  | nil => simp at hi
  | cons v t ih =>
    simp only [List.length_cons] at hlen hi
    cases i with
    | zero =>
      have hrest : storedAt pl (x + 1) t y = none := storedAt_none fun k hk hsame => by
        obtain ⟨hmod, -⟩ := h
        obtain ⟨hmod', -⟩ := hsame
        omega
      rw [Nat.add_zero] at h
      rw [storedAt, hrest, if_pos h]
      rfl
    | succ i =>
      have hi' : i < t.length := by omega
      have hsome := ih (x := x + 1) (by omega) hi' (by rwa [Nat.add_assoc, Nat.add_comm 1])
      rw [storedAt, hsome, List.getElem?_cons_succ, List.getElem?_eq_getElem hi']
      rfl

theorem storedAt_append (pl : Nat → Nat) (x : Nat) (bs cs : List Byte) (y : Nat) :
    storedAt pl x (bs ++ cs) y = (storedAt pl (x + bs.length) cs y).or (storedAt pl x bs y) := by
  induction bs generalizing x with
  | nil => simp [storedAt]
  | cons v t ih =>
    rw [List.cons_append, storedAt, ih, storedAt, Option.or_assoc, List.length_cons, Nat.add_assoc, Nat.add_comm 1]

/-- The byte of a location is that of the place where `placeAmong` finds it. -/
theorem storedAt_leBytes (pl : Nat → Nat) (x n v y : Nat) (hn : n ≤ 65536) : storedAt pl x (leBytes n v) y = (placeAmong pl x n y).map (byteOf v) := by
  cases hp : placeAmong pl x n y with
  | none =>
    refine storedAt_none fun i hi hsame => ?_
    rw [leBytes_length] at hi
    have hno := List.find?_eq_none.1 hp i (List.mem_range.2 hi)
    exact hno (decide_eq_true hsame)
  | some i =>
    have hi := List.mem_range.1 (List.mem_of_find?_eq_some hp)
    have hfound := List.find?_some hp
    have hsame : SameLoc pl (x + i) y := of_decide_eq_true hfound
    rw [storedAt_some (by rwa [leBytes_length]) (by rwa [leBytes_length]) hsame, Option.map_some, ← getD_leBytes n v i hi, List.getD_eq_getElem?_getD,
      List.getElem?_eq_getElem (by rwa [leBytes_length])]
    rfl

theorem findSome?_eq_of_all {α β : Type} {g : α → Option β} {l : List α} {v : β} (hall : ∀ a ∈ l, g a = none ∨ g a = some v)
    (hex : ∃ a ∈ l, g a = some v) : l.findSome? g = some v := by
  induction l with
  | nil => simp at hex
  | cons a t ih =>
    rw [List.findSome?_cons]
    obtain ha | ha := hall a List.mem_cons_self
    · rw [ha]
      obtain ⟨b, hb, hv⟩ := hex
      obtain rfl | hb := List.mem_cons.1 hb
      · rw [ha] at hv
        cases hv
      · exact ih (fun c hc => hall c (List.mem_cons_of_mem a hc)) ⟨b, hb, hv⟩
    · rw [ha]

/-! ### A store merged into its block -/

section
variable (uid : Nat) (pc : BitVec 53) (src : BitVec 4) (kind : Path × BitVec 4) (rel : Option (BitVec 3)) (x : Nat) (bs : List Byte)

theorem data_ofStore : (HeldBlk.ofStore uid pc src kind rel x bs).data = srun none (x % 256) (bs.map some) := List.append_nil _

theorem sget_foldl_srun (k j : Nat) (m : SMap (Option Byte)) :
    sget none ((srun none k (bs.map some)).foldl (fun m e => sset none m e.1 e.2) m) j = if k ≤ j ∧ j < k + bs.length then bs[j - k]? else sget none m j := by
  induction bs generalizing k m with
  | nil => simp [srun, show ¬ (k ≤ j ∧ j < k) by omega]
  | cons v t ih =>
    rw [List.map_cons, srun, if_neg nofun, List.foldl_cons, ih, List.length_cons]
    by_cases hlow : k + 1 ≤ j ∧ j < k + 1 + t.length
    · rw [if_pos hlow, if_pos (by omega), show j - k = j - (k + 1) + 1 by omega, List.getElem?_cons_succ]
    · rw [if_neg hlow]
      by_cases hj : j = k
      · rw [hj, sget_sset_self, if_pos (by omega), Nat.sub_self]
        rfl
      · rw [sget_sset_ne _ _ _ _ _ hj, if_neg (by omega)]

theorem sget_srun_some (k j : Nat) : sget none (srun none k (bs.map some)) j = if k ≤ j ∧ j < k + bs.length then bs[j - k]? else none := by
  induction bs generalizing k with
  | nil => simp [srun, show ¬ (k ≤ j ∧ j < k) by omega]
  | cons v t ih =>
    rw [List.map_cons, srun, if_neg nofun, sget, ih, List.length_cons]
    by_cases hj : j = k
    · rw [if_pos hj, hj, if_pos (by omega), Nat.sub_self]
      rfl
    · rw [if_neg hj]
      by_cases hlow : k + 1 ≤ j ∧ j < k + 1 + t.length
      · rw [if_pos hlow, if_pos (by omega), show j - k = j - (k + 1) + 1 by omega, List.getElem?_cons_succ]
      · rw [if_neg hlow, if_neg (by omega)]

variable {bs} (hfit : x % 256 + bs.length ≤ 256) {pl : Nat → Nat} {y : Nat}
include hfit

/-- The byte that a store gives a location is that of the location's place in the store's block. -/
theorem storedAt_eq_bind : storedAt pl x bs y = (placeIn pl (x / 256 * 256) 256 y).bind fun j =>
    if x % 256 ≤ j ∧ j < x % 256 + bs.length then bs[j - x % 256]? else none := by
  cases hp : placeIn pl (x / 256 * 256) 256 y with
  | none =>
    refine storedAt_none fun i hi hsame => ?_
    have hplace : placeIn pl (x / 256 * 256) 256 y = some (x % 256 + i) :=
      placeIn_eq_some_iff.2 ⟨by omega, by omega, by rwa [show x / 256 * 256 + (x % 256 + i) = x + i by omega]⟩
    rw [hp] at hplace
    cases hplace
  | some j =>
    obtain ⟨hj, -, hsame⟩ := placeIn_eq_some_iff.1 hp
    by_cases hin : x % 256 ≤ j ∧ j < x % 256 + bs.length
    · rw [Option.bind_some, if_pos hin]
      exact storedAt_some (by omega) (by omega) (by rwa [show x + (j - x % 256) = x / 256 * 256 + j by omega])
    · rw [Option.bind_some, if_neg hin]
      refine storedAt_none fun i hi hsame' => hin ?_
      have hplace : placeIn pl (x / 256 * 256) 256 y = some (x % 256 + i) :=
        placeIn_eq_some_iff.2 ⟨by omega, by omega, by rwa [show x / 256 * 256 + (x % 256 + i) = x + i by omega]⟩
      rw [hp] at hplace
      obtain rfl := Option.some.inj hplace
      omega

theorem byteAt_ofStore : (Held.bytes (HeldBlk.ofStore uid pc src kind rel x bs)).byteAt pl y = storedAt pl x bs y := by
  rw [storedAt_eq_bind x hfit]
  simp only [Held.byteAt, data_ofStore, sget_srun_some]
  rfl

/-- An item of the store's block holds the store's bytes, and elsewhere what it held. -/
theorem byteAt_merge {i : Held} (hi : i.isBlock (x / 256) = true) :
    (i.merge (HeldBlk.ofStore uid pc src kind rel x bs)).byteAt pl y = (storedAt pl x bs y).or (i.byteAt pl y) := by
  cases i with
  | bytes b =>
    have hblk : b.blk = x / 256 := of_decide_eq_true hi
    rw [storedAt_eq_bind x hfit]
    simp only [Held.merge, Held.byteAt, data_ofStore, sget_foldl_srun, hblk]
    cases placeIn pl (x / 256 * 256) 256 y with
    | none => rfl
    | some j =>
      simp only [Option.bind_some]
      split
      · next hin =>
        have hlt : j - x % 256 < bs.length := by omega
        simp [hlt]
      · rfl
  | wback => exact absurd hi nofun
  | remote => exact absurd hi nofun
  | fence => exact absurd hi nofun

/-- A store held in one block shows at its locations, and leaves the others (R43, R119). -/
theorem heldByte_holdIn (l : List Held) : heldByte pl (holdIn pl l (HeldBlk.ofStore uid pc src kind rel x bs) rel x bs) y =
    (storedAt pl x bs y).or (heldByte pl l y) := by
  have hblk : (HeldBlk.ofStore uid pc src kind rel x bs).blk = x / 256 := rfl
  have hitem (i : Held) := byteAt_patchRun pl rel x bs i y
  simp only [holdIn, patchAll_eq_map, heldByte, hblk]
  split
  · next hany =>
    rw [List.map_map, List.findSome?_map]
    have hmerged (i : Held) : ((if (i.patchRun pl rel x bs).isBlock (x / 256) then (i.patchRun pl rel x bs).merge (HeldBlk.ofStore uid pc src kind rel x bs)
        else i.patchRun pl rel x bs).byteAt pl y) =
        if i.isBlock (x / 256) then (storedAt pl x bs y).or (i.byteAt pl y) else (i.byteAt pl y).map fun b => (storedAt pl x bs y).getD b := by
      rw [isBlock_patchRun]
      split
      · next hb =>
        rw [byteAt_merge uid pc src kind rel x hfit (by rw [isBlock_patchRun]; exact hb), hitem]
        cases storedAt pl x bs y <;> simp
      · exact hitem i
    cases hst : storedAt pl x bs y with
    | none =>
      rw [Option.none_or]
      congr 1
      funext i
      refine (hmerged i).trans ?_
      simp [hst]
    | some v =>
      refine findSome?_eq_of_all (fun i _ => ?_) ?_
      · rw [Function.comp, Function.comp, hmerged, hst]
        split
        · exact .inr rfl
        · cases i.byteAt pl y with
          | none => exact .inl rfl
          | some b => exact .inr rfl
      · obtain ⟨i', hi', hb⟩ := List.any_eq_true.1 hany
        obtain ⟨i, hi, rfl⟩ := List.mem_map.1 hi'
        rw [isBlock_patchRun] at hb
        refine ⟨i, hi, ?_⟩
        rw [Function.comp, Function.comp, hmerged, hst, if_pos hb]
        rfl
  · rw [List.findSome?_append, List.findSome?_map]
    have hold : l.findSome? (Held.byteAt pl y ∘ Held.patchRun pl rel x bs) = (l.findSome? (Held.byteAt pl y)).map fun b => (storedAt pl x bs y).getD b := by
      rw [List.map_findSome?]
      congr 1
      funext i
      exact hitem i
    rw [hold, List.findSome?_cons, byteAt_ofStore uid pc src kind rel x hfit]
    cases storedAt pl x bs y <;> cases l.findSome? (Held.byteAt pl y) <;> rfl

end

/-- A store of 256 bytes or less, which may pass a block's end, shows at its locations and leaves the others (R43, R119). -/
theorem heldByte_holdBytes (pl : Nat → Nat) (uid : Nat) (pc : BitVec 53) (src : BitVec 4) (kind : Path × BitVec 4) (rel : Option (BitVec 3))
    (l : List Held) (x : Nat) {bs : List Byte} (hlen : bs.length ≤ 256) (y : Nat) :
    heldByte pl (holdBytes pl uid pc src kind rel 2 l x bs) y = (storedAt pl x bs y).or (heldByte pl l y) := by
  rw [holdBytes]
  split
  · next hnil =>
    rw [List.isEmpty_iff.1 hnil]
    rfl
  · have hfirst := heldByte_holdIn (bs := bs.take (256 - x % 256)) uid pc src kind rel x (by rw [List.length_take]; omega) (pl := pl) (y := y) l
    simp only [holdBytes]
    split
    · next hnil =>
      have hall : bs.take (256 - x % 256) = bs := List.take_of_length_le (List.drop_eq_nil_iff.1 (List.isEmpty_iff.1 hnil))
      rw [hfirst, hall]
    · next hne =>
      have hlong : 256 - x % 256 < bs.length := by
        by_contra hshort
        exact hne (List.isEmpty_iff.2 (List.drop_eq_nil_iff.2 (by omega)))
      have halign : (x + (256 - x % 256)) % 256 = 0 := by omega
      have htake : (bs.drop (256 - x % 256)).take (256 - (x + (256 - x % 256)) % 256) = bs.drop (256 - x % 256) :=
        List.take_of_length_le (by rw [List.length_drop]; omega)
      have htwo : storedAt pl x bs y = (storedAt pl (x + (256 - x % 256)) (bs.drop (256 - x % 256)) y).or (storedAt pl x (bs.take (256 - x % 256)) y) := by
        have happ := storedAt_append pl x (bs.take (256 - x % 256)) (bs.drop (256 - x % 256)) y
        rwa [List.take_append_drop, List.length_take, Nat.min_eq_left hlong.le] at happ
      rw [htake, heldByte_holdIn uid pc src kind rel _ (by rw [halign, List.length_drop]; omega), hfirst, htwo, Option.or_assoc]

end Sys2Proof.Machine
end

section
/-! Completion of the region map's records, of tprefetch and of twload (R95, R343 to R346). -/

namespace Sys2Proof.Machine

open Sys2Proof.Claims

/-! ### A region entry under the status word's write -/

/-- What a map reads at the key last written, after a change at every key that leaves the written value. -/
theorem sget_smapAll_sset {α : Type} [DecidableEq α] {d : α} {f : Nat → α → α} {m : SMap α} {k : Nat} {v : α} (hf : f k v = v) :
    sget d (smapAll d f (sset d m k v)) k = v := by
  have happend (a b : SMap α) : smapAll d f (a ++ b) = smapAll d f a ++ smapAll d f b := by simp [smapAll]
  have hfree {a : SMap α} (ha : ∀ e ∈ a, e.1 ≠ k) : (smapAll d f a).any (fun e => e.1 == k) = false := by
    rw [List.any_eq_false]
    intro e he hk
    obtain ⟨w, hw, -⟩ := mem_smapAll he
    exact ha _ hw (by simpa using hk)
  have hbelow : ∀ e ∈ sbelow m k, e.1 ≠ k := fun e he => by
    have := (List.mem_filter.1 he).2
    simp only [decide_eq_true_eq] at this
    omega
  have hfrom : ∀ e ∈ sfrom m (k + 1), e.1 ≠ k := fun e he => by
    have := (List.mem_filter.1 he).2
    simp only [decide_eq_true_eq] at this
    omega
  simp only [sset, sputs, List.length_singleton, happend]
  rw [sget_append, if_neg (by simp [hfree hbelow])]
  by_cases hv : v = d
  · rw [srun, if_pos hv]
    exact (sget_of_not_any _ _ _ (hfree hfrom)).trans hv.symm
  · simp [srun, hv, smapAll, hf, sget]

theorem State.lcoreAt_spPut (s : State) (lc a : Nat) (bs : List Byte) (k : Nat) :
    (s.spPut lc a bs).lcoreAt k = if k = lc then (s.lcoreAt lc).spPut a bs else s.lcoreAt k :=
  s.lcoreAt_onLcore lc k fun l => l.spPut a bs

section
variable {s : State} {lc idx : Nat} {x : Entry} {r : Rec} {w : Word} {new : Region}

/-- The entry just set stands after the status word's write, which does not mark it. -/
theorem reg_putStatus_setRegion (hmark : r.se = true → new.mark (r.stat.toNat * 8) (r.stat.toNat * 8 + 8) = new) :
    (((s.onLcore lc fun l => l.setRegion idx new).putStatus x r w).lcoreAt lc).reg idx = new := by
  have hset : ((s.onLcore lc fun l => l.setRegion idx new).lcoreAt lc).regions = sset Region.zero (s.lcoreAt lc).regions idx new := by
    rw [State.lcoreAt_onLcore_self]
    rfl
  rw [State.putStatus, LCore.reg]
  split
  · next hse =>
    rw [State.lcoreAt_spPut]
    split
    · next hlc =>
      have hne : (leBytes 8 w.toNat).isEmpty = false := rfl
      simp only [← hlc, LCore.spPut, hne, Bool.false_eq_true, if_false, leBytes_length, hset]
      exact sget_smapAll_sset (f := fun _ (o : Region) => o.mark (r.stat.toNat * 8) (r.stat.toNat * 8 + 8)) (hmark hse)
    · rw [hset, sget_sset_self]
  · rw [hset, sget_sset_self]

end

theorem mark_of_not_meets {r : Region} {lo hi : Nat} (h : r.meets lo hi = false) : r.mark lo hi = r := by
  simp [Region.mark, h]

theorem mark_of_unfilled {r : Region} (lo hi : Nat) (h : r.st = .unfilled) : r.mark lo hi = r := by
  simp [Region.mark, h]

/-! ### tmap, tunmap and tflush -/

section
variable {s : State} {core : Nat} {u : Run} {r : Rec}

theorem State.afterStatus_ready (ht : s.touchSpans (lckey u.e.ref.task u.e.ref.lcore) ((statFoot r).map fun f => (f.lo, f.hi)) = (s, .ok ()))
    (k : State → Done) : s.afterStatus u r k = k s := by
  simp only [State.afterStatus, ht]

section
variable {old new : Region} (h : mapForm u.e.cap old u.e.instr = some (r, new))
include h

/-- What becomes of the entry: the record's own outcome, whether or not it was written back first. -/
theorem State.runTransfer_map (ht : s.touchSpans (lckey u.e.ref.task u.e.ref.lcore) ((statFoot r).map fun f => (f.lo, f.hi)) = (s, .ok ())) :
    ∃ e : Evict, s.runTransfer core u = some (r, s.runEvict u r e) ∧ e.leaves old = new ∧
      (old.st = .dirty → e.leaves { old with st := .filled, lines := [] } = new) := by
  cases hi : u.e.instr <;> rw [hi] at h <;> simp only [mapForm, reduceCtorEq, Option.some.injEq, Prod.mk.injEq] at h
  case tmap y =>
    obtain ⟨rfl, rfl⟩ := h
    exact ⟨.map (newRegion u.e.cap y), by rw [State.runTransfer, hi]; exact congrArg (fun d => some (y, d)) (State.afterStatus_ready ht _), rfl, fun _ => rfl⟩
  case tunmap y =>
    obtain ⟨rfl, rfl⟩ := h
    exact ⟨.unmap, by rw [State.runTransfer, hi]; exact congrArg (fun d => some (y, d)) (State.afterStatus_ready ht _), rfl, fun _ => rfl⟩
  case tflush y =>
    obtain ⟨rfl, rfl⟩ := h
    exact ⟨.flush, by rw [State.runTransfer, hi]; exact congrArg (fun d => some (y, d)) (State.afterStatus_ready ht _), rfl, fun hd => by rw [if_pos hd]; rfl⟩

/-- The status word's write leaves the new entry unmarked. -/
theorem mark_mapForm {lo hi : Nat} (hmeets : old.meets lo hi = false) : new.mark lo hi = new := by
  cases hi : u.e.instr <;> rw [hi] at h <;> simp only [mapForm, reduceCtorEq, Option.some.injEq, Prod.mk.injEq] at h
  case tmap y =>
    obtain ⟨-, rfl⟩ := h
    exact mark_of_unfilled _ _ rfl
  case tunmap y =>
    obtain ⟨-, rfl⟩ := h
    exact mark_of_not_meets rfl
  case tflush y =>
    obtain ⟨-, rfl⟩ := h
    split
    · next hd =>
      refine mark_of_not_meets ?_
      simpa [Region.meets, Region.used, hd] using hmeets
    · exact mark_of_not_meets hmeets

end

theorem State.runEvict_clean {e : Evict} {old : Region} (hold : (s.lcoreAt (lckey u.e.ref.task u.e.ref.lcore)).reg u.e.cap.d.val.toNat = old)
    (hst : old.st ≠ .dirty) : s.runEvict u r e =
      .ended (s.onLcore (lckey u.e.ref.task u.e.ref.lcore) fun l => l.setRegion u.e.cap.d.val.toNat (e.leaves old)) 0 0 0 := by
  simp only [State.runEvict, hold]
  rw [if_pos hst]

theorem State.runEvict_dirty {e : Evict} {old : Region} {s1 : State}
    (hold : (s.lcoreAt (lckey u.e.ref.task u.e.ref.lcore)).reg u.e.cap.d.val.toNat = old) (hst : old.st = .dirty) (hvoid : u.void = false)
    (hholds : s.holdsFar u.e = false) (hbar : ∀ i ∈ old.marked, s.farBarred u.e (old.va.toNat + (old.line i).1) (old.line i).2 = false)
    (hback : s.writeBack (lckey u.e.ref.task u.e.ref.lcore) u.e.cap.d.val.toNat = (s1, .ok ())) : s.runEvict u r e =
      .ended (s1.onLcore (lckey u.e.ref.task u.e.ref.lcore) fun l => l.setRegion u.e.cap.d.val.toNat
        (e.leaves ((s1.lcoreAt (lckey u.e.ref.task u.e.ref.lcore)).reg u.e.cap.d.val.toNat))) 0 0 0 := by
  have hany : (old.marked.any fun i => s.farBarred u.e (old.va.toNat + (old.line i).1) (old.line i).2) = false :=
    List.any_eq_false.2 fun i hi => by simp [hbar i hi]
  simp only [State.runEvict, hold, hst, ne_eq, not_true_eq_false, if_false, hvoid, hholds, Bool.false_eq_true, hany, hback]

end

theorem State.lcoreAt_settle (s : State) (who : Who) (k : Nat) : (s.settle who).lcoreAt k = s.lcoreAt k := rfl

theorem State.lcores_copyLines {a : Acc} {lc : Nat} {r : Region} {l left : List Nat} {s s1 : State}
    (h : State.copyLines a lc r l s = (s1, left, .ok ())) : s1.lcores = s.lcores := by
  induction l generalizing s with
  | nil => rw [← (Prod.mk.inj h).1]
  | cons i t ih =>
    simp only [State.copyLines] at h
    split at h
    · next hw => exact (ih h).trans (State.lcores_gvWrite hw)
    · simp at h
    · simp at h

/-- A write-back that ends leaves the entry filled and the scratchpads as they were (R95). -/
theorem State.writeBack_ok {s s1 : State} {lc idx : Nat} (hst : ((s.lcoreAt lc).reg idx).st = .dirty) (h : s.writeBack lc idx = (s1, .ok ())) :
    (s1.lcoreAt lc).reg idx = { (s.lcoreAt lc).reg idx with st := .filled, lines := [] } ∧ ∀ k, (s1.lcoreAt k).sp = (s.lcoreAt k).sp := by
  simp only [State.writeBack, hst, ne_eq, not_true_eq_false, if_false] at h
  split at h
  · simp at h
  · split at h
    · next s2 left hcopy =>
      obtain ⟨rfl, -⟩ := Prod.mk.inj h
      have hsame (k : Nat) : s2.lcoreAt k = s.lcoreAt k := State.lcoreAt_congr (State.lcores_copyLines hcopy) k
      refine ⟨?_, fun k => ?_⟩
      · rw [State.lcoreAt_settle, State.lcoreAt_onLcore_self, LCore.reg, LCore.setRegion, sget_sset_self]
      · rw [State.lcoreAt_settle, State.lcoreAt_onLcore]
        split
        · next hk => rw [hk, ← hsame]; rfl
        · rw [hsame]
    · simp at h
    · simp at h

/-- A record of the region map that sets its entry in the state `s1` ends with it set (R343, R344). -/
theorem endTransfer_setRegion {s s1 : State} {core : Nat} {u : Run} {r : Rec} {idx : Nat} {new : Region} (hsp : ∀ k, (s1.lcoreAt k).sp = (s.lcoreAt k).sp)
    (hmark : r.se = true → new.mark (r.stat.toNat * 8) (r.stat.toNat * 8 + 8) = new) :
    let lc := lckey u.e.ref.task u.e.ref.lcore
    let t := (s1.onLcore lc fun l => l.setRegion idx new).endTransfer core u r 0 0 0
    (t.lcoreAt lc).reg idx = new ∧ WroteAll lc r [] s t := by
  intro lc t
  refine ⟨?_, endTransfer_wrote_nil core 0 0 fun k => ?_⟩
  · rw [State.lcoreAt_endTransfer]
    exact reg_putStatus_setRegion hmark
  · rw [State.lcoreAt_onLcore]
    split
    · next hk => rw [hk, ← hsp]; rfl
    · exact hsp k

/-! ### tprefetch (R345) -/

/-- An entry of the fault path for a page of a VR and an IPA page. -/
def HasFault (l : List PFault) (vr page ipa : Nat) : Prop := ∃ f ∈ l, f.vr = vr ∧ f.page = page ∧ f.ipa = ipa

theorem hasFault_map {l : List PFault} {g : PFault → PFault} (hg : ∀ f, (g f).vr = f.vr ∧ (g f).page = f.page ∧ (g f).ipa = f.ipa) {vr page ipa : Nat}
    (h : HasFault l vr page ipa) : HasFault (l.map g) vr page ipa := by
  obtain ⟨f, hf, hvr, hpage, hipa⟩ := h
  obtain ⟨gvr, gpage, gipa⟩ := hg f
  exact ⟨g f, List.mem_map_of_mem hf, gvr.trans hvr, gpage.trans hpage, gipa.trans hipa⟩

/-- Nothing differs but the agenda, messages to the host and the functions' queues of page requests: no table and no slice. -/
def QueuesOnly (s t : State) : Prop :=
  t = { s with agenda := t.agenda, fns := t.fns, hostMem := t.hostMem, sent := t.sent } ∧
  ∀ n, t.fnAt n = { s.fnAt n with waiting := (t.fnAt n).waiting, tags := (t.fnAt n).tags, rings := (t.fnAt n).rings }

theorem queuesOnly_refl (s : State) : QueuesOnly s s := ⟨rfl, fun _ => rfl⟩

section
variable {s0 s : State} (h : QueuesOnly s0 s)
include h

theorem QueuesOnly.onFn (n : Nat) {g : Fn → Fn} (hg : ∀ x, g x = { x with waiting := (g x).waiting, tags := (g x).tags, rings := (g x).rings }) :
    QueuesOnly s0 (s.onFn n g) := by
  obtain ⟨hs, hfn⟩ := h
  refine ⟨?_, fun k => ?_⟩
  · rw [hs]
    rfl
  · rw [State.fnAt_onFn]
    split
    · next hk => rw [hk, hg, hfn n]
    · exact hfn k

theorem QueuesOnly.later (t : Turn) : QueuesOnly s0 (s.later t) := by
  obtain ⟨hs, hfn⟩ := h
  refine ⟨?_, hfn⟩
  rw [hs]
  rfl

theorem QueuesOnly.ringPut (n q : Nat) (w0 w1 w2 w3 : Word) : QueuesOnly s0 (s.ringPut n q w0 w1 w2 w3) := by
  have hhost (m : Mem) : QueuesOnly s0 { s with hostMem := m } := by
    obtain ⟨hs, hfn⟩ := h
    refine ⟨?_, hfn⟩
    rw [hs]
  have hvector {t : State} (ht : QueuesOnly s0 t) (k : Nat) : QueuesOnly s0 (t.vector n k) := by
    obtain ⟨hs, hfn⟩ := ht
    refine ⟨?_, hfn⟩
    rw [State.vector, hs]
  exact hvector ((hhost _).onFn n fun _ => rfl) _

/-- One step of the page requests. Its equation lemma would evaluate the list of 1,024 tags, so the recursion is opened by hand. -/
theorem QueuesOnly.drainReqs_one (n : Nat) : QueuesOnly s0 (State.drainReqs n 1 s) := by
  delta State.drainReqs
  rw [Nat.brecOn.eq]
  delta State.drainReqs._f
  dsimp only
  split
  · exact h
  · split
    · exact h
    · split
      · exact (h.ringPut _ _ _ _ _ _).onFn n fun _ => rfl
      · exact h

theorem QueuesOnly.pageRequest (n : Nat) (p : PReq) : QueuesOnly s0 (s.pageRequest n p) := by
  rw [State.pageRequest]
  split
  · exact h
  · exact (h.onFn n fun _ => rfl).drainReqs_one n

/-- Queues take no part in a walk. -/
theorem QueuesOnly.walkVr (v : Vr) (va : Nat) : s.walkVr v va = s0.walkVr v va := by
  obtain ⟨hs, hfn⟩ := h
  have hmem : s.mem = s0.mem := by rw [hs]
  have hphys : s.hasMem = s0.hasMem := by rw [hs]; rfl
  have howns : (s.fnAt v.fn).owns = (s0.fnAt v.fn).owns := by rw [hfn]; rfl
  have hroot : (s.fnAt v.fn).s2root = (s0.fnAt v.fn).s2root := by rw [hfn]
  have hpte : s.pte (s.fnAt v.fn) = s0.pte (s0.fnAt v.fn) := by
    funext pa
    simp only [State.pte, hmem, hphys, howns]
  have hstage2 : s.stage2 (s.fnAt v.fn) = s0.stage2 (s0.fnAt v.fn) := by
    funext ipa node
    simp only [State.stage2, hpte, hroot]
  have hnode : s.nodeRead (s.fnAt v.fn) = s0.nodeRead (s0.fnAt v.fn) := by
    funext ipa
    simp only [State.nodeRead, hpte, hstage2]
  simp only [State.walkVr, State.stage1, State.inSlices, hpte, hstage2, hnode, hphys, howns]

end

section
variable {s : State} {a : Acc} {v : Vr} {va : Nat} {k : FKind} {ipa : Nat} {node : Bool} {e : Word} {who : List Who}

/-- A page that goes onto the fault path, but for a pull, changes the fault path and queues; its entry stands there, and every earlier one. -/
theorem State.enterFault_spec (hk : k ≠ .pull) : ∃ F U, QueuesOnly { s with faults := F, uid := U } (s.enterFault a v va k ipa node e who) ∧
    HasFault F a.vr (va / 65536) ipa ∧ ∀ vr page i, HasFault s.faults vr page i → HasFault F vr page i := by
  rw [State.enterFault]
  split
  · next hany =>
    have hkeep {vr page i : Nat} (hf : HasFault s.faults vr page i) := hasFault_map (g := fun f =>
      if f.vr = a.vr ∧ f.page = va / 65536 ∧ f.ipa = ipa then { f with who := f.who ++ who.filter fun w => !f.who.contains w } else f)
      (fun f => by split <;> exact ⟨rfl, rfl, rfl⟩) hf
    obtain ⟨f, hf, hmatch⟩ := List.any_eq_true.1 hany
    exact ⟨_, s.uid, queuesOnly_refl _, hkeep ⟨f, hf, of_decide_eq_true hmatch⟩, fun _ _ _ => hkeep⟩
  · refine ⟨s.faults ++ [⟨s.uid, a.vr, va / 65536, ipa, k, who⟩], s.uid + 1, ?_, ⟨_, List.mem_append_right _ (List.mem_singleton_self _), rfl, rfl, rfl⟩,
      fun _ _ _ ⟨f, hf, hmatch⟩ => ⟨f, List.mem_append_left _ hf, hmatch⟩⟩
    cases k with
    | supervisor => exact (queuesOnly_refl _).later _
    | promote => exact (queuesOnly_refl _).later _
    | pull => exact absurd rfl hk
    | host n => exact (queuesOnly_refl _).pageRequest _ _

end

/-- The step of tprefetch for one page. -/
def prefetchPage (a : Acc) (v : Vr) (s : State) (pg : Nat) : State :=
  let va := pg * 65536
  if 2 ^ 56 ≤ va then s
  else
    let w := s.walkVr v va
    match faultKind w with
    | some (k, ipa, node) => s.enterFault a v va k ipa node (foundEntry w) []
    | none => s

/-- The tables stand, the fault path has lost nothing. -/
def Prefetched (s t : State) : Prop :=
  t.mem = s.mem ∧ (∀ v va, t.walkVr v va = s.walkVr v va) ∧ ∀ vr page i, HasFault s.faults vr page i → HasFault t.faults vr page i

theorem prefetched_refl (s : State) : Prefetched s s := ⟨rfl, fun _ _ => rfl, fun _ _ _ h => h⟩

/-- The step of one page: if the page faults it stands on the fault path afterwards. -/
theorem prefetched_prefetchPage {s : State} (a : Acc) {v : Vr} {pg : Nat} (hpull : ∀ y, faultKind (s.walkVr v (pg * 65536)) = some y → y.1 ≠ .pull) :
    Prefetched s (prefetchPage a v s pg) ∧
    (pg * 65536 < 2 ^ 56 → ∀ y, faultKind (s.walkVr v (pg * 65536)) = some y → HasFault (prefetchPage a v s pg).faults a.vr pg y.2.1) := by
  rw [prefetchPage]
  split
  · next hfar => exact ⟨prefetched_refl s, fun hnear => absurd hnear hfar.not_gt⟩
  · dsimp only
    split
    · next k ipa node hkind =>
      obtain ⟨F, U, hq, hhas, hold⟩ := State.enterFault_spec (s := s) (a := a) (v := v) (va := pg * 65536) (ipa := ipa) (node := node)
        (e := foundEntry (s.walkVr v (pg * 65536))) (who := []) (hpull _ hkind)
      rw [Nat.mul_div_cancel pg (by decide)] at hhas
      have hfaults : (s.enterFault a v (pg * 65536) k ipa node (foundEntry (s.walkVr v (pg * 65536))) []).faults = F := by rw [hq.1]
      refine ⟨⟨by rw [hq.1], hq.walkVr, fun vr page i hf => ?_⟩, fun _ y hy => ?_⟩
      · rw [hfaults]
        exact hold _ _ _ hf
      · obtain rfl := Option.some.inj (hkind.symm.trans hy)
        rw [hfaults]
        exact hhas
    · next hnone => exact ⟨prefetched_refl s, fun _ y hy => by rw [hnone] at hy; cases hy⟩

/-- tprefetch by range takes every page of its range that faults onto the fault path. -/
theorem prefetched_foldl (a : Acc) {v : Vr} (l : List Nat) {s : State} (hpull : ∀ pg ∈ l, ∀ y, faultKind (s.walkVr v (pg * 65536)) = some y → y.1 ≠ .pull) :
    Prefetched s (l.foldl (prefetchPage a v) s) ∧ ∀ pg ∈ l, pg * 65536 < 2 ^ 56 → ∀ y, faultKind (s.walkVr v (pg * 65536)) = some y →
      HasFault (l.foldl (prefetchPage a v) s).faults a.vr pg y.2.1 := by
  induction l generalizing s with
  | nil => exact ⟨prefetched_refl s, by simp⟩
  | cons q t ih =>
    obtain ⟨⟨hmem, hwalk, hold⟩, hhas⟩ := prefetched_prefetchPage a (hpull q List.mem_cons_self)
    obtain ⟨⟨hmem', hwalk', hold'⟩, hall⟩ := ih (s := prefetchPage a v s q) fun pg hpg y hy =>
      hpull pg (List.mem_cons_of_mem q hpg) y (by rwa [hwalk] at hy)
    refine ⟨⟨hmem'.trans hmem, fun v va => (hwalk' v va).trans (hwalk v va), fun _ _ _ hf => hold' _ _ _ (hold _ _ _ hf)⟩, fun pg hpg hlt y hy => ?_⟩
    obtain rfl | hpg := List.mem_cons.1 hpg
    · exact hold' _ _ _ (hhas hlt y hy)
    · exact hall pg hpg hlt y (by rwa [hwalk])

/-- The end of a record keeps the entries of the fault path. -/
theorem hasFault_endTransfer {s : State} (core : Nat) (u : Run) (r : Rec) (fl : Flags) (n : Nat) {vr page ipa : Nat} (h : HasFault s.faults vr page ipa) :
    HasFault (s.endTransfer core u r fl n 0).faults vr page ipa := by
  have hfaults : (s.endTransfer core u r fl n 0).faults = s.faults.map (PFault.without fun w => decide (w = .record u.e.uid)) := by
    simp only [State.endTransfer]
    split
    · rw [State.endRun, State.settle, State.engineError_frame, State.putStatus_frame]
      rfl
    · rw [State.endRun, State.settle, State.putStatus_frame]
      rfl
  rw [hfaults]
  exact hasFault_map (g := PFault.without _) (fun _ => ⟨rfl, rfl, rfl⟩) h

end Sys2Proof.Machine
end

section
/-! Transfer records: the clauses of the obligation (R26, R42, R95, R219, R337 to R346). -/

namespace Sys2Proof.Machine

open Sys2Proof.Claims

section
variable {s : State} {core : Nat} {u : Run} {r : Rec} (hu : ((s.coreAt core).engine .t).run = some u)
include hu

theorem State.voided_false (hvoid : u.void = false) : s.voided core u.e = false := by
  have hrun : (s.coreAt core).t.run = some u := hu
  simp only [State.voided, hrun, hvoid, Bool.and_false]

/-! ### Near records and far elements -/

section
variable (hbar : s.fillsBarred u.e (copySpans u.e.cap r) = false)
  (ht : s.touchSpans (lckey u.e.ref.task u.e.ref.lcore) (copySpans u.e.cap r) = (s, .ok ()))
include hbar ht

/-- Near copies, fills and weight fetches write every element left, in order. -/
theorem transfer_near (h : nearRec u.e.cap u.e.instr = some r)
    (hws : ∀ y, u.e.instr = .tfetch y → ∀ p ∈ pointsLeft u, s.wsHeld (core / 72) ((farOf u.e.cap.a u.e.cap (fmtBits r.type / 8) p).toNat / 0x1000000) = false) :
    let lc := lckey u.e.ref.task u.e.ref.lcore
    ∃ t, (exec (.recordCompletion core .t) s = .next t ∧ ((t.coreAt core).engine .t).run = none) ∧ OnlyTile s t ∧
      (r.se = true → (t.lcoreAt lc).sp.read (r.stat.toNat * 8) 8 = (statusWord u.refused 0 0 u.flags).toNat) ∧
      ∀ a, ¬ InStat r (8 * a) → (t.lcoreAt lc).sp.byte a = ((pointsLeft u).foldl (fun m p =>
        if u.e.instr = .tfetch r ∧ writtenSince u p = true then m
        else setBits m (nearWrite r.type u.e.cap.d p (nearValue s core u.e.cap r p m u.e.instr))) (s.lcoreAt lc).sp).byte a := by
  intro lc
  refine ⟨_, ⟨exec_recordCompletion_near hbar ht hu h hws, State.run_endTransfer _ _ _ _ _ _ _⟩,
    onlyTile_endTransfer_near (nearOnly_foldl_nearStep _ (nearOnly_refl s)) _ _ _ _ _, endTransfer_status _ _ _ _, fun a ha => ?_⟩
  rw [State.sp_endTransfer, if_pos rfl, byte_statMem ha, sp_foldl_nearStep, if_pos rfl]

section
variable {p : Point} (hleft : pointsLeft u = [p])
include hleft

/-- A far element that is read goes from its translated address to its near destination. -/
theorem transfer_read {x : Int} {s1 : State} {pa : Nat} (h : readForm u.e.cap p (s.lcoreAt (lckey u.e.ref.task u.e.ref.lcore)).sp u.e.instr = some (r, x))
    (hheld : s.farHeld u.e = false) (hx : 0 ≤ x) (hal : x % (fmtBits r.type / 8 : Nat) = 0) (hcopy : copyFmt r.type = true)
    (hfar : s.farBarred u.e x.toNat (fmtBits r.type / 8) = false) (hxl : s.xlate (s.recAcc core u.e rR) x.toNat = (s1, .ok pa)) :
    let lc := lckey u.e.ref.task u.e.ref.lcore
    ∃ t, (exec (.recordCompletion core .t) s = .next t ∧ ((t.coreAt core).engine .t).run = none) ∧ (∀ a, t.mem.byte a = s1.mem.byte a) ∧
      (r.se = true → (t.lcoreAt lc).sp.read (r.stat.toNat * 8) 8 = (statusWord u.refused 0 0 u.flags).toNat) ∧
      WroteAll lc r (if writtenSince u p then [] else [nearWrite r.type u.e.cap.d p (s1.mem.read pa (fmtBits r.type / 8))]) s t := by
  intro lc
  obtain ⟨s2, hl, hm, hread⟩ := State.farRead_ok hcopy hx hal hfar hheld hxl fun s bs =>
    if writtenSince u p then s else s.nearPut lc r.type u.e.cap.d p (ofLeBytes bs)
  have hexec := exec_recordCompletion_farRead hbar ht hu hleft h (s' := if writtenSince u p then s2
    else s2.nearPut lc r.type u.e.cap.d p (s1.mem.read pa (fmtBits r.type / 8))) (fl := u.flags) (n := u.refused)
    (by rw [hread, ElemAns.leaves, flags_or_zero]; rfl)
  refine ⟨_, ⟨hexec, State.run_endTransfer _ _ _ _ _ _ _⟩, fun a => ?_, endTransfer_status _ _ _ _, endTransfer_wrote _ _ _ fun k => ?_⟩
  · rw [State.mem_endTransfer, ← hm]
    split <;> rfl
  · split
    · rw [State.lcoreAt_congr hl]
      split
      · next hk => rw [hk]; rfl
      · rfl
    · rw [State.sp_nearPut, State.lcoreAt_congr hl, State.lcoreAt_congr hl]
      rfl

/-- A far element that a read is refused is counted with TR. -/
theorem transfer_read_refused {x : Int} (h : readForm u.e.cap p (s.lcoreAt (lckey u.e.ref.task u.e.ref.lcore)).sp u.e.instr = some (r, x))
    (hheld : s.farHeld u.e = false) (hcause : x < 0 ∨ (0 ≤ x ∧ x % (fmtBits r.type / 8 : Nat) = 0 ∧ copyFmt r.type = true ∧
      s.farBarred u.e x.toNat (fmtBits r.type / 8) = false ∧ ∃ s1 va, s.xlate (s.recAcc core u.e rR) x.toNat = (s1, .refused va))) :
    let lc := lckey u.e.ref.task u.e.ref.lcore
    ∃ t, (exec (.recordCompletion core .t) s = .next t ∧ ((t.coreAt core).engine .t).run = none) ∧
      (r.se = true → (t.lcoreAt lc).sp.read (r.stat.toNat * 8) 8 = (statusWord (u.refused + 1) 0 0 (u.flags ||| fTR)).toNat) ∧ WroteAll lc r [] s t := by
  intro lc
  obtain ⟨s1, hl, hread⟩ : ∃ s1 : State, s1.lcores = s.lcores ∧ ∀ k, s.farRead core u.e x (fmtBits r.type / 8) k = .refused s1 := by
    obtain hneg | ⟨hx, hal, hcopy, hfar, s1, va, hxl⟩ := hcause
    · exact ⟨s, rfl, State.farRead_negative hneg _⟩
    · exact ⟨s1, State.lcores_xlate hxl nofun, State.farRead_refused hcopy hx hal hfar hheld hxl⟩
  exact ⟨_, ⟨exec_recordCompletion_farRead hbar ht hu hleft h (by rw [hread]; rfl), State.run_endTransfer _ _ _ _ _ _ _⟩,
    endTransfer_status _ _ _ _, endTransfer_wrote_nil _ _ _ fun k => by rw [State.lcoreAt_congr hl]⟩

section
variable (hvoid : u.void = false) {x : Int} {v : Nat}
  (h : writeForm u.e.cap p (s.lcoreAt (lckey u.e.ref.task u.e.ref.lcore)).sp u.e.instr = some (r, x, v))
include hvoid h

/-- A far element that is written stands at its translated address. -/
theorem transfer_write {s1 : State} {pa : Nat} (hcopy : copyFmt r.type = true) (hholds : s.holdsFar u.e = false) (hheld : s.farHeld u.e = false)
    (hx : 0 ≤ x) (hal : x % (fmtBits r.type / 8 : Nat) = 0) (hfar : s.farBarred u.e x.toNat (fmtBits r.type / 8) = false)
    (hxl : s.xlate (s.recAcc core u.e rW) x.toNat = (s1, .ok pa)) :
    let lc := lckey u.e.ref.task u.e.ref.lcore
    ∃ t, (exec (.recordCompletion core .t) s = .next t ∧ ((t.coreAt core).engine .t).run = none) ∧
      (r.se = true → (t.lcoreAt lc).sp.read (r.stat.toNat * 8) 8 = (statusWord u.refused 0 0 u.flags).toNat) ∧ WroteAll lc r [] s t ∧
      ∀ a, t.mem.byte a = if pa ≤ a ∧ a < pa + fmtBits r.type / 8 then byteOf v (a - pa) else s1.mem.byte a := by
  intro lc
  obtain ⟨s2, hl, hm, hwrite⟩ := State.farWrite_ok hcopy hx hal hfar hheld (State.voided_false hu hvoid) hholds hxl r v
  refine ⟨_, ⟨exec_recordCompletion_farWrite hbar ht hu hleft h (by rw [hwrite, ElemAns.leaves, flags_or_zero]), State.run_endTransfer _ _ _ _ _ _ _⟩,
    endTransfer_status _ _ _ _, endTransfer_wrote_nil _ _ _ fun k => by rw [State.lcoreAt_congr hl], fun a => ?_⟩
  rw [State.mem_endTransfer, hm, Mem.byte_setBytes, leBytes_length]
  split
  · next hin => exact getD_leBytes _ _ _ (by omega)
  · rfl

/-- Inside its region a record's far element shows in what the region holds. -/
theorem transfer_held (hcopy : copyFmt r.type = true) (hholds : s.holdsFar u.e = true) (hx : 0 ≤ x) :
    let lc := lckey u.e.ref.task u.e.ref.lcore
    ∃ t, (exec (.recordCompletion core .t) s = .next t ∧ ((t.coreAt core).engine .t).run = none) ∧ OnlyTile s t ∧
      (r.se = true → (t.lcoreAt lc).sp.read (r.stat.toNat * 8) 8 = (statusWord u.refused 0 0 u.flags).toNat) ∧ WroteAll lc r [] s t ∧
      ∀ a, heldByte (s.places lc) (t.strandAt u.e.ref.key).rsb a = match placeAmong (s.places lc) x.toNat (fmtBits r.type / 8) a with
        | some i => some (byteOf v i)
        | none => heldByte (s.places lc) (s.strandAt u.e.ref.key).rsb a := by
  intro lc
  have hwidth : fmtBits r.type / 8 ≤ 256 := by
    obtain hw | hw | hw | hw := width_of_copyFmt hcopy <;> omega
  have hwrite := State.farWrite_held (State.voided_false hu hvoid) hholds hx r (leBytes (fmtBits r.type / 8) v)
  have hexec := exec_recordCompletion_farWrite hbar ht hu hleft h (congrArg (ElemAns.leaves u.refused u.flags) hwrite)
  rw [flags_or_zero] at hexec
  refine ⟨_, ⟨hexec, State.run_endTransfer _ _ _ _ _ _ _⟩,
    ?_, endTransfer_status _ _ _ _, endTransfer_wrote_nil _ _ _ fun _ => rfl, fun a => ?_⟩
  · rw [State.endTransfer_frame]
    exact ⟨rfl, rfl, rfl, rfl⟩
  · rw [State.rsb_endTransfer, State.strandAt_onStrand_self, heldByte_holdBytes _ _ _ _ _ _ _ _ (by rwa [leBytes_length]),
      storedAt_leBytes _ _ _ _ _ (by omega)]
    cases placeAmong (s.places lc) x.toNat (fmtBits r.type / 8) a <;> rfl

/-- A far element below address zero that is written is counted with TR. -/
theorem transfer_write_refused (hx : x < 0) :
    let lc := lckey u.e.ref.task u.e.ref.lcore
    ∃ t, (exec (.recordCompletion core .t) s = .next t ∧ ((t.coreAt core).engine .t).run = none) ∧
      (r.se = true → (t.lcoreAt lc).sp.read (r.stat.toNat * 8) 8 = (statusWord (u.refused + 1) 0 0 (u.flags ||| fTR)).toNat) ∧ WroteAll lc r [] s t ∧
      t.mem = s.mem := by
  intro lc
  have hwrite := State.farWrite_negative (State.voided_false hu hvoid) hx r (leBytes (fmtBits r.type / 8) v)
  exact ⟨_, ⟨exec_recordCompletion_farWrite hbar ht hu hleft h (by rw [hwrite]; rfl), State.run_endTransfer _ _ _ _ _ _ _⟩,
    endTransfer_status _ _ _ _, endTransfer_wrote_nil _ _ _ fun _ => rfl, State.mem_endTransfer _ _ _ _⟩

end

end

end

/-! ### The region map, tprefetch and twload -/

section
variable (ht : s.touchSpans (lckey u.e.ref.task u.e.ref.lcore) ((statFoot r).map fun f => (f.lo, f.hi)) = (s, .ok ()))
include ht

section
variable {old new : Region} (hold : (s.lcoreAt (lckey u.e.ref.task u.e.ref.lcore)).reg u.e.cap.d.val.toNat = old)
  (h : mapForm u.e.cap old u.e.instr = some (r, new)) (hmeets : r.se = true → old.meets (r.stat.toNat * 8) (r.stat.toNat * 8 + 8) = false)
include hold h hmeets

/-- A map record over an entry that is not dirty sets it. -/
theorem transfer_map_clean (hst : old.st ≠ .dirty) :
    let lc := lckey u.e.ref.task u.e.ref.lcore
    ∃ t, (exec (.recordCompletion core .t) s = .next t ∧ ((t.coreAt core).engine .t).run = none) ∧ OnlyTile s t ∧
      (t.lcoreAt lc).reg u.e.cap.d.val.toNat = new ∧ WroteAll lc r [] s t := by
  intro lc
  obtain ⟨e, hrun, hleaves, -⟩ := State.runTransfer_map (core := core) h ht
  rw [State.runEvict_clean hold hst, hleaves] at hrun
  refine ⟨_, ⟨exec_recordCompletion_transfer hu hrun, State.run_endTransfer _ _ _ _ _ _ _⟩, ?_,
    endTransfer_setRegion (fun _ => rfl) fun hse => mark_mapForm h (hmeets hse)⟩
  rw [State.endTransfer_frame]
  exact ⟨rfl, rfl, rfl, rfl⟩

/-- A map record over a dirty entry writes it back and sets it. -/
theorem transfer_map_dirty {s1 : State} (hvoid : u.void = false) (hst : old.st = .dirty) (hholds : s.holdsFar u.e = false)
    (hfar : ∀ i ∈ old.marked, s.farBarred u.e (old.va.toNat + (old.line i).1) (old.line i).2 = false)
    (hback : s.writeBack (lckey u.e.ref.task u.e.ref.lcore) u.e.cap.d.val.toNat = (s1, .ok ())) :
    let lc := lckey u.e.ref.task u.e.ref.lcore
    ∃ t, (exec (.recordCompletion core .t) s = .next t ∧ ((t.coreAt core).engine .t).run = none) ∧ t.mem = s1.mem ∧
      (t.lcoreAt lc).reg u.e.cap.d.val.toNat = new ∧ WroteAll lc r [] s t := by
  intro lc
  obtain ⟨e, hrun, -, hleaves⟩ := State.runTransfer_map (core := core) h ht
  obtain ⟨hreg, hsp⟩ := State.writeBack_ok (by rw [hold]; exact hst) hback
  rw [State.runEvict_dirty hold hst hvoid hholds hfar hback, hreg, hold, hleaves hst] at hrun
  exact ⟨_, ⟨exec_recordCompletion_transfer hu hrun, State.run_endTransfer _ _ _ _ _ _ _⟩, State.mem_endTransfer _ _ _ _,
    endTransfer_setRegion hsp fun hse => mark_mapForm h (hmeets hse)⟩

end

/-- twload joins its list. -/
theorem transfer_twload (h : u.e.instr = .twload r) :
    let lc := lckey u.e.ref.task u.e.ref.lcore
    let c := u.e.cap
    ∃ t, (exec (.recordCompletion core .t) s = .next t ∧ ((t.coreAt core).engine .t).run = none) ∧ OnlyTile s t ∧ WroteAll lc r [] s t ∧
      (t.lcoreAt lc).twloads = (s.lcoreAt lc).twloads ++ [⟨c.a.val.toNat, c.d.val.toNat, c.b.val.toNat, u.e.pc⟩] := by
  intro lc c
  have hrun : s.runTransfer core u = some (r, .ended (s.onLcore lc fun l =>
      { l with twloads := l.twloads ++ [(⟨c.a.val.toNat, c.d.val.toNat, c.b.val.toNat, u.e.pc⟩ : WLoad)] }) 0 0 0) := by
    rw [State.runTransfer, h]
    exact congrArg (fun d => some (r, d)) (State.afterStatus_ready ht _)
  refine ⟨_, ⟨exec_recordCompletion_transfer hu hrun, State.run_endTransfer _ _ _ _ _ _ _⟩, ?_, endTransfer_wrote_nil _ _ _ fun k => ?_, ?_⟩
  · rw [State.endTransfer_frame]
    exact ⟨rfl, rfl, rfl, rfl⟩
  · rw [State.lcoreAt_onLcore]
    split
    · next hk => rw [hk]
    · rfl
  · have hput (t : State) (w : Word) : ((t.putStatus u.e r w).lcoreAt lc).twloads = (t.lcoreAt lc).twloads := by
      rw [State.putStatus]
      split
      · rw [State.lcoreAt_spPut]
        split
        · next hk => rw [← hk]; rfl
        · rfl
      · rfl
    rw [State.lcoreAt_endTransfer]
    exact (hput _ _).trans (by rw [State.lcoreAt_onLcore_self])

end

/-- tprefetch of a region starts its fill. -/
theorem transfer_prefetch_region (h : u.e.instr = .tprefetch r) (hctl : r.ctl.getLsbD 0 = false) :
    ∃ t, (exec (.recordCompletion core .t) s = .next t ∧ ((t.coreAt core).engine .t).run = none) ∧
      t.agenda = s.agenda ++ [.event (.regionFill u.e.ref.task u.e.ref.lcore u.e.cap.d.val.toNat)] ∧ OnlyTile s t := by
  have hrun : s.runTransfer core u = some (r, .ended (s.later (.event (.regionFill u.e.ref.task u.e.ref.lcore u.e.cap.d.val.toNat))) 0 0 0) := by
    simp only [State.runTransfer, h, State.runPrefetch, hctl, Bool.not_false, if_true]
  refine ⟨_, ⟨exec_recordCompletion_transfer hu hrun, State.run_endTransfer _ _ _ _ _ _ _⟩, ?_⟩
  rw [State.endTransfer_frame]
  exact ⟨rfl, rfl, rfl, rfl, rfl⟩

/-- tprefetch of a range takes its faulting pages onto the fault path. -/
theorem transfer_prefetch_range {v : Vr} (h : u.e.instr = .tprefetch r) (hctl : r.ctl.getLsbD 0 = true)
    (hv : s.vrAt (s.taskAt u.e.ref.task).vr = some v)
    (hpull : ∀ pg ∈ pagesOf u.e.cap.a.val.toNat u.e.cap.b.val.toNat, ∀ y, faultKind (s.walkVr v (pg * 65536)) = some y → y.1 ≠ .pull) :
    ∃ t, (exec (.recordCompletion core .t) s = .next t ∧ ((t.coreAt core).engine .t).run = none) ∧ t.mem = s.mem ∧
      ∀ pg ∈ pagesOf u.e.cap.a.val.toNat u.e.cap.b.val.toNat, pg * 65536 < 2 ^ 56 → ∀ y, faultKind (s.walkVr v (pg * 65536)) = some y →
        ∃ f ∈ t.faults, f.vr = (s.taskAt u.e.ref.task).vr ∧ f.page = pg ∧ f.ipa = y.2.1 := by
  let a : Acc := { s.recAcc core u.e rR with who := .span, join := false }
  have hrun : s.runTransfer core u = some (r, .ended ((pagesOf u.e.cap.a.val.toNat u.e.cap.b.val.toNat).foldl (prefetchPage a v) s) 0 0 0) := by
    simp only [State.runTransfer, h, State.runPrefetch, hctl, Bool.not_true, Bool.false_eq_true, if_false, hv]
    rfl
  obtain ⟨⟨hmem, -, -⟩, hall⟩ := prefetched_foldl a _ hpull
  exact ⟨_, ⟨exec_recordCompletion_transfer hu hrun, State.run_endTransfer _ _ _ _ _ _ _⟩, (State.mem_endTransfer _ _ _ _).trans hmem,
    fun pg hpg hlt y hy => hasFault_endTransfer _ _ _ _ _ (hall pg hpg hlt y hy)⟩

end

end Sys2Proof.Machine

namespace Sys2Proof.Proofs

open Sys2Proof.Machine Sys2Proof.Claims

/-- Settles O52: near records by a pass over the elements left, a far record by the one element left, and the records of the region map, tprefetch and twload each by what it sets. -/
theorem transferRecordValues : Obligations.TransferRecordValues := by
  intro s core u c lc m vr ended stat ready idx old hu hvoid
  refine ⟨fun r h hr hws => transfer_near hu hr.1 hr.2 h hws, fun p r x hleft h hr hheld => ⟨?_, ?_⟩, fun p r x v hleft h hr hcopy => ⟨?_, ?_, ?_⟩,
    fun r new h ht hmeets => ⟨?_, ?_⟩, fun r h hctl => transfer_prefetch_region hu h hctl,
    fun r v h hctl hv hpull => transfer_prefetch_range hu h hctl hv hpull, fun r h ht => transfer_twload hu ht h⟩
  · exact fun s1 pa hx hal hcopy hfar hxl => transfer_read hu hr.1 hr.2 hleft h hheld hx hal hcopy hfar hxl
  · exact transfer_read_refused hu hr.1 hr.2 hleft h hheld
  · exact fun s1 pa hholds hheld hx hal hfar hxl => transfer_write hu hr.1 hr.2 hleft hvoid h hcopy hholds hheld hx hal hfar hxl
  · exact transfer_held hu hr.1 hr.2 hleft hvoid h hcopy
  · exact transfer_write_refused hu hr.1 hr.2 hleft hvoid h
  · exact transfer_map_clean hu ht rfl h hmeets
  · exact fun s1 hst hholds hfar hback => transfer_map_dirty hu ht rfl h hmeets hvoid hst hholds hfar hback

end Sys2Proof.Proofs
end

section
/-! An array map that is not in canonical form: an entry equal to what an unlisted array reads as stands before another one of the same array. The end of turns keeps listed only what differs from an unlisted array, and the second entry is read from then on (R164). -/

namespace Sys2Proof.Machine

open Sys2Proof.Claims

/-- mma of i8 without a status word. -/
def shadowRec : Rec :=
  { type := fI8, type2 := fI8, psel := 0, pe := false, cls := 0, tflag := 0, stat := 0, se := false, ctl := 0, t0 := 0, t1 := 1, t2 := 1, t3 := 1
    d := ⟨0, 0, 0, 0⟩, a := ⟨0, 0, 0, 0⟩, b := ⟨0, 0, 0, 0⟩, c := ⟨0, 0, 0, 0⟩ }

/-- No K index: nothing is read. -/
def shadowRun : Run :=
  { e := { ref := ⟨0, 0, 0⟩, sid := 0, uid := 0, pc := 0, instr := .mma shadowRec, foots := []
           cap := { trips := [0, 1, 1, 1], d := .none, a := .none, b := .none, c := .none, count := none, salt := 0, nbv := 0, region := false, vals := [] } }
    vm := Mode.zero, mm := Mode.zero, etr := false, done := [], refused := 0, flags := 0, coll := none, void := false, srcs := none }

/-- Array 0 twice: as an unlisted one reads, and with a carry of cell 0 of bank 0 in its buffer. -/
def shadowedArrays : SMap MArray := [(0, MArray.init), (0, { MArray.init with briar := [(0, false)], bbank := some 0 })]

/-- The machine at reset, but for these arrays; strand 0 claims bank 0 of cluster 0, whose kind is none, and core 0 runs the record. -/
def shadowState : State :=
  ({ State.reset with arrays := shadowedArrays }.onStrand 0 fun t => { t with claim := some ⟨1, 1, 1, 0⟩ }).onCore 0
    fun x => x.setEngine .m { q := [], run := some shadowRun }

/-- One tile, on array 0: no bind gives cluster 0 another. -/
theorem tilesOf_shadowState : shadowState.tilesOf shadowRun.e = [⟨0, 0, 0⟩] := by
  decide +kernel

/-- Before the record, cell 0 of the bank holds 0. -/
theorem cellV_shadowState : cellV shadowState 0 0 0 = 0 := by
  decide +kernel

/-- After it, which ends with KIND and writes no cell, the entry behind the dropped one counts. -/
theorem cellV_complete_shadowState : cellV (shadowState.complete 0 .m shadowRun) 0 0 0 = 2 ^ 24 := by
  decide +kernel

end Sys2Proof.Machine

namespace Sys2Proof.Proofs

open Sys2Proof.Machine Sys2Proof.Claims

/-- Refutes O50: no hypothesis has the arrays' map in canonical form, as one has each bank's cells. An mma of a bank of the wrong kind, on a map that lists array 0 first as an unlisted array reads and then with a carry of the bank, drops the first entry as it ends its turns, and V of cell 0 changes from 0 to 2^24. -/
theorem not_matrixProductsAccumulate : ¬ Obligations.MatrixProductsAccumulate := by
  intro h
  obtain ⟨t, hexec, -, -, -, hkind, -⟩ := h shadowState 0 shadowRun shadowRec false false .stream rfl rfl (by decide) rfl
  have htile : (⟨0, 0, 0⟩ : Tile) ∈ shadowState.tilesOf shadowRun.e := by
    rw [tilesOf_shadowState]
    exact List.mem_singleton_self _
  obtain ⟨-, hcells⟩ := hkind ⟨⟨0, 0, 0⟩, htile, .inl (by decide +kernel)⟩
  have ht : t = shadowState.complete 0 .m shadowRun := by
    rw [exec_recordCompletion rfl] at hexec
    exact (Host.Outcome.next.inj hexec).symm
  have hsame : cellV (shadowState.complete 0 .m shadowRun) 0 0 0 = cellV shadowState 0 0 0 := ht ▸ (hcells _ htile).2 0
  rw [cellV_complete_shadowState, cellV_shadowState] at hsame
  exact absurd hsame (by decide)

end Sys2Proof.Proofs
end

section
/-! A collective engine that runs a record of another class: O53 asks of the record only that it has a plan, and knows cbar by collCode = 7, the code of every instruction but the first six of class 8 (R252, R382). -/

namespace Sys2Proof.Machine

open Sys2Proof.Claims

/-- A vadd of no particular operands, without a status word. -/
def strayRec : Rec :=
  { type := fI16, type2 := 0, psel := 0, pe := false, cls := 0, tflag := 0, stat := 0, se := false, ctl := 0, t0 := 1, t1 := 1, t2 := 1, t3 := 1
    d := ⟨0, 0, 0, 0⟩, a := ⟨0, 0, 0, 0⟩, b := ⟨0, 0, 0, 0⟩, c := ⟨0, 0, 0, 0⟩ }

/-- The vadd in a queue of strand 0: its operand B, absent, reads as communicator 0. -/
def strayEntry : Entry :=
  { ref := ⟨0, 0, 0⟩, sid := 0, uid := 0, pc := 0, instr := .vadd strayRec, foots := []
    cap := { trips := [1, 1, 1, 1], d := .none, a := .none, b := .none, c := .none, count := none, salt := 0, nbv := 0, region := false, vals := [] } }

/-- Its contribution has gone out, and it waits for the others'. -/
def strayColl : Coll := { Coll.init with phase := 1 }

/-- The vadd as the engine runs it. -/
def strayRun : Run :=
  { e := strayEntry, vm := Mode.zero, mm := Mode.zero, etr := false, done := [], refused := 0, flags := 0, coll := some strayColl, void := false, srcs := none }

/-- Rank 0 of two: VRs 0 and 1. -/
def strayComm : Comm := ⟨2, [0, 1], 0, true, 0, none⟩

/-- The record as the statement sees it: core 0, communicator 0 of logical core 0, VR 0. -/
def strayCtx : CCtx := ⟨0, strayEntry, strayRec, 0, 0, strayComm, 0⟩

/-- The machine at reset, VR 1's contribution come to VR 0, the record on the collective engine of core 0. -/
def strayState : State :=
  ({ State.reset with vrs := [(0, some { blankVr 0 blankImage with staged := [⟨1, msgVa 0 1 0 0 16, contribution strayCtx 0 false⟩] })] }.onLcore 0
    fun l => { l with comms := [(0, some strayComm)] }).onCore 0 fun x => x.setEngine .c { q := [], run := some strayRun }

/-- All have come, and they agree. -/
theorem contributed_strayState : strayCtx.contributed strayState 0 = some true := by
  decide +kernel

/-- The record goes up the tree, where VR 1's values have not come, and goes on running. -/
theorem run_complete_strayState : (((strayState.complete 0 .c strayRun).coreAt 0).engine .c).run.isSome = true := by
  decide +kernel

end Sys2Proof.Machine

namespace Sys2Proof.Proofs

open Sys2Proof.Machine Sys2Proof.Claims

/-- Refutes O53: the clause on cbar knows it by collCode = 7, which is also the code of every record of another class, and no hypothesis says that the record is of class 8. A vadd on the collective engine, whose members' contributions agree, goes on to the tree instead of ending. -/
theorem not_collectiveRecordValues : ¬ Obligations.CollectiveRecordValues := by
  intro h
  obtain ⟨hjoin | hcoll, -⟩ := h strayState 0 strayRun strayRec _ _ strayComm strayColl rfl rfl rfl rfl
  · exact absurd hjoin nofun
  · obtain ⟨-, -, -, hbar, -⟩ := hcoll rfl
    obtain ⟨t, hexec, hfree, -⟩ := hbar rfl contributed_strayState rfl
    have ht : t = strayState.complete 0 .c strayRun := by
      rw [exec_recordCompletion rfl] at hexec
      exact (Host.Outcome.next.inj hexec).symm
    have hrun := run_complete_strayState
    rw [← ht, hfree] at hrun
    exact absurd hrun (by decide)

end Sys2Proof.Proofs
end

section
/-! Every step keeps every memory in canonical form (O58). What puts and filters keep of a sparse memory, then one lemma for each operation on states, callees before callers: `Canonical.f` says that `State.f` keeps `Canonical`, and `nextCanonical_execF` that an instruction does. -/

namespace Sys2Proof.Machine

variable {α : Type} [DecidableEq α] {P : α → Prop} {d : α} {m : SMap α}

theorem forall_sset (hm : ∀ e ∈ m, P e.2) {v : α} (hv : P v) (k : Nat) : ∀ e ∈ sset d m k v, P e.2 := by
  intro e he
  simp only [sset, sputs, srun, sbelow, sfrom, List.mem_append, List.mem_filter] at he
  rcases he with ⟨he, -⟩ | he | ⟨he, -⟩
  · exact hm e he
  · split at he
    · simp at he
    · simp only [List.mem_singleton] at he
      exact he ▸ hv
  · exact hm e he

omit [DecidableEq α] in
theorem sget_of_forall (hm : ∀ e ∈ m, P e.2) (hd : P d) (k : Nat) : P (sget d m k) := by
  induction m with
  | nil => exact hd
  | cons e t ih =>
    rw [sget]
    split
    · exact hm _ List.mem_cons_self
    · exact ih fun x hx => hm x (List.mem_cons_of_mem _ hx)

theorem forall_smod (hm : ∀ e ∈ m, P e.2) (hd : P d) {f : α → α} (hf : ∀ v, P v → P (f v)) (k : Nat) : ∀ e ∈ smod d m k f, P e.2 :=
  forall_sset hm (hf _ (sget_of_forall hm hd k)) k

theorem forall_smapAll (hm : ∀ e ∈ m, P e.2) {f : Nat → α → α} (hf : ∀ k v, P v → P (f k v)) : ∀ e ∈ smapAll d f m, P e.2 := by
  intro e he
  simp only [smapAll, List.mem_filter, List.mem_map] at he
  obtain ⟨⟨x, hx, rfl⟩, -⟩ := he
  exact hf _ _ (hm x hx)

theorem wf_writeRuns (rs : List (Nat × Nat)) (bs : List Byte) {m : Mem} (h : m.wf = true) : (writeRuns m rs bs).wf = true := by
  induction rs generalizing m bs with
  | nil => exact h
  | cons r t ih => exact ih _ (Mem.wf_setBytes _ _ _ h)

theorem Mem.wf_wipe (a n : Nat) {m : Mem} (h : m.wf = true) : (m.wipe a n).wf = true := by
  refine swf_append _ _ _ (swf_filter _ (fun k => decide (k < a)) _ h) (swf_filter _ (fun k => decide (a + n ≤ k)) _ h) fun e he f hf => ?_
  simp only [sbelow, sfrom, List.mem_filter, decide_eq_true_eq] at he hf
  omega

theorem LCore.sp_redirty (l : LCore) (idx : Nat) (old : Region) (lines : List Nat) (evict : Bool) : (l.redirty idx old lines evict).sp = l.sp := by
  unfold LCore.redirty
  dsimp only
  split <;> rfl

theorem LCore.sp_unback (l : LCore) (h : Held) : (l.unback h).sp = l.sp := by
  cases h with
  | wback => exact l.sp_redirty _ _ _ _
  | bytes | remote | fence => rfl

theorem LCore.sp_foldl_unback (hs : List Held) (l : LCore) : (hs.foldl LCore.unback l).sp = l.sp := by
  induction hs generalizing l with
  | nil => rfl
  | cons h t ih => rw [List.foldl_cons, ih, l.sp_unback]

/-- What a recursion on fuel keeps: its equation lemmas would evaluate what a step searches. -/
theorem brecOn_keeps {Q : (State → State) → Prop} {F : ∀ n, Nat.below (motive := fun _ => State → State) n → State → State}
    (h0 : Q (F 0 ⟨⟩)) (hs : ∀ n (b : Nat.below (motive := fun _ => State → State) (n + 1)), Q b.1 → Q (F (n + 1) b)) (k : Nat) :
    Q (Nat.brecOn k F) := by
  induction k with
  | zero => exact h0
  | succ k ih => exact hs k _ ih

/-- An LPDDR6 page is taken where the function's slices hold one that the machine has. -/
theorem State.takeLp_eq : State.takeLp = fun s fn =>
    (nextIn (s.fnAt fn).lpSlice lpBase 0x200000000 128 (Nat.max (s.fnAt fn).nextLp lpBase)).bind fun pa =>
      if s.hasMem pa then some (s.onFn fn fun f => { f with nextLp := pa + 65536 }, pa) else none := by
  delta State.takeLp
  funext s fn
  extract_lets f
  generalize nextIn _ _ _ _ _ = o
  cases o <;> rfl

theorem State.takeLp?_eq : State.takeLp? = fun s fn => (s.takeLp fn).elim (s, none) fun x => (x.1, some x.2) := by
  delta State.takeLp?
  funext s fn
  generalize s.takeLp fn = o
  cases o <;> rfl

/-- A page is copied to LPDDR6, and its HBM4E page goes to the ring, where there is room. -/
theorem State.toLp_eq : State.toLp = fun s fn tier c => (s.takeLp fn).elim s fun x =>
    ((x.1.copyPage c.1 c.2.2.2 x.2).rewriteLeaf c.1 c.2.1 c.2.2.1 x.2 tier).onFn fn fun f =>
      { f with free := (f.free ++ [BitVec.ofNat 64 c.2.2.2]).take 4096 } := by
  delta State.toLp
  funext s fn tier c
  generalize s.takeLp fn = o
  cases o <;> rfl

/-- The machine that a completion step leaves. -/
def Done.state : Done → State
  | .wait s | .ended s _ _ _ => s

/-- The machine that an element leaves. -/
def ElemAns.state : ElemAns → State
  | .wait s | .ok s _ | .refused s => s

/-- The machine that an advance leaves. -/
def Adv.state : Adv → State
  | .go s _ | .wait s _ | .done s => s

end Sys2Proof.Machine

namespace Sys2Proof.Claims

open Sys2Proof.Machine

section
variable {cur : Ref} {agenda waits : List Turn} {strands : SMap Strand} {tasks : SMap Task} {cores : SMap Core} {arrays : SMap MArray}
  {banks : SMap Bank} {wsPhase injPtr memPtr : SMap Nat} {wsGated wsWaking : SMap Bool} {vrs : SMap (Option Vr)}
  {fns : SMap Fn} {binds route : SMap Word} {binderr : BitVec 17} {detmode power isPackage supplied : Bool}
  {period periodAt clockStep portDrops uid draw : Nat} {cycle : Word} {bin : Bin} {fuses stackBytes : SMap (Nat × Nat)}
  {endpoint : BitVec 12} {location : SMap (Option Nat)} {ports : SMap Port} {lanethr : SMap (BitVec 16)} {pairs : SMap Pair}
  {unacked : List Unacked} {late : List Packet} {rops : List ROp} {hold : List HoldPkt} {faults : List PFault}
  {denied : List (Who × Nat × Nat)} {ftlb : SMap (List Tlb)} {rels : SMap (List Rel)} {olds : List (Nat × Nat × Word)}
  {sup : Sup} {sent : List Sent}

/-- Only the four memories count: every other field may differ. -/
theorem Canonical.same {s : State} (h : Canonical s) :
    Canonical { s with
      cur := cur, agenda := agenda, strands := strands, tasks := tasks, cores := cores, arrays := arrays, banks := banks
      wsPhase := wsPhase, wsGated := wsGated, wsWaking := wsWaking, vrs := vrs, fns := fns, binds := binds, binderr := binderr
      detmode := detmode, period := period, periodAt := periodAt, cycle := cycle, power := power, clockStep := clockStep
      bin := bin, fuses := fuses, isPackage := isPackage, supplied := supplied, endpoint := endpoint, location := location
      route := route, ports := ports, lanethr := lanethr, pairs := pairs, unacked := unacked, late := late, rops := rops
      hold := hold, faults := faults, denied := denied, ftlb := ftlb, portDrops := portDrops, injPtr := injPtr
      memPtr := memPtr, stackBytes := stackBytes, waits := waits, rels := rels, olds := olds, sup := sup, sent := sent
      uid := uid, draw := draw } :=
  ⟨h.device, h.host, h.weights, h.scratch⟩

/-- So does a state with another device memory in canonical form. -/
theorem Canonical.storing {s : State} (h : Canonical s) {m : Mem} (hm : m.wf = true) :
    Canonical { s with
      mem := m, cur := cur, agenda := agenda, strands := strands, tasks := tasks, cores := cores, arrays := arrays
      banks := banks, wsPhase := wsPhase, wsGated := wsGated, wsWaking := wsWaking, vrs := vrs, fns := fns, binds := binds
      binderr := binderr, detmode := detmode, period := period, periodAt := periodAt, cycle := cycle, power := power
      clockStep := clockStep, bin := bin, fuses := fuses, isPackage := isPackage, supplied := supplied, endpoint := endpoint
      location := location, route := route, ports := ports, lanethr := lanethr, pairs := pairs, unacked := unacked
      late := late, rops := rops, hold := hold, faults := faults, denied := denied, ftlb := ftlb, portDrops := portDrops
      injPtr := injPtr, memPtr := memPtr, stackBytes := stackBytes, waits := waits, rels := rels, olds := olds, sup := sup
      sent := sent, uid := uid, draw := draw } :=
  ⟨hm, h.host, h.weights, h.scratch⟩

end

theorem Canonical.of_eq {α : Type} {p : State × α} {t : State} {x : α} (h : Canonical p.1) (e : p = (t, x)) : Canonical t := by
  subst e; exact h

theorem Canonical.of_some {o : Option State} (h : ∀ t ∈ o, Canonical t) {t : State} (e : o = some t) : Canonical t := h t e

theorem Canonical.of_pair {α : Type} {o : Option (State × α)} (h : ∀ t ∈ o, Canonical t.1) {t : State} {x : α} (e : o = some (t, x)) :
    Canonical t := h _ e

section
variable {t : State}

theorem Canonical.of_wait {d : Done} (h : Canonical d.state) (e : d = .wait t) : Canonical t := by subst e; exact h
theorem Canonical.of_ended {d : Done} (h : Canonical d.state) {fl : Flags} {n : Nat} {c : BitVec 8} (e : d = .ended t fl n c) :
    Canonical t := by subst e; exact h
theorem Canonical.of_elemWait {d : ElemAns} (h : Canonical d.state) (e : d = .wait t) : Canonical t := by subst e; exact h
theorem Canonical.of_elemOk {d : ElemAns} (h : Canonical d.state) {fl : Flags} (e : d = .ok t fl) : Canonical t := by subst e; exact h
theorem Canonical.of_elemRefused {d : ElemAns} (h : Canonical d.state) (e : d = .refused t) : Canonical t := by subst e; exact h
theorem Canonical.of_advGo {d : Adv} (h : Canonical d.state) {k : Coll} (e : d = .go t k) : Canonical t := by subst e; exact h
theorem Canonical.of_advWait {d : Adv} (h : Canonical d.state) {k : Coll} (e : d = .wait t k) : Canonical t := by subst e; exact h
theorem Canonical.of_advDone {d : Adv} (h : Canonical d.state) (e : d = .done t) : Canonical t := by subst e; exact h

end

theorem canonical_foldl {α : Type} {g : State → α → State} {s : State} (h : Canonical s) (hg : ∀ s x, Canonical s → Canonical (g s x))
    (l : List α) : Canonical (l.foldl g s) := by
  induction l generalizing s with
  | nil => exact h
  | cons x l ih => exact ih (hg s x h)

theorem canonical_foldl_pair {α β : Type} {g : State × β → α → State × β} {r : State × β} (h : Canonical r.1)
    (hg : ∀ r x, Canonical r.1 → Canonical (g r x).1) (l : List α) : Canonical (l.foldl g r).1 := by
  induction l generalizing r with
  | nil => exact h
  | cons x l ih => exact ih (hg r x h)

theorem Canonical.onLcore {s : State} (h : Canonical s) (k : Nat) {f : LCore → LCore} (hf : ∀ l, Mem.wf l.sp → Mem.wf (f l).sp) :
    Canonical (s.onLcore k f) :=
  ⟨h.device, h.host, h.weights, forall_smod (P := fun l : LCore => Mem.wf l.sp = true) h.scratch rfl hf k⟩

theorem canonical_getD {o : Option State} {s : State} (h : Canonical s) (ho : ∀ t ∈ o, Canonical t) : Canonical (o.getD s) := by
  cases o with
  | none => exact h
  | some t => exact ho t rfl

/-- What an outcome goes on with is canonical. -/
def NextCanonical (o : Host.Outcome State Fault Refusal) : Prop := ∀ t, o = .next t → Canonical t

theorem NextCanonical.next {t : State} (h : Canonical t) : NextCanonical (.next t) := fun _ e => Host.Outcome.next.inj e ▸ h

theorem Canonical.onFn {s : State} (h : Canonical s) (n : Nat) (f : Fn → Fn) : Canonical (s.onFn n f) := by
  unfold State.onFn
  exact h.same

theorem Canonical.onCore {s : State} (h : Canonical s) (n : Nat) (f : Core → Core) : Canonical (s.onCore n f) := by
  unfold State.onCore
  exact h.same

theorem Canonical.lcErr {s : State} (h : Canonical s) (lc : Nat) (f : Failure) : Canonical (s.lcErr lc f) := by
  unfold State.lcErr
  refine Canonical.onLcore ?_ _ fun _ h => h
  exact h

theorem Canonical.settle {s : State} (h : Canonical s) (who : Who) : Canonical (s.settle who) := by
  unfold State.settle
  exact h.same

theorem Canonical.heldEnds {s : State} (h : Canonical s) (h1 : Held) (rest : List Held) : Canonical (s.heldEnds h1 rest) := by
  unfold State.heldEnds
  split
  · split
    · exact h
    · exact h.settle _
  · exact h

theorem Canonical.onVr {s : State} (h : Canonical s) (v : Nat) (f : Vr → Vr) : Canonical (s.onVr v f) := by
  unfold State.onVr
  exact h.same

theorem Canonical.charge {s : State} (h : Canonical s) (p : Payer) (n : Nat) : Canonical (s.charge p n) := by
  unfold State.charge
  split
  · exact h
  · exact ((h.onVr _ _).onFn _ _).same

theorem Canonical.chargeMem {s : State} (h : Canonical s) (p : Payer) (pa n : Nat) (rd wr : Bool) : Canonical (s.chargeMem p pa n rd wr) := by
  unfold State.chargeMem
  split
  · extract_lets s1
    have hs1 : Canonical s1 := h.same
    split
    · exact hs1
    · exact (hs1.same.charge _ _).onFn _ _
  · exact h.charge _ _

theorem Canonical.chargeRuns {s : State} (h : Canonical s) (p : Payer) (rs : List (Nat × Nat)) (rd : Bool) : Canonical (s.chargeRuns p rs rd) := by
  unfold State.chargeRuns
  exact canonical_foldl h (fun s' x h' => h'.chargeMem _ _ _ _ _) _

theorem Canonical.cachePut {s : State} (h : Canonical s) (a : Machine.Acc) (t : Tlb) : Canonical (s.cachePut a t) := by
  unfold State.cachePut
  split
  · exact h.onCore _ _
  · exact h.same

theorem Canonical.markAD {s : State} (h : Canonical s) (p : Payer) (d : Nat → Bool) (marks : List Nat) : Canonical (s.markAD p d marks) := by
  refine canonical_foldl h (fun s x h => ?_) marks
  dsimp only
  split
  · exact h
  · exact (h.chargeMem _ _ _ _ _).storing (wf_setAD _ _ _ h.device)


theorem Canonical.vector {s : State} (h : Canonical s) (f n : Nat) : Canonical (s.vector f n) := by
  unfold State.vector
  exact h.same

theorem Canonical.ringPut {s : State} (h : Canonical s) (f q : Nat) (w0 w1 w2 w3 : Word) : Canonical (s.ringPut f q w0 w1 w2 w3) := by
  have hw (a : Nat) (bs : List Byte) : Canonical { s with hostMem := s.hostMem.setBytes a bs } :=
    ⟨h.device, Mem.wf_setBytes _ _ _ h.host, h.weights, h.scratch⟩
  exact ((hw _ _).onFn _ _).vector _ _


theorem Canonical.drainReqs {s : State} (h : Canonical s) (f k : Nat) : Canonical (State.drainReqs f k s) := by
  delta State.drainReqs
  refine brecOn_keeps (Q := fun g => ∀ s, Canonical s → Canonical (g s)) (fun _ h => h) (fun n b hb s h => ?_) k s h
  delta State.drainReqs._f
  dsimp only
  split
  · exact h
  · split
    · exact h
    · split
      · exact hb _ ((h.ringPut _ _ _ _ _ _).onFn _ _)
      · exact h


theorem Canonical.pageRequest {s : State} (h : Canonical s) (f : Nat) (p : PReq) : Canonical (s.pageRequest f p) := by
  unfold State.pageRequest
  extract_lets x
  split
  · exact h
  · exact (h.onFn _ _).drainReqs _ _

theorem Canonical.later {s : State} (h : Canonical s) (t : Turn) : Canonical (s.later t) := by
  unfold State.later
  exact h.same

theorem Canonical.chargeFlit {s : State} (h : Canonical s) (p : Payer) (n : Nat) : Canonical (s.chargeFlit p n) := by
  unfold State.chargeFlit
  split
  · exact h
  · split
    · exact h
    · exact (h.charge _ _).onFn _ _

theorem Canonical.onPort {s : State} (h : Canonical s) (q : Nat) (f : Port → Port) : Canonical (s.onPort q f) := by
  unfold State.onPort
  exact h.same

theorem Canonical.transmit {s : State} (h : Canonical s) (inst : Option Nat) (q : Nat) (hop : BitVec 2) (p : Packet) :
    Canonical (s.transmit inst q hop p) := by
  unfold State.transmit
  extract_lets port fl s1
  have hs1 : Canonical s1 := h.onPort _ _
  refine Canonical.chargeFlit ?_ _ _
  refine Canonical.same ?_
  exact hs1

theorem Canonical.sendFirst {s : State} (h : Canonical s) (inst : Option Nat) (p : Packet) (ps : List FabPath) :
    ∀ t ∈ s.sendFirst inst p ps, Canonical t.1 := by
  intro t ht
  unfold State.sendFirst at ht
  split at ht <;> obtain ⟨x, -, rfl⟩ := Option.mem_map.mp ht
  · exact h.later _
  · exact h.transmit _ _ _ _


theorem Canonical.request {s : State} (h : Canonical s) (inst : Option Nat) (uid spad idx : Nat) (p : Packet) :
    ∀ t ∈ s.request inst uid spad idx p, Canonical t := by
  intro t ht
  obtain ⟨⟨u, q⟩, hu, rfl⟩ := Option.mem_map.mp ht
  exact (h.sendFirst _ _ _ _ hu : Canonical u).same


theorem Canonical.sendPull {s : State} (h : Canonical s) (v : Nat) (vr : Vr) (page : Nat) (e : Word) : Canonical (s.sendPull v vr page e) := by
  unfold State.sendPull
  exact canonical_getD (h.later _) (h.request _ _ _ _ _)

theorem Canonical.enterFault {s : State} (h : Canonical s) (a : Acc) (v : Vr) (va : Nat) (k : FKind) (ipa : Nat) (node : Bool) (e : Word)
    (who : List Who) : Canonical (s.enterFault a v va k ipa node e who) := by
  unfold State.enterFault
  dsimp only
  split
  · exact h.same
  · split
    · exact h.same.later _
    · exact h.same.later _
    · exact h.same.sendPull _ _ _ _
    · exact h.same.pageRequest _ _


theorem Canonical.prefetch {s : State} (h : Canonical s) (a : Machine.Acc) (v : Vr) (page : Nat) : Canonical (s.prefetch a v page) := by
  unfold State.prefetch
  extract_lets n base
  refine canonical_foldl ?_ (fun s' x h' => ?_) _
  · exact h
  · extract_lets va w
    split
    · exact h'.enterFault _ _ _ _ _ _ _ _
    · exact h'

theorem Canonical.fault {s : State} (h : Canonical s) (a : Machine.Acc) (v : Vr) (va : Nat) (k : FKind) (ipa : Nat) (node : Bool) (e : Word) :
    Canonical (s.fault a v va k ipa node e) := by
  unfold State.fault
  extract_lets fresh s1
  have hs1 : Canonical s1 := h.enterFault _ _ _ _ _ _ _ _
  split
  · exact hs1.prefetch _ _ _
  · exact hs1

theorem Canonical.refuse351 {s : State} (h : Canonical s) (a : Machine.Acc) (page : Nat) : Canonical (s.refuse351 a page) := by
  unfold State.refuse351
  split
  · exact h.same
  · exact h.same
  · exact h

theorem Canonical.chargeWalk {s : State} (h : Canonical s) (p : Payer) (v : Vr) (va : Nat) : Canonical (s.chargeWalk p v va) := by
  unfold State.chargeWalk
  exact canonical_foldl h (fun s' x h' => h'.chargeMem _ _ _ _ _) _

theorem Canonical.xwalk {s : State} (h : Canonical s) (a : Acc) (v : Vr) (va : Nat) : Canonical (s.xwalk a v va).1 := by
  have hc := h.chargeWalk a.payer v va
  unfold State.xwalk
  dsimp only
  split
  · exact hc.refuse351 _ _
  · split
    · exact hc.fault _ _ _ _ _ _ _
    · generalize s.walkVr v va = w
      cases w with
      | error e => exact hc.refuse351 _ _
      | ok f => exact (hc.markAD _ _ _).cachePut _ _


theorem Canonical.xlate {s : State} (h : Canonical s) (a : Machine.Acc) (va : Nat) : Canonical (s.xlate a va).1 := by
  unfold State.xlate
  split
  · exact h
  · split
    · exact h
    · split
      · exact h
      · split
        · extract_lets pa
          split
          · exact h
          · exact h.refuse351 _ _
        · exact h.xwalk _ _ _

theorem Canonical.gvRuns {s : State} (h : Canonical s) (a : Acc) (k va n : Nat) : Canonical (State.gvRuns a k s va n).1 := by
  induction k generalizing s va n with
  | zero => exact h
  | succ k ih =>
    unfold State.gvRuns
    split
    · exact h
    · have hx := h.xlate a va
      dsimp only
      split
      · exact hx.of_eq ‹_›
      · exact hx.of_eq ‹_›
      · have hr := ih (hx.of_eq ‹_›)
        split <;> exact (hr _ _).of_eq ‹_›


theorem Canonical.runs {s : State} (h : Canonical s) (a : Machine.Acc) (va n : Nat) : Canonical (s.runs a va n).1 := by
  unfold State.runs
  exact h.gvRuns _ _ _ _

theorem Canonical.gvWrite {s : State} (h : Canonical s) (a : Machine.Acc) (va : Nat) (bs : List Byte) : Canonical (s.gvWrite a va bs).1 := by
  unfold State.gvWrite
  split
  · exact (((h.runs _ _ _).of_eq ‹_›).chargeRuns _ _ _).storing (wf_writeRuns _ _ (Canonical.device ((h.runs _ _ _).of_eq ‹_›)))
  · exact (h.runs _ _ _).of_eq ‹_›
  · exact (h.runs _ _ _).of_eq ‹_›

theorem Canonical.writeLines {s : State} (h : Canonical s) (a : Acc) (r : Region) (l : List (Nat × List Byte)) :
    Canonical (State.writeLines a r l s).1 := by
  induction l generalizing s with
  | nil => exact h
  | cons x t ih =>
    unfold State.writeLines
    have hw := h.gvWrite a (r.va.toNat + 64 * x.1) x.2
    split
    · exact ih (hw.of_eq ‹_›)
    · exact hw.of_eq ‹_›
    · exact hw.of_eq ‹_›


theorem Canonical.noteRel {s : State} (h : Canonical s) (a : Machine.Acc) (o : Owner) (b : HeldBlk) : Canonical (s.noteRel a o b) := by
  unfold State.noteRel
  split
  · exact h
  · split
    · exact ((h.xlate _ _).of_eq ‹_›).same
    · exact (h.xlate _ _).of_eq ‹_›

theorem Canonical.writeRunsOf {s : State} (h : Canonical s) (a : Acc) (base : Nat) (l : List (Nat × List Byte)) :
    Canonical (State.writeRunsOf a base l s).1 := by
  induction l generalizing s with
  | nil => exact h
  | cons x t ih =>
    unfold State.writeRunsOf
    have hw := h.gvWrite a (base + x.1) x.2
    split
    · exact ih (hw.of_eq ‹_›)
    · exact hw.of_eq ‹_›
    · exact hw.of_eq ‹_›


theorem Canonical.onRop {s : State} (h : Canonical s) (uid : Nat) (f : ROp → ROp) : Canonical (s.onRop uid f) := by
  unfold State.onRop
  exact h.same

theorem Canonical.onStrand {s : State} (h : Canonical s) (k : Nat) (f : Strand → Strand) : Canonical (s.onStrand k f) := by
  unfold State.onStrand
  exact h.same

theorem Canonical.addRfail {s : State} (h : Canonical s) (r : Ref) (sid : Nat) (f : Failure) : Canonical (s.addRfail r sid f) := by
  unfold State.addRfail
  split
  · exact h.onStrand _ _
  · refine Canonical.onLcore ?_ _ fun _ h => h
    exact h

theorem Canonical.bankCounts {s : State} (h : Canonical s) (task : Nat) : Canonical (s.bankCounts task) := by
  unfold State.bankCounts
  exact (canonical_foldl h (fun s' x h' => h'.onCore _ _) _).same

theorem Canonical.stopTask {s : State} (h : Canonical s) (task : Nat) (status : BitVec 8) (cls : BitVec 4) :
    Canonical (s.stopTask task status cls) := by
  unfold State.stopTask
  split
  · have hb := h.bankCounts task
    refine ⟨hb.device, hb.host, hb.weights, ?_⟩
    refine List.foldlRecOn (motive := fun m : SMap LCore => ∀ e ∈ m, Mem.wf e.2.sp = true) _ _ ?_ fun m hm e _ => ?_
    · exact forall_smapAll (P := fun l : LCore => Mem.wf l.sp = true) hb.scratch fun k l hl => by split <;> exact hl
    · refine forall_smod (P := fun l : LCore => Mem.wf l.sp = true) hm rfl ?_ _
      exact fun _ hl => hl
  · exact h


theorem Canonical.trapOn {s : State} (h : Canonical s) (k : Nat) (x : Trap) (cls : BitVec 4) (ret : BitVec 53) :
    Canonical (s.trapOn k x cls ret) := by
  unfold State.trapOn
  extract_lets t
  split
  · exact h
  · split
    · exact h.stopTask _ _ _
    · exact h.onStrand _ _

theorem Canonical.spPut {s : State} (h : Canonical s) (lc a : Nat) (bs : List Byte) : Canonical (s.spPut lc a bs) :=
  (h.onLcore lc fun _ hl => Mem.wf_setBytes _ _ _ hl).same


theorem Canonical.finishRop {s : State} (h : Canonical s) (uid : Nat) : Canonical (s.finishRop uid) := by
  unfold State.finishRop
  split
  · exact h
  · split
    · exact h
    · extract_lets s1
      have hs1 : Canonical s1 := h.same
      split
      · exact hs1
      · split
        · split
          exact hs1.spPut _ _ _
        · split
          · exact hs1
          · split
            · split
              · exact hs1.trapOn _ _ _ _
              · exact hs1
            · exact hs1.addRfail _ _ _

theorem Canonical.injected {s : State} (h : Canonical s) (core : Nat) : Canonical (s.injected core) := by
  unfold State.injected
  split
  · exact h.same
  · exact h

theorem Canonical.sendPiece {s : State} (h : Canonical s) (by_ : Sender) (uid : Nat) (p : RPiece) : Canonical (State.sendPiece by_ uid s p) := by
  unfold State.sendPiece
  split
  · exact h.onRop _ _
  · split
    · exact (Canonical.of_some (h.request _ _ _ _ _) ‹_›).injected _
    · exact h.onRop _ _

theorem Canonical.sendPieces {s : State} (h : Canonical s) (b : Sender) (uid : Nat) (l : List RPiece) : Canonical (State.sendPieces b uid l s).1 := by
  induction l generalizing s with
  | nil => exact h
  | cons p t ih =>
    unfold State.sendPieces
    split
    · exact ih (h.sendPiece _ _ _)
    · exact h


theorem Canonical.perform {s : State} (h : Canonical s) (o : Owner) (i : Held) : Canonical (s.perform o i).1 := by
  unfold State.perform
  split
  · split <;> exact h
  · split
    · next x _ =>
      split
      · exact h
      · have hp := h.sendPieces (s.senderOf x.ref)
        split
        · exact (((hp _ _).of_eq ‹_›).onRop _ _).finishRop _
        · exact ((hp _ _).of_eq ‹_›).onRop _ _
    · exact h
  · split
    · exact h
    · dsimp only
      split
      · exact ((h.writeRunsOf _ _ _).of_eq ‹_›).noteRel _ _ _
      · exact (h.writeRunsOf _ _ _).of_eq ‹_›
      · exact (h.writeRunsOf _ _ _).of_eq ‹_›
  · split
    · exact h
    · have hw := h.writeLines
      split
      · exact (hw _ _ _).of_eq ‹_›
      · refine Canonical.lcErr (Canonical.onLcore ((hw _ _ _).of_eq ‹_›) _ fun l hl => ?_) _ _
        exact (l.sp_redirty _ _ _ _).symm ▸ hl
      · exact (hw _ _ _).of_eq ‹_›


theorem Canonical.performAll {s : State} (h : Canonical s) (o : Owner) {fail : Failure → State → State}
    (hfail : ∀ f s, Canonical s → Canonical (fail f s)) (l kept : List Held) : Canonical (State.performAll o fail l kept s).1 := by
  induction l generalizing s kept with
  | nil => exact h
  | cons i t ih =>
    unfold State.performAll
    split
    · exact ih h _
    · have hp := h.perform o i
      split
      · exact ih (hp.of_eq ‹_›) _
      · exact ih (hfail _ _ ((hp.of_eq ‹_›).heldEnds _ _)) _
      · exact ih ((hp.of_eq ‹_›).heldEnds _ _) _


theorem Canonical.pumpTailed {s : State} (h : Canonical s) (lc : Nat) (o : Nat × Nat) : Canonical (State.pumpTailed lc s o) :=
  Canonical.onLcore (Canonical.performAll h _ (fun _ _ h => h.lcErr _ _) _ _) _ fun _ hl => hl


theorem Canonical.release {s : State} (h : Canonical s) (k : Nat) (items : List Held) : Canonical (s.release k items) :=
  Canonical.onStrand (Canonical.performAll (h.onStrand _ _) _ (fun _ _ h => h.onStrand _ _) _ _) _ _


theorem Canonical.pump {s : State} (h : Canonical s) : Canonical s.pump := by
  unfold State.pump
  extract_lets s1
  have hs1 : Canonical s1 := by
    refine canonical_foldl ?_ (fun s' x h' => ?_) _
    · exact h
    · split
      · exact h'
      · exact h'.release _ _
  exact canonical_foldl (hs1) (fun s' x h' => canonical_foldl (h') (fun s' x h' => h'.pumpTailed _ _) _) _

theorem Canonical.takeQueues {s : State} (h : Canonical s) : Canonical s.takeQueues := by
  unfold State.takeQueues
  extract_lets put acc clear
  split
  · exact h
  · exact h.same

theorem Canonical.endTurns {s : State} (h : Canonical s) : Canonical s.endTurns := by
  unfold State.endTurns
  exact h.same

theorem Canonical.setRotations {s : State} (h : Canonical s) : Canonical s.setRotations := by
  unfold State.setRotations
  refine canonical_foldl ?_ (fun s' x h' => ?_) _
  · exact h
  · split
    · exact h'.onCore _ _
    · exact h'

theorem Canonical.setStatus {s : State} (h : Canonical s) (k : Nat) (st : Status) : Canonical (s.setStatus k st) := by
  unfold State.setStatus
  exact h.onStrand _ _

theorem Canonical.codeWord {s : State} (h : Canonical s) (a : Nat) : Canonical (s.codeWord a).1 := by
  unfold State.codeWord
  extract_lets now before
  split
  · exact h
  · exact h.same

theorem Canonical.codeWords {s : State} (h : Canonical s) (l : List Nat) : Canonical (State.codeWords l s).1 := by
  induction l generalizing s with
  | nil => exact h
  | cons a t ih => exact ih (h.codeWord a)


theorem Canonical.fetchWords {s : State} (h : Canonical s) (pc : BitVec 53) (n : Nat) : Canonical (s.fetchWords pc n).1 := by
  unfold State.fetchWords
  extract_lets a
  split
  · exact h
  · split
    · split
      exact ((((h.runs _ _ _).of_eq ‹_›).chargeRuns _ _ _).codeWords _).of_eq ‹_›
    · exact (h.runs _ _ _).of_eq ‹_›
    · exact (h.runs _ _ _).of_eq ‹_›

theorem Canonical.fetch {s : State} (h : Canonical s) : Canonical s.fetch.1 := by
  unfold State.fetch
  split
  · exact (h.fetchWords _ _).of_eq ‹_›
  · exact (h.fetchWords _ _).of_eq ‹_›
  · extract_lets w
    split
    · split
      · exact (((h.fetchWords _ _).of_eq ‹_›).fetchWords _ _).of_eq ‹_›
      · exact (((h.fetchWords _ _).of_eq ‹_›).fetchWords _ _).of_eq ‹_›
      · exact (((h.fetchWords _ _).of_eq ‹_›).fetchWords _ _).of_eq ‹_›
    · exact (h.fetchWords _ _).of_eq ‹_›

theorem Canonical.fetchAhead {s : State} (h : Canonical s) (r : Ref) : Canonical (s.fetchAhead r) := by
  unfold State.fetchAhead
  split
  · exact h
  · split
    · exact (((h.same.fetch).of_eq ‹_›).same).onStrand _ _
    · exact (((h.same.fetch).of_eq ‹_›).same).setStatus _ _
    · exact h.setStatus _ _

theorem Canonical.judgeStrand {s : State} (h : Canonical s) (r : Ref) : Canonical (s.judgeStrand r) := by
  unfold State.judgeStrand
  split
  · exact h
  · split
    · exact h
    · split
      · exact h.setStatus _ _
      · extract_lets s1
        have hs1 : Canonical s1 := h.fetchAhead _
        split
        · exact hs1.setStatus _ _
        · exact hs1

theorem Canonical.judgeCore {s : State} (h : Canonical s) (core : Nat) : Canonical (s.judgeCore core) := by
  unfold State.judgeCore
  exact canonical_foldl h (fun s' x h' => h'.judgeStrand _) _

theorem Canonical.tick {s : State} (h : Canonical s) (n : Nat) : Canonical (s.tick n) := by
  unfold State.tick
  exact (((((canonical_foldl h (fun s' x h' => h'.judgeCore _) _).pump).takeQueues).endTurns).setRotations).same

theorem Canonical.readyVgo {s : State} (h : Canonical s) (id : BitVec 32) : Canonical (s.readyVgo id) := by
  unfold State.readyVgo
  exact (h.onStrand _ _).same

theorem Canonical.readyVarm {s : State} (h : Canonical s) (id : BitVec 32) : Canonical (s.readyVarm id) := by
  unfold State.readyVarm
  split
  · exact h
  · exact (h.onStrand _ _).storing (Mem.wf_setBytes _ _ _ h.device)


theorem nextCanonical_execPowerLoss {s : State} (h : Canonical s) : NextCanonical (execPowerLoss s) := by
  unfold Machine.execPowerLoss
  exact .next (h.same)

theorem canonical_reset : Canonical State.reset := ⟨rfl, rfl, fun _ h => absurd h List.not_mem_nil, fun _ h => absurd h List.not_mem_nil⟩


theorem Canonical.afterReset {s : State} (h : Canonical s) : Canonical s.afterReset :=
  ⟨rfl, h.host, fun _ h => absurd h List.not_mem_nil, fun _ h => absurd h List.not_mem_nil⟩


theorem nextCanonical_execBoot {s : State} (h : Canonical s) : NextCanonical (execBoot s) := by
  unfold Machine.execBoot
  refine .next ?_
  extract_lets t
  have ht : Canonical t := h.afterReset
  split
  · exact ht
  · split
    · exact ht.same
    · exact ht.same

theorem Canonical.onMbx {s : State} (h : Canonical s) (fn n : Nat) (f : Mbx → Mbx) : Canonical (s.onMbx fn n f) := by
  unfold State.onMbx
  exact h.onFn _ _

theorem Canonical.mbxReply {s : State} (h : Canonical s) (fn n status : Nat) (data : List Byte) : Canonical (s.mbxReply fn n status data) := by
  unfold State.mbxReply
  exact (h.onMbx _ _ _).vector _ _

theorem nextCanonical_execMailboxTake {s : State} (h : Canonical s) : NextCanonical (execMailboxTake s) := by
  refine .next ?_
  split
  · exact h
  · next fn n _ =>
    have ht : Canonical { s.onMbx fn n (fun m => { m with st := .busy }) with
        sup := { (s.onMbx fn n fun m => { m with st := .busy }).sup with ptr := 8 * fn + n } } := (h.onMbx _ _ _).same
    dsimp only
    split
    · exact ht.mbxReply _ _ _ _
    · split
      · exact ht.mbxReply _ _ _ _
      · split
        · exact ht.mbxReply _ _ _ _
        · exact ht.same


theorem nextCanonical_execSnapshotLatch {s : State} (h : Canonical s) : NextCanonical (execSnapshotLatch s) := by
  unfold Machine.execSnapshotLatch
  exact .next (canonical_foldl h (fun s' x h' => h'.same) _)

theorem Canonical.eventPut {s : State} (h : Canonical s) (fn : Nat) (r : List Word) : Canonical (s.eventPut fn r) := by
  unfold State.eventPut
  exact h.ringPut _ _ _ _ _ _

theorem nextCanonical_execSignalRelay {s : State} (h : Canonical s) : NextCanonical (execSignalRelay s) := by
  unfold Machine.execSignalRelay
  refine .next ?_
  split
  · exact (h.onFn _ _).eventPut _ _
  · split
    · exact h.same.eventPut _ _
    · exact h

theorem Canonical.rmwAt {s : State} (h : Canonical s) (p : Packet) (pa w : Nat) (f : Nat → Option Nat) : Canonical (s.rmwAt p pa w f).1 := by
  unfold State.rmwAt
  extract_lets old s1
  have hs1 : Canonical s1 := h.chargeMem _ _ _ _ _
  split
  · exact hs1
  · exact hs1.storing (Mem.wf_setBytes _ _ _ (Canonical.device (hs1)))

theorem Canonical.reducePages {s : State} (h : Canonical s) (p : Packet) (l : List PageRun) : Canonical (s.reducePages p l) := by
  unfold State.reducePages
  extract_lets w
  refine canonical_foldl ?_ (fun s' x h' => ?_) _
  · exact h
  · split
    split
    · exact h'
    · exact canonical_foldl (h') (fun s' x h' => h'.rmwAt _ _ _ _) _

theorem Canonical.tickUid {s : State} (h : Canonical s) : Canonical s.tickUid := by
  unfold State.tickUid
  exact h.same

theorem Canonical.startHandler {s : State} (h : Canonical s) (lc slot : Nat) (a : Arrival) : Canonical (s.startHandler lc slot a) := by
  unfold State.startHandler
  exact (h.onStrand _ _).tickUid

theorem Canonical.arriveHandler {s : State} (h : Canonical s) (lc : Nat) (p : Packet) : Canonical (s.arriveHandler lc p) := by
  unfold State.arriveHandler
  extract_lets a
  split
  · exact h.startHandler _ _ _
  · refine Canonical.onLcore ?_ _ fun _ h => h
    exact h

theorem Canonical.writePages {s : State} (h : Canonical s) (p : Packet) (data : List Byte) (l : List PageRun) :
    Canonical (s.writePages p data l) := by
  unfold State.writePages
  refine canonical_foldl ?_ (fun s' x h' => ?_) _
  · exact h
  · split
    split
    · exact h'
    · exact (h'.chargeMem _ _ _ _ _).storing (Mem.wf_setBytes _ _ _ (Canonical.device (h'.chargeMem _ _ _ _ _)))

theorem Canonical.onSrc {s : State} (h : Canonical s) (dst src : Nat) (f : SrcWin → SrcWin) : Canonical (s.onSrc dst src f) := by
  unfold State.onSrc
  exact h.onVr _ _

theorem Canonical.resolved {s : State} (h : Canonical s) (p : Packet) (status : BitVec 7) (data : List Byte) :
    Canonical (s.resolved p status data) := by
  unfold State.resolved
  exact (h.onSrc _ _ _).settle _

theorem Canonical.answer {s : State} (h : Canonical s) (p : Packet) (status : BitVec 7) (va : BitVec 56) (sem : BitVec 2) (scope : BitVec 3) (data : Option (List Byte)) :
    Canonical (s.answer p status va sem scope data) := by
  unfold State.answer
  extract_lets r
  split
  · exact Canonical.of_pair (h.sendFirst _ _ _) ‹_›
  · exact h

theorem Canonical.resolve {s : State} (h : Canonical s) (p : Packet) (status : BitVec 7) (data : List Byte) (pair : BitVec 2 × BitVec 3) :
    Canonical (s.resolve p status data pair) := by
  unfold State.resolve
  exact (h.resolved _ _ _).answer _ _ _ _ _ _

theorem Canonical.performReq {s : State} (h : Canonical s) (p : Packet) (v : Vr) (l : List PageRun) : Canonical (s.performReq p v l) := by
  unfold State.performReq
  extract_lets st
  split
  · exact h.resolve _ _ _ _
  · split
    · split
      · exact (h.chargeRuns _ _ _).resolve _ _ _ _
      · exact h.resolve _ _ _ _
    · exact (h.writePages _ _ _).resolve _ _ _ _
    · exact (h.writePages _ _ _).resolve _ _ _ _
    · split
      · split
        · exact ((h.writePages _ _ _).arriveHandler _ _).resolve _ _ _ _
        · exact h.resolve _ _ _ _
      · exact h.resolve _ _ _ _
    · split
      · split
        exact ((h.rmwAt _ _ _ _).of_eq ‹_›).resolve _ _ _ _
      · exact h.resolve _ _ _ _
    · split
      · split
        exact ((h.rmwAt _ _ _ _).of_eq ‹_›).resolve _ _ _ _
      · exact h.resolve _ _ _ _
    · exact (h.reducePages _ _).resolve _ _ _ _

theorem Canonical.judge {s : State} (h : Canonical s) (a : Acc) (k va n : Nat) : Canonical (State.judge a k s va n).1 := by
  induction k generalizing s va n with
  | zero => exact h
  | succ k ih =>
    unfold State.judge
    split
    · exact h
    · have hj := ih (h.xlate a va) (va + Nat.min n (65536 - va % 65536)) (n - Nat.min n (65536 - va % 65536))
      dsimp only
      split <;> exact hj


theorem Canonical.stage {s : State} (h : Canonical s) (p : Packet) : Canonical (s.stage p) := by
  unfold State.stage
  exact h.onVr _ _

theorem Canonical.keepTlb {s : State} (h : Canonical s) (p : Tlb → Bool) : Canonical (s.keepTlb p) := by
  unfold State.keepTlb
  exact h.same

theorem Canonical.freeVr {s : State} (h : Canonical s) (vr : Nat) : Canonical (s.freeVr vr) := by
  unfold State.freeVr
  exact (h.keepTlb _).same

theorem Canonical.servePull {s : State} (h : Canonical s) (p : Packet) (v : Vr) : Canonical (s.servePull p v) := by
  unfold State.servePull
  split
  · split
    · exact h.resolve _ _ _ _
    · exact canonical_foldl ((h.chargeMem _ _ _ _ _).resolved _ _ _) (fun s' x h' => canonical_getD (h') (h'.request _ _ _ _ _)) _
  · exact h.resolve _ _ _ _

theorem Canonical.pullPacketDone {s : State} (h : Canonical s) (p : Packet) (v : Vr) : Canonical (s.pullPacketDone p v) := by
  unfold State.pullPacketDone
  split
  · exact h.servePull _ _
  · exact h.servePull _ _
  · exact (h.onVr _ _).resolve _ _ _ _
  · extract_lets s1
    have hs1 : Canonical s1 := (h.onVr _ _).resolve _ _ _ _
    split
    · exact hs1.freeVr _
    · exact hs1
  · exact h.resolve _ _ _ _

theorem Canonical.reply {s : State} (h : Canonical s) (p : Packet) (status : BitVec 7) (data : List Byte) : Canonical (s.reply p status data) := by
  unfold State.reply
  exact h.answer _ _ _ _ _ _

theorem Canonical.unhold {s : State} (h : Canonical s) (p : Packet) : Canonical (s.unhold p) := by
  unfold State.unhold
  exact h.same

theorem Canonical.pastOrder {s : State} (h : Canonical s) (p : Packet) : Canonical (s.pastOrder p) := by
  unfold State.pastOrder
  have h1 : Canonical (s.unhold p) := h.unhold p
  generalize s.unhold p = s1 at h1
  dsimp only
  split
  · exact h1
  · rename_i v _
    split
    · exact h1.resolve _ _ _ _
    · split
      · exact h1.resolve _ _ _ _
      · generalize (if p.op = 3 then s1.handlerPlace p v else .ok 0 : Except (BitVec 7) Nat) = place
        split
        · exact (h1.onSrc _ _ _).reply _ _ _
        · exact h1.resolve _ _ _ _
        · have hj := h1.judge (pktAcc p) 4 p.va.toNat (reqLen p)
          generalize State.judge (pktAcc p) 4 s1 p.va.toNat (reqLen p) = j at hj
          obtain ⟨s2, l, w⟩ := j
          split
          · exact h1.same
          · split
            · exact h1.pullPacketDone _ _
            · split
              · exact h1.resolve _ _ _ _
              · split
                · exact (h1.stage p).resolve _ _ _ _
                · split
                  · exact h1.same
                  · dsimp only
                    split
                    · exact Canonical.same hj
                    · exact Canonical.performReq hj _ _ _


theorem Canonical.drainHold {s : State} (h : Canonical s) (src dst cls k : Nat) : Canonical (State.drainHold src dst cls k s) := by
  induction k generalizing s with
  | zero => exact h
  | succ k ih =>
    unfold State.drainHold
    dsimp only
    split
    · exact ih (h.pastOrder _)
    · exact h


theorem Canonical.proceed {s : State} (h : Canonical s) (p : Packet) : Canonical (s.proceed p) := by
  unfold State.proceed
  exact (h.pastOrder _).drainHold _ _ _ _

theorem Canonical.retryArrivals {s : State} (h : Canonical s) : Canonical s.retryArrivals := by
  unfold State.retryArrivals
  exact canonical_foldl h (fun s' x h' => h'.proceed _) _

theorem Canonical.retryAll {s : State} (h : Canonical s) : Canonical s.retryAll := by
  unfold State.retryAll
  exact h.pump.retryArrivals

theorem nextCanonical_execBudgetPeriodBoundary {s : State} (h : Canonical s) : NextCanonical (execBudgetPeriodBoundary s) := by
  unfold Machine.execBudgetPeriodBoundary
  refine .next ?_
  split
  · exact h.same.retryAll
  · exact h

theorem Canonical.raiseFence {s : State} (h : Canonical s) (k uid : Nat) (p q : Path) (mask : BitVec 16) :
    Canonical (s.raiseFence k uid p q mask) := by
  unfold State.raiseFence
  exact h.onStrand _ _

theorem Canonical.onMe {s : State} (h : Canonical s) (f : Strand → Strand) : Canonical (s.onMe f) := by
  unfold State.onMe
  exact h.onStrand _ _

theorem Canonical.fin {s : State} (h : Canonical s) (f : Strand → Strand) : Canonical (s.fin f) := by
  unfold State.fin
  exact h.onMe _

theorem Canonical.clearRfail {s : State} (h : Canonical s) (f : Failure) : Canonical (s.clearRfail f) := by
  unfold State.clearRfail
  refine Canonical.onLcore ?_ _ fun _ h => h
  exact h.onMe _

theorem Canonical.takeTrap {s : State} (h : Canonical s) (cls : BitVec 4) (x : Trap) : Canonical (s.takeTrap cls x) := by
  unfold State.takeTrap
  exact h.trapOn _ _ _ _

theorem Canonical.block {s : State} (h : Canonical s) : Canonical s.block := by
  unfold State.block
  exact h.onMe _

theorem nextCanonical_execRfence {s : State} (h : Canonical s) : NextCanonical (execRfence s) := by
  unfold Machine.execRfence
  refine .next ?_
  split
  · exact h.block
  · split
    · exact (h.clearRfail _).takeTrap _ _
    · exact ((h.raiseFence _ _ _ _ _).tickUid).fin _

theorem nextCanonical_execNop {s : State} (h : Canonical s) : NextCanonical (execNop s) := by
  unfold Machine.execNop
  exact .next (h.fin _)

theorem Canonical.tryBarrier {s : State} (h : Canonical s) (task : Nat) (j : Option Nat) : Canonical (s.tryBarrier task j) := by
  unfold State.tryBarrier
  extract_lets w ps
  split
  · exact canonical_foldl h (fun s' x h' => h'.onStrand _ _) _
  · exact h

theorem Canonical.barriers {s : State} (h : Canonical s) (r : Ref) : Canonical (s.barriers r) := by
  unfold State.barriers
  exact (h.tryBarrier _ _).tryBarrier _ _

theorem Canonical.clearErrs {s : State} (h : Canonical s) : Canonical s.clearErrs := by
  unfold State.clearErrs
  refine Canonical.onLcore ?_ _ fun _ h => h
  exact h.onMe _

theorem Canonical.raiseFirst {s : State} (h : Canonical s) {k : State → State} (hk : ∀ s, Canonical s → Canonical (k s)) :
    Canonical (s.raiseFirst k) := by
  unfold State.raiseFirst
  split
  · exact hk s h
  · split
    · exact h.clearErrs.takeTrap _ _
    · exact (h.clearRfail _).takeTrap _ _


theorem Canonical.freeRops {s : State} (h : Canonical s) (l : List Held) : Canonical (s.freeRops l) := by
  unfold State.freeRops
  exact h.same

theorem Canonical.commit {s : State} (h : Canonical s) (k : Nat) : Canonical (s.commit k) := by
  unfold State.commit
  extract_lets items
  split
  · exact (((h.onStrand _ _).freeRops _).tickUid).release _ _
  · exact h

theorem nextCanonical_execHalt {s : State} (h : Canonical s) : NextCanonical (execHalt s) := by
  unfold Machine.execHalt
  refine .next ?_
  extract_lets s1 at_ s2
  have hs1 : Canonical s1 := h.commit _
  have hs2 : Canonical s2 := by
    unfold s2
    split
    · exact (hs1.onMe _).tickUid
    · exact hs1
  split
  · exact hs2.block
  · refine Canonical.raiseFirst ?_ ?_
    · exact hs2.onMe _
    · intro s3 h1
      exact (h1.onMe _).barriers _

theorem Canonical.endTail {s : State} (h : Canonical s) : Canonical s.endTail := by
  unfold State.endTail
  extract_lets t lc s1
  have hs1 : Canonical s1 := by
    refine Canonical.onLcore ?_ _ fun _ h => h
    exact h
  exact hs1.onMe _

theorem Canonical.startQueued {s : State} (h : Canonical s) (lc : Nat) : Canonical (s.startQueued lc) := by
  unfold State.startQueued
  split
  · refine Canonical.startHandler ?_ _ _ _
    refine Canonical.onLcore ?_ _ fun _ h => h
    exact h
  · exact h

theorem nextCanonical_execTail {s : State} (h : Canonical s) : NextCanonical (execTail s) := by
  unfold Machine.execTail
  refine .next ?_
  extract_lets s1
  have hs1 : Canonical s1 := h.commit _
  split
  · exact hs1.block
  · exact (hs1.endTail.barriers _).startQueued _

theorem Canonical.finRestart {s : State} (h : Canonical s) (f : Strand → Strand) : Canonical (s.finRestart f) := by
  unfold State.finRestart
  exact (h.fin _).onMe _

theorem nextCanonical_execRegion {s : State} (h : Canonical s) : NextCanonical (execRegion s) := by
  unfold Machine.execRegion
  exact .next ((h.commit _).finRestart _)

theorem nextCanonical_execYield {s : State} (h : Canonical s) : NextCanonical (execYield s) := by
  unfold Machine.execYield
  exact .next (((h.commit _).finRestart _).onMe _)

theorem Canonical.checked {s : State} (h : Canonical s) (cls : BitVec 4) (c : Option Trap) {k : State → State}
    (hk : ∀ s, Canonical s → Canonical (k s)) : Canonical (s.checked cls c k) := by
  unfold State.checked
  split
  · exact h.takeTrap _ _
  · exact hk s h


theorem nextCanonical_execTret {s : State} (h : Canonical s) : NextCanonical (execTret s) := by
  unfold Machine.execTret
  refine .next ?_
  refine Canonical.checked ?_ _ _ ?_
  · exact h
  · intro s1 h1
    exact h1.onMe _

theorem nextCanonical_execEsync {s : State} (h : Canonical s) : NextCanonical (execEsync s) := by
  unfold Machine.execEsync
  refine .next ?_
  split
  · exact h.block
  · refine Canonical.raiseFirst ?_ ?_
    · exact h
    · intro s1 h1
      exact h1.fin _

theorem nextCanonical_execBarg {s : State} (h : Canonical s) : NextCanonical (execBarg s) := by
  unfold Machine.execBarg
  refine .next ?_
  refine Canonical.checked ?_ _ _ ?_
  · exact h
  · intro s1 h1
    split
    · exact h1.block
    · exact ((h1.onMe _).tickUid).tryBarrier _ _

theorem nextCanonical_execBarc {s : State} (h : Canonical s) : NextCanonical (execBarc s) := by
  unfold Machine.execBarc
  refine .next ?_
  refine Canonical.checked ?_ _ _ ?_
  · exact h
  · intro s1 h1
    split
    · exact h1.block
    · exact ((h1.onMe _).tickUid).tryBarrier _ _

theorem Canonical.goto {s : State} (h : Canonical s) (target : BitVec 53) (f : Strand → Strand) : Canonical (s.goto target f) := by
  unfold State.goto
  exact h.onMe _

theorem nextCanonical_execRet {s : State} (h : Canonical s) : NextCanonical (execRet s) := by
  unfold Machine.execRet
  refine .next ?_
  refine Canonical.checked ?_ _ _ ?_
  · exact h
  · intro s1 h1
    exact h1.goto _ _

theorem nextCanonical_execLinkTraining {s : State} (h : Canonical s) (link rate width : Nat) :
    NextCanonical (execLinkTraining link rate width s) := by
  unfold Machine.execLinkTraining
  refine .next ?_
  split
  · exact h
  · exact h.same

theorem Canonical.noteRetry {s : State} (h : Canonical s) (uid page : Nat) : Canonical (s.noteRetry uid page) := by
  unfold State.noteRetry
  exact h.same

theorem Canonical.faultDone {s : State} (h : Canonical s) (f : PFault) : Canonical (s.faultDone f) := by
  unfold State.faultDone
  extract_lets s1 s2
  have hs1 : Canonical s1 := h.same
  have hs2 : Canonical s2 := by
    refine canonical_foldl ?_ (fun s' x h' => ?_) _
    · exact hs1
    · split
      · exact h'.later _
      · exact h'.noteRetry _ _
      · exact h'
  exact hs2.retryAll

theorem Canonical.supGoes {s : State} (h : Canonical s) : Canonical s.supGoes := by
  unfold State.supGoes
  exact h.same

theorem Canonical.supSend {s : State} (h : Canonical s) (ep : Nat) (op : BitVec 8) (va : BitVec 56) (sub : BitVec 7) (data : List Byte) :
    Canonical (s.supSend ep op va sub data) := by
  unfold State.supSend
  exact canonical_getD (h) (h.request _ _ _ _ _)

theorem Canonical.armAnswer {s : State} (h : Canonical s) (p : Packet) (st : BitVec 7) : Canonical (s.armAnswer p st) := by
  unfold State.armAnswer
  exact h.supSend _ _ _ _ _

theorem Canonical.refuseArms {s : State} (h : Canonical s) (id : BitVec 32) (idx : Nat) : Canonical (s.refuseArms id idx) := by
  unfold State.refuseArms
  exact canonical_foldl (h.same) (fun s' x h' => h'.armAnswer _ _) _

theorem Canonical.dropLaunch {s : State} (h : Canonical s) (id : BitVec 32) (idx : Nat) : Canonical (s.dropLaunch id idx) := by
  unfold State.dropLaunch
  exact h.same

theorem Canonical.disarm {s : State} (h : Canonical s) (task : Nat) : Canonical (s.disarm task) := by
  unfold State.disarm
  exact h.same.dropLaunch _ _

theorem Canonical.undoLaunch {s : State} (h : Canonical s) (l : Launch) : Canonical (s.undoLaunch l) := by
  unfold State.undoLaunch
  split
  · split
    · exact h.disarm _
    · split
      · exact h.same.dropLaunch _ _
      · exact h
  · exact h.dropLaunch _ _

theorem Canonical.cancelVrs {s : State} (h : Canonical s) (p : Nat → Bool) : Canonical (s.cancelVrs p) := by
  refine canonical_foldl (Canonical.same (canonical_foldl h (fun s l h => ?_) _)) (fun s e h => h.stopTask _ _ _) _
  dsimp only
  split
  · exact (h.undoLaunch _).refuseArms _ _
  · exact h.undoLaunch _


theorem nextCanonical_execFunctionLevelReset {s : State} (h : Canonical s) (fn : Nat) : NextCanonical (execFunctionLevelReset fn s) := by
  unfold Machine.execFunctionLevelReset
  exact .next ((canonical_foldl ((h.cancelVrs _).onFn _ _) (fun s' x h' => h'.faultDone _) _).supGoes)

theorem Canonical.keepOlds {s : State} (h : Canonical s) (a n : Nat) : Canonical (s.keepOlds a n) := by
  unfold State.keepOlds
  exact h.same

theorem nextCanonical_execBar2Write {s : State} (h : Canonical s) (off : Nat) (bytes : List Byte) : NextCanonical (execBar2Write off bytes s) := by
  refine .next ?_
  dsimp only
  split
  · exact h
  · exact (h.keepOlds _ _).storing (Mem.wf_setBytes _ _ _ h.device)


theorem nextCanonical_execQHeadWrite {s : State} (h : Canonical s) (fn ring : Nat) (value : Word) :
    NextCanonical (execQHeadWrite fn ring value s) := by
  unfold Machine.execQHeadWrite
  refine .next ?_
  split
  · exact h
  · extract_lets s1
    have hs1 : Canonical s1 := h.onFn _ _
    split
    · exact hs1.drainReqs _ _
    · exact hs1

theorem nextCanonical_execQTailWrite {s : State} (h : Canonical s) (fn ring : Nat) (value : Word) :
    NextCanonical (execQTailWrite fn ring value s) := by
  refine .next ?_
  dsimp only
  split
  · exact h
  · exact (h.onFn _ _).same


theorem nextCanonical_execQBaseWrite {s : State} (h : Canonical s) (fn ring : Nat) (value : Word) :
    NextCanonical (execQBaseWrite fn ring value s) := by
  unfold Machine.execQBaseWrite
  refine .next ?_
  split
  · exact h
  · extract_lets s1
    have hs1 : Canonical s1 := h.onFn _ _
    split
    · exact hs1.drainReqs _ _
    · exact hs1

theorem nextCanonical_execMailboxRelease {s : State} (h : Canonical s) (fn n : Nat) : NextCanonical (execMailboxRelease fn n s) := by
  unfold Machine.execMailboxRelease
  refine .next ?_
  split
  · exact h.onMbx _ _ _
  · exact h

theorem nextCanonical_execMailboxPost {s : State} (h : Canonical s) (fn n : Nat) : NextCanonical (execMailboxPost fn n s) := by
  unfold Machine.execMailboxPost
  refine .next ?_
  split
  · exact h.onMbx _ _ _
  · exact h

theorem Canonical.announce {s : State} (h : Canonical s) (q : Nat) : Canonical (s.announce q) := (h.onPort _ _).same


theorem Canonical.unawait {s : State} (h : Canonical s) (u : Unacked) : Canonical (s.unawait u) := by
  unfold State.unawait
  exact h.same

theorem Canonical.pieceFailed {s : State} (h : Canonical s) (u : Unacked) (c : BitVec 8) : Canonical (s.pieceFailed u c) := by
  unfold State.pieceFailed
  exact (h.onRop _ _).finishRop _

theorem Canonical.lostPacket {s : State} (h : Canonical s) (u : Unacked) : Canonical (s.lostPacket u) := by
  unfold State.lostPacket
  split
  · exact h.later _
  · exact h.onVr _ _
  · exact h.later _
  · exact h.later _
  · exact h.later _
  · exact h.later _
  · exact h

theorem Canonical.outcomeUnknown {s : State} (h : Canonical s) (u : Unacked) : Canonical (s.outcomeUnknown u) := by
  unfold State.outcomeUnknown
  extract_lets s1
  have hs1 : Canonical s1 := h.unawait _
  split
  · exact hs1.lostPacket _
  · exact hs1.pieceFailed _ _

theorem Canonical.resend {s : State} (h : Canonical s) (u : Unacked) : Canonical (s.resend u) := by
  unfold State.resend
  extract_lets left
  split
  · exact h.outcomeUnknown _
  · split
    · exact h.outcomeUnknown _
    · exact ((Canonical.of_pair (h.sendFirst _ _ _) ‹_›).unawait _).same

theorem Canonical.portLost {s : State} (h : Canonical s) (q : Nat) : Canonical (s.portLost q) := by
  unfold State.portLost
  exact canonical_foldl (h.onPort _ _) (fun s' x h' => h'.resend _) _

theorem Canonical.changePort {s : State} (h : Canonical s) (q : Nat) (f : Port → Port) : Canonical (s.changePort q f) := by
  unfold State.changePort
  extract_lets s1
  have hs1 : Canonical s1 := h.onPort _ _
  split
  · exact hs1
  · split
    · exact hs1.portLost _
    · exact hs1.announce _

theorem nextCanonical_execRetrainEnd {s : State} (h : Canonical s) (port wave : Nat) (ok : Bool) : NextCanonical (execRetrainEnd port wave ok s) := by
  unfold Machine.execRetrainEnd
  refine .next ?_
  split
  · exact h
  · split
    · exact h.changePort _ _
    · extract_lets n
      split
      · exact h.changePort _ _
      · exact h.changePort _ _

theorem nextCanonical_execFecWindowEnd {s : State} (h : Canonical s) (port wave corrected : Nat) :
    NextCanonical (execFecWindowEnd port wave corrected s) := by
  unfold Machine.execFecWindowEnd
  refine .next ?_
  split
  · exact h
  · extract_lets thr s1
    have hs1 : Canonical s1 := h.onPort _ _
    split
    · exact hs1.changePort _ _
    · exact hs1

theorem nextCanonical_execLinkReplay {s : State} (h : Canonical s) (port : Nat) (lseq : BitVec 16) : NextCanonical (execLinkReplay port lseq s) := by
  unfold Machine.execLinkReplay
  refine .next ?_
  extract_lets p n
  split
  · exact h
  · exact canonical_foldl (h.same) (fun s' x h' => h'.chargeFlit _ _) _

theorem Canonical.portDies {s : State} (h : Canonical s) (q : Nat) : Canonical (s.portDies q) := by
  unfold State.portDies
  exact (h.onPort _ _).portLost _

theorem Canonical.flitFails {s : State} (h : Canonical s) (q wave : Nat) (bs : List Byte) : Canonical (s.flitFails q wave bs) := by
  unfold State.flitFails
  extract_lets lseq s1
  have hs1 : Canonical s1 := h.onPort _ _
  split
  · exact hs1.portDies _
  · exact hs1.same

theorem Canonical.deliver {s : State} (h : Canonical s) (q h0 : Nat) (bs : List Byte) (rem : Nat) : Canonical (s.deliver q h0 bs rem) := by
  unfold State.deliver
  extract_lets drop
  have hdrop : Canonical drop := h.same
  split
  · exact hdrop
  · extract_lets p
    split
    · split
      · exact h.later _
      · exact hdrop
    · split
      · split
        · exact h.transmit _ _ _ _
        · exact hdrop
      · exact hdrop

theorem Canonical.chargeIn {s : State} (h : Canonical s) (b : List Byte) : Canonical (s.chargeIn b) := by
  unfold State.chargeIn
  exact h.charge _ _

theorem Canonical.flitJoins {s : State} (h : Canonical s) (q h0 : Nat) (first : Bool) (payload : List Byte) :
    Canonical (s.flitJoins q h0 first payload) := by
  have keep {s : State} (h : Canonical s) (b : List Byte) :
      Canonical (s.onPort q fun p => { p with parts := sset [] p.parts (bitsOf h0 28 2) b }) := h.onPort _ _
  have take {s : State} (h : Canonical s) (b : List Byte) :
      Canonical (if bitsOf (ofLeBytes (b.take 8)) 44 12 = s.endpoint.toNat then s.chargeIn b else s) := by
    split
    · exact h.chargeIn _
    · exact h
  unfold State.flitJoins
  extract_lets vc rem old keep' lose take'
  have hl {s : State} (h : Canonical s) : Canonical (lose s) := (keep h _).same
  have ht {s : State} (h : Canonical s) (b : List Byte) : Canonical (take' s b) := by
    simp only [take']
    split
    · exact (keep (take h b) _).deliver _ _ _ _
    · exact keep (take h b) _
  split
  · split
    · exact ht h _
    · exact ht (hl h) _
  · split
    · exact hl h
    · exact ht h _


theorem Canonical.linkAck {s : State} (h : Canonical s) (q : Nat) (ack : BitVec 16) : Canonical (s.linkAck q ack) := by
  unfold State.linkAck
  dsimp only
  split
  · exact h
  · exact (h.onPort _ _).same


theorem Canonical.flitGood {s : State} (h : Canonical s) (q wave : Nat) (bs : List Byte) : Canonical (s.flitGood q wave bs) := by
  unfold State.flitGood
  extract_lets h0 h1 ok s1 s2 lseq rx s3
  have hs1 : Canonical s1 := h.onPort _ _
  have hs2 : Canonical s2 := by
    unfold s2
    split
    · exact hs1.linkAck _ _
    · exact hs1
  have hs3 : Canonical s3 := hs2.onPort _ _
  split
  · split
    · exact hs3.onPort _ _
    · split
      · exact hs3.flitJoins _ _ _ _
      · exact hs3.flitJoins _ _ _ _
      · split
        · exact hs3.onPort _ _
        · exact hs3
      · exact hs3
  · split
    · exact hs2.same
    · exact hs2


theorem nextCanonical_execFlitReceive {s : State} (h : Canonical s) (port wave : Nat) (bytes : List Byte) :
    NextCanonical (execFlitReceive port wave bytes s) := by
  unfold Machine.execFlitReceive
  refine .next ?_
  split
  · exact h
  · split
    · exact h.flitGood _ _ _
    · exact h.flitFails _ _ _

theorem Canonical.refuse {s : State} (h : Canonical s) (code index : Nat) : Canonical (s.refuse code index) := by
  unfold State.refuse
  exact h.same

theorem Canonical.routeWrite {s : State} (h : Canonical s) (ep : Nat) (value : Word) : Canonical (s.routeWrite ep value) := by
  unfold State.routeWrite
  exact canonical_foldl (h.same) (fun s' x h' => h'.portLost _) _

theorem nextCanonical_execRegisterWrite {s : State} (h : Canonical s) (reg : SupReg) (value : Word) :
    NextCanonical (execRegisterWrite reg value s) := by
  unfold Machine.execRegisterWrite
  refine .next ?_
  split
  · exact h.onPort _ _
  · exact h.same
  · exact h.routeWrite _ _
  · exact h.onFn _ _
  · extract_lets p
    split
    · exact h.refuse _ _
    · exact h.same
  · split
    · exact h.same
    · exact h
  · exact h.onFn _ _
  · exact h.onFn _ _
  · exact h.onVr _ _
  · exact h
  · exact h

theorem nextCanonical_execFabPortstatWrite {s : State} (h : Canonical s) (port : Nat) (value : Word) :
    NextCanonical (execFabPortstatWrite port value s) := by
  unfold Machine.execFabPortstatWrite
  exact .next (h.changePort _ _)

theorem Canonical.triggerSnap {s : State} (h : Canonical s) (id : BitVec 16) : Canonical (s.triggerSnap id) := by
  unfold State.triggerSnap
  exact h.same

theorem nextCanonical_execSchedSnapWrite {s : State} (h : Canonical s) (value : Word) : NextCanonical (execSchedSnapWrite value s) := by
  unfold Machine.execSchedSnapWrite
  exact .next (h.same.triggerSnap _)

theorem nextCanonical_execDetmodeWrite {s : State} (h : Canonical s) (value : Word) : NextCanonical (execDetmodeWrite value s) := by
  unfold Machine.execDetmodeWrite
  refine .next ?_
  split
  · exact h.refuse _ _
  · exact h.same

theorem Canonical.partWrite {s : State} (h : Canonical s) (fn : Nat) (r : PartReg) (v : Word) : Canonical (s.partWrite fn r v).1 := by
  unfold State.partWrite
  split
  · exact h
  · split
    · exact h.refuse _ _
    · exact h.onFn _ _

theorem nextCanonical_execPartitionWrite {s : State} (h : Canonical s) (fn : Nat) (reg : PartReg) (value : Word) :
    NextCanonical (execPartitionWrite fn reg value s) := by
  unfold Machine.execPartitionWrite
  exact .next (h.partWrite _ _ _)

theorem Canonical.onTask {s : State} (h : Canonical s) (n : Nat) (f : Machine.Task → Machine.Task) : Canonical (s.onTask n f) := by
  unfold State.onTask
  exact h.same

theorem Canonical.slotWrite {s : State} (h : Canonical s) (i : Nat) (value : BitVec 192) : Canonical (s.slotWrite i value).1 := by
  unfold State.slotWrite
  split
  · split
    · exact h.refuse _ _
    · exact h.same
  · split
    · split
      · exact h.refuse _ _
      · exact h.onTask _ _
    · exact h

theorem nextCanonical_execSlotTableWrite {s : State} (h : Canonical s) (index : Nat) (value : BitVec 192) :
    NextCanonical (execSlotTableWrite index value s) := by
  unfold Machine.execSlotTableWrite
  exact .next (h.slotWrite _ _)

theorem Canonical.faultRefused {s : State} (h : Canonical s) (f : PFault) : Canonical (s.faultRefused f) := by
  unfold State.faultRefused
  exact h.same.retryAll

theorem Canonical.pullFails {s : State} (h : Canonical s) (vr page : Nat) : Canonical (s.pullFails vr page) := by
  unfold State.pullFails
  extract_lets s1
  have hs1 : Canonical s1 := h.onVr _ _
  split
  · exact hs1.faultRefused _
  · exact hs1

theorem Canonical.dropPage {s : State} (h : Canonical s) (vr page : Nat) : Canonical (s.dropPage vr page) := by
  unfold State.dropPage
  exact h.keepTlb _

theorem Canonical.pullLands {s : State} (h : Canonical s) (v : Vr) (vr page pa addr : Nat) (f : Found) (bs : List Byte) :
    Canonical (s.pullLands v vr page pa addr f bs) := by
  unfold State.pullLands
  extract_lets e s1 s2 s3 s4 ack
  have hs1 : Canonical s1 := h.chargeMem _ _ _ _ _
  have hs2 : Canonical s2 := (hs1.storing (Mem.wf_write _ _ _ _ (Mem.wf_setBytes _ _ _ (Canonical.device (hs1))))).dropPage _ _
  have hs3 : Canonical s3 := hs2.onVr _ _
  have hs4 : Canonical s4 := by
    unfold s4
    split
    · exact hs3.faultDone _
    · exact hs3
  exact canonical_getD (hs4) (hs4.request _ _ _ _ _)

theorem Canonical.pullOn {s : State} (h : Canonical s) (vr k : Nat) : Canonical (State.pullOn vr k s) := by
  induction k generalizing s with
  | zero => exact h
  | succ k ih =>
    unfold State.pullOn
    split
    · exact h
    · split
      · split
        · exact h
        · exact ih ((h.enterFault _ _ _ _ _ _ _ _).onVr _ _)
      · exact h


theorem Canonical.takeFree {s : State} (h : Canonical s) (fn : Nat) : Canonical (s.takeFree fn).1 := by
  unfold State.takeFree
  split
  exact h.onFn _ _

theorem Canonical.takeLp {s : State} (h : Canonical s) (fn : Nat) : ∀ t ∈ s.takeLp fn, Canonical t.1 := by
  intro t ht
  rw [State.takeLp_eq] at ht
  obtain ⟨pa, -, hpa⟩ := Option.bind_eq_some_iff.mp ht
  split at hpa
  · exact Option.some.inj hpa ▸ h.onFn _ _
  · cases hpa


/-- Stated for any function equal to `State.takeLp?`: the kernel would evaluate `takeLp?` under a projection. -/
theorem canonical_takeLp? {fn : Nat} {take : State → State × Option Nat}
    (ht : ∀ s, take s = (s.takeLp fn).elim (s, none) fun x => (x.1, some x.2)) {s : State} (h : Canonical s) : Canonical (take s).1 := by
  rw [ht s]
  have hl := h.takeLp fn
  generalize s.takeLp fn = o at hl
  cases o with
  | none => exact h
  | some x => exact hl x rfl


theorem Canonical.restage {s : State} (h : Canonical s) (fn : Nat) (l : Leaf) (pa old : Nat) : Canonical (s.restage fn l pa old) := by
  unfold State.restage
  exact (h.storing (Mem.wf_write _ _ _ _ (Canonical.device (h)))).onFn _ _

theorem Canonical.keepIpa {s : State} (h : Canonical s) (v : Vr) : Canonical (s.keepIpa v) := by
  unfold State.keepIpa
  split
  · exact h
  · exact h.same

theorem Canonical.splitLeaf {s : State} (h : Canonical s) (l : Leaf) (node : Nat) : Canonical (s.splitLeaf l node) := by
  unfold State.splitLeaf
  exact h.storing (Mem.wf_write _ _ _ _ (Mem.wf_setBytes _ _ _ (Canonical.device (h))))

theorem Canonical.smallLeaf {s : State} (h : Canonical s) (fn ipa : Nat) {take : State → State × Option Nat}
    (htake : ∀ s, Canonical s → Canonical (take s).1) (k : Nat) : Canonical (State.smallLeaf fn ipa take k s).1 := by
  induction k generalizing s with
  | zero => exact h
  | succ k ih =>
    unfold State.smallLeaf
    split
    · exact h
    · split
      · exact h
      · split
        · exact ih (((htake s h).of_eq ‹_›).splitLeaf _ _)
        · exact (htake s h).of_eq ‹_›


theorem Canonical.supMiss {s : State} (h : Canonical s) (v : Vr) (vr va ipa : Nat) (rd : Bool) : Canonical (s.supMiss v vr va ipa rd) := by
  unfold State.supMiss
  extract_lets page s1
  have hs1 : Canonical s1 := by
    unfold s1
    split
    · exact h
    · exact h.same
  exact hs1.pageRequest _ _

theorem Canonical.supAddr {s : State} (h : Canonical s) (v : Vr) (vr va a : Nat) (rd : Bool) : Canonical (s.supAddr v vr va a rd).1 := by
  unfold State.supAddr
  split
  · exact h
  · extract_lets f
    split
    · split
      · exact h.storing (wf_setAD _ _ _ (Canonical.device (h)))
      · exact h
    · split
      · exact h
      · exact h.supMiss _ _ _ _ _
    · exact h

theorem Canonical.takeHbm {s : State} (h : Canonical s) (fn : Nat) : ∀ t ∈ s.takeHbm fn, Canonical t.1 := by
  intro t ht
  obtain ⟨pa, -, rfl⟩ := Option.mem_map.mp ht
  exact h.onFn _ _


theorem Canonical.newPage {s : State} (h : Canonical s) (v : Vr) : ∀ t ∈ s.newPage v, Canonical t.1 := by
  intro t ht
  simp only [State.newPage, Option.mem_def] at ht
  split at ht
  · obtain ⟨x, hx, rfl⟩ := Option.map_eq_some_iff.mp ht
    split at hx
    · exact h.takeLp 0 x hx
    · exact h.takeHbm 0 x hx
  · split at ht
    · exact Option.some.inj ht ▸ h
    · cases ht


theorem Canonical.pullAt {s : State} (h : Canonical s) (v : Vr) (vr va : Nat) {take : State → State × Option Nat}
    (htake : ∀ s, Canonical s → Canonical (take s).1) : Canonical (s.pullAt v vr va take).1 := by
  unfold State.pullAt
  split
  · split <;> exact (htake s h).of_eq ‹_›
  · cases hn : s.newPage v with
    | none => exact h
    | some x =>
      obtain ⟨s1, v1, ipa⟩ := x
      have h2 := (h.newPage v _ hn : Canonical s1).supAddr v1 vr va ipa false
      dsimp only
      split
      · exact h2.of_eq ‹_›
      · split
        · exact h2.of_eq ‹_›
        · exact (h2.of_eq ‹_›).same
      · have h3 := (h2.of_eq ‹_›).smallLeaf v.fn ipa htake 3
        split
        · exact h3.of_eq ‹_›
        · exact h3.of_eq ‹_›
        · have h4 := htake _ (h3.of_eq ‹_›)
          split
          · exact ((h4.of_eq ‹_›).restage _ _ _ _).keepIpa _
          · exact h4.of_eq ‹_›


theorem Canonical.pullAtLp {s : State} (h : Canonical s) (v : Vr) (vr va fn : Nat) :
    Canonical (s.pullAt v vr va fun s => s.takeLp? fn).1 :=
  h.pullAt v vr va fun _ h => canonical_takeLp? (fun s => congrFun (congrFun State.takeLp?_eq s) fn) h

theorem Canonical.pullPlace {s : State} (h : Canonical s) (v : Vr) (vr va : Nat) : Canonical (s.pullPlace v vr va).1 := by
  unfold State.pullPlace
  split
  · split
    · exact h
    · exact h.pullAtLp _ _ _ _
  · exact h.pullAt _ _ _ fun _ h => h.takeFree _


theorem Canonical.landPull {s : State} (h : Canonical s) (vr page : Nat) : Canonical (s.landPull vr page) := by
  unfold State.landPull
  split
  · exact h
  · split
    · split
      · exact h.onVr _ _
      · split
        · exact (((h.pullPlace _ _ _).of_eq ‹_›).pullLands _ _ _ _ _ _ _).pullOn _ _
        · exact ((h.pullPlace _ _ _).of_eq ‹_›).pullFails _ _
        · exact (h.pullPlace _ _ _).of_eq ‹_›
    · exact h

theorem Canonical.landPulls {s : State} (h : Canonical s) : Canonical s.landPulls := by
  unfold State.landPulls
  exact canonical_foldl h (fun s' x h' => h'.landPull _ _) _

theorem Canonical.promoteAgain {s : State} (h : Canonical s) (fn : Nat) : Canonical (s.promoteAgain fn) := by
  unfold State.promoteAgain
  exact h.same

theorem Canonical.rewriteLeaf {s : State} (h : Canonical s) (vr page : Nat) (l : Leaf) (pa tier : Nat) :
    Canonical (s.rewriteLeaf vr page l pa tier) := by
  unfold State.rewriteLeaf
  exact (h.storing (Mem.wf_write _ _ _ _ (Canonical.device (h)))).dropPage _ _

theorem Canonical.promoteInPlace {s : State} (h : Canonical s) (f : PFault) : Canonical (s.promoteInPlace f) := by
  unfold State.promoteInPlace
  split
  · exact h.faultDone _
  · exact (h.rewriteLeaf _ _ _ _ _).faultDone _

theorem Canonical.withoutPages {s : State} (h : Canonical s) (fn : Nat) : Canonical (s.withoutPages fn) := by
  unfold State.withoutPages
  refine canonical_foldl (canonical_foldl h (fun _ _ h => h.promoteInPlace _) _) (fun s x h => ?_) _
  split
  · exact h
  · rename_i v _
    split
    · exact h
    · split
      · split
        · exact h
        · split
          · exact h.pullFails _ _
          · have hp := h.pullAtLp v x.1 (x.2 * 65536) fn
            split
            · exact ((hp.of_eq ‹_›).pullLands _ _ _ _ _ _ _).pullOn _ _
            · exact (hp.of_eq ‹_›).pullFails _ _
            · exact hp.of_eq ‹_›
      · exact h


theorem Canonical.copyPage {s : State} (h : Canonical s) (vr src dst : Nat) : Canonical (s.copyPage vr src dst) := by
  unfold State.copyPage
  exact ((h.chargeMem _ _ _ _ _).chargeMem _ _ _ _ _).storing (Mem.wf_setBytes _ _ _ (Canonical.device ((h.chargeMem _ _ _ _ _).chargeMem _ _ _ _ _)))

theorem Canonical.toLp {s : State} (h : Canonical s) (fn tier : Nat) (c : Nat × Nat × Leaf × Nat) : Canonical (s.toLp fn tier c) := by
  rw [State.toLp_eq]
  beta_reduce
  cases hl : s.takeLp fn with
  | none => exact h
  | some x => exact (((h.takeLp fn x hl).copyPage _ _ _).rewriteLeaf _ _ _ _ _).onFn _ _


theorem Canonical.demote {s : State} (h : Canonical s) (fn : Nat) (c : Nat × Nat × Leaf × Nat) : Canonical (s.demote fn c) := by
  unfold State.demote
  exact h.toLp _ _ _

theorem Canonical.refillRing {s : State} (h : Canonical s) (fn : Nat) (pages : List Word) : Canonical (s.refillRing fn pages) := by
  unfold State.refillRing
  split
  · exact h
  · extract_lets s1
    have hs1 : Canonical s1 := h.onFn _ _
    split
    · exact canonical_foldl (hs1) (fun s' x h' => h'.demote _ _) _
    · exact hs1

theorem nextCanonical_execFreePageRingRefill {s : State} (h : Canonical s) (fn : Nat) (pages : List Word) :
    NextCanonical (execFreePageRingRefill fn pages s) := by
  unfold Machine.execFreePageRingRefill
  refine .next ?_
  extract_lets s1
  have hs1 : Canonical s1 := h.refillRing _ _
  split
  · exact hs1.withoutPages _
  · exact hs1.landPulls.promoteAgain _

theorem nextCanonical_execBankWakeEnd {s : State} (h : Canonical s) (bank : BankId) : NextCanonical (execBankWakeEnd bank s) := by
  unfold Machine.execBankWakeEnd
  refine .next ?_
  split
  · exact h.onCore _ _
  · exact h.same

theorem Canonical.onMessage {s : State} (h : Canonical s) (fn n : Nat) {f : List Byte → State × Nat × List Byte}
    (hf : ∀ p, Canonical (f p).1) : Canonical (s.onMessage fn n f) := by
  unfold State.onMessage
  split
  · exact h
  · exact (hf _).mbxReply _ _ _ _


theorem nextCanonical_execLocations {s : State} (h : Canonical s) (fn n : Nat) : NextCanonical (execLocations fn n s) := by
  unfold Machine.execLocations
  refine .next ?_
  refine Canonical.onMessage ?_ _ _ ?_
  · exact h
  · intro p
    extract_lets k es
    split
    · exact h
    · exact h.same

theorem nextCanonical_execPartition {s : State} (h : Canonical s) (fn n : Nat) : NextCanonical (execPartition fn n s) := by
  unfold Machine.execPartition
  refine .next ?_
  refine Canonical.onMessage ?_ _ _ ?_
  · exact h
  · intro p
    split
    · split
      · exact h
      · split
        · exact (h.partWrite _ _ _).of_eq ‹_›
        · exact (h.partWrite _ _ _).of_eq ‹_›
    · exact h

theorem nextCanonical_execWindow {s : State} (h : Canonical s) (fn n : Nat) : NextCanonical (execWindow fn n s) := by
  unfold Machine.execWindow
  refine .next ?_
  refine Canonical.onMessage ?_ _ _ ?_
  · exact h
  · intro p
    split
    · exact h
    · exact h.same

theorem nextCanonical_execImage {s : State} (h : Canonical s) (fn n : Nat) : NextCanonical (execImage fn n s) := by
  have hu (u : Sup) : Canonical { s with sup := u } := h.same
  refine .next (h.onMessage _ _ fun p => ?_)
  split
  · exact h
  · extract_lets
    split
    · exact h
    · split
      · exact hu _
      · split
        · exact hu _
        · exact hu _


theorem nextCanonical_execIdentity {s : State} (h : Canonical s) (fn n : Nat) : NextCanonical (execIdentity fn n s) := by
  unfold Machine.execIdentity
  refine .next ?_
  refine Canonical.onMessage ?_ _ _ ?_
  · exact h
  · intro p
    split
    · exact h
    · exact h

theorem nextCanonical_execQuote {s : State} (h : Canonical s) (fn n : Nat) : NextCanonical (execQuote fn n s) := by
  unfold Machine.execQuote
  refine .next ?_
  refine Canonical.onMessage ?_ _ _ ?_
  · exact h
  · intro p
    split
    · exact h
    · exact h.same

theorem nextCanonical_execVrStatus {s : State} (h : Canonical s) (fn n : Nat) : NextCanonical (execVrStatus fn n s) := by
  unfold Machine.execVrStatus
  refine .next ?_
  refine Canonical.onMessage ?_ _ _ ?_
  · exact h
  · intro p
    split
    · exact h
    · split
      · exact h
      · exact h

theorem nextCanonical_execPeerTokens {s : State} (h : Canonical s) (fn n : Nat) : NextCanonical (execPeerTokens fn n s) := by
  unfold Machine.execPeerTokens
  refine .next ?_
  refine Canonical.onMessage ?_ _ _ ?_
  · exact h
  · intro p
    extract_lets k es
    split
    · exact h
    · split
      · exact h
      · exact h.onVr _ _

theorem Canonical.beginMove {s : State} (h : Canonical s) (v : Vr) (vr ep w : Nat) : Canonical (s.beginMove v vr ep w) :=
  (h.onVr _ _).same


theorem nextCanonical_execMigrate {s : State} (h : Canonical s) (fn n : Nat) : NextCanonical (execMigrate fn n s) := by
  unfold Machine.execMigrate
  refine .next ?_
  refine Canonical.onMessage ?_ _ _ ?_
  · exact h
  · intro p
    split
    · exact h
    · split
      · exact h
      · split
        · exact h.beginMove _ _ _ _
        · exact h

theorem nextCanonical_execCancel {s : State} (h : Canonical s) (fn n : Nat) : NextCanonical (execCancel fn n s) := by
  refine .next (h.onMessage _ _ fun p => ?_)
  split
  · exact h
  · split
    · exact h
    · dsimp only
      exact h.cancelVrs _


theorem Canonical.forgetLaunch {s : State} (h : Canonical s) (id : BitVec 32) : Canonical (s.forgetLaunch id) := by
  unfold State.forgetLaunch
  split
  · exact h
  · exact h.same

theorem nextCanonical_execLaunch {s : State} (h : Canonical s) (fn n : Nat) : NextCanonical (execLaunch fn n s) := by
  unfold Machine.execLaunch
  refine .next ?_
  refine Canonical.onMessage ?_ _ _ ?_
  · exact h
  · intro p
    split
    · exact h
    · split
      · exact h
      · split
        · exact h
        · exact (h.forgetLaunch _).same

theorem Canonical.chill {s : State} (h : Canonical s) (vr : Nat) : ∀ t ∈ s.chill vr, Canonical t := by
  intro t ht
  obtain ⟨v, -, hv⟩ := Option.bind_eq_some_iff.mp ht
  dsimp only at hv
  split at hv
  · cases hv
  · exact Option.some.inj hv ▸ (canonical_foldl h (fun s c h => h.toLp _ _ _) _).onVr _ _


theorem Canonical.coolNew {s : State} (h : Canonical s) (vr : Nat) (cold : Bool) : ∀ t ∈ s.coolNew vr cold, Canonical t := by
  unfold State.coolNew
  split
  · exact h.chill vr
  · exact fun t ht => Option.some.inj ht ▸ h


theorem Canonical.supFill {s : State} (h : Canonical s) (v : Vr) (vr va page : Nat) (bs : List Byte) : Canonical (s.supFill v vr va page bs).1 := by
  unfold State.supFill
  split
  · exact ((h.supAddr _ _ _ _ _).of_eq ‹_›).storing (Mem.wf_setBytes _ _ _ (Mem.wf_wipe _ _ (Canonical.device ((h.supAddr _ _ _ _ _).of_eq ‹_›))))
  · exact (h.supAddr _ _ _ _ _).of_eq ‹_›
  · exact (h.supAddr _ _ _ _ _).of_eq ‹_›

theorem Canonical.newRoot {s : State} (h : Canonical s) (v : Vr) (vr : Nat) : Canonical (s.newRoot v vr).1 := by
  unfold State.newRoot
  split
  · exact h
  · split
    · exact ((Canonical.of_pair (h.newPage _) ‹_›).supFill _ _ _ _ _).of_eq ‹_›
    · exact ((Canonical.of_pair (h.newPage _) ‹_›).supFill _ _ _ _ _).of_eq ‹_›
    · exact ((Canonical.of_pair (h.newPage _) ‹_›).supFill _ _ _ _ _).of_eq ‹_›

theorem Canonical.supEntry {s : State} (h : Canonical s) (v : Vr) (vr va at_ e : Nat) : Canonical (s.supEntry v vr va at_ e).1 := by
  unfold State.supEntry
  split
  · exact ((h.supAddr _ _ _ _ _).of_eq ‹_›).storing (Mem.wf_write _ _ _ _ (Canonical.device ((h.supAddr _ _ _ _ _).of_eq ‹_›)))
  · exact (h.supAddr _ _ _ _ _).of_eq ‹_›
  · exact (h.supAddr _ _ _ _ _).of_eq ‹_›

theorem Canonical.mapFrom {s : State} (h : Canonical s) (vr va e k : Nat) (v : Vr) (node : Nat) : Canonical (State.mapFrom vr va e k s v node).1 := by
  induction k generalizing s v node with
  | zero =>
    unfold State.mapFrom
    have he := h.supEntry v vr va (node + 8 * (va / 2 ^ 16 % 1024)) e
    split <;> exact he.of_eq ‹_›
  | succ k ih =>
    unfold State.mapFrom
    have ha := h.supAddr v vr va (node + 8 * (va / 2 ^ (16 + 10 * (k + 1)) % 1024)) true
    dsimp only
    split
    · exact ha.of_eq ‹_›
    · exact ha.of_eq ‹_›
    · next s1 pa _ =>
      have h1 : Canonical s1 := ha.of_eq ‹_›
      split
      · exact ih h1 _ _
      · cases hn : s1.newPage v with
        | none => exact h1
        | some x =>
          obtain ⟨s2, v2, n⟩ := x
          have hf := (h1.newPage v _ hn : Canonical s2).supFill v2 vr va n []
          dsimp only
          split
          · exact hf.of_eq ‹_›
          · exact hf.of_eq ‹_›
          · have he := (hf.of_eq ‹_›).supEntry v2 vr va (node + 8 * (va / 2 ^ (16 + 10 * (k + 1)) % 1024)) (n + 3)
            split
            · exact he.of_eq ‹_›
            · exact he.of_eq ‹_›
            · exact ih (he.of_eq ‹_›) _ _


theorem Canonical.placePage {s : State} (h : Canonical s) (v : Vr) (vr va bits : Nat) (bs : List Byte) :
    Canonical (s.placePage v vr va bits bs).1 := by
  unfold State.placePage
  split
  · exact h
  · split
    · exact ((Canonical.of_pair (h.newPage _) ‹_›).supFill _ _ _ _ _).of_eq ‹_›
    · exact ((Canonical.of_pair (h.newPage _) ‹_›).supFill _ _ _ _ _).of_eq ‹_›
    · exact (((Canonical.of_pair (h.newPage _) ‹_›).supFill _ _ _ _ _).of_eq ‹_›).mapFrom _ _ _ _ _ _

theorem Canonical.placePages {s : State} (h : Canonical s) (v : Vr) (vr : Nat) : Canonical (s.placePages v vr).1 := by
  refine canonical_foldl_pair (h.newRoot v vr) (fun r g hr => ?_) _
  split
  · exact Canonical.placePage hr _ _ _ _ _
  · exact hr


theorem Canonical.createVrs {s : State} (h : Canonical s) (fn : Nat) (im : Image) (ipaEnd k ipa : Nat) (ids : List Nat) :
    Canonical (State.createVrs fn im ipaEnd k s ipa ids).1 := by
  induction k generalizing s ipa ids with
  | zero => exact h
  | succ k ih =>
    unfold State.createVrs
    extract_lets vr v1 v0
    split
    · exact h
    · have hp := h.placePages v0 vr
      split
      · rename_i s1 v e
        extract_lets s3 s2
        have h1 : Canonical s1 := hp.of_eq e
        have h2 : Canonical s2 := (h1.settle (.sup vr)).same
        split
        · exact ih ((h2.coolNew _ _ _ ‹_›).keepIpa _) _ _
        · exact h2
      · exact hp.of_eq ‹_›
      · exact hp.of_eq ‹_›


theorem nextCanonical_execCreateVr {s : State} (h : Canonical s) (fn n : Nat) : NextCanonical (execCreateVr fn n s) := by
  unfold Machine.execCreateVr
  refine .next ?_
  extract_lets m p
  split
  split
  · exact h
  · split
    · split
      · exact h.mbxReply _ _ _ _
      · split
        · exact h.mbxReply _ _ _ _
        · split
          · exact ((h.createVrs _ _ _ _ _ _).of_eq ‹_›).mbxReply _ _ _ _
          · exact (h.settle _).mbxReply _ _ _ _
          · exact ((h.createVrs _ _ _ _ _ _).of_eq ‹_›).same
    · split
      · exact h.mbxReply _ _ _ _
      · split
        · exact h.mbxReply _ _ _ _
        · split
          · exact ((h.createVrs _ _ _ _ _ _).of_eq ‹_›).mbxReply _ _ _ _
          · exact (h.settle _).mbxReply _ _ _ _
          · exact ((h.createVrs _ _ _ _ _ _).of_eq ‹_›).same

theorem Canonical.onSupWin {s : State} (h : Canonical s) (src : Nat) (f : SrcWin → SrcWin) : Canonical (s.onSupWin src f) := by
  unfold State.onSupWin
  exact h.same

theorem Canonical.loseColl {s : State} (h : Canonical s) (lc : Nat) : Canonical (s.loseColl lc) := by
  unfold State.loseColl
  extract_lets core mine
  refine Canonical.onCore ?_ _ _
  refine Canonical.onLcore ?_ _ fun _ h => h
  exact h

theorem Canonical.doLost {s : State} (h : Canonical s) (p : Packet) : Canonical (s.doLost p) := by
  refine Canonical.later ?_ _
  have hl (l : List (Nat × Task)) : Canonical (l.foldl (fun (s : State) e =>
      (s.lcsOf e.1).foldl (fun (s : State) lc => s.loseColl lc) (s.onTask e.1 fun t => { t with lost := true })) s) :=
    canonical_foldl h (fun s e h => canonical_foldl (h.onTask _ _) (fun s lc h => h.loseColl lc) _) l
  split
  · exact hl _
  · exact (hl _).same


theorem Canonical.doAbort {s : State} (h : Canonical s) (p : Packet) : Canonical (s.doAbort p) := by
  unfold State.doAbort
  exact canonical_foldl (h.same) (fun s' x h' => h'.undoLaunch _) _

theorem Canonical.startStrand {s : State} (h : Canonical s) (im : Image) (x : Nat × Nat × EntryDecl) : Canonical (s.startStrand im x) := by
  unfold State.startStrand
  exact (h.onStrand _ _).tickUid

theorem Canonical.prepareCore {s : State} (h : Canonical s) (task core : Nat) : Canonical (s.prepareCore task core) := by
  unfold State.prepareCore
  exact h.onCore _ _

theorem Canonical.startGang {s : State} (h : Canonical s) (task : Nat) (template : Option Nat) : Canonical (s.startGang task template) := by
  unfold State.startGang
  dsimp only
  split
  · exact h
  · refine Canonical.onTask (Canonical.tickUid (canonical_foldl (canonical_foldl (Canonical.same (canonical_foldl h ?_ _)) ?_ _) ?_ _)) _ _
    · exact fun s lc h => ⟨h.device, h.host, h.weights, forall_sset (P := fun l : LCore => Mem.wf l.sp = true) h.scratch rfl _⟩
    · exact fun s c h => h.prepareCore _ _
    · exact fun s x h => h.startStrand _ _


theorem Canonical.doGo {s : State} (h : Canonical s) (p : Packet) : Canonical (s.doGo p) := by
  unfold State.doGo
  split
  · exact h.startGang _ _
  · exact h.supSend _ _ _ _ _

theorem Canonical.toMembers {s : State} (h : Canonical s) (members : List (Nat × Nat)) (op : BitVec 8) (id : BitVec 32) :
    Canonical (s.toMembers members op id) := by
  unfold State.toMembers
  exact canonical_foldl h (fun s' x h' => h'.supSend _ _ _ _ _) _

theorem Canonical.armResult {s : State} (h : Canonical s) (id : BitVec 32) (r : Nat) : Canonical (s.armResult id r) := by
  unfold State.armResult
  split
  · exact h
  · refine Canonical.supGoes ?_
    split
    · exact h.same
    · exact h.same.toMembers _ _ _


theorem Canonical.doArmReply {s : State} (h : Canonical s) (p : Packet) : Canonical (s.doArmReply p) := by
  unfold State.doArmReply
  extract_lets id
  split
  · exact h
  · extract_lets rs s1
    have hs1 : Canonical s1 := h.same
    split
    · exact hs1.armResult _ _
    · split
      · exact hs1.armResult _ _
      · exact hs1

theorem Canonical.invalidate {s : State} (h : Canonical s) (names : Tlb → Bool) : Canonical (s.invalidate names) := by
  unfold State.invalidate
  exact h.keepTlb _

theorem Canonical.bindAll {s : State} (h : Canonical s) (bs : List (Nat × Word)) : Canonical (s.bindAll bs).1 := by
  unfold State.bindAll
  dsimp only
  split
  · refine canonical_foldl_pair h (fun r b hr => ?_) _
    split
    · exact Canonical.slotWrite hr _ _
    · exact hr
  · exact h.same


theorem Canonical.armTask {s : State} (h : Canonical s) (l : Launch) (task : Nat) : Canonical (s.armTask l task).1 := by
  unfold State.armTask
  extract_lets resident
  split
  · exact h
  · split
    · exact h
    · split
      · exact h
      · split
        · exact (h.bindAll _).of_eq ‹_›
        · split
          · exact (((h.bindAll _).of_eq ‹_›).invalidate _).onTask _ _
          · exact h

theorem Canonical.doArm {s : State} (h : Canonical s) (p : Packet) : Canonical (s.doArm p) := by
  unfold State.doArm
  extract_lets id idx
  split
  · split
    · split
      exact ((h.armTask _ _).of_eq ‹_›).armAnswer _ _
    · exact h.same
  · split
    · exact h.armAnswer _ _
    · exact h.same

theorem Canonical.supAct {s : State} (h : Canonical s) (p : Packet) : Canonical (s.supAct p) := by
  unfold State.supAct
  split
  · exact h.doArm _
  · exact h.doArmReply _
  · exact h.doGo _
  · exact h.doAbort _
  · exact h.doLost _
  · exact h.triggerSnap _
  · exact h

theorem Canonical.supDo {s : State} (h : Canonical s) (p : Packet) : Canonical (s.supDo p) := by
  unfold State.supDo
  exact (((h.unhold _).onSupWin _ _).answer _ _ _ _ _ _).supAct _

theorem Canonical.supDrain {s : State} (h : Canonical s) (src k : Nat) : Canonical (State.supDrain src k s) := by
  induction k generalizing s with
  | zero => exact h
  | succ k ih =>
    unfold State.supDrain
    split
    · exact ih (h.supDo _)
    · exact h


theorem Canonical.supArrive {s : State} (h : Canonical s) (p : Packet) : Canonical (s.supArrive p) := by
  unfold State.supArrive
  extract_lets src w u fresh
  have hf : Canonical fresh := by
    unfold fresh
    split
    · exact ((h.onSupWin _ _).supDo p).supDrain _ _
    · split
      · exact h.answer _ _ _ _ _ _
      · exact (h.onSupWin _ _).same
    · exact h
  split
  · exact h.same
  · split
    · exact hf
    · split
      · split
        · exact hf
        · split
          · exact h.answer _ _ _ _ _ _
          · exact h
      · exact h


theorem nextCanonical_execSnapshotTrigger {s : State} (h : Canonical s) (p : Packet) : NextCanonical (execSnapshotTrigger p s) := by
  unfold Machine.execSnapshotTrigger
  exact .next (h.supArrive _)

theorem Canonical.duplicate {s : State} (h : Canonical s) (p : Packet) (d : Dedup) : Canonical (s.duplicate p d) := by
  unfold State.duplicate
  split
  · exact h.pastOrder _
  · exact h.reply _ _ _

theorem Canonical.ordered {s : State} (h : Canonical s) (p : Packet) : Canonical (s.ordered p) := by
  unfold State.ordered
  extract_lets w fresh
  have hf : Canonical (fresh s) := by
    dsimp only [fresh]
    split
    · exact (h.onSrc _ _ _).proceed _
    · split
      · exact h.reply _ _ _
      · exact (h.onSrc _ _ _).same
    · exact h
  split
  · exact hf
  · split
    · split
      · exact hf
      · split
        · exact h.duplicate _ _
        · exact h
    · exact h


theorem Canonical.macFail {s : State} (h : Canonical s) (dst src : Nat) : Canonical (s.macFail dst src) := by
  unfold State.macFail
  exact h.onSrc _ _ _

theorem Canonical.refuseEarly {s : State} (h : Canonical s) (p : Packet) (status : BitVec 7) : Canonical (s.refuseEarly p status) := by
  unfold State.refuseEarly
  exact ((h.onSrc _ _ _).reply _ _ _).drainHold _ _ _ _

theorem Canonical.notHere {s : State} (h : Canonical s) (p : Packet) : Canonical (s.notHere p) := by
  unfold State.notHere
  split
  · split
    · exact h.reply _ _ _
    · exact h.answer _ _ _ _ _ _
  · exact h.reply _ _ _

theorem Canonical.arrive {s : State} (h : Canonical s) (p : Packet) : Canonical (s.arrive p) := by
  unfold State.arrive
  split
  · exact h.same
  · split
    · exact h.notHere _
    · split
      · exact h.refuseEarly _ _
      · split
        · exact h.reply _ _ _
        · exact h.reply _ _ _
        · exact h.answer _ _ _ _ _ _
        · split
          · exact (h.macFail _ _).refuseEarly _ _
          · split
            · exact ((h.onSrc _ _ _).reply _ _ _).drainHold _ _ _ _
            · exact h.ordered _

theorem nextCanonical_execPullAcknowledgement {s : State} (h : Canonical s) (p : Packet) : NextCanonical (execPullAcknowledgement p s) := by
  unfold Machine.execPullAcknowledgement
  exact .next (h.arrive _)

theorem Canonical.pullHeard {s : State} (h : Canonical s) (vr page : Nat) : Canonical (s.pullHeard vr page) := by
  unfold State.pullHeard
  split
  · split
    · exact h.same
    · exact h
  · exact h

theorem nextCanonical_execPullData {s : State} (h : Canonical s) (p : Packet) (arrived : Bool) : NextCanonical (execPullData p arrived s) := by
  unfold Machine.execPullData
  refine .next ?_
  split
  · exact ((h.arrive _).pullHeard _ _).landPulls
  · exact (h.pullFails _ _).pullOn _ _

theorem nextCanonical_execPullRequest {s : State} (h : Canonical s) (p : Packet) : NextCanonical (execPullRequest p s) := by
  unfold Machine.execPullRequest
  exact .next (h.arrive _)

theorem nextCanonical_execMigrationDrainEnd {s : State} (h : Canonical s) (vr : Nat) : NextCanonical (execMigrationDrainEnd vr s) := by
  refine .next ?_
  split
  · exact h
  · split
    · split
      · exact h
      · dsimp only
        split
        · exact (h.onVr _ _).same.freeVr _
        · exact (h.onVr _ _).same
    · exact h


theorem Canonical.landLast {s : State} (h : Canonical s) (vr : Nat) (srcs : SMap SrcWin) (pairs : SMap Pair) (staged : List Staged) (energy : Nat) :
    Canonical (s.landLast vr srcs pairs staged energy) := by
  unfold State.landLast
  split
  · exact h
  · split
    · exact ((h.onVr _ _).same).pullOn _ _
    · exact h

theorem Canonical.landContext {s : State} (h : Canonical s) (c : MoveContext) : Canonical (s.landContext c) := by
  unfold State.landContext
  split
  · exact h
  · dsimp only
    generalize hf : List.foldl _ _ c.leaves = r
    have hr : Canonical r.1 := by
      rw [← hf]
      refine canonical_foldl_pair (h.newRoot _ _) (fun r l hr => ?_) _
      split
      · exact Canonical.mapFrom hr _ _ _ _ _ _
      · exact hr
    split
    · exact Canonical.same (Canonical.keepIpa (Canonical.settle hr _) _)
    · exact Canonical.settle hr _
    · exact Canonical.same hr


theorem nextCanonical_execMigrationContext {s : State} (h : Canonical s) (part : MovePart) : NextCanonical (execMigrationContext part s) := by
  unfold Machine.execMigrationContext
  refine .next ?_
  split
  · exact h.landContext _
  · exact h.landLast _ _ _ _ _
  · exact h.onVr _ _

theorem nextCanonical_execPeerFailure {s : State} (h : Canonical s) (launch : BitVec 32) : NextCanonical (execPeerFailure launch s) := by
  refine .next (canonical_foldl ?_ (fun s e h => h.stopTask _ _ _) _)
  dsimp only
  split
  · exact h.same.toMembers _ _ _
  · exact h


theorem nextCanonical_execLost {s : State} (h : Canonical s) (p : Packet) : NextCanonical (execLost p s) := by
  unfold Machine.execLost
  exact .next (h.supArrive _)

theorem nextCanonical_execArmExpiry {s : State} (h : Canonical s) (launch : BitVec 32) : NextCanonical (execArmExpiry launch s) := by
  unfold Machine.execArmExpiry
  exact .next (canonical_foldl (h.same) (fun s' x h' => h'.disarm _) _)

theorem nextCanonical_execLaunchAbort {s : State} (h : Canonical s) (p : Packet) : NextCanonical (execLaunchAbort p s) := by
  unfold Machine.execLaunchAbort
  exact .next (h.supArrive _)

theorem nextCanonical_execGo {s : State} (h : Canonical s) (p : Packet) : NextCanonical (execGo p s) := by
  unfold Machine.execGo
  exact .next (h.supArrive _)

theorem nextCanonical_execArmTimeout {s : State} (h : Canonical s) (launch : BitVec 32) : NextCanonical (execArmTimeout launch s) := by
  unfold Machine.execArmTimeout
  refine .next ?_
  split
  · split
    · exact h.armResult _ _
    · exact h
  · exact h

theorem nextCanonical_execArmReply {s : State} (h : Canonical s) (p : Packet) : NextCanonical (execArmReply p s) := by
  unfold Machine.execArmReply
  exact .next (h.supArrive _)

theorem nextCanonical_execArm {s : State} (h : Canonical s) (p : Packet) : NextCanonical (execArm p s) := by
  unfold Machine.execArm
  exact .next (h.supArrive _)

theorem Canonical.abandon {s : State} (h : Canonical s) (h1 : HoldPkt) : Canonical (s.abandon h1) := by
  unfold State.abandon
  split
  · exact h
  · exact (h.onSrc _ _ _).drainHold _ _ _ _

theorem nextCanonical_execHoldStoreAbandon {s : State} (h : Canonical s) (src dst : Nat) (pseq : BitVec 32) :
    NextCanonical (execHoldStoreAbandon src dst pseq s) := by
  unfold Machine.execHoldStoreAbandon
  refine .next ?_
  split
  · split
    · exact h
    · split
      · split
        · exact h
        · exact (h.onSupWin _ _).supDrain _ _
      · exact h.abandon _
  · exact h

theorem Canonical.resendSame {s : State} (h : Canonical s) (u : Unacked) (moved : Bool) : Canonical (s.resendSame u moved) := by
  unfold State.resendSame
  extract_lets order same
  split
  · split
    · exact h.outcomeUnknown _
    · exact h.resend _
  · exact ((Canonical.of_pair (h.sendFirst _ _ _) ‹_›).unawait _).same

theorem nextCanonical_execBusyRetransmit {s : State} (h : Canonical s) (src dst : Nat) (pseq : BitVec 32) :
    NextCanonical (execBusyRetransmit src dst pseq s) := by
  unfold Machine.execBusyRetransmit
  refine .next ?_
  split
  · split
    · exact h.resendSame _ _
    · exact h
  · exact h

theorem nextCanonical_execRetransmitTimeout {s : State} (h : Canonical s) (src dst : Nat) (pseq : BitVec 32) :
    NextCanonical (execRetransmitTimeout src dst pseq s) := by
  unfold Machine.execRetransmitTimeout
  refine .next ?_
  split
  · split
    · exact h.resend _
    · exact h
  · exact h

theorem Canonical.pullEnds {s : State} (h : Canonical s) (u : Unacked) : Canonical (s.pullEnds u) := by
  unfold State.pullEnds
  split
  · exact h.later _
  · exact h

theorem Canonical.land {s : State} (h : Canonical s) (lc a : Nat) (bs : List Byte) : Canonical (s.land lc a bs) := by
  unfold State.land
  split
  · exact h.spPut _ _ _
  · exact h.onCore _ _

theorem Canonical.resume {s : State} (h : Canonical s) (o : ROp) (p : Packet) : Canonical (s.resume o p) := by
  unfold State.resume
  dsimp only
  split
  · split
    · exact (h.land _ _ _).onStrand _ _
    · exact h.onStrand _ _
  · exact h.onStrand _ _
  · exact h.onStrand _ _
  · exact h.onStrand _ _
  · exact h.onStrand _ _
  · exact h


theorem Canonical.pieceDone {s : State} (h : Canonical s) (u : Unacked) (p : Packet) : Canonical (s.pieceDone u p) := by
  unfold State.pieceDone
  split
  · exact h
  · have h1 := h.onRop u.uid (ROp.ends u.idx none)
    dsimp only
    split
    · exact h1.finishRop _
    · split
      · split
        · exact h1.same.resume _ _
        · exact h1.same
      · split
        · exact (h1.land _ _ _).finishRop _
        · exact h1.finishRop _


theorem Canonical.answeredBy {s : State} (h : Canonical s) (p : Packet) : Canonical (s.answeredBy p) := by
  unfold State.answeredBy
  split
  · exact h
  · split
    · exact (h.unawait _).same
    · exact h.same.resendSame _ _
    · exact h.resend _
    · split
      · exact (h.unawait _).same
      · split
        · exact h.unawait _
        · exact (h.unawait _).pieceDone _ _
    · split
      · split
        · exact (h.unawait _).pullEnds _
        · exact (h.unawait _).pieceFailed _ _
      · exact h.same

theorem nextCanonical_execAcknowledgement {s : State} (h : Canonical s) (p : Packet) : NextCanonical (execAcknowledgement p s) := by
  unfold Machine.execAcknowledgement
  exact .next (h.answeredBy _)

theorem nextCanonical_execReplyWithData {s : State} (h : Canonical s) (p : Packet) : NextCanonical (execReplyWithData p s) := by
  unfold Machine.execReplyWithData
  exact .next (h.answeredBy _)

theorem nextCanonical_execReducingStore {s : State} (h : Canonical s) (p : Packet) : NextCanonical (execReducingStore p s) := by
  unfold Machine.execReducingStore
  exact .next (h.arrive _)

theorem nextCanonical_execMulticastStore {s : State} (h : Canonical s) (p : Packet) : NextCanonical (execMulticastStore p s) := by
  unfold Machine.execMulticastStore
  exact .next (h.arrive _)

theorem nextCanonical_execFeatureQuery {s : State} (h : Canonical s) (p : Packet) : NextCanonical (execFeatureQuery p s) := by
  unfold Machine.execFeatureQuery
  exact .next (h.arrive _)

theorem nextCanonical_execProbeRequest {s : State} (h : Canonical s) (p : Packet) : NextCanonical (execProbeRequest p s) := by
  unfold Machine.execProbeRequest
  exact .next (h.arrive _)

theorem nextCanonical_execCasRequest {s : State} (h : Canonical s) (p : Packet) : NextCanonical (execCasRequest p s) := by
  unfold Machine.execCasRequest
  exact .next (h.arrive _)

theorem nextCanonical_execAtomicRequest {s : State} (h : Canonical s) (p : Packet) : NextCanonical (execAtomicRequest p s) := by
  unfold Machine.execAtomicRequest
  exact .next (h.arrive _)

theorem nextCanonical_execStoreWithHandler {s : State} (h : Canonical s) (p : Packet) : NextCanonical (execStoreWithHandler p s) := by
  unfold Machine.execStoreWithHandler
  exact .next (h.arrive _)

theorem nextCanonical_execStoreRequest {s : State} (h : Canonical s) (p : Packet) : NextCanonical (execStoreRequest p s) := by
  unfold Machine.execStoreRequest
  exact .next (h.arrive _)

theorem nextCanonical_execLoadRequest {s : State} (h : Canonical s) (p : Packet) : NextCanonical (execLoadRequest p s) := by
  unfold Machine.execLoadRequest
  exact .next (h.arrive _)

theorem nextCanonical_execAckTimeout {s : State} (h : Canonical s) (port : Nat) : NextCanonical (execAckTimeout port s) := by
  unfold Machine.execAckTimeout
  refine .next ?_
  extract_lets p
  split
  · exact h.portDies _
  · exact h

theorem nextCanonical_execWsRefreshWindow {s : State} (h : Canonical s) (x : Nat) : NextCanonical (execWsRefreshWindow x s) := by
  unfold Machine.execWsRefreshWindow
  exact .next (h)

theorem nextCanonical_execBankGate {s : State} (h : Canonical s) (bank : BankId) (gate : Bool) : NextCanonical (execBankGate bank gate s) := by
  refine .next ?_
  split
  · split
    · exact h
    · split
      · split
        · exact h
        · exact h.onCore _ _
      · split
        · exact h.onCore _ _
        · exact h
  · dsimp only
    split
    · split
      · exact h
      · exact h.same
    · split
      · exact ⟨h.device, h.host, forall_smod (P := fun m : Mem => m.wf = true) h.weights rfl (fun _ hm => Mem.wf_wipe _ _ hm) _, h.scratch⟩
      · exact h


theorem nextCanonical_execInvalidation {s : State} (h : Canonical s) (scope : InvScope) : NextCanonical (execInvalidation scope s) := by
  unfold Machine.execInvalidation
  exact .next (h.invalidate _)

theorem Canonical.warm {s : State} (h : Canonical s) (vr : Nat) : ∀ t ∈ s.warm vr, Canonical t := by
  intro t ht
  unfold State.warm at ht
  dsimp only at ht
  split at ht
  · cases ht
  · split at ht
    · exact Option.some.inj ht ▸ h
    · split at ht
      · exact Option.some.inj ht ▸ h.onVr vr _
      · obtain ⟨u, hu, rfl⟩ := Option.mem_map.mp ht
        obtain ⟨e, -, he⟩ := List.exists_of_findSome?_eq_some hu
        split at he
        · exact (h.chill _ u he).onVr vr _
        · cases he


theorem Canonical.makeRoom {s : State} (h : Canonical s) (prio : Nat) : Canonical (s.makeRoom prio) := by
  unfold State.makeRoom
  split
  · exact h.same.later _
  · exact h

theorem nextCanonical_execSpawnAdmit {s : State} (h : Canonical s) (vr task : Nat) (binds : List (Nat × Word)) :
    NextCanonical (execSpawnAdmit vr task binds s) := by
  refine .next ?_
  split
  · exact h
  · split
    · exact h
    · extract_lets s0 s1
      have h1 : Canonical s1 := h.same
      split
      · exact h1
      · split
        · exact h
        · split
          · exact h.makeRoom _
          · split
            · exact h
            · have h2 := h1.warm vr _ ‹_›
              split
              · exact h
              · rename_i s3 e
                extract_lets s4
                have h4 : Canonical s4 := ((h2.slotWrite _ _).of_eq e).onTask _ _
                split
                · split
                  · exact (((h4.bindAll _).of_eq ‹_›).invalidate _).startGang _ _
                  · exact h
                · exact h


theorem Canonical.onLaunch {s : State} (h : Canonical s) (id : BitVec 32) (idx : Nat) (f : Launch → Launch) : Canonical (s.onLaunch id idx f) := by
  unfold State.onLaunch
  exact h.same

theorem Canonical.answerArms {s : State} (h : Canonical s) (id : BitVec 32) (idx : Nat) : Canonical (s.answerArms id idx) := by
  unfold State.answerArms
  exact canonical_foldl (h.same) (fun s' x h' => h'.doArm _) _

theorem nextCanonical_execAdmitStepTask {s : State} (h : Canonical s) (task : Nat) (binds : List (Nat × Word)) :
    NextCanonical (execAdmitStepTask task binds s) := by
  unfold Machine.execAdmitStepTask
  refine .next ?_
  split
  · exact h
  · split
    · exact h
    · split
      · exact h
      · split
        · exact h.makeRoom _
        · split
          · exact h
          · split
            · exact ((Canonical.of_some (h.warm _) ‹_›).slotWrite _ _).of_eq ‹_›
            · exact ((((Canonical.of_some (h.warm _) ‹_›).slotWrite _ _).of_eq ‹_›).onLaunch _ _ _).answerArms _ _

theorem nextCanonical_execPowerWindowEnd {s : State} (h : Canonical s) (watts : Nat) : NextCanonical (execPowerWindowEnd watts s) := by
  unfold Machine.execPowerWindowEnd
  refine .next ?_
  split
  · exact h
  · split
    · split
      · exact canonical_foldl (h.same) (fun s' x h' => h'.stopTask _ _ _) _
      · exact h
    · split
      · exact h.same
      · split
        · exact h.same
        · exact h

theorem nextCanonical_execWatchdogExpiry {s : State} (h : Canonical s) (task : Nat) : NextCanonical (execWatchdogExpiry task s) := by
  unfold Machine.execWatchdogExpiry
  refine .next ?_
  extract_lets t
  split
  · exact h.stopTask _ _ _
  · exact h

theorem Canonical.chargeArea {s : State} (h : Canonical s) (p : Payer) (n : Nat) : Canonical (s.chargeArea p n) := by
  unfold State.chargeArea
  split
  · exact h
  · exact (h.charge _ _).onFn _ _

theorem Canonical.chargeGang {s : State} (h : Canonical s) (task : Nat) : Canonical (s.chargeGang task) := by
  unfold State.chargeGang
  exact h.chargeArea _ _

theorem nextCanonical_execGangResume {s : State} (h : Canonical s) (task : Nat) (binds : List (Nat × Word)) :
    NextCanonical (execGangResume task binds s) := by
  unfold Machine.execGangResume
  refine .next ?_
  split
  · exact h
  · split
    · exact (h.bindAll _).of_eq ‹_›
    · split
      · exact h
      · exact (((canonical_foldl ((h.bindAll _).of_eq ‹_›) (fun s' x h' => h'.prepareCore _ _) _).chargeGang _).same).onTask _ _

theorem Canonical.unbind {s : State} (h : Canonical s) (task : Nat) : Canonical (s.unbind task) := by
  unfold State.unbind
  exact h.same

theorem Canonical.onBank {s : State} (h : Canonical s) (k : Nat) (f : Bank → Bank) : Canonical (s.onBank k f) := by
  unfold State.onBank
  exact h.same

theorem Canonical.planesWritten {s : State} (h : Canonical s) (k : Nat) (cells : List Nat) : Canonical (s.planesWritten k cells) := by
  unfold State.planesWritten
  exact h.same

theorem Canonical.onArray {s : State} (h : Canonical s) (p : Nat) (f : MArray → MArray) : Canonical (s.onArray p f) := by
  unfold State.onArray
  exact h.same

theorem Canonical.foldArray {s : State} (h : Canonical s) (p : Nat) (payer : Payer) : Canonical (s.foldArray p payer) := by
  unfold State.foldArray
  extract_lets a
  split
  · exact h
  · split
    · exact h
    · exact (((h.onBank _ _).planesWritten _ _).onArray _ _).charge _ _

theorem Canonical.saveArrays {s : State} (h : Canonical s) (task : Nat) : Canonical (s.saveArrays task) := by
  unfold State.saveArrays
  exact (canonical_foldl h (fun s' x h' => (h'.foldArray _ _).onArray _ _) _).same

theorem Canonical.landHeld {s : State} (h : Canonical s) (core lc : Nat) : Canonical (s.landHeld core lc) := by
  unfold State.landHeld
  exact canonical_foldl ((h.onCore _ _).same) (fun s' x h' => h'.spPut _ _ _) _

theorem nextCanonical_execGangRelease {s : State} (h : Canonical s) (task : Nat) : NextCanonical (execGangRelease task s) := by
  refine .next ?_
  dsimp only
  split
  · exact (Canonical.bankCounts (Canonical.onTask (Canonical.chargeGang (Canonical.saveArrays
      (canonical_foldl h (fun s lc h => h.landHeld _ _) _) _) _) _ _) _).unbind _
  · exact h


theorem Canonical.abort {s : State} (h : Canonical s) (k : Nat) : Canonical (s.abort k) := by
  have hl : Canonical (s.onLcore (k / 4) fun l => (s.strandAt k).rsb.reverse.foldl LCore.unback l) :=
    h.onLcore _ fun l hl => (l.sp_foldl_unback _).symm ▸ hl
  exact (hl.same.onStrand _ _).tickUid


theorem nextCanonical_execDeadlineExpiry {s : State} (h : Canonical s) (task core : Nat) : NextCanonical (execDeadlineExpiry task core s) := by
  unfold Machine.execDeadlineExpiry
  refine .next ?_
  split
  · exact canonical_foldl h (fun s' x h' => h'.abort _) _
  · exact h

theorem nextCanonical_execPreemptRequest {s : State} (h : Canonical s) (task : Nat) (deadline : BitVec 32) :
    NextCanonical (execPreemptRequest task deadline s) := by
  unfold Machine.execPreemptRequest
  refine .next ?_
  extract_lets t
  split
  · exact h.onTask _ _
  · exact h

theorem Canonical.chargeQuota {s : State} (h : Canonical s) (core k : Nat) : Canonical (s.chargeQuota core k) := by
  unfold State.chargeQuota
  exact h.chargeArea _ _

theorem Canonical.present {s : State} (h : Canonical s) (core k : Nat) : Canonical (s.present core k) := by
  unfold State.present
  exact (h.same.onCore _ _).landHeld _ _

theorem nextCanonical_execRotation {s : State} (h : Canonical s) (core : Nat) : NextCanonical (execRotation core s) := by
  unfold Machine.execRotation
  refine .next ?_
  extract_lets ks k b
  split
  · split
    · exact h.present _ _
    · exact h
  · split
    · exact h
    · split
      · split
        · exact h.onCore _ _
        · exact ((h.chargeQuota _ _).chargeQuota _ _).present _ _
      · exact h

theorem Canonical.taskError {s : State} (h : Canonical s) (task : Nat) : Canonical (s.taskError task) := by
  unfold State.taskError
  exact h.onTask _ _

theorem Canonical.wsPut {s : State} (h : Canonical s) (die a : Nat) (bs : List Byte) : Canonical (s.wsPut die a bs) :=
  ⟨h.device, h.host, forall_smod (P := fun m : Mem => m.wf = true) h.weights rfl (fun _ hm => Mem.wf_setBytes _ _ _ hm) die, h.scratch⟩


theorem Canonical.gvRead {s : State} (h : Canonical s) (a : Machine.Acc) (va n : Nat) : Canonical (s.gvRead a va n).1 := by
  unfold State.gvRead
  split
  · exact ((h.runs _ _ _).of_eq ‹_›).chargeRuns _ _ _
  · exact (h.runs _ _ _).of_eq ‹_›
  · exact (h.runs _ _ _).of_eq ‹_›

theorem Canonical.applyPages {s : State} (h : Canonical s) (lc die k va ws n : Nat) : Canonical (State.applyPages lc die k s va ws n).1 := by
  induction k generalizing s va ws n with
  | zero => exact h
  | succ k ih =>
    unfold State.applyPages
    split
    · exact h
    · split
      · exact h
      · have hr := h.gvRead (s.applyAcc lc) va
        dsimp only
        split
        · exact ih (((hr _).of_eq ‹_›).wsPut _ _ _) _ _ _
        · exact ih ((((hr _).of_eq ‹_›).settle _).taskError _) _ _ _
        · exact (hr _).of_eq ‹_›


theorem Canonical.applyLists {s : State} (h : Canonical s) (l : List (Nat × WLoad)) : Canonical (State.applyLists l s).1 := by
  induction l generalizing s with
  | nil => exact h
  | cons x t ih =>
    unfold State.applyLists
    have hp := h.applyPages x.1 (dieOf (s.coreOf (x.1 / 288) (x.1 % 288))) (x.2.len / 65536 + 2) x.2.va x.2.ws x.2.len
    split
    · exact hp.of_eq ‹_›
    · exact ih (Canonical.onLcore ((hp.of_eq ‹_›).settle _) _ fun _ hl => hl)


theorem nextCanonical_execTwloadApply {s : State} (h : Canonical s) (task : Nat) : NextCanonical (execTwloadApply task s) := by
  unfold Machine.execTwloadApply
  refine .next ?_
  split
  · extract_lets l
    split
    split
    · exact (h.applyLists _).of_eq ‹_›
    · exact ((h.applyLists _).of_eq ‹_›).later _
  · exact h

theorem Canonical.report {s : State} (h : Canonical s) (task : Nat) : Canonical (s.report task) := by
  unfold State.report
  extract_lets t
  split
  split
  · exact h.onFn _ _
  · extract_lets s1
    have hs1 : Canonical s1 := by
      unfold s1
      split
      · exact h.storing (Mem.wf_setBytes _ _ _ (Canonical.device (h)))
      · exact h
    split
    · exact hs1.vector _ _
    · exact hs1

theorem Canonical.takeSpawns {s : State} (h : Canonical s) (task : Nat) : Canonical (s.takeSpawns task) := by
  unfold State.takeSpawns
  exact h.takeQueues.same

theorem Canonical.clearTask {s : State} (h : Canonical s) (task : Nat) : Canonical (s.clearTask task) := by
  have hu := (h.bankCounts task).unbind task
  exact ⟨hu.device, hu.host, hu.weights, fun e he => hu.scratch e (List.mem_of_mem_filter he)⟩


theorem nextCanonical_execCompletionSignalWrite {s : State} (h : Canonical s) (task : Nat) : NextCanonical (execCompletionSignalWrite task s) := by
  unfold Machine.execCompletionSignalWrite
  refine .next ?_
  split
  · exact ((h.report _).takeSpawns _).clearTask _
  · exact h

theorem Canonical.closing {s : State} (h : Canonical s) (task : Nat) : Canonical (s.closing task) := by
  unfold State.closing
  split
  · exact h.onTask _ _
  · split
    · exact h.onTask _ _
    · exact h

theorem Canonical.copyLines {s : State} (h : Canonical s) (a : Acc) (lc : Nat) (r : Region) (l : List Nat) :
    Canonical (State.copyLines a lc r l s).1 := by
  induction l generalizing s with
  | nil => exact h
  | cons i t ih =>
    unfold State.copyLines
    have hw := h.gvWrite a (r.va.toNat + (r.line i).1) ((s.lcoreAt lc).spBytes (r.base + (r.line i).1) (r.line i).2)
    dsimp only
    split
    · exact ih (hw.of_eq ‹_›)
    · exact hw.of_eq ‹_›
    · exact hw.of_eq ‹_›


theorem Canonical.writeBack {s : State} (h : Canonical s) (lc idx : Nat) : Canonical (s.writeBack lc idx).1 := by
  unfold State.writeBack
  extract_lets r
  split
  · exact h
  · split
    · exact h
    · split
      · refine Canonical.settle ?_ _
        refine Canonical.onLcore ?_ _ fun _ h => h
        exact (h.copyLines _ _ _ _).of_eq ‹_›
      · refine Canonical.settle ?_ _
        refine Canonical.onLcore ?_ _ fun _ h => h
        exact (h.copyLines _ _ _ _).of_eq ‹_›
      · refine Canonical.onLcore ?_ _ fun _ h => h
        exact (h.copyLines _ _ _ _).of_eq ‹_›

theorem Canonical.writeBackAll {s : State} (h : Canonical s) (task : Nat) (l : List (Nat × Nat)) : Canonical (State.writeBackAll task l s).1 := by
  induction l generalizing s with
  | nil => exact h
  | cons x t ih =>
    unfold State.writeBackAll
    have hw := h.writeBack x.1 x.2
    split
    · exact ih (hw.of_eq ‹_›)
    · exact ih (Canonical.onLcore ((hw.of_eq ‹_›).taskError _) _ fun _ hl => hl)
    · exact hw.of_eq ‹_›


theorem nextCanonical_execEndTaskWriteback {s : State} (h : Canonical s) (task : Nat) : NextCanonical (execEndTaskWriteback task s) := by
  unfold Machine.execEndTaskWriteback
  refine .next ?_
  split
  · split
    split
    · exact (h.writeBackAll _ _).of_eq ‹_›
    · exact ((((h.writeBackAll _ _).of_eq ‹_›).closing _).onTask _ _).later _
  · exact h

theorem Canonical.freeTags {s : State} (h : Canonical s) (fn tag : Nat) : Canonical (s.freeTags fn tag) := by
  unfold State.freeTags
  exact (h.onFn _ _).drainReqs _ _

theorem nextCanonical_execResponseRecord {s : State} (h : Canonical s) (fn : Nat) : NextCanonical (execResponseRecord fn s) := by
  refine .next ?_
  dsimp only
  split
  · exact h
  · split
    · exact (h.onFn _ _).onFn _ _
    · refine (canonical_foldl ((h.onFn _ _).freeTags _ _) (fun s f h => ?_) _).supGoes
      split
      · exact h.faultDone _
      · exact h.faultRefused _


theorem nextCanonical_execTierPromotion {s : State} (h : Canonical s) (id : Nat) : NextCanonical (execTierPromotion id s) := by
  unfold Machine.execTierPromotion
  refine .next ?_
  split
  · exact h
  · split
    · exact h
    · split
      · exact h.faultDone _
      · split
        · exact h.promoteInPlace _
        · split
          · exact (h.takeFree _).of_eq ‹_›
          · exact ((((h.takeFree _).of_eq ‹_›).copyPage _ _ _).rewriteLeaf _ _ _ _ _).faultDone _

theorem Canonical.resolveIn {s : State} (h : Canonical s) (f : PFault) (v : Vr) (g : GvRange) : Canonical (s.resolveIn f v g) := by
  unfold State.resolveIn
  extract_lets va
  split
  · exact ((((h.placePage _ _ _ _ _).of_eq ‹_›).keepIpa _).settle _).faultDone _
  · exact (((h.placePage _ _ _ _ _).of_eq ‹_›).settle _).faultRefused _
  · exact ((h.placePage _ _ _ _ _).of_eq ‹_›).same

theorem nextCanonical_execFaultResolution {s : State} (h : Canonical s) (id : Nat) : NextCanonical (execFaultResolution id s) := by
  unfold Machine.execFaultResolution
  refine .next ?_
  split
  · exact h
  · split
    · exact h
    · split
      · exact h.faultRefused _
      · split
        · exact h.resolveIn _ _ _
        · exact h.faultRefused _
        · exact h.faultDone _

theorem Canonical.fillPages {s : State} (h : Canonical s) (lc idx k : Nat) : Canonical (State.fillPages lc idx k s).1 := by
  induction k generalizing s with
  | zero => exact h
  | succ k ih =>
    unfold State.fillPages
    dsimp only
    split
    · exact h
    · split
      · exact h
      · have hr := h.gvRead (s.mapAcc lc idx rR)
        split
        · refine ih (Canonical.same (Canonical.onLcore ((hr _ _).of_eq ‹_›) _ fun l hl => ?_))
          exact Mem.wf_setBytes _ _ _ hl
        · exact (hr _ _).of_eq ‹_›
        · exact (hr _ _).of_eq ‹_›


theorem Canonical.fill {s : State} (h : Canonical s) (lc idx : Nat) : Canonical (s.fill lc idx).1 := by
  unfold State.fill
  split
  · exact h
  · split
    · refine Canonical.settle ?_ _
      refine Canonical.onLcore ?_ _ fun _ h => h
      exact (h.fillPages _ _ _).of_eq ‹_›
    · refine Canonical.settle ?_ _
      refine Canonical.onLcore ?_ _ fun _ h => h
      exact (h.fillPages _ _ _).of_eq ‹_›
    · refine Canonical.onLcore ?_ _ fun _ h => h
      exact (h.fillPages _ _ _).of_eq ‹_›

theorem nextCanonical_execRegionFill {s : State} (h : Canonical s) (task lcore idx : Nat) : NextCanonical (execRegionFill task lcore idx s) := by
  unfold Machine.execRegionFill
  exact .next (h.fill _ _)

theorem Canonical.noteJoin {s : State} (h : Canonical s) (i : Instr) (c : Cap) : Canonical (s.noteJoin i c) := by
  unfold State.noteJoin
  split
  · refine Canonical.onLcore ?_ _ fun _ h => h
    exact h
  · exact h

theorem Canonical.push {s : State} (h : Canonical s) (e : Engine) (x : Entry) : Canonical (s.push e x) := by
  unfold State.push
  exact h.onCore _ _

theorem Canonical.enqueue {s : State} (h : Canonical s) (e : Engine) (i : Instr) (c : Cap) (foots : List Foot) (len : BitVec 53) :
    Canonical (s.enqueue e i c foots len) := by
  unfold State.enqueue
  split
  · exact h.block
  · exact ((h.push _ _).tickUid).onMe _

theorem Canonical.dispatchColl {s : State} (h : Canonical s) (i : Instr) (r : Rec) : Canonical (s.dispatchColl i r) := by
  unfold State.dispatchColl
  split
  · extract_lets c fs
    refine Canonical.checked ?_ _ _ ?_
    · exact h
    · intro s1 h1
      refine Canonical.enqueue ?_ _ _ _ _ _
      split
      · exact h1
      · exact h1.noteJoin _ _
  · exact h

theorem nextCanonical_execCbar {s : State} (h : Canonical s) (r : Rec) : NextCanonical (execCbar r s) := by
  unfold Machine.execCbar
  exact .next (h.dispatchColl _ _)

theorem nextCanonical_execCtopk {s : State} (h : Canonical s) (r : Rec) : NextCanonical (execCtopk r s) := by
  unfold Machine.execCtopk
  exact .next (h.dispatchColl _ _)

theorem nextCanonical_execCbcast {s : State} (h : Canonical s) (r : Rec) : NextCanonical (execCbcast r s) := by
  unfold Machine.execCbcast
  exact .next (h.dispatchColl _ _)

theorem nextCanonical_execCallgath {s : State} (h : Canonical s) (r : Rec) : NextCanonical (execCallgath r s) := by
  unfold Machine.execCallgath
  exact .next (h.dispatchColl _ _)

theorem nextCanonical_execCredsc {s : State} (h : Canonical s) (r : Rec) : NextCanonical (execCredsc r s) := by
  unfold Machine.execCredsc
  exact .next (h.dispatchColl _ _)

theorem nextCanonical_execCallred {s : State} (h : Canonical s) (r : Rec) : NextCanonical (execCallred r s) := by
  unfold Machine.execCallred
  exact .next (h.dispatchColl _ _)

theorem nextCanonical_execCjoin {s : State} (h : Canonical s) (r : Rec) : NextCanonical (execCjoin r s) := by
  unfold Machine.execCjoin
  exact .next (h.dispatchColl _ _)

theorem Canonical.dispatchWord {s : State} (h : Canonical s) (i : Instr) (vals : List Word) (k : FabChecks) :
    Canonical (s.dispatchWord i vals k) := by
  unfold State.dispatchWord
  refine Canonical.checked ?_ _ _ ?_
  · exact h
  · intro s1 h1
    exact h1.enqueue _ _ _ _ _

theorem nextCanonical_execRcopy {s : State} (h : Canonical s) (put : Bool) (d a v t : Reg) (cls : BitVec 4) (width : Width) :
    NextCanonical (execRcopy put d a v t cls width s) := by
  unfold Machine.execRcopy
  refine .next ?_
  split
  exact h.dispatchWord _ _ _

theorem nextCanonical_execRred {s : State} (h : Canonical s) (op : BitVec 3) (b a v t : Reg) (m : FMem) :
    NextCanonical (execRred op b a v t m s) := by
  unfold Machine.execRred
  refine .next ?_
  split
  exact h.dispatchWord _ _ _

theorem nextCanonical_execRmcast {s : State} (h : Canonical s) (d a b : Reg) (m : FMem) : NextCanonical (execRmcast d a b m s) := by
  unfold Machine.execRmcast
  refine .next ?_
  split
  split
  exact h.dispatchWord _ _ _

theorem Canonical.unmint {s : State} (h : Canonical s) (vr n : Nat) : Canonical (s.unmint vr n).1 := by
  unfold State.unmint
  exact h.onVr _ _

theorem Canonical.dispatchBlocked {s : State} (h : Canonical s) (i : Instr) (vals : List Word) (k : FabChecks)
    {now : State → State × Word} (hnow : ∀ s, Canonical s → Canonical (now s).1) (d : Reg) : Canonical (s.dispatchBlocked i vals k now d) := by
  refine h.checked _ _ fun s h => ?_
  split
  · exact h.block
  · split
    · split
      · exact h.block
      · exact (h.push _ _).tickUid.block
    · exact (hnow s h).fin _


theorem nextCanonical_execRevoke {s : State} (h : Canonical s) (d a : Reg) : NextCanonical (execRevoke d a s) :=
  .next (h.dispatchBlocked _ _ _ (fun _ h => h.unmint _ _) _)


theorem Canonical.mint {s : State} (h : Canonical s) (vr : Nat) (base limit ctl : Word) : Canonical (s.mint vr base limit ctl).1 := by
  unfold State.mint
  exact h.onVr _ _

theorem nextCanonical_execGrant {s : State} (h : Canonical s) (d a b c : Reg) : NextCanonical (execGrant d a b c s) :=
  .next (h.dispatchBlocked _ _ _ (fun _ h => h.mint _ _ _ _) _)


theorem Canonical.dispatchPark {s : State} (h : Canonical s) (i : Instr) (vals : List Word) (k : FabChecks) :
    Canonical (s.dispatchPark i vals k) := by
  unfold State.dispatchPark
  refine Canonical.checked ?_ _ _ ?_
  · exact h
  · intro s1 h1
    split
    · exact h1.block
    · exact ((h1.push _ _).onMe _).tickUid

theorem nextCanonical_execRfeat {s : State} (h : Canonical s) (d v t : Reg) : NextCanonical (execRfeat d v t s) := by
  unfold Machine.execRfeat
  exact .next (h.dispatchPark _ _ _)

theorem nextCanonical_execRprobe {s : State} (h : Canonical s) (d a v t : Reg) : NextCanonical (execRprobe d a v t s) := by
  unfold Machine.execRprobe
  exact .next (h.dispatchPark _ _ _)

theorem nextCanonical_execRcas {s : State} (h : Canonical s) (d a b v t : Reg) (m : FMem) : NextCanonical (execRcas d a b v t m s) := by
  unfold Machine.execRcas
  exact .next (h.dispatchPark _ _ _)

theorem nextCanonical_execRatom {s : State} (h : Canonical s) (op : BitVec 3) (d a b v t : Reg) (m : FMem) :
    NextCanonical (execRatom op d a b v t m s) := by
  unfold Machine.execRatom
  exact .next (h.dispatchPark _ _ _)

theorem nextCanonical_execRsth {s : State} (h : Canonical s) (blk : Bool) (b a v t h1 : Reg) (m : FMem) :
    NextCanonical (execRsth blk b a v t h1 m s) := by
  unfold Machine.execRsth
  exact .next (h.dispatchWord _ _ _)

theorem nextCanonical_execRst {s : State} (h : Canonical s) (blk : Bool) (b a v t : Reg) (m : FMem) : NextCanonical (execRst blk b a v t m s) := by
  unfold Machine.execRst
  exact .next (h.dispatchWord _ _ _)

theorem nextCanonical_execRld {s : State} (h : Canonical s) (blk : Bool) (d a v t : Reg) (m : FMem) : NextCanonical (execRld blk d a v t m s) := by
  unfold Machine.execRld
  refine .next ?_
  split
  exact h.dispatchPark _ _ _

theorem Canonical.dispatchEntry {s : State} (h : Canonical s) (e : Engine) (i : Instr) : Canonical (s.dispatchEntry e i) := by
  unfold State.dispatchEntry
  exact h.enqueue _ _ _ _ _

theorem nextCanonical_execQfence {s : State} (h : Canonical s) (e : Engine) (mask : BitVec 16) : NextCanonical (execQfence e mask s) := by
  unfold Machine.execQfence
  exact .next (h.dispatchEntry _ _)

theorem nextCanonical_execTmode {s : State} (h : Canonical s) (tr : Bool) : NextCanonical (execTmode tr s) := by
  unfold Machine.execTmode
  exact .next (h.dispatchEntry _ _)

theorem Canonical.dispatchRec {s : State} (h : Canonical s) (e : Engine) (cls : BitVec 4) (i : Instr) (r : Rec) (c : Cap) (w : Wants) (k : Checks) (foots : Option (List Foot)) :
    Canonical (s.dispatchRec e cls i r c w k foots) := by
  unfold State.dispatchRec
  extract_lets fs
  refine Canonical.checked ?_ _ _ ?_
  · exact h
  · intro s1 h1
    exact h1.enqueue _ _ _ _ _

theorem nextCanonical_execTfetch {s : State} (h : Canonical s) (r : Rec) : NextCanonical (execTfetch r s) := by
  unfold Machine.execTfetch
  refine .next ?_
  split
  · exact h.dispatchRec _ _ _ _ _ _ _ _
  · exact h

theorem nextCanonical_execTwload {s : State} (h : Canonical s) (r : Rec) : NextCanonical (execTwload r s) := by
  unfold Machine.execTwload
  refine .next ?_
  split
  · extract_lets c
    split
    exact h.dispatchRec _ _ _ _ _ _ _ _
  · exact h

theorem nextCanonical_execTprefetch {s : State} (h : Canonical s) (r : Rec) : NextCanonical (execTprefetch r s) := by
  unfold Machine.execTprefetch
  refine .next ?_
  split
  · exact h.dispatchRec _ _ _ _ _ _ _ _
  · exact h

theorem Canonical.dispatchUnmap {s : State} (h : Canonical s) (i : Instr) (r : Rec) : Canonical (s.dispatchUnmap i r) := by
  unfold State.dispatchUnmap
  split
  · exact h.dispatchRec _ _ _ _ _ _ _ _
  · exact h

theorem nextCanonical_execTflush {s : State} (h : Canonical s) (r : Rec) : NextCanonical (execTflush r s) := by
  unfold Machine.execTflush
  exact .next (h.dispatchUnmap _ _)

theorem nextCanonical_execTunmap {s : State} (h : Canonical s) (r : Rec) : NextCanonical (execTunmap r s) := by
  unfold Machine.execTunmap
  exact .next (h.dispatchUnmap _ _)

theorem nextCanonical_execTmap {s : State} (h : Canonical s) (r : Rec) : NextCanonical (execTmap r s) := by
  unfold Machine.execTmap
  refine .next ?_
  split
  · extract_lets c
    split
    exact h.dispatchRec _ _ _ _ _ _ _ _
  · exact h

theorem nextCanonical_execTfill {s : State} (h : Canonical s) (r : Rec) : NextCanonical (execTfill r s) := by
  unfold Machine.execTfill
  refine .next ?_
  split
  · exact h.dispatchRec _ _ _ _ _ _ _ _
  · exact h

theorem nextCanonical_execTscatter {s : State} (h : Canonical s) (r : Rec) : NextCanonical (execTscatter r s) := by
  unfold Machine.execTscatter
  refine .next ?_
  split
  · exact h.dispatchRec _ _ _ _ _ _ _ _
  · exact h

theorem nextCanonical_execTgather {s : State} (h : Canonical s) (r : Rec) : NextCanonical (execTgather r s) := by
  unfold Machine.execTgather
  refine .next ?_
  split
  · exact h.dispatchRec _ _ _ _ _ _ _ _
  · exact h

theorem nextCanonical_execTcopy {s : State} (h : Canonical s) (r : Rec) : NextCanonical (execTcopy r s) := by
  unfold Machine.execTcopy
  refine .next ?_
  split
  · exact h.dispatchRec _ _ _ _ _ _ _ _
  · exact h

theorem nextCanonical_execMmode {s : State} (h : Canonical s) (rm : RMode) (ovf : Bool) (en : BitVec 5) : NextCanonical (execMmode rm ovf en s) := by
  unfold Machine.execMmode
  exact .next (h.dispatchEntry _ _)

theorem Canonical.dispatchBank {s : State} (h : Canonical s) (i : Instr) (r : Rec) (t0one : Bool) (types : Cap → Bool) (foots : Cap → Option (List Foot)) :
    Canonical (s.dispatchBank i r t0one types foots) := by
  unfold State.dispatchBank
  split
  · exact h.dispatchRec _ _ _ _ _ _ _ _
  · exact h

theorem nextCanonical_execMstat {s : State} (h : Canonical s) (r : Rec) : NextCanonical (execMstat r s) := by
  unfold Machine.execMstat
  exact .next (h.dispatchBank _ _ _ _ _)

theorem nextCanonical_execMfold {s : State} (h : Canonical s) (r : Rec) : NextCanonical (execMfold r s) := by
  unfold Machine.execMfold
  exact .next (h.dispatchBank _ _ _ _ _)

theorem nextCanonical_execMdrain {s : State} (h : Canonical s) (r : Rec) : NextCanonical (execMdrain r s) := by
  unfold Machine.execMdrain
  exact .next (h.dispatchBank _ _ _ _ _)

theorem nextCanonical_execMlda {s : State} (h : Canonical s) (r : Rec) : NextCanonical (execMlda r s) := by
  unfold Machine.execMlda
  exact .next (h.dispatchBank _ _ _ _ _)

theorem nextCanonical_execMzero {s : State} (h : Canonical s) (r : Rec) : NextCanonical (execMzero r s) := by
  unfold Machine.execMzero
  exact .next (h.dispatchBank _ _ _ _ _)

theorem Canonical.dispatchMul {s : State} (h : Canonical s) (i : Instr) (r : Rec) (gang sparse asrc : Bool) :
    Canonical (s.dispatchMul i r gang sparse asrc) := by
  unfold State.dispatchMul
  split
  · exact h.dispatchRec _ _ _ _ _ _ _ _
  · exact h

theorem nextCanonical_execMmag {s : State} (h : Canonical s) (r : Rec) : NextCanonical (execMmag r s) := by
  unfold Machine.execMmag
  exact .next (h.dispatchMul _ _ _ _ _)

theorem nextCanonical_execMmas {s : State} (h : Canonical s) (r : Rec) : NextCanonical (execMmas r s) := by
  unfold Machine.execMmas
  exact .next (h.dispatchMul _ _ _ _ _)

theorem nextCanonical_execMma {s : State} (h : Canonical s) (r : Rec) : NextCanonical (execMma r s) := by
  unfold Machine.execMma
  exact .next (h.dispatchMul _ _ _ _ _)

theorem nextCanonical_execMfree {s : State} (h : Canonical s) (r : Rec) : NextCanonical (execMfree r s) := by
  unfold Machine.execMfree
  refine .next ?_
  split
  · exact h.dispatchRec _ _ _ _ _ _ _ _
  · exact h

theorem Canonical.bankWritten {s : State} (h : Canonical s) (k : Nat) : Canonical (s.bankWritten k) := by
  unfold State.bankWritten
  exact h.same

theorem Canonical.clearClaim {s : State} (h : Canonical s) (task : Nat) (c : Claim) : Canonical (s.clearClaim task c) := by
  unfold State.clearClaim
  exact canonical_foldl h (fun s' x h' => canonical_foldl (h') (fun s' x h' => ((h'.onBank _ _).bankWritten _).onArray _ _) _) _

theorem Canonical.grantClaim {s : State} (h : Canonical s) (c : Claim) : Canonical (s.grantClaim c) := by
  unfold State.grantClaim
  exact (((canonical_foldl h (fun s' x h' => h'.onArray _ _) _).clearClaim _ _).onMe _).onMe _

theorem nextCanonical_execMlease {s : State} (h : Canonical s) (r : Rec) : NextCanonical (execMlease r s) := by
  unfold Machine.execMlease
  refine .next ?_
  split
  · extract_lets c want k
    refine Canonical.checked ?_ _ _ ?_
    · exact h
    · intro s1 h1
      split
      · exact h1.onMe _
      · split
        · exact h1.block
        · extract_lets cs
          split
          · exact h1.grantClaim _
          · exact h1.block
  · exact h

theorem nextCanonical_execVmode {s : State} (h : Canonical s) (rm : RMode) (ovf : Bool) (en : BitVec 7) : NextCanonical (execVmode rm ovf en s) := by
  unfold Machine.execVmode
  exact .next (h.dispatchEntry _ _)

theorem Canonical.dispatchVec {s : State} (h : Canonical s) (i : Instr) (r : Rec) (k : VTypes) (w : Wants) (fields : Cap → Bool) (foots : Cap → Option (List Foot)) :
    Canonical (s.dispatchVec i r k w fields foots) := by
  unfold State.dispatchVec
  split
  · exact h.dispatchRec _ _ _ _ _ _ _ _
  · exact h

theorem Canonical.dispatchRow {s : State} (h : Canonical s) (i : Instr) (r : Rec) (k : VTypes) (fields : Cap → Bool) :
    Canonical (s.dispatchRow i r k fields) := by
  unfold State.dispatchRow
  exact h.dispatchVec _ _ _ _ _ _

theorem nextCanonical_execVamax {s : State} (h : Canonical s) (r : Rec) : NextCanonical (execVamax r s) := by
  unfold Machine.execVamax
  exact .next (h.dispatchRow _ _ _ _)

theorem Canonical.dispatchElem {s : State} (h : Canonical s) (i : Instr) (r : Rec) (k : VTypes) : Canonical (s.dispatchElem i r k) := by
  unfold State.dispatchElem
  exact h.dispatchVec _ _ _ _ _ _

theorem nextCanonical_execVrng {s : State} (h : Canonical s) (r : Rec) : NextCanonical (execVrng r s) := by
  unfold Machine.execVrng
  exact .next (h.dispatchElem _ _ _)

theorem nextCanonical_execVscat {s : State} (h : Canonical s) (r : Rec) : NextCanonical (execVscat r s) := by
  unfold Machine.execVscat
  exact .next (h.dispatchVec _ _ _ _ _ _)

theorem nextCanonical_execVgath {s : State} (h : Canonical s) (r : Rec) : NextCanonical (execVgath r s) := by
  unfold Machine.execVgath
  exact .next (h.dispatchVec _ _ _ _ _ _)

theorem nextCanonical_execVargmax {s : State} (h : Canonical s) (r : Rec) : NextCanonical (execVargmax r s) := by
  unfold Machine.execVargmax
  exact .next (h.dispatchRow _ _ _ _)

theorem nextCanonical_execVtopk {s : State} (h : Canonical s) (r : Rec) : NextCanonical (execVtopk r s) := by
  unfold Machine.execVtopk
  exact .next (h.dispatchVec _ _ _ _ _ _)

theorem nextCanonical_execVscan {s : State} (h : Canonical s) (r : Rec) : NextCanonical (execVscan r s) := by
  unfold Machine.execVscan
  exact .next (h.dispatchElem _ _ _)

theorem nextCanonical_execVmaxr {s : State} (h : Canonical s) (r : Rec) : NextCanonical (execVmaxr r s) := by
  unfold Machine.execVmaxr
  exact .next (h.dispatchRow _ _ _ _)

theorem nextCanonical_execVdot {s : State} (h : Canonical s) (r : Rec) : NextCanonical (execVdot r s) := by
  unfold Machine.execVdot
  exact .next (h.dispatchRow _ _ _ _)

theorem nextCanonical_execVsum {s : State} (h : Canonical s) (r : Rec) : NextCanonical (execVsum r s) := by
  unfold Machine.execVsum
  exact .next (h.dispatchRow _ _ _ _)

theorem nextCanonical_execVerf {s : State} (h : Canonical s) (r : Rec) : NextCanonical (execVerf r s) := by
  unfold Machine.execVerf
  exact .next (h.dispatchElem _ _ _)

theorem nextCanonical_execVtanh {s : State} (h : Canonical s) (r : Rec) : NextCanonical (execVtanh r s) := by
  unfold Machine.execVtanh
  exact .next (h.dispatchElem _ _ _)

theorem nextCanonical_execVlog2 {s : State} (h : Canonical s) (r : Rec) : NextCanonical (execVlog2 r s) := by
  unfold Machine.execVlog2
  exact .next (h.dispatchElem _ _ _)

theorem nextCanonical_execVlog {s : State} (h : Canonical s) (r : Rec) : NextCanonical (execVlog r s) := by
  unfold Machine.execVlog
  exact .next (h.dispatchElem _ _ _)

theorem nextCanonical_execVexp2 {s : State} (h : Canonical s) (r : Rec) : NextCanonical (execVexp2 r s) := by
  unfold Machine.execVexp2
  exact .next (h.dispatchElem _ _ _)

theorem nextCanonical_execVexp {s : State} (h : Canonical s) (r : Rec) : NextCanonical (execVexp r s) := by
  unfold Machine.execVexp
  exact .next (h.dispatchElem _ _ _)

theorem nextCanonical_execVrsqrt {s : State} (h : Canonical s) (r : Rec) : NextCanonical (execVrsqrt r s) := by
  unfold Machine.execVrsqrt
  exact .next (h.dispatchElem _ _ _)

theorem nextCanonical_execVsqrt {s : State} (h : Canonical s) (r : Rec) : NextCanonical (execVsqrt r s) := by
  unfold Machine.execVsqrt
  exact .next (h.dispatchElem _ _ _)

theorem nextCanonical_execVrcp {s : State} (h : Canonical s) (r : Rec) : NextCanonical (execVrcp r s) := by
  unfold Machine.execVrcp
  exact .next (h.dispatchElem _ _ _)

theorem nextCanonical_execVdeq {s : State} (h : Canonical s) (r : Rec) : NextCanonical (execVdeq r s) := by
  unfold Machine.execVdeq
  exact .next (h.dispatchVec _ _ _ _ _ _)

theorem nextCanonical_execVquant {s : State} (h : Canonical s) (r : Rec) : NextCanonical (execVquant r s) := by
  unfold Machine.execVquant
  exact .next (h.dispatchVec _ _ _ _ _ _)

theorem nextCanonical_execVcvt {s : State} (h : Canonical s) (r : Rec) : NextCanonical (execVcvt r s) := by
  unfold Machine.execVcvt
  exact .next (h.dispatchVec _ _ _ _ _ _)

theorem nextCanonical_execVfill {s : State} (h : Canonical s) (r : Rec) : NextCanonical (execVfill r s) := by
  unfold Machine.execVfill
  exact .next (h.dispatchElem _ _ _)

theorem nextCanonical_execVmov {s : State} (h : Canonical s) (r : Rec) : NextCanonical (execVmov r s) := by
  unfold Machine.execVmov
  exact .next (h.dispatchElem _ _ _)

theorem nextCanonical_execVsel {s : State} (h : Canonical s) (r : Rec) : NextCanonical (execVsel r s) := by
  unfold Machine.execVsel
  exact .next (h.dispatchElem _ _ _)

theorem nextCanonical_execVcmp {s : State} (h : Canonical s) (r : Rec) : NextCanonical (execVcmp r s) := by
  unfold Machine.execVcmp
  exact .next (h.dispatchElem _ _ _)

theorem nextCanonical_execVsar {s : State} (h : Canonical s) (r : Rec) : NextCanonical (execVsar r s) := by
  unfold Machine.execVsar
  exact .next (h.dispatchElem _ _ _)

theorem nextCanonical_execVshr {s : State} (h : Canonical s) (r : Rec) : NextCanonical (execVshr r s) := by
  unfold Machine.execVshr
  exact .next (h.dispatchElem _ _ _)

theorem nextCanonical_execVshl {s : State} (h : Canonical s) (r : Rec) : NextCanonical (execVshl r s) := by
  unfold Machine.execVshl
  exact .next (h.dispatchElem _ _ _)

theorem nextCanonical_execVnot {s : State} (h : Canonical s) (r : Rec) : NextCanonical (execVnot r s) := by
  unfold Machine.execVnot
  exact .next (h.dispatchElem _ _ _)

theorem nextCanonical_execVxor {s : State} (h : Canonical s) (r : Rec) : NextCanonical (execVxor r s) := by
  unfold Machine.execVxor
  exact .next (h.dispatchElem _ _ _)

theorem nextCanonical_execVor {s : State} (h : Canonical s) (r : Rec) : NextCanonical (execVor r s) := by
  unfold Machine.execVor
  exact .next (h.dispatchElem _ _ _)

theorem nextCanonical_execVand {s : State} (h : Canonical s) (r : Rec) : NextCanonical (execVand r s) := by
  unfold Machine.execVand
  exact .next (h.dispatchElem _ _ _)

theorem nextCanonical_execVround {s : State} (h : Canonical s) (r : Rec) : NextCanonical (execVround r s) := by
  unfold Machine.execVround
  exact .next (h.dispatchElem _ _ _)

theorem nextCanonical_execVclamp {s : State} (h : Canonical s) (r : Rec) : NextCanonical (execVclamp r s) := by
  unfold Machine.execVclamp
  exact .next (h.dispatchElem _ _ _)

theorem nextCanonical_execVcopysign {s : State} (h : Canonical s) (r : Rec) : NextCanonical (execVcopysign r s) := by
  unfold Machine.execVcopysign
  exact .next (h.dispatchElem _ _ _)

theorem nextCanonical_execVneg {s : State} (h : Canonical s) (r : Rec) : NextCanonical (execVneg r s) := by
  unfold Machine.execVneg
  exact .next (h.dispatchElem _ _ _)

theorem nextCanonical_execVabs {s : State} (h : Canonical s) (r : Rec) : NextCanonical (execVabs r s) := by
  unfold Machine.execVabs
  exact .next (h.dispatchElem _ _ _)

theorem nextCanonical_execVmax {s : State} (h : Canonical s) (r : Rec) : NextCanonical (execVmax r s) := by
  unfold Machine.execVmax
  exact .next (h.dispatchElem _ _ _)

theorem nextCanonical_execVmin {s : State} (h : Canonical s) (r : Rec) : NextCanonical (execVmin r s) := by
  unfold Machine.execVmin
  exact .next (h.dispatchElem _ _ _)

theorem nextCanonical_execVdiv {s : State} (h : Canonical s) (r : Rec) : NextCanonical (execVdiv r s) := by
  unfold Machine.execVdiv
  exact .next (h.dispatchElem _ _ _)

theorem nextCanonical_execVfms {s : State} (h : Canonical s) (r : Rec) : NextCanonical (execVfms r s) := by
  unfold Machine.execVfms
  exact .next (h.dispatchElem _ _ _)

theorem nextCanonical_execVfma {s : State} (h : Canonical s) (r : Rec) : NextCanonical (execVfma r s) := by
  unfold Machine.execVfma
  exact .next (h.dispatchElem _ _ _)

theorem nextCanonical_execVmul {s : State} (h : Canonical s) (r : Rec) : NextCanonical (execVmul r s) := by
  unfold Machine.execVmul
  exact .next (h.dispatchElem _ _ _)

theorem nextCanonical_execVsub {s : State} (h : Canonical s) (r : Rec) : NextCanonical (execVsub r s) := by
  unfold Machine.execVsub
  exact .next (h.dispatchElem _ _ _)

theorem nextCanonical_execVadd {s : State} (h : Canonical s) (r : Rec) : NextCanonical (execVadd r s) := by
  unfold Machine.execVadd
  exact .next (h.dispatchElem _ _ _)

theorem Canonical.endRun {s : State} (h : Canonical s) (core : Nat) (e : Engine) : Canonical (s.endRun core e) := by
  unfold State.endRun
  exact h.onCore _ _

theorem Canonical.putElem {s : State} (h : Canonical s) (lc base : Nat) (f : Fmt) (e v : Nat) : Canonical (s.putElem lc base f e v) := by
  unfold State.putElem
  split
  exact h.spPut _ _ _

theorem Canonical.CCtx_write {s : State} (h : Canonical s) (q : CCtx) (o : Operand) (l : List (Point × Nat)) : Canonical (CCtx.write q o s l) := by
  unfold CCtx.write
  refine canonical_foldl ?_ (fun s' x h' => ?_) _
  · exact h
  · split
    exact h'.putElem _ _ _ _ _

theorem Canonical.CCtx_results {s : State} (h : Canonical s) (q : CCtx) (k : Coll) : Canonical (q.results k s) := by
  unfold CCtx.results
  dsimp only
  split
  · exact h.CCtx_write _ _ _
  · exact h.CCtx_write _ _ _
  · exact h.CCtx_write _ _ _
  · exact h.CCtx_write _ _ _
  · exact (h.CCtx_write _ _ _).CCtx_write _ _ _
  · exact h


theorem Canonical.CCtx_settleWhole {s : State} (h : Canonical s) (q : CCtx) (k : Coll) : Canonical (CCtx.settleWhole q s k).state := by
  unfold CCtx.settleWhole
  exact h.CCtx_results _ _

theorem Canonical.CCtx_advDown {s : State} (h : Canonical s) (q : CCtx) (k : Coll) : Canonical (q.advDown s k).state := by
  unfold CCtx.advDown
  dsimp only
  generalize (if q.cm.rank = 0 then _ else _ : Option (List Nat × List Nat × BitVec 8)) = got
  cases got with
  | none => exact h
  | some x => exact h.CCtx_settleWhole _ _


theorem Canonical.CCtx_advUp {s : State} (h : Canonical s) (q : CCtx) (k : Coll) : Canonical (CCtx.advUp q s k).state := by
  unfold CCtx.advUp
  extract_lets r l
  split
  · exact h.CCtx_settleWhole _ _
  · split
    · exact h
    · split
      · exact h
      · split
        · exact h
        · exact h

theorem Canonical.CCtx_start {s : State} (h : Canonical s) (q : CCtx) (k : Coll) : Canonical (CCtx.start q s k).state := by
  unfold CCtx.start
  extract_lets r n
  split
  · exact h
  · split
    · exact h.CCtx_settleWhole _ _
    · exact h
  · exact h
  · exact h

theorem Canonical.CCtx_onComm {s : State} (h : Canonical s) (q : CCtx) (f : Comm → Comm) : Canonical (CCtx.onComm q f s) := by
  unfold CCtx.onComm
  refine Canonical.onLcore ?_ _ fun _ h => h
  exact h

theorem Canonical.fillAll {s : State} (h : Canonical s) (lc : Nat) (l : List Nat) : Canonical (State.fillAll lc l s).1 := by
  induction l generalizing s with
  | nil => exact h
  | cons i t ih =>
    unfold State.fillAll
    have hf := h.fill lc i
    split
    · exact ih (hf.of_eq ‹_›)
    · exact hf.of_eq ‹_›
    · exact hf.of_eq ‹_›


theorem Canonical.touchSpans {s : State} (h : Canonical s) (lc : Nat) (spans : List (Nat × Nat)) : Canonical (s.touchSpans lc spans).1 := by
  unfold State.touchSpans
  split
  · exact h
  · exact h.fillAll _ _

theorem Canonical.CCtx_purge {s : State} (h : Canonical s) (q : CCtx) (p : Staged → Bool) : Canonical (CCtx.purge q p s) := by
  unfold CCtx.purge
  exact h.onVr _ _

theorem Canonical.putStatus {s : State} (h : Canonical s) (x : Entry) (r : Rec) (w : Word) : Canonical (s.putStatus x r w) := by
  unfold State.putStatus
  split
  · exact h.spPut _ _ _
  · exact h

theorem Canonical.CCtx_finish {s : State} (h : Canonical s) (q : CCtx) (inst : Nat) (fl : Flags) (code : BitVec 8) :
    Canonical (CCtx.finish q s inst fl code) := by
  unfold CCtx.finish
  exact ((h.CCtx_purge _ _).putStatus _ _ _).endRun _ _

theorem Canonical.CCtx_advColl {s : State} (h : Canonical s) (q : CCtx) (k : Coll) : Canonical (CCtx.advColl q s k).state := by
  unfold CCtx.advColl
  split
  · split
    · exact h.CCtx_finish _ _ _ _
    · extract_lets inst s1 contrib
      have hs1 : Canonical s1 := h.CCtx_purge _ _
      split
      · exact (hs1.touchSpans _ _).of_eq ‹_›
      · exact ((hs1.touchSpans _ _).of_eq ‹_›).CCtx_onComm _ _
      · exact (hs1.touchSpans _ _).of_eq ‹_›
  · split
    · exact h
    · exact (h.CCtx_onComm _ _).CCtx_start _ _
    · exact h.CCtx_onComm _ _
  · exact h.CCtx_advUp _ _
  · exact h.CCtx_advDown _ _
  · split
    · exact h.CCtx_finish _ _ _ _
    · exact h
  · split
    · exact h.CCtx_finish _ _ _ _
    · exact h
  · split
    · exact h.CCtx_finish _ _ _ _
    · exact h

theorem Canonical.CCtx_takeJoins {s : State} (h : Canonical s) (q : CCtx) : Canonical (CCtx.takeJoins q s) := by
  unfold CCtx.takeJoins
  refine canonical_foldl ?_ (fun s' x h' => ?_) _
  · exact h
  · split
    · exact h'.onVr _ _
    · exact h'

theorem Canonical.CCtx_joinFails {s : State} (h : Canonical s) (q : CCtx) : Canonical (CCtx.joinFails q s) := by
  unfold CCtx.joinFails
  exact (h.CCtx_onComm _ _).CCtx_finish _ _ _ _

theorem Canonical.CCtx_advJoin {s : State} (h : Canonical s) (q : CCtx) (k : Coll) : Canonical (q.advJoin s k).state := by
  unfold CCtx.advJoin
  extract_lets launch o1 o2
  split
  · have ht := h.touchSpans q.lc (q.x.cap.a.spans (linPoints (tripN q.x.cap.trips 0)) ++ (statFoot q.r).map fun f => (f.lo, f.hi))
    split
    · exact ht.of_eq ‹_›
    · rename_i s1 _ e
      have h1 : Canonical s1 := ht.of_eq e
      refine Canonical.CCtx_finish (h1.onLcore _ ?_) _ _ _ _
      exact fun _ hl => hl
    · rename_i s1 e
      extract_lets ids rank bad cm again q1 out s2 s3
      have h1 : Canonical s1 := ht.of_eq e
      have h2 : Canonical s2 := by
        refine h1.onLcore _ ?_
        exact fun _ hl => hl
      have h3 : Canonical s3 := by
        unfold s3
        split
        · exact h2
        · exact h2.CCtx_purge _ _
      split
      · exact h3.CCtx_joinFails _
      · exact h3
  · have h1 : Canonical o1 := h.CCtx_onComm _ _
    split
    · exact h1
    · split
      · exact h1
      · have h2 : Canonical o2 := (h1.CCtx_takeJoins _).CCtx_onComm _ _
        dsimp only [Adv.state]
        split
        · exact h2.CCtx_finish _ _ _ _
        · exact h2.CCtx_joinFails _


theorem Canonical.onRun {s : State} (h : Canonical s) (core : Nat) (e : Engine) (f : Run → Run) : Canonical (s.onRun core e f) := by
  unfold State.onRun
  exact h.onCore _ _

theorem Canonical.CCtx_run {s : State} (h : Canonical s) (q : CCtx) (n : Nat) (k : Coll) : Canonical (q.run n s k) := by
  induction n generalizing s q k with
  | zero => exact h.onRun _ _ _
  | succ n ih =>
    unfold CCtx.run
    have hp := h.sendPieces (s.senderOf q.x.ref) 0 k.out
    generalize State.sendPieces (s.senderOf q.x.ref) 0 k.out s = r at hp
    obtain ⟨s1, left⟩ := r
    dsimp only
    generalize ({ q with cm := _ } : CCtx) = q1
    have ha (k : Coll) : Canonical (match q.x.instr with | .cjoin _ => q1.advJoin s1 k | _ => q1.advColl s1 k).state := by
      split
      · exact Canonical.CCtx_advJoin hp _ _
      · exact Canonical.CCtx_advColl hp _ _
    split
    · exact ih (Canonical.of_advGo (ha _) ‹_›) _ _
    · exact (Canonical.of_advWait (ha _) ‹_›).onRun _ _ _
    · exact Canonical.of_advDone (ha _) ‹_›


theorem Canonical.completeColl {s : State} (h : Canonical s) (core : Nat) (u : Run) : Canonical (s.completeColl core u) := by
  unfold State.completeColl
  split
  · exact h.CCtx_run _ _ _
  · exact h.endRun _ _

theorem Canonical.wordUnfilled {s : State} (h : Canonical s) (x : Entry) : Canonical (s.wordUnfilled x) := by
  unfold State.wordUnfilled
  extract_lets va
  split
  · split
    · exact h.trapOn _ _ _ _
    · exact h
  · exact h.addRfail _ _ _

theorem Canonical.injectRest {s : State} (h : Canonical s) (core : Nat) (by_ : Sender) (uid : Nat) (ps : List RPiece) :
    Canonical (s.injectRest core by_ uid ps) := by
  unfold State.injectRest
  split
  · exact ((((h.sendPieces _ _ _).of_eq ‹_›).onRop _ _).finishRop _).endRun _ _
  · exact ((h.sendPieces _ _ _).of_eq ‹_›).onRop _ _

theorem Canonical.inject {s : State} (h : Canonical s) (core : Nat) (u : Run) : Canonical (s.inject core u) := by
  unfold State.inject
  extract_lets x
  split
  · exact h.injectRest _ _ _ _
  · split
    · exact h.endRun _ _
    · split
      · exact (h.touchSpans _ _).of_eq ‹_›
      · refine Canonical.endRun ?_ _ _
        split
        · exact (h.touchSpans _ _).of_eq ‹_›
        · exact ((h.touchSpans _ _).of_eq ‹_›).wordUnfilled _
      · extract_lets s1 ps
        have hs1 : Canonical s1 := ((h.touchSpans _ _).of_eq ‹_›).onRun _ _ _
        split
        · exact (hs1.same.finishRop _).endRun _ _
        · split
          · exact (hs1.same.onStrand _ _).endRun _ _
          · split
            · exact hs1
            · exact hs1.same.injectRest _ _ _ _

theorem Canonical.addErr {s : State} (h : Canonical s) (r : Ref) (sid : Nat) (f : Failure) : Canonical (s.addErr r sid f) := by
  unfold State.addErr
  split
  · exact h.onStrand _ _
  · refine Canonical.onLcore ?_ _ fun _ h => h
    exact h

theorem Canonical.engineError {s : State} (h : Canonical s) (x : Entry) (cls : BitVec 4) : Canonical (s.engineError x cls) := by
  unfold State.engineError
  exact h.addErr _ _ _

theorem Canonical.endTransfer {s : State} (h : Canonical s) (core : Nat) (u : Run) (r : Rec) (fl : Flags) (n : Nat) (code : BitVec 8) :
    Canonical (s.endTransfer core u r fl n code) := by
  unfold State.endTransfer
  extract_lets s1 s2
  have hs1 : Canonical s1 := h.putStatus _ _ _
  have hs2 : Canonical s2 := by
    unfold s2
    split
    · exact hs1.engineError _ _
    · exact hs1
  exact (hs2.settle _).endRun _ _

theorem Canonical.runPrefetch {s : State} (h : Canonical s) (core : Nat) (u : Run) (r : Rec) : Canonical (s.runPrefetch core u r) := by
  unfold State.runPrefetch
  extract_lets x
  split
  · exact h.later _
  · split
    · exact h
    · refine canonical_foldl ?_ (fun s' x h' => ?_) _
      · exact h
      · extract_lets va
        split
        · exact h'
        · split
          · exact h'.enterFault _ _ _ _ _ _ _ _
          · exact h'

theorem Canonical.holdBack {s : State} (h : Canonical s) (x : Entry) (lc idx : Nat) (old : Region) (cls : BitVec 4) (evict : Bool) :
    Canonical (s.holdBack x lc idx old cls evict) := by
  unfold State.holdBack
  exact h.onStrand _ _

theorem Canonical.runEvict {s : State} (h : Canonical s) (u : Run) (r : Rec) (e : Evict) : Canonical (s.runEvict u r e).state := by
  have put {s : State} (h : Canonical s) (lc i : Nat) (g : Region) : Canonical (s.onLcore lc fun l => l.setRegion i g) :=
    h.onLcore _ fun _ hl => hl
  unfold State.runEvict
  dsimp only
  split
  · exact put h _ _ _
  · split
    · exact h
    · split
      · exact put (h.holdBack _ _ _ _ _ _) _ _ _
      · split
        · exact h
        · have hw := h.writeBack (lckey u.e.ref.task u.e.ref.lcore) u.e.cap.d.val.toNat
          split
          · exact put (hw.of_eq ‹_›) _ _ _
          · exact Canonical.onLcore (hw.of_eq ‹_›) _ fun _ hl => hl
          · exact hw.of_eq ‹_›


theorem Canonical.afterStatus {s : State} (h : Canonical s) (u : Run) (r : Rec) {k : State → Done}
    (hk : ∀ s, Canonical s → Canonical (k s).state) : Canonical (s.afterStatus u r k).state := by
  unfold State.afterStatus
  split
  · exact (h.touchSpans _ _).of_eq ‹_›
  · exact (h.touchSpans _ _).of_eq ‹_›
  · exact hk _ ((h.touchSpans _ _).of_eq ‹_›)


theorem Canonical.nearPut {s : State} (h : Canonical s) (lc : Nat) (f : Fmt) (o : Operand) (p : Point) (v : Nat) :
    Canonical (s.nearPut lc f o p v) := by
  unfold State.nearPut
  exact h.putElem _ _ _ _ _

theorem Canonical.fetchElem {s : State} (h : Canonical s) (core : Nat) (x : Entry) (r : Rec) (lc : Nat) (later : Bool) (p : Point) :
    Canonical (fetchElem core x r lc later p s).state := by
  unfold Machine.fetchElem
  dsimp only
  split
  · exact h
  · dsimp only [ElemAns.state]
    split
    · exact h
    · exact h.nearPut _ _ _ _ _


theorem Canonical.farWrite {s : State} (h : Canonical s) (core : Nat) (x : Entry) (r : Rec) (a : ℤ) (bs : List Byte) :
    Canonical (s.farWrite core x r a bs).state := by
  unfold State.farWrite
  split
  · exact h
  · split
    · exact h.onStrand _ _
    · split
      · exact h
      · split
        · exact h
        · split
          · exact (h.gvWrite _ _ _).of_eq ‹_›
          · exact (h.gvWrite _ _ _).of_eq ‹_›
          · exact (h.gvWrite _ _ _).of_eq ‹_›

theorem Canonical.fillElem {s : State} (h : Canonical s) (core : Nat) (x : Entry) (r : Rec) (lc : Nat) (x1 : Bool) (p : Point) :
    Canonical (fillElem core x r lc x1 p s).state := by
  unfold Machine.fillElem
  extract_lets c w
  split
  · exact h.nearPut _ _ _ _ _
  · exact h.farWrite _ _ _ _ _

theorem Canonical.tscatterElem {s : State} (h : Canonical s) (core : Nat) (x : Entry) (r : Rec) (lc : Nat) (x1 : Bool) (p : Point) :
    Canonical (tscatterElem core x r lc x1 p s).state := by
  unfold Machine.tscatterElem
  exact h.farWrite _ _ _ _ _

theorem Canonical.farRead {s : State} (h : Canonical s) (core : Nat) (x : Entry) (a : Int) (w : Nat) {k : State → List Byte → State}
    (hk : ∀ s bs, Canonical s → Canonical (k s bs)) : Canonical (s.farRead core x a w k).state := by
  unfold State.farRead
  split
  · exact h
  · split
    · exact h
    · have hr := h.gvRead (s.recAcc core x rR) a.toNat w
      split
      · exact hk _ _ (hr.of_eq ‹_›)
      · exact hr.of_eq ‹_›
      · exact hr.of_eq ‹_›


theorem Canonical.tgatherElem {s : State} (h : Canonical s) (core : Nat) (x : Entry) (r : Rec) (lc : Nat) (later : Bool) (p : Point) :
    Canonical (tgatherElem core x r lc later p s).state := by
  unfold Machine.tgatherElem
  extract_lets c w
  refine Canonical.farRead ?_ _ _ _ _ ?_
  · exact h
  · intro s1 bs h1
    split
    · exact h1
    · exact h1.nearPut _ _ _ _ _

theorem Canonical.copyElem {s : State} (h : Canonical s) (core : Nat) (x : Entry) (r : Rec) (lc : Nat) (later : Bool) (p : Point) :
    Canonical (copyElem core x r lc later p s).state := by
  unfold Machine.copyElem
  extract_lets c w
  split
  · split
    · exact h.nearPut _ _ _ _ _
    · refine Canonical.farRead ?_ _ _ _ _ ?_
      · exact h
      · intro s1 bs h1
        split
        · exact h1
        · exact h1.nearPut _ _ _ _ _
  · exact h.farWrite _ _ _ _ _

theorem Canonical.elemPass {s : State} (h : Canonical s) {f : Bool → Point → State → ElemAns}
    (hf : ∀ b p s, Canonical s → Canonical (f b p s).state) (c : Cap) (l : List Point) (done : SMap Bool) (n : Nat) (fl : Flags) (w : Bool) :
    Canonical (elemPass f c l s done n fl w).1 := by
  induction l generalizing s done n fl w with
  | nil => exact h
  | cons p t ih =>
    rw [Machine.elemPass]
    split
    · exact ih h _ _ _ _
    · have hp := hf (overwritten c done p) p s h
      split
      · exact ih (hp.of_elemWait ‹_›) _ _ _ _
      · exact ih (hp.of_elemOk ‹_›) _ _ _ _
      · exact ih (hp.of_elemRefused ‹_›) _ _ _ _


theorem Canonical.runCopy {s : State} (h : Canonical s) (core : Nat) (u : Run) (r : Rec) {f : Nat → Bool → Point → State → ElemAns}
    (hf : ∀ lc b p s, Canonical s → Canonical (f lc b p s).state) : Canonical (s.runCopy core u r f).state := by
  unfold State.runCopy
  dsimp only
  split
  · exact h
  · split
    · exact (h.touchSpans _ _).of_eq ‹_›
    · split
      · exact (h.touchSpans _ _).of_eq ‹_›
      · exact (h.touchSpans _ _).of_eq ‹_›
    · have hp := ((h.touchSpans _ _).of_eq ‹_›).elemPass (hf (lckey u.e.ref.task u.e.ref.lcore)) u.e.cap
      split
      · exact Canonical.onRun (hp _ _ _ _ _) _ _ _
      · exact hp _ _ _ _ _


theorem Canonical.runTransfer {s : State} (h : Canonical s) (core : Nat) (u : Run) : ∀ t ∈ s.runTransfer core u, Canonical t.2.state := by
  have hsome {r : Rec} {d : Done} (hd : Canonical d.state) : ∀ t ∈ some (r, d), Canonical t.2.state := fun t ht => Option.some.inj ht ▸ hd
  unfold State.runTransfer
  dsimp only
  split
  · exact hsome (h.runCopy _ _ _ fun lc b p s h => h.copyElem _ _ _ _ _ _)
  · exact hsome (h.runCopy _ _ _ fun lc b p s h => h.tgatherElem _ _ _ _ _ _)
  · exact hsome (h.runCopy _ _ _ fun lc b p s h => h.tscatterElem _ _ _ _ _ _)
  · exact hsome (h.runCopy _ _ _ fun lc b p s h => h.fillElem _ _ _ _ _ _)
  · exact hsome (h.runCopy _ _ _ fun lc b p s h => h.fetchElem _ _ _ _ _ _)
  · exact hsome (h.afterStatus _ _ fun s h => h.runEvict _ _ _)
  · exact hsome (h.afterStatus _ _ fun s h => h.runEvict _ _ _)
  · exact hsome (h.afterStatus _ _ fun s h => h.runEvict _ _ _)
  · exact hsome (h.runPrefetch _ _ _)
  · refine hsome (h.afterStatus _ _ fun s h => ?_)
    refine Canonical.onLcore h _ ?_
    exact fun _ hl => hl
  · exact fun t ht => nomatch ht


theorem Canonical.completeTransfer {s : State} (h : Canonical s) (core : Nat) (u : Run) : Canonical (s.completeTransfer core u) := by
  unfold State.completeTransfer
  split
  · exact h.runTransfer core u _ ‹_›
  · exact Canonical.endTransfer (h.runTransfer core u _ ‹_›) _ _ _ _ _ _
  · exact h.endRun _ _


theorem Canonical.ownFold {s : State} (h : Canonical s) (p k : Nat) (payer : Payer) : Canonical (s.ownFold p k payer).1 := by
  unfold State.ownFold
  extract_lets a
  split
  · exact h.foldArray _ _
  · exact h

theorem Canonical.runMstat {s : State} (h : Canonical s) (u : Run) (p k : Nat) : Canonical (s.runMstat u p k).s := by
  unfold State.runMstat
  split
  exact (h.ownFold _ _ _).of_eq ‹_›

theorem Canonical.runMfold {s : State} (h : Canonical s) (u : Run) (p k : Nat) : Canonical (s.runMfold u p k).s := by
  unfold State.runMfold
  split
  exact (h.ownFold _ _ _).of_eq ‹_›

theorem Canonical.putOne {s : State} (h : Canonical s) (lc : Nat) (p : Put) : Canonical (State.putOne lc s p) := by
  unfold State.putOne
  split
  exact h.spPut _ _ _

theorem Canonical.putAll {s : State} (h : Canonical s) (lc : Nat) (ps : List Put) : Canonical (s.putAll lc ps) := by
  unfold State.putAll
  exact canonical_foldl h (fun s' x h' => h'.putOne _ _) _

theorem Canonical.history {s : State} (h : Canonical s) (k : Nat) (fl : Flags) (ended : BitVec 8) (carries : Nat) :
    Canonical (s.history k fl ended carries) := by
  unfold State.history
  exact h.onBank _ _

theorem Canonical.runMdrain {s : State} (h : Canonical s) (u : Run) (r : Rec) (p k : Nat) : Canonical (s.runMdrain u r p k).s := by
  unfold State.runMdrain
  extract_lets x c
  split
  extract_lets b
  split
  · exact ((h.ownFold _ _ _).of_eq ‹_›).history _ _ _ _
  · exact (((h.ownFold _ _ _).of_eq ‹_›).putAll _ _).history _ _ _ _

theorem Canonical.rowsWritten {s : State} (h : Canonical s) (k i n : Nat) : Canonical (s.rowsWritten k i n) := by
  unfold State.rowsWritten
  exact h.same

theorem Canonical.discard {s : State} (h : Canonical s) (p k : Nat) : Canonical (s.discard p k) := by
  unfold State.discard
  exact h.onArray _ _

theorem Canonical.runMlda {s : State} (h : Canonical s) (u : Run) (r : Rec) (p k : Nat) : Canonical (s.runMlda u r p k).s := by
  unfold State.runMlda
  extract_lets c m n rows cells
  split
  extract_lets s1
  have hs1 : Canonical s1 := ((h.ownFold _ _ _).of_eq ‹_›).discard _ _
  split
  · exact hs1.onBank _ _
  · exact (hs1.onBank _ _).rowsWritten _ _ _

theorem Canonical.runMzero {s : State} (h : Canonical s) (u : Run) (r : Rec) (p k : Nat) : Canonical (s.runMzero u r p k).s := by
  unfold State.runMzero
  exact ((h.discard _ _).onBank _ _).bankWritten _

theorem Canonical.foldsOf {s : State} (h : Canonical s) (p k n : Nat) : Canonical (s.foldsOf p k n) := by
  unfold State.foldsOf
  exact (h.onBank _ _).onArray _ _

theorem Canonical.member {s : State} (h : Canonical s) (p k : Nat) (q : IntRun) (issues : Nat) (fl : Flags) :
    Canonical (s.member p k q issues fl) := by
  unfold State.member
  exact (((h.onBank _ _).bankWritten _).onArray _ _).history _ _ _ _

theorem Canonical.kindEnds {s : State} (h : Canonical s) (keys : List Nat) : Canonical (s.kindEnds keys).s := by
  unfold State.kindEnds
  exact canonical_foldl h (fun s' x h' => h'.history _ _ _ _) _

theorem Canonical.runMul {s : State} (h : Canonical s) (u : Run) (r : Rec) (sparse asrc : Bool) : Canonical (s.runMul u r sparse asrc).s := by
  unfold State.runMul
  extract_lets x payer m sh ts key keys src
  split
  · exact h.kindEnds _
  · split
    · exact h.kindEnds _
    · split
      split
      · generalize hf : List.foldl _ _ ts = r1
        have h1 : Canonical r1.1 := by
          rw [← hf]
          refine canonical_foldl_pair h (fun q t hq => ?_) _
          refine Canonical.member ?_ _ _ _ _ _
          split
          · exact hq
          · exact Canonical.foldArray hq _ _
        obtain ⟨s1, rs⟩ := r1
        dsimp only
        split
        · exact canonical_foldl (h.charge _ _) (fun s q h => (h.history _ _ _ _).foldsOf _ _ _) _
        · exact Canonical.charge h1 _ _
      · exact canonical_foldl (h.charge _ _)
          (fun s q h => Canonical.history (Canonical.onArray (Canonical.bankWritten (h.onBank _ _) _) _ _) _ _ _ _) _


theorem Canonical.runMat {s : State} (h : Canonical s) (u : Run) (r : Rec) : Canonical (s.runMat u r).s := by
  unfold State.runMat
  extract_lets j p k
  split
  · exact h.runMul _ _ _ _
  · exact h.runMul _ _ _ _
  · exact h.runMul _ _ _ _
  · exact h.runMzero _ _ _ _
  · exact h.runMlda _ _ _ _
  · exact h.runMdrain _ _ _ _
  · exact h.runMfold _ _ _
  · exact h.runMstat _ _ _
  · exact h

theorem Canonical.endTailClaims {s : State} (h : Canonical s) (x : Entry) (core : Nat) : Canonical (s.endTailClaims x core) := by
  unfold State.endTailClaims
  split
  · exact h
  · refine Canonical.onLcore ?_ _ fun _ h => h
    exact h

theorem Canonical.completeMat {s : State} (h : Canonical s) (core : Nat) (u : Run) : Canonical (s.completeMat core u) := by
  unfold State.completeMat
  split
  · exact (h.endRun _ _).endTailClaims _ _
  · extract_lets lc
    have ht := h.touchSpans lc (s.matSpans u.e)
    split
    · exact ht.of_eq ‹_›
    · rename_i s1 _ e
      extract_lets s2 s3
      have h2 : Canonical s2 := Canonical.putStatus (ht.of_eq e) _ _ _
      have h3 : Canonical s3 := by
        unfold s3
        split
        · exact h2.engineError _ _
        · exact h2
      exact ((h3.endRun _ _).endTailClaims _ _).endTurns
    · rename_i s1 e
      extract_lets d s2 s3
      have h2 : Canonical s2 := (Canonical.runMat (ht.of_eq e) u _).putStatus _ _ _
      have h3 : Canonical s3 := by
        unfold s3
        split
        · exact h2.engineError _ _
        · exact h2
      exact ((h3.endRun _ _).endTailClaims _ _).endTurns


theorem Canonical.endVec {s : State} (h : Canonical s) (core : Nat) (u : Run) (r : Rec) (fl : Flags) (n : Nat) (code : BitVec 8) :
    Canonical (s.endVec core u r fl n code) := by
  unfold State.endVec
  extract_lets s1 s2
  have hs1 : Canonical s1 := h.putStatus _ _ _
  have hs2 : Canonical s2 := by
    unfold s2
    split
    · exact hs1.engineError _ _
    · exact hs1
  exact hs2.endRun _ _

theorem Canonical.touchElem {s : State} (h : Canonical s) (lc a n : Nat) {k : State → State × Flags}
    (hk : ∀ s, Canonical s → Canonical (k s).1) : Canonical (s.touchElem lc a n k).state := by
  unfold State.touchElem
  split
  · exact (h.touchSpans _ _).of_eq ‹_›
  · exact (h.touchSpans _ _).of_eq ‹_›
  · exact hk _ ((h.touchSpans _ _).of_eq ‹_›)


theorem Canonical.scatElem {s : State} (h : Canonical s) (v : VCtx) (lc : Nat) (later : Bool) (p : Point) :
    Canonical (scatElem v lc later p s).state := by
  unfold Machine.scatElem
  dsimp only
  split
  · exact h
  · exact h.touchElem _ _ _ fun s h => h.putOne _ _


theorem Canonical.gathElem {s : State} (h : Canonical s) (v : VCtx) (lc : Nat) (later : Bool) (p : Point) :
    Canonical (gathElem v lc later p s).state := by
  have hput {s : State} (h : Canonical s) (x : Nat) : Canonical (if later then s else s.putOne lc (v.put p x)) := by
    split
    · exact h
    · exact h.putOne _ _
  unfold Machine.gathElem
  dsimp only
  split
  · exact hput h 0
  · exact h.touchElem _ _ _ fun s h => hput h _


theorem Canonical.runTable {s : State} (h : Canonical s) (core : Nat) (u : Run) (r : Rec) {f : VCtx → Nat → Bool → Point → State → ElemAns}
    (hf : ∀ c lc b p s, Canonical s → Canonical (f c lc b p s).state) : Canonical (s.runTable core u r f).state := by
  unfold State.runTable
  dsimp only
  split
  · exact (h.touchSpans _ _).of_eq ‹_›
  · split
    · exact (h.touchSpans _ _).of_eq ‹_›
    · exact (h.touchSpans _ _).of_eq ‹_›
  · have hp := fun c => ((h.touchSpans _ _).of_eq ‹_›).elemPass (hf c (lckey u.e.ref.task u.e.ref.lcore)) u.e.cap
    split
    · exact Canonical.onRun (hp _ _ _ _ _ _) _ _ _
    · exact hp _ _ _ _ _ _


theorem Canonical.runAmax {s : State} (h : Canonical s) (u : Run) (r : Rec) (eff : VCtx → VOut) (f : Fmt) :
    Canonical (s.runAmax u r eff f).state := by
  unfold State.runAmax
  extract_lets lc
  split
  · exact (h.touchSpans _ _).of_eq ‹_›
  · exact (h.touchSpans _ _).of_eq ‹_›
  · extract_lets v o t
    have ht : Canonical t := ((h.touchSpans _ _).of_eq ‹_›).putAll _ _
    split
    · exact ht.onStrand _ _
    · exact ht

theorem Canonical.runPlain {s : State} (h : Canonical s) (u : Run) (r : Rec) (eff : VCtx → VOut) : Canonical (s.runPlain u r eff).state := by
  unfold State.runPlain
  extract_lets lc
  split
  · exact (h.touchSpans _ _).of_eq ‹_›
  · exact (h.touchSpans _ _).of_eq ‹_›
  · exact ((h.touchSpans _ _).of_eq ‹_›).putAll _ _

theorem Canonical.runVec {s : State} (h : Canonical s) (core : Nat) (u : Run) : ∀ t ∈ s.runVec core u, Canonical t.2.state := by
  have hsome {r : Rec} {d : Done} (hd : Canonical d.state) : ∀ t ∈ some (r, d), Canonical t.2.state := fun t ht => Option.some.inj ht ▸ hd
  unfold State.runVec
  split
  case h_26 | h_46 => exact hsome (h.runAmax _ _ _ _)
  case h_43 => exact hsome (h.runTable _ _ _ fun c lc b p s h => h.gathElem _ _ _ _)
  case h_44 => exact hsome (h.runTable _ _ _ fun c lc b p s h => h.scatElem _ _ _ _)
  case h_47 => exact fun t ht => nomatch ht
  all_goals exact hsome (h.runPlain _ _ _)


theorem Canonical.completeVec {s : State} (h : Canonical s) (core : Nat) (u : Run) : Canonical (s.completeVec core u) := by
  unfold State.completeVec
  split
  · exact h.runVec core u _ ‹_›
  · exact Canonical.endVec (h.runVec core u _ ‹_›) _ _ _ _ _ _
  · exact h.endRun _ _


theorem Canonical.complete {s : State} (h : Canonical s) (core : Nat) (e : Engine) (u : Run) : Canonical (s.complete core e u) := by
  unfold State.complete
  split
  · exact h.completeVec _ _
  · exact h.completeMat _ _
  · exact h.completeTransfer _ _
  · exact h.inject _ _
  · exact h.completeColl _ _

theorem nextCanonical_execRecordCompletion {s : State} (h : Canonical s) (core : Nat) (e : Engine) :
    NextCanonical (execRecordCompletion core e s) := by
  unfold Machine.execRecordCompletion
  refine .next ?_
  split
  · exact h.complete _ _ _
  · exact h

theorem Canonical.chargeVec {s : State} (h : Canonical s) (x : Entry) : Canonical (s.chargeVec x) := by
  unfold State.chargeVec
  split
  · exact h.charge _ _
  · exact h

theorem Canonical.startRun {s : State} (h : Canonical s) (core : Nat) (e : Engine) (x : Entry) : Canonical (s.startRun core e x) := by
  unfold State.startRun
  split
  exact h.onCore _ _

theorem Canonical.turnSaves {s : State} (h : Canonical s) (p key : Nat) : Canonical (s.turnSaves p key) := by
  unfold State.turnSaves
  dsimp only
  split
  · split
    · exact (h.chargeArea _ _).chargeArea _ _
    · exact h
  · exact h


theorem Canonical.beginCommand {s : State} (h : Canonical s) (x : Entry) (bank : Nat) : Canonical (s.beginCommand x bank) := by
  refine canonical_foldl (canonical_foldl h (fun s p h => h.onArray _ _) _) (fun s j h => ?_) _
  refine Canonical.onArray (Canonical.turnSaves ?_ _ _) _ _
  split
  · exact h.foldArray _ _
  · exact h


theorem Canonical.endBlocked {s : State} (x : Entry) (d : Reg) {r : State × Word} (h : Canonical r.1) : Canonical (s.endBlocked x d r) := by
  unfold State.endBlocked
  split
  · exact h.onStrand _ _
  · exact h


theorem Canonical.freeClaim {s : State} (h : Canonical s) (x : Entry) : Canonical (s.freeClaim x) := by
  unfold State.freeClaim
  split
  · exact h.onStrand _ _
  · refine Canonical.onLcore ?_ _ fun _ h => h
    exact h

theorem Canonical.setModes {s : State} (h : Canonical s) (x : Entry) (f : Strand → Strand) (g : Tracked → Tracked) :
    Canonical (s.setModes x f g) := by
  unfold State.setModes
  split
  · exact h.onStrand _ _
  · refine Canonical.onLcore ?_ _ fun _ h => h
    exact h

theorem Canonical.leave {s : State} (h : Canonical s) (core : Nat) (e : Engine) (x : Entry) : Canonical (s.leave core e x) := by
  unfold State.leave
  extract_lets s1
  have h1 : Canonical s1 := h.onCore _ _
  split
  · split
    · exact h1.raiseFence _ _ _ _ _
    · exact h1
  · exact h1.setModes _ _ _
  · exact h1.setModes _ _ _
  · exact h1.setModes _ _ _
  · exact h1.freeClaim _
  · exact (h1.mint _ _ _ _).endBlocked _ _
  · exact (h1.unmint _ _).endBlocked _ _
  · extract_lets s2 s3 s4
    have h2 : Canonical s2 := by
      unfold s2
      split
      · exact h1.beginCommand _ _
      · exact h1
    have h3 : Canonical s3 := h2.startRun _ _ _
    have h4 : Canonical s4 := by
      unfold s4
      split
      · exact h3.chargeVec _
      · exact h3
    split
    · split
      · exact h4.inject _ _
      · split
        · exact h4.completeColl _ _
        · exact h4
    · exact h4


theorem nextCanonical_execRecordLeavesQueue {s : State} (h : Canonical s) (core : Nat) (e : Engine) :
    NextCanonical (execRecordLeavesQueue core e s) := by
  unfold Machine.execRecordLeavesQueue
  refine .next ?_
  split
  · exact h.leave _ _ _
  · exact h

theorem nextCanonical_execMigr {s : State} (h : Canonical s) (d a b : Reg) : NextCanonical (execMigr d a b s) := by
  unfold Machine.execMigr
  refine .next ?_
  refine Canonical.checked ?_ _ _ ?_
  · exact h
  · intro s1 h1
    extract_lets vr ep
    split
    · exact (h1.beginMove _ _ _ _).fin _
    · exact h1.fin _

theorem nextCanonical_execVgo {s : State} (h : Canonical s) (d a : Reg) : NextCanonical (execVgo d a s) := by
  refine .next (h.checked _ _ fun s h => ?_)
  dsimp only
  split
  · exact (h.same.toMembers _ _ _).fin _
  · exact h.fin _


theorem Canonical.sendArms {s : State} (h : Canonical s) (id : BitVec 32) (timeout : Nat) (ms : List (Nat × Nat)) :
    Canonical (s.sendArms id timeout ms) := by
  unfold State.sendArms
  exact canonical_foldl (h.same) (fun s' x h' => h'.supSend _ _ _ _ _) _

theorem nextCanonical_execVarm {s : State} (h : Canonical s) (d a b : Reg) : NextCanonical (execVarm d a b s) := by
  refine .next (h.checked _ _ fun s h => ?_)
  dsimp only
  split
  · split
    · exact h.same.fin _
    · exact h.block.same
  · split
    · exact h.fin _
    · split
      · exact h.fin _
      · exact (h.sendArms _ _ _).block.same


theorem Canonical.syswVr {s : State} (h : Canonical s) (n : Nat) (v : Word) : Canonical (s.syswVr n v) := by
  unfold State.syswVr
  split
  · exact h.onVr _ _
  · exact h

theorem nextCanonical_execSysw {s : State} (h : Canonical s) (num : BitVec 12) (a : Reg) : NextCanonical (execSysw num a s) := by
  unfold Machine.execSysw
  refine .next ?_
  refine Canonical.checked ?_ _ _ ?_
  · exact h
  · intro s1 h1
    exact (h1.syswVr _ _).fin _

theorem nextCanonical_execSysr {s : State} (h : Canonical s) (d : Reg) (num : BitVec 12) : NextCanonical (execSysr d num s) := by
  unfold Machine.execSysr
  exact .next (h.fin _)

theorem nextCanonical_execSnap {s : State} (h : Canonical s) (trig : BitVec 16) : NextCanonical (execSnap trig s) := by
  unfold Machine.execSnap
  exact .next ((h.same.triggerSnap _).fin _)

theorem nextCanonical_execSignal {s : State} (h : Canonical s) (n : BitVec 16) (a : Reg) : NextCanonical (execSignal n a s) := by
  refine .next (h.checked _ _ fun s h => ?_)
  dsimp only
  split
  · exact h.block
  · split
    · exact h.fin _
    · split
      · exact h.block
      · exact (h.onTask _ _).same.fin _


theorem nextCanonical_execSpawn {s : State} (h : Canonical s) (t : BitVec 12) (a : Reg) : NextCanonical (execSpawn t a s) := by
  unfold Machine.execSpawn
  refine .next ?_
  refine Canonical.checked ?_ _ _ ?_
  · exact h
  · intro s1 h1
    extract_lets q
    split
    · exact h1.block
    · exact (h1.onVr _ _).fin _

theorem nextCanonical_execBrk {s : State} (h : Canonical s) (x : BitVec 16) : NextCanonical (execBrk x s) := by
  unfold Machine.execBrk
  exact .next (h.trapOn _ _ _ _)

theorem nextCanonical_execTrap {s : State} (h : Canonical s) (code : BitVec 8) : NextCanonical (execTrap code s) := by
  unfold Machine.execTrap
  exact .next (h.trapOn _ _ _ _)

theorem Canonical.serve {s : State} (h : Canonical s) (lc n : Nat) (l : List (Nat × Nat × Nat)) : Canonical (State.serve lc n l s) := by
  induction l generalizing s with
  | nil => exact h
  | cons x t ih =>
    unfold State.serve
    dsimp only
    split
    · refine ih (Canonical.onStrand (h.onLcore _ ?_) _ _)
      exact fun _ hl => hl
    · exact h


theorem Canonical.signalSem {s : State} (h : Canonical s) (lc : Nat) (n : BitVec 6) (cnt : BitVec 16) : Canonical (s.signalSem lc n cnt) := by
  unfold State.signalSem
  extract_lets s1
  have hs1 : Canonical s1 := by
    refine Canonical.onLcore ?_ _ fun _ h => h
    exact h
  exact hs1.serve _ _ _

theorem nextCanonical_execSemsig {s : State} (h : Canonical s) (n : BitVec 6) (cnt : BitVec 16) (named : Bool) (a : Reg) :
    NextCanonical (execSemsig n cnt named a s) := by
  unfold Machine.execSemsig
  dsimp only
  refine .next ?_
  refine Canonical.checked ?_ _ _ ?_
  · exact h
  · intro s1 h1
    split
    · exact h1.block
    · exact (h1.fin _).signalSem _ _ _

theorem nextCanonical_execSemwait {s : State} (h : Canonical s) (n : BitVec 6) (cnt : BitVec 16) : NextCanonical (execSemwait n cnt s) := by
  unfold Machine.execSemwait
  refine .next ?_
  extract_lets v
  split
  · refine Canonical.fin ?_ _
    refine Canonical.onLcore ?_ _ fun _ h => h
    exact h
  · exact (h.onMe _).tickUid

theorem Canonical.branch {s : State} (h : Canonical s) (taken : Bool) (imm : BitVec 32) : Canonical (s.branch taken imm) := by
  unfold State.branch
  split
  · exact h.goto _ _
  · exact h.fin _

theorem nextCanonical_execBpois {s : State} (h : Canonical s) (np : Bool) (a : Reg) (imm : BitVec 32) : NextCanonical (execBpois np a imm s) := by
  unfold Machine.execBpois
  exact .next (h.branch _ _)

theorem Canonical.touch {s : State} (h : Canonical s) (lc lo hi : Nat) : Canonical (s.touch lc lo hi).1 := by
  unfold State.touch
  split
  · exact h
  · exact h.fillAll _ _

theorem Canonical.touchMine {s : State} (h : Canonical s) (lo hi : Nat) : Canonical (s.touchMine lo hi).1 := by
  unfold State.touchMine
  split
  · exact h
  · exact h.touch _ _ _

theorem nextCanonical_execBts {s : State} (h : Canonical s) (k : BtsKind) (a b : Reg) (imm : BitVec 32) : NextCanonical (execBts k a b imm s) := by
  unfold Machine.execBts
  dsimp only
  refine .next ?_
  refine Canonical.checked ?_ _ _ ?_
  · exact h
  · intro s1 h1
    split
    · exact h1.block
    · split
      · exact ((h1.touchMine _ _).of_eq ‹_›).branch _ _
      · exact ((h1.touchMine _ _).of_eq ‹_›).takeTrap _ _
      · exact ((h1.touchMine _ _).of_eq ‹_›).block

theorem nextCanonical_execLoop {s : State} (h : Canonical s) (n : BitVec 2) (a : Reg) (len cnt : BitVec 16) :
    NextCanonical (execLoop n a len cnt s) := by
  unfold Machine.execLoop
  dsimp only
  refine .next ?_
  refine Canonical.checked ?_ _ _ ?_
  · exact h
  · intro s1 h1
    split
    · split
      · exact h1.onMe _
      · exact h1.onMe _
    · split
      · exact h1.onMe _
      · exact h1.onMe _

theorem nextCanonical_execJr {s : State} (h : Canonical s) (d a : Reg) : NextCanonical (execJr d a s) := by
  unfold Machine.execJr
  refine .next ?_
  refine Canonical.checked ?_ _ _ ?_
  · exact h
  · intro s1 h1
    exact h1.goto _ _

theorem nextCanonical_execJal {s : State} (h : Canonical s) (d : Reg) (imm : BitVec 32) : NextCanonical (execJal d imm s) := by
  unfold Machine.execJal
  exact .next (h.goto _ _)

theorem nextCanonical_execBc {s : State} (h : Canonical s) (k : Cond) (a b : Reg) (imm : BitVec 32) : NextCanonical (execBc k a b imm s) := by
  unfold Machine.execBc
  refine .next ?_
  refine Canonical.checked ?_ _ _ ?_
  · exact h
  · intro s1 h1
    exact h1.branch _ _

theorem nextCanonical_execBr {s : State} (h : Canonical s) (imm : BitVec 32) : NextCanonical (execBr imm s) := by
  unfold Machine.execBr
  exact .next (h.branch _ _)

theorem nextCanonical_execXfence {s : State} (h : Canonical s) (p q : Path) : NextCanonical (execXfence p q s) := by
  unfold Machine.execXfence
  refine .next ?_
  split
  · exact h.block
  · exact ((h.raiseFence _ _ _ _ _).tickUid).fin _

theorem nextCanonical_execFence {s : State} (h : Canonical s) (mask : BitVec 16) : NextCanonical (execFence mask s) := by
  unfold Machine.execFence
  exact .next (((h.raiseFence _ _ _ _ _).tickUid).fin _)

theorem Canonical.storeError {s : State} (h : Canonical s) : Canonical s.storeError := by
  unfold State.storeError
  exact (h.onMe _).tickUid

theorem nextCanonical_execSdst {s : State} (h : Canonical s) (n : BitVec 4) (a : Reg) (cls : BitVec 4) (space : Space) (off : BitVec 20) :
    NextCanonical (execSdst n a cls space off s) := by
  unfold Machine.execSdst
  dsimp only
  refine .next ?_
  refine Canonical.checked ?_ _ _ ?_
  · exact h
  · intro s1 h1
    split
    · exact h1.block
    · split
      · exact (((h1.touchMine _ _).of_eq ‹_›).spPut _ _ _).fin _
      · exact (((h1.touchMine _ _).of_eq ‹_›).storeError).fin _
      · exact ((h1.touchMine _ _).of_eq ‹_›).block

theorem nextCanonical_execSdld {s : State} (h : Canonical s) (n : BitVec 4) (a : Reg) (cls : BitVec 4) (space : Space) (off : BitVec 20) :
    NextCanonical (execSdld n a cls space off s) := by
  unfold Machine.execSdld
  dsimp only
  refine .next ?_
  refine Canonical.checked ?_ _ _ ?_
  · exact h
  · intro s1 h1
    split
    · exact h1.block
    · split
      · split
        · exact h1.block
        · exact h1.fin _
      · split
        · exact ((h1.touchMine _ _).of_eq ‹_›).fin _
        · exact ((h1.touchMine _ _).of_eq ‹_›).takeTrap _ _
        · exact ((h1.touchMine _ _).of_eq ‹_›).block

theorem nextCanonical_execKld {s : State} (h : Canonical s) (d a : Reg) (imm : BitVec 32) : NextCanonical (execKld d a imm s) := by
  unfold Machine.execKld
  dsimp only
  refine .next ?_
  refine Canonical.checked ?_ _ _ ?_
  · exact h
  · intro s1 h1
    exact h1.fin _

theorem Canonical.acWrite {s : State} (h : Canonical s) (a v : Nat) : Canonical (s.acWrite a v) := by
  unfold State.acWrite
  exact h.onBank _ _

theorem Canonical.relWrite {s : State} (h : Canonical s) (m : SMem) (rmw : Bool) (key n : Nat) (before : SMap (List Machine.Rel)) :
    Canonical (s.relWrite m rmw key n before) := by
  unfold State.relWrite
  exact h.same

theorem Canonical.acquire {s : State} (h : Canonical s) (m : SMem) (keys : List Nat) : Canonical (s.acquire m keys) := by
  unfold State.acquire
  split
  · split
    · exact h
    · exact h.onMe _
  · exact h

theorem Canonical.rmw {s : State} (h : Canonical s) (m : SMem) (a : Nat) (f : Nat → Option Nat) : Canonical (s.rmw m a f).1 := by
  have hset {s : State} (h : Canonical s) (p b) : Canonical { s with mem := s.mem.setBytes p b } := h.storing (Mem.wf_setBytes _ _ _ h.device)
  unfold State.rmw
  dsimp only
  split
  · exact h
  · split
    · have hx := h.xlate (s.myAcc (rW ||| rA) 1 true) a
      split
      · split
        · exact (hset (((hx.of_eq ‹_›).chargeMem _ _ _ _ _).acquire _ _) _ _).relWrite _ _ _ _ _
        · exact ((hx.of_eq ‹_›).chargeMem _ _ _ _ _).acquire _ _
      · exact hx.of_eq ‹_›
      · exact hx.of_eq ‹_›
    · split
      · exact ((h.acquire _ _).acWrite _ _).relWrite _ _ _ _ _
      · exact h.acquire _ _
    · have ht := h.touchMine a (a + widthBytes m.width)
      split
      · split
        · exact (((ht.of_eq ‹_›).acquire _ _).spPut _ _ _).relWrite _ _ _ _ _
        · exact (ht.of_eq ‹_›).acquire _ _
      · exact (ht.of_eq ‹_›).storeError
      · exact ht.of_eq ‹_›


theorem Canonical.rmwTo {s : State} (h : Canonical s) (d : Reg) (m : SMem) (a : Word) (f : Nat → Option Nat) :
    Canonical (s.rmwTo d m a f) := by
  unfold State.rmwTo
  refine h.checked _ _ fun s h => ?_
  have hr := h.rmw m a.toNat f
  split
  · exact ((hr.of_eq ‹_›).settle _).fin _
  · exact (hr.of_eq ‹_›).fin _
  · exact ((hr.of_eq ‹_›).settle _).fin _
  · exact (hr.of_eq ‹_›).block


theorem nextCanonical_execCas {s : State} (h : Canonical s) (d a b : Reg) (m : SMem) : NextCanonical (execCas d a b m s) := by
  unfold Machine.execCas
  refine .next ?_
  refine Canonical.checked ?_ _ _ ?_
  · exact h
  · intro s1 h1
    exact h1.rmwTo _ _ _ _

theorem nextCanonical_execAtom {s : State} (h : Canonical s) (op : BitVec 3) (d a b : Reg) (m : SMem) : NextCanonical (execAtom op d a b m s) := by
  unfold Machine.execAtom
  refine .next ?_
  refine Canonical.checked ?_ _ _ ?_
  · exact h
  · intro s1 h1
    exact h1.rmwTo _ _ _ _

theorem Canonical.gvStore {s : State} (h : Canonical s) (m : SMem) (va : Nat) (bs : List Byte) : Canonical (s.gvStore m va bs) := by
  unfold State.gvStore
  extract_lets t rel
  split
  · exact (h.onMe _).tickUid
  · split
    · exact (h.onMe _).tickUid
    · split
      · exact ((((h.xlate _ _).of_eq ‹_›).chargeMem _ _ _ _ _).storing (Mem.wf_setBytes _ _ _ (Canonical.device ((h.xlate _ _).of_eq
          ‹_›)))).relWrite _ _ _ _ _
      · exact (((h.xlate _ _).of_eq ‹_›).settle _).storeError
      · exact (((h.xlate _ _).of_eq ‹_›).onMe _).tickUid

theorem Canonical.store {s : State} (h : Canonical s) (m : SMem) (a : Nat) (v : Word) :
    (∀ t ∈ (s.store m a v).1, Canonical t) ∧ Canonical (s.store m a v).2 := by
  unfold State.store
  dsimp only
  split
  · exact ⟨fun _ ht => (by cases ht), h⟩
  · split
    · have ht := h.touchMine a (a + widthBytes m.width)
      split
      · exact ⟨fun _ e => Option.some.inj e ▸ ((ht.of_eq ‹_›).spPut _ _ _).relWrite _ _ _ _ _, ht.of_eq ‹_›⟩
      · exact ⟨fun _ e => Option.some.inj e ▸ (ht.of_eq ‹_›).storeError, ht.of_eq ‹_›⟩
      · exact ⟨fun _ e => (by cases e), ht.of_eq ‹_›⟩
    · exact ⟨fun _ e => Option.some.inj e ▸ h.gvStore _ _ _, h⟩
    · exact ⟨fun _ e => Option.some.inj e ▸ h, h⟩
    · exact ⟨fun _ e => Option.some.inj e ▸ (h.acWrite _ _).relWrite _ _ _ _ _, h⟩


theorem Canonical.storeFrom {s : State} (h : Canonical s) (b : Reg) (m : SMem) (a : Word) (adv : Strand → Strand) :
    Canonical (s.storeFrom b m a adv) := by
  unfold State.storeFrom
  refine h.checked _ _ fun s h => ?_
  obtain ⟨h1, h2⟩ := h.store m a.toNat (s.me.reg b)
  split
  · exact (h1 _ (by rw [‹State.store _ _ _ _ = _›]; rfl)).fin _
  · exact Canonical.block (by rw [‹State.store _ _ _ _ = _›] at h2; exact h2)


theorem nextCanonical_execStl {s : State} (h : Canonical s) (b a : Reg) (m : SMem) : NextCanonical (execStl b a m s) := by
  unfold Machine.execStl
  refine .next ?_
  refine Canonical.checked ?_ _ _ ?_
  · exact h
  · intro s1 h1
    exact h1.storeFrom _ _ _ _

theorem Canonical.gvLoad {s : State} (h : Canonical s) (m : SMem) (va n : Nat) : Canonical (s.gvLoad m va n).1 := by
  unfold State.gvLoad
  extract_lets held
  split
  · exact h
  · split
    · exact (((h.xlate _ _).of_eq ‹_›).chargeMem _ _ _ _ _).acquire _ _
    · exact (h.xlate _ _).of_eq ‹_›
    · split
      · exact (h.xlate _ _).of_eq ‹_›
      · exact (h.xlate _ _).of_eq ‹_›

theorem Canonical.load {s : State} (h : Canonical s) (m : SMem) (a : Nat) : Canonical (s.load m a).1 := by
  unfold State.load
  extract_lets n
  split
  · exact h
  · split
    · split
      · exact ((h.touchMine _ _).of_eq ‹_›).acquire _ _
      · exact (h.touchMine _ _).of_eq ‹_›
      · exact (h.touchMine _ _).of_eq ‹_›
    · exact h.gvLoad _ _ _
    · split
      · exact h
      · exact h
    · exact h.acquire _ _

theorem Canonical.loadTo {s : State} (h : Canonical s) (d : Reg) (m : SMem) (a : Word) (adv : Strand → Strand) : Canonical (s.loadTo d m a adv) := by
  unfold State.loadTo
  refine Canonical.checked ?_ _ _ ?_
  · exact h
  · intro s1 h1
    split
    · exact (((h1.load _ _).of_eq ‹_›).settle _).fin _
    · exact (((h1.load _ _).of_eq ‹_›).settle _).fin _
    · exact ((h1.load _ _).of_eq ‹_›).block

theorem nextCanonical_execLda {s : State} (h : Canonical s) (d a : Reg) (m : SMem) : NextCanonical (execLda d a m s) := by
  unfold Machine.execLda
  refine .next ?_
  refine Canonical.checked ?_ _ _ ?_
  · exact h
  · intro s1 h1
    exact h1.loadTo _ _ _ _

theorem nextCanonical_execSt {s : State} (h : Canonical s) (b a : Reg) (m : SMem) : NextCanonical (execSt b a m s) := by
  unfold Machine.execSt
  refine .next ?_
  refine Canonical.checked ?_ _ _ ?_
  · exact h
  · intro s1 h1
    exact h1.storeFrom _ _ _ _

theorem nextCanonical_execLd {s : State} (h : Canonical s) (d a : Reg) (m : SMem) : NextCanonical (execLd d a m s) := by
  unfold Machine.execLd
  refine .next ?_
  refine Canonical.checked ?_ _ _ ?_
  · exact h
  · intro s1 h1
    exact h1.loadTo _ _ _ _

theorem Canonical.cntOp {s : State} (h : Canonical s) (src : Reg) (c : BitVec 3) (v : Cnt) : NextCanonical (s.cntOp src c v) := by
  unfold State.cntOp
  refine .next ?_
  refine Canonical.checked ?_ _ _ ?_
  · exact h
  · intro s1 h1
    exact h1.fin _

theorem nextCanonical_execCntsub {s : State} (h : Canonical s) (c x : BitVec 3) (b : Reg) : NextCanonical (execCntsub c x b s) := by
  unfold Machine.execCntsub
  exact h.cntOp _ _ _

theorem nextCanonical_execCntmin {s : State} (h : Canonical s) (c x : BitVec 3) (b : Reg) : NextCanonical (execCntmin c x b s) := by
  unfold Machine.execCntmin
  exact h.cntOp _ _ _

theorem nextCanonical_execCntset {s : State} (h : Canonical s) (c : BitVec 3) (a : Reg) (w : BitVec 3) : NextCanonical (execCntset c a w s) := by
  unfold Machine.execCntset
  exact h.cntOp _ _ _

theorem Canonical.alu {s : State} (h : Canonical s) (d : Reg) (srcs : List Reg) (v : Word) : NextCanonical (s.alu d srcs v) := by
  unfold State.alu
  exact .next (h.fin _)

theorem nextCanonical_execFcmp {s : State} (h : Canonical s) (f : SFmt) (k : FRel) (d a b : Reg) : NextCanonical (execFcmp f k d a b s) := by
  unfold Machine.execFcmp
  exact h.alu _ _ _

theorem nextCanonical_execFcvt {s : State} (h : Canonical s) (k : FcvtKind) (d a : Reg) : NextCanonical (execFcvt k d a s) := by
  unfold Machine.execFcvt
  split
  · exact h.alu _ _ _
  · exact h.alu _ _ _
  · exact h.alu _ _ _
  · exact h.alu _ _ _
  · exact h.alu _ _ _

theorem nextCanonical_execFfma {s : State} (h : Canonical s) (f : SFmt) (d a b : Reg) : NextCanonical (execFfma f d a b s) := by
  unfold Machine.execFfma
  exact h.alu _ _ _

theorem nextCanonical_execFmul {s : State} (h : Canonical s) (f : SFmt) (d a b : Reg) : NextCanonical (execFmul f d a b s) := by
  unfold Machine.execFmul
  exact h.alu _ _ _

theorem nextCanonical_execFadd {s : State} (h : Canonical s) (f : SFmt) (d a b : Reg) : NextCanonical (execFadd f d a b s) := by
  unfold Machine.execFadd
  exact h.alu _ _ _

theorem nextCanonical_execBnd {s : State} (h : Canonical s) (d a b : Reg) : NextCanonical (execBnd d a b s) := by
  unfold Machine.execBnd
  exact h.alu _ _ _

theorem nextCanonical_execLea {s : State} (h : Canonical s) (d a : Reg) (x : Space) (off : BitVec 20) : NextCanonical (execLea d a x off s) := by
  unfold Machine.execLea
  exact h.alu _ _ _

theorem nextCanonical_execLih {s : State} (h : Canonical s) (d : Reg) (imm : BitVec 32) : NextCanonical (execLih d imm s) := by
  unfold Machine.execLih
  exact h.alu _ _ _

theorem nextCanonical_execLi {s : State} (h : Canonical s) (d : Reg) (imm : BitVec 32) : NextCanonical (execLi d imm s) := by
  unfold Machine.execLi
  exact h.alu _ _ _

theorem nextCanonical_execShli {s : State} (h : Canonical s) (d a : Reg) (n : BitVec 6) : NextCanonical (execShli d a n s) := by
  unfold Machine.execShli
  exact h.alu _ _ _

theorem nextCanonical_execXori {s : State} (h : Canonical s) (d a : Reg) (imm : BitVec 32) : NextCanonical (execXori d a imm s) := by
  unfold Machine.execXori
  exact h.alu _ _ _

theorem nextCanonical_execOri {s : State} (h : Canonical s) (d a : Reg) (imm : BitVec 32) : NextCanonical (execOri d a imm s) := by
  unfold Machine.execOri
  exact h.alu _ _ _

theorem nextCanonical_execAndi {s : State} (h : Canonical s) (d a : Reg) (imm : BitVec 32) : NextCanonical (execAndi d a imm s) := by
  unfold Machine.execAndi
  exact h.alu _ _ _

theorem nextCanonical_execAddi {s : State} (h : Canonical s) (d a : Reg) (imm : BitVec 32) : NextCanonical (execAddi d a imm s) := by
  unfold Machine.execAddi
  exact h.alu _ _ _

theorem nextCanonical_execCmp {s : State} (h : Canonical s) (k : Cond) (d a b : Reg) : NextCanonical (execCmp k d a b s) := by
  unfold Machine.execCmp
  exact h.alu _ _ _

theorem nextCanonical_execSel {s : State} (h : Canonical s) (d a b n : Reg) : NextCanonical (execSel d a b n s) := by
  unfold Machine.execSel
  exact h.alu _ _ _

theorem nextCanonical_execMax {s : State} (h : Canonical s) (u : Bool) (d a b : Reg) : NextCanonical (execMax u d a b s) := by
  unfold Machine.execMax
  exact h.alu _ _ _

theorem nextCanonical_execMin {s : State} (h : Canonical s) (u : Bool) (d a b : Reg) : NextCanonical (execMin u d a b s) := by
  unfold Machine.execMin
  exact h.alu _ _ _

theorem nextCanonical_execPopc {s : State} (h : Canonical s) (d a : Reg) : NextCanonical (execPopc d a s) := by
  unfold Machine.execPopc
  exact h.alu _ _ _

theorem nextCanonical_execCtz {s : State} (h : Canonical s) (d a : Reg) : NextCanonical (execCtz d a s) := by
  unfold Machine.execCtz
  exact h.alu _ _ _

theorem nextCanonical_execClz {s : State} (h : Canonical s) (d a : Reg) : NextCanonical (execClz d a s) := by
  unfold Machine.execClz
  exact h.alu _ _ _

theorem nextCanonical_execRot {s : State} (h : Canonical s) (d a b : Reg) : NextCanonical (execRot d a b s) := by
  unfold Machine.execRot
  exact h.alu _ _ _

theorem nextCanonical_execSar {s : State} (h : Canonical s) (d a b : Reg) : NextCanonical (execSar d a b s) := by
  unfold Machine.execSar
  exact h.alu _ _ _

theorem nextCanonical_execShr {s : State} (h : Canonical s) (d a b : Reg) : NextCanonical (execShr d a b s) := by
  unfold Machine.execShr
  exact h.alu _ _ _

theorem nextCanonical_execShl {s : State} (h : Canonical s) (d a b : Reg) : NextCanonical (execShl d a b s) := by
  unfold Machine.execShl
  exact h.alu _ _ _

theorem nextCanonical_execXor {s : State} (h : Canonical s) (d a b : Reg) : NextCanonical (execXor d a b s) := by
  unfold Machine.execXor
  exact h.alu _ _ _

theorem nextCanonical_execOr {s : State} (h : Canonical s) (d a b : Reg) : NextCanonical (execOr d a b s) := by
  unfold Machine.execOr
  exact h.alu _ _ _

theorem nextCanonical_execAnd {s : State} (h : Canonical s) (d a b : Reg) : NextCanonical (execAnd d a b s) := by
  unfold Machine.execAnd
  exact h.alu _ _ _

theorem nextCanonical_execRem {s : State} (h : Canonical s) (u : Bool) (d a b : Reg) : NextCanonical (execRem u d a b s) := by
  unfold Machine.execRem
  exact h.alu _ _ _

theorem nextCanonical_execDiv {s : State} (h : Canonical s) (u : Bool) (d a b : Reg) : NextCanonical (execDiv u d a b s) := by
  unfold Machine.execDiv
  exact h.alu _ _ _

theorem nextCanonical_execMulh {s : State} (h : Canonical s) (k : MulhMode) (d a b : Reg) : NextCanonical (execMulh k d a b s) := by
  unfold Machine.execMulh
  exact h.alu _ _ _

theorem nextCanonical_execMul {s : State} (h : Canonical s) (d a b : Reg) : NextCanonical (execMul d a b s) := by
  unfold Machine.execMul
  exact h.alu _ _ _

theorem nextCanonical_execSub {s : State} (h : Canonical s) (d a b : Reg) : NextCanonical (execSub d a b s) := by
  unfold Machine.execSub
  exact h.alu _ _ _

theorem nextCanonical_execAdd {s : State} (h : Canonical s) (d a b : Reg) : NextCanonical (execAdd d a b s) := by
  unfold Machine.execAdd
  exact h.alu _ _ _

theorem nextCanonical_exec {s : State} (hs : Canonical s) (i : Instr) : NextCanonical (exec i s) := by
  cases i with
  | add d a b => exact nextCanonical_execAdd hs d a b
  | sub d a b => exact nextCanonical_execSub hs d a b
  | mul d a b => exact nextCanonical_execMul hs d a b
  | mulh k d a b => exact nextCanonical_execMulh hs k d a b
  | div u d a b => exact nextCanonical_execDiv hs u d a b
  | rem u d a b => exact nextCanonical_execRem hs u d a b
  | and d a b => exact nextCanonical_execAnd hs d a b
  | or d a b => exact nextCanonical_execOr hs d a b
  | xor d a b => exact nextCanonical_execXor hs d a b
  | shl d a b => exact nextCanonical_execShl hs d a b
  | shr d a b => exact nextCanonical_execShr hs d a b
  | sar d a b => exact nextCanonical_execSar hs d a b
  | rot d a b => exact nextCanonical_execRot hs d a b
  | clz d a => exact nextCanonical_execClz hs d a
  | ctz d a => exact nextCanonical_execCtz hs d a
  | popc d a => exact nextCanonical_execPopc hs d a
  | min u d a b => exact nextCanonical_execMin hs u d a b
  | max u d a b => exact nextCanonical_execMax hs u d a b
  | sel d a b n => exact nextCanonical_execSel hs d a b n
  | cmp k d a b => exact nextCanonical_execCmp hs k d a b
  | addi d a imm => exact nextCanonical_execAddi hs d a imm
  | andi d a imm => exact nextCanonical_execAndi hs d a imm
  | ori d a imm => exact nextCanonical_execOri hs d a imm
  | xori d a imm => exact nextCanonical_execXori hs d a imm
  | shli d a n => exact nextCanonical_execShli hs d a n
  | li d imm => exact nextCanonical_execLi hs d imm
  | lih d imm => exact nextCanonical_execLih hs d imm
  | lea d a space off => exact nextCanonical_execLea hs d a space off
  | bnd d a b => exact nextCanonical_execBnd hs d a b
  | fadd f d a b => exact nextCanonical_execFadd hs f d a b
  | fmul f d a b => exact nextCanonical_execFmul hs f d a b
  | ffma f d a b => exact nextCanonical_execFfma hs f d a b
  | fcvt k d a => exact nextCanonical_execFcvt hs k d a
  | fcmp f k d a b => exact nextCanonical_execFcmp hs f k d a b
  | cntset c a w => exact nextCanonical_execCntset hs c a w
  | cntmin c x b => exact nextCanonical_execCntmin hs c x b
  | cntsub c x b => exact nextCanonical_execCntsub hs c x b
  | ld d a m => exact nextCanonical_execLd hs d a m
  | st b a m => exact nextCanonical_execSt hs b a m
  | lda d a m => exact nextCanonical_execLda hs d a m
  | stl b a m => exact nextCanonical_execStl hs b a m
  | atom op d a b m => exact nextCanonical_execAtom hs op d a b m
  | cas d a b m => exact nextCanonical_execCas hs d a b m
  | kld d a imm => exact nextCanonical_execKld hs d a imm
  | sdld n a cls space off => exact nextCanonical_execSdld hs n a cls space off
  | sdst n a cls space off => exact nextCanonical_execSdst hs n a cls space off
  | fence mask => exact nextCanonical_execFence hs mask
  | xfence p q => exact nextCanonical_execXfence hs p q
  | br imm => exact nextCanonical_execBr hs imm
  | bc k a b imm => exact nextCanonical_execBc hs k a b imm
  | jal d imm => exact nextCanonical_execJal hs d imm
  | jr d a => exact nextCanonical_execJr hs d a
  | loop n a len cnt => exact nextCanonical_execLoop hs n a len cnt
  | bts k a b imm => exact nextCanonical_execBts hs k a b imm
  | bpois np a imm => exact nextCanonical_execBpois hs np a imm
  | semwait n cnt => exact nextCanonical_execSemwait hs n cnt
  | semsig n cnt named a => exact nextCanonical_execSemsig hs n cnt named a
  | trap code => exact nextCanonical_execTrap hs code
  | brk tag => exact nextCanonical_execBrk hs tag
  | spawn t a => exact nextCanonical_execSpawn hs t a
  | signal n a => exact nextCanonical_execSignal hs n a
  | snap trig => exact nextCanonical_execSnap hs trig
  | sysr d num => exact nextCanonical_execSysr hs d num
  | sysw num a => exact nextCanonical_execSysw hs num a
  | varm d a b => exact nextCanonical_execVarm hs d a b
  | vgo d a => exact nextCanonical_execVgo hs d a
  | migr d a b => exact nextCanonical_execMigr hs d a b
  | recordLeavesQueue core e => exact nextCanonical_execRecordLeavesQueue hs core e
  | recordCompletion core e => exact nextCanonical_execRecordCompletion hs core e
  | vadd r => exact nextCanonical_execVadd hs r
  | vsub r => exact nextCanonical_execVsub hs r
  | vmul r => exact nextCanonical_execVmul hs r
  | vfma r => exact nextCanonical_execVfma hs r
  | vfms r => exact nextCanonical_execVfms hs r
  | vdiv r => exact nextCanonical_execVdiv hs r
  | vmin r => exact nextCanonical_execVmin hs r
  | vmax r => exact nextCanonical_execVmax hs r
  | vabs r => exact nextCanonical_execVabs hs r
  | vneg r => exact nextCanonical_execVneg hs r
  | vcopysign r => exact nextCanonical_execVcopysign hs r
  | vclamp r => exact nextCanonical_execVclamp hs r
  | vround r => exact nextCanonical_execVround hs r
  | vand r => exact nextCanonical_execVand hs r
  | vor r => exact nextCanonical_execVor hs r
  | vxor r => exact nextCanonical_execVxor hs r
  | vnot r => exact nextCanonical_execVnot hs r
  | vshl r => exact nextCanonical_execVshl hs r
  | vshr r => exact nextCanonical_execVshr hs r
  | vsar r => exact nextCanonical_execVsar hs r
  | vcmp r => exact nextCanonical_execVcmp hs r
  | vsel r => exact nextCanonical_execVsel hs r
  | vmov r => exact nextCanonical_execVmov hs r
  | vfill r => exact nextCanonical_execVfill hs r
  | vcvt r => exact nextCanonical_execVcvt hs r
  | vquant r => exact nextCanonical_execVquant hs r
  | vdeq r => exact nextCanonical_execVdeq hs r
  | vrcp r => exact nextCanonical_execVrcp hs r
  | vsqrt r => exact nextCanonical_execVsqrt hs r
  | vrsqrt r => exact nextCanonical_execVrsqrt hs r
  | vexp r => exact nextCanonical_execVexp hs r
  | vexp2 r => exact nextCanonical_execVexp2 hs r
  | vlog r => exact nextCanonical_execVlog hs r
  | vlog2 r => exact nextCanonical_execVlog2 hs r
  | vtanh r => exact nextCanonical_execVtanh hs r
  | verf r => exact nextCanonical_execVerf hs r
  | vsum r => exact nextCanonical_execVsum hs r
  | vdot r => exact nextCanonical_execVdot hs r
  | vmaxr r => exact nextCanonical_execVmaxr hs r
  | vscan r => exact nextCanonical_execVscan hs r
  | vtopk r => exact nextCanonical_execVtopk hs r
  | vargmax r => exact nextCanonical_execVargmax hs r
  | vgath r => exact nextCanonical_execVgath hs r
  | vscat r => exact nextCanonical_execVscat hs r
  | vrng r => exact nextCanonical_execVrng hs r
  | vamax r => exact nextCanonical_execVamax hs r
  | vmode rm ovf en => exact nextCanonical_execVmode hs rm ovf en
  | mlease r => exact nextCanonical_execMlease hs r
  | mfree r => exact nextCanonical_execMfree hs r
  | mma r => exact nextCanonical_execMma hs r
  | mmas r => exact nextCanonical_execMmas hs r
  | mmag r => exact nextCanonical_execMmag hs r
  | mzero r => exact nextCanonical_execMzero hs r
  | mlda r => exact nextCanonical_execMlda hs r
  | mdrain r => exact nextCanonical_execMdrain hs r
  | mfold r => exact nextCanonical_execMfold hs r
  | mstat r => exact nextCanonical_execMstat hs r
  | mmode rm ovf en => exact nextCanonical_execMmode hs rm ovf en
  | tcopy r => exact nextCanonical_execTcopy hs r
  | tgather r => exact nextCanonical_execTgather hs r
  | tscatter r => exact nextCanonical_execTscatter hs r
  | tfill r => exact nextCanonical_execTfill hs r
  | tmap r => exact nextCanonical_execTmap hs r
  | tunmap r => exact nextCanonical_execTunmap hs r
  | tflush r => exact nextCanonical_execTflush hs r
  | tprefetch r => exact nextCanonical_execTprefetch hs r
  | twload r => exact nextCanonical_execTwload hs r
  | tfetch r => exact nextCanonical_execTfetch hs r
  | tmode tr => exact nextCanonical_execTmode hs tr
  | qfence e mask => exact nextCanonical_execQfence hs e mask
  | rld blk d a v t m => exact nextCanonical_execRld hs blk d a v t m
  | rst blk b a v t m => exact nextCanonical_execRst hs blk b a v t m
  | rsth blk b a v t h m => exact nextCanonical_execRsth hs blk b a v t h m
  | ratom op d a b v t m => exact nextCanonical_execRatom hs op d a b v t m
  | rcas d a b v t m => exact nextCanonical_execRcas hs d a b v t m
  | rprobe d a v t => exact nextCanonical_execRprobe hs d a v t
  | rfeat d v t => exact nextCanonical_execRfeat hs d v t
  | grant d a b c => exact nextCanonical_execGrant hs d a b c
  | revoke d a => exact nextCanonical_execRevoke hs d a
  | rmcast d a b m => exact nextCanonical_execRmcast hs d a b m
  | rred op b a v t m => exact nextCanonical_execRred hs op b a v t m
  | rcopy put d a v t cls width => exact nextCanonical_execRcopy hs put d a v t cls width
  | cjoin r => exact nextCanonical_execCjoin hs r
  | callred r => exact nextCanonical_execCallred hs r
  | credsc r => exact nextCanonical_execCredsc hs r
  | callgath r => exact nextCanonical_execCallgath hs r
  | cbcast r => exact nextCanonical_execCbcast hs r
  | ctopk r => exact nextCanonical_execCtopk hs r
  | cbar r => exact nextCanonical_execCbar hs r
  | regionFill task lcore idx => exact nextCanonical_execRegionFill hs task lcore idx
  | faultResolution id => exact nextCanonical_execFaultResolution hs id
  | tierPromotion id => exact nextCanonical_execTierPromotion hs id
  | responseRecord fn => exact nextCanonical_execResponseRecord hs fn
  | endTaskWriteback task => exact nextCanonical_execEndTaskWriteback hs task
  | completionSignalWrite task => exact nextCanonical_execCompletionSignalWrite hs task
  | twloadApply task => exact nextCanonical_execTwloadApply hs task
  | rotation core => exact nextCanonical_execRotation hs core
  | preemptRequest task deadline => exact nextCanonical_execPreemptRequest hs task deadline
  | deadlineExpiry task core => exact nextCanonical_execDeadlineExpiry hs task core
  | gangRelease task => exact nextCanonical_execGangRelease hs task
  | gangResume task binds => exact nextCanonical_execGangResume hs task binds
  | watchdogExpiry task => exact nextCanonical_execWatchdogExpiry hs task
  | powerWindowEnd watts => exact nextCanonical_execPowerWindowEnd hs watts
  | admitStepTask task binds => exact nextCanonical_execAdmitStepTask hs task binds
  | spawnAdmit vr task binds => exact nextCanonical_execSpawnAdmit hs vr task binds
  | invalidation scope => exact nextCanonical_execInvalidation hs scope
  | bankGate bank gate => exact nextCanonical_execBankGate hs bank gate
  | wsRefreshWindow die => exact nextCanonical_execWsRefreshWindow hs die
  | ackTimeout port => exact nextCanonical_execAckTimeout hs port
  | loadRequest p => exact nextCanonical_execLoadRequest hs p
  | storeRequest p => exact nextCanonical_execStoreRequest hs p
  | storeWithHandler p => exact nextCanonical_execStoreWithHandler hs p
  | atomicRequest p => exact nextCanonical_execAtomicRequest hs p
  | casRequest p => exact nextCanonical_execCasRequest hs p
  | probeRequest p => exact nextCanonical_execProbeRequest hs p
  | featureQuery p => exact nextCanonical_execFeatureQuery hs p
  | multicastStore p => exact nextCanonical_execMulticastStore hs p
  | reducingStore p => exact nextCanonical_execReducingStore hs p
  | replyWithData p => exact nextCanonical_execReplyWithData hs p
  | acknowledgement p => exact nextCanonical_execAcknowledgement hs p
  | retransmitTimeout src dst pseq => exact nextCanonical_execRetransmitTimeout hs src dst pseq
  | busyRetransmit src dst pseq => exact nextCanonical_execBusyRetransmit hs src dst pseq
  | holdStoreAbandon src dst pseq => exact nextCanonical_execHoldStoreAbandon hs src dst pseq
  | arm p => exact nextCanonical_execArm hs p
  | armReply p => exact nextCanonical_execArmReply hs p
  | armTimeout launch => exact nextCanonical_execArmTimeout hs launch
  | go p => exact nextCanonical_execGo hs p
  | launchAbort p => exact nextCanonical_execLaunchAbort hs p
  | armExpiry launch => exact nextCanonical_execArmExpiry hs launch
  | lost p => exact nextCanonical_execLost hs p
  | peerFailure launch => exact nextCanonical_execPeerFailure hs launch
  | migrationContext part => exact nextCanonical_execMigrationContext hs part
  | migrationDrainEnd vr => exact nextCanonical_execMigrationDrainEnd hs vr
  | pullRequest p => exact nextCanonical_execPullRequest hs p
  | pullData p arrived => exact nextCanonical_execPullData hs p arrived
  | pullAcknowledgement p => exact nextCanonical_execPullAcknowledgement hs p
  | snapshotTrigger p => exact nextCanonical_execSnapshotTrigger hs p
  | createVr fn n => exact nextCanonical_execCreateVr hs fn n
  | launch fn n => exact nextCanonical_execLaunch hs fn n
  | cancel fn n => exact nextCanonical_execCancel hs fn n
  | migrate fn n => exact nextCanonical_execMigrate hs fn n
  | peerTokens fn n => exact nextCanonical_execPeerTokens hs fn n
  | vrStatus fn n => exact nextCanonical_execVrStatus hs fn n
  | quote fn n => exact nextCanonical_execQuote hs fn n
  | identity fn n => exact nextCanonical_execIdentity hs fn n
  | image fn n => exact nextCanonical_execImage hs fn n
  | window fn n => exact nextCanonical_execWindow hs fn n
  | partition fn n => exact nextCanonical_execPartition hs fn n
  | locations fn n => exact nextCanonical_execLocations hs fn n
  | bankWakeEnd bank => exact nextCanonical_execBankWakeEnd hs bank
  | freePageRingRefill fn pages => exact nextCanonical_execFreePageRingRefill hs fn pages
  | slotTableWrite index value => exact nextCanonical_execSlotTableWrite hs index value
  | partitionWrite fn reg value => exact nextCanonical_execPartitionWrite hs fn reg value
  | detmodeWrite value => exact nextCanonical_execDetmodeWrite hs value
  | schedSnapWrite value => exact nextCanonical_execSchedSnapWrite hs value
  | fabPortstatWrite port value => exact nextCanonical_execFabPortstatWrite hs port value
  | registerWrite reg value => exact nextCanonical_execRegisterWrite hs reg value
  | flitReceive port wave bytes => exact nextCanonical_execFlitReceive hs port wave bytes
  | linkReplay port lseq => exact nextCanonical_execLinkReplay hs port lseq
  | fecWindowEnd port wave corrected => exact nextCanonical_execFecWindowEnd hs port wave corrected
  | retrainEnd port wave ok => exact nextCanonical_execRetrainEnd hs port wave ok
  | mailboxPost fn n => exact nextCanonical_execMailboxPost hs fn n
  | mailboxRelease fn n => exact nextCanonical_execMailboxRelease hs fn n
  | qBaseWrite fn ring value => exact nextCanonical_execQBaseWrite hs fn ring value
  | qTailWrite fn ring value => exact nextCanonical_execQTailWrite hs fn ring value
  | qHeadWrite fn ring value => exact nextCanonical_execQHeadWrite hs fn ring value
  | bar2Write off bytes => exact nextCanonical_execBar2Write hs off bytes
  | functionLevelReset fn => exact nextCanonical_execFunctionLevelReset hs fn
  | linkTraining link rate width => exact nextCanonical_execLinkTraining hs link rate width
  | ret => exact nextCanonical_execRet hs
  | barc => exact nextCanonical_execBarc hs
  | barg => exact nextCanonical_execBarg hs
  | esync => exact nextCanonical_execEsync hs
  | tret => exact nextCanonical_execTret hs
  | yield => exact nextCanonical_execYield hs
  | region => exact nextCanonical_execRegion hs
  | tail => exact nextCanonical_execTail hs
  | halt => exact nextCanonical_execHalt hs
  | nop => exact nextCanonical_execNop hs
  | rfence => exact nextCanonical_execRfence hs
  | budgetPeriodBoundary => exact nextCanonical_execBudgetPeriodBoundary hs
  | signalRelay => exact nextCanonical_execSignalRelay hs
  | snapshotLatch => exact nextCanonical_execSnapshotLatch hs
  | mailboxTake => exact nextCanonical_execMailboxTake hs
  | boot => exact nextCanonical_execBoot hs
  | powerLoss => exact nextCanonical_execPowerLoss hs


theorem Canonical.toIssue {s : State} (h : Canonical s) (r : Ref) : Canonical (s.toIssue r) := by
  unfold State.toIssue
  exact (h.onCore _ _).same

theorem Canonical.leaveYield {s : State} (h : Canonical s) : Canonical s.leaveYield := by
  unfold State.leaveYield
  exact h.onMe _

theorem Canonical.keepAt {s : State} (h : Canonical s) (k : Nat) (i : Instr) (y : Bool) : Canonical (s.keepAt k i y) := by
  unfold State.keepAt
  split
  · exact h.onStrand _ _
  · exact (h.settle _).onStrand _ _

theorem nextCanonical_issueOf {s : State} (h : Canonical s) (i : Instr) : NextCanonical (issueOf i s) := by
  have he := nextCanonical_exec h.leaveYield i
  unfold issueOf
  split
  · exact .next ((he _ ‹_›).keepAt _ _ _)
  · exact he


theorem nextCanonical_issue {s : State} (h : Canonical s) : NextCanonical (issue s) := by
  unfold issue
  split
  · exact nextCanonical_issueOf h _
  · have hf := h.fetch
    split
    · exact nextCanonical_issueOf (hf.of_eq ‹_›) _
    · exact .next (Canonical.takeTrap (Canonical.leaveYield (hf.of_eq ‹_›)) _ _)
    · exact .next (Canonical.stopTask (hf.of_eq ‹_›) _ _ _)
    · exact .next (Canonical.block (hf.of_eq ‹_›))


theorem Canonical.dispatch {s : State} (h : Canonical s) (core : Nat) : NextCanonical (s.dispatch core) := by
  unfold State.dispatch
  dsimp only
  split
  · exact nextCanonical_issue ((h.judgeCore core).toIssue _)
  · exact .next (h.judgeCore core)


theorem nextCanonical_turn {s : State} (h : Canonical s) (t : Turn) : NextCanonical (turn t s) := by
  cases t with
  | strand r =>
    dsimp only [turn]
    split
    · exact nextCanonical_issue (h.toIssue r)
    · exact .next h
  | dispatch c => exact h.dispatch c
  | event i => exact nextCanonical_exec h i
  | sup i => exact nextCanonical_exec h.same i
  | launchArm id =>
    dsimp only [turn]
    exact nextCanonical_exec (h.readyVarm id) _
  | launchGo id =>
    dsimp only [turn]
    exact nextCanonical_exec (h.readyVgo id) _
  | tick n => exact .next (h.tick n)
  | dropTlb c v p => exact .next (h.onCore _ _)
  | hostWrite a bs => exact .next ⟨h.device, Mem.wf_setBytes _ _ _ h.host, h.weights, h.scratch⟩
  | mbxWrite f n off bs => exact .next (h.onFn _ _)


theorem Canonical.partsFirst {s : State} (h : Canonical s) : Canonical s.partsFirst := by
  unfold State.partsFirst
  split
  · exact h
  · split
    · exact h
    · extract_lets now
      split
      · exact h.same
      · exact h

theorem Canonical.filled {s : State} (h : Canonical s) : Canonical s.filled := by
  unfold State.filled
  refine Canonical.partsFirst ?_
  split
  · exact h.same
  · exact h

theorem nextCanonical_step {s : State} (h : Canonical s) : NextCanonical (step s) := by
  unfold step
  split
  · exact .next h.filled
  · split
    · exact nextCanonical_turn h.filled.same _
    · exact fun t e => nomatch e


theorem Canonical.unbudgeted {s : State} (h : Canonical s) : Canonical s.unbudgeted := by
  unfold State.unbudgeted
  exact h.same

end Sys2Proof.Claims

namespace Sys2Proof.Proofs

open Sys2Proof.Claims

/-- Settles O58: the agenda is refilled without a write to a memory, and every turn, each one an instruction's run or a cycle's passing, keeps `Canonical` by the lemmas on the operations that it calls. -/
theorem memoriesStayCanonical : Obligations.MemoriesStayCanonical := fun _ t h e => nextCanonical_step h t e

end Sys2Proof.Proofs
end

section
/-! With nothing held behind the fault path, what a fault's end or a budget's period tries again is nothing (R112). -/

namespace Sys2Proof.Machine

open Sys2Proof.Claims

variable {s t : State}

theorem quiet_of_eq (h : Quiet s) (hhold : t.hold = s.hold) (hstrands : t.strands = s.strands) (hlcores : t.lcores = s.lcores) : Quiet t := by
  obtain ⟨hh, hs, hl⟩ := h
  exact ⟨hhold.trans hh, fun k => by rw [State.strandAt, hstrands]; exact hs k, fun lc => by rw [State.lcoreAt, hlcores]; exact hl lc⟩

theorem State.pump_of_quiet (h : Quiet s) : s.pump = s := by
  obtain ⟨-, hs, hl⟩ := h
  have hstrands (ks : List Nat) : ks.foldl (fun s k => if (s.strandAt k).pending.isEmpty then s else s.release k []) s = s := by
    induction ks with
    | nil => rfl
    | cons k ks ih => rw [List.foldl_cons, hs k]; exact ih
  have hlcores (ks : List Nat) :
      ks.foldl (fun s lc => (((s.lcoreAt lc).pending.map fun e => (e.1, e.2.1)).eraseDups).foldl (State.pumpTailed lc) s) s = s := by
    induction ks with
    | nil => rfl
    | cons k ks ih => rw [List.foldl_cons, hl k]; exact ih
  unfold State.pump
  rw [hstrands]
  exact hlcores _

theorem State.retryArrivals_of_hold_nil (h : s.hold = []) : s.retryArrivals = s := by
  unfold State.retryArrivals
  rw [h]
  rfl

theorem State.retryAll_of_quiet (h : Quiet s) : s.retryAll = s := by
  unfold State.retryAll
  rw [State.pump_of_quiet h, State.retryArrivals_of_hold_nil h.1]

/-- What waits on a fault hears of its end through the cores' runs and the agenda only. -/
theorem foldl_wake_eq (page : Nat) (ws : List Who) (s : State) :
    ∃ cs ts, ws.foldl (fun s w => match w with
      | .region lc i => s.later (.event (.regionFill (lc / 288) (lc % 288) i))
      | .record uid => s.noteRetry uid page
      | _ => s) s = { s with cores := cs, agenda := ts } := by
  induction ws generalizing s with
  | nil => exact ⟨s.cores, s.agenda, rfl⟩
  | cons w ws ih =>
    cases w with
    | region lc i => exact ih (s.later (.event (.regionFill (lc / 288) (lc % 288) i)))
    | record uid => exact ih (s.noteRetry uid page)
    | _ => exact ih s

theorem State.faultDone_of_quiet (h : Quiet s) (f : PFault) :
    ∃ cs ts, s.faultDone f = { s with faults := s.faults.filter fun g => decide (g.id ≠ f.id), cores := cs, agenda := ts } := by
  obtain ⟨cs, ts, e⟩ := foldl_wake_eq f.page f.who { s with faults := s.faults.filter fun g => decide (g.id ≠ f.id) }
  exact ⟨cs, ts, (congrArg State.retryAll e).trans (State.retryAll_of_quiet (quiet_of_eq h rfl rfl rfl))⟩

theorem State.faultRefused_of_quiet (h : Quiet s) (f : PFault) : s.faultRefused f =
    { s with
      faults := s.faults.filter fun g => decide (g.id ≠ f.id)
      denied := s.denied ++ f.who.map fun w => (w, f.vr, f.page) } :=
  State.retryAll_of_quiet (quiet_of_eq h rfl rfl rfl)

theorem State.id_of_faultAt {id : Nat} {f : PFault} (h : s.faultAt id = some f) : f.id = id :=
  of_decide_eq_true (List.find?_some (p := fun f : PFault => decide (f.id = id)) h)

/-- No fault of a number stands among those that are left without it. -/
theorem id_ne_of_mem_filter {fs : List PFault} {id : Nat} {g : PFault} (h : g ∈ fs.filter fun h => decide (h.id ≠ id)) : g.id ≠ id :=
  of_decide_eq_true (List.mem_filter.mp h).2

end Sys2Proof.Machine
end

section
/-! The resolution of faults: by the supervisor, by the host's response (O34). -/

namespace Sys2Proof.Machine

open Sys2Proof.Claims

variable {s : State}

/-- A fault of no declared range is refused, one of a declared range resolved there. -/
theorem exec_faultResolution_invalid {id : Nat} {f : PFault} {v : Vr} (hf : s.faultAt id = some f) (hk : f.kind = .supervisor)
    (hv : s.vrAt f.vr = some v) (hw : s.walkVr v (f.page * 65536) = .error .invalid) :
    exec (.faultResolution id) s =
      .next ((rangeAt v.image (f.page * 65536)).elim (s.faultRefused f) (s.resolveIn f v)) := by
  refine congrArg Host.Outcome.next ?_
  rw [hf]
  dsimp only
  rw [if_neg (not_not.mpr hk), hv]
  dsimp only
  rw [hw]
  cases rangeAt v.image (f.page * 65536) <;> rfl

theorem State.quiet_resolved {v : Vr} {who : Who} (h : Quiet s) : Quiet ((s.keepIpa v).settle who) := by
  refine quiet_of_eq h ?_ ?_ ?_ <;>
  · unfold State.keepIpa State.settle
    split <;> rfl

theorem State.mem_resolved (v : Vr) (who : Who) : ((s.keepIpa v).settle who).mem = s.mem := by
  unfold State.keepIpa State.settle
  split <;> rfl

theorem State.resolveIn_placed {f : PFault} {v u : Vr} {g : GvRange} {s1 : State}
    (hp : s.placePage v f.vr (f.page * 65536) (gvBits g) (g.data.drop (f.page * 65536 - g.va)) = (s1, .ok u)) (hq : Quiet s1) :
    (s.resolveIn f v g).mem = s1.mem ∧ ∀ h ∈ (s.resolveIn f v g).faults, h.id ≠ f.id := by
  have hr : s.resolveIn f v g = ((s1.keepIpa u).settle (.sup f.vr)).faultDone f := by
    unfold State.resolveIn
    dsimp only
    rw [hp]
  obtain ⟨cs, ts, hd⟩ := State.faultDone_of_quiet (State.quiet_resolved (v := u) (who := .sup f.vr) hq) f
  rw [hr, hd]
  exact ⟨State.mem_resolved u (.sup f.vr), fun h hh => id_ne_of_mem_filter hh⟩

/-! The record that a response is read from. -/

/-- The address of the record that the head of ring 1 names. -/
def Fn.responseAt (f : Fn) : Nat := (f.ring 1).base.toNat / 4096 * 4096 + 16 * (f.ring 1).head.toNat

/-- Ring 1 past the record at its head. -/
def Fn.responseTaken (f : Fn) : Fn :=
  f.onRing 1 fun r => { r with head := BitVec.ofNat 12 ((r.head.toNat + 1) % r.size) }

theorem Fn.ring_onRing_self (f : Fn) (q : Nat) (g : Ring → Ring) : (f.onRing q g).ring q = g (f.ring q) := sget_sset_self _ _ _ _

theorem Fn.ring_onRing_ne (f : Fn) {q p : Nat} (h : p ≠ q) (g : Ring → Ring) : (f.onRing q g).ring p = f.ring p := sget_sset_ne _ _ _ _ _ h

theorem exec_responseRecord_empty {fn : Nat} (h : ((s.fnAt fn).ring 1).size = 0 ∨ ((s.fnAt fn).ring 1).head = ((s.fnAt fn).ring 1).tail) :
    exec (.responseRecord fn) s = .next s :=
  congrArg Host.Outcome.next (if_pos h)

section
variable {fn : Nat} (hsize : ((s.fnAt fn).ring 1).size ≠ 0) (hhead : ((s.fnAt fn).ring 1).head ≠ ((s.fnAt fn).ring 1).tail)
include hsize hhead

theorem exec_responseRecord_bad (hg : goodResponse (s.fnAt fn) (s.hostMem.read (s.fnAt fn).responseAt 8)
      (s.hostMem.read ((s.fnAt fn).responseAt + 8) 8) = none) :
    exec (.responseRecord fn) s =
      .next ((s.onFn fn Fn.responseTaken).onFn fn fun f => f.onRing 1 fun r => { r with bad := r.bad + 1 }) := by
  refine congrArg Host.Outcome.next ((if_neg (not_or.mpr ⟨hsize, hhead⟩)).trans ?_)
  dsimp only
  split
  · rfl
  · rename_i e
    exact absurd (hg.symm.trans e) nofun

theorem exec_responseRecord_good {tag : Nat} {q : PReq} (hg : goodResponse (s.fnAt fn) (s.hostMem.read (s.fnAt fn).responseAt 8)
      (s.hostMem.read ((s.fnAt fn).responseAt + 8) 8) = some (tag, q)) :
    exec (.responseRecord fn) s =
      .next ((((s.onFn fn Fn.responseTaken).freeTags fn tag).waitingFor fn q.ipa.toNat).foldl
        (fun t f => if s.hostMem.read (s.fnAt fn).responseAt 8 % 4 = 0 then t.faultDone f else t.faultRefused f)
        ((s.onFn fn Fn.responseTaken).freeTags fn tag)).supGoes := by
  refine congrArg Host.Outcome.next ((if_neg (not_or.mpr ⟨hsize, hhead⟩)).trans ?_)
  dsimp only
  split
  · rename_i e
    exact absurd (hg.symm.trans e) nofun
  · rename_i e
    obtain ⟨rfl, rfl⟩ := Prod.mk.inj (Option.some.inj (hg.symm.trans e))
    rfl

end

theorem State.freeTags_of_waiting_nil {fn : Nat} (h : (s.fnAt fn).waiting = []) (tag : Nat) :
    s.freeTags fn tag = s.onFn fn fun f => { f with tags := sset none f.tags tag none } := by
  unfold State.freeTags
  rw [h]
  rfl

end Sys2Proof.Machine

namespace Sys2Proof.Proofs

open Sys2Proof.Machine Sys2Proof.Claims

/-- What a bad record leaves: its head passes, its count grows, nothing else differs. -/
theorem responseRecord_bad {s : State} {fn : Nat} (hsize : ((s.fnAt fn).ring 1).size ≠ 0)
    (hhead : ((s.fnAt fn).ring 1).head ≠ ((s.fnAt fn).ring 1).tail)
    (hg : goodResponse (s.fnAt fn) (s.hostMem.read (s.fnAt fn).responseAt 8) (s.hostMem.read ((s.fnAt fn).responseAt + 8) 8) = none) :
    ∃ t, exec (.responseRecord fn) s = .next t ∧ t = { s with fns := t.fns } ∧ (∀ g, g ≠ fn → t.fnAt g = s.fnAt g) ∧
      t.fnAt fn = { s.fnAt fn with rings := (t.fnAt fn).rings } ∧ (∀ q, q ≠ 1 → (t.fnAt fn).ring q = (s.fnAt fn).ring q) ∧
      (t.fnAt fn).ring 1 = { (s.fnAt fn).ring 1 with
        head := BitVec.ofNat 12 ((((s.fnAt fn).ring 1).head.toNat + 1) % ((s.fnAt fn).ring 1).size), bad := ((s.fnAt fn).ring 1).bad + 1 } := by
  refine ⟨_, exec_responseRecord_bad hsize hhead hg, rfl, fun g hne => ?_, ?_, fun q hq => ?_, ?_⟩
  · rw [State.fnAt_onFn, if_neg hne, State.fnAt_onFn, if_neg hne]
  · rw [State.fnAt_onFn_self, State.fnAt_onFn_self]
    rfl
  · rw [State.fnAt_onFn_self, State.fnAt_onFn_self, Fn.ring_onRing_ne _ hq]
    exact Fn.ring_onRing_ne _ hq _
  · rw [State.fnAt_onFn_self, State.fnAt_onFn_self, Fn.ring_onRing_self, Fn.responseTaken, Fn.ring_onRing_self]

/-- A good record of a tag frees the tag and retries or refuses the one access that waits for its page. -/
theorem responseRecord_good {s : State} {fn tag : Nat} {q : PReq} {g : PFault} (hsize : ((s.fnAt fn).ring 1).size ≠ 0)
    (hhead : ((s.fnAt fn).ring 1).head ≠ ((s.fnAt fn).ring 1).tail)
    (hg : goodResponse (s.fnAt fn) (s.hostMem.read (s.fnAt fn).responseAt 8) (s.hostMem.read ((s.fnAt fn).responseAt + 8) 8) = some (tag, q))
    (hwait : (s.fnAt fn).waiting = []) (hq : Quiet s) (hfor : s.waitingFor fn q.ipa.toNat = [g]) :
    ∃ t, exec (.responseRecord fn) s = .next t ∧ sget none (t.fnAt fn).tags tag = none ∧
      (t.fnAt fn).ring 1 = { (s.fnAt fn).ring 1 with
        head := BitVec.ofNat 12 ((((s.fnAt fn).ring 1).head.toNat + 1) % ((s.fnAt fn).ring 1).size) } ∧
      (∀ h ∈ t.faults, h.id ≠ g.id) ∧ t.mem = s.mem ∧
      t.denied = if s.hostMem.read (s.fnAt fn).responseAt 8 % 4 = 0 then s.denied else s.denied ++ g.who.map fun w => (w, g.vr, g.page) := by
  have hfree : (s.onFn fn Fn.responseTaken).freeTags fn tag =
      (s.onFn fn Fn.responseTaken).onFn fn fun f => { f with tags := sset none f.tags tag none } :=
    State.freeTags_of_waiting_nil (by rw [State.fnAt_onFn_self]; exact hwait) tag
  have hfn : ((s.onFn fn Fn.responseTaken).freeTags fn tag).fnAt fn =
      { (s.fnAt fn).responseTaken with tags := sset none (s.fnAt fn).tags tag none } := by
    rw [hfree, State.fnAt_onFn_self, State.fnAt_onFn_self]
    rfl
  have hring : (s.fnAt fn).responseTaken.ring 1 = _ := Fn.ring_onRing_self _ _ _
  have hq1 : Quiet ((s.onFn fn Fn.responseTaken).freeTags fn tag) := by
    rw [hfree]
    exact quiet_of_eq hq rfl rfl rfl
  have hmem : ((s.onFn fn Fn.responseTaken).freeTags fn tag).mem = s.mem := by
    rw [hfree]
    rfl
  have hdenied : ((s.onFn fn Fn.responseTaken).freeTags fn tag).denied = s.denied := by
    rw [hfree]
    rfl
  have hone : ((s.onFn fn Fn.responseTaken).freeTags fn tag).waitingFor fn q.ipa.toNat = [g] := by
    rw [hfree]
    exact hfor
  refine ⟨_, exec_responseRecord_good hsize hhead hg, ?_⟩
  rw [hone, List.foldl_cons, List.foldl_nil]
  generalize (s.onFn fn Fn.responseTaken).freeTags fn tag = s1 at hfn hq1 hmem hdenied
  have htags : sget none (s1.fnAt fn).tags tag = none := by
    rw [hfn]
    exact sget_sset_self _ _ _ _
  have hhead1 : (s1.fnAt fn).ring 1 = _ := (congrArg (Fn.ring · 1) hfn).trans hring
  split
  · obtain ⟨cs, ts, hd⟩ := State.faultDone_of_quiet hq1 g
    rw [hd]
    exact ⟨htags, hhead1, fun h hh => id_ne_of_mem_filter hh, hmem, hdenied⟩
  · rw [State.faultRefused_of_quiet hq1]
    exact ⟨htags, hhead1, fun h hh => id_ne_of_mem_filter hh, hmem, congrArg (· ++ _) hdenied⟩

/-- Settles O34: each record and each fault goes the one way that its case names, and with nothing held behind the fault path its end tries nothing else again. -/
theorem faultsResolved : Obligations.FaultsResolved := by
  intro s
  refine ⟨fun id hid => ?_, fun id f v hf hk hv hw => ⟨fun hr hq => ?_, fun g s1 u hr _ hp hq => ?_⟩, fun fn => ⟨?_, ?_, ?_⟩⟩
  · exact congrArg Host.Outcome.next (by rw [hid])
  · rw [exec_faultResolution_invalid hf hk hv hw, hr, Option.elim_none, State.faultRefused_of_quiet hq, State.id_of_faultAt hf]
  · obtain ⟨hmem, hids⟩ := State.resolveIn_placed hp hq
    refine ⟨_, (exec_faultResolution_invalid hf hk hv hw).trans (by rw [hr, Option.elim_some]), fun x => by rw [hmem], ?_⟩
    rwa [State.id_of_faultAt hf] at hids
  · exact exec_responseRecord_empty
  · exact responseRecord_bad
  · exact fun tag q g hsize hhead hg hwait hq _ hfor => responseRecord_good hsize hhead hg hwait hq hfor

end Sys2Proof.Proofs
end

section
/-! Pages that move between the tiers, and the ring that they move through (O35). -/

namespace Sys2Proof.Machine

open Sys2Proof.Claims

variable {s : State}

theorem Mem.bytes_congr {m m' : Mem} {a n : Nat} (h : ∀ i, i < n → m.byte (a + i) = m'.byte (a + i)) : m.bytes a n = m'.bytes a n := by
  refine List.ext_getElem (by rw [Mem.bytes_length, Mem.bytes_length]) fun i hi hi' => ?_
  rw [Mem.bytes_length] at hi
  rw [← List.getD_eq_getElem (d := 0), ← List.getD_eq_getElem (d := 0), Mem.bytes_getD _ _ _ _ hi, Mem.bytes_getD _ _ _ _ hi, h i hi]

theorem Mem.byte_write_within {a n x : Nat} (h : within a n x) (m : Mem) (v : Nat) : (m.write a n v).byte x = byteOf v (x - a) := by
  obtain ⟨h1, h2⟩ := h
  have hi : x - a < n := by omega
  rw [Mem.write, Mem.byte_setBytes, leBytes_length, if_pos ⟨h1, h2⟩, ← getD_leBytes n v _ hi]
  rfl

theorem Mem.byte_write_not_within {a n x : Nat} (h : ¬ within a n x) (m : Mem) (v : Nat) : (m.write a n v).byte x = m.byte x :=
  Mem.byte_write_outside _ _ _ _ _ (by unfold within at h; omega)

/-! A page's copy and its entry. -/

theorem State.copyPage_frame (s : State) (vr src dst : Nat) :
    s.copyPage vr src dst = { s with
      mem := s.mem.setBytes dst (s.mem.bytes src 65536), rels := (s.copyPage vr src dst).rels, vrs := (s.copyPage vr src dst).vrs
      fns := (s.copyPage vr src dst).fns, tasks := (s.copyPage vr src dst).tasks, stackBytes := (s.copyPage vr src dst).stackBytes
      memPtr := (s.copyPage vr src dst).memPtr } := by
  have hm : ((s.chargeMem ⟨vr, none⟩ src 65536 true false).chargeMem ⟨vr, none⟩ dst 65536 false true).mem = s.mem := by simp
  unfold State.copyPage
  dsimp only
  rw [hm, State.chargeMem_frame, State.chargeMem_frame s]

theorem State.rewriteLeaf_frame (s : State) (vr page : Nat) (l : Leaf) (pa tier : Nat) :
    s.rewriteLeaf vr page l pa tier = { s with
      mem := s.mem.write l.at_ 8 (leafWith (s.mem.read l.at_ 8) (pa / 65536 * 65536) tier)
      cores := (s.rewriteLeaf vr page l pa tier).cores, ftlb := (s.rewriteLeaf vr page l pa tier).ftlb } := rfl

theorem Fn.free_spend (f : Fn) (r n : Nat) : (f.spend r n).free = f.free := by
  unfold Fn.spend
  split <;> rfl

theorem Fn.free_chargeEnergy (f : Fn) (n : Nat) : (f.chargeEnergy n).free = f.free := f.free_spend _ _

theorem State.free_onFn {f : Fn → Fn} (hf : ∀ x, (f x).free = x.free) (k g : Nat) : ((s.onFn k f).fnAt g).free = (s.fnAt g).free := by
  rw [State.fnAt_onFn]
  split
  · rename_i e
    rw [hf, e]
  · rfl

theorem State.free_charge (p : Payer) (n g : Nat) : ((s.charge p n).fnAt g).free = (s.fnAt g).free := by
  unfold State.charge
  split
  · rfl
  · exact State.free_onFn (s := s.onVr _ _) (fun f => f.free_chargeEnergy n) _ _

theorem State.free_chargeMem (p : Payer) (pa n : Nat) (rd wr : Bool) (g : Nat) :
    ((s.chargeMem p pa n rd wr).fnAt g).free = (s.fnAt g).free := by
  unfold State.chargeMem
  dsimp only
  split
  · split
    · rfl
    · rw [State.free_onFn fun f => f.free_spend _ _, State.free_charge]
      rfl
  · exact State.free_charge _ _ _

theorem State.free_copyPage (vr src dst g : Nat) : ((s.copyPage vr src dst).fnAt g).free = (s.fnAt g).free := by
  unfold State.copyPage
  exact State.free_chargeMem (s := s.chargeMem ⟨vr, none⟩ src 65536 true false) _ _ _ _ _ _ |>.trans (State.free_chargeMem _ _ _ _ _ _)

/-! VRs to which no pulled packet has come, which charges keep. -/

/-- No VR holds a packet of a pulled page. -/
def NoPulls (s : State) : Prop := ∀ e ∈ s.vrs, ∀ v ∈ e.2, v.pulls = []

theorem NoPulls.of_vrs {t : State} (h : NoPulls s) (e : t.vrs = s.vrs) : NoPulls t := by
  unfold NoPulls
  rwa [e]

theorem NoPulls.onFn (h : NoPulls s) (k : Nat) (f : Fn → Fn) : NoPulls (s.onFn k f) := h

theorem State.pullPages_eq_nil_iff : s.pullPages = [] ↔ NoPulls s := by
  unfold State.pullPages
  rw [List.flatMap_eq_nil_iff]
  refine forall₂_congr fun e _ => ?_
  obtain ⟨k, o⟩ := e
  cases o with
  | none => simp
  | some v => cases hp : v.pulls <;> simp [hp, List.eraseDups_cons]

theorem NoPulls.onVr (h : NoPulls s) (k : Nat) {f : Vr → Vr} (hf : ∀ v, (f v).pulls = v.pulls) : NoPulls (s.onVr k f) := by
  refine forall_smod (P := fun o : Option Vr => ∀ v ∈ o, v.pulls = []) h (fun v hv => absurd hv (Option.not_mem_none v)) (fun o ho v hv => ?_) k
  obtain ⟨u, hu, rfl⟩ := Option.mem_map.mp hv
  rw [hf, ho u hu]

theorem NoPulls.charge (h : NoPulls s) (p : Payer) (n : Nat) : NoPulls (s.charge p n) := by
  unfold State.charge
  split
  · exact h
  · exact h.onVr _ fun _ => rfl

theorem NoPulls.chargeMem (h : NoPulls s) (p : Payer) (pa n : Nat) (rd wr : Bool) : NoPulls (s.chargeMem p pa n rd wr) := by
  unfold State.chargeMem
  dsimp only
  split
  · split
    · exact h
    · refine NoPulls.onFn (NoPulls.charge ?_ _ _) _ _
      exact h
  · exact h.charge _ _

theorem NoPulls.copyPage (h : NoPulls s) (vr src dst : Nat) : NoPulls (s.copyPage vr src dst) :=
  (h.chargeMem ⟨vr, none⟩ src 65536 true false).chargeMem ⟨vr, none⟩ dst 65536 false true

theorem State.landPulls_of_pullPages_nil (h : s.pullPages = []) : s.landPulls = s := by
  unfold State.landPulls
  rw [h]
  rfl

theorem pageMoved_of_copyPage_rewriteLeaf {vr page src dst tier : Nat} {l : Leaf} (hd : dst % 65536 = 0)
    (hl : l.at_ + 8 ≤ dst ∨ dst + 65536 ≤ l.at_) : PageMoved s ((s.copyPage vr src dst).rewriteLeaf vr page l dst tier) src dst l.at_ tier := by
  have hm : (s.copyPage vr src dst).mem = s.mem.setBytes dst (s.mem.bytes src 65536) := by rw [State.copyPage_frame]
  have hout (x : Nat) (hx : ¬ within dst 65536 x) : (s.copyPage vr src dst).mem.byte x = s.mem.byte x := by
    rw [hm, Mem.byte_setBytes_outside _ _ _ _ (by rw [Mem.bytes_length]; unfold within at hx; omega)]
  have hread : (s.copyPage vr src dst).mem.read l.at_ 8 = s.mem.read l.at_ 8 :=
    congrArg ofLeBytes (Mem.bytes_congr fun i hi => hout _ (by unfold within; omega))
  rw [State.rewriteLeaf_frame, show dst / 65536 * 65536 = dst by omega, hread]
  refine fun x => ⟨fun hx => Mem.byte_write_within hx _ _, fun hx => ?_, fun hx hx' => ?_⟩
  · obtain ⟨h1, h2⟩ := hx
    refine (Mem.byte_write_not_within (by unfold within; omega) _ _).trans ?_
    rw [hm, Mem.byte_setBytes, Mem.bytes_length, if_pos ⟨h1, h2⟩, ← Mem.bytes_getD _ _ _ _ (by omega : x - dst < 65536)]
    rfl
  · exact (Mem.byte_write_not_within hx _ _).trans (hout x hx')

/-! What a promotion does. -/

theorem exec_tierPromotion {id : Nat} {f : PFault} {w : Found} (hf : s.faultAt id = some f) (hk : f.kind = .promote)
    (hw : s.promotable f = some w) : exec (.tierPromotion id) s =
      .next (if w.last.lvl ≠ 0 then s.promoteInPlace f
        else match s.takeFree (s.fnOf f.vr) with
          | (s, none) => s
          | (s, some pa) => ((s.copyPage f.vr (w.pa / 65536 * 65536) pa).rewriteLeaf f.vr f.page w.last pa 0).faultDone f) := by
  refine congrArg Host.Outcome.next ?_
  rw [hf]
  dsimp only
  rw [if_neg (not_not.mpr hk), hw] <;> rfl

theorem State.promoteInPlace_of_promotable {f : PFault} {w : Found} (hw : s.promotable f = some w) :
    s.promoteInPlace f = (s.rewriteLeaf f.vr f.page w.last (w.last.pa 0) 0).faultDone f := by
  unfold State.promoteInPlace
  rw [hw]

theorem State.takeFree_nil {fn : Nat} (h : (s.fnAt fn).free = []) : s.takeFree fn = (s.onFn fn fun _ => s.fnAt fn, none) := by
  unfold State.takeFree
  rw [h, takeRing, ← h]

theorem State.takeFree_cons {fn : Nat} {e : Word} {rest : List Word} (h : (s.fnAt fn).free = e :: rest) (he : (s.fnAt fn).goodFree e = true) :
    s.takeFree fn = (s.onFn fn fun _ => { s.fnAt fn with free := rest }, some e.toNat) := by
  unfold State.takeFree
  rw [h, takeRing, if_pos he]

theorem Fn.aligned_of_goodFree {f : Fn} {e : Word} (h : f.goodFree e = true) : e.toNat % 65536 = 0 := by
  unfold Fn.goodFree at h
  rw [Bool.and_eq_true, decide_eq_true_eq] at h
  exact h.1.2.1

theorem quiet_copyPage {vr src dst : Nat} (h : Quiet s) : Quiet (s.copyPage vr src dst) := by
  rw [State.copyPage_frame]
  exact quiet_of_eq h rfl rfl rfl

theorem quiet_rewriteLeaf {vr page pa tier : Nat} {l : Leaf} (h : Quiet s) : Quiet (s.rewriteLeaf vr page l pa tier) :=
  quiet_of_eq h rfl rfl rfl

/-! What a ring's refill does. -/

/-- A ring that takes pages. -/
def Fn.refilled (f : Fn) (pages : List Word) : Fn := { f with
  free := (f.free ++ pages).take 4096
  nextHbm := pages.foldl (fun m p => Nat.max m (p.toNat + 65536)) f.nextHbm }

theorem le_foldl_max (ps : List Word) (m : Nat) : m ≤ ps.foldl (fun m p => Nat.max m (p.toNat + 65536)) m := by
  induction ps generalizing m with
  | nil => exact le_rfl
  | cons p ps ih => exact (le_max_left _ _).trans (ih _)

theorem Fn.le_nextHbm_refilled (f : Fn) {pages : List Word} {p : Word} (h : p ∈ pages) : p.toNat + 65536 ≤ (f.refilled pages).nextHbm := by
  have key (ps : List Word) (m : Nat) (h : p ∈ ps) : p.toNat + 65536 ≤ ps.foldl (fun m p => Nat.max m (p.toNat + 65536)) m := by
    induction ps generalizing m with
    | nil => exact absurd h List.not_mem_nil
    | cons q ps ih =>
      rcases List.mem_cons.mp h with rfl | h
      · exact (le_max_right _ _).trans (le_foldl_max ps _)
      · exact ih _ h
  exact key pages _ h

theorem State.refillRing_of_full {fn : Nat} (h : 256 ≤ (s.fnAt fn).free.length) (pages : List Word) : s.refillRing fn pages = s := if_pos h

theorem State.refillRing_of_pages {fn : Nat} (h : (s.fnAt fn).free.length < 256) {pages : List Word} (hp : pages ≠ []) :
    s.refillRing fn pages = s.onFn fn fun f => f.refilled pages := by
  unfold State.refillRing
  rw [if_neg (by omega), if_neg (by simpa using hp)]
  rfl

theorem State.promoting_onFn (k fn : Nat) (f : Fn → Fn) : (s.onFn k f).promoting fn = s.promoting fn := rfl

theorem State.pullPages_onFn (k : Nat) (f : Fn → Fn) : (s.onFn k f).pullPages = s.pullPages := rfl

theorem exec_freePageRingRefill_of_free {fn : Nat} {pages : List Word} (hfree : ((s.refillRing fn pages).fnAt fn).free ≠ [])
    (hpull : (s.refillRing fn pages).pullPages = []) :
    exec (.freePageRingRefill fn pages) s = .next ((s.refillRing fn pages).promoteAgain fn) := by
  refine congrArg Host.Outcome.next ?_
  rw [if_neg (by simpa using hfree), State.landPulls_of_pullPages_nil hpull]

/-! A change of functions that changes nothing of any function changes no walk. -/

section
variable {k : Nat} {F : Fn → Fn} (hF : ∀ g, (s.onFn k F).fnAt g = s.fnAt g)
include hF

theorem State.walkVr_onFn_same (v : Vr) (va : Nat) : (s.onFn k F).walkVr v va = s.walkVr v va := by
  unfold State.walkVr State.stage1
  rw [hF]
  rfl

theorem State.candidates_onFn_same (fn : Nat) : (s.onFn k F).candidates fn = s.candidates fn := by
  have hleaves (v : Vr) : (s.onFn k F).leavesOf v = s.leavesOf v := by
    unfold State.leavesOf
    rw [hF]
    rfl
  have hpages (vr : Nat) (v : Vr) : (s.onFn k F).hbmPages vr v = s.hbmPages vr v := by
    unfold State.hbmPages
    rw [hleaves]
    simp only [State.walkVr_onFn_same hF]
  unfold State.candidates
  simp only [hpages]
  rfl

end

theorem Fn.refilled_nil {f : Fn} (h : f.free = []) : f.refilled [] = f := by
  obtain ⟨⟩ := f
  subst h
  rfl

theorem State.fnAt_onFn_refilled_nil {fn : Nat} (h : (s.fnAt fn).free = []) (g : Nat) :
    (s.onFn fn fun f => f.refilled []).fnAt g = s.fnAt g := by
  rw [State.fnAt_onFn]
  split
  · rename_i e
    rw [Fn.refilled_nil (e ▸ h), e]
  · rfl

/-- An empty ring without the supervisor's pages is refilled from the one page that can be demoted. -/
theorem State.refillRing_of_candidate {fn : Nat} {c : Nat × Nat × Leaf × Nat} (hfree : (s.fnAt fn).free = [])
    (hc : s.candidates fn = [c]) : s.refillRing fn [] = (s.onFn fn fun f => f.refilled []).demote fn c := by
  have hsame := State.candidates_onFn_same (State.fnAt_onFn_refilled_nil hfree) fn
  rw [hc] at hsame
  unfold State.refillRing
  rw [if_neg (by rw [hfree]; decide), if_pos List.isEmpty_nil]
  change ((State.candidates (s.onFn fn fun f => f.refilled []) fn).take 256).foldl _ _ = _
  rw [hsame, List.take_of_length_le (by simp), List.foldl_cons, List.foldl_nil]
  exact congrArg (State.demote · fn c) rfl

theorem State.demote_of_nextIn {fn vr page pa lp : Nat} {l : Leaf}
    (hlp : nextIn (s.fnAt fn).lpSlice lpBase 0x200000000 128 (Nat.max (s.fnAt fn).nextLp lpBase) = some lp) (hm : s.hasMem lp = true) :
    s.demote fn (vr, page, l, pa) =
      (((s.onFn fn fun f => { f with nextLp := lp + 65536 }).copyPage vr pa lp).rewriteLeaf vr page l lp 2).onFn fn fun f =>
        { f with free := (f.free ++ [BitVec.ofNat 64 pa]).take 4096 } := by
  unfold State.demote
  rw [State.toLp_eq, State.takeLp_eq]
  dsimp only
  rw [hlp, Option.bind_some, if_pos hm]
  rfl

end Sys2Proof.Machine

namespace Sys2Proof.Proofs

open Sys2Proof.Machine Sys2Proof.Claims

variable {s : State}

/-- A promoted page larger than the ring's: only its entry's tier hint differs. -/
theorem tierPromotion_inPlace {id : Nat} {f : PFault} {w : Found} (hf : s.faultAt id = some f) (hk : f.kind = .promote)
    (hw : s.promotable f = some w) (hl : w.last.lvl ≠ 0) (hq : Quiet s) :
    ∃ t, exec (.tierPromotion id) s = .next t ∧
      (∀ x, within w.last.at_ 8 x →
        t.mem.byte x = byteOf (leafWith (s.mem.read w.last.at_ 8) (w.last.pa 0 / 65536 * 65536) 0) (x - w.last.at_)) ∧
      (∀ x, ¬ within w.last.at_ 8 x → t.mem.byte x = s.mem.byte x) ∧ ∀ g ∈ t.faults, g.id ≠ id := by
  refine ⟨_, (exec_tierPromotion hf hk hw).trans (by rw [if_pos hl, State.promoteInPlace_of_promotable hw]), ?_⟩
  obtain ⟨cs, ts, hd⟩ := State.faultDone_of_quiet (quiet_rewriteLeaf hq) f
  rw [hd, State.id_of_faultAt hf]
  exact ⟨fun x hx => Mem.byte_write_within hx _ _, fun x hx => Mem.byte_write_not_within hx _ _, fun g hg => id_ne_of_mem_filter hg⟩

/-- On an empty ring a promotion waits. -/
theorem tierPromotion_waits {id : Nat} {f : PFault} {w : Found} (hf : s.faultAt id = some f) (hk : f.kind = .promote)
    (hw : s.promotable f = some w) (hl : w.last.lvl = 0) (hfree : (s.fnAt (s.fnOf f.vr)).free = []) :
    ∃ t, exec (.tierPromotion id) s = .next t ∧ t = { s with fns := t.fns } ∧ ∀ g, t.fnAt g = s.fnAt g := by
  refine ⟨_, (exec_tierPromotion hf hk hw).trans (by rw [if_neg (not_not.mpr hl), State.takeFree_nil hfree]), rfl, fun g => ?_⟩
  dsimp only
  rw [State.fnAt_onFn]
  split
  · rename_i e
    rw [e]
  · rfl

/-- A promoted page moves to the first page of the ring. -/
theorem tierPromotion_moves {id : Nat} {f : PFault} {w : Found} {e : Word} {rest : List Word} (hf : s.faultAt id = some f)
    (hk : f.kind = .promote) (hw : s.promotable f = some w) (hl : w.last.lvl = 0) (hfree : (s.fnAt (s.fnOf f.vr)).free = e :: rest)
    (he : (s.fnAt (s.fnOf f.vr)).goodFree e = true) (hq : Quiet s) (hapart : w.last.at_ + 8 ≤ e.toNat ∨ e.toNat + 65536 ≤ w.last.at_) :
    ∃ t, exec (.tierPromotion id) s = .next t ∧ PageMoved s t (w.pa / 65536 * 65536) e.toNat w.last.at_ 0 ∧
      (∀ g ∈ t.faults, g.id ≠ id) ∧ (t.fnAt (s.fnOf f.vr)).free = rest := by
  refine ⟨_, (exec_tierPromotion hf hk hw).trans (by rw [if_neg (not_not.mpr hl), State.takeFree_cons hfree he]), ?_⟩
  dsimp only
  generalize hs1 : s.onFn (s.fnOf f.vr) (fun _ => { s.fnAt (s.fnOf f.vr) with free := rest }) = s1
  have hq1 : Quiet s1 := hs1 ▸ quiet_of_eq hq rfl rfl rfl
  have hm1 : s1.mem = s.mem := hs1 ▸ rfl
  have hfree1 : (s1.fnAt (s.fnOf f.vr)).free = rest := by rw [← hs1, State.fnAt_onFn_self]
  obtain ⟨cs, ts, hd⟩ := State.faultDone_of_quiet (quiet_rewriteLeaf (quiet_copyPage hq1)) f
  rw [hd, State.id_of_faultAt hf]
  refine ⟨?_, fun g hg => id_ne_of_mem_filter hg, ?_⟩
  · have hmoved := pageMoved_of_copyPage_rewriteLeaf (s := s1) (vr := f.vr) (page := f.page) (src := w.pa / 65536 * 65536) (tier := 0)
      (Fn.aligned_of_goodFree he) hapart
    unfold PageMoved at hmoved ⊢
    rwa [hm1] at hmoved
  · exact (State.free_copyPage _ _ _ _).trans hfree1

/-- A demoted page leaves its HBM4E page to the ring. -/
theorem freePageRingRefill_demotes {fn vr page pa lp : Nat} {l : Leaf} (hfree : (s.fnAt fn).free = []) (hpull : s.pullPages = [])
    (hc : s.candidates fn = [(vr, page, l, pa)])
    (hlp : nextIn (s.fnAt fn).lpSlice lpBase 0x200000000 128 (Nat.max (s.fnAt fn).nextLp lpBase) = some lp) (hm : s.hasMem lp = true)
    (hd : lp % 65536 = 0) (hapart : l.at_ + 8 ≤ lp ∨ lp + 65536 ≤ l.at_) :
    ∃ t, exec (.freePageRingRefill fn []) s = .next t ∧ PageMoved s t pa lp l.at_ 2 ∧
      (t.fnAt fn).free = [BitVec.ofNat 64 pa] ∧ ∀ lc x, (t.lcoreAt lc).sp.byte x = (s.lcoreAt lc).sp.byte x := by
  generalize hs1 : (s.onFn fn fun f => f.refilled []).onFn fn (fun f => { f with nextLp := lp + 65536 }) = s1
  have hr : s.refillRing fn [] = ((s1.copyPage vr pa lp).rewriteLeaf vr page l lp 2).onFn fn fun f =>
      { f with free := (f.free ++ [BitVec.ofNat 64 pa]).take 4096 } := by
    rw [State.refillRing_of_candidate hfree hc, State.demote_of_nextIn (s := s.onFn fn fun f => f.refilled []) (by rwa [State.fnAt_onFn_refilled_nil hfree]) hm, hs1]
  have hfree1 : ((s1.copyPage vr pa lp).fnAt fn).free = [] := by
    rw [State.free_copyPage, ← hs1, State.fnAt_onFn_self, State.fnAt_onFn_refilled_nil hfree, hfree]
  have hfree2 : ((s.refillRing fn []).fnAt fn).free = [BitVec.ofNat 64 pa] := by
    rw [hr, State.fnAt_onFn_self]
    exact congrArg (fun fs : List Word => (fs ++ [BitVec.ofNat 64 pa]).take 4096) hfree1
  have hpull1 : NoPulls s1 := hs1 ▸ State.pullPages_eq_nil_iff.mp hpull
  have hpull2 : (s.refillRing fn []).pullPages = [] := by
    rw [hr]
    exact State.pullPages_eq_nil_iff.mpr (hpull1.copyPage vr pa lp)
  refine ⟨_, exec_freePageRingRefill_of_free (by rw [hfree2]; exact List.cons_ne_nil _ _) hpull2, ?_, hfree2, fun lc x => ?_⟩
  · have hmoved := pageMoved_of_copyPage_rewriteLeaf (s := s1) (vr := vr) (page := page) (src := pa) (tier := 2) hd hapart
    rw [hr]
    rw [← hs1] at hmoved ⊢
    exact hmoved
  · rw [hr, State.rewriteLeaf_frame, State.copyPage_frame, ← hs1]
    rfl

/-- Settles O35: a page's copy and its entry lie apart, so `PageMoved` says what each byte becomes; the ring is what `takeRing` and the refill leave. -/
theorem pagesPromotedAndDemoted : Obligations.PagesPromotedAndDemoted := by
  intro s
  refine ⟨fun id f w hf hk hw => ⟨fun hl hq => tierPromotion_inPlace hf hk hw hl hq, fun hl hfree => tierPromotion_waits hf hk hw hl hfree,
    fun e rest hl hfree he hq hapart => tierPromotion_moves hf hk hw hl hfree he hq hapart⟩, fun fn pages => ⟨fun hlen hpull => ?_,
    fun hlen hp hpull => ?_, ?_⟩⟩
  · have hne : ((s.refillRing fn pages).fnAt fn).free ≠ [] := by
      rw [State.refillRing_of_full hlen]
      exact List.ne_nil_of_length_pos (by omega)
    rw [exec_freePageRingRefill_of_free hne (by rw [State.refillRing_of_full hlen]; exact hpull), State.refillRing_of_full hlen]
  · have hfree : ((s.onFn fn fun f => f.refilled pages).fnAt fn).free = ((s.fnAt fn).free ++ pages).take 4096 := by
      rw [State.fnAt_onFn_self]
      rfl
    have hne : ((s.refillRing fn pages).fnAt fn).free ≠ [] := by
      rw [State.refillRing_of_pages hlen hp, hfree]
      simp [hp]
    refine ⟨_, (exec_freePageRingRefill_of_free hne (by rw [State.refillRing_of_pages hlen hp]; exact hpull)).trans
      (congrArg (fun t : State => Host.Outcome.next (t.promoteAgain fn)) (State.refillRing_of_pages hlen hp)), rfl, hfree, fun p hmem => ?_, fun g hne => ?_, rfl⟩
    · exact (Fn.le_nextHbm_refilled _ hmem).trans_eq (congrArg Fn.nextHbm (State.fnAt_onFn_self s fn fun f => f.refilled pages).symm)
    · exact (State.fnAt_onFn s fn g fun f => f.refilled pages).trans (if_neg hne)
  · rintro vr page l pa lp hfree rfl hpull hc hlp hm hd hapart
    exact freePageRingRefill_demotes hfree hpull hc hlp hm hd hapart

end Sys2Proof.Proofs
end

section
/-! Power, budgets, banks, invalidations and snapshots (O37). -/

namespace Sys2Proof.Machine

open Sys2Proof.Claims

variable {s : State}

section
variable {α : Type} {d : α} {m : SMap α}

theorem mem_of_sget_ne {k : Nat} (h : sget d m k ≠ d) : (k, sget d m k) ∈ m := by
  induction m with
  | nil => exact absurd rfl h
  | cons e t ih =>
    obtain ⟨k', v⟩ := e
    rw [sget] at h ⊢
    split
    · rename_i e
      rw [e]
      exact List.mem_cons_self
    · rename_i e
      rw [if_neg e] at h
      exact List.mem_cons_of_mem _ (ih h)

/-- Another key reads the same after a write, whatever default it is read with. -/
theorem sget_sset_ne_default [DecidableEq α] (d d' : α) {k k' : Nat} (v : α) (h : k' ≠ k) : sget d' (sset d m k v) k' = sget d' m k' := by
  have hrun : (srun d k [v]).any (fun e => e.1 == k') = false := by
    rw [srun, srun]
    split <;> simp [Ne.symm h]
  have hbelow := sget_filter d' (fun x => decide (x < k)) m k'
  have hfrom := sget_filter d' (fun x => decide (k + [v].length ≤ x)) m k'
  rw [sset, sputs, sget_append, sget_append, hrun, if_neg Bool.false_ne_true]
  rcases lt_or_gt_of_ne h with hlt | hgt
  · have hnone : (sfrom m (k + [v].length)).any (fun e => e.1 == k') = false :=
      any_filter_key (fun x => decide (k + [v].length ≤ x)) m k' (by simp; omega)
    rw [if_pos (by simpa using hlt)] at hbelow
    split
    · exact hbelow
    · rename_i hany
      rw [sget_of_not_any _ _ _ hnone, ← hbelow]
      exact (sget_of_not_any _ _ _ ((Bool.not_eq_true _).mp hany)).symm
  · have hnone : (sbelow m k).any (fun e => e.1 == k') = false := any_filter_key (fun x => decide (x < k)) m k' (by simp; omega)
    rw [hnone, if_neg Bool.false_ne_true]
    exact hfrom.trans (if_pos (by simp; omega))

end

/-! Power windows. -/

theorem State.mem_bankCounts (task : Nat) : (s.bankCounts task).mem = s.mem ∧ (s.bankCounts task).clockStep = s.clockStep ∧
    (s.bankCounts task).tasks = s.tasks := by
  unfold State.bankCounts
  dsimp only
  refine List.foldlRecOn (motive := fun t : State => t.mem = s.mem ∧ t.clockStep = s.clockStep ∧ t.tasks = s.tasks) _ _ ⟨rfl, rfl, rfl⟩
    fun t ht e _ => ht

theorem State.stopTask_keeps (task : Nat) (st : BitVec 8) (cls : BitVec 4) :
    (s.stopTask task st cls).mem = s.mem ∧ (s.stopTask task st cls).clockStep = s.clockStep := by
  obtain ⟨hm, hc, -⟩ := State.mem_bankCounts (s := s) task
  unfold State.stopTask
  split
  · exact ⟨hm, hc⟩
  · exact ⟨rfl, rfl⟩

theorem State.taskAt_stopTask (task k : Nat) (st : BitVec 8) (cls : BitVec 4) : (s.stopTask task st cls).taskAt k =
    if k = task ∧ ((s.taskAt task).phase = .running ∨ (s.taskAt task).phase = .preempted) then
      { s.taskAt k with phase := .stopping, status := st, cls := cls } else s.taskAt k := by
  obtain ⟨-, -, ht⟩ := State.mem_bankCounts (s := s) task
  unfold State.stopTask
  split
  · rename_i h
    refine (sget_sset _ _ _ _ _).trans ?_
    rw [ht]
    by_cases hk : k = task
    · subst hk
      rw [if_pos rfl, if_pos ⟨rfl, h⟩]
      rfl
    · rw [if_neg hk, if_neg (fun h => hk h.1)]
      rfl
  · rename_i h
    rw [if_neg fun h' => h h'.2]

theorem foldl_stopTask (st : BitVec 8) (cls : State → BitVec 4) (ks : List Nat) (s : State) :
    (ks.foldl (fun s k => s.stopTask k st (cls s)) s).mem = s.mem ∧ (ks.foldl (fun s k => s.stopTask k st (cls s)) s).clockStep = s.clockStep := by
  induction ks generalizing s with
  | nil => exact ⟨rfl, rfl⟩
  | cons k ks ih =>
    obtain ⟨hm, hc⟩ := ih (s.stopTask k st (cls s))
    obtain ⟨hm', hc'⟩ := State.stopTask_keeps (s := s) k st (cls s)
    exact ⟨hm.trans hm', hc.trans hc'⟩

/-- A task that has stopped with a status stays so while others stop. -/
theorem foldl_stopTask_stopped {st : BitVec 8} {cls : State → BitVec 4} {task : Nat} (ks : List Nat) {s : State}
    (h : (s.taskAt task).phase = .stopping ∧ (s.taskAt task).status = st) :
    ((ks.foldl (fun s k => s.stopTask k st (cls s)) s).taskAt task).phase = .stopping ∧
      ((ks.foldl (fun s k => s.stopTask k st (cls s)) s).taskAt task).status = st := by
  induction ks generalizing s with
  | nil => exact h
  | cons k ks ih =>
    refine ih ?_
    rw [State.taskAt_stopTask]
    split
    · exact ⟨rfl, rfl⟩
    · exact h

theorem foldl_stopTask_running {st : BitVec 8} {cls : State → BitVec 4} {task : Nat} {ks : List Nat} (hk : task ∈ ks) {s : State}
    (h : (s.taskAt task).phase = .running) :
    ((ks.foldl (fun s k => s.stopTask k st (cls s)) s).taskAt task).phase = .stopping ∧
      ((ks.foldl (fun s k => s.stopTask k st (cls s)) s).taskAt task).status = st := by
  induction ks generalizing s with
  | nil => exact absurd hk List.not_mem_nil
  | cons k ks ih =>
    by_cases e : task = k
    · refine foldl_stopTask_stopped ks ?_
      rw [State.taskAt_stopTask, if_pos ⟨e, Or.inl (e ▸ h)⟩]
      exact ⟨rfl, rfl⟩
    · refine ih ((List.mem_cons.mp hk).resolve_left e) ?_
      rwa [State.taskAt_stopTask, if_neg fun h => e h.1]

theorem State.mem_runningTasks {task : Nat} (h : (s.taskAt task).phase = .running) : task ∈ s.runningTasks := by
  have hne : s.taskAt task ≠ Task.init := fun e => by rw [e] at h; exact absurd h (by decide)
  exact List.mem_map_of_mem (f := Prod.fst) (List.mem_filter.mpr ⟨mem_of_sget_ne hne, decide_eq_true h⟩)

theorem exec_powerWindowEnd_limit (hb : s.bare = false) (hd : s.detmode = true) {w : Nat} (hw : 2800 < w) :
    ∃ t, exec (.powerWindowEnd w) s = .next t ∧ t.mem = s.mem ∧ t.clockStep = s.clockStep ∧
      ∀ task, (s.taskAt task).phase = .running → (t.taskAt task).phase = .stopping ∧ (t.taskAt task).status = 0x11 := by
  refine ⟨_, congrArg Host.Outcome.next (by rw [if_neg (by rw [hb]; decide), if_pos hd, if_pos hw]), ?_⟩
  obtain ⟨hm, hc⟩ := foldl_stopTask cPower (fun s => Config.powerClass s.draw) s.runningTasks { s with draw := s.draw + 1 }
  exact ⟨hm, hc, fun task h => foldl_stopTask_running (cls := fun s => Config.powerClass s.draw) (State.mem_runningTasks h) h⟩

/-! Budget periods. -/

theorem Fn.allotOf_refresh (f : Fn) (r q : Nat) : (f.refresh r).allotOf q = f.allotOf q := by
  unfold Fn.refresh
  dsimp only
  split <;> rfl

theorem Fn.balOf_refresh_ne (f : Fn) {r q : Nat} (h : q ≠ r) : (f.refresh r).balOf q = f.balOf q := by
  unfold Fn.refresh
  dsimp only
  split
  · rfl
  · exact sget_sset_ne_default _ _ _ h

theorem Fn.balOf_refresh_self (f : Fn) (r : Nat) : (f.refresh r).balOf r =
    if f.allotOf r = 0xFFFFFFFF then f.balOf r else min (f.balOf r) (2 * (f.allotOf r).toNat) + (f.allotOf r).toNat := by
  unfold Fn.refresh
  dsimp only
  split
  · rfl
  · exact sget_sset_self _ _ _ _

/-- A function at a period's boundary. -/
def Fn.periodEnds (f : Fn) : Fn := ((f.refresh 0).refresh 1).refresh 2

theorem Fn.refresh_init (r : Nat) : Fn.init.refresh r = Fn.init := by
  have ha : Fn.init.allotOf r = 0xFFFFFFFF := rfl
  unfold Fn.refresh
  dsimp only
  rw [if_pos ha]

theorem Fn.periodEnds_init : Fn.init.periodEnds = Fn.init := by
  rw [Fn.periodEnds, Fn.refresh_init, Fn.refresh_init, Fn.refresh_init]

theorem Fn.allotOf_periodEnds (f : Fn) (r : Nat) : f.periodEnds.allotOf r = f.allotOf r := by
  rw [Fn.periodEnds, Fn.allotOf_refresh, Fn.allotOf_refresh, Fn.allotOf_refresh]

theorem Fn.balOf_periodEnds (f : Fn) {r : Nat} (h : r < 3) : f.periodEnds.balOf r =
    if f.allotOf r = 0xFFFFFFFF then f.balOf r else min (f.balOf r) (2 * (f.allotOf r).toNat) + (f.allotOf r).toNat := by
  unfold Fn.periodEnds
  obtain rfl | rfl | rfl : r = 0 ∨ r = 1 ∨ r = 2 := by omega
  · rw [Fn.balOf_refresh_ne _ (by decide), Fn.balOf_refresh_ne _ (by decide), Fn.balOf_refresh_self]
  · rw [Fn.balOf_refresh_ne _ (by decide), Fn.balOf_refresh_self, Fn.allotOf_refresh, Fn.balOf_refresh_ne _ (by decide)]
  · rw [Fn.balOf_refresh_self, Fn.allotOf_refresh, Fn.allotOf_refresh, Fn.balOf_refresh_ne _ (by decide), Fn.balOf_refresh_ne _ (by decide)]

theorem exec_budgetPeriodBoundary_due (h : s.periodAt ≤ s.cycle.toNat) (hq : Quiet s) : exec .budgetPeriodBoundary s =
    .next { s with fns := smapAll Fn.init (fun _ f => f.periodEnds) s.fns, periodAt := s.periodAt + s.period } :=
  congrArg Host.Outcome.next ((if_pos h).trans (State.retryAll_of_quiet (quiet_of_eq hq rfl rfl rfl)))

/-! Banks. -/

theorem Mem.byte_wipe (m : Mem) (a n x : Nat) : (m.wipe a n).byte x = if a ≤ x ∧ x < a + n then 0 else m.byte x := by
  have hbelow := sget_filter unlisted (fun y => decide (y < a)) m x
  have hfrom := sget_filter unlisted (fun y => decide (a + n ≤ y)) m x
  rw [Mem.wipe, Mem.byte, sget_append]
  by_cases hx : x < a
  · rw [if_neg (c := a ≤ x ∧ x < a + n) (by omega)]
    have hnone : (sfrom m (a + n)).any (fun e => e.1 == x) = false := any_filter_key (fun y => decide (a + n ≤ y)) m x (by simp; omega)
    rw [if_pos (by simpa using hx)] at hbelow
    split
    · exact hbelow
    · rename_i hany
      rw [sget_of_not_any _ _ _ hnone, Mem.byte, ← hbelow]
      exact (sget_of_not_any _ _ _ ((Bool.not_eq_true _).mp hany)).symm
  · have hnone : (sbelow m a).any (fun e => e.1 == x) = false := any_filter_key (fun y => decide (y < a)) m x (by simp; omega)
    rw [hnone, if_neg Bool.false_ne_true]
    refine hfrom.trans ?_
    by_cases hx' : a + n ≤ x
    · rw [if_pos (by simpa using hx'), if_neg (c := a ≤ x ∧ x < a + n) (by omega)]
      rfl
    · rw [if_neg (by simpa using hx'), if_pos (c := a ≤ x ∧ x < a + n) (by omega)]
      rfl

/-! Invalidations. -/

theorem exec_invalidation (i : InvScope) : exec (.invalidation i) s = .next { s with
    cores := smapAll Core.init (fun _ c => { c with tlb := c.tlb.filter fun t => !invNames i t }) s.cores
    ftlb := smapAll [] (fun _ l => l.filter fun t => !invNames i t) s.ftlb } := rfl

theorem mem_filter_not_invNames {i : InvScope} {l : List Tlb} {x : Tlb} :
    x ∈ l.filter (fun t => !invNames i t) ↔ x ∈ l ∧ invNames i x = false := by
  rw [List.mem_filter, Bool.not_eq_true']

/-! Snapshots. -/

theorem exec_snapshotLatch_none (h : ∀ l ∈ s.sup.latching, s.cycle.toNat < l.2) : exec .snapshotLatch s = .next s := by
  refine congrArg Host.Outcome.next ?_
  dsimp only
  rw [List.filter_eq_nil_iff.mpr fun l hl => by simpa using h l hl]
  rfl

/-- The supervisor's state after one trigger's latch. -/
def State.latched (s : State) (id : BitVec 16) : Sup :=
  s.blocks.foldl (fun u b => u.snapPut id s.cycle (Config.snapCycles s.draw) b) s.sup

theorem exec_snapshotLatch_one {id : BitVec 16} {at_ : Nat} (hl : s.sup.latching = [(id, at_)]) (hd : at_ ≤ s.cycle.toNat) :
    exec .snapshotLatch s = .next { s with
      sup := { s.latched id with latching := (s.latched id).latching.filter fun x => decide (x ≠ (id, at_)) }, draw := s.draw + 4 } := by
  refine congrArg Host.Outcome.next ?_
  dsimp only
  rw [hl, List.filter_cons_of_pos (by simpa using hd)]
  rfl

/-- The place of a block among those that write. -/
def blockKey (b : Nat × Nat × List Word) : Nat := 4096 * b.1 + b.2.1

theorem Sup.latching_foldl_snapPut (id : BitVec 16) (cyc : Word) (n : Nat) (bs : List (Nat × Nat × List Word)) (u : Sup) :
    (bs.foldl (fun u b => u.snapPut id cyc n b) u).latching = u.latching := by
  induction bs generalizing u with
  | nil => rfl
  | cons b bs ih =>
    refine (ih _).trans ?_
    dsimp only
    unfold Sup.snapPut
    split <;> rfl

theorem snapRecord_word {id : BitVec 16} {k i : Nat} (hk : k < 16) (hi : i < 4096) :
    (BitVec.ofNat 4 k ++ BitVec.ofNat 12 i ++ id ++ (0 : BitVec 31) ++ (0 : BitVec 1) : BitVec 64).toNat =
      k * 2 ^ 60 + i * 2 ^ 48 + id.toNat * 2 ^ 32 := by
  have hid := id.isLt
  have hi' : i < 2 ^ 12 := hi
  simp only [BitVec.toNat_append, BitVec.toNat_ofNat, Nat.mod_eq_of_lt hk, Nat.mod_eq_of_lt hi, ← Nat.shiftLeft_add_eq_or_of_lt hi',
    ← Nat.shiftLeft_add_eq_or_of_lt hid]
  simp only [BitVec.ofNat_eq_ofNat, BitVec.toNat_ofNat, Nat.zero_mod, Nat.or_zero, Nat.shiftLeft_eq]
  omega

theorem Sup.snapPut_free (id : BitVec 16) (cyc : Word) (n : Nat) {b : Nat × Nat × List Word} {u : Sup} (hbusy : sget 0 u.snapBusy (blockKey b) = 0)
    (hdropped : u.dropped = []) (hroom : u.ring.length < 4096) : u.snapPut id cyc n b = { u with
      ring := u.ring ++ [(BitVec.ofNat 4 b.1 ++ BitVec.ofNat 12 b.2.1 ++ id ++ (0 : BitVec 31) ++ (0 : BitVec 1) : BitVec 64) :: cyc :: b.2.2]
      snapBusy := sset 0 u.snapBusy (blockKey b) (cyc.toNat + n), dropped := [] } := by
  have hgo : ¬ (cyc.toNat < sget 0 u.snapBusy (4096 * b.1 + b.2.1) ∨ 4096 ≤ u.ring.length) := by
    rw [show sget 0 u.snapBusy (4096 * b.1 + b.2.1) = 0 from hbusy]
    omega
  refine (if_neg hgo).trans ?_
  dsimp only
  rw [hdropped]
  rfl

/-- Blocks of different places of which none writes: each gets its record, in their order. -/
theorem Sup.ring_foldl_snapPut (id : BitVec 16) (cyc : Word) (n : Nat) {bs : List (Nat × Nat × List Word)} {u : Sup}
    (hkeys : (bs.map blockKey).Nodup) (hbounds : ∀ b ∈ bs, b.1 < 16 ∧ b.2.1 < 4096) (hbusy : ∀ b ∈ bs, sget 0 u.snapBusy (blockKey b) = 0)
    (hdropped : u.dropped = []) (hroom : u.ring.length + bs.length ≤ 4096) :
    ∃ rs, (bs.foldl (fun u b => u.snapPut id cyc n b) u).ring = u.ring ++ rs ∧ List.Forall₂ (snapRecord id cyc) bs rs := by
  induction bs generalizing u with
  | nil => exact ⟨[], (List.append_nil _).symm, .nil⟩
  | cons b bs ih =>
    obtain ⟨hb, hkeys⟩ := List.nodup_cons.mp hkeys
    obtain ⟨hk, hi⟩ := hbounds b List.mem_cons_self
    have hput := Sup.snapPut_free id cyc n (hbusy b List.mem_cons_self) hdropped (by simp at hroom; omega)
    obtain ⟨rs, hr, hrs⟩ := ih (u := u.snapPut id cyc n b) hkeys (fun c hc => hbounds c (List.mem_cons_of_mem _ hc)) (fun c hc => by
        have hne : blockKey c ≠ blockKey b := fun e => hb (e ▸ List.mem_map_of_mem hc)
        rw [hput]
        exact (sget_sset_ne _ _ _ _ _ hne).trans (hbusy c (List.mem_cons_of_mem _ hc)))
      (by rw [hput]) (by rw [hput]; simp at hroom ⊢; omega)
    refine ⟨_ :: rs, hr.trans ?_, .cons ⟨_, rfl, snapRecord_word hk hi⟩ hrs⟩
    rw [hput]
    exact List.append_assoc _ _ _

/-- Blocks that still write an earlier record are dropped. -/
theorem Sup.dropped_foldl_snapPut (id : BitVec 16) {cyc : Word} (n : Nat) {bs : List (Nat × Nat × List Word)} {u : Sup}
    (hbusy : ∀ b ∈ bs, cyc.toNat < sget 0 u.snapBusy (blockKey b)) :
    (bs.foldl (fun u b => u.snapPut id cyc n b) u).ring = u.ring ∧
      (bs.foldl (fun u b => u.snapPut id cyc n b) u).dropped = (bs.map fun b => (b.1, b.2.1)).reverse ++ u.dropped := by
  induction bs generalizing u with
  | nil => exact ⟨rfl, rfl⟩
  | cons b bs ih =>
    have hb : u.snapPut id cyc n b = { u with dropped := (b.1, b.2.1) :: u.dropped } := if_pos (Or.inl (hbusy b List.mem_cons_self))
    rw [List.foldl_cons, hb]
    obtain ⟨hr, hd⟩ := ih (u := { u with dropped := (b.1, b.2.1) :: u.dropped }) fun c hc => hbusy c (List.mem_cons_of_mem _ hc)
    exact ⟨hr, hd.trans (by simp)⟩

theorem State.blocks_bounds : ∀ b ∈ s.blocks, b.1 < 16 ∧ b.2.1 < 4096 := by
  intro b hb
  simp only [State.blocks, List.mem_append, List.mem_map, List.mem_filter, List.mem_range] at hb
  obtain (((⟨i, hi, rfl⟩ | ⟨i, hi, rfl⟩) | ⟨i, hi, rfl⟩) | ⟨i, hi, rfl⟩) | ⟨i, hi, rfl⟩ := hb <;> dsimp only <;> omega

theorem State.nodup_blocks : (s.blocks.map blockKey).Nodup := by
  have hshift (c n : Nat) : ((List.range n).map (c + ·)).Nodup := List.nodup_range.map fun _ _ h => Nat.add_left_cancel h
  have hkeys : s.blocks.map blockKey =
      ((List.range 288).filter fun i => !s.fusedAt (i / 4)).map (0 + ·) ++ ((List.range 72).filter fun i => !s.fusedAt i).map (4096 + ·) ++
        (List.range 32).map (8192 + ·) ++ (List.range 8).map (12288 + ·) ++ (List.range 4).map (16384 + ·) := by
    simp only [State.blocks, List.map_append, List.map_map]
    rfl
  rw [hkeys]
  simp only [List.nodup_append, List.mem_append, List.mem_map, List.mem_filter, List.mem_range]
  refine ⟨⟨⟨⟨(List.nodup_range.filter _).map fun _ _ h => Nat.add_left_cancel h, (List.nodup_range.filter _).map fun _ _ h => Nat.add_left_cancel h, ?_⟩, hshift _ _, ?_⟩, hshift _ _, ?_⟩, hshift _ _, ?_⟩
  all_goals omega

end Sys2Proof.Machine

namespace Sys2Proof.Proofs

open Sys2Proof.Machine Sys2Proof.Claims

variable {s : State}

theorem powerWindowEnd_outcomes (s : State) (w : Nat) : (s.bare = true → exec (.powerWindowEnd w) s = .next s) ∧
    (s.bare = false → s.detmode = false → exec (.powerWindowEnd w) s = .next { s with
      clockStep := if 2800 < w then max 8 (s.clockStep - 1) else if w < 2700 then min 16 (s.clockStep + 1) else s.clockStep }) ∧
    (s.detmode = true → w ≤ 2800 → exec (.powerWindowEnd w) s = .next s) := by
  refine ⟨fun hb => congrArg Host.Outcome.next (if_pos hb), fun hb hd => congrArg Host.Outcome.next ?_, fun hd hw => congrArg Host.Outcome.next ?_⟩
  · rw [if_neg (by rw [hb]; decide), if_neg (by rw [hd]; decide)]
    split
    · rfl
    · split <;> rfl
  · rw [if_pos hd, if_neg (Nat.not_lt.mpr hw), ite_self]

/-- A limited balance takes its allotment; at most two of them are carried. -/
theorem budgetPeriodBoundary_due (h : s.periodAt ≤ s.cycle.toNat) (hq : Quiet s) (hfns : swf Fn.init s.fns = true) :
    ∃ t, exec .budgetPeriodBoundary s = .next t ∧ t = { s with fns := t.fns, periodAt := s.periodAt + s.period } ∧
      ∀ f r, r < 3 → (t.fnAt f).allotOf r = (s.fnAt f).allotOf r ∧ (t.fnAt f).balOf r =
        if (s.fnAt f).allotOf r = 0xFFFFFFFF then (s.fnAt f).balOf r
        else min ((s.fnAt f).balOf r) (2 * ((s.fnAt f).allotOf r).toNat) + ((s.fnAt f).allotOf r).toNat := by
  refine ⟨_, exec_budgetPeriodBoundary_due h hq, rfl, fun f r hr => ?_⟩
  have hf : State.fnAt { s with fns := smapAll Fn.init (fun _ f => f.periodEnds) s.fns, periodAt := s.periodAt + s.period } f =
      (s.fnAt f).periodEnds := sget_smapAll _ _ _ _ hfns fun _ => Fn.periodEnds_init
  rw [hf]
  exact ⟨Fn.allotOf_periodEnds _ _, Fn.balOf_periodEnds _ hr⟩

theorem bankGate_scratchpad (s : State) (c b : Nat) :
    (s.fusedAt (c / 4) = true → ∀ g, exec (.bankGate (.spad c b) g) s = .next s) ∧
    (s.coreInUse c = true → exec (.bankGate (.spad c b) true) s = .next s) ∧
    (s.fusedAt (c / 4) = false → s.coreInUse c = false → ∃ t, exec (.bankGate (.spad c b) true) s = .next t ∧ t = { s with cores := t.cores } ∧
      sget false (t.coreAt c).gated b = true ∧ sget false (t.coreAt c).waking b = false ∧ (t.coreAt c).tlb = [] ∧
      ∀ k, k ≠ c → t.coreAt k = s.coreAt k) ∧
    (sget false (s.coreAt c).gated b = false → exec (.bankGate (.spad c b) false) s = .next s) ∧
    (s.fusedAt (c / 4) = false → sget false (s.coreAt c).gated b = true → ∃ t, exec (.bankGate (.spad c b) false) s = .next t ∧
      t = { s with cores := t.cores } ∧ sget false (t.coreAt c).gated b = false ∧ sget false (t.coreAt c).waking b = true ∧
      ∀ k, k ≠ c → t.coreAt k = s.coreAt k) ∧
    ∃ t, exec (.bankWakeEnd (.spad c b)) s = .next t ∧ t = { s with cores := t.cores } ∧
      sget false (t.coreAt c).waking b = false ∧ (∀ k, k ≠ b → sget false (t.coreAt c).waking k = sget false (s.coreAt c).waking k) ∧
      ∀ k, k ≠ c → t.coreAt k = s.coreAt k := by
  have hother (f : Core → Core) (k : Nat) (hk : k ≠ c) : (s.onCore c f).coreAt k = s.coreAt k := (s.coreAt_onCore c k f).trans (if_neg hk)
  refine ⟨fun hf g => congrArg Host.Outcome.next (if_pos hf), fun hu => congrArg Host.Outcome.next ?_, fun hf hu => ?_,
    fun hg => congrArg Host.Outcome.next ?_, fun hf hg => ?_, ⟨_, rfl, rfl, ?_, fun k hk => ?_, hother _⟩⟩
  · dsimp only
    rw [if_pos rfl, if_pos hu, ite_self]
  · refine ⟨_, congrArg Host.Outcome.next ((if_neg (by rw [hf]; decide)).trans ((if_pos rfl).trans (if_neg (by rw [hu]; decide)))), rfl,
      ?_, ?_, ?_, hother _⟩
    · rw [State.coreAt_onCore_self]
      exact sget_sset_self _ _ _ _
    · rw [State.coreAt_onCore_self]
      exact sget_sset_self _ _ _ _
    · rw [State.coreAt_onCore_self]
  · dsimp only
    rw [if_neg Bool.false_ne_true, hg, if_neg Bool.false_ne_true, ite_self]
  · refine ⟨_, congrArg Host.Outcome.next ((if_neg (by rw [hf]; decide)).trans ((if_neg Bool.false_ne_true).trans (if_pos hg))), rfl,
      ?_, ?_, hother _⟩
    · rw [State.coreAt_onCore_self]
      exact sget_sset_self _ _ _ _
    · rw [State.coreAt_onCore_self]
      exact sget_sset_self _ _ _ _
  · rw [State.coreAt_onCore_self]
    exact sget_sset_self _ _ _ _
  · rw [State.coreAt_onCore_self]
    exact sget_sset_ne _ _ _ _ _ hk

theorem bankGate_weights (s : State) (d b : Nat) :
    (s.dieInUse [d] = true → exec (.bankGate (.ws d b) true) s = .next s) ∧
    (s.dieInUse [d] = false → ∃ t, exec (.bankGate (.ws d b) true) s = .next t ∧
      t = { s with wsGated := t.wsGated, wsWaking := t.wsWaking } ∧ sget false t.wsGated (16 * d + b) = true ∧
      ∀ j, j ≠ 16 * d + b → sget false t.wsGated j = sget false s.wsGated j) ∧
    (sget false s.wsGated (16 * d + b) = true → ∃ t, exec (.bankGate (.ws d b) false) s = .next t ∧
      t = { s with wsGated := t.wsGated, wsWaking := t.wsWaking, ws := t.ws } ∧ sget false t.wsGated (16 * d + b) = false ∧
      sget false t.wsWaking (16 * d + b) = true ∧
      ∀ die x, (die = d → within (b * 0x1000000) 0x1000000 x → Mem.byte (sget [] t.ws die) x = 0) ∧
        (¬ (die = d ∧ within (b * 0x1000000) 0x1000000 x) → Mem.byte (sget [] t.ws die) x = Mem.byte (sget [] s.ws die) x)) ∧
    ∃ t, exec (.bankWakeEnd (.ws d b)) s = .next t ∧ t = { s with wsWaking := t.wsWaking } ∧
      sget false t.wsWaking (16 * d + b) = false ∧ ∀ j, j ≠ 16 * d + b → sget false t.wsWaking j = sget false s.wsWaking j := by
  refine ⟨fun hu => congrArg Host.Outcome.next ((if_pos rfl).trans (if_pos hu)), fun hu => ?_, fun hg => ?_,
    ⟨_, rfl, rfl, sget_sset_self _ _ _ _, fun j hj => sget_sset_ne _ _ _ _ _ hj⟩⟩
  · exact ⟨_, congrArg Host.Outcome.next ((if_pos rfl).trans (if_neg (by rw [hu]; decide))), rfl, sget_sset_self _ _ _ _,
      fun j hj => sget_sset_ne _ _ _ _ _ hj⟩
  · refine ⟨_, congrArg Host.Outcome.next ((if_neg Bool.false_ne_true).trans (if_pos hg)), rfl, sget_sset_self _ _ _ _,
      sget_sset_self _ _ _ _, fun die x => ⟨?_, fun hout => ?_⟩⟩
    · rintro rfl hx
      dsimp only
      rw [smod, sget_sset_self, Mem.byte_wipe]
      exact if_pos hx
    · dsimp only
      rw [smod, sget_sset]
      split
      · rename_i e
        subst e
        rw [Mem.byte_wipe]
        exact if_neg fun hx => hout ⟨rfl, hx⟩
      · rfl

theorem invalidation_drops (i : InvScope) (hcores : swf Core.init s.cores = true) (hftlb : swf [] s.ftlb = true) :
    ∃ t, exec (.invalidation i) s = .next t ∧ t = { s with cores := t.cores, ftlb := t.ftlb } ∧
      (∀ d x, x ∈ sget [] t.ftlb d ↔ x ∈ sget [] s.ftlb d ∧ invNames i x = false) ∧
      ∀ c x, x ∈ (t.coreAt c).tlb ↔ x ∈ (s.coreAt c).tlb ∧ invNames i x = false := by
  refine ⟨_, exec_invalidation i, rfl, fun d x => ?_, fun c x => ?_⟩
  · dsimp only
    rw [sget_smapAll _ _ _ _ hftlb fun _ => rfl, mem_filter_not_invNames]
  · unfold State.coreAt
    dsimp only
    rw [sget_smapAll _ _ _ _ hcores fun _ => rfl, mem_filter_not_invNames]

section
variable {id : BitVec 16} {at_ : Nat} (hl : s.sup.latching = [(id, at_)]) (hd : at_ ≤ s.cycle.toNat)
include hl hd

theorem snapshotLatch_writes (hdropped : s.sup.dropped = []) (hbusy : s.sup.snapBusy = [])
    (hroom : s.sup.ring.length + s.blocks.length ≤ 4096) :
    ∃ t rs, exec .snapshotLatch s = .next t ∧ t = { s with sup := t.sup, draw := t.draw } ∧ t.sup.latching = [] ∧
      t.sup.ring = s.sup.ring ++ rs ∧ rs.length = s.blocks.length ∧
      ∀ (n : Nat) b (r : List Word), s.blocks[n]? = some b → rs[n]? = some r → snapRecord id s.cycle b r := by
  obtain ⟨rs, hr, hrs⟩ := Sup.ring_foldl_snapPut id s.cycle (Config.snapCycles s.draw) State.nodup_blocks State.blocks_bounds
    (fun b _ => by rw [hbusy]; rfl) hdropped hroom
  refine ⟨_, rs, exec_snapshotLatch_one hl hd, rfl, ?_, hr, hrs.length_eq.symm, fun n b r hb hn => ?_⟩
  · have hlatch : (s.latched id).latching = [(id, at_)] := (Sup.latching_foldl_snapPut _ _ _ _ _).trans hl
    dsimp only
    rw [hlatch]
    simp
  · exact (List.forall₂_iff_zip.mp hrs).2 (List.mem_of_getElem? (i := n) (by rw [List.getElem?_zip_eq_some]; exact ⟨hb, hn⟩))

theorem snapshotLatch_drops (hbusy : ∀ b ∈ s.blocks, s.cycle.toNat < sget 0 s.sup.snapBusy (4096 * b.1 + b.2.1)) :
    ∃ t, exec .snapshotLatch s = .next t ∧ t.sup.ring = s.sup.ring ∧ ∀ b ∈ s.blocks, (b.1, b.2.1) ∈ t.sup.dropped := by
  obtain ⟨hr, hdr⟩ := Sup.dropped_foldl_snapPut id (Config.snapCycles s.draw) hbusy
  refine ⟨_, exec_snapshotLatch_one hl hd, hr, fun b hb => ?_⟩
  change _ ∈ (s.latched id).dropped
  rw [State.latched, hdr]
  exact List.mem_append_left _ (List.mem_reverse.mpr (List.mem_map_of_mem (f := fun b : Nat × Nat × List Word => (b.1, b.2.1)) hb))

end

/-- Settles O37: each event's effect is on the fields that its lemma names; a latch gives every block its record because no two blocks share a place. -/
theorem powerBudgetsAndBanks : Obligations.PowerBudgetsAndBanks := by
  intro s
  refine ⟨fun w => ?_, fun h => congrArg Host.Outcome.next (if_neg (by omega)), budgetPeriodBoundary_due, bankGate_scratchpad s,
    fun d b _ => bankGate_weights s d b, fun d => rfl, fun i => invalidation_drops i, exec_snapshotLatch_none,
    fun id at_ hl hd hdropped => ⟨snapshotLatch_writes hl hd hdropped, snapshotLatch_drops hl hd⟩⟩
  obtain ⟨hbare, hstep, hdet⟩ := powerWindowEnd_outcomes s w
  exact ⟨hbare, hstep, hdet, fun hb hd hw => exec_powerWindowEnd_limit hb hd hw⟩

end Sys2Proof.Proofs
end

section
/-! A duplicate whose requester is on another chip: the repeated answer's flits are charged to the VR that answers (O39). -/

namespace Sys2Proof.Machine

open Sys2Proof.Claims

/-- VR 1 has stored and answered sequence 1 of VR 2. -/
def repeatedVr : Vr := { blankVr 0 blankImage with srcs := [(2, { SrcWin.init with high := 1, recs := [(1, some ⟨true, 0, []⟩)] })] }

/-- The machine at reset with that VR and with port 0 as the route to endpoint 5. -/
def repeatedState : State := { State.reset with vrs := [(1, some repeatedVr)], route := [(5, 0x8000000000000001)] }

/-- The store of VR 2 on endpoint 5, come again with its good token. -/
def repeatedStore : Packet := { blankPacket 2 1 0 2 0 with srcEp := 5, token := 7470001734761316352, pseq := 1, cseq := 1, data := [1] }

theorem tokenGood_repeatedStore : tokenGood repeatedVr.key repeatedStore = true := by
  decide +kernel

/-- The answer's one flit costs VR 1 2,690 pJ. -/
theorem energy_arrive_repeatedStore : ((repeatedState.arrive repeatedStore).vrAt 1).map Vr.energy = some 26900 := by
  decide +kernel

end Sys2Proof.Machine

namespace Sys2Proof.Proofs

open Sys2Proof.Machine Sys2Proof.Claims

/-- Refutes O39: the clause on duplicates says that no VR differs, for a requester on any endpoint, but an answer that leaves the chip charges its flits to the VR that answers (R218, R224). A store that VR 1 has done comes again from VR 2 on endpoint 5: the answer goes out on port 0 and VR 1's energy grows from 0. -/
theorem not_requestsAtDestination : ¬ Obligations.RequestsAtDestination := by
  intro h
  obtain ⟨-, -, hhere, -⟩ := h repeatedState repeatedStore (.storeRequest repeatedStore) repeatedVr rfl (by decide)
  obtain ⟨-, -, -, hdup, -⟩ := hhere rfl rfl rfl
  obtain ⟨t, hexec, -, hvrs, -⟩ := hdup ⟨true, 0, []⟩ rfl rfl tokenGood_repeatedStore (by decide) (by decide) (by decide) rfl rfl rfl rfl
  have ht : repeatedState.arrive repeatedStore = t := Host.Outcome.next.inj hexec
  have henergy := energy_arrive_repeatedStore
  rw [ht, State.vrAt, hvrs] at henergy
  exact absurd henergy (by decide)

end Sys2Proof.Proofs
end

section
/-! What a packet sent and a page put on the fault path leave as it was (R109, R110, R178, R185): all but queues, links and meters. -/

namespace Sys2Proof.Machine

open Sys2Proof.Claims

theorem State.vrAt_onVr (s : State) (k j : Nat) (f : Vr → Vr) : (s.onVr k f).vrAt j = if j = k then (s.vrAt k).map f else s.vrAt j := by
  simp only [State.vrAt, State.onVr, smod, sget_sset]

/-- Nothing differs but the agenda, links, sequences, the fault path, messages to the host and what is metered by VR, task, function and stack. -/
def Aside (s t : State) : Prop :=
  t = { s with
    agenda := t.agenda, sent := t.sent, hostMem := t.hostMem, ports := t.ports, pairs := t.pairs, unacked := t.unacked, faults := t.faults
    uid := t.uid, vrs := t.vrs, fns := t.fns, tasks := t.tasks, stackBytes := t.stackBytes, memPtr := t.memPtr } ∧
  (∀ n, t.fnAt n = { s.fnAt n with
    waiting := (t.fnAt n).waiting, tags := (t.fnAt n).tags, rings := (t.fnAt n).rings, bal := (t.fnAt n).bal, energy := (t.fnAt n).energy }) ∧
  ∀ k, ∃ e, t.vrAt k = (s.vrAt k).map fun v => { v with energy := e }

/-- A change of a function's queues and meters only. -/
def MetersFn (g : Fn → Fn) : Prop :=
  ∀ x, g x = { x with waiting := (g x).waiting, tags := (g x).tags, rings := (g x).rings, bal := (g x).bal, energy := (g x).energy }

theorem Fn.exists_spend_eq (f : Fn) (r n : Nat) : ∃ b, f.spend r n = { f with bal := b } := by
  unfold Fn.spend
  split
  · exact ⟨f.bal, rfl⟩
  · exact ⟨_, rfl⟩

theorem metersFn_spend (r n : Nat) : MetersFn fun f => f.spend r n := fun f => by
  obtain ⟨b, hb⟩ := f.exists_spend_eq r n
  simp only [hb]

theorem metersFn_chargeEnergy (n : Nat) : MetersFn fun f => f.chargeEnergy n := fun f => by
  obtain ⟨b, hb⟩ := f.exists_spend_eq 2 ((f.energy + n) / 10000000 - f.energy / 10000000)
  simp only [Fn.chargeEnergy, hb]

theorem aside_refl (s : State) : Aside s s := by
  refine ⟨rfl, fun _ => rfl, fun k => ⟨((s.vrAt k).map (·.energy)).getD 0, ?_⟩⟩
  cases h : s.vrAt k <;> rfl

section
variable {s0 s : State} (h : Aside s0 s)
include h

/-- A further change beside the VRs and the functions. -/
theorem Aside.step {t : State} (ht : t = { s with
    agenda := t.agenda, sent := t.sent, hostMem := t.hostMem, ports := t.ports, pairs := t.pairs, unacked := t.unacked, faults := t.faults
    uid := t.uid, tasks := t.tasks, stackBytes := t.stackBytes, memPtr := t.memPtr }) : Aside s0 t := by
  obtain ⟨hs, hfn, hvr⟩ := h
  have hfns (n : Nat) : t.fnAt n = s.fnAt n := by rw [ht]; rfl
  have hvrs (k : Nat) : t.vrAt k = s.vrAt k := by rw [ht]; rfl
  refine ⟨?_, fun n => ?_, fun k => ?_⟩
  · rw [ht, hs]
  · rw [hfns]
    exact hfn n
  · rw [hvrs]
    exact hvr k

theorem Aside.later (x : Turn) : Aside s0 (s.later x) := h.step rfl

theorem Aside.vector (f n : Nat) : Aside s0 (s.vector f n) := h.step rfl

theorem Aside.onPort (q : Nat) (f : Port → Port) : Aside s0 (s.onPort q f) := h.step rfl

theorem Aside.onFn (n : Nat) {g : Fn → Fn} (hg : MetersFn g) : Aside s0 (s.onFn n g) := by
  obtain ⟨hs, hfn, hvr⟩ := h
  refine ⟨?_, fun k => ?_, hvr⟩
  · rw [hs]
    rfl
  · rw [State.fnAt_onFn]
    split
    · next hk => rw [hk, hg, hfn n]
    · exact hfn k

theorem Aside.energyUp (k n : Nat) : Aside s0 (s.onVr k fun v => { v with energy := v.energy + n }) := by
  obtain ⟨hs, hfn, hvr⟩ := h
  refine ⟨?_, hfn, fun j => ?_⟩
  · rw [hs]
    rfl
  · rw [State.vrAt_onVr]
    split
    · next hj =>
      obtain ⟨e, he⟩ := hvr k
      refine ⟨e + n, ?_⟩
      rw [hj, he]
      cases s0.vrAt k <;> rfl
    · exact hvr j

theorem Aside.charge (p : Payer) (n : Nat) : Aside s0 (s.charge p n) := by
  unfold State.charge
  split
  · exact h
  · exact ((h.energyUp _ _).onFn _ (metersFn_chargeEnergy n)).step rfl

theorem Aside.chargeMem (p : Payer) (pa n : Nat) (rd wr : Bool) : Aside s0 (s.chargeMem p pa n rd wr) := by
  unfold State.chargeMem
  split
  · have hstacks (x : SMap (Nat × Nat)) (y : SMap Nat) : Aside s0 { s with stackBytes := x, memPtr := y } := h.step rfl
    dsimp only
    split
    · exact hstacks _ _
    · exact ((hstacks _ _).charge _ _).onFn _ (metersFn_spend _ _)
  · exact h.charge _ _

theorem Aside.chargeFlit (p : Payer) (n : Nat) : Aside s0 (s.chargeFlit p n) := by
  unfold State.chargeFlit
  split
  · exact h
  · split
    · exact h
    · exact (h.charge _ _).onFn _ (metersFn_spend _ _)

theorem Aside.transmit (inst : Option Nat) (q : Nat) (hop : BitVec 2) (p : Packet) : Aside s0 (s.transmit inst q hop p) := by
  unfold State.transmit
  exact (Aside.step (h.onPort _ _) rfl).chargeFlit _ _

theorem Aside.sendFirst {inst : Option Nat} {p : Packet} {ps : List FabPath} {t : State} {q : Nat}
    (ht : s.sendFirst inst p ps = some (t, q)) : Aside s0 t := by
  unfold State.sendFirst at ht
  split at ht
  · obtain ⟨i, -, hi⟩ := Option.map_eq_some_iff.mp ht
    rw [← (Prod.mk.inj hi).1]
    exact h.later _
  · obtain ⟨i, -, hi⟩ := Option.map_eq_some_iff.mp ht
    rw [← (Prod.mk.inj hi).1]
    exact h.transmit _ _ _ _

theorem Aside.request {inst : Option Nat} {uid spad idx : Nat} {p : Packet} {t : State} (ht : s.request inst uid spad idx p = some t) :
    Aside s0 t := by
  unfold State.request at ht
  obtain ⟨⟨u, q⟩, hu, rfl⟩ := Option.map_eq_some_iff.mp ht
  exact (h.sendFirst hu).step rfl

theorem Aside.sendPull (v : Nat) (vr : Vr) (page : Nat) (e : Word) : Aside s0 (s.sendPull v vr page e) := by
  unfold State.sendPull
  dsimp only
  cases hr : s.request none 0 0 0 (pullPacket v vr page e) with
  | none => exact h.later _
  | some t => exact h.request hr

theorem Aside.ringPut (n q : Nat) (w0 w1 w2 w3 : Word) : Aside s0 (s.ringPut n q w0 w1 w2 w3) := by
  have hhost (m : Mem) : Aside s0 { s with hostMem := m } := h.step rfl
  exact ((hhost _).onFn n fun _ => rfl).vector _ _

/-- One step of the page requests. Its equation lemma would evaluate the list of 1,024 tags, so the recursion is opened by hand. -/
theorem Aside.drainReqs_one (n : Nat) : Aside s0 (State.drainReqs n 1 s) := by
  delta State.drainReqs
  rw [Nat.brecOn.eq]
  delta State.drainReqs._f
  dsimp only
  split
  · exact h
  · split
    · exact h
    · split
      · exact (h.ringPut _ _ _ _ _ _).onFn n fun _ => rfl
      · exact h

theorem Aside.pageRequest (n : Nat) (p : PReq) : Aside s0 (s.pageRequest n p) := by
  rw [State.pageRequest]
  split
  · exact h
  · exact (h.onFn n fun _ => rfl).drainReqs_one n

theorem Aside.enterFault (a : Acc) (v : Vr) (va : Nat) (k : FKind) (ipa : Nat) (node : Bool) (e : Word) (who : List Who) :
    Aside s0 (s.enterFault a v va k ipa node e who) := by
  unfold State.enterFault
  dsimp only
  split
  · exact h.step rfl
  · have hnew : Aside s0 { s with faults := s.faults ++ [(⟨s.uid, a.vr, va / 65536, ipa, k, who⟩ : PFault)], uid := s.uid + 1 } := h.step rfl
    cases k with
    | supervisor => exact hnew.later _
    | promote => exact hnew.later _
    | pull => exact hnew.sendPull _ _ _ _
    | host n => exact hnew.pageRequest _ _

theorem Aside.prefetch (a : Acc) (v : Vr) (page : Nat) : Aside s0 (s.prefetch a v page) := by
  unfold State.prefetch
  dsimp only
  generalize (List.range _).filter _ = l
  generalize s.spanOf v page 10 1 = n
  induction l generalizing s with
  | nil => exact h
  | cons i l ih =>
    refine ih ?_
    dsimp only
    split
    · exact h.enterFault _ _ _ _ _ _ _ _
    · exact h

theorem Aside.fault (a : Acc) (v : Vr) (va : Nat) (k : FKind) (ipa : Nat) (node : Bool) (e : Word) : Aside s0 (s.fault a v va k ipa node e) := by
  unfold State.fault
  dsimp only
  split
  · exact (h.enterFault _ _ _ _ _ _ _ _).prefetch _ _ _
  · exact h.enterFault _ _ _ _ _ _ _ _

theorem Aside.chargeWalk (p : Payer) (v : Vr) (va : Nat) : Aside s0 (s.chargeWalk p v va) := by
  unfold State.chargeWalk
  generalize s.walkTrail v va = l
  induction l generalizing s with
  | nil => exact h
  | cons i l ih => exact ih (h.chargeMem _ _ _ _ _)

/-- Nothing that it changes takes part in a walk, and no field of a VR that a meter holds does. -/
theorem Aside.walkVr (v : Vr) (va : Nat) : s.walkVr v va = s0.walkVr v va := by
  obtain ⟨hs, hfn, -⟩ := h
  have hmem : s.mem = s0.mem := by rw [hs]
  have hphys : s.hasMem = s0.hasMem := by rw [hs]; rfl
  have howns : (s.fnAt v.fn).owns = (s0.fnAt v.fn).owns := by rw [hfn]; rfl
  have hroot : (s.fnAt v.fn).s2root = (s0.fnAt v.fn).s2root := by rw [hfn]
  have hpte : s.pte (s.fnAt v.fn) = s0.pte (s0.fnAt v.fn) := by
    funext pa
    simp only [State.pte, hmem, hphys, howns]
  have hstage2 : s.stage2 (s.fnAt v.fn) = s0.stage2 (s0.fnAt v.fn) := by
    funext ipa node
    simp only [State.stage2, hpte, hroot]
  have hnode : s.nodeRead (s.fnAt v.fn) = s0.nodeRead (s0.fnAt v.fn) := by
    funext ipa
    simp only [State.nodeRead, hpte, hstage2]
  simp only [State.walkVr, State.stage1, State.inSlices, hpte, hstage2, hnode, hphys, howns]

theorem Aside.mem_eq : s.mem = s0.mem := by rw [h.1]

theorem Aside.vrAt_none {k : Nat} (hk : s0.vrAt k = none) : s.vrAt k = none := by
  obtain ⟨e, he⟩ := h.2.2 k
  rw [he, hk]
  rfl

theorem Aside.vrAt_some {k : Nat} {v : Vr} (hk : s0.vrAt k = some v) : ∃ e, s.vrAt k = some { v with energy := e } := by
  obtain ⟨e, he⟩ := h.2.2 k
  exact ⟨e, by rw [he, hk]; rfl⟩

end

end Sys2Proof.Machine
end

section
/-! A region's fill and the copies of twloads (O33): the access of one page, and what it leaves of the logical cores and the weight store (R93, R96, R346). -/

namespace Sys2Proof.Machine

open Sys2Proof.Claims

variable {s0 s s1 : State}

/-! Reads of the global space leave the scratchpads, the region maps and the weight stores. -/

/-- The logical cores and the weight stores are the same. -/
def StoresStand (s t : State) : Prop := t.lcores = s.lcores ∧ t.ws = s.ws

theorem storesStand_refl (s : State) : StoresStand s s := ⟨rfl, rfl⟩

theorem StoresStand.aside (h : StoresStand s0 s) (ha : Aside s s1) : StoresStand s0 s1 := by
  obtain ⟨hl, hw⟩ := h
  rw [StoresStand, ha.1]
  exact ⟨hl, hw⟩

theorem StoresStand.foldl {α : Type} {g : State → α → State} (hg : ∀ s x, StoresStand s (g s x)) (l : List α) (h : StoresStand s0 s) :
    StoresStand s0 (l.foldl g s) := by
  induction l generalizing s with
  | nil => exact h
  | cons x l ih =>
    obtain ⟨hl, hw⟩ := hg s x
    exact ih ⟨hl.trans h.1, hw.trans h.2⟩

theorem StoresStand.markAD (h : StoresStand s0 s) (p : Payer) (d : Nat → Bool) (marks : List Nat) : StoresStand s0 (s.markAD p d marks) := by
  refine StoresStand.foldl (fun s x => ?_) _ h
  have hc : StoresStand s (s.chargeMem p x 8 false true) := (storesStand_refl s).aside ((aside_refl s).chargeMem p x 8 false true)
  dsimp only
  split
  · exact storesStand_refl s
  · exact hc

theorem StoresStand.refuse351 (h : StoresStand s0 s) (a : Acc) (page : Nat) : StoresStand s0 (s.refuse351 a page) := by
  unfold State.refuse351
  split <;> exact h

theorem StoresStand.cachePut (h : StoresStand s0 s) (a : Acc) (t : Tlb) : StoresStand s0 (s.cachePut a t) := by
  unfold State.cachePut
  split <;> exact h

variable {a : Acc} {va n : Nat}

theorem StoresStand.xwalk (h : StoresStand s0 s) (v : Vr) {x : XR Nat} (hx : s.xwalk a v va = (s1, x)) : StoresStand s0 s1 := by
  have hwalk := h.aside ((aside_refl s).chargeWalk a.payer v va)
  simp only [State.xwalk] at hx
  split at hx
  · rw [← (Prod.mk.inj hx).1]
    exact hwalk.refuse351 _ _
  · split at hx
    · rw [← (Prod.mk.inj hx).1]
      exact hwalk.aside ((aside_refl _).fault _ _ _ _ _ _ _)
    · split at hx
      · rw [← (Prod.mk.inj hx).1]
        exact hwalk.refuse351 _ _
      · rw [← (Prod.mk.inj hx).1]
        exact (hwalk.markAD _ _ _).cachePut _ _

theorem StoresStand.xlate (h : StoresStand s0 s) {x : XR Nat} (hx : s.xlate a va = (s1, x)) : StoresStand s0 s1 := by
  simp only [State.xlate] at hx
  split at hx
  · rw [← (Prod.mk.inj hx).1]
    exact h
  · split at hx
    · rw [← (Prod.mk.inj hx).1]
      exact h
    · split at hx
      · rw [← (Prod.mk.inj hx).1]
        exact h
      · split at hx
        · split at hx <;> rw [← (Prod.mk.inj hx).1]
          · exact h
          · exact h.refuse351 _ _
        · exact h.xwalk _ hx

theorem StoresStand.chargeRuns (h : StoresStand s0 s) (p : Payer) (rs : List (Nat × Nat)) (rd : Bool) : StoresStand s0 (s.chargeRuns p rs rd) := by
  unfold State.chargeRuns
  induction rs generalizing s with
  | nil => exact h
  | cons r l ih => exact ih (h.aside ((aside_refl s).chargeMem _ _ _ _ _))

/-- A read within one page leaves the stores, and what it reads has the length asked for. -/
theorem State.gvRead_page (hn : 0 < n) (hpage : n ≤ 65536 - va % 65536) {x : XR (List Byte)} (hx : s.gvRead a va n = (s1, x)) :
    StoresStand s s1 ∧ ∀ bs, x = .ok bs → bs.length = n := by
  rcases hr : s.xlate a va with ⟨s2, pa | y | _⟩
  · rw [State.gvRead_ok hn hpage hr] at hx
    obtain ⟨rfl, rfl⟩ := Prod.mk.inj hx
    refine ⟨((storesStand_refl s).xlate hr).chargeRuns _ _ _, fun bs hbs => ?_⟩
    rw [← XR.ok.inj hbs, Mem.bytes_length]
  · rw [State.gvRead_refused hn hr] at hx
    obtain ⟨rfl, rfl⟩ := Prod.mk.inj hx
    exact ⟨(storesStand_refl s).xlate hr, nofun⟩
  · simp only [State.gvRead, State.runs, State.gvRuns, if_neg hn.ne', hr] at hx
    obtain ⟨rfl, rfl⟩ := Prod.mk.inj hx
    exact ⟨(storesStand_refl s).xlate hr, nofun⟩

/-! ## A region's fill (R93, R96) -/

section Fill
variable {lc idx : Nat}

/-- What REGION_FILL leaves: other cores, other regions, and bytes outside the copied ones stand. -/
def FillKeeps (s t : State) (lc idx at_ n : Nat) : Prop :=
  (∀ j, j ≠ idx → (t.lcoreAt lc).reg j = (s.lcoreAt lc).reg j) ∧ (∀ k, k ≠ lc → t.lcoreAt k = s.lcoreAt k) ∧
  ∀ x, ¬ within at_ n x → (t.lcoreAt lc).sp.byte x = (s.lcoreAt lc).sp.byte x

theorem LCore.reg_setRegion_self (l : LCore) (i : Nat) (r : Region) : (l.setRegion i r).reg i = r := sget_sset_self _ _ _ _

theorem LCore.reg_setRegion_ne (l : LCore) {i j : Nat} (r : Region) (h : j ≠ i) : (l.setRegion i r).reg j = l.reg j := by
  rw [LCore.reg, LCore.setRegion, sget_sset_ne _ _ _ _ _ h]
  rfl

/-- A write of the region's entry alone keeps the rest. -/
theorem fillKeeps_setRegion (h : s1.lcores = s.lcores) (at_ n : Nat) (g : LCore → Region) {t : State}
    (ht : t.lcores = (s1.onLcore lc fun l => l.setRegion idx (g l)).lcores) :
    FillKeeps s t lc idx at_ n ∧ (t.lcoreAt lc).sp = (s.lcoreAt lc).sp ∧ (t.lcoreAt lc).reg idx = g (s.lcoreAt lc) := by
  have hk (k : Nat) : t.lcoreAt k = if k = lc then (s.lcoreAt lc).setRegion idx (g (s.lcoreAt lc)) else s.lcoreAt k := by
    rw [State.lcoreAt_congr ht, State.lcoreAt_onLcore, State.lcoreAt_congr h, State.lcoreAt_congr h]
  have hlc := (hk lc).trans (if_pos rfl)
  rw [FillKeeps, hlc]
  exact ⟨⟨fun j hj => LCore.reg_setRegion_ne _ _ hj, fun k hne => (hk k).trans (if_neg hne), fun _ _ => rfl⟩, rfl, LCore.reg_setRegion_self _ _ _⟩

/-- The state in which a page of a region has been copied. -/
def fillPut (s : State) (lc idx : Nat) (r : Region) (n : Nat) (bs : List Byte) : State :=
  { (s.onLcore lc fun l => { l.setRegion idx { r with fillAt := r.fillAt + n } with sp := l.sp.setBytes (r.base + r.fillAt) bs }) with
    rels := clearRel s.rels (spRelKey lc (r.base + r.fillAt)) n }

theorem lcoreAt_fillPut (s : State) (lc idx : Nat) (r : Region) (n : Nat) (bs : List Byte) (k : Nat) :
    (fillPut s lc idx r n bs).lcoreAt k = if k = lc then
      { (s.lcoreAt lc).setRegion idx { r with fillAt := r.fillAt + n } with sp := (s.lcoreAt lc).sp.setBytes (r.base + r.fillAt) bs } else s.lcoreAt k :=
  State.lcoreAt_onLcore s lc k fun l => { l.setRegion idx { r with fillAt := r.fillAt + n } with sp := l.sp.setBytes (r.base + r.fillAt) bs }

theorem reg_fillPut (s : State) (lc idx : Nat) (r : Region) (n : Nat) (bs : List Byte) :
    ((fillPut s lc idx r n bs).lcoreAt lc).reg idx = { r with fillAt := r.fillAt + n } := by
  rw [lcoreAt_fillPut, if_pos rfl]
  exact LCore.reg_setRegion_self _ _ _

/-- The state in which a region's fill has ended. -/
def fillEnd (s : State) (lc idx : Nat) : State :=
  (s.onLcore lc fun l => l.setRegion idx { l.reg idx with st := .filled, lines := [], fillAt := 0, filling := false }).settle (.region lc idx)

variable {r : Region} (hr : (s.lcoreAt lc).reg idx = r)
include hr

theorem State.fill_of_filled (h : r.st ≠ .unfilled) : s.fill lc idx = (s, .ok ()) := by
  unfold State.fill
  rw [hr, if_pos h]

variable (hlt : 0 < r.len - r.fillAt)
include hlt

theorem State.fill_of_held (hst : r.st = .unfilled) (hheld : s.budgetHeld (s.taskAt (lc / 288)).vr 0 = true) :
    s.fill lc idx = (s.onLcore lc fun l => l.setRegion idx { l.reg idx with filling := true }, .wait) := by
  have hpages : State.fillPages lc idx 18 s = (s, .wait) := by
    rw [State.fillPages]
    dsimp only
    rw [hr, if_neg (c := r.len ≤ r.fillAt) (by omega), if_pos hheld]
  unfold State.fill
  rw [hr, if_neg (not_not.mpr hst), hpages]

variable (hpage : (r.va.toNat + r.fillAt) % 65536 + (r.len - r.fillAt) ≤ 65536) (hheld : s.budgetHeld (s.taskAt (lc / 288)).vr 0 = false)
include hpage hheld

theorem State.fillPages_page (k : Nat) : State.fillPages lc idx (k + 1) s =
    match s.gvRead (s.mapAcc lc idx rR) (r.va.toNat + r.fillAt) (r.len - r.fillAt) with
    | (s, .ok bs) => State.fillPages lc idx k (fillPut s lc idx r (r.len - r.fillAt) bs)
    | (s, .refused x) => (s, .refused x)
    | (s, .wait) => (s, .wait) := by
  have hmin : Nat.min (r.len - r.fillAt) (65536 - (r.va.toNat + r.fillAt) % 65536) = r.len - r.fillAt := Nat.min_eq_left (by omega)
  rw [State.fillPages]
  dsimp only
  rw [hr, if_neg (c := r.len ≤ r.fillAt) (by omega), hheld, hmin]
  rfl

theorem State.fill_of_ok (hst : r.st = .unfilled) {bs : List Byte}
    (hread : s.gvRead (s.mapAcc lc idx rR) (r.va.toNat + r.fillAt) (r.len - r.fillAt) = (s1, .ok bs)) :
    s.fill lc idx = (fillEnd (fillPut s1 lc idx r (r.len - r.fillAt) bs) lc idx, .ok ()) := by
  have hrest : State.fillPages lc idx 17 (fillPut s1 lc idx r (r.len - r.fillAt) bs) = (fillPut s1 lc idx r (r.len - r.fillAt) bs, .ok ()) := by
    rw [State.fillPages]
    dsimp only
    rw [reg_fillPut, if_pos (c := r.len ≤ _) (by dsimp only; omega)]
  have hpages : State.fillPages lc idx 18 s = (fillPut s1 lc idx r (r.len - r.fillAt) bs, .ok ()) := by
    rw [State.fillPages_page hr hlt hpage hheld, hread]
    exact hrest
  unfold State.fill
  rw [hr, if_neg (not_not.mpr hst), hpages]
  rfl

theorem State.fill_of_refused (hst : r.st = .unfilled) {x : Nat}
    (hread : s.gvRead (s.mapAcc lc idx rR) (r.va.toNat + r.fillAt) (r.len - r.fillAt) = (s1, .refused x)) :
    s.fill lc idx = ((s1.onLcore lc fun l => l.setRegion idx { l.reg idx with fillAt := 0, filling := false }).settle (.region lc idx), .refused x) := by
  have hpages : State.fillPages lc idx 18 s = (s1, .refused x) := by rw [State.fillPages_page hr hlt hpage hheld, hread]
  unfold State.fill
  rw [hr, if_neg (not_not.mpr hst), hpages]

theorem State.fill_of_wait (hst : r.st = .unfilled)
    (hread : s.gvRead (s.mapAcc lc idx rR) (r.va.toNat + r.fillAt) (r.len - r.fillAt) = (s1, .wait)) :
    s.fill lc idx = (s1.onLcore lc fun l => l.setRegion idx { l.reg idx with filling := true }, .wait) := by
  have hpages : State.fillPages lc idx 18 s = (s1, .wait) := by rw [State.fillPages_page hr hlt hpage hheld, hread]
  unfold State.fill
  rw [hr, if_neg (not_not.mpr hst), hpages]

end Fill

/-! ## TWLOAD_APPLY (R346) -/

section Apply
variable {task lc : Nat} {w : WLoad}

/-- The one list of a task is its only logical core's with a list, and holds the one copy. -/
theorem twloads_of_lists (h : ((s.lcsOf task).flatMap fun lc => (s.lcoreAt lc).twloads.map fun w => (lc, w)) = [(lc, w)]) :
    lc ∈ s.lcsOf task ∧ (s.lcoreAt lc).twloads = [w] := by
  obtain ⟨k, hk, hw⟩ := List.mem_flatMap.mp (h ▸ List.mem_singleton_self (lc, w))
  obtain ⟨x, hx, he⟩ := List.mem_map.mp hw
  obtain ⟨rfl, rfl⟩ := Prod.mk.inj he
  obtain ⟨l1, l2, hl⟩ := List.append_of_mem hk
  have hlen := congrArg List.length h
  rw [hl, List.flatMap_append, List.flatMap_cons, List.length_append, List.length_append, List.length_map] at hlen
  have hone : (s.lcoreAt k).twloads.length = 1 := by
    have := List.length_pos_of_mem hx
    rw [List.length_singleton] at hlen
    omega
  obtain ⟨y, hy⟩ := List.length_eq_one_iff.mp hone
  rw [hy, List.mem_singleton] at hx
  exact ⟨hk, hx ▸ hy⟩

theorem hasLists_of_twloads (hlc : lc ∈ s.lcsOf task) (hw : (s.lcoreAt lc).twloads = [w]) : s.hasLists task = true :=
  List.any_eq_true.mpr ⟨lc, hlc, by rw [hw]; rfl⟩

variable {die : Nat} {bs : List Byte}

/-- A copy of one page lands whole. -/
theorem State.applyPages_page (hheld : s.budgetHeld (s.taskAt (lc / 288)).vr 0 = false) (hlen : 0 < w.len) (hpage : w.va % 65536 + w.len ≤ 65536)
    (hread : s.gvRead (s.applyAcc lc) w.va w.len = (s1, .ok bs)) :
    State.applyPages lc die (w.len / 65536 + 2) s w.va w.ws w.len = (s1.wsPut die w.ws bs, false) := by
  have hmin : Nat.min w.len (65536 - w.va % 65536) = w.len := Nat.min_eq_left (by omega)
  rw [State.applyPages]
  dsimp only
  rw [if_neg hlen.ne', hheld, hmin, hread, Nat.sub_self]
  dsimp only
  rw [State.applyPages, if_pos rfl]
  rfl

/-- The state in which the only copy has been applied and the completion signal follows. -/
def applied (s : State) (task lc die : Nat) (w : WLoad) (bs : List Byte) : State :=
  ((((s.wsPut die w.ws bs).settle (.region lc 64)).onLcore lc fun l => { l with twloads := l.twloads.tail }).later (.event (.completionSignalWrite task)))

theorem exec_twloadApply_waits
    (h : (s.taskAt task).phase ≠ .stopping ∨ s.hasLists task = false ∨ s.dieInUse (s.diesOf task) = true) : exec (.twloadApply task) s = .next s := by
  refine congrArg Host.Outcome.next (if_neg ?_)
  rintro ⟨hphase, hlists, hdie⟩
  obtain h | h | h := h
  · exact h hphase
  · exact Bool.false_ne_true (h ▸ hlists)
  · rw [h] at hdie
    exact Bool.false_ne_true hdie

theorem exec_twloadApply_page (hphase : (s.taskAt task).phase = .stopping) (hdie : s.dieInUse (s.diesOf task) = false)
    (hheld : s.budgetHeld (s.taskAt (lc / 288)).vr 0 = false)
    (hlists : ((s.lcsOf task).flatMap fun lc => (s.lcoreAt lc).twloads.map fun w => (lc, w)) = [(lc, w)]) (hlen : 0 < w.len)
    (hpage : w.va % 65536 + w.len ≤ 65536) (hread : s.gvRead (s.applyAcc lc) w.va w.len = (s1, .ok bs)) :
    exec (.twloadApply task) s = .next (applied s1 task lc (dieOf (s.coreOf (lc / 288) (lc % 288))) w bs) := by
  obtain ⟨hlc, hw⟩ := twloads_of_lists hlists
  refine congrArg Host.Outcome.next ((if_pos ⟨hphase, hasLists_of_twloads hlc hw, by rw [hdie]; rfl⟩).trans ?_)
  rw [hlists]
  dsimp only
  rw [State.applyLists, State.applyPages_page hheld hlen hpage hread]
  rfl

end Apply

end Sys2Proof.Machine

namespace Sys2Proof.Proofs

open Sys2Proof.Machine Sys2Proof.Claims

theorem exec_regionFill (s : State) (task lcore idx : Nat) : exec (.regionFill task lcore idx) s = .next (s.fill (lckey task lcore) idx).1 := rfl

/-- What the copied page leaves in the scratchpad and the region's entry. -/
theorem fillEnd_fillPut {s s1 : State} {lc idx : Nat} {bs : List Byte} (hs : StoresStand s s1) (n : Nat)
    (hbs : bs.length = n) :
    let r := (s.lcoreAt lc).reg idx
    let t := fillEnd (fillPut s1 lc idx r n bs) lc idx
    FillKeeps s t lc idx (r.base + r.fillAt) n ∧ (t.lcoreAt lc).sp.bytes (r.base + r.fillAt) n = bs ∧
      (t.lcoreAt lc).reg idx = { r with st := .filled, lines := [], fillAt := 0, filling := false } := by
  intro r t
  have hl := State.lcoreAt_congr hs.1
  obtain ⟨⟨hreg, hother, hsp⟩, hsame, hidx⟩ := fillKeeps_setRegion (s := fillPut s1 lc idx r n bs) (s1 := fillPut s1 lc idx r n bs) (lc := lc) (idx := idx)
    rfl (r.base + r.fillAt) n (fun l => { l.reg idx with st := .filled, lines := [], fillAt := 0, filling := false }) (t := t) rfl
  have hput : (t.lcoreAt lc).sp = (s.lcoreAt lc).sp.setBytes (r.base + r.fillAt) bs := by
    rw [hsame, lcoreAt_fillPut, if_pos rfl, hl]
  refine ⟨⟨fun j hj => ?_, fun k hk => ?_, fun x hx => ?_⟩, ?_, ?_⟩
  · rw [hreg j hj, lcoreAt_fillPut, if_pos rfl, hl]
    exact LCore.reg_setRegion_ne _ _ hj
  · rw [hother k hk, lcoreAt_fillPut, if_neg hk, hl]
  · rw [hput]
    exact Mem.byte_setBytes_outside _ _ _ _ (by rw [hbs]; unfold within at hx; omega)
  · rw [hput]
    exact (Mem.bytes_setBytes _ _ _ 0 n (by omega)).trans (by rw [List.drop_zero, ← hbs, List.take_length])
  · rw [hidx, reg_fillPut]

/-- REGION_FILL where what is left lies on one page. -/
theorem regionFill_page {s : State} {task lcore idx : Nat} (hst : ((s.lcoreAt (lckey task lcore)).reg idx).st = .unfilled)
    (hlt : 0 < ((s.lcoreAt (lckey task lcore)).reg idx).len - ((s.lcoreAt (lckey task lcore)).reg idx).fillAt)
    (hpage : (((s.lcoreAt (lckey task lcore)).reg idx).va.toNat + ((s.lcoreAt (lckey task lcore)).reg idx).fillAt) % 65536 +
      (((s.lcoreAt (lckey task lcore)).reg idx).len - ((s.lcoreAt (lckey task lcore)).reg idx).fillAt) ≤ 65536) :
    let lc := lckey task lcore
    let r := (s.lcoreAt lc).reg idx
    let va := r.va.toNat + r.fillAt
    let n := r.len - r.fillAt
    let held := s.budgetHeld (s.taskAt (lc / 288)).vr 0
    let read := s.gvRead (s.mapAcc lc idx rR) va n
    ∃ t, exec (.regionFill task lcore idx) s = .next t ∧ FillKeeps s t lc idx (r.base + r.fillAt) n ∧
      (held = true → (t.lcoreAt lc).sp = (s.lcoreAt lc).sp ∧ (t.lcoreAt lc).reg idx = { r with filling := true } ∧ t.mem = s.mem) ∧
      (held = false → (∀ x, t.mem.byte x = read.1.mem.byte x) ∧
        (∀ bs, read.2 = .ok bs → (t.lcoreAt lc).sp.bytes (r.base + r.fillAt) n = bs ∧
          (t.lcoreAt lc).reg idx = { r with st := .filled, lines := [], fillAt := 0, filling := false }) ∧
        (∀ x, read.2 = .refused x → (t.lcoreAt lc).sp = (s.lcoreAt lc).sp ∧
          (t.lcoreAt lc).reg idx = { r with fillAt := 0, filling := false }) ∧
        (read.2 = .wait → (t.lcoreAt lc).sp = (s.lcoreAt lc).sp ∧ (t.lcoreAt lc).reg idx = { r with filling := true })) := by
  intro lc r va n held read
  rw [exec_regionFill]
  cases hheld : held with
  | true =>
    obtain ⟨hkeep, hsp, hreg⟩ := fillKeeps_setRegion (s := s) (s1 := s) (lc := lc) (idx := idx) rfl (r.base + r.fillAt) n
      (fun l => { l.reg idx with filling := true }) (t := s.onLcore lc fun l => l.setRegion idx { l.reg idx with filling := true }) rfl
    rw [State.fill_of_held rfl hlt hst hheld]
    exact ⟨_, rfl, hkeep, fun _ => ⟨hsp, hreg, rfl⟩, nofun⟩
  | false =>
    have hsum : va % 65536 + n ≤ 65536 := hpage
    have hbound : n ≤ 65536 - va % 65536 := by omega
    rcases hread : read with ⟨s1, bs | x | _⟩
    · obtain ⟨hstand, hlen⟩ := State.gvRead_page hlt hbound hread
      obtain ⟨hkeep, hbytes, hreg⟩ := fillEnd_fillPut (lc := lc) (idx := idx) hstand n (hlen bs rfl)
      rw [State.fill_of_ok rfl hlt hpage hheld hst hread]
      refine ⟨_, rfl, hkeep, nofun, fun _ => ⟨fun _ => rfl, fun bs' h => ?_, nofun, nofun⟩⟩
      rw [← XR.ok.inj h]
      exact ⟨hbytes, hreg⟩
    · obtain ⟨hstand, -⟩ := State.gvRead_page hlt hbound hread
      obtain ⟨hkeep, hsp, hreg⟩ := fillKeeps_setRegion (s := s) (s1 := s1) (lc := lc) (idx := idx) hstand.1 (r.base + r.fillAt) n
        (fun l => { l.reg idx with fillAt := 0, filling := false })
        (t := (s1.onLcore lc fun l => l.setRegion idx { l.reg idx with fillAt := 0, filling := false }).settle (.region lc idx)) rfl
      rw [State.fill_of_refused rfl hlt hpage hheld hst hread]
      exact ⟨_, rfl, hkeep, nofun, fun _ => ⟨fun _ => rfl, nofun, fun _ _ => ⟨hsp, hreg⟩, nofun⟩⟩
    · obtain ⟨hstand, -⟩ := State.gvRead_page hlt hbound hread
      obtain ⟨hkeep, hsp, hreg⟩ := fillKeeps_setRegion (s := s) (s1 := s1) (lc := lc) (idx := idx) hstand.1 (r.base + r.fillAt) n
        (fun l => { l.reg idx with filling := true }) (t := s1.onLcore lc fun l => l.setRegion idx { l.reg idx with filling := true }) rfl
      rw [State.fill_of_wait rfl hlt hpage hheld hst hread]
      exact ⟨_, rfl, hkeep, nofun, fun _ => ⟨fun _ => rfl, nofun, nofun, fun _ => ⟨hsp, hreg⟩⟩⟩

/-- Settles O33: one access within a page decides what a fill or a copy does, and it leaves the stores. -/
theorem regionFillsAndStoreCopies : Obligations.RegionFillsAndStoreCopies := by
  unfold Obligations.RegionFillsAndStoreCopies
  intro s task
  refine ⟨fun lcore idx => ⟨fun hst => ?_, fun hst hlt hpage => ?_⟩, exec_twloadApply_waits, ?_⟩
  · rw [exec_regionFill, State.fill_of_filled rfl hst]
  · obtain ⟨t, ht, ⟨hregs, hcores, hsp⟩, hheld, hfree⟩ := regionFill_page hst hlt hpage
    exact ⟨t, ht, hregs, hcores, hsp, hheld, hfree⟩
  · intro lc w s1 bs hphase hdie hheld hlists hlen hpage hread d
    obtain ⟨⟨hlcores, hws⟩, hbs⟩ := State.gvRead_page hlen (by omega) hread
    have hput (k : Nat) : sget [] (applied s1 task lc d w bs).ws k = if k = d then Mem.setBytes (sget [] s.ws d) w.ws bs else sget [] s.ws k := by
      refine (sget_sset _ _ _ _ _).trans ?_
      rw [hws]
    refine ⟨_, exec_twloadApply_page hphase hdie hheld hlists hlen hpage hread, ?_, fun die x hx => ?_, ?_, ?_, fun _ => rfl⟩
    · rw [hput, if_pos rfl]
      exact (Mem.bytes_setBytes _ _ _ 0 w.len (by rw [hbs bs rfl]; omega)).trans (by rw [List.drop_zero, ← hbs bs rfl, List.take_length])
    · rw [hput]
      split
      · next hd =>
        rw [hd]
        exact Mem.byte_setBytes_outside _ _ _ _ (by rw [hbs bs rfl]; have hout : ¬ within w.ws w.len x := fun h => hx ⟨hd, h⟩; unfold within at hout; omega)
      · rfl
    · have htl : ((applied s1 task lc d w bs).lcoreAt lc).twloads = (s1.lcoreAt lc).twloads.tail :=
        congrArg LCore.twloads (State.lcoreAt_onLcore_self ((s1.wsPut d w.ws bs).settle (.region lc 64)) lc fun l => { l with twloads := l.twloads.tail })
      rw [htl, State.lcoreAt_congr hlcores, (twloads_of_lists hlists).2]
      rfl
    · exact List.mem_append_right _ (List.mem_singleton_self _)

end Sys2Proof.Proofs
end

section
/-! The contexts and sequences of a moving VR (O42, R206, R223): what they leave at the destination and at the source. -/

namespace Sys2Proof.Machine

open Sys2Proof.Claims

variable {s s1 : State} {v v1 : Vr} {vr va : Nat}

/-! ## The tables that a context builds stay at the endpoint -/

theorem State.endpoint_supAddr_ok {a pa : Nat} {rd : Bool} (h : s.supAddr v vr va a rd = (s1, .ok pa)) : s1.endpoint = s.endpoint := by
  unfold State.supAddr at h
  dsimp only at h
  split at h
  · rw [← (Prod.mk.inj h).1]
  · generalize (if rd then rR else rW) = need at h
    split at h
    · split at h
      · rw [← (Prod.mk.inj h).1]
      · exact absurd (Prod.mk.inj h).2 nofun
    · split at h <;> exact absurd (Prod.mk.inj h).2 nofun
    · exact absurd (Prod.mk.inj h).2 nofun

theorem State.endpoint_supFill_ok {page : Nat} {bs : List Byte} (h : s.supFill v vr va page bs = (s1, .ok ())) : s1.endpoint = s.endpoint := by
  unfold State.supFill at h
  split at h
  · next ha =>
    have hend := State.endpoint_supAddr_ok ha
    rw [← (Prod.mk.inj h).1]
    exact hend
  · exact absurd (Prod.mk.inj h).2 nofun
  · exact absurd (Prod.mk.inj h).2 nofun

theorem State.endpoint_supEntry_ok {at_ e : Nat} (h : s.supEntry v vr va at_ e = (s1, .ok ())) : s1.endpoint = s.endpoint := by
  unfold State.supEntry at h
  split at h
  · next ha =>
    have hend := State.endpoint_supAddr_ok ha
    rw [← (Prod.mk.inj h).1]
    exact hend
  · exact absurd (Prod.mk.inj h).2 nofun
  · exact absurd (Prod.mk.inj h).2 nofun

theorem State.endpoint_takeHbm {fn pa : Nat} (h : s.takeHbm fn = some (s1, pa)) : s1.endpoint = s.endpoint := by
  obtain ⟨x, -, hx⟩ := Option.map_eq_some_iff.mp h
  rw [← (Prod.mk.inj hx).1]
  rfl

theorem State.endpoint_takeLp {fn pa : Nat} (h : s.takeLp fn = some (s1, pa)) : s1.endpoint = s.endpoint := by
  rw [State.takeLp_eq] at h
  obtain ⟨x, -, hx⟩ := Option.bind_eq_some_iff.mp h
  split at hx
  · rw [← (Prod.mk.inj (Option.some.inj hx)).1]
    rfl
  · exact absurd hx nofun

theorem State.endpoint_newPage {pa : Nat} (h : s.newPage v = some (s1, v1, pa)) : s1.endpoint = s.endpoint := by
  unfold State.newPage at h
  split at h
  · obtain ⟨⟨t, x⟩, ht, he⟩ := Option.map_eq_some_iff.mp h
    rw [← (Prod.mk.inj he).1]
    split at ht
    · exact State.endpoint_takeLp ht
    · exact State.endpoint_takeHbm ht
  · split at h
    · rw [← (Prod.mk.inj (Option.some.inj h)).1]
    · exact absurd h nofun

theorem State.endpoint_newRoot_ok (h : s.newRoot v vr = (s1, .ok v1)) : s1.endpoint = s.endpoint := by
  unfold State.newRoot at h
  split at h
  · exact absurd (Prod.mk.inj h).2 nofun
  · next hpage =>
    split at h
    · next hfill =>
      rw [← (Prod.mk.inj h).1]
      exact (State.endpoint_supFill_ok hfill).trans (State.endpoint_newPage hpage)
    · exact absurd (Prod.mk.inj h).2 nofun
    · exact absurd (Prod.mk.inj h).2 nofun

theorem State.endpoint_mapFrom_ok {e k node : Nat} (h : State.mapFrom vr va e k s v node = (s1, .ok v1)) : s1.endpoint = s.endpoint := by
  induction k generalizing s v node with
  | zero =>
    unfold State.mapFrom at h
    split at h
    · next he =>
      rw [← (Prod.mk.inj h).1]
      exact State.endpoint_supEntry_ok he
    · exact absurd (Prod.mk.inj h).2 nofun
    · exact absurd (Prod.mk.inj h).2 nofun
  | succ k ih =>
    unfold State.mapFrom at h
    dsimp only at h
    split at h
    · exact absurd (Prod.mk.inj h).2 nofun
    · exact absurd (Prod.mk.inj h).2 nofun
    · next haddr =>
      have hread := State.endpoint_supAddr_ok haddr
      split at h
      · exact (ih h).trans hread
      · split at h
        · exact absurd (Prod.mk.inj h).2 nofun
        · next hpage =>
          split at h
          · exact absurd (Prod.mk.inj h).2 nofun
          · exact absurd (Prod.mk.inj h).2 nofun
          · next hfill =>
            split at h
            · exact absurd (Prod.mk.inj h).2 nofun
            · exact absurd (Prod.mk.inj h).2 nofun
            · next hentry =>
              calc s1.endpoint = _ := ih h
                _ = _ := State.endpoint_supEntry_ok hentry
                _ = _ := State.endpoint_supFill_ok hfill
                _ = _ := State.endpoint_newPage hpage
                _ = s.endpoint := hread

/-- One leaf of a moving VR's tables. -/
def landLeaf (c : MoveContext) (r : State × XR Vr) (l : Nat × BitVec 12) : State × XR Vr :=
  match r with
  | (s, .ok v) => State.mapFrom c.vr (l.1 * 65536) (pullEntry c.from_ c.vr l.2) 3 s v v.root
  | _ => r

/-- A fold of leaves that ends well began well. -/
theorem endpoint_landLeaves_ok {c : MoveContext} {ls : List (Nat × BitVec 12)} {r : State × XR Vr}
    (h : ls.foldl (landLeaf c) r = (s1, .ok v1)) : (∃ v, r.2 = .ok v) ∧ s1.endpoint = r.1.endpoint := by
  induction ls generalizing r with
  | nil => rw [show r = (s1, .ok v1) from h]; exact ⟨⟨v1, rfl⟩, rfl⟩
  | cons l ls ih =>
    obtain ⟨⟨w, hw⟩, hend⟩ := ih h
    obtain ⟨t, x⟩ := r
    cases x with
    | ok v =>
      refine ⟨⟨v, rfl⟩, hend.trans ?_⟩
      exact State.endpoint_mapFrom_ok (v1 := w) (Prod.ext rfl hw)
    | refused y => exact absurd hw nofun
    | wait => exact absurd hw nofun

/-! ## The clauses of MIGRATION_CONTEXT and MIGRATION_DRAIN_END -/

/-- A landed VR: its tables are built, and what its context names is kept. -/
def landed (c : MoveContext) (s : State) (v : Vr) : State :=
  { s with
    vrs := sset none s.vrs c.vr (some { v with
      k := c.consts, windows := c.windows, peers := c.peers, migtok := c.token, moving := .landing c.from_.toNat
      remain := c.leaves.length })
    location := sset none s.location c.vr (some s.endpoint.toNat) }

/-- The end of a context's arrival, by what became of its tables. -/
def landEnd (c : MoveContext) : State × XR Vr → State
  | (s, .ok v) => landed c ((s.settle (.sup c.vr)).keepIpa v) v
  | (s, .refused _) => s.settle (.sup c.vr)
  | (s, .wait) => { s with waits := s.waits ++ [.event (.migrationContext (.context c))] }

theorem State.landContext_eq {c : MoveContext} {b : Bool} (hvr : s.vrAt c.vr = none) (hb : s.newVrCold = some b) :
    s.landContext c = landEnd c (c.leaves.foldl (landLeaf c)
      (s.newRoot { newVr c.fn 0 c.image c.seed c.key (s.ipaFrom c) c.ipaEnd with cold := b, energy := c.energy } c.vr)) := by
  have hnew : ¬((s.vrAt c.vr).isSome = true ∨ s.newVrCold.isNone = true) := by rw [hvr, hb]; simp
  unfold State.landContext
  rw [if_neg hnew, hb]
  rfl

theorem State.mem_keepIpa (s : State) (v : Vr) : (s.keepIpa v).mem = s.mem := by
  unfold State.keepIpa
  split <;> rfl

theorem State.endpoint_keepIpa (s : State) (v : Vr) : (s.keepIpa v).endpoint = s.endpoint := by
  unfold State.keepIpa
  split <;> rfl

/-! What background pulls change (R207). -/

/-- A pull is sent for a page: the VR's cursor passes it. -/
theorem State.pullOn_spec {k : Nat} {s : State} : 
    (State.pullOn vr k s).mem = s.mem ∧ (State.pullOn vr k s).denied = s.denied ∧
    ∀ v, s.vrAt vr = some v → ∃ e n, (State.pullOn vr k s).vrAt vr = some { v with energy := e, cursor := n } := by
  induction k generalizing s with
  | zero => exact ⟨rfl, rfl, fun v hv => ⟨v.energy, v.cursor, hv⟩⟩
  | succ k ih =>
    have hsame : s.mem = s.mem ∧ s.denied = s.denied ∧ ∀ v, s.vrAt vr = some v → ∃ e n, s.vrAt vr = some { v with energy := e, cursor := n } :=
      ⟨rfl, rfl, fun v hv => ⟨v.energy, v.cursor, hv⟩⟩
    unfold State.pullOn
    split
    · exact hsame
    · next v hv =>
      split
      · next page e _ _ =>
        split
        · exact hsame
        · dsimp only
          generalize ht : s.enterFault _ v (page * 65536) .pull 0 false e [] = t
          have ha : Aside s t := ht ▸ (aside_refl s).enterFault _ _ _ _ _ _ _ _
          obtain ⟨hmem, hdenied, hvr⟩ := ih (s := t.onVr vr fun v => { v with cursor := page + 1 })
          refine ⟨hmem.trans ha.mem_eq, hdenied.trans (by rw [ha.1]; rfl), fun u hu => ?_⟩
          obtain ⟨e1, he1⟩ := ha.vrAt_some hu
          obtain ⟨e2, n, hn⟩ := hvr { u with energy := e1, cursor := page + 1 } (by rw [State.vrAt_onVr, if_pos rfl, he1]; rfl)
          exact ⟨e2, n, hn⟩
      · exact hsame

/-- A VR that does not arrive pulls nothing. -/
theorem State.pullOn_of_no (hv : s.vrAt vr = some v) (hm : v.moving = .no) (k : Nat) : State.pullOn vr (k + 1) s = s := by
  rw [State.pullOn, hv]
  dsimp only
  rw [hm]

theorem State.landLast_of_landing {srcs : SMap SrcWin} {pairs : SMap Pair} {staged : List Staged} {n src : Nat} (hv : s.vrAt vr = some v)
    (hm : v.moving = .landing src) : ∃ e m,
      (s.landLast vr srcs pairs staged n).vrAt vr =
        some { v with srcs := srcs, staged := staged, energy := e, cursor := m, moving := if v.remain = 0 then .no else .arriving src } ∧
      (s.landLast vr srcs pairs staged n).mem = s.mem := by
  obtain ⟨hmem, -, hvr⟩ := State.pullOn_spec (vr := vr) (k := 8) (s := { s.onVr vr (fun v =>
    { v with srcs := srcs, staged := staged, energy := v.energy + n, moving := if v.remain = 0 then .no else .arriving src }) with
    pairs := pairs.foldl (fun m e => sset ⟨0, []⟩ m e.1 e.2) s.pairs })
  have hland : s.landLast vr srcs pairs staged n = State.pullOn vr 8 { s.onVr vr (fun v =>
      { v with srcs := srcs, staged := staged, energy := v.energy + n, moving := if v.remain = 0 then .no else .arriving src }) with
      pairs := pairs.foldl (fun m e => sset ⟨0, []⟩ m e.1 e.2) s.pairs } := by
    unfold State.landLast
    rw [hv]
    dsimp only
    rw [hm]
    rfl
  obtain ⟨e, m, he⟩ := hvr { v with
      srcs := srcs, staged := staged, energy := v.energy + n, moving := if v.remain = 0 then .no else .arriving src }
    ((State.vrAt_onVr s vr vr _).trans (by rw [if_pos rfl, hv]; rfl))
  exact ⟨e, m, by rw [hland]; exact he, by rw [hland]; exact hmem⟩

theorem State.vrAt_freeVr (s : State) (vr : Nat) : (s.freeVr vr).vrAt vr = none := sget_sset_self _ _ _ _

/-- The state in which the source has sent the last part of a moving VR. -/
def drained (s : State) (vr ep : Nat) (v : Vr) : State :=
  { s.onVr vr (fun v => { v with moving := .sent ep, energy := 0 }) with
    sent := s.sent ++ [.move ep (.last vr v.srcs (s.pairs.filter fun e => decide (e.1 / 2 ^ 20 = vr)) v.staged v.energy)]
    location := sset none s.location vr (some ep) }

theorem vrAt_drained {ep : Nat} (hv : s.vrAt vr = some v) : (drained s vr ep v).vrAt vr = some { v with moving := .sent ep, energy := 0 } := by
  refine (State.vrAt_onVr s vr vr _).trans ?_
  rw [if_pos rfl, hv]
  rfl

/-- A VR whose account is empty goes without a charge that follows it. -/
theorem sent_freeVr {ep : Nat} (hv : s.vrAt vr = some v) (hm : v.moving = .sent ep) (he : v.energy = 0) : (s.freeVr vr).sent = s.sent := by
  unfold State.freeVr
  rw [hv]
  dsimp only
  rw [hm]
  dsimp only
  rw [if_pos he]
  exact List.append_nil _

theorem exec_migrationDrainEnd_drains {ep : Nat} (hv : s.vrAt vr = some v) (hm : v.moving = .leaving ep)
    (hheld : ∀ h ∈ s.hold, h.p.dstvr.toNat ≠ vr) :
    exec (.migrationDrainEnd vr) s = .next (if v.remain = 0 then (drained s vr ep v).freeVr vr else drained s vr ep v) := by
  have hany : (s.hold.any fun h => decide (h.p.dstvr.toNat = vr)) = false :=
    List.any_eq_false.mpr fun h hh => by rw [decide_eq_true_eq]; exact hheld h hh
  refine congrArg Host.Outcome.next ?_
  rw [hv]
  dsimp only
  rw [hm]
  dsimp only
  rw [hany]
  rfl

theorem exec_migrationDrainEnd_waits {ep : Nat} (hv : s.vrAt vr = some v) (hm : v.moving = .leaving ep)
    (hheld : ∃ h ∈ s.hold, h.p.dstvr.toNat = vr) : exec (.migrationDrainEnd vr) s = .next s := by
  obtain ⟨h, hh, hd⟩ := hheld
  have hany : (s.hold.any fun h => decide (h.p.dstvr.toNat = vr)) = true := List.any_eq_true.mpr ⟨h, hh, decide_eq_true hd⟩
  refine congrArg Host.Outcome.next ?_
  rw [hv]
  dsimp only
  rw [hm]
  dsimp only
  rw [hany]
  rfl

theorem exec_migrationDrainEnd_no (hv : s.vrAt vr = some v) (hm : v.moving = .no) : exec (.migrationDrainEnd vr) s = .next s := by
  refine congrArg Host.Outcome.next ?_
  rw [hv]
  dsimp only
  rw [hm]

end Sys2Proof.Machine
end

section
/-! Pull packets that arrive in their order (O42): past the checks of R189, and what they leave (R189, R196, R207). -/

namespace Sys2Proof.Machine

open Sys2Proof.Claims

variable {s : State} {p : Packet} {v : Vr}

/-! ## With nothing held, an order of one -/

theorem State.unhold_of_hold_nil (h : s.hold = []) (p : Packet) : s.unhold p = s := by
  unfold State.unhold
  rw [h]
  show { s with hold := [] } = s
  rw [← h]

theorem State.drainHold_of_hold_nil (h : s.hold = []) (src dst cls k : Nat) : State.drainHold src dst cls k s = s := by
  cases k with
  | zero => rfl
  | succ k =>
    unfold State.drainHold
    rw [h]
    rfl

theorem State.srcAt_eq {dst src : Nat} (h : s.vrAt dst = some v) : s.srcAt dst src = sget SrcWin.init v.srcs src := by
  unfold State.srcAt
  rw [h]

theorem State.budgetHeld_onVr {g : Vr → Vr} (hg : ∀ v, (g v).fn = v.fn) (k vr r : Nat) : (s.onVr k g).budgetHeld vr r = s.budgetHeld vr r := by
  unfold State.budgetHeld
  rw [State.vrAt_onVr]
  by_cases h : vr = k
  · rw [if_pos h, h]
    cases s.vrAt k with
    | none => rfl
    | some u =>
      show ((s.fnAt (g u).fn).holds r || (s.fnAt (g u).fn).holds 2) = _
      rw [hg]
  · rw [if_neg h]
    rfl

/-- The VR once it has taken the sequence of a request. -/
def taken (v : Vr) (p : Packet) : Vr := { v with srcs := smod SrcWin.init v.srcs p.srcvr.toNat fun w => w.accept p.pseq }

theorem State.vrAt_onSrc {dst : Nat} (h : s.vrAt dst = some v) (src : Nat) (f : SrcWin → SrcWin) :
    (s.onSrc dst src f).vrAt dst = some { v with srcs := smod SrcWin.init v.srcs src f } := by
  rw [State.onSrc, State.vrAt_onVr, if_pos rfl, h]
  rfl

theorem vrAt_accepted (h : s.vrAt p.dstvr.toNat = some v) : (accepted s p).vrAt p.dstvr.toNat = some (taken v p) := State.vrAt_onSrc h _ _

theorem budgetHeld_accepted (s : State) (p : Packet) (vr r : Nat) : (accepted s p).budgetHeld vr r = s.budgetHeld vr r :=
  State.budgetHeld_onVr (g := fun v => taken v p) (fun _ => rfl) _ _ _

/-- The packets of a move have no operation that an atomic has. -/
theorem reqSupported_of_pull (h : 0x28 ≤ p.op) : reqSupported p = true := by
  have hop : 40 ≤ p.op.toNat := h
  unfold reqSupported
  dsimp only
  split
  · omega
  · omega
  · omega
  · rfl

/-- A pull packet past its order, with no budget that holds it, is served. -/
theorem State.pastOrder_of_pull (hhold : s.hold = []) (hv : s.vrAt p.dstvr.toNat = some v) (hwin : winAllows v p (reqLen p) = true)
    (hop : 0x28 ≤ p.op) (hheld : p.op = 0x28 → s.budgetHeld p.dstvr.toNat 0 = false ∧ s.budgetHeld p.dstvr.toNat 1 = false) :
    s.pastOrder p = s.pullPacketDone p v := by
  have hbudget : (p.op = 0x28 && (s.budgetHeld p.dstvr.toNat 0 || s.budgetHeld p.dstvr.toNat 1)) = false := by
    by_cases h : p.op = 0x28
    · obtain ⟨h0, h1⟩ := hheld h
      rw [h0, h1]
      exact Bool.and_false _
    · rw [decide_eq_false h]
      rfl
  have hne : p.op ≠ 3 := by
    intro h
    rw [h] at hop
    exact absurd hop (by decide)
  unfold State.pastOrder
  rw [State.unhold_of_hold_nil hhold]
  dsimp only
  rw [hv]
  dsimp only
  rw [hwin, reqSupported_of_pull hop, if_neg (by decide), if_neg (by decide), if_neg hne]
  dsimp only
  rw [hbudget, if_neg (by decide), if_pos hop]

/-- A pull packet that is next in its order is served at once (R189, R196). -/
theorem State.arrive_pull (hin : InOrder s p v) (hwin : winAllows v p (reqLen p) = true) (hop : 0x28 ≤ p.op)
    (hheld : p.op = 0x28 → s.budgetHeld p.dstvr.toNat 0 = false ∧ s.budgetHeld p.dstvr.toNat 1 = false)
    (hrest : ((accepted s p).pullPacketDone p (taken v p)).hold = []) : s.arrive p = (accepted s p).pullPacketDone p (taken v p) := by
  obtain ⟨hformed, hv, hquar, htoken, habove, hplace, hhold⟩ := hin
  have hsrc := State.srcAt_eq (src := p.srcvr.toNat) hv
  have hquar' : (sget SrcWin.init v.srcs p.srcvr.toNat).quar = false := hsrc ▸ hquar
  have hne : p.op ≠ 7 := by
    intro h
    rw [h] at hop
    exact absurd hop (by decide)
  have hpast : (accepted s p).pastOrder p = (accepted s p).pullPacketDone p (taken v p) :=
    State.pastOrder_of_pull hhold (vrAt_accepted hv) hwin hop fun h => by
      obtain ⟨h0, h1⟩ := hheld h
      exact ⟨(budgetHeld_accepted s p _ _).trans h0, (budgetHeld_accepted s p _ _).trans h1⟩
  have hproceed : (accepted s p).proceed p = (accepted s p).pullPacketDone p (taken v p) := by
    unfold State.proceed
    rw [hpast, State.drainHold_of_hold_nil hrest]
  have hordered : s.ordered p = (accepted s p).proceed p := by
    unfold State.ordered
    dsimp only
    rw [if_pos habove, hplace]
    rfl
  unfold State.arrive
  rw [hformed, hv]
  dsimp only
  rw [hquar', decide_eq_true hop, htoken]
  rw [← hproceed, ← hordered]
  cases v.moving <;> exact if_neg hne

/-! ## Answers -/

theorem aside_answer (s : State) (p : Packet) (status : BitVec 7) (va : BitVec 56) (sem : BitVec 2) (scope : BitVec 3) (data : Option (List Byte)) :
    Aside s (s.answer p status va sem scope data) := by
  unfold State.answer
  dsimp only
  split
  · next h => exact (aside_refl s).sendFirst h
  · exact aside_refl s

theorem vrAt_resolved {status : BitVec 7} {data : List Byte} (h : s.vrAt p.dstvr.toNat = some v) :
    ∃ w, (s.resolved p status data).vrAt p.dstvr.toNat = some { v with srcs := w } := ⟨_, State.vrAt_onSrc h _ _⟩

theorem aside_resolve (s : State) (p : Packet) (status : BitVec 7) (data : List Byte) (pair : BitVec 2 × BitVec 3) :
    Aside (s.resolved p status data) (s.resolve p status data pair) := aside_answer _ _ _ _ _ _ _

/-- What a resolved request leaves of its VR: everything but sequences and meters. -/
theorem vrAt_resolve {status : BitVec 7} {data : List Byte} {pair : BitVec 2 × BitVec 3} (h : s.vrAt p.dstvr.toNat = some v) :
    ∃ w e, (s.resolve p status data pair).vrAt p.dstvr.toNat = some { v with srcs := w, energy := e } := by
  obtain ⟨w, hw⟩ := vrAt_resolved (status := status) (data := data) h
  obtain ⟨e, he⟩ := (aside_resolve s p status data pair).vrAt_some hw
  exact ⟨w, e, he⟩

theorem mem_resolve (s : State) (p : Packet) (status : BitVec 7) (data : List Byte) (pair : BitVec 2 × BitVec 3) :
    (s.resolve p status data pair).mem = s.mem := (aside_resolve s p status data pair).mem_eq

theorem hold_resolve (s : State) (p : Packet) (status : BitVec 7) (data : List Byte) (pair : BitVec 2 × BitVec 3) :
    (s.resolve p status data pair).hold = s.hold := by
  rw [(aside_resolve s p status data pair).1]
  rfl

/-! ## Acknowledged pages (R207) -/

/-- The source's VR once one more page is acknowledged. -/
def ackedOnce (s : State) (p : Packet) : State := s.onVr p.dstvr.toNat fun v => { v with acked := v.acked + 1, remain := v.remain - 1 }

theorem State.pullPacketDone_of_ack {ep : Nat} (hm : v.moving = .sent ep) (hop : p.op = 0x2A) :
    s.pullPacketDone p v =
      if v.remain ≤ 1 then ((ackedOnce s p).resolve p 0 [] (0, 0)).freeVr p.dstvr.toNat else (ackedOnce s p).resolve p 0 [] (0, 0) := by
  unfold State.pullPacketDone
  rw [hm, hop]
  rfl

theorem hold_pullPacketDone_of_ack {ep : Nat} (hm : v.moving = .sent ep) (hop : p.op = 0x2A) : (s.pullPacketDone p v).hold = s.hold := by
  rw [State.pullPacketDone_of_ack hm hop]
  split
  · exact hold_resolve _ _ _ _ _
  · exact hold_resolve _ _ _ _ _

theorem mem_pullPacketDone_of_ack {ep : Nat} (hm : v.moving = .sent ep) (hop : p.op = 0x2A) : (s.pullPacketDone p v).mem = s.mem := by
  rw [State.pullPacketDone_of_ack hm hop]
  split
  · exact mem_resolve _ _ _ _ _
  · exact mem_resolve _ _ _ _ _

theorem arrive_of_ack {ep : Nat} (hin : InOrder s p v) (hwin : winAllows v p (reqLen p) = true) (hm : v.moving = .sent ep) (hop : p.op = 0x2A) :
    s.arrive p = (accepted s p).pullPacketDone p (taken v p) :=
  State.arrive_pull hin hwin (by rw [hop]; decide) (fun h => absurd (hop.symm.trans h) (by decide))
    ((hold_pullPacketDone_of_ack (v := taken v p) hm hop).trans hin.2.2.2.2.2.2)

end Sys2Proof.Machine
end

section
/-! A source serves a pull request in 16 packets (O42, R207). -/

namespace Sys2Proof.Machine

open Sys2Proof.Claims

variable {s : State} {p : Packet} {v : Vr} {f : Found}

/-- The `i`-th packet of a page that a pull asks for. -/
def dataPacket (s : State) (p : Packet) (f : Found) (i : Nat) : Packet :=
  { blankPacket p.dstvr.toNat p.srcvr.toNat p.srcEp.toNat 0x29 (p.va + BitVec.ofNat 56 (4096 * i)) with
    vc := 2, token := p.token, data := s.mem.bytes (f.pa + 4096 * i) 4096 }

def sendData (p : Packet) (f : Found) (s : State) (i : Nat) : State := (s.request none 0 0 0 (dataPacket s p f i)).getD s

theorem State.servePull_of_walk (hw : s.walkVr v p.va.toNat = .ok f) (hpte : pteType f.s1.e ≠ 2) :
    s.servePull p v = (List.range 16).foldl (sendData p f) ((s.chargeMem ⟨p.dstvr.toNat, none⟩ f.pa 65536 true false).resolved p 0 []) := by
  unfold State.servePull
  rw [hw]
  dsimp only
  rw [if_neg hpte]
  rfl

/-- A packet of the page `f` that answers the request `p` is on its way to this endpoint. -/
def DataSent (s t : State) (p : Packet) (f : Found) (i : Nat) : Prop :=
  ∃ q : Packet, Turn.event (.pullData q true) ∈ t.agenda ∧ q.va = p.va + BitVec.ofNat 56 (4096 * i) ∧
    q.token = p.token ∧ q.dstvr = p.srcvr ∧ q.srcvr = p.dstvr ∧ q.data = s.mem.bytes (f.pa + 4096 * i) 4096

theorem aside_sendData (s : State) (p : Packet) (f : Found) (i : Nat) : Aside s (sendData p f s i) := by
  unfold sendData
  cases h : s.request none 0 0 0 (dataPacket s p f i) with
  | none => exact aside_refl s
  | some t => exact (aside_refl s).request h

/-- A packet to this endpoint is handed over as the step that its operation starts. -/
theorem agenda_request_here {inst : Option Nat} {uid spad idx : Nat} {q : Packet} {g : Packet → Instr} (hep : q.dstEp = s.endpoint)
    (hg : ∀ r : Packet, r.op = q.op → arrivalStep r = some (g r)) :
    ∃ t r, s.request inst uid spad idx q = some t ∧ t.agenda = s.agenda ++ [.event (g r)] ∧ ∃ a b, r = { q with pseq := a, cseq := b, srcEp := s.endpoint } := by
  have hsend (a : BitVec 32) (b : BitVec 14) (ps : List FabPath) : s.sendFirst inst { q with pseq := a, cseq := b, srcEp := s.endpoint } ps =
      some (s.later (.event (g { q with pseq := a, cseq := b, srcEp := s.endpoint })), 32) := by
    unfold State.sendFirst
    rw [if_pos hep, hg { q with pseq := a, cseq := b, srcEp := s.endpoint } rfl]
    rfl
  unfold State.request
  dsimp only
  rw [hsend]
  exact ⟨_, _, rfl, rfl, _, _, rfl⟩

theorem agenda_sendData (hep : p.srcEp = s.endpoint) (i : Nat) :
    DataSent s (sendData p f s i) p f i ∧ ∃ x, (sendData p f s i).agenda = s.agenda ++ [x] := by
  have hdst : (dataPacket s p f i).dstEp = s.endpoint := by
    show BitVec.ofNat 12 p.srcEp.toNat = s.endpoint
    rw [BitVec.ofNat_toNat, BitVec.setWidth_eq, hep]
  have hstep (r : Packet) (hr : r.op = (dataPacket s p f i).op) : arrivalStep r = some (.pullData r true) := by
    unfold arrivalStep
    rw [hr]
    rfl
  obtain ⟨t, r, ht, hagenda, a, b, hr⟩ := agenda_request_here (inst := none) (uid := 0) (spad := 0) (idx := 0) (g := fun r => .pullData r true) hdst hstep
  have hsend : sendData p f s i = t := by rw [sendData, ht]; rfl
  rw [DataSent, hsend, hagenda]
  refine ⟨⟨r, List.mem_append_right _ (List.mem_singleton_self _), ?_⟩, _, rfl⟩
  rw [hr]
  refine ⟨rfl, rfl, ?_, ?_, rfl⟩
  · show BitVec.ofNat 20 p.srcvr.toNat = p.srcvr
    rw [BitVec.ofNat_toNat, BitVec.setWidth_eq]
  · show BitVec.ofNat 20 p.dstvr.toNat = p.dstvr
    rw [BitVec.ofNat_toNat, BitVec.setWidth_eq]

/-- Every packet of a list goes out, and nothing else changes but meters and sequences. -/
theorem dataSent_foldl (hep : p.srcEp = s.endpoint) (l : List Nat) :
    Aside s (l.foldl (sendData p f) s) ∧ (∀ x ∈ s.agenda, x ∈ (l.foldl (sendData p f) s).agenda) ∧
      ∀ i ∈ l, DataSent s (l.foldl (sendData p f) s) p f i := by
  induction l using List.reverseRecOn with
  | nil => exact ⟨aside_refl s, fun _ h => h, nofun⟩
  | append_singleton l i ih =>
    obtain ⟨ha, hkeep, hsent⟩ := ih
    rw [List.foldl_append]
    show Aside s (sendData p f (l.foldl (sendData p f) s) i) ∧ (∀ x ∈ s.agenda, x ∈ (sendData p f (l.foldl (sendData p f) s) i).agenda) ∧
      ∀ j ∈ l ++ [i], DataSent s (sendData p f (l.foldl (sendData p f) s) i) p f j
    generalize l.foldl (sendData p f) s = t at *
    have hend : t.endpoint = s.endpoint := by rw [ha.1]
    obtain ⟨hnew, x, hx⟩ := agenda_sendData (s := t) (p := p) (f := f) (hep.trans hend.symm) i
    refine ⟨?_, fun y hy => by rw [hx]; exact List.mem_append_left _ (hkeep y hy), fun j hj => ?_⟩
    · unfold sendData
      cases h : t.request none 0 0 0 (dataPacket t p f i) with
      | none => exact ha
      | some u => exact ha.request h
    · obtain hj | hj := List.mem_append.mp hj
      · obtain ⟨q, hq, hrest⟩ := hsent j hj
        exact ⟨q, by rw [hx]; exact List.mem_append_left _ hq, hrest⟩
      · rw [List.mem_singleton.mp hj]
        unfold DataSent at hnew ⊢
        rwa [ha.mem_eq] at hnew

theorem walkVr_accepted (s : State) (p : Packet) (v : Vr) (va : Nat) : (accepted s p).walkVr (taken v p) va = s.walkVr v va := rfl

theorem endpoint_chargeMem (s : State) (q : Payer) (pa n : Nat) (rd wr : Bool) : (s.chargeMem q pa n rd wr).endpoint = s.endpoint := by
  rw [State.chargeMem_frame]

theorem hold_chargeMem (s : State) (q : Payer) (pa n : Nat) (rd wr : Bool) : (s.chargeMem q pa n rd wr).hold = s.hold := by
  rw [State.chargeMem_frame]

/-- What a served pull request leaves. -/
theorem servePull_spec (hep : p.srcEp = s.endpoint) (hw : s.walkVr v p.va.toNat = .ok f) (hpte : pteType f.s1.e ≠ 2) :
    (s.servePull p v).mem = s.mem ∧ (s.servePull p v).hold = s.hold ∧ ∀ i, i < 16 → DataSent s (s.servePull p v) p f i := by
  rw [State.servePull_of_walk hw hpte]
  generalize ht : (s.chargeMem ⟨p.dstvr.toNat, none⟩ f.pa 65536 true false).resolved p 0 [] = t
  have hmem : t.mem = s.mem := by rw [← ht]; exact s.mem_chargeMem _ _ _ _ _
  have hhold : t.hold = s.hold := by rw [← ht]; exact hold_chargeMem s _ _ _ _ _
  have hend : t.endpoint = s.endpoint := by rw [← ht]; exact endpoint_chargeMem s _ _ _ _ _
  obtain ⟨ha, -, hsent⟩ := dataSent_foldl (f := f) (hep.trans hend.symm) (List.range 16)
  refine ⟨ha.mem_eq.trans hmem, by rw [ha.1]; exact hhold, fun i hi => ?_⟩
  have hi := hsent i (List.mem_range.mpr hi)
  unfold DataSent at hi ⊢
  rwa [hmem] at hi

theorem State.pullPacketDone_of_request {ep : Nat} (hm : v.moving = .leaving ep ∨ v.moving = .sent ep) (hop : p.op = 0x28) :
    s.pullPacketDone p v = s.servePull p v := by
  unfold State.pullPacketDone
  rw [hop]
  obtain hm | hm := hm
  · rw [hm]
    rfl
  · rw [hm]
    rfl

end Sys2Proof.Machine
end

section
/-! Pull data at the destination (O42): packets that arrive, the page that lands, and a pull that is refused (R106, R107, R207). -/

namespace Sys2Proof.Machine

open Sys2Proof.Claims

variable {s t : State} {p : Packet} {v : Vr} {vr page : Nat}

/-! ## Pages whose packets are not all there stay as they are -/

/-- One packet of a page, behind those before it. -/
def pulledStep (v : Vr) (page : Nat) (b : Option (List Byte)) (i : Nat) : Option (List Byte) :=
  match b, v.pulls.find? fun x => decide (x.1 = page * 65536 + 4096 * i) with
  | some bs, some x => some (bs ++ x.2)
  | _, _ => none

theorem Vr.pulled_eq (v : Vr) (page : Nat) : v.pulled page = (List.range 16).foldl (pulledStep v page) (some []) := rfl

theorem foldl_pulledStep_none (v : Vr) (page : Nat) (l : List Nat) : l.foldl (pulledStep v page) none = none := by
  induction l with
  | nil => rfl
  | cons i l ih => exact ih

theorem pulledStep_of_missing {i : Nat} (h : ∀ x ∈ v.pulls, x.1 ≠ page * 65536 + 4096 * i) (b : Option (List Byte)) : pulledStep v page b i = none := by
  have hfind : (v.pulls.find? fun x => decide (x.1 = page * 65536 + 4096 * i)) = none :=
    List.find?_eq_none.mpr fun x hx => by rw [decide_eq_true_eq]; exact h x hx
  unfold pulledStep
  rw [hfind]
  cases b <;> rfl

/-- A page of which one packet is missing is not there. -/
theorem Vr.pulled_none {i : Nat} (hi : i < 16) (h : ∀ x ∈ v.pulls, x.1 ≠ page * 65536 + 4096 * i) : v.pulled page = none := by
  obtain ⟨l1, l2, hl⟩ := List.append_of_mem (List.mem_range.mpr hi)
  rw [Vr.pulled_eq, hl, List.foldl_append, List.foldl_cons, pulledStep_of_missing h, foldl_pulledStep_none]

theorem State.landPull_of_missing (h : ∀ v, s.vrAt vr = some v → v.pulled page = none) : s.landPull vr page = s := by
  unfold State.landPull
  cases hv : s.vrAt vr with
  | none => rfl
  | some v =>
    dsimp only
    rw [h v hv]

/-- A page of which no packet is there does not land. -/
theorem State.landPull_of_no_packet (h : ∀ v, s.vrAt vr = some v → ∀ x ∈ v.pulls, x.1 / 65536 ≠ page) : s.landPull vr page = s :=
  State.landPull_of_missing fun v hv => Vr.pulled_none (i := 0) (by decide) fun x hx => by
    have := h v hv x hx
    omega

/-- A packet that is there has its page among those that packets have come for. -/
theorem mem_pullPages (h : s.vrAt vr = some v) {x : Nat × List Byte} (hx : x ∈ v.pulls) : (vr, x.1 / 65536) ∈ s.pullPages := by
  have hmem : (vr, some v) ∈ s.vrs := by
    have hne : sget none s.vrs vr ≠ none := fun hn => by
      have hn' : s.vrAt vr = none := hn
      rw [h] at hn'
      exact absurd hn' nofun
    have hm := mem_of_sget_ne hne
    rwa [show sget none s.vrs vr = some v from h] at hm
  refine List.mem_flatMap.mpr ⟨(vr, some v), hmem, ?_⟩
  exact List.mem_eraseDups.mpr (List.mem_map.mpr ⟨x, hx, rfl⟩)

/-- A list of pages of which one lands, the others being as they were before it and after it. -/
theorem foldl_landPull_one {l : List (Nat × Nat)} {a : Nat × Nat} (ha : a ∈ l) (hland : s.landPull a.1 a.2 = t)
    (hother : ∀ x, x ≠ a → s.landPull x.1 x.2 = s) (hafter : ∀ x : Nat × Nat, t.landPull x.1 x.2 = t) :
    l.foldl (fun s x => s.landPull x.1 x.2) s = t := by
  have hstay (l : List (Nat × Nat)) : l.foldl (fun s x => s.landPull x.1 x.2) t = t := by
    induction l with
    | nil => rfl
    | cons x l ih => rw [List.foldl_cons, hafter, ih]
  induction l with
  | nil => exact absurd ha nofun
  | cons x l ih =>
    rw [List.foldl_cons]
    by_cases hx : x = a
    · rw [hx, hland]
      exact hstay l
    · rw [hother x hx]
      exact ih ((List.mem_cons.mp ha).resolve_left (Ne.symm hx))

theorem foldl_landPull_none (h : ∀ x : Nat × Nat, s.landPull x.1 x.2 = s) (l : List (Nat × Nat)) :
    l.foldl (fun s x => s.landPull x.1 x.2) s = s := by
  induction l with
  | nil => rfl
  | cons x l ih => rw [List.foldl_cons, h, ih]

/-! ## A packet that arrives -/

/-- The state in which a packet of a page has been kept. -/
def keptData (s : State) (p : Packet) : State := s.onVr p.dstvr.toNat fun v => { v with pulls := v.pulls ++ [(p.va.toNat, p.data)] }

theorem State.pullPacketDone_of_data {src : Nat} (hm : v.moving = .arriving src) (hop : p.op = 0x29) :
    s.pullPacketDone p v = (keptData s p).resolve p 0 [] (0, 0) := by
  unfold State.pullPacketDone
  rw [hm, hop]
  rfl

/-- What a packet of a page leaves when it arrives: the tables, the ring and the pulls that wait are the same, its VR has it, and no other VR has any more. -/
def Heard (s t : State) (p : Packet) (v : Vr) : Prop :=
  t.mem = s.mem ∧ (∀ x va, t.walkVr x va = s.walkVr x va) ∧ (∀ n, (t.fnAt n).free = (s.fnAt n).free) ∧
  (∀ n, (t.fnAt n).goodFree = (s.fnAt n).goodFree) ∧ (∀ vr page, s.pullOf vr page = none → t.pullOf vr page = none) ∧
  (∃ w e, t.vrAt p.dstvr.toNat = some { v with pulls := v.pulls ++ [(p.va.toNat, p.data)], srcs := w, energy := e }) ∧
  ∀ k, k ≠ p.dstvr.toNat → ∀ u, t.vrAt k = some u → ∃ u', s.vrAt k = some u' ∧ u.pulls = u'.pulls

theorem pullOf_of_settled {fs : List PFault} {q : Who → Bool} (hf : t.faults = fs.map (PFault.without q)) (hs : s.faults = fs)
    (h : s.pullOf vr page = none) : t.pullOf vr page = none := by
  unfold State.pullOf at h ⊢
  rw [hs] at h
  rw [hf, List.find?_map, Option.map_eq_none_iff]
  exact h

theorem faults_chargeFlit (s : State) (q : Payer) (n : Nat) : (s.chargeFlit q n).faults = s.faults := by
  unfold State.chargeFlit
  split
  · rfl
  · split
    · rfl
    · show (s.charge q (26900 * n)).faults = s.faults
      rw [State.charge_frame]

theorem faults_sendFirst {inst : Option Nat} {q : Packet} {ps : List FabPath} {n : Nat} (h : s.sendFirst inst q ps = some (t, n)) :
    t.faults = s.faults := by
  unfold State.sendFirst at h
  split at h
  · obtain ⟨i, -, hi⟩ := Option.map_eq_some_iff.mp h
    rw [← (Prod.mk.inj hi).1]
    rfl
  · obtain ⟨i, -, hi⟩ := Option.map_eq_some_iff.mp h
    rw [← (Prod.mk.inj hi).1]
    exact faults_chargeFlit _ _ _

theorem faults_answer (s : State) (p : Packet) (status : BitVec 7) (va : BitVec 56) (sem : BitVec 2) (scope : BitVec 3) (data : Option (List Byte)) :
    (s.answer p status va sem scope data).faults = s.faults := by
  unfold State.answer
  dsimp only
  split
  · next h => exact faults_sendFirst h
  · rfl

theorem pullHeard_eq (s : State) (vr page : Nat) : ∃ l, s.pullHeard vr page = { s with unacked := l } := by
  unfold State.pullHeard
  split
  · split
    · exact ⟨_, rfl⟩
    · exact ⟨s.unacked, rfl⟩
  · exact ⟨s.unacked, rfl⟩

theorem State.vrAt_onSrc_ne {k dst : Nat} (h : k ≠ dst) (src : Nat) (f : SrcWin → SrcWin) : (s.onSrc dst src f).vrAt k = s.vrAt k := by
  rw [State.onSrc, State.vrAt_onVr, if_neg h]

/-- The packet as it is kept and answered. -/
def dataTaken (s : State) (p : Packet) : State := (keptData (accepted s p) p).resolved p 0 []

theorem vrAt_dataTaken_ne {k : Nat} (h : k ≠ p.dstvr.toNat) : (dataTaken s p).vrAt k = s.vrAt k := by
  refine (State.vrAt_onSrc_ne (s := keptData (accepted s p) p) h _ _).trans ?_
  rw [keptData, State.vrAt_onVr, if_neg h]
  exact State.vrAt_onSrc_ne h _ _

theorem vrAt_dataTaken (h : s.vrAt p.dstvr.toNat = some v) :
    ∃ w, (dataTaken s p).vrAt p.dstvr.toNat = some { v with pulls := v.pulls ++ [(p.va.toNat, p.data)], srcs := w } := by
  refine vrAt_resolved (s := keptData (accepted s p) p) (v := { taken v p with pulls := v.pulls ++ [(p.va.toNat, p.data)] }) ?_
  rw [keptData, State.vrAt_onVr, if_pos rfl, vrAt_accepted h]
  rfl

theorem arrive_of_data {src : Nat} (hin : InOrder s p v) (hwin : winAllows v p (reqLen p) = true) (hm : v.moving = .arriving src)
    (hop : p.op = 0x29) : s.arrive p = (keptData (accepted s p) p).resolve p 0 [] (0, 0) := by
  have hdone : (accepted s p).pullPacketDone p (taken v p) = (keptData (accepted s p) p).resolve p 0 [] (0, 0) :=
    State.pullPacketDone_of_data (v := taken v p) hm hop
  rw [← hdone]
  refine State.arrive_pull hin hwin (by rw [hop]; decide) (fun h => absurd (hop.symm.trans h) (by decide)) ?_
  rw [hdone, hold_resolve]
  exact hin.2.2.2.2.2.2

theorem State.walkVr_onVr (s : State) (k : Nat) (g : Vr → Vr) (x : Vr) (va : Nat) : (s.onVr k g).walkVr x va = s.walkVr x va := rfl

theorem State.walkVr_settle (s : State) (who : Who) (x : Vr) (va : Nat) : (s.settle who).walkVr x va = s.walkVr x va := rfl

theorem fnAt_dataTaken (s : State) (p : Packet) (n : Nat) : (dataTaken s p).fnAt n = s.fnAt n := rfl

theorem walkVr_dataTaken (s : State) (p : Packet) (x : Vr) (va : Nat) : (dataTaken s p).walkVr x va = s.walkVr x va := by
  rw [dataTaken, State.resolved]
  dsimp only
  rw [State.walkVr_settle, State.onSrc, State.walkVr_onVr, keptData, State.walkVr_onVr, accepted, State.onSrc, State.walkVr_onVr]

theorem heard_of_aside (hv : s.vrAt p.dstvr.toNat = some v) (ha : Aside (dataTaken s p) t) (hf : t.faults = (dataTaken s p).faults) :
    Heard s t p v := by
  have hfn (n : Nat) : t.fnAt n = { s.fnAt n with
      waiting := (t.fnAt n).waiting, tags := (t.fnAt n).tags, rings := (t.fnAt n).rings, bal := (t.fnAt n).bal, energy := (t.fnAt n).energy } := by
    have h := ha.2.1 n
    rwa [fnAt_dataTaken] at h
  obtain ⟨w, hw⟩ := vrAt_dataTaken hv
  obtain ⟨e, he⟩ := ha.vrAt_some hw
  refine ⟨ha.mem_eq, fun x va => (ha.walkVr x va).trans (walkVr_dataTaken s p x va), fun n => ?_, fun n => ?_, fun vr page h => ?_, ⟨w, e, he⟩, fun k hk u hu => ?_⟩
  · rw [hfn n]
  · rw [hfn n]
    rfl
  · exact pullOf_of_settled hf rfl h
  · obtain ⟨e, he⟩ := ha.2.2 k
    rw [vrAt_dataTaken_ne hk] at he
    rw [he] at hu
    obtain ⟨u', hu', rfl⟩ := Option.map_eq_some_iff.mp hu
    exact ⟨u', hu', rfl⟩

theorem Heard.unacked (h : Heard s t p v) (l : List Unacked) : Heard s { t with unacked := l } p v := h

theorem heard_of_arrive {src : Nat} (hin : InOrder s p v) (hwin : winAllows v p (reqLen p) = true) (hm : v.moving = .arriving src)
    (hop : p.op = 0x29) : Heard s ((s.arrive p).pullHeard p.dstvr.toNat (p.va.toNat / 65536)) p v := by
  obtain ⟨l, hl⟩ := pullHeard_eq (s.arrive p) p.dstvr.toNat (p.va.toNat / 65536)
  rw [hl, arrive_of_data hin hwin hm hop]
  refine Heard.unacked ?_ l
  exact heard_of_aside hin.2.1 (aside_resolve _ _ _ _ _) (faults_answer _ _ _ _ _ _ _)

end Sys2Proof.Machine
end

section
/-! A pulled page lands, and a refused pull marks the move (O42, R106, R107, R207). -/

namespace Sys2Proof.Machine

open Sys2Proof.Claims

variable {s t : State} {p : Packet} {v : Vr} {vr page : Nat}

/-! ## Where a page lands (R107) -/

/-- The state in which a page of the ring of function 0 has been taken. -/
def ringTaken (s : State) (rest : List Word) : State := s.onFn 0 fun _ => { s.fnAt 0 with free := rest }

theorem State.pullPlace_of_ring {e : Word} {rest : List Word} (hfn : v.fn = 0) (hcold : v.cold = false) (hfree : (s.fnAt 0).free = e :: rest)
    (he : (s.fnAt 0).goodFree e = true) (va : Nat) : s.pullPlace v vr va = (ringTaken s rest, .ok (e.toNat, e.toNat)) := by
  unfold State.pullPlace
  rw [hcold, if_neg (by decide)]
  unfold State.pullAt
  rw [if_pos hfn, hfn]
  dsimp only
  rw [State.takeFree_cons hfree he]
  rfl

/-- A page's bytes and its entry are written. -/
def pageWritten (s : State) (vr page pa addr : Nat) (f : Found) (bs : List Byte) : State :=
  let u := s.chargeMem ⟨vr, none⟩ pa 65536 false true
  { u with mem := (u.mem.setBytes pa bs).write f.s1.at_ 8 (f.s1.e.toNat % 256 / 8 * 8 + 1 + addr), rels := clearRel u.rels pa 65536 }.dropPage vr page

/-- The VR has one page more. -/
def countLanded (page : Nat) (v : Vr) : Vr :=
  { v.dropPulls page with acked := v.acked + 1, remain := v.remain - 1, moving := if v.remain ≤ 1 then .no else v.moving }

/-- The state in which a page has landed and its VR has counted it. -/
def pageLanded (s : State) (vr page pa addr : Nat) (f : Found) (bs : List Byte) : State :=
  (pageWritten s vr page pa addr f bs).onVr vr (countLanded page)

theorem faults_pageLanded (s : State) (vr page pa addr : Nat) (f : Found) (bs : List Byte) : (pageLanded s vr page pa addr f bs).faults = s.faults := by
  show (s.chargeMem ⟨vr, none⟩ pa 65536 false true).faults = s.faults
  rw [State.chargeMem_frame]

theorem mem_pageLanded (s : State) (vr page pa addr : Nat) (f : Found) (bs : List Byte) :
    (pageLanded s vr page pa addr f bs).mem = (s.mem.setBytes pa bs).write f.s1.at_ 8 (f.s1.e.toNat % 256 / 8 * 8 + 1 + addr) := by
  show ((s.chargeMem ⟨vr, none⟩ pa 65536 false true).mem.setBytes pa bs).write f.s1.at_ 8 _ = _
  rw [s.mem_chargeMem]

theorem vrAt_pageWritten (s : State) (vr page pa addr : Nat) (f : Found) (bs : List Byte) (k : Nat) :
    (pageWritten s vr page pa addr f bs).vrAt k = (s.chargeMem ⟨vr, none⟩ pa 65536 false true).vrAt k := rfl

theorem fnAt_pageLanded (s : State) (vr page pa addr : Nat) (f : Found) (bs : List Byte) (n : Nat) :
    (pageLanded s vr page pa addr f bs).fnAt n = (s.chargeMem ⟨vr, none⟩ pa 65536 false true).fnAt n := rfl

/-- The page's landing tells the source and nothing else but its state. -/
theorem aside_pullLands (h : s.pullOf vr page = none) (v : Vr) (pa addr : Nat) (f : Found) (bs : List Byte) :
    Aside (pageLanded s vr page pa addr f bs) (s.pullLands v vr page pa addr f bs) := by
  have hno : (pageLanded s vr page pa addr f bs).pullOf vr page = none := by
    unfold State.pullOf
    rw [faults_pageLanded]
    exact h
  have hlands : s.pullLands v vr page pa addr f bs =
      ((pageLanded s vr page pa addr f bs).request none 0 0 0 { pullPacket vr v page f.s1.e with op := 0x2A }).getD
        (pageLanded s vr page pa addr f bs) := by
    unfold State.pullLands
    dsimp only
    generalize hu : State.onVr _ vr _ = u
    have hu' : pageLanded s vr page pa addr f bs = u := hu
    rw [hu'] at hno ⊢
    rw [hno]
  rw [hlands]
  cases hr : (pageLanded s vr page pa addr f bs).request none 0 0 0 { pullPacket vr v page f.s1.e with op := 0x2A } with
  | none => exact aside_refl _
  | some t => exact (aside_refl _).request hr

/-- What a page that lands leaves. -/
theorem pullLands_spec (hno : s.pullOf vr page = none) (hv : s.vrAt vr = some v) (x : Vr) (pa addr : Nat) (f : Found) (bs : List Byte) :
    (s.pullLands x vr page pa addr f bs).mem = (s.mem.setBytes pa bs).write f.s1.at_ 8 (f.s1.e.toNat % 256 / 8 * 8 + 1 + addr) ∧
    (∀ n, ((s.pullLands x vr page pa addr f bs).fnAt n).free = (s.fnAt n).free) ∧
    (∃ e, (s.pullLands x vr page pa addr f bs).vrAt vr = some { countLanded page v with energy := e }) ∧
    ∀ k, k ≠ vr → ∀ u, (s.pullLands x vr page pa addr f bs).vrAt k = some u → ∃ u', s.vrAt k = some u' ∧ u.pulls = u'.pulls := by
  have ha := aside_pullLands hno x pa addr f bs
  have hc : Aside s (s.chargeMem ⟨vr, none⟩ pa 65536 false true) := (aside_refl s).chargeMem _ _ _ _ _
  refine ⟨ha.mem_eq.trans (mem_pageLanded _ _ _ _ _ _ _), fun n => ?_, ?_, fun k hk u hu => ?_⟩
  · rw [ha.2.1 n, fnAt_pageLanded]
    exact s.free_chargeMem _ _ _ _ _ _
  · obtain ⟨e1, he1⟩ := hc.vrAt_some hv
    have hland : (pageLanded s vr page pa addr f bs).vrAt vr = some (countLanded page { v with energy := e1 }) := by
      rw [pageLanded, State.vrAt_onVr, if_pos rfl, vrAt_pageWritten, he1]
      rfl
    obtain ⟨e, he⟩ := ha.vrAt_some hland
    exact ⟨e, he⟩
  · obtain ⟨e, he⟩ := ha.2.2 k
    rw [pageLanded, State.vrAt_onVr, if_neg hk, vrAt_pageWritten] at he
    obtain ⟨e1, he1⟩ := hc.2.2 k
    rw [he, he1] at hu
    obtain ⟨u1, hu1, rfl⟩ := Option.map_eq_some_iff.mp hu
    obtain ⟨u2, hu2, rfl⟩ := Option.map_eq_some_iff.mp hu1
    exact ⟨u2, hu2, rfl⟩

/-- A whole page with a place in the ring lands; a VR that this ends pulls nothing more. -/
theorem State.landPull_of_whole {bs : List Byte} {f : Found} {e : Word} {rest : List Word} (hv : s.vrAt vr = some v) (hpulled : v.pulled page = some bs)
    (hwalk : s.walkVr v (page * 65536) = .ok f) (hpte : pteType f.s1.e = 2) (hfn : v.fn = 0) (hcold : v.cold = false) (hremain : v.remain = 1)
    (hfree : (s.fnAt 0).free = e :: rest) (he : (s.fnAt 0).goodFree e = true) (hno : s.pullOf vr page = none) :
    s.landPull vr page = (ringTaken s rest).pullLands v vr page e.toNat e.toNat f bs := by
  have hv' : (ringTaken s rest).vrAt vr = some v := hv
  have hno' : (ringTaken s rest).pullOf vr page = none := hno
  obtain ⟨-, -, ⟨n, hland⟩, -⟩ := pullLands_spec hno' hv' v e.toNat e.toNat f bs
  have hmoving : (countLanded page v).moving = .no := by
    show (if v.remain ≤ 1 then Moving.no else v.moving) = .no
    rw [if_pos (by omega)]
  unfold State.landPull
  rw [hv]
  dsimp only
  rw [hpulled, hwalk]
  dsimp only
  rw [if_neg (not_not.mpr hpte), State.pullPlace_of_ring hfn hcold hfree he]
  exact State.pullOn_of_no hland hmoving 7

/-! ## A refused pull (R106, R207) -/

/-- The state in which a VR's move is marked as failed. -/
def moveFailed (s : State) (vr page : Nat) : State := s.onVr vr fun v => { v.dropPulls page with failed := true }

theorem State.pullFails_spec (hq : Quiet s) (hv : s.vrAt vr = some v) : 
    (s.pullFails vr page).mem = s.mem ∧ (s.pullFails vr page).vrAt vr = some { v.dropPulls page with failed := true } ∧
    ∀ f, s.pullOf vr page = some f → (s.pullFails vr page).denied = s.denied ++ f.who.map fun w => (w, f.vr, f.page) := by
  have hfail : (moveFailed s vr page).vrAt vr = some { v.dropPulls page with failed := true } := by
    rw [moveFailed, State.vrAt_onVr, if_pos rfl, hv]
    rfl
  have heq : s.pullFails vr page = match s.pullOf vr page with
      | some f => (moveFailed s vr page).faultRefused f
      | none => moveFailed s vr page := rfl
  cases hp : s.pullOf vr page with
  | none =>
    rw [hp] at heq
    rw [heq]
    exact ⟨rfl, hfail, nofun⟩
  | some f =>
    rw [hp] at heq
    rw [heq]
    dsimp only
    rw [State.faultRefused_of_quiet (quiet_of_eq (t := moveFailed s vr page) hq rfl rfl rfl)]
    exact ⟨rfl, hfail, fun g hg => by rw [← Option.some.inj hg]; rfl⟩

end Sys2Proof.Machine
end

section
/-! The statement about a moving VR (O42). -/

namespace Sys2Proof.Machine

open Sys2Proof.Claims

variable {s : State} {p : Packet} {v : Vr} {page : Nat}

theorem exec_pullData_arrived (s : State) (p : Packet) :
    exec (.pullData p true) s = .next (((s.arrive p).pullHeard p.dstvr.toNat (p.va.toNat / 65536)).landPulls) := rfl

theorem exec_pullData_refused (s : State) (p : Packet) :
    exec (.pullData p false) s = .next (State.pullOn p.srcvr.toNat 8 (s.pullFails p.srcvr.toNat (p.va.toNat / 65536))) := rfl

/-! ## A packet that is one of several (R207) -/

/-- A page of one packet is not there. -/
theorem Vr.pulled_of_one {x : Nat × List Byte} (h : v.pulls = [x]) (page : Nat) : v.pulled page = none := by
  by_cases hx : x.1 = page * 65536
  · refine Vr.pulled_none (i := 1) (by decide) fun y hy => ?_
    rw [h, List.mem_singleton] at hy
    rw [hy]
    omega
  · refine Vr.pulled_none (i := 0) (by decide) fun y hy => ?_
    rw [h, List.mem_singleton] at hy
    rwa [hy, Nat.mul_zero, Nat.add_zero]

/-- Where no packet has come before, the first one changes no page. -/
theorem landPulls_of_first {t : State} (h : Heard s t p v) (hv : s.vrAt p.dstvr.toNat = some v) (hnone : s.pullPages = []) : t.landPulls = t := by
  have hno {k : Nat} {u : Vr} (hu : s.vrAt k = some u) : u.pulls = [] := List.eq_nil_iff_forall_not_mem.mpr fun x hx => by
    have hx := mem_pullPages hu hx
    rw [hnone] at hx
    exact absurd hx nofun
  obtain ⟨-, -, -, -, -, ⟨w, e, hdst⟩, hrest⟩ := h
  refine foldl_landPull_none (fun x => State.landPull_of_missing fun u hu => ?_) t.pullPages
  by_cases hx : x.1 = p.dstvr.toNat
  · rw [hx, hdst] at hu
    have hone : u.pulls = [(p.va.toNat, p.data)] := by
      rw [← Option.some.inj hu, hno hv]
      rfl
    exact Vr.pulled_of_one hone _
  · obtain ⟨u', hu', hp⟩ := hrest x.1 hx u hu
    exact Vr.pulled_none (i := 0) (by decide) fun y hy => by
      rw [hp, hno hu'] at hy
      exact absurd hy nofun

/-! ## The packet that completes a page (R107, R207) -/

section Landing
variable {t : State} {bs : List Byte} {f : Found} {e : Word} {rest : List Word}
variable (hheard : Heard s t p v) (hv : s.vrAt p.dstvr.toNat = some v) (hpages : s.pullPages = [(p.dstvr.toNat, page)])
  (hpage : p.va.toNat / 65536 = page)
include hheard hv hpages hpage

/-- Every packet that is there is one of the page that is to land. -/
theorem page_of_heard {k : Nat} {u : Vr} (hu : t.vrAt k = some u) {x : Nat × List Byte} (hx : x ∈ u.pulls) : k = p.dstvr.toNat ∧ x.1 / 65536 = page := by
  have hold {k : Nat} {u : Vr} (hu : s.vrAt k = some u) {x : Nat × List Byte} (hx : x ∈ u.pulls) : k = p.dstvr.toNat ∧ x.1 / 65536 = page := by
    have hx := mem_pullPages hu hx
    rw [hpages, List.mem_singleton] at hx
    exact Prod.mk.inj hx
  obtain ⟨-, -, -, -, -, ⟨w, n, hdst⟩, hrest⟩ := hheard
  by_cases hk : k = p.dstvr.toNat
  · rw [hk, hdst] at hu
    rw [← Option.some.inj hu] at hx
    refine ⟨hk, ?_⟩
    obtain hx | hx := List.mem_append.mp hx
    · exact (hold hv hx).2
    · rw [List.mem_singleton.mp hx]
      exact hpage
  · obtain ⟨u', hu', hp⟩ := hrest k hk u hu
    rw [hp] at hx
    exact hold hu' hx

variable (hfn : v.fn = 0) (hcold : v.cold = false) (hremain : v.remain = 1)
  (hpulled : ({ v with pulls := v.pulls ++ [(p.va.toNat, p.data)] } : Vr).pulled page = some bs)
  (hwalk : s.walkVr v (page * 65536) = .ok f) (hpte : pteType f.s1.e = 2) (hfree : (s.fnAt 0).free = e :: rest) (he : (s.fnAt 0).goodFree e = true)
  (hno : s.pullOf p.dstvr.toNat page = none)
include hfn hcold hremain hpulled hwalk hpte hfree he hno

/-- The page whose last packet has come lands in the ring's first page, and the move ends. -/
theorem landPulls_of_last : ∃ u, t.landPulls.vrAt p.dstvr.toNat = some u ∧ u.moving = .no ∧ u.remain = 0 ∧ (t.landPulls.fnAt 0).free = rest ∧
    t.landPulls.mem = (s.mem.setBytes e.toNat bs).write f.s1.at_ 8 (f.s1.e.toNat % 256 / 8 * 8 + 1 + e.toNat) := by
  have hone := @page_of_heard s p v page t hheard hv hpages hpage
  obtain ⟨hmem, hwalks, hfrees, hgood, hpulls, ⟨w, n, hdst⟩, -⟩ := hheard
  have hland := State.landPull_of_whole (page := page) hdst hpulled ((hwalks _ _).trans hwalk) hpte hfn hcold hremain ((hfrees 0).trans hfree)
    ((congrFun (hgood 0) e).trans he) (hpulls _ _ hno)
  obtain ⟨hmem', hfree', ⟨n', hdst'⟩, hrest'⟩ := pullLands_spec (s := ringTaken t rest) (page := page) (hpulls _ _ hno) hdst
    { v with pulls := v.pulls ++ [(p.va.toNat, p.data)], srcs := w, energy := n } e.toNat e.toNat f bs
  rw [← hland] at hmem' hfree' hdst' hrest'
  have hall : t.landPulls = t.landPull p.dstvr.toNat page := by
    refine foldl_landPull_one (a := (p.dstvr.toNat, page)) ?_ rfl (fun x hx => State.landPull_of_no_packet fun u hu y hy heq => ?_)
      fun x => State.landPull_of_no_packet fun u hu y hy heq => ?_
    · have hin : (p.va.toNat, p.data) ∈ v.pulls ++ [(p.va.toNat, p.data)] := List.mem_append_right _ (List.mem_singleton_self _)
      have hin' := mem_pullPages hdst hin
      rwa [hpage] at hin'
    · obtain ⟨h1, h2⟩ := hone hu hy
      exact hx (Prod.ext h1 (heq.symm.trans h2))
    · by_cases hk : x.1 = p.dstvr.toNat
      · rw [hk, hdst'] at hu
        rw [← Option.some.inj hu] at hy
        obtain ⟨hy, hne⟩ := List.mem_filter.mp hy
        exact of_decide_eq_true hne (hone hdst hy).2
      · obtain ⟨u', hu', hp⟩ := hrest' x.1 hk u hu
        rw [hp] at hy
        exact hk (hone hu' hy).1
  rw [hall]
  refine ⟨_, hdst', ?_, ?_, ?_, ?_⟩
  · show (if v.remain ≤ 1 then Moving.no else v.moving) = .no
    rw [if_pos (by omega)]
  · show v.remain - 1 = 0
    omega
  · rw [hfree' 0, ringTaken, State.fnAt_onFn, if_pos rfl]
  · rw [hmem', show (ringTaken t rest).mem = s.mem from hmem]

end Landing

end Sys2Proof.Machine

namespace Sys2Proof.Proofs

open Sys2Proof.Machine Sys2Proof.Claims

/-- The clauses of MIGRATION_CONTEXT for a context that is taken. -/
theorem migrationContext_lands {s s1 : State} {c : MoveContext} {b : Bool} {v1 : Vr} (hvr : s.vrAt c.vr = none) (hb : s.newVrCold = some b)
    (h : c.leaves.foldl (landLeaf c)
      (s.newRoot { newVr c.fn 0 c.image c.seed c.key (s.ipaFrom c) c.ipaEnd with cold := b, energy := c.energy } c.vr) = (s1, .ok v1)) :
    ∃ t u, exec (.migrationContext (.context c)) s = .next t ∧ t.mem = s1.mem ∧ t.vrAt c.vr = some u ∧ u.fn = v1.fn ∧ u.root = v1.root ∧
      u.image = v1.image ∧ u.key = v1.key ∧ u.seed = v1.seed ∧ u.k = c.consts ∧ u.windows = c.windows ∧ u.peers = c.peers ∧
      u.migtok = c.token ∧ u.moving = .landing c.from_.toNat ∧ u.remain = c.leaves.length ∧
      u.energy = v1.energy ∧ u.cold = v1.cold ∧ sget none t.location c.vr = some s.endpoint.toNat := by
  obtain ⟨⟨v, hroot⟩, hend⟩ := endpoint_landLeaves_ok h
  have hstart := State.endpoint_newRoot_ok (s := s) (v1 := v) (Prod.ext rfl hroot)
  have hexec : exec (.migrationContext (.context c)) s = .next (landed c ((s1.settle (.sup c.vr)).keepIpa v1) v1) :=
    congrArg Host.Outcome.next ((State.landContext_eq hvr hb).trans (by rw [h]; rfl))
  refine ⟨_, _, hexec, ?_, sget_sset_self _ _ _ _, rfl, rfl, rfl, rfl, rfl, rfl, rfl, rfl, rfl, rfl, rfl, rfl, rfl, ?_⟩
  · exact State.mem_keepIpa _ _
  · refine (sget_sset_self _ _ _ _).trans ?_
    rw [State.endpoint_keepIpa]
    exact congrArg (fun x : BitVec 12 => some x.toNat) (hend.trans hstart)

/-- MIGRATION_DRAIN_END once nothing is held for the VR. -/
theorem migrationDrainEnd_drains {s : State} {vr ep : Nat} {v : Vr} (hv : s.vrAt vr = some v) (hm : v.moving = .leaving ep)
    (hheld : ∀ h ∈ s.hold, h.p.dstvr.toNat ≠ vr) :
    ∃ t pairs, exec (.migrationDrainEnd vr) s = .next t ∧ sget none t.location vr = some ep ∧
      t.sent = s.sent ++ [.move ep (.last vr v.srcs pairs v.staged v.energy)] ∧ t.mem = s.mem ∧
      (v.remain ≠ 0 → t.vrAt vr = some { v with moving := .sent ep, energy := 0 }) ∧ (v.remain = 0 → t.vrAt vr = none) := by
  have hloc : sget none (drained s vr ep v).location vr = some ep := sget_sset_self _ _ _ _
  rw [exec_migrationDrainEnd_drains hv hm hheld]
  split
  · next h0 =>
    exact ⟨_, _, rfl, hloc, sent_freeVr (vrAt_drained hv) rfl rfl, rfl, fun h => absurd h0 h, fun _ => State.vrAt_freeVr _ _⟩
  · next h0 => exact ⟨_, _, rfl, hloc, rfl, rfl, fun _ => vrAt_drained hv, fun h => absurd h h0⟩

/-- PULL_REQUEST at the source. -/
theorem pullRequest_served {s : State} {p : Packet} {v : Vr} {f : Found} {ep : Nat} (hin : InOrder s p v) (hwin : winAllows v p (reqLen p) = true)
    (hm : v.moving = .leaving ep ∨ v.moving = .sent ep) (hop : p.op = 0x28) (h0 : s.budgetHeld p.dstvr.toNat 0 = false)
    (h1 : s.budgetHeld p.dstvr.toNat 1 = false) (hw : s.walkVr v p.va.toNat = .ok f) (hpte : pteType f.s1.e ≠ 2) (hep : p.srcEp = s.endpoint) :
    ∃ t, exec (.pullRequest p) s = .next t ∧ t.mem = s.mem ∧ ∀ i, i < 16 → DataSent s t p f i := by
  have hdone : (accepted s p).pullPacketDone p (taken v p) = (accepted s p).servePull p (taken v p) :=
    State.pullPacketDone_of_request (v := taken v p) hm hop
  obtain ⟨hmem, hhold, hsent⟩ := servePull_spec (s := accepted s p) (p := p) (v := taken v p) hep ((walkVr_accepted s p v _).trans hw) hpte
  have harrive : s.arrive p = (accepted s p).servePull p (taken v p) := by
    rw [← hdone]
    refine State.arrive_pull hin hwin (by rw [hop]; decide) (fun _ => ⟨h0, h1⟩) ?_
    rw [hdone, hhold]
    exact hin.2.2.2.2.2.2
  exact ⟨_, congrArg Host.Outcome.next harrive, hmem, hsent⟩

/-- PULL_ACKNOWLEDGEMENT at the source: one page less, and after the last one no VR. -/
theorem pullAcknowledgement_counts {s : State} {p : Packet} {v : Vr} {ep : Nat} (hin : InOrder s p v) (hwin : winAllows v p (reqLen p) = true)
    (hm : v.moving = .sent ep) (hop : p.op = 0x2A) :
    (2 ≤ v.remain → ∃ t u, exec (.pullAcknowledgement p) s = .next t ∧ t.mem = s.mem ∧ t.vrAt p.dstvr.toNat = some u ∧
      u.acked = v.acked + 1 ∧ u.remain = v.remain - 1 ∧ u.moving = .sent ep) ∧
    (v.remain ≤ 1 → ∃ t, exec (.pullAcknowledgement p) s = .next t ∧ t.mem = s.mem ∧ t.vrAt p.dstvr.toNat = none) := by
  have hexec : exec (.pullAcknowledgement p) s = .next ((accepted s p).pullPacketDone p (taken v p)) :=
    congrArg Host.Outcome.next (arrive_of_ack hin hwin hm hop)
  have hmem : ((accepted s p).pullPacketDone p (taken v p)).mem = s.mem := mem_pullPacketDone_of_ack (v := taken v p) hm hop
  have hdone := State.pullPacketDone_of_ack (s := accepted s p) (v := taken v p) hm hop
  refine ⟨fun h => ?_, fun h => ?_⟩
  · rw [if_neg (show ¬ (taken v p).remain ≤ 1 from fun hle => absurd (show v.remain ≤ 1 from hle) (by omega))] at hdone
    have hacked : (ackedOnce (accepted s p) p).vrAt p.dstvr.toNat = some { taken v p with acked := v.acked + 1, remain := v.remain - 1 } := by
      rw [ackedOnce, State.vrAt_onVr, if_pos rfl, vrAt_accepted hin.2.1]
      rfl
    obtain ⟨w, e, hw⟩ := vrAt_resolve (status := 0) (data := []) (pair := (0, 0)) hacked
    rw [← hdone] at hw
    exact ⟨_, _, hexec, hmem, hw, rfl, rfl, hm⟩
  · rw [if_pos (show (taken v p).remain ≤ 1 from h)] at hdone
    exact ⟨_, hexec, hmem, by rw [hdone]; exact State.vrAt_freeVr _ _⟩

/-- PULL_DATA with the packet that completes the last page. -/
theorem pullData_lands {s : State} {p : Packet} {v : Vr} {src page : Nat} {bs : List Byte} {e : Word} {rest : List Word} {f : Found}
    (hin : InOrder s p v) (hwin : winAllows v p (reqLen p) = true) (hm : v.moving = .arriving src) (hop : p.op = 0x29)
    (hpages : s.pullPages = [(p.dstvr.toNat, page)]) (hpage : p.va.toNat / 65536 = page) (hfn : v.fn = 0) (hcold : v.cold = false)
    (hremain : v.remain = 1) (hpulled : ({ v with pulls := v.pulls ++ [(p.va.toNat, p.data)] } : Vr).pulled page = some bs)
    (hlen : bs.length = 65536) (hwalk : s.walkVr v (page * 65536) = .ok f) (hpte : pteType f.s1.e = 2) (hfree : (s.fnAt 0).free = e :: rest)
    (he : (s.fnAt 0).goodFree e = true) (hno : s.pullOf p.dstvr.toNat page = none) (hsep : f.s1.at_ + 8 ≤ e.toNat ∨ e.toNat + 65536 ≤ f.s1.at_) :
    ∃ t u, exec (.pullData p true) s = .next t ∧ t.vrAt p.dstvr.toNat = some u ∧ u.moving = .no ∧ u.remain = 0 ∧
      (t.fnAt 0).free = rest ∧
      ∀ x, (within f.s1.at_ 8 x → t.mem.byte x = byteOf (f.s1.e.toNat % 256 / 8 * 8 + 1 + e.toNat) (x - f.s1.at_)) ∧
        (within e.toNat 65536 x → t.mem.byte x = bs.getD (x - e.toNat) 0) ∧
        (¬ within f.s1.at_ 8 x → ¬ within e.toNat 65536 x → t.mem.byte x = s.mem.byte x) := by
  obtain ⟨u, hu, hmoving, hzero, hring, hmem⟩ := landPulls_of_last (heard_of_arrive hin hwin hm hop) hin.2.1 hpages hpage hfn hcold hremain hpulled
    hwalk hpte hfree he hno
  refine ⟨_, u, exec_pullData_arrived s p, hu, hmoving, hzero, hring, fun x => ?_⟩
  rw [hmem]
  refine ⟨fun hx => Mem.byte_write_within hx _ _, fun hx => ?_, fun hx hx' => ?_⟩
  · obtain ⟨h1, h2⟩ := hx
    refine (Mem.byte_write_not_within (by unfold within; omega) _ _).trans ?_
    rw [Mem.byte_setBytes, hlen, if_pos ⟨h1, h2⟩]
    rfl
  · refine (Mem.byte_write_not_within hx _ _).trans (Mem.byte_setBytes_outside _ _ _ _ ?_)
    rw [hlen]
    unfold within at hx'
    omega

/-- PULL_DATA for a pull request that is refused. -/
theorem pullData_refused {s : State} {p : Packet} {v : Vr} (hv : s.vrAt p.srcvr.toNat = some v) (hq : Quiet s) :
    ∃ t u, exec (.pullData p false) s = .next t ∧ t.mem = s.mem ∧ t.vrAt p.srcvr.toNat = some u ∧ u.failed = true ∧
      ∀ f, s.pullOf p.srcvr.toNat (p.va.toNat / 65536) = some f → ∀ w ∈ f.who, (w, f.vr, f.page) ∈ t.denied := by
  obtain ⟨hmem, hfail, hdenied⟩ := State.pullFails_spec (page := p.va.toNat / 65536) hq hv
  obtain ⟨hmem', hdenied', hvr⟩ := State.pullOn_spec (vr := p.srcvr.toNat) (k := 8) (s := s.pullFails p.srcvr.toNat (p.va.toNat / 65536))
  obtain ⟨e, n, hu⟩ := hvr _ hfail
  refine ⟨_, _, exec_pullData_refused s p, hmem'.trans hmem, hu, rfl, fun f hf w hw => ?_⟩
  rw [hdenied', hdenied f hf]
  exact List.mem_append_right _ (List.mem_map_of_mem hw)

/-- Settles O42: contexts and sequences land by the equations of their steps; a pull packet in its order is served at once, and of what a served one sends and meters no table and no other VR's page depends. -/
theorem movingVr : Obligations.MovingVr := by
  unfold Obligations.MovingVr
  intro s
  refine ⟨fun c hc => ?_, fun c hc => ?_, fun c b s1 v1 hvr hb => ?_, fun vr n v hv => ?_, fun vr srcs pairs staged n v src hv hm => ?_,
    fun vr v ep hv hm => ⟨exec_migrationDrainEnd_waits hv hm, migrationDrainEnd_drains hv hm⟩, fun vr v hv hm => exec_migrationDrainEnd_no hv hm,
    fun p v ep hin hwin hm => ⟨fun f hop h0 h1 hw hpte hep => pullRequest_served hin hwin hm hop h0 h1 hw hpte hep,
      fun hop hsent => pullAcknowledgement_counts hin hwin hsent hop⟩, fun p v src hin hwin hm hop => ⟨fun hnone => ?_, ?_⟩, fun p v hv hq => pullData_refused hv hq⟩
  · exact congrArg Host.Outcome.next (if_pos (Or.inl hc))
  · exact congrArg Host.Outcome.next (if_pos (Or.inr (by rw [hc]; rfl)))
  · intro v0 h
    exact migrationContext_lands hvr hb h
  · refine ⟨s.onVr vr fun v => { v with energy := v.energy + n }, rfl, rfl, ?_, fun k hk => ?_⟩
    · rw [State.vrAt_onVr, if_pos rfl, hv]
      rfl
    · rw [State.vrAt_onVr, if_neg hk]
  · obtain ⟨e, m, hu, hmem⟩ := State.landLast_of_landing (srcs := srcs) (pairs := pairs) (staged := staged) (n := n) hv hm
    exact ⟨_, _, rfl, hu, rfl, rfl, rfl, rfl, fun x => congrArg (Mem.byte · x) hmem⟩
  · have hheard := heard_of_arrive hin hwin hm hop
    obtain ⟨hmem, -, -, -, -, ⟨w, e, hu⟩, -⟩ := id hheard
    refine ⟨_, _, (exec_pullData_arrived s p).trans (congrArg Host.Outcome.next (landPulls_of_first hheard hin.2.1 hnone)), hmem, hu, rfl⟩
  · intro bs e rest f page hpages hpage hfn hcold hremain hpulled hlen hwalk hpte hfree he hno hsep
    exact pullData_lands hin hwin hm hop hpages hpage hfn hcold hremain hpulled hlen hwalk hpte hfree he hno hsep

end Sys2Proof.Proofs
end
